-- ==== Sys2Proof/Word.lean ====
section
/-! DEFINITION. The word types of the BV800: the widths that R32 and R21 give registers and instruction words. -/

namespace Sys2Proof

/-- One byte of memory or scratchpad (R1). -/
abbrev Byte := BitVec 8
/-- A v-register of one thread (R32). -/
abbrev W32 := BitVec 32
/-- An s-register, an interval mask or a register pair (R32). -/
abbrev W64 := BitVec 64
/-- A 16-bit block descriptor (R60) or packed half. -/
abbrev W16 := BitVec 16
/-- A buffer record (R157). -/
abbrev Rec := BitVec 256
/-- A mask with one bit per thread of a squad (R126). -/
abbrev Mask := BitVec 32

end Sys2Proof
end

