-- ==== Sys2Proof/Syntax.lean ====
section
/-! DEFINITION. The instruction set of the BV800: one constructor of `Instr` for every row of
spec/opcode_table.json, the 190 instructions first and then the 87 events of the device.
Register numbers and immediates are plain numbers here. WellFormed bounds them. -/

namespace Sys2Proof

/-- Integer types of X bits 1-0 (R31). -/
inductive IType where | u32 | s32 | u64 | s64
  deriving DecidableEq, Repr

/-- Floating-point types (R31). -/
inductive FType where | f32 | f16 | bf16
  deriving DecidableEq, Repr

/-- Rounding modes (R31, R63). -/
inductive Rm where | rne | rtz | rdn | rup | rna
  deriving DecidableEq, Repr

/-- Compare conditions (R31). The unordered ones and num, nan belong to FCMP alone. -/
inductive Cond where
  | eq | ne | lt | le | gt | ge | equ | neu | ltu | leu | gtu | geu | num | nan
  deriving DecidableEq, Repr

/-- Scopes (R10, R31). -/
inductive Scope where | lane | core | quad | die | pkg | pod | sys
  deriving DecidableEq, Repr

/-- Access sizes of loads and stores (R182). -/
inductive MemSize where | zx8 | sx8 | zx16 | sx16 | b32 | b64 | b128
  deriving DecidableEq, Repr

/-- Element sizes of LLD (R211). -/
inductive LodSize where | b8 | b16 | b32 | b64 | b128
  deriving DecidableEq, Repr

/-- Planes of a light-field sample (R190). -/
inductive Plane where | colour | depth | vis | motion
  deriving DecidableEq, Repr

/-- Modes of SHFL (R97). -/
inductive ShflMode where | idx | up | down | xor
  deriving DecidableEq, Repr

/-- Operations of IRED (R98). -/
inductive IredOp where | add | min | max | and | or | xor
  deriving DecidableEq, Repr

/-- Operations of FRED (R105). -/
inductive FredOp where | add | min | max
  deriving DecidableEq, Repr

/-- Widths of DXPK and DXUNPK (R105). -/
inductive DxWidth where | dx16 | dx8 | dx4
  deriving DecidableEq, Repr

/-- Orders of FENCE (R223). -/
inductive FenceOrd where | acq | rel | ar | sc
  deriving DecidableEq, Repr

/-- Operations of ATOM and RED (R219). -/
inductive AtomOp where
  | add | minU | minS | maxU | maxS | and | or | xor | exch | inc | faddF32 | faddBf16x2
  deriving DecidableEq, Repr

/-- Order and scope of an atomic (R219). -/
inductive AtomOrd where
  | plain | acq (sc : Scope) | rel (sc : Scope) | ar (sc : Scope)
  deriving DecidableEq, Repr

/-- The part of a word that every instruction shares: guard, settle marker, energy class, reuse hints (R21). -/
structure Hdr where
  gn : Bool
  gp : Nat
  s  : Bool
  ec : Nat
  ru : Nat
  deriving DecidableEq, Repr

/-- An operand field (R22, R23). `imm` holds the 20 value bits as they stand in the word. -/
inductive Opnd where
  | v (n : Nat) (neg abs : Bool)
  | s (n : Nat) (neg abs : Bool)
  | p (n : Nat)
  | b (n : Nat)
  | vi (n : Nat)
  | im (n : Nat)
  | a (n : Nat)
  | o (n : Nat)
  | spec (id : Nat)
  | imm (x : Nat)
  deriving DecidableEq, Repr

/-- Where a byte stands: device memory by physical address, the scratchpad of a core (128 x die + core),
or the memory of another device reached through a peer window (R9, R163, R410). -/
inductive Space where
  | mem
  | scr (core : Nat)
  | peer (dev : Nat)
  deriving DecidableEq, Repr

/-- Where an uncorrectable soft error strikes (R413). -/
inductive ErrSite where
  /-- a 64-byte block of HBM, die cache or scratchpad -/
  | block (sp : Space) (blk : Nat)
  /-- operand memory, sidecars or accumulator store of a core, in storage of a task -/
  | coreStore (core : Nat) (task : Nat)
  /-- register files or path table of a squad -/
  | squadState (squad : Nat)
  /-- instruction memory of a core, in a bank a task holds -/
  | instrMem (core : Nat) (task : Nat)
  deriving DecidableEq, Repr

/-- Why the dispatcher pre-empts (R375). -/
inductive PreemptWhy where
  | priority | drain | migration (core : Nat) | host
  deriving DecidableEq, Repr

/-- A unit that the readback aperture shows and writes (R408). -/
inductive ReadbackUnit where
  | vreg (squad reg thread : Nat)
  | sreg (squad reg : Nat)
  | pred (squad reg : Nat)
  | brec (squad reg : Nat)
  /-- a byte of a squad in the layout of the save area: registers, `vi`, `im`, path table, join records (R378) -/
  | squadByte (squad off : Nat)
  | scratch (core addr : Nat)
  | scratchTag (core blk : Nat)
  | slotByte (core slot off : Nat)
  | sidecarByte (core slot off : Nat)
  /-- whether a slot is claimed, and its extents, in the layout of the save area -/
  | slotState (core slot : Nat)
  | acc (core row col : Nat)
  /-- sticky flags of a tile -/
  | accFlags (core tile : Nat)
  | instrByte (core bank off : Nat)
  /-- descriptor of a block of HBM, in the tag plane -/
  | memTag (blk : Nat)
  /-- tag of a line in a die cache, and its data -/
  | cacheTag (die line : Nat)
  | cacheByte (die line off : Nat)
  /-- what the device holds of relay queues, copy commands and barrier objects -/
  | queueByte (core off : Nat)
  | copyByte (cmd off : Nat)
  | barrierByte (core off : Nat)
  deriving DecidableEq, Repr

/-- A register of the management space that is read (R400). -/
inductive MgmtReg where
  /-- identity block: vendor and device ids, `%dev`, firmware version, READY, WBASE of a link -/
  | ids | dev | version | ready | wbase (link : Nat)
  | ctxEntry (ctx : Nat)
  | pacer (die ctx : Nat)
  | channel (ch : Nat)
  | frameTeams
  | peerWindow (n : Nat)
  | accessTable (target : Nat)
  | tbroot | tbport | tbstat
  | corrected (i : Nat)
  | ageing (i : Nat)
  /-- word of the power and thermal block (R417) -/
  | power (i : Nat)
  | report
  | debug (core : Nat)
  | readbackSelect
  | readback (u : ReadbackUnit)
  /-- LOD epoch words of a context (R210) -/
  | epoch (ctx : Nat)
  | done (ctx : Nat)
  deriving DecidableEq, Repr

/-- An access to a management register that has no row of its own (R400). Values stand as written. -/
inductive MgmtOp where
  | dev (x : Nat)
  | wbase (link : Nat) (x : Nat)
  | bar2 (link : Nat) (log2 : Nat)
  | ctxPtroot (ctx : Nat) (x : W64)
  | ctxFlags (ctx : Nat) (x : W64)
  | ctxFbctl (ctx : Nat) (x : W64)
  | ctxSqbase (ctx : Nat) (x : W64)
  | ctxSqlog2 (ctx : Nat) (x : Nat)
  | ctxTrapovl (ctx : Nat) (x : W64)
  | ctxEqbase (ctx : Nat) (x : W64)
  | ctxEqlog2 (ctx : Nat) (x : Nat)
  | ctxEqread (ctx : Nat) (x : Nat)
  | frameTeams (x : Nat)
  | peerWindow (n : Nat) (x : W64)
  | accessHost (target : Nat) (link : Nat) (acc : Nat)
  | accessPeer (target : Nat) (dev : Nat) (acc : Nat)
  | tbroot (x : Nat)
  | tbport (x : Nat)
  | readbackSelect (x : Nat)
  | debugClear (core : Nat)
  | debugPath (core : Nat) (pvalid : Bool) (psel : Nat)
  /-- the debugger attaches or detaches (R151) -/
  | debugAttach (on : Bool)
  /-- the host's steps of an eviction: a residency bit of the byte at a virtual address, the epoch (R210) -/
  | rmapBit (ctx va bit : Nat) (resident : Bool)
  | epochBump (ctx : Nat)
  /-- COUNTER_RESET, asked by a master -/
  | counterReset
  | read (r : MgmtReg)
  /-- the same registers by offset in BAR 0: bytes read; a word of 4 or 8 bytes written -/
  | readAt (off n : Nat)
  | writeAt (off n : Nat) (x : W64)
  /-- a 32-bit word written at an offset of BAR 4 -/
  | bar4 (off : Nat) (x : W32)
  deriving DecidableEq, Repr

/-- What a peer device asks of this device's memory (R410, R411); what it writes stands beside it. -/
inductive PeerOp where
  | read (len : Nat) (acq : Option Scope)
  | write (rel : Option Scope)
  | atomic (op : AtomOp) (wide : Bool) (so : AtomOrd) (x : W64)
  | cas (wide : Bool) (so : AtomOrd) (cmp new : W64)
  | descRead
  | descWrite (x : W16)
  /-- 64-byte blocks with their descriptors -/
  | copyRead (blocks : Nat)
  | copyWrite (descs : List W16)
  deriving DecidableEq, Repr

/-- An access to the management space: the host link that makes it, none for the management controller, and what it names
(R400, R406). -/
structure Via (α : Type) where
  link : Option Nat
  arg : α
  deriving DecidableEq, Repr

/-- A firmware image as delivered, with its public key and signature (R419). -/
structure SignedImage where
  image : List Byte
  key : List Byte
  sig : List Byte
  deriving DecidableEq, Repr

/-- One constructor per row of spec/opcode_table.json. -/
inductive Instr where
  -- integer, address, logic and predicate instructions
  | nop (h : Hdr)
  | mov (h : Hdr) (ty : IType) (d a : Opnd)
  | movw (h : Hdr) (ty : IType) (d : Opnd) (w : Nat)
  | sel (h : Hdr) (ty : IType) (ps : Nat) (neg : Bool) (d a b : Opnd)
  | iadd (h : Hdr) (ty : IType) (sat ci co : Bool) (cp : Nat) (d a b : Opnd)
  | isub (h : Hdr) (ty : IType) (sat ci co : Bool) (cp : Nat) (d a b : Opnd)
  | imul (h : Hdr) (ty : IType) (d a b : Opnd)
  | imulh (h : Hdr) (ty : IType) (d a b : Opnd)
  | imad (h : Hdr) (ty : IType) (d a b : Opnd)
  | idiv (h : Hdr) (ty : IType) (d a b : Opnd)
  | idivRem (h : Hdr) (ty : IType) (d a b : Opnd)
  | imin (h : Hdr) (ty : IType) (d a b : Opnd)
  | imax (h : Hdr) (ty : IType) (d a b : Opnd)
  | iabs (h : Hdr) (ty : IType) (d a : Opnd)
  | ineg (h : Hdr) (ty : IType) (d a : Opnd)
  | and (h : Hdr) (ty : IType) (d a b : Opnd)
  | or (h : Hdr) (ty : IType) (d a b : Opnd)
  | xor (h : Hdr) (ty : IType) (d a b : Opnd)
  | not (h : Hdr) (ty : IType) (d a : Opnd)
  | shl (h : Hdr) (ty : IType) (d a b : Opnd)
  | shr (h : Hdr) (ty : IType) (d a b : Opnd)
  | rot (h : Hdr) (ty : IType) (d a b : Opnd)
  | bfx (h : Hdr) (ty : IType) (d a b : Opnd)
  | bfi (h : Hdr) (ty : IType) (d a b : Opnd)
  | popc (h : Hdr) (ty : IType) (d a : Opnd)
  | clz (h : Hdr) (ty : IType) (d a : Opnd)
  | brev (h : Hdr) (ty : IType) (d a : Opnd)
  | icmp (h : Hdr) (ty : IType) (c : Cond) (pd : Nat) (a b : Opnd)
  | lea (h : Hdr) (ty : IType) (sh : Nat) (d a b : Opnd)
  | movs (h : Hdr) (d : Opnd) (id : Nat)
  | movx (h : Hdr) (id : Nat) (a : Opnd)
  | shfl (h : Hdr) (ty : IType) (mode : ShflMode) (vd va : Nat) (b : Opnd)
  | ired (h : Hdr) (ty : IType) (op : IredOp) (sd va : Nat)
  -- floating-point and conversion instructions
  | fadd (h : Hdr) (ft : FType) (rm : Rm) (d a b : Opnd)
  | fsub (h : Hdr) (ft : FType) (rm : Rm) (d a b : Opnd)
  | fmul (h : Hdr) (ft : FType) (rm : Rm) (d a b : Opnd)
  | ffma (h : Hdr) (ft : FType) (rm : Rm) (d a b : Opnd)
  | fmin (h : Hdr) (ft : FType) (d a b : Opnd)
  | fmax (h : Hdr) (ft : FType) (d a b : Opnd)
  | fcmp (h : Hdr) (ft : FType) (c : Cond) (pd : Nat) (a b : Opnd)
  | frnd (h : Hdr) (ft : FType) (rm : Rm) (d a : Opnd)
  | fdiv (h : Hdr) (d a b : Opnd)
  | fsqrt (h : Hdr) (d a : Opnd)
  | frcp (h : Hdr) (d a : Opnd)
  | frsq (h : Hdr) (d a : Opnd)
  | fex2 (h : Hdr) (d a : Opnd)
  | flg2 (h : Hdr) (d a : Opnd)
  | fsin (h : Hdr) (d a : Opnd)
  | fcos (h : Hdr) (d a : Opnd)
  | hfma2 (h : Hdr) (ft : FType) (rm : Rm) (d a b : Opnd)
  | hadd2 (h : Hdr) (ft : FType) (rm : Rm) (d a b : Opnd)
  | hmul2 (h : Hdr) (ft : FType) (rm : Rm) (d a b : Opnd)
  | f2i (h : Hdr) (ity : IType) (ft : FType) (rm : Rm) (d a : Opnd)
  | i2f (h : Hdr) (ft : FType) (ity : IType) (rm : Rm) (d a : Opnd)
  | fcvt (h : Hdr) (dst src : Nat) (rm : Rm) (d a : Opnd)
  | dxpk (h : Hdr) (w : DxWidth) (g : Nat) (rm : Rm) (vd va sb : Nat)
  | dxunpk (h : Hdr) (w : DxWidth) (vd va : Nat) (b : Opnd)
  | fclass (h : Hdr) (ft : FType) (d a : Opnd)
  | fscale (h : Hdr) (ft : FType) (rm : Rm) (d a b : Opnd)
  | fred (h : Hdr) (ft : FType) (op : FredOp) (sd : Nat) (a : Opnd)
  | plop (h : Hdr) (lut : Nat) (pd pa pb : Nat)
  | voteAny (h : Hdr) (pd pa : Nat)
  | voteAll (h : Hdr) (pd pa : Nat)
  | voteUni (h : Hdr) (pd pa : Nat)
  | voteBallot (h : Hdr) (sd pa : Nat)
  | pmaskGet (h : Hdr) (sd pa : Nat)
  | pmaskSet (h : Hdr) (pd : Nat) (a : Opnd)
  | flagsTest (h : Hdr) (pd : Nat) (mask : Nat)
  | flagsClr (h : Hdr) (mask : Nat)
  -- control flow
  | bra (h : Hdr) (target : Nat) (jn : Option Nat)
  | brx (h : Hdr) (sd : Nat) (jn : Option Nat)
  | call (h : Hdr) (target : Nat) (jn : Option Nat)
  | ret (h : Hdr)
  | join (h : Hdr)
  | yield (h : Hdr)
  | setpri (h : Hdr) (b : Opnd)
  | exit (h : Hdr)
  | brdec (h : Hdr) (sd : Nat) (target : Nat)
  | ovlj (h : Hdr) (call : Bool) (bank : Bool) (target : Nat)
  | bkpt (h : Hdr) (n : Nat)
  | trap (h : Hdr) (n : Nat)
  | waitc (h : Hdr) (b : Opnd)
  | waitcRel (h : Hdr) (b : Opnd)
  -- memory
  | ld (h : Hdr) (size : MemSize) (ord : Bool) (sc : Scope) (vd ba : Nat) (b : Opnd)
  | st (h : Hdr) (size : MemSize) (ord : Bool) (sc : Scope) (vd ba : Nat) (b : Opnd)
  | lds (h : Hdr) (size : MemSize) (ord : Bool) (sc : Scope) (vd ba : Nat) (b : Opnd)
  | sts (h : Hdr) (size : MemSize) (ord : Bool) (sc : Scope) (vd ba : Nat) (b : Opnd)
  | ldr (h : Hdr) (size : MemSize) (ord : Bool) (sc : Scope) (vd ba : Nat) (b : Opnd)
  | str (h : Hdr) (size : MemSize) (ord : Bool) (sc : Scope) (vd ba : Nat) (b : Opnd)
  | ldu (h : Hdr) (size : MemSize) (ord : Bool) (sc : Scope) (sd ba : Nat) (b : Opnd)
  | recld (h : Hdr) (bd ba : Nat) (b : Opnd)
  | recldRange (h : Hdr) (bd n w : Nat)
  | recldScr (h : Hdr) (bd : Nat)
  | recldTile (h : Hdr) (bd : Nat)
  | recsetOff (h : Hdr) (bd : Nat) (b : Opnd)
  | recsetExt0 (h : Hdr) (bd : Nat) (b : Opnd)
  | recsetExt1 (h : Hdr) (bd : Nat) (b : Opnd)
  | recsetRow (h : Hdr) (bd : Nat) (b : Opnd)
  | recsetShape (h : Hdr) (bd : Nat) (b : Opnd)
  | recsetEsize (h : Hdr) (bd : Nat) (b : Opnd)
  | recsetBmode (h : Hdr) (bd : Nat) (b : Opnd)
  | recsetSwz (h : Hdr) (bd : Nat) (b : Opnd)
  | recsetXv (h : Hdr) (bd : Nat) (b : Opnd)
  | recsetRo (h : Hdr) (bd : Nat)
  | recsetTgt (h : Hdr) (bd : Nat) (b : Opnd)
  | recsetAlias (h : Hdr) (bd : Nat) (b : Opnd)
  | lld (h : Hdr) (size : LodSize) (lvl : Option Nat) (vd ba : Nat) (b : Opnd)
  | lodq (h : Hdr) (lvl : Option Nat) (vd ba : Nat) (b : Opnd)
  | fbput (h : Hdr) (a b : Opnd)
  | tld (h : Hdr) (plane : Plane) (vd ba : Nat) (b : Opnd)
  | tst (h : Hdr) (plane : Plane) (vd ba : Nat) (b : Opnd)
  | descrd (h : Hdr) (vd ba : Nat) (b : Opnd)
  | descwr (h : Hdr) (d : Opnd) (ba : Nat) (b : Opnd)
  | prefDc (h : Hdr) (ba : Nat) (b : Opnd)
  | prefXl (h : Hdr) (ba : Nat) (b : Opnd)
  | cwbWb (h : Hdr) (ba : Nat) (b : Opnd)
  | cwbWbi (h : Hdr) (ba : Nat) (b : Opnd)
  -- atomics, fences, barriers, arrival words, relay queues
  | atom (h : Hdr) (so : AtomOrd) (op : AtomOp) (vd ba : Nat) (b : Opnd)
  | red (h : Hdr) (so : AtomOrd) (op : AtomOp) (vd ba : Nat) (b : Opnd)
  | cas (h : Hdr) (so : AtomOrd) (vd ba : Nat) (b : Opnd)
  | fence (h : Hdr) (ord : FenceOrd) (sc : Scope)
  | fencex (h : Hdr) (sc : Scope) (m1 m2 : Nat)
  | barArm (h : Hdr) (sc : Scope) (ba sd : Nat) (b : Opnd)
  | barArv (h : Hdr) (sd ba : Nat) (b : Opnd)
  | barWait (h : Hdr) (ba : Nat) (b : Opnd)
  | barSync (h : Hdr) (ba : Nat) (b : Opnd)
  | awSet (h : Hdr) (ba : Nat) (b : Opnd)
  | awWait (h : Hdr) (sc : Scope) (ba : Nat) (b : Opnd)
  | qInit (h : Hdr) (sc : Scope) (ba : Nat) (b : Opnd)
  | qPush (h : Hdr) (ba : Nat) (b : Opnd)
  | qPop (h : Hdr) (px : Nat) (d : Opnd) (ba : Nat)
  | qClose (h : Hdr) (ba : Nat)
  -- copy engines
  | cpy (h : Hdr) (bd ba : Nat) (b : Opnd)
  | cpyg (h : Hdr) (d : Opnd) (ba : Nat) (b : Opnd)
  | cpyp (h : Hdr) (d : Opnd) (ba : Nat) (b : Opnd)
  | cpys (h : Hdr) (od ba : Nat) (b : Opnd)
  | cpysCb (h : Hdr) (od ba : Nat) (b : Opnd)
  | cpysZb (h : Hdr) (od ba : Nat) (b : Opnd)
  | cpyl (h : Hdr) (d : Opnd) (ba sb : Nat)
  | ovlLd (h : Hdr) (bank : Bool) (ba : Nat) (b : Opnd)
  | cpyStat (h : Hdr) (sd : Nat) (b : Opnd)
  | cpyCancel (h : Hdr) (b : Opnd)
  -- matrix engine
  | slotClaim (h : Hdr) (sd : Nat) (b : Opnd)
  | slotClaimAt (h : Hdr) (sd : Nat) (b : Opnd)
  | slotFree (h : Hdr) (b : Opnd)
  | slotInfoGet (h : Hdr) (sd oa : Nat)
  | slotInfoExt (h : Hdr) (od : Nat) (b : Opnd)
  | slotInfoAcc (h : Hdr) (sd aa : Nat)
  | mma (h : Hdr) (z : Bool) (ad oa ob : Nat)
  | mmStage (h : Hdr) (n : Nat) (t2 z : Bool) (ad oa ob : Nat)
  | accZero (h : Hdr) (ad : Nat)
  | accZeroFlg (h : Hdr) (ad : Nat)
  | drain (h : Hdr) (rm : Rm) (add clr : Bool) (bd aa : Nat) (b : Opnd)
  | accLd (h : Hdr) (ad ba : Nat)
  | accSt (h : Hdr) (bd aa : Nat)
  | gmv (h : Hdr) (bi bd ba sb : Nat)
  | mmWait (h : Hdr) (b : Opnd)
  -- light field
  | lfSetup (h : Hdr) (bd ba : Nat) (b : Opnd)
  | lfSpan (h : Hdr) (redo : Bool) (pm k vd ba sb : Nat)
  | lfZtest (h : Hdr) (ge w : Bool) (imk vb : Nat)
  | lfVsplit (h : Hdr) (gap : Bool) (pp vid via : Nat)
  | lfInterp (h : Hdr) (k vd va vb : Nat)
  | lfWrite (h : Hdr) (imk : Nat) (a : Opnd) (vb : Nat)
  | lfWriteInc (h : Hdr) (imk : Nat) (va vb : Nat)
  | lfVis (h : Hdr) (imk : Nat) (a : Opnd) (vb : Nat)
  | lfRate (h : Hdr) (b : Opnd)
  | lfViews (h : Hdr) (sd : Nat)
  | lfViewsV (h : Hdr) (d : Opnd) (band : Nat)
  | lfRepro (h : Hdr) (bd ba sb : Nat)
  | lfResolve (h : Hdr) (bd ba sb : Nat)
  | lfPresentArm (h : Hdr) (sb : Nat)
  | lfPresentCommit (h : Hdr) (ba sb : Nat)
  | lfPresentSub (h : Hdr) (ba sb : Nat)
  | lfStat (h : Hdr) (pkg : Bool) (sd : Nat) (b : Opnd)
  -- system
  | taskSpawn (h : Hdr) (sd ba : Nat)
  | taskSignal (h : Hdr) (ba : Nat)
  | taskCollect (h : Hdr) (ba : Nat) (b : Opnd)
  | taskCheck (h : Hdr) (sd ba : Nat)
  | taskMigrate (h : Hdr) (b : Opnd)
  | ebudWait (h : Hdr) (b : Opnd)
  | ebudCap (h : Hdr) (b : Opnd)
  | perfRd (h : Hdr) (sd n : Nat)
  | perfClr (h : Hdr)
  | rmapSet (h : Hdr) (ba : Nat) (b : Opnd)
  | rmapClr (h : Hdr) (ba : Nat) (b : Opnd)
  | rmapBump (h : Hdr)
  | csrRd (h : Hdr) (sd id : Nat)
  | csrWr (h : Hdr) (id : Nat) (a : Opnd)
  | tret (h : Hdr)
  | halt (h : Hdr) (b : Opnd)
  -- events: what the device does besides issuing a word
  | variableLatencyResult (squad k : Nat)
  | copyCommandAccept (die eng : Nat)
  | copyCommandStart (die eng : Nat)
  | copyChunkLanded (cmd chunk : Nat)
  | copyRuntimeFault (cmd : Nat)
  | streamChunkDecoded (cmd k : Nat)
  | streamChunkCommit (cmd : Nat)
  | fillHoldRelease (cmd : Nat)
  | stagedCommandFire (core n : Nat)
  | overlayLoadEnd (cmd : Nat)
  | matrixQueueAccept (core : Nat)
  | mmaOperandFetch (core : Nat)
  | mmaExecute (core : Nat)
  | accZeroExecute (core : Nat)
  | drainExecute (core : Nat)
  | addOnStore (core home : Nat)
  | accLdExecute (core : Nat)
  | accStExecute (core : Nat)
  | gmvEvaluate (core : Nat)
  | matrixCommandComplete (core : Nat)
  | slotFreeEffect (core slot : Nat)
  | slotExtentEffect (core slot : Nat)
  | barrierArrival (k : Nat)
  | feedbackAppend (ctx : Nat)
  | lodEpochDoneAdvance (ctx : Nat)
  | spanRequestAccept (quad : Nat)
  | reproExecute (die : Nat)
  | resolveExecute (die : Nat)
  | presentCommitEffect (ch : Nat)
  | scanOutStart (ch : Nat)
  | leaseRequest (node : Nat)
  | taskPlace (node : Nat)
  | placementSpillTimeout (node : Nat)
  | gangDrainTimeout (node : Nat)
  | nodeComplete (node : Nat)
  | collectorDeadlineExpiry (node : Nat)
  | collectorInstanceReady (node : Nat)
  | taskKill (task code sub : Nat)
  | taskScrub (task : Nat)
  | preemptRequest (task : Nat) (why : PreemptWhy)
  | preemptSave (task : Nat)
  | preemptReplay (task : Nat)
  | taskResume (task : Nat)
  | migration (task : Nat)
  | migrationForwardExpiry (k : Nat)
  | wdogExpiry (task : Nat)
  | waitcExpiry (squad : Nat)
  | peerAccessTimeout (squad : Nat)
  | eventAppend (ctx : Nat)
  | invalidationComplete (ctx : Nat)
  | portDown (port : Nat)
  | heartbeatSend (port : Nat)
  | heartbeatLoss (port : Nat)
  | nodeLeased (node : Nat)
  | presentDeadline (ch : Nat)
  -- an undefined word at issue; events that come from outside, or at a fixed time. `m` is the master of an access to the
  -- management space: a host link, or none for the management controller
  | illegalWord (sub : Nat)
  | congestionBroadcast (die occ : Nat)
  | hbmRefresh (die group : Nat)
  | patrolScrub (die : Nat)
  | uncorrectableError (site : ErrSite)
  | pacerRefill
  | pacerControlWrite (die : Via Nat) (ctx refill cap rcap : Nat)
  | doorbell (ctx n : Nat)
  | hostBar2Access (link : Nat) (off : Nat) (write : Bool) (relaxed : Bool) (data : List Byte)
  | peerAccessArrival (dev : Nat) (pa : Nat) (op : PeerOp) (data : List Byte)
  | frespReplay (ctx : Via Nat) (token : Nat)
  | frespFatal (ctx : Via Nat) (token : Nat)
  | frespCompleteNode (ctx : Via Nat) (token : Nat)
  | frespEndNode (ctx : Via Nat) (token : Nat)
  | inval (ctx : Via Nat) (count vpn : Nat)
  | presentChannelWrite (ch : Via Nat) (x : BitVec 128)
  | counterReset
  | debugStop (core : Via Nat)
  | debugStep (core : Via Nat) (slot : Nat)
  | readbackWrite (u : Via ReadbackUnit) (x : Rec)
  | attestationRequest (nonce : Via Rec)
  | managementWrite (w : Via MgmtOp)
  | flitReceive (port : Nat) (crcOk beat : Bool)
  | portRetrain (port : Nat) (laneFailed : Bool)
  | timebaseSync (offset : Int)
  | timebaseHoldover
  | ageingUpdate (idx : Nat) (conf wear eolh : Nat)
  | thermalThrottle (lower : Bool)
  | thermalShutdown
  | deviceResetBoot
  | firmwareUpdate (slot : Nat) (version : Nat) (image : SignedImage)
  | hotPlugJoin (dev : Nat)
  deriving DecidableEq, Repr

end Sys2Proof
end

