-- ==== Sys2Proof/Config.lean ====
section
/-! DEFINITION. What this device fixes and what the manual leaves open. The `opaque` constants are FREE VALUES: they have
no body, so no proof can use a value of them. -/

namespace Sys2Proof.Config

/-- Cores of a die (R8). -/
def coresPerDie : Nat := 128
/-- Scratchpad bytes of a core (R11). -/
def scratchBytes : Nat := 1015808
/-- Lines of a die cache: 48 MiB in lines of 256 bytes (R11). -/
def cacheLines : Nat := 196608
/-- Instructions an overlay bank can hold (R41). -/
def maxInst : Nat := 5456
/-- Bytes of a die's HBM range (R163). -/
def dieBytes : Nat := 96 * 10 ^ 9

/-- FREE VALUE. Whether a read of a register with an outstanding variable-latency result returns the new value (R125),
by the machine's counter and the position of the write. -/
opaque early : Nat → Nat → Bool
/-- FREE VALUE. Which of several enabled moves the device makes next, when the agenda is empty. -/
opaque pick : Nat → Nat → Nat
/-- FREE VALUE. Nanoseconds that pass when nothing else moves. -/
opaque elapse : Nat → Nat
/-- FREE VALUE. Whether a line access whose cached translation differs from the page table uses the cached one (R166, R404). -/
opaque stale : Nat → Bool
/-- FREE VALUE. Which of the stores that nothing orders before a load it sees (R181, R442), by the machine's counter and the
place of what it reads. -/
opaque sees : Nat → Nat → Nat
/-- FREE VALUE. The line that leaves a full die cache (R11), by the machine's counter and the line that comes in. -/
opaque victim : Nat → Nat → Nat
/-- FREE VALUE. The number of the 64-row group that holds a line of HBM, and the refresh window in ns (R168). -/
opaque rowGroup : Nat → Nat
opaque refreshWindow : Nat
/-- FREE VALUE. The moment at which a walk sees a field of a leased LOD descriptor that has changed (R196), by the machine's
counter, the thread and the field. -/
opaque lodSees : Nat → Nat → Nat → Nat
/-- FREE VALUE. The hardware slot binding an arm writes into BIND (R226, R227). -/
opaque barBind : Nat → BitVec 64
/-- FREE VALUE. Where a context's overlay of an id stands (R46, R361): the driver places the image in the context's memory,
and the manual does not say how the dispatcher finds it. -/
opaque overlayVa : Nat → Nat → Nat
/-- FREE VALUE. The attestation key (modulus, private exponent), and the salt of a signature (R420). -/
opaque attestKey : Nat × Nat
opaque attestSalt : Nat → List Byte
/-- FREE VALUE. SHA-256 of the device identity certificate (R420). -/
opaque identityDigest : BitVec 256
/-- FREE VALUE. The SHA-256 hash of the firmware key that is fused into the device (R419). -/
opaque fusedKeyHash : List Byte
/-- FREE VALUE. The first firmware slot at device reset: image, key, signature (R419). -/
opaque factoryImage : List Byte
opaque factoryKey : List Byte
opaque factorySig : List Byte
/-- FREE VALUE. The result bits of a transcendental when the precision bound of the evaluation is reached without a decision
(no FP32 operand is known to reach it). -/
opaque roundingTie : Nat → Bool
/-- FREE VALUE. The code of a save-area byte or report byte that the manual does not lay out. -/
opaque openByte : Nat → Byte

/-- FREE VALUE. The Onaler port that leads to a device: the switch routes are the pod manager's (R409). -/
opaque routeOf : Nat → Nat
/-- FREE VALUE. Whether the target device of a peer window refuses an access (R410): by the machine's counter, the device,
the address and whether it writes. -/
opaque peerRefuses : Nat → Nat → Nat → Bool → Bool
/-- FREE VALUE. A result that the manual does not state, by the point that leaves it open and the machine's counter. -/
opaque openValue : Nat → Nat → Nat

end Sys2Proof.Config
end

