-- ==== Sys2Proof/Machine/Num.lean ====
section
/-! DEFINITION. Number formats and rounding (R49-R76): exact values, one rounding, and the flags each operation raises.
Flags are a number with the bits of R35: NV 1, OF 2, UF 4, NX 8, SAT 16. -/

namespace Sys2Proof.Machine

/-- The exact value of a code: NaN, an infinity, or (-1)^neg x m x 2^e. -/
inductive FV where
  | nan
  | inf (neg : Bool)
  | fin (neg : Bool) (m : Nat) (e : Int)
  deriving DecidableEq, Repr

def fNV : Nat := 1
def fOF : Nat := 2
def fUF : Nat := 4
def fNX : Nat := 8
def fSAT : Nat := 16

def flagIf (c : Bool) (f : Nat) : Nat := if c then f else 0

/-- Bits of a number: 0 for 0. -/
def bitLen (n : Nat) : Nat := if n = 0 then 0 else Nat.log2 n + 1

/-- m x 2^e (and a little more when `st`) in units of 2^q, rounded (R63); the second part says it was inexact. -/
def quant (rm : Rm) (neg : Bool) (m : Nat) (e : Int) (st : Bool) (q : Int) : Nat × Bool :=
  if q ≤ e then (m * 2 ^ (e - q).toNat, st)
  else
    let k := (q - e).toNat
    let hi := m / 2 ^ k
    let lo := m % 2 ^ k
    let half := 2 ^ (k - 1)
    let inexact := lo ≠ 0 || st
    let up := match rm with
      | .rne => lo > half || (lo == half && (st || hi % 2 == 1))
      | .rtz => false
      | .rdn => neg && inexact
      | .rup => !neg && inexact
      | .rna => decide (lo ≥ half)
    (if up then hi + 1 else hi, inexact)

/-- a x 2^i > b x 2^j. -/
def dyLt (b : Nat) (j : Int) (a : Nat) (i : Int) : Bool :=
  let l := min i j
  decide (b * 2 ^ (j - l).toNat < a * 2 ^ (i - l).toNat)

/-- A binary floating-point destination: precision, least normal exponent, largest finite value, how it overflows. -/
structure FloatFmt where
  width : Nat
  prec : Nat
  emin : Int
  maxM : Nat
  maxE : Int
  /-- overflow and infinities saturate (R51, R53) -/
  sat : Bool
  nanCode : Nat
  infCode : Nat
  maxCode : Nat
  deriving DecidableEq, Repr

def fp32 : FloatFmt := ⟨32, 24, -126, 0xFFFFFF, 104, false, 0x7FC00000, 0x7F800000, 0x7F7FFFFF⟩
def fp16 : FloatFmt := ⟨16, 11, -14, 0x7FF, 5, false, 0x7E00, 0x7C00, 0x7BFF⟩
def bf16 : FloatFmt := ⟨16, 8, -126, 0xFF, 120, false, 0x7FC0, 0x7F80, 0x7F7F⟩
def f8e5 : FloatFmt := ⟨8, 3, -14, 7, 13, false, 0x7E, 0x7C, 0x7B⟩
def f8e4 : FloatFmt := ⟨8, 4, -6, 7, 6, true, 0x7F, 0x7E, 0x7E⟩
def f4fmt : FloatFmt := ⟨4, 2, 0, 3, 1, true, 0, 7, 7⟩

def fmtOf : FType → FloatFmt
  | .f32 => fp32 | .f16 => fp16 | .bf16 => bf16

def signBit (f : FloatFmt) (neg : Bool) : Nat := if neg then 2 ^ (f.width - 1) else 0

/-- The value of a code of a format with fields sign, exponent, fraction (R49). -/
def decodeIeee (f : FloatFmt) (c : Nat) : FV :=
  let mb := f.prec - 1
  let eb := f.width - 1 - mb
  let fr := c % 2 ^ mb
  let ex := c / 2 ^ mb % 2 ^ eb
  let neg := c / 2 ^ (f.width - 1) % 2 == 1
  if ex = 2 ^ eb - 1 then (if fr = 0 then .inf neg else .nan)
  else if ex = 0 then .fin neg fr (f.emin - mb)
  else .fin neg (fr + 2 ^ mb) (f.emin - mb + (ex - 1))

/-- F8E4 (R51): no infinity, all ones is NaN. -/
def decodeF8e4 (c : Nat) : FV :=
  let neg := c / 128 % 2 == 1
  if c % 128 = 127 then .nan
  else if c / 8 % 16 = 0 then .fin neg (c % 8) (-9)
  else .fin neg (c % 8 + 8) ((c / 8 % 16 : Nat) - 10)

/-- F4 (R53); code 8 is XV, an FP16 value (R54). -/
def decodeF4 (xv c : Nat) : FV :=
  if c % 16 = 8 then decodeIeee fp16 xv
  else
    let neg := c / 8 % 2 == 1
    if c / 2 % 4 = 0 then .fin neg (c % 2) (-1) else .fin neg (c % 2 + 2) ((c / 2 % 4 : Nat) - 2)

def decodeInt (w : Nat) (signed : Bool) (c : Nat) : FV :=
  let x := c % 2 ^ w
  if signed && decide (x ≥ 2 ^ (w - 1)) then .fin true (2 ^ w - x) 0 else .fin false x 0

/-- DX elements (R56, R57): width w, gap g, scale S. -/
def decodeDx (w g s c : Nat) : FV :=
  if s = 255 then .nan
  else
    let m := c % 2 ^ (w - 2)
    if s = 0 ∨ m = 0 then .fin false 0 0
    else .fin (c / 2 ^ (w - 2) % 2 == 1) m ((s : Int) - 127 - (w - 2 : Nat) - (if c / 2 ^ (w - 1) % 2 = 1 then g else 0))

def isNan : FV → Bool
  | .nan => true | _ => false
def isZero : FV → Bool
  | .fin _ 0 _ => true | _ => false
def isInf : FV → Bool
  | .inf _ => true | _ => false
def negV : FV → FV
  | .nan => .nan | .inf n => .inf !n | .fin n m e => .fin (!n) m e
def absV : FV → FV
  | .nan => .nan | .inf _ => .inf false | .fin _ m e => .fin false m e
def scaleV (k : Int) : FV → FV
  | .fin n m e => .fin n m (e + k) | v => v
def signV : FV → Bool
  | .nan => false | .inf n => n | .fin n _ _ => n

/-- Round a finite nonzero magnitude into a float format: code without sign, and flags (R63-R65). -/
def roundMag (f : FloatFmt) (rm : Rm) (neg : Bool) (m : Nat) (e : Int) (st : Bool) : Nat × Nat :=
  let p : Int := f.prec
  let top : Int := e + (bitLen m : Nat) - 1
  let qU := top - (p - 1)
  let nU := (quant rm neg m e st qU).1
  let topU : Int := if nU = 2 ^ f.prec then top + 1 else top
  if dyLt f.maxM f.maxE nU qU then
    let c := if f.sat then f.maxCode else
      match rm with
      | .rne | .rna => f.infCode
      | .rtz => f.maxCode
      | .rup => if neg then f.maxCode else f.infCode
      | .rdn => if neg then f.infCode else f.maxCode
    (c, fOF + fNX)
  else
    let q := max qU (f.emin - (p - 1))
    let r := quant rm neg m e st q
    let code := r.1 + ((q - (f.emin - (p - 1))).toNat) * 2 ^ (f.prec - 1)
    (code, flagIf (decide (topU < f.emin) && r.2) fUF + flagIf r.2 fNX)

/-- Encode an exact value (with `st`, a little more in magnitude) into a float format. F4 writes every zero as 0 (R53). -/
def encodeF (f : FloatFmt) (rm : Rm) (v : FV) (st : Bool := false) : Nat × Nat :=
  let isF4 := f.width == 4
  match v with
  | .nan => if isF4 then (0, fNV) else (f.nanCode, 0)
  | .inf n => (signBit f n + f.infCode, if f.sat then fOF + fNX else 0)
  | .fin n m e =>
    if m = 0 ∧ !st then (if isF4 then 0 else signBit f n, 0)
    else
      let r := roundMag f rm n m e st
      (if isF4 && r.1 == 0 then 0 else signBit f n + r.1, r.2)

/-- Encode into an integer format with range lo..hi and width w (R55, R115). -/
def encodeI (w : Nat) (lo hi : Int) (rm : Rm) (v : FV) : Nat × Nat :=
  let cut (x : Int) : Nat := (x % 2 ^ w).toNat
  match v with
  | .nan => (0, fNV)
  | .inf n => (cut (if n then lo else hi), fSAT)
  | .fin n m e =>
    let r := quant rm n m e false 0
    let x : Int := if n then -(r.1 : Int) else r.1
    if x < lo then (cut lo, fSAT + fNX) else if hi < x then (cut hi, fSAT + fNX) else (cut x, flagIf r.2 fNX)

/-! ### Exact arithmetic on values -/

/-- The exact product and NV (R50). -/
def mulV : FV → FV → FV × Nat
  | .nan, _ => (.nan, 0)
  | _, .nan => (.nan, 0)
  | .inf a, .inf b => (.inf (a != b), 0)
  | .inf a, .fin b m _ => if m = 0 then (.nan, fNV) else (.inf (a != b), 0)
  | .fin a m _, .inf b => if m = 0 then (.nan, fNV) else (.inf (a != b), 0)
  | .fin a m e, .fin b n f => (.fin (a != b) (m * n) (e + f), 0)

/-- The signed integer m x 2^(e-l). -/
def signedAt (neg : Bool) (m : Nat) (e l : Int) : Int :=
  let x : Int := m * 2 ^ (e - l).toNat
  if neg then -x else x

/-- The exact sum and NV. A zero sum is -0 only when both are -0, or under RDN when the signs differ (R50). -/
def addV (rm : Rm) : FV → FV → FV × Nat
  | .nan, _ => (.nan, 0)
  | _, .nan => (.nan, 0)
  | .inf a, .inf b => if a = b then (.inf a, 0) else (.nan, fNV)
  | .inf a, .fin .. => (.inf a, 0)
  | .fin .., .inf b => (.inf b, 0)
  | .fin a m e, .fin b n f =>
    if m = 0 ∧ n = 0 then (.fin (if a = b then a else rm == .rdn) 0 0, 0)
    else if m = 0 then (.fin b n f, 0)
    else if n = 0 then (.fin a m e, 0)
    else
      let l := min e f
      let x := signedAt a m e l + signedAt b n f l
      if x = 0 then (.fin (rm == .rdn) 0 0, 0) else (.fin (decide (x < 0)) x.natAbs l, 0)

/-- a x b + c: 0 x infinity is NaN with NV whatever the addend (R107). -/
def fmaV (rm : Rm) (a b c : FV) : FV × Nat :=
  let p := mulV a b
  if p.2 ≠ 0 then (.nan, fNV)
  else
    let r := addV rm p.1 c
    (r.1, r.2)

/-- Compare: none when either is NaN; otherwise a - b as an ordering, -0 equal to +0. -/
def cmpV : FV → FV → Option Ordering
  | .nan, _ => none
  | _, .nan => none
  | .inf a, .inf b => some (if a = b then .eq else if a then .lt else .gt)
  | .inf a, .fin .. => some (if a then .lt else .gt)
  | .fin .., .inf b => some (if b then .gt else .lt)
  | .fin a m e, .fin b n f =>
    let l := min e f
    some (compare (signedAt a m e l) (signedAt b n f l))

def opF (f : FloatFmt) (rm : Rm) (r : FV × Nat) : Nat × Nat :=
  let c := encodeF f rm r.1
  (c.1, c.2 ||| r.2)

def addF (f : FloatFmt) (rm : Rm) (a b : Nat) : Nat × Nat := opF f rm (addV rm (decodeIeee f a) (decodeIeee f b))
def subF (f : FloatFmt) (rm : Rm) (a b : Nat) : Nat × Nat := opF f rm (addV rm (decodeIeee f a) (negV (decodeIeee f b)))
def mulF (f : FloatFmt) (rm : Rm) (a b : Nat) : Nat × Nat := opF f rm (mulV (decodeIeee f a) (decodeIeee f b))
def fmaF (f : FloatFmt) (rm : Rm) (a b c : Nat) : Nat × Nat :=
  opF f rm (fmaV rm (decodeIeee f a) (decodeIeee f b) (decodeIeee f c))

/-- Minimum or maximum with -0 below +0; a NaN gives way to a number (R109). -/
def minmaxF (f : FloatFmt) (isMax : Bool) (a b : Nat) : Nat :=
  let x := decodeIeee f a
  let y := decodeIeee f b
  match x, y with
  | .nan, .nan => f.nanCode
  | .nan, _ => b
  | _, .nan => a
  | x, y =>
    match cmpV x y with
    | some .lt => if isMax then b else a
    | some .gt => if isMax then a else b
    | _ => if signV x then (if isMax then b else a) else (if isMax then a else b)

/-- The compare conditions of R31 on floating-point operands (R110). -/
def condF (c : Cond) (o : Option Ordering) : Bool :=
  match o with
  | none => [Cond.equ, .neu, .ltu, .leu, .gtu, .geu, .nan].contains c
  | some o =>
    match c with
    | .eq | .equ => o == .eq
    | .ne | .neu => o != .eq
    | .lt | .ltu => o == .lt
    | .le | .leu => o != .gt
    | .gt | .gtu => o == .gt
    | .ge | .geu => o != .lt
    | .num => true
    | .nan => false

/-- Round to an integral value of the same format, no flag (R111). -/
def rndF (f : FloatFmt) (rm : Rm) (a : Nat) : Nat :=
  match decodeIeee f a with
  | .nan => f.nanCode
  | .inf _ => a
  | .fin n m e => if m = 0 then a else (encodeF f rm (.fin n (quant rm n m e false 0).1 0)).1

/-- The class word of R114. -/
def classF (f : FloatFmt) (a : Nat) : Nat :=
  match decodeIeee f a with
  | .nan => 256
  | .inf true => 1
  | .inf false => 128
  | .fin n m e =>
    if m = 0 then (if n then 8 else 16)
    else
      let normal := decide (f.emin ≤ e + (bitLen m : Nat) - 1)
      if n then (if normal then 2 else 4) else (if normal then 64 else 32)

/-- A x 2^n; the exponent is clamped where the result is already an overflow or below every value (R113). -/
def scaleF (f : FloatFmt) (rm : Rm) (a : Nat) (n : Int) : Nat × Nat :=
  encodeF f rm (scaleV (max (-2000) (min 2000 n)) (decodeIeee f a))

/-! ### Division, roots and transcendentals (R70-R72) -/

/-- Exact quotient of magnitudes to 2^-k relative bits: value, exponent, sticky. -/
def divMag (m : Nat) (e : Int) (n : Nat) (f : Int) : Nat × Int × Bool :=
  let k := 40 + bitLen n
  (m * 2 ^ k / n, e - f - k, m * 2 ^ k % n != 0)

def divF (rm : Rm) (a b : Nat) : Nat × Nat :=
  match decodeIeee fp32 a, decodeIeee fp32 b with
  | .nan, _ => (fp32.nanCode, 0)
  | _, .nan => (fp32.nanCode, 0)
  | .inf _, .inf _ => (fp32.nanCode, fNV)
  | .inf n, .fin k _ _ => encodeF fp32 rm (.inf (n != k))
  | .fin n _ _, .inf k => encodeF fp32 rm (.fin (n != k) 0 0)
  | .fin n m e, .fin k l g =>
    if l = 0 then (if m = 0 then (fp32.nanCode, fNV) else encodeF fp32 rm (.inf (n != k)))
    else if m = 0 then encodeF fp32 rm (.fin (n != k) 0 0)
    else
      let q := divMag m e l g
      encodeF fp32 rm (.fin (n != k) q.1 q.2.1) q.2.2

/-- The reciprocal, toward zero; beyond range an infinity with OF and NX (R71). -/
def rcpF (a : Nat) : Nat × Nat :=
  let r := divF .rtz 0x3F800000 a
  if r.2 &&& fOF ≠ 0 then (fp32.infCode + (if a ≥ 2 ^ 31 then 2 ^ 31 else 0), fOF + fNX) else r

/-- Integer square root by bits, from bit `k` down. -/
def isqrtFrom (n : Nat) : Nat → Nat → Nat
  | 0, r => if (r + 1) * (r + 1) ≤ n then r + 1 else r
  | k + 1, r => isqrtFrom n k (if (r + 2 ^ (k + 1)) * (r + 2 ^ (k + 1)) ≤ n then r + 2 ^ (k + 1) else r)
def isqrt (n : Nat) : Nat := isqrtFrom n (bitLen n / 2 + 1) 0

/-- m x 2^e with an even exponent and at least 80 bits. -/
def evenScale (m : Nat) (e : Int) : Nat × Int :=
  if (e % 2) = 0 then (m * 2 ^ 80, e - 80) else (m * 2 ^ 81, e - 81)

def sqrtF (a : Nat) : Nat × Nat :=
  match decodeIeee fp32 a with
  | .nan => (fp32.nanCode, 0)
  | .inf n => if n then (fp32.nanCode, fNV) else (a, 0)
  | .fin n m e =>
    if m = 0 then (a, 0)
    else if n then (fp32.nanCode, fNV)
    else
      let s := evenScale m e
      let r := isqrt s.1
      encodeF fp32 .rne (.fin false r (s.2 / 2)) (r * r != s.1)

def rsqF (a : Nat) : Nat × Nat :=
  match decodeIeee fp32 a with
  | .nan => (fp32.nanCode, 0)
  | .inf n => if n then (fp32.nanCode, fNV) else (0, 0)
  | .fin n m e =>
    if m = 0 then (fp32.infCode + (if n then 2 ^ 31 else 0), 0)
    else if n then (fp32.nanCode, fNV)
    else
      let s := evenScale m e
      let k := bitLen s.1 + 80
      let r := isqrt (2 ^ (2 * k) / s.1)
      encodeF fp32 .rne (.fin false r (-(s.2 / 2) - k)) (r * r * s.1 != 2 ^ (2 * k))

/-- Fraction bits of the fixed-point evaluations. -/
def fxBits : Nat := 360

/-- Round a value known to lie strictly between (x - 2^20) and (x + 2^20) units of 2^-fxBits. -/
def roundNear (neg : Bool) (x : Nat) (k : Int) : Nat × Nat :=
  let lo := encodeF fp32 .rne (.fin neg (x - 2 ^ 20) (k - fxBits)) true
  let hi := encodeF fp32 .rne (.fin neg (x + 2 ^ 20 - 1) (k - fxBits)) true
  if lo = hi then lo else if Config.roundingTie x then lo else hi

/-- sum of z^(2k+1)/(2k+1), alternating when `alt`, in units of 2^-b; n terms. -/
def atanSeries (alt : Bool) (z2 : Nat) (b : Nat) : Nat → Nat → Nat → Int
  | 0, _, _ => 0
  | n + 1, k, t =>
    let term : Int := t / (2 * k + 1)
    (if alt && k % 2 == 1 then -term else term) + atanSeries alt z2 b n (k + 1) (t * z2 / 2 ^ b)

/-- atan(1/q) in units of 2^-b. -/
def atanInv (q b n : Nat) : Nat := (atanSeries true (2 ^ b / (q * q)) b n 0 (2 ^ b / q)).toNat

/-- pi in units of 2^-b, by Machin's formula. -/
def piFx (b : Nat) : Nat := 4 * (4 * atanInv 5 b (b / 4 + 2) - atanInv 239 b (b / 15 + 2))

/-- 2 atanh(z) in units of 2^-b: the logarithm of (1+z)/(1-z). -/
def lnRatio (num den b n : Nat) : Nat :=
  let z := num * 2 ^ b / den
  2 * (atanSeries false (z * z / 2 ^ b) b n 0 z).toNat

def ln2Fx (b : Nat) : Nat := lnRatio 1 3 b (b / 3 + 2)

/-- sum of t^k / k! in units of 2^-b. -/
def expSeries (t b : Nat) : Nat → Nat → Nat → Nat
  | 0, _, _ => 0
  | n + 1, k, u => u + expSeries t b n (k + 1) (u * t / 2 ^ b / (k + 1))

def ex2F (a : Nat) : Nat × Nat :=
  match decodeIeee fp32 a with
  | .nan => (fp32.nanCode, 0)
  | .inf n => if n then (0, 0) else (a, 0)
  | .fin n m e =>
    if m = 0 then (0x3F800000, 0)
    else if (e + (bitLen m : Nat) : Int) > 10 then encodeF fp32 .rne (.fin false 1 (if n then -2000 else 2000))
    else
      /- x = whole + f x 2^-200, 0 <= f < 2^200 -/
      let x := signedAt n m e (-200)
      let whole := x / (2 ^ 200 : Nat)
      let f := (x % (2 ^ 200 : Nat)).toNat
      if f = 0 then encodeF fp32 .rne (.fin false 1 whole)
      else
        let b := fxBits
        let t := f * ln2Fx b / 2 ^ 200
        roundNear false (expSeries t b 90 0 (2 ^ b)) whole

def lg2F (a : Nat) : Nat × Nat :=
  match decodeIeee fp32 a with
  | .nan => (fp32.nanCode, 0)
  | .inf n => if n then (fp32.nanCode, fNV) else (a, 0)
  | .fin n m e =>
    if m = 0 then (fp32.infCode + 2 ^ 31, 0)
    else if n then (fp32.nanCode, fNV)
    else
      let l := bitLen m - 1
      let ex : Int := e + (l : Nat)
      if m = 2 ^ l then
        encodeF fp32 .rne (.fin (decide (ex < 0)) ex.natAbs 0)
      else
        let b := fxBits
        let ln := lnRatio (m - 2 ^ l) (m + 2 ^ l) b (b / 3 + 2)
        let v : Int := ex * 2 ^ b + (ln * 2 ^ b / ln2Fx b : Nat)
        roundNear (decide (v < 0)) v.natAbs 0

/-- sum of (-1)^k r^(2k+o) / (2k+o)!, from term u, in units of 2^-b. -/
def trigSeries (r2 b o : Nat) : Nat → Nat → Nat → Int
  | 0, _, _ => 0
  | n + 1, k, u =>
    (if k % 2 = 1 then -(u : Int) else u) +
      trigSeries r2 b o n (k + 1) (u * r2 / 2 ^ b / ((2 * k + o + 1) * (2 * k + o + 2)))

/-- sin or cos of a finite nonzero argument in radians, reduced exactly (R70). -/
def trigF (cos : Bool) (a : Nat) : Nat × Nat :=
  match decodeIeee fp32 a with
  | .nan => (fp32.nanCode, 0)
  | .inf _ => (fp32.nanCode, fNV)
  | .fin n m e =>
    if m = 0 then (if cos then (0x3F800000, 0) else (a, 0))
    else
      let b := fxBits
      let w := b + 160
      let x := m * 2 ^ (e + w).toNat
      let hp := piFx w / 2
      let q := (2 * x + hp) / (2 * hp)
      let r : Int := (x : Int) - q * hp
      let rn := decide (r < 0)
      let rr := r.natAbs / 2 ^ 160
      let r2 := rr * rr / 2 ^ b
      let sinV := (trigSeries r2 b 1 60 0 rr).toNat
      let cosV := (trigSeries r2 b 0 60 0 (2 ^ b)).toNat
      /- |x| = q pi/2 + r -/
      let k := if cos then (q + 1) % 4 else q % 4
      let useCos := k % 2 == 1
      let neg := (decide (k ≥ 2)) != (!useCos && rn)
      roundNear (if cos then neg else neg != n) (if useCos then cosV else sinV) 0

def sinF (a : Nat) : Nat × Nat := trigF false a
def cosF (a : Nat) : Nat × Nat := trigF true a

/-! ### Element formats of block descriptors (R58-R61, R117) -/

/-- Element bits of a format code, 0 for a code with none. -/
def elemBits (code : Nat) : Nat :=
  if code = 0x08 then 32
  else if code = 0x10 ∨ code = 0x18 then 16
  else if code = 0x20 ∨ code = 0x28 ∨ code = 0x38 ∨ code = 0x39 then 8
  else if code = 0x30 ∨ code = 0x40 ∨ code = 0x60 then 4
  else if 0x48 ≤ code ∧ code ≤ 0x4F then 16
  else if 0x50 ≤ code ∧ code ≤ 0x57 then 8
  else if 0x58 ≤ code ∧ code ≤ 0x5F then 4
  else if code = 0x68 ∨ code = 0x69 then 16
  else if code = 0x6A ∨ code = 0x6B ∨ code = 0x6C then 8
  else 0

def isDx (code : Nat) : Bool := decide (0x48 ≤ code ∧ code ≤ 0x5F)
/-- g of a DX code. -/
def dxGap (code : Nat) : Nat := code % 8 + 1
/-- The base format of a ZB code (R59). -/
def zbBase (code : Nat) : Nat :=
  match code with
  | 0x68 => 0x10 | 0x69 => 0x18 | 0x6A => 0x20 | 0x6B => 0x28 | _ => 0x38

/-- The code value of an element before the block's scale: not for DX. -/
def elemFace (xv : Nat) (code c : Nat) : FV :=
  if code = 0x08 then decodeIeee fp32 c
  else if code = 0x10 then decodeIeee fp16 c
  else if code = 0x18 then decodeIeee bf16 c
  else if code = 0x20 then decodeF8e4 c
  else if code = 0x28 then decodeIeee f8e5 c
  else if code = 0x30 then decodeF4 xv c
  else if code = 0x38 then decodeInt 8 true c
  else if code = 0x39 then decodeInt 8 false c
  else decodeInt 4 true c

/-- The value of an element of a block with descriptor (S, code); `book` is the codebook, entry 0 XV of F4 (R54, R58, R61). -/
def elemVal (book : Nat → Nat) (code s c : Nat) : FV :=
  if s = 0 then .fin false 0 0
  else if s = 255 then .nan
  else if isDx code then decodeDx (elemBits code) (dxGap code) s c
  else if code = 0x30 ∧ c % 16 = 8 then decodeIeee fp16 (book 0)
  else if code = 0x60 then scaleV ((s : Int) - 127) (decodeIeee fp16 (book (c % 16)))
  else if 0x68 ≤ code ∧ code ≤ 0x6C then scaleV ((s : Int) - 127) (elemFace 0 (zbBase code) c)
  else scaleV ((s : Int) - 127) (elemFace 0 code c)

/-- Encode into a non-DX element format (R51-R55, R118). -/
def encodeElem (code : Nat) (rm : Rm) (v : FV) : Nat × Nat :=
  if code = 0x08 then encodeF fp32 rm v
  else if code = 0x10 then encodeF fp16 rm v
  else if code = 0x18 then encodeF bf16 rm v
  else if code = 0x20 then encodeF f8e4 rm v
  else if code = 0x28 then encodeF f8e5 rm v
  else if code = 0x30 then encodeF f4fmt rm v
  else if code = 0x38 then encodeI 8 (-128) 127 rm v
  else if code = 0x39 then encodeI 8 0 255 rm v
  else encodeI 4 (-8) 7 rm v

/-! ### Conversion into DX (R66) -/

/-- floor(log2) of a positive m x 2^e. -/
def log2Floor (m : Nat) (e : Int) : Int := e + (bitLen m : Nat) - 1

/-- The larger magnitude; an infinity counts above every finite value. -/
def maxMag (a b : FV) : FV :=
  match cmpV (absV a) (absV b) with
  | some .lt => absV b
  | _ => absV a

/-- S of a block without NaN. -/
def dxScale (xs : List FV) : Nat :=
  match xs.foldl maxMag (.fin false 0 0) with
  | .inf _ => 254
  | .nan => 255
  | .fin _ m e => if m = 0 then 0 else (min (max (log2Floor m e + 1 + 127) 1) 254).toNat

/-- One element: code and flags. -/
def dxElem (w g : Nat) (rm : Rm) (s : Nat) (x : FV) : Nat × Nat :=
  let eh : Int := (s : Int) - 127
  let mmax := 2 ^ (w - 2) - 1
  match x with
  | .nan => (0, 0)
  | .inf n => (bif n then 2 ^ (w - 2) + mmax else mmax, fSAT + fNX)
  | .fin n m e =>
    if m = 0 then (0, 0)
    else
      let sel := dyLt m e 1 (eh - g)
      let q : Int := eh - (w - 2 : Nat) - (if sel then (g : Int) else 0)
      let r := quant rm n m e false q
      if r.1 > mmax then ((bif sel then 2 ^ (w - 1) else 0) + (bif n then 2 ^ (w - 2) else 0) + mmax, fSAT + fNX)
      else if r.1 = 0 then (0, fUF + fNX)
      else ((bif sel then 2 ^ (w - 1) else 0) + (bif n then 2 ^ (w - 2) else 0) + r.1, flagIf r.2 fNX)

/-- A block's S, elements and flags (R66). -/
def dxBlock (w g : Nat) (rm : Rm) (xs : List FV) : Nat × List Nat × Nat :=
  if xs.any isNan then (255, xs.map fun _ => 0, fNV)
  else
    let s := dxScale xs
    if s = 0 then (0, xs.map fun _ => 0, 0)
    else
      let es := xs.map (dxElem w g rm s)
      (s, es.map (·.1), es.foldl (fun f x => f ||| x.2) 0)

/-! ### Sums in fixed orders (R67-R69) -/

/-- The squad's tree: absent values combine to the other one. The second part accumulates flags. -/
def treeLevel {α : Type} (op : α → α → α × Nat) (h : Nat) (vals : List (Option α)) : List (Option α) × Nat :=
  (List.range h).foldl (fun acc t =>
    match (vals[t]?).getD none, (vals[t + h]?).getD none with
    | some a, some b => let r := op a b; (acc.1 ++ [some r.1], acc.2 ||| r.2)
    | some a, none => (acc.1 ++ [some a], acc.2)
    | none, b => (acc.1 ++ [b], acc.2)) ([], 0)

def treeReduce {α : Type} (op : α → α → α × Nat) (vals : List (Option α)) : Option (α × Nat) :=
  let l16 := treeLevel op 16 vals
  let l8 := treeLevel op 8 l16.1
  let l4 := treeLevel op 4 l8.1
  let l2 := treeLevel op 2 l4.1
  let l1 := treeLevel op 1 l2.1
  match l1.1 with
  | [some r] => some (r, l16.2 ||| l8.2 ||| l4.2 ||| l2.2 ||| l1.2)
  | _ => none

/-- The exact sum of a group of products and NV (R67): NaN product, opposite infinities, one infinity, or the exact sum;
an exact zero is -0 only when every product is -0. -/
def groupSum (ps : List (FV × Nat)) : FV × Nat :=
  let fl := ps.foldl (fun f p => f ||| p.2) 0
  let pos := ps.any fun p => p.1 == .inf false
  let neg := ps.any fun p => p.1 == .inf true
  if ps.any (fun p => isNan p.1) then (.nan, fl ||| flagIf (pos && neg) fNV)
  else if pos && neg then (.nan, fl ||| fNV)
  else if pos then (.inf false, fl)
  else if neg then (.inf true, fl)
  else
    let l := ps.foldl (fun l p => match p.1 with | .fin _ m e => if m = 0 then l else min l e | _ => l) (0 : Int)
    let x := ps.foldl (fun (x : Int) p => match p.1 with | .fin n m e => x + (if m = 0 then 0 else signedAt n m e l) | _ => x) 0
    if x = 0 then (.fin (!ps.isEmpty && ps.all fun p => p.1 matches .fin true 0 _) 0 0, fl)
    else (.fin (decide (x < 0)) x.natAbs l, fl)

/-- One group added to an accumulator element: acc := rne(acc + rne(group)) (R67). -/
def accAdd (acc : Nat) (g : FV × Nat) : Nat × Nat :=
  let r := encodeF fp32 .rne g.1
  let a := addF fp32 .rne acc r.1
  (a.1, a.2 ||| r.2 ||| g.2)

end Sys2Proof.Machine
end

