-- ==== Sys2Proof/Machine/Legal.lean ====
section
/-! DEFINITION. What each form allows in its operand fields (R22-R25, R38 and the encoding rule of each chapter):
the kind, the modifiers, the even or aligned register numbers and the range of an immediate. -/

namespace Sys2Proof.Machine

/-- What an operand field can name (R22, R23). -/
inductive Kind where | v | s | p | b | vi | im | a | o | spec | imm
  deriving DecidableEq, Repr

/-- Counts a task declares: registers a thread, operand slots, accumulator tiles (R38 subcode 6). -/
structure Lim where
  regs : Nat
  slots : Nat
  acc : Nat
  deriving DecidableEq, Repr

/-- The widest counts a task record can declare (R361). -/
def Lim.max : Lim := ⟨256, 64, 32⟩

def opKind : Opnd → Kind
  | .v .. => .v | .s .. => .s | .p _ => .p | .b _ => .b | .vi _ => .vi | .im _ => .im
  | .a _ => .a | .o _ => .o | .spec _ => .spec | .imm _ => .imm

/-- The operand's number lies in the field's bits (R22, R23). -/
def opInRange : Opnd → Bool
  | .v n .. => decide (n < 256)
  | .s n .. => decide (n < 64)
  | .p n => decide (n < 32)
  | .b n => decide (n < 16)
  | .vi n => decide (n < 8)
  | .im n => decide (n < 8)
  | .a n => decide (n < 32)
  | .o n => decide (n < 64)
  | .spec n => decide (n < 4096)
  | .imm x => decide (x < 1048576)

/-- A negate or absolute-value bit is set (R22). -/
def opMods : Opnd → Bool
  | .v _ n a => n || a
  | .s _ n a => n || a
  | _ => false

/-- One operand position of a form. `al` is the multiple a v-register number must be, `sal` the same for an
s-register, `lt` the bound on the 20 bits of an immediate. -/
inductive Slot where
  | unused
  | wide
  /-- a v-register whose number is checked after the record (R38, R218) -/
  | lateV (n : Nat)
  | op (o : Opnd) (ks : List Kind) (mods : Bool) (al sal lt : Nat)
  deriving DecidableEq, Repr

/-- The special registers of R34. -/
def specIds : List Nat :=
  [0x000, 0x001, 0x002, 0x003, 0x004, 0x005, 0x006, 0x007, 0x008, 0x009, 0x00A, 0x00B,
   0x010, 0x011, 0x012, 0x013, 0x020, 0x021, 0x022, 0x023, 0x024]

/-- The special registers that MOVX writes (R34, R96). -/
def specRw (id : Nat) : Bool := id == 0x010 || id == 0x011 || id == 0x012

/-- The CSRs of R382. -/
def csrIds : List Nat := [0x000, 0x001, 0x002, 0x003, 0x010, 0x011]

/-- Subcodes of R38 that an operand in this position raises. -/
def opErrs (lim : Lim) (o : Opnd) (ks : List Kind) (mods : Bool) (al sal lt : Nat) : List Nat :=
  (if ks.contains (opKind o) then [] else [4]) ++
  (if opMods o && !mods then [8] else []) ++
  (match o with
   | .v n .. => (if n % al = 0 then [] else [5]) ++ (if n < lim.regs then [] else [6])
   | .s n .. => if n % sal = 0 then [] else [5]
   | .a n => if n < lim.acc then [] else [6]
   | .o n => if n < lim.slots then [] else [6]
   | .spec id => if specIds.contains id then [] else [5]
   | .imm x => if x < lt then [] else [3]
   | _ => [])

/-- The operand positions of a form. -/
structure Form where
  d : Slot
  a : Slot
  b : Slot
  deriving DecidableEq, Repr

def immAll : Nat := 1048576

/-- Registers a value of the type takes (R79). -/
def tyRegs : IType → Nat
  | .u32 => 1 | .s32 => 1 | .u64 => 2 | .s64 => 2

def isV (o : Opnd) : Bool := opKind o == .v

/-- An arithmetic source: v, s or immediate. -/
def src (o : Opnd) (mods : Bool) (al : Nat) : Slot := .op o [.v, .s, .imm] mods al 1 immAll
/-- A source of a floating-point type: an FP16 or BF16 immediate keeps bits 19-16 zero (R24). -/
def srcF (ft : FType) (o : Opnd) (mods : Bool) : Slot :=
  .op o [.v, .s, .imm] mods 1 1 (if ft = .f32 then immAll else 65536)
/-- A destination that is a v-register, or an s-register when no source is a v-register (R25). -/
def dst (d : Opnd) (al : Nat) (vsrc : Bool) : Slot := .op d (if vsrc then [.v] else [.v, .s]) false al 1 immAll
/-- A destination or source fixed to one file. -/
def only (k : Kind) (o : Opnd) : Slot := .op o [k] false 1 1 immAll
def onlyV (n al : Nat) : Slot := .op (.v n false false) [.v] false al 1 immAll
def onlyS (n : Nat) : Slot := .op (.s n false false) [.s] false 1 1 immAll
/-- A scalar operand: s-register or immediate. -/
def scal (o : Opnd) (lt : Nat) : Slot := .op o [.s, .imm] false 1 1 lt
/-- An index or value per thread. -/
def idx (o : Opnd) : Slot := .op o [.v, .s, .imm] false 1 1 immAll
/-- An immediate alone. -/
def immOnly (o : Nat) (lt : Nat) : Slot := .op (.imm o) [.imm] false 1 1 lt
def evenS (n : Nat) : Slot := .op (.s n false false) [.s] false 1 2 immAll

def un (d a : Opnd) (ad : Nat) (sa : Slot) : Form := ⟨dst d ad (isV a), sa, .unused⟩
def bin (d a b : Opnd) (ad : Nat) (sa sb : Slot) : Form := ⟨dst d ad (isV a || isV b), sa, sb⟩

/-- Registers a load or store moves (R182). -/
def sizeRegs : MemSize → Nat
  | .b64 => 2 | .b128 => 4 | _ => 1
def lodRegs : LodSize → Nat
  | .b64 => 2 | .b128 => 4 | _ => 1
def dxRegs : DxWidth → Nat
  | .dx16 => 1 | .dx8 => 2 | .dx4 => 4

/-- The kinds that MOV pairs: an s-register goes to any destination, under either width (R90). -/
def movKinds (ty : IType) (a : Opnd) : List Kind :=
  match opKind a, decide (tyRegs ty = 2) with
  | .v, false => [.v, .vi] | .v, true => [.v, .im]
  | .s, _ => [.v, .s, .vi, .im, .p]
  | .imm, _ => [.v, .s]
  | _, _ => [.v]
def movSrc (ty : IType) : List Kind := if tyRegs ty = 2 then [.v, .s, .imm, .im] else [.v, .s, .imm, .vi]

/-- Formats that FCVT and DRAIN permit (R117, R292). -/
def fmtPermitted (c : Nat) : Bool :=
  [0x08, 0x10, 0x18, 0x20, 0x28, 0x30, 0x38, 0x39, 0x40].contains c || decide (0x48 ≤ c ∧ c ≤ 0x5F)

/-- A memory form of the LD shape: D a v-register, A a record, B an index. -/
def memF (d : Slot) (ba : Nat) (b : Opnd) : Form := ⟨d, only .b (.b ba), idx b⟩

def movxKinds (id : Nat) : List Kind := if specIds.contains id && !specRw id then [] else [.spec]

def instrForm : Instr → Form
  | .nop _ => ⟨.unused, .unused, .unused⟩
  | .mov _ ty d a => ⟨.op d (movKinds ty a) false (tyRegs ty) 1 immAll, .op a (movSrc ty) true (tyRegs ty) 1 immAll, .unused⟩
  | .movw _ ty d _ => ⟨dst d (tyRegs ty) false, .wide, .wide⟩
  | .sel _ ty _ _ d a b => bin d a b (tyRegs ty) (src a false (tyRegs ty)) (src b false (tyRegs ty))
  | .iadd _ ty _ _ _ _ d a b | .isub _ ty _ _ _ _ d a b | .imul _ ty d a b | .imulh _ ty d a b | .imad _ ty d a b
  | .idiv _ ty d a b | .idivRem _ ty d a b | .imin _ ty d a b | .imax _ ty d a b | .lea _ ty _ d a b =>
      bin d a b (tyRegs ty) (src a true (tyRegs ty)) (src b true (tyRegs ty))
  | .iabs _ ty d a | .ineg _ ty d a | .not _ ty d a | .popc _ ty d a | .clz _ ty d a | .brev _ ty d a =>
      un d a (tyRegs ty) (src a false (tyRegs ty))
  | .and _ ty d a b | .or _ ty d a b | .xor _ ty d a b | .shl _ ty d a b | .shr _ ty d a b | .rot _ ty d a b
  | .bfx _ ty d a b | .bfi _ ty d a b =>
      bin d a b (tyRegs ty) (src a false (tyRegs ty)) (src b false (tyRegs ty))
  | .icmp _ ty _ pd a b => ⟨only .p (.p pd), src a true (tyRegs ty), src b true (tyRegs ty)⟩
  | .movs _ d id => ⟨.op d (if id = 0 then [.v] else [.v, .s]) false 1 1 immAll, only .spec (.spec id), .unused⟩
  | .movx _ id a => ⟨.op (.spec id) (movxKinds id) false 1 1 immAll, scal a immAll, .unused⟩
  | .shfl _ ty _ vd va b => ⟨onlyV vd (tyRegs ty), onlyV va (tyRegs ty), src b false (tyRegs ty)⟩
  | .ired _ ty _ sd va => ⟨onlyS sd, onlyV va (tyRegs ty), .unused⟩
  | .fadd _ ft _ d a b | .fsub _ ft _ d a b | .fmul _ ft _ d a b | .ffma _ ft _ d a b
  | .fmin _ ft d a b | .fmax _ ft d a b | .hfma2 _ ft _ d a b | .hadd2 _ ft _ d a b | .hmul2 _ ft _ d a b =>
      bin d a b 1 (srcF ft a true) (srcF ft b true)
  | .fcmp _ ft _ pd a b => ⟨only .p (.p pd), srcF ft a true, srcF ft b true⟩
  | .frnd _ ft _ d a | .fclass _ ft d a => un d a 1 (srcF ft a true)
  | .fdiv _ d a b => bin d a b 1 (srcF .f32 a true) (srcF .f32 b true)
  | .fsqrt _ d a | .frcp _ d a | .frsq _ d a | .fex2 _ d a | .flg2 _ d a | .fsin _ d a | .fcos _ d a =>
      un d a 1 (srcF .f32 a true)
  | .f2i _ ity ft _ d a => un d a (tyRegs ity) (srcF ft a true)
  | .i2f _ _ ity _ d a => un d a 1 (src a false (tyRegs ity))
  | .fcvt _ dst' src' _ d a =>
      ⟨dst d 1 (isV a), .op a [.v, .s, .imm] false 1 1 (if src' = 0x10 ∨ src' = 0x18 then 65536 else immAll),
       .op (.imm (dst' + 256 * src')) (if fmtPermitted dst' && fmtPermitted src' then [.imm] else []) false 1 1 immAll⟩
  | .dxpk _ w _ _ vd va sb => ⟨onlyV vd 1, onlyV va (dxRegs w), onlyS sb⟩
  | .dxunpk _ w vd va b => ⟨onlyV vd (dxRegs w), onlyV va 1, scal b immAll⟩
  | .fscale _ ft _ d a b => bin d a b 1 (srcF ft a true) (src b false 1)
  | .fred _ ft _ sd a => ⟨onlyS sd, .op a [.v] true 1 1 (if ft = .f32 then immAll else 65536), .unused⟩
  | .plop _ _ pd pa pb => ⟨only .p (.p pd), only .p (.p pa), only .p (.p pb)⟩
  | .voteAny _ pd pa | .voteAll _ pd pa | .voteUni _ pd pa => ⟨only .p (.p pd), only .p (.p pa), .unused⟩
  | .voteBallot _ sd pa | .pmaskGet _ sd pa => ⟨onlyS sd, only .p (.p pa), .unused⟩
  | .pmaskSet _ pd a => ⟨only .p (.p pd), scal a immAll, .unused⟩
  | .flagsTest _ pd m => ⟨only .p (.p pd), .unused, immOnly m 32⟩
  | .flagsClr _ m => ⟨.unused, .unused, immOnly m 32⟩
  | .bra .. | .call .. | .ovlj .. => ⟨.unused, .wide, .wide⟩
  | .brx _ sd _ => ⟨onlyS sd, .wide, .wide⟩
  | .brdec _ sd _ => ⟨onlyS sd, .wide, .wide⟩
  | .ret _ | .join _ | .yield _ | .exit _ => ⟨.unused, .unused, .unused⟩
  | .setpri _ b => ⟨.unused, .unused, scal b 256⟩
  | .bkpt _ n | .trap _ n => ⟨.unused, .unused, immOnly n 256⟩
  | .waitc _ b | .waitcRel _ b => ⟨.unused, .unused, scal b immAll⟩
  | .ld _ sz _ _ vd ba b | .st _ sz _ _ vd ba b | .lds _ sz _ _ vd ba b | .sts _ sz _ _ vd ba b
  | .ldr _ sz _ _ vd ba b | .str _ sz _ _ vd ba b => memF (onlyV vd (sizeRegs sz)) ba b
  | .ldu _ _ _ _ sd ba b => ⟨onlyS sd, only .b (.b ba), scal b immAll⟩
  | .recld _ bd ba b => ⟨only .b (.b bd), only .b (.b ba), scal b immAll⟩
  | .recldRange _ bd n w => ⟨only .b (.b bd), .unused, immOnly (n + 8 * w) 4096⟩
  | .recldScr _ bd | .recldTile _ bd => ⟨only .b (.b bd), .unused, .unused⟩
  | .recsetOff _ bd b | .recsetExt0 _ bd b | .recsetExt1 _ bd b | .recsetRow _ bd b | .recsetShape _ bd b
  | .recsetEsize _ bd b | .recsetBmode _ bd b | .recsetSwz _ bd b | .recsetXv _ bd b | .recsetTgt _ bd b
  | .recsetAlias _ bd b => ⟨only .b (.b bd), .unused, scal b immAll⟩
  | .recsetRo _ bd => ⟨only .b (.b bd), .unused, immOnly 0 1⟩
  | .lld _ sz lvl vd ba b => ⟨onlyV vd (lodRegs sz), only .b (.b ba),
      .op b (if lvl.isNone then [.v] else [.v, .s]) false (if lvl.isNone then 2 else 1) 1 immAll⟩
  | .lodq _ lvl vd ba b => ⟨onlyV vd 1, only .b (.b ba),
      .op b (if lvl.isNone then [.v] else [.v, .s]) false (if lvl.isNone then 2 else 1) 1 immAll⟩
  | .fbput _ a b => ⟨.unused, idx a, idx b⟩
  | .tld _ _ vd ba b | .tst _ _ vd ba b | .descrd _ vd ba b => memF (onlyV vd 1) ba b
  | .descwr _ d ba b => memF (.op d [.v, .s] false 1 1 immAll) ba b
  | .prefDc _ ba b | .prefXl _ ba b | .cwbWb _ ba b | .cwbWbi _ ba b => memF .unused ba b
  | .atom _ _ _ vd ba b | .red _ _ _ vd ba b | .cas _ _ vd ba b => memF (.lateV vd) ba b
  | .fence .. => ⟨.unused, .unused, .unused⟩
  | .fencex _ _ m1 m2 => ⟨.unused, .op (.imm m1) (if m1 = 0 then [] else [.imm]) false 1 1 128,
      .op (.imm m2) (if m2 = 0 then [] else [.imm]) false 1 1 128⟩
  | .barArm _ _ ba sd b => ⟨onlyS sd, only .b (.b ba), .op b [.b, .imm] false 1 1 1⟩
  | .barArv _ sd ba b => ⟨onlyS sd, only .b (.b ba), scal b immAll⟩
  | .barWait _ ba b | .barSync _ ba b | .awSet _ ba b | .awWait _ _ ba b | .qInit _ _ ba b =>
      ⟨.unused, only .b (.b ba), scal b immAll⟩
  | .qPush _ ba b => memF .unused ba b
  | .qPop _ _ d ba => ⟨.op d [.v, .s] false 1 1 immAll, only .b (.b ba), .unused⟩
  | .qClose _ ba => ⟨.unused, only .b (.b ba), .unused⟩
  | .cpy _ bd ba b => ⟨only .b (.b bd), only .b (.b ba), scal b immAll⟩
  | .cpyg _ d ba b | .cpyp _ d ba b => ⟨.op d [.b, .o] false 1 1 immAll, only .b (.b ba), scal b immAll⟩
  | .cpys _ od ba b | .cpysCb _ od ba b | .cpysZb _ od ba b => ⟨only .o (.o od), only .b (.b ba), scal b immAll⟩
  | .cpyl _ d ba sb => ⟨.op d [.b, .o] false 1 1 immAll, only .b (.b ba), evenS sb⟩
  | .ovlLd _ _ ba b => ⟨.unused, only .b (.b ba), scal b immAll⟩
  | .cpyStat _ sd b => ⟨onlyS sd, .unused, scal b immAll⟩
  | .cpyCancel _ b => ⟨.unused, .unused, scal b immAll⟩
  | .slotClaim _ sd b => ⟨onlyS sd, .unused, scal b 65⟩
  | .slotClaimAt _ sd b => ⟨onlyS sd, .unused, scal b immAll⟩
  | .slotFree _ b => ⟨.unused, .unused, scal b immAll⟩
  | .slotInfoGet _ sd oa => ⟨onlyS sd, only .o (.o oa), .unused⟩
  | .slotInfoExt _ od b => ⟨only .o (.o od), .unused, scal b immAll⟩
  | .slotInfoAcc _ sd aa => ⟨onlyS sd, only .a (.a aa), .unused⟩
  | .mma _ _ ad oa ob | .mmStage _ _ _ _ ad oa ob => ⟨only .a (.a ad), only .o (.o oa), only .o (.o ob)⟩
  | .accZero _ ad | .accZeroFlg _ ad => ⟨only .a (.a ad), .unused, .unused⟩
  | .drain _ _ _ _ bd aa b => ⟨only .b (.b bd), only .a (.a aa), scal b immAll⟩
  | .accLd _ ad ba => ⟨only .a (.a ad), only .b (.b ba), .unused⟩
  | .accSt _ bd aa => ⟨only .b (.b bd), only .a (.a aa), .unused⟩
  | .gmv _ _ bd ba sb => ⟨only .b (.b bd), only .b (.b ba), onlyS sb⟩
  | .mmWait _ b => ⟨.unused, .unused, scal b 524288⟩
  | .lfSetup _ bd ba b => ⟨only .b (.b bd), only .b (.b ba), scal b immAll⟩
  | .lfSpan _ _ _ _ vd ba sb => ⟨onlyV vd 2, only .b (.b ba), onlyS sb⟩
  | .lfZtest _ _ _ imk vb => ⟨only .im (.im imk), .unused, onlyV vb 2⟩
  | .lfVsplit _ _ _ vid via => ⟨only .vi (.vi vid), only .vi (.vi via), .unused⟩
  | .lfInterp _ _ vd va vb => ⟨onlyV vd 2, onlyV va 1, onlyV vb 2⟩
  | .lfWrite _ imk a vb | .lfVis _ imk a vb => ⟨only .im (.im imk), idx a, onlyV vb 2⟩
  | .lfWriteInc _ imk va vb => ⟨only .im (.im imk), onlyV va 2, onlyV vb 2⟩
  | .lfRate _ b => ⟨.unused, .unused, scal b 24⟩
  | .lfViews _ sd => ⟨onlyS sd, .unused, .unused⟩
  | .lfViewsV _ d band => ⟨.op d [.v, .s] false 1 1 immAll, .unused, immOnly band 4⟩
  | .lfRepro _ bd ba sb | .lfResolve _ bd ba sb => ⟨only .b (.b bd), only .b (.b ba), evenS sb⟩
  | .lfPresentArm _ sb => ⟨.unused, .unused, evenS sb⟩
  | .lfPresentCommit _ ba sb | .lfPresentSub _ ba sb => ⟨.unused, only .b (.b ba), evenS sb⟩
  | .lfStat _ _ sd b => ⟨onlyS sd, .unused, scal b immAll⟩
  | .taskSpawn _ sd ba | .taskCheck _ sd ba => ⟨onlyS sd, only .b (.b ba), .unused⟩
  | .taskSignal _ ba => ⟨.unused, only .b (.b ba), .unused⟩
  | .taskCollect _ ba b => ⟨.unused, only .b (.b ba), scal b immAll⟩
  | .taskMigrate _ b | .ebudWait _ b | .ebudCap _ b => ⟨.unused, .unused, scal b immAll⟩
  | .perfRd _ sd n => ⟨onlyS sd, .unused, immOnly n 8⟩
  | .perfClr _ => ⟨.unused, .unused, .unused⟩
  | .rmapSet _ ba b | .rmapClr _ ba b => memF .unused ba b
  | .rmapBump _ => ⟨.unused, .unused, .unused⟩
  | .csrRd _ sd id => ⟨onlyS sd, .unused, immOnly id immAll⟩
  | .csrWr _ id a => ⟨.unused, scal a immAll, immOnly id immAll⟩
  | .tret _ => ⟨.unused, .unused, .unused⟩
  | .halt _ b => ⟨.unused, .unused, scal b immAll⟩
  | _ => ⟨.unused, .unused, .unused⟩

/-- ILL cases of one entry beside its operand positions. -/
def extraErrs (lim : Lim) : Instr → List Nat
  | .movw _ ty _ w => if tyRegs ty = 1 ∧ w ≥ 2 ^ 32 then [3] else []
  | .join h => if h.gn ∨ h.gp ≠ 0 then [3] else []
  | .lld _ sz _ vd _ _ => if vd + lodRegs sz < lim.regs then [] else [6]
  | .lfInterp _ _ _ va _ => if va + 2 < lim.regs then [] else [6]
  | .drain _ _ add _ _ _ (.imm x) => if fmtPermitted x && (!add || x == 0x08) then [] else [4]
  | .slotClaim _ _ (.imm x) => if x = 0 then [3] else []
  | .csrRd _ _ id => if csrIds.contains id then [] else [5]
  | .csrWr _ id _ => if id = 0x001 ∨ id = 0x011 then [] else if csrIds.contains id then [4] else [5]
  | _ => []

end Sys2Proof.Machine
end

