-- ==== Sys2Proof/WellFormed.lean ====
section
/-! DEFINITION. Which terms of `Instr` are instructions of the device: the header's numbers fit their fields (R21),
every operand lies in its file and is a kind its position takes (R22-R25), and every modifier is one the form has. -/

namespace Sys2Proof

open Machine

def Hdr.wf (h : Hdr) : Bool := decide (h.gp < 32) && decide (h.ec < 8) && decide (h.ru < 4)

/-- The modifiers of a form, beside its operands, are values it defines. -/
def modsWf : Instr → Bool
  | .movw _ _ _ w => decide (w < 2 ^ 44)
  | .sel _ _ ps _ _ _ _ => decide (ps < 32)
  | .iadd _ _ sat ci co cp _ _ _ | .isub _ _ sat ci co cp _ _ _ =>
      decide (cp < 8) && !(sat && (ci || co)) && (cp == 0 || ci || co)
  | .imulh _ ty _ _ _ => tyRegs ty == 1
  | .icmp _ _ c _ _ _ => [Cond.eq, .ne, .lt, .le, .gt, .ge].contains c
  | .lea _ _ sh _ _ _ => decide (sh < 8)
  | .hfma2 _ ft _ _ _ _ | .hadd2 _ ft _ _ _ _ | .hmul2 _ ft _ _ _ _ => ft != .f32
  | .fcvt _ d s _ _ _ => decide (d < 256) && decide (s < 256)
  | .dxpk _ _ g _ _ _ _ => decide (1 ≤ g) && decide (g ≤ 8)
  | .plop _ lut _ _ _ => decide (lut < 16)
  | .bra _ t j | .call _ t j => decide (t < 8192) && (match j with | none => true | some k => decide (k < 8192))
  | .brx _ _ j => (match j with | none => true | some k => decide (k < 8192))
  | .brdec _ _ t | .ovlj _ _ _ t => decide (t < 8192)
  | .ld _ _ ord sc _ _ _ | .lds _ _ ord sc _ _ _ | .ldr _ _ ord sc _ _ _ => ord || sc == .lane
  | .st _ sz ord sc _ _ _ | .sts _ sz ord sc _ _ _ | .str _ sz ord sc _ _ _ =>
      (ord || sc == .lane) && sz != .sx8 && sz != .sx16
  | .ldu _ sz ord sc _ _ _ => (ord || sc == .lane) && sz != .b128
  | .recldRange _ _ n w => decide (n < 8) && decide (w < 512)
  | .lld _ _ l _ _ _ | .lodq _ l _ _ _ => (match l with | none => true | some k => decide (k < 16))
  | .atom _ so _ _ _ _ | .cas _ so _ _ _ => atomOrdWf so
  | .red _ so op _ _ _ => atomOrdWf so && op != .exch && (match so with | .plain => true | .rel _ => true | _ => false)
  | .barArm _ sc .. => sc != .sys
  | .awWait _ sc _ _ => sc != .sys
  | .qInit _ sc _ _ => [Scope.lane, .core, .quad, .die].contains sc
  | .qPop _ px _ _ => decide (px < 32)
  | .mmStage _ n _ _ _ _ _ => decide (n < 8)
  | .gmv _ bi _ _ _ => decide (bi < 16)
  | .lfSpan _ _ pm k _ _ _ => decide (pm < 16) && decide (k < 8)
  | .lfVsplit _ _ pp _ _ => decide (pp < 32)
  | .lfInterp _ k _ _ _ => decide (k < 8)
  | _ => true
where
  /-- Scopes an atomic's order takes (R219). -/
  atomOrdWf : AtomOrd → Bool
    | .plain => true
    | .acq s | .rel s | .ar s => [Scope.core, .quad, .die, .pkg, .pod].contains s

/-- A position holds an operand in its field's range that breaks no rule of the form. -/
def slotWf (lim : Lim) : Slot → Bool
  | .unused => true
  | .wide => true
  | .lateV n => decide (n < 256)
  | .op o ks mods al sal lt => opInRange o && (opErrs lim o ks mods al sal lt).isEmpty

/-- The header of an instruction (events have none). -/
def Instr.hdr : Instr → Option Hdr
  | .nop h | .mov h .. | .movw h .. | .sel h .. | .iadd h .. | .isub h .. | .imul h .. | .imulh h .. | .imad h ..
  | .idiv h .. | .idivRem h .. | .imin h .. | .imax h .. | .iabs h .. | .ineg h .. | .and h .. | .or h .. | .xor h ..
  | .not h .. | .shl h .. | .shr h .. | .rot h .. | .bfx h .. | .bfi h .. | .popc h .. | .clz h .. | .brev h ..
  | .icmp h .. | .lea h .. | .movs h .. | .movx h .. | .shfl h .. | .ired h .. | .fadd h .. | .fsub h .. | .fmul h ..
  | .ffma h .. | .fmin h .. | .fmax h .. | .fcmp h .. | .frnd h .. | .fdiv h .. | .fsqrt h .. | .frcp h .. | .frsq h ..
  | .fex2 h .. | .flg2 h .. | .fsin h .. | .fcos h .. | .hfma2 h .. | .hadd2 h .. | .hmul2 h .. | .f2i h .. | .i2f h ..
  | .fcvt h .. | .dxpk h .. | .dxunpk h .. | .fclass h .. | .fscale h .. | .fred h .. | .plop h .. | .voteAny h ..
  | .voteAll h .. | .voteUni h .. | .voteBallot h .. | .pmaskGet h .. | .pmaskSet h .. | .flagsTest h .. | .flagsClr h ..
  | .bra h .. | .brx h .. | .call h .. | .ret h | .join h | .yield h | .setpri h .. | .exit h | .brdec h .. | .ovlj h ..
  | .bkpt h .. | .trap h .. | .waitc h .. | .waitcRel h .. | .ld h .. | .st h .. | .lds h .. | .sts h .. | .ldr h ..
  | .str h .. | .ldu h .. | .recld h .. | .recldRange h .. | .recldScr h .. | .recldTile h .. | .recsetOff h ..
  | .recsetExt0 h .. | .recsetExt1 h .. | .recsetRow h .. | .recsetShape h .. | .recsetEsize h .. | .recsetBmode h ..
  | .recsetSwz h .. | .recsetXv h .. | .recsetRo h .. | .recsetTgt h .. | .recsetAlias h .. | .lld h .. | .lodq h ..
  | .fbput h .. | .tld h .. | .tst h .. | .descrd h .. | .descwr h .. | .prefDc h .. | .prefXl h .. | .cwbWb h ..
  | .cwbWbi h .. | .atom h .. | .red h .. | .cas h .. | .fence h .. | .fencex h .. | .barArm h .. | .barArv h ..
  | .barWait h .. | .barSync h .. | .awSet h .. | .awWait h .. | .qInit h .. | .qPush h .. | .qPop h .. | .qClose h ..
  | .cpy h .. | .cpyg h .. | .cpyp h .. | .cpys h .. | .cpysCb h .. | .cpysZb h .. | .cpyl h .. | .ovlLd h ..
  | .cpyStat h .. | .cpyCancel h .. | .slotClaim h .. | .slotClaimAt h .. | .slotFree h .. | .slotInfoGet h ..
  | .slotInfoExt h .. | .slotInfoAcc h .. | .mma h .. | .mmStage h .. | .accZero h .. | .accZeroFlg h .. | .drain h ..
  | .accLd h .. | .accSt h .. | .gmv h .. | .mmWait h .. | .lfSetup h .. | .lfSpan h .. | .lfZtest h .. | .lfVsplit h ..
  | .lfInterp h .. | .lfWrite h .. | .lfWriteInc h .. | .lfVis h .. | .lfRate h .. | .lfViews h .. | .lfViewsV h ..
  | .lfRepro h .. | .lfResolve h .. | .lfPresentArm h .. | .lfPresentCommit h .. | .lfPresentSub h .. | .lfStat h ..
  | .taskSpawn h .. | .taskSignal h .. | .taskCollect h .. | .taskCheck h .. | .taskMigrate h .. | .ebudWait h ..
  | .ebudCap h .. | .perfRd h .. | .perfClr h | .rmapSet h .. | .rmapClr h .. | .rmapBump h | .csrRd h .. | .csrWr h ..
  | .tret h | .halt h .. => some h
  | _ => none

/-- A well-formed instruction. Events carry no word; their terms are bounded by the state they act on. -/
def Instr.wf (i : Instr) : Bool :=
  (match i.hdr with | some h => h.wf | none => true) && modsWf i &&
  slotWf .max (instrForm i).d && slotWf .max (instrForm i).a && slotWf .max (instrForm i).b &&
  (extraErrs .max i).isEmpty

end Sys2Proof
end

