-- ==== Sys2Proof/Decode.lean ====
section
/-! DEFINITION. Words to instructions and back (R21-R25, R30, R31, R37, R38 and the encoding rule of each chapter).
A word is a number below 2^96, bit 0 the least significant bit of its first byte. -/

namespace Sys2Proof

open Machine

/-- The fields of a word (R21). `z` is bits 75-74. -/
structure Raw where
  op : Nat
  gn : Nat
  gp : Nat
  s : Nat
  ec : Nat
  ru : Nat
  z : Nat
  x : Nat
  d : Nat
  a : Nat
  b : Nat
  deriving DecidableEq, Repr

def splitWord (w : Nat) : Raw :=
  { b := w % 4194304, a := w / 2 ^ 22 % 4194304, d := w / 2 ^ 44 % 4194304, x := w / 2 ^ 66 % 256,
    z := w / 2 ^ 74 % 4, ru := w / 2 ^ 76 % 4, ec := w / 2 ^ 78 % 8, s := w / 2 ^ 81 % 2,
    gp := w / 2 ^ 82 % 32, gn := w / 2 ^ 87 % 2, op := w / 2 ^ 88 % 256 }

def joinWord (r : Raw) : Nat :=
  r.b + 2 ^ 22 * r.a + 2 ^ 44 * r.d + 2 ^ 66 * r.x + 2 ^ 74 * r.z + 2 ^ 76 * r.ru + 2 ^ 78 * r.ec + 2 ^ 81 * r.s +
    2 ^ 82 * r.gp + 2 ^ 87 * r.gn + 2 ^ 88 * r.op

/-- The operand a field names (R22, R23); none for the reserved subspaces. -/
def opOf (f : Nat) : Option Opnd :=
  let v := f % 1048576
  match f / 1048576 % 4 with
  | 0 => some (.v (v % 256) (v / 256 % 2 == 1) (v / 512 % 2 == 1))
  | 1 => some (.s (v % 64) (v / 256 % 2 == 1) (v / 512 % 2 == 1))
  | 2 =>
    match v / 65536 with
    | 0 => some (.p (v % 32))
    | 1 => some (.b (v % 16))
    | 2 => some (.vi (v % 8))
    | 3 => some (.im (v % 8))
    | 4 => some (.a (v % 32))
    | 5 => some (.o (v % 64))
    | 6 => some (.spec (v % 4096))
    | _ => none
  | _ => some (.imm v)

def bit (b : Bool) : Nat := if b then 1 else 0

/-- The 22-bit field of an operand (R22, R23). -/
def fieldOf : Opnd → Nat
  | .v n g a => n + 256 * bit g + 512 * bit a
  | .s n g a => 1048576 + n + 256 * bit g + 512 * bit a
  | .p n => 2097152 + n
  | .b n => 2097152 + 65536 + n
  | .vi n => 2097152 + 131072 + n
  | .im n => 2097152 + 196608 + n
  | .a n => 2097152 + 262144 + n
  | .o n => 2097152 + 327680 + n
  | .spec n => 2097152 + 393216 + n
  | .imm x => 3145728 + x

/-- A must-be-zero bit of a field is set (R22, R23): the field is not the one its operand has. -/
def mbzErrs (f : Nat) : List Nat :=
  match opOf f with
  | some o => if fieldOf o = f then [] else [3]
  | none => []

/-- Subcodes of R38 that one raw field raises in its position. -/
def fieldErrs (lim : Lim) (f : Nat) : Slot → List Nat
  | .unused => if f = 0 then [] else [3]
  | .wide => []
  | .lateV _ =>
    mbzErrs f ++ (match opOf f with | some o => opErrs .max o [.v] false 1 1 immAll | none => [4])
  | .op _ ks mods al sal lt =>
    mbzErrs f ++ (match opOf f with | some o => opErrs lim o ks mods al sal lt | none => [4])

/-- The operand of a field; a reserved subspace is refused by `fieldErrs`, and stands for an immediate that no other check
of a form refuses. -/
def opD (f : Nat) : Opnd := (opOf f).getD (.imm 1)
/-- The number part of a field, in a position whose kind the form fixes. -/
def num (m f : Nat) : Nat := f % m

def ityOf : Nat → IType
  | 0 => .u32 | 1 => .s32 | 2 => .u64 | _ => .s64
def ityCode : IType → Nat
  | .u32 => 0 | .s32 => 1 | .u64 => 2 | .s64 => 3
def ftOf : Nat → Option FType
  | 0 => some .f32 | 1 => some .f16 | 2 => some .bf16 | _ => none
def ftCode : FType → Nat
  | .f32 => 0 | .f16 => 1 | .bf16 => 2
def rmOf : Nat → Option Rm
  | 0 => some .rne | 1 => some .rtz | 2 => some .rdn | 3 => some .rup | 4 => some .rna | _ => none
def rmCode : Rm → Nat
  | .rne => 0 | .rtz => 1 | .rdn => 2 | .rup => 3 | .rna => 4
def condOf : Nat → Option Cond
  | 0 => some .eq | 1 => some .ne | 2 => some .lt | 3 => some .le | 4 => some .gt | 5 => some .ge
  | 6 => some .equ | 7 => some .neu | 8 => some .ltu | 9 => some .leu | 10 => some .gtu | 11 => some .geu
  | 12 => some .num | 13 => some .nan | _ => none
def condCode : Cond → Nat
  | .eq => 0 | .ne => 1 | .lt => 2 | .le => 3 | .gt => 4 | .ge => 5 | .equ => 6 | .neu => 7 | .ltu => 8 | .leu => 9
  | .gtu => 10 | .geu => 11 | .num => 12 | .nan => 13
def scopeOf : Nat → Option Scope
  | 0 => some .lane | 1 => some .core | 2 => some .quad | 3 => some .die | 4 => some .pkg | 5 => some .pod
  | 6 => some .sys | _ => none
def scopeCode : Scope → Nat
  | .lane => 0 | .core => 1 | .quad => 2 | .die => 3 | .pkg => 4 | .pod => 5 | .sys => 6
def sizeOf : Nat → Option MemSize
  | 0 => some .zx8 | 1 => some .sx8 | 2 => some .zx16 | 3 => some .sx16 | 4 => some .b32 | 5 => some .b64
  | 6 => some .b128 | _ => none
def sizeCode : MemSize → Nat
  | .zx8 => 0 | .sx8 => 1 | .zx16 => 2 | .sx16 => 3 | .b32 => 4 | .b64 => 5 | .b128 => 6
def lodSizeOf : Nat → Option LodSize
  | 0 => some .b8 | 1 => some .b16 | 2 => some .b32 | 3 => some .b64 | 4 => some .b128 | _ => none
def lodSizeCode : LodSize → Nat
  | .b8 => 0 | .b16 => 1 | .b32 => 2 | .b64 => 3 | .b128 => 4
def planeOf : Nat → Option Plane
  | 0 => some .colour | 1 => some .depth | 2 => some .vis | 3 => some .motion | _ => none
def planeCode : Plane → Nat
  | .colour => 0 | .depth => 1 | .vis => 2 | .motion => 3
def shflOf : Nat → ShflMode
  | 0 => .idx | 1 => .up | 2 => .down | _ => .xor
def shflCode : ShflMode → Nat
  | .idx => 0 | .up => 1 | .down => 2 | .xor => 3
def iredOf : Nat → Option IredOp
  | 0 => some .add | 1 => some .min | 2 => some .max | 3 => some .and | 4 => some .or | 5 => some .xor | _ => none
def iredCode : IredOp → Nat
  | .add => 0 | .min => 1 | .max => 2 | .and => 3 | .or => 4 | .xor => 5
def fredOf : Nat → Option FredOp
  | 0 => some .add | 1 => some .min | 2 => some .max | _ => none
def fredCode : FredOp → Nat
  | .add => 0 | .min => 1 | .max => 2
def dxOf : Nat → Option DxWidth
  | 0 => some .dx16 | 1 => some .dx8 | 2 => some .dx4 | _ => none
def dxCode : DxWidth → Nat
  | .dx16 => 0 | .dx8 => 1 | .dx4 => 2
def fenceOf : Nat → FenceOrd
  | 0 => .acq | 1 => .rel | 2 => .ar | _ => .sc
def fenceCode : FenceOrd → Nat
  | .acq => 0 | .rel => 1 | .ar => 2 | .sc => 3
def atomOpOf : Nat → Option AtomOp
  | 0 => some .add | 1 => some .minU | 2 => some .minS | 3 => some .maxU | 4 => some .maxS | 5 => some .and
  | 6 => some .or | 7 => some .xor | 8 => some .exch | 9 => some .inc | 10 => some .faddF32 | 11 => some .faddBf16x2
  | _ => none
def atomOpCode : AtomOp → Nat
  | .add => 0 | .minU => 1 | .minS => 2 | .maxU => 3 | .maxS => 4 | .and => 5 | .or => 6 | .xor => 7 | .exch => 8
  | .inc => 9 | .faddF32 => 10 | .faddBf16x2 => 11
/-- The order and scope code SO (R219). -/
def soOf : Nat → Option AtomOrd
  | 0 => some .plain
  | 1 => some (.acq .core) | 2 => some (.acq .quad) | 3 => some (.acq .die) | 4 => some (.acq .pkg) | 5 => some (.acq .pod)
  | 6 => some (.rel .core) | 7 => some (.rel .quad) | 8 => some (.rel .die) | 9 => some (.rel .pkg) | 10 => some (.rel .pod)
  | 11 => some (.ar .core) | 12 => some (.ar .quad) | 13 => some (.ar .die) | 14 => some (.ar .pkg) | 15 => some (.ar .pod)
  | _ => none
def soCode : AtomOrd → Nat
  | .plain => 0
  | .acq s => scopeCode s
  | .rel s => 5 + scopeCode s
  | .ar s => 10 + scopeCode s

def hdrOf (r : Raw) : Hdr := ⟨r.gn == 1, r.gp, r.s == 1, r.ec, r.ru⟩

/-- `some i` when the X bits above a form's own are zero (R78 and the like). -/
def only? (c : Bool) (i : Instr) : Option Instr := if c then some i else none

/-- The field W of a word (R30). -/
def rawW (r : Raw) : Nat := r.a * 4194304 + r.b
/-- A join label in W (R140): named by bit 26, index in bits 25-13. -/
def joinOf (w : Nat) : Option Nat := if w / 2 ^ 26 % 2 = 1 then some (w / 2 ^ 13 % 8192) else none
def joinCode : Option Nat → Nat
  | none => 0 | some k => 2 ^ 26 + 2 ^ 13 * k

/-- The level operand of LLD and LODQ: bit 3 of X names the register B + 1 (R211). -/
def lvlOf (x : Nat) : Option (Option Nat) :=
  if x / 8 % 2 = 1 then (if x / 16 = 0 then some none else none) else some (some (x / 16))
def lvlCode : Option Nat → Nat
  | none => 8 | some k => 16 * k

/-- The candidate of an integer, logic or predicate major; none when X is reserved. -/
def candInt (r : Raw) : Option Instr :=
  let h := hdrOf r
  let x := r.x
  let ty := ityOf (x % 4)
  let t1 := decide (x < 4)
  let d := opD r.d
  let a := opD r.a
  let b := opD r.b
  match r.op with
  | 0x00 => only? (x == 0) (.nop h)
  | 0x01 => only? t1 (.mov h ty d a)
  | 0x02 => only? t1 (.movw h ty d (rawW r))
  | 0x03 => some (.sel h ty (x / 4 % 32) (x / 128 == 1) d a b)
  | 0x04 => only? (modsWf (.iadd h ty (x / 4 % 2 == 1) (x / 8 % 2 == 1) (x / 16 % 2 == 1) (x / 32) d a b))
      (.iadd h ty (x / 4 % 2 == 1) (x / 8 % 2 == 1) (x / 16 % 2 == 1) (x / 32) d a b)
  | 0x05 => only? (modsWf (.isub h ty (x / 4 % 2 == 1) (x / 8 % 2 == 1) (x / 16 % 2 == 1) (x / 32) d a b))
      (.isub h ty (x / 4 % 2 == 1) (x / 8 % 2 == 1) (x / 16 % 2 == 1) (x / 32) d a b)
  | 0x06 => only? t1 (.imul h ty d a b)
  | 0x07 => only? (decide (x < 2)) (.imulh h ty d a b)
  | 0x08 => only? t1 (.imad h ty d a b)
  | 0x09 => if x < 4 then some (.idiv h ty d a b) else only? (decide (x < 8)) (.idivRem h ty d a b)
  | 0x0A => only? t1 (.imin h ty d a b)
  | 0x0B => only? t1 (.imax h ty d a b)
  | 0x0C => only? t1 (.iabs h ty d a)
  | 0x0D => only? t1 (.ineg h ty d a)
  | 0x0E => only? t1 (.and h ty d a b)
  | 0x0F => only? t1 (.or h ty d a b)
  | 0x10 => only? t1 (.xor h ty d a b)
  | 0x11 => only? t1 (.not h ty d a)
  | 0x12 => only? t1 (.shl h ty d a b)
  | 0x13 => only? t1 (.shr h ty d a b)
  | 0x14 => only? t1 (.rot h ty d a b)
  | 0x15 => only? t1 (.bfx h ty d a b)
  | 0x16 => only? t1 (.bfi h ty d a b)
  | 0x17 => only? t1 (.popc h ty d a)
  | 0x18 => only? t1 (.clz h ty d a)
  | 0x19 => only? t1 (.brev h ty d a)
  | 0x1A => if x < 64 then (condOf (x / 4)).bind fun c =>
      only? (modsWf (.icmp h ty c 0 a b)) (.icmp h ty c (num 32 r.d) a b) else none
  | 0x1B => only? (decide (x < 32)) (.lea h ty (x / 4) d a b)
  | 0x1C => only? (x == 0) (.movs h d (num 4096 r.a))
  | 0x1D => only? (x == 0) (.movx h (num 4096 r.d) a)
  | 0x1E => only? (decide (x < 16)) (.shfl h ty (shflOf (x / 4)) (num 256 r.d) (num 256 r.a) b)
  | 0x1F => (iredOf (x / 4)).map fun o => .ired h ty o (num 64 r.d) (num 256 r.a)
  | 0x40 => only? (decide (x < 16)) (.plop h x (num 32 r.d) (num 32 r.a) (num 32 r.b))
  | 0x41 =>
    match x with
    | 0 => some (.voteAny h (num 32 r.d) (num 32 r.a))
    | 4 => some (.voteAll h (num 32 r.d) (num 32 r.a))
    | 8 => some (.voteUni h (num 32 r.d) (num 32 r.a))
    | 12 => some (.voteBallot h (num 64 r.d) (num 32 r.a))
    | _ => none
  | 0x42 =>
    match x with
    | 0 => some (.pmaskGet h (num 64 r.d) (num 32 r.a))
    | 4 => some (.pmaskSet h (num 32 r.d) a)
    | _ => none
  | 0x43 =>
    match x with
    | 0 => some (.flagsTest h (num 32 r.d) (num 1048576 r.b))
    | 4 => some (.flagsClr h (num 1048576 r.b))
    | _ => none
  | _ => none

/-- The candidate of a floating-point or conversion major. -/
def candFp (r : Raw) : Option Instr :=
  let h := hdrOf r
  let x := r.x
  let d := opD r.d
  let a := opD r.a
  let b := opD r.b
  /- X of the majors with a rounding field and an FP type -/
  let rf (k : FType → Rm → Instr) : Option Instr :=
    if x < 32 then (ftOf (x % 4)).bind fun ft => (rmOf (x / 4)).map (k ft) else none
  let pk (k : FType → Rm → Instr) : Option Instr :=
    if x < 32 then (ftOf (x % 4)).bind fun ft => if ft = .f32 then none else (rmOf (x / 4)).map (k ft) else none
  let f0 (k : FType → Instr) : Option Instr := if x < 4 then (ftOf x).map k else none
  match r.op with
  | 0x20 => rf fun ft rm => .fadd h ft rm d a b
  | 0x21 => rf fun ft rm => .fsub h ft rm d a b
  | 0x22 => rf fun ft rm => .fmul h ft rm d a b
  | 0x23 => rf fun ft rm => .ffma h ft rm d a b
  | 0x24 => f0 fun ft => .fmin h ft d a b
  | 0x25 => f0 fun ft => .fmax h ft d a b
  | 0x26 => if x < 64 then (ftOf (x % 4)).bind fun ft => (condOf (x / 4)).map fun c => .fcmp h ft c (num 32 r.d) a b
            else none
  | 0x27 => rf fun ft rm => .frnd h ft rm d a
  | 0x28 => only? (x == 0) (.fdiv h d a b)
  | 0x29 => only? (x == 0) (.fsqrt h d a)
  | 0x2A => only? (x == 0) (.frcp h d a)
  | 0x2B => only? (x == 0) (.frsq h d a)
  | 0x2C => only? (x == 0) (.fex2 h d a)
  | 0x2D => only? (x == 0) (.flg2 h d a)
  | 0x2E => only? (x == 0) (.fsin h d a)
  | 0x2F => only? (x == 0) (.fcos h d a)
  | 0x30 => pk fun ft rm => .hfma2 h ft rm d a b
  | 0x31 => pk fun ft rm => .hadd2 h ft rm d a b
  | 0x32 => pk fun ft rm => .hmul2 h ft rm d a b
  | 0x33 => if x < 128 then (ftOf (x / 32)).bind fun ft => (rmOf (x / 4 % 8)).map fun rm => .f2i h (ityOf (x % 4)) ft rm d a
            else none
  | 0x34 => if x < 128 then (ftOf (x / 32)).bind fun ft => (rmOf (x / 4 % 8)).map fun rm => .i2f h ft (ityOf (x % 4)) rm d a
            else none
  | 0x35 => if x % 4 = 0 ∧ x < 32 then
      (rmOf (x / 4)).map fun rm => .fcvt h (r.b % 256) (r.b / 256 % 256) rm d a
            else none
  | 0x36 => (dxOf (x % 4)).bind fun w => (rmOf (x / 4 % 8)).map fun rm =>
      .dxpk h w (x / 32 + 1) rm (num 256 r.d) (num 256 r.a) (num 64 r.b)
  | 0x37 => if x < 4 then (dxOf x).map fun w => .dxunpk h w (num 256 r.d) (num 256 r.a) b else none
  | 0x38 => f0 fun ft => .fclass h ft d a
  | 0x39 => rf fun ft rm => .fscale h ft rm d a b
  | 0x3A => if x < 32 then (ftOf (x % 4)).bind fun ft => (fredOf (x / 4)).map fun o => .fred h ft o (num 64 r.d) a
            else none
  | _ => none

/-- The candidate of a control major. -/
def candCtl (r : Raw) : Option Instr :=
  let h := hdrOf r
  let x := r.x
  let w := rawW r
  match r.op with
  | 0x50 => only? (x == 0) (.bra h (w % 8192) (joinOf w))
  | 0x51 => only? (x == 0) (.brx h (num 64 r.d) (joinOf w))
  | 0x52 => only? (x == 0) (.call h (w % 8192) (joinOf w))
  | 0x53 => only? (x == 0) (.ret h)
  | 0x54 => only? (x == 0) (.join h)
  | 0x55 => only? (x == 0) (.yield h)
  | 0x56 => only? (x == 0) (.setpri h (opD r.b))
  | 0x57 => only? (x == 0) (.exit h)
  | 0x58 => only? (x == 0) (.brdec h (num 64 r.d) (w % 8192))
  | 0x59 => only? (decide (x < 2)) (.ovlj h (x == 1) (w / 8192 % 2 == 1) (w % 8192))
  | 0x5A => only? (x == 0) (.bkpt h (num 1048576 r.b))
  | 0x5B => only? (x == 0) (.trap h (num 1048576 r.b))
  | 0x5C => if x = 0 then some (.waitc h (opD r.b)) else only? (x == 1) (.waitcRel h (opD r.b))
  | _ => none

/-- The candidate of a memory or LOD major. -/
def candMem (r : Raw) : Option Instr :=
  let h := hdrOf r
  let x := r.x
  let b := opD r.b
  let v := num 256 r.d
  let ba := num 16 r.a
  let ls (k : MemSize → Bool → Scope → Instr) : Option Instr :=
    (sizeOf (x % 8)).bind fun sz => (scopeOf (x / 32)).bind fun sc =>
      if x / 8 % 4 < 2 then only? (modsWf (k sz (x / 8 % 4 == 1) sc)) (k sz (x / 8 % 4 == 1) sc) else none
  match r.op with
  | 0x60 => ls fun sz o sc => .ld h sz o sc v ba b
  | 0x61 => ls fun sz o sc => .st h sz o sc v ba b
  | 0x62 => ls fun sz o sc => .lds h sz o sc v ba b
  | 0x63 => ls fun sz o sc => .sts h sz o sc v ba b
  | 0x64 => ls fun sz o sc => .ldr h sz o sc v ba b
  | 0x65 => ls fun sz o sc => .str h sz o sc v ba b
  | 0x66 => ls fun sz o sc => .ldu h sz o sc (num 64 r.d) ba b
  | 0x67 =>
    match x with
    | 0 => some (.recld h (num 16 r.d) ba b)
    | 1 => some (.recldRange h (num 16 r.d) (r.b % 8) (r.b % 1048576 / 8 % 512))
    | 2 => some (.recldScr h (num 16 r.d))
    | 3 => some (.recldTile h (num 16 r.d))
    | _ => none
  | 0x68 =>
    match x with
    | 0 => some (.recsetOff h (num 16 r.d) b)
    | 1 => some (.recsetExt0 h (num 16 r.d) b)
    | 2 => some (.recsetExt1 h (num 16 r.d) b)
    | 3 => some (.recsetRow h (num 16 r.d) b)
    | 4 => some (.recsetShape h (num 16 r.d) b)
    | 5 => some (.recsetEsize h (num 16 r.d) b)
    | 6 => some (.recsetBmode h (num 16 r.d) b)
    | 7 => some (.recsetSwz h (num 16 r.d) b)
    | 8 => some (.recsetXv h (num 16 r.d) b)
    | 9 => some (.recsetRo h (num 16 r.d))
    | 10 => some (.recsetTgt h (num 16 r.d) b)
    | 11 => some (.recsetAlias h (num 16 r.d) b)
    | _ => none
  | 0x69 => (lodSizeOf (x % 8)).bind fun sz => (lvlOf x).map fun l => .lld h sz l v ba b
  | 0x6A => if x % 8 = 0 then (lvlOf x).map fun l => .lodq h l v ba b else none
  | 0x6B => only? (x == 0) (.fbput h (opD r.a) b)
  | 0x6C => (planeOf x).map fun p => .tld h p v ba b
  | 0x6D => (planeOf x).map fun p => .tst h p v ba b
  | 0x6E => only? (x == 0) (.descrd h v ba b)
  | 0x6F => only? (x == 0) (.descwr h (opD r.d) ba b)
  | 0x70 => if x = 0 then some (.prefDc h ba b) else only? (x == 1) (.prefXl h ba b)
  | 0x71 => if x = 0 then some (.cwbWb h ba b) else only? (x == 1) (.cwbWbi h ba b)
  | _ => none

/-- The candidate of a synchronisation or copy major. -/
def candSync (r : Raw) : Option Instr :=
  let h := hdrOf r
  let x := r.x
  let b := opD r.b
  let v := num 256 r.d
  let ba := num 16 r.a
  match r.op with
  | 0x80 => (soOf (x / 16)).bind fun so => (atomOpOf (x % 16)).map fun o => .atom h so o v ba b
  | 0x81 => (soOf (x / 16)).bind fun so => (atomOpOf (x % 16)).bind fun o =>
      only? (modsWf (.red h so o v ba b)) (.red h so o v ba b)
  | 0x82 => if x % 16 = 0 then (soOf (x / 16)).map fun so => .cas h so v ba b else none
  | 0x83 => if x % 8 = 0 then (scopeOf (x / 32)).map fun sc => .fence h (fenceOf (x / 8 % 4)) sc else none
  | 0x84 => if x % 32 = 0 then (scopeOf (x / 32)).map fun sc => .fencex h sc (num 1048576 r.a) (num 1048576 r.b) else none
  | 0x85 => if x % 32 = 0 then (scopeOf (x / 32)).bind fun sc =>
      only? (sc != .sys) (.barArm h sc ba (num 64 r.d) b) else none
  | 0x86 => only? (x == 0) (.barArv h (num 64 r.d) ba b)
  | 0x87 => only? (x == 0) (.barWait h ba b)
  | 0x88 => only? (x == 0) (.barSync h ba b)
  | 0x89 => only? (x == 0) (.awSet h ba b)
  | 0x8A => if x % 32 = 0 then (scopeOf (x / 32)).bind fun sc => only? (sc != .sys) (.awWait h sc ba b) else none
  | 0x8B => if x % 32 = 0 then (scopeOf (x / 32)).bind fun sc =>
      only? (modsWf (.qInit h sc ba b)) (.qInit h sc ba b) else none
  | 0x8C => only? (x == 0) (.qPush h ba b)
  | 0x8D => only? (decide (x < 32)) (.qPop h x (opD r.d) ba)
  | 0x8E => only? (x == 0) (.qClose h ba)
  | 0x90 => only? (x == 0) (.cpy h (num 16 r.d) ba b)
  | 0x91 => only? (x == 0) (.cpyg h (opD r.d) ba b)
  | 0x92 => only? (x == 0) (.cpyp h (opD r.d) ba b)
  | 0x93 =>
    match x with
    | 0 => some (.cpys h (num 64 r.d) ba b)
    | 1 => some (.cpysCb h (num 64 r.d) ba b)
    | 2 => some (.cpysZb h (num 64 r.d) ba b)
    | _ => none
  | 0x94 => only? (x == 0) (.cpyl h (opD r.d) ba (num 64 r.b))
  | 0x95 => only? (decide (x < 2)) (.ovlLd h (x == 1) ba b)
  | 0x96 => only? (x == 0) (.cpyStat h (num 64 r.d) b)
  | 0x97 => only? (x == 0) (.cpyCancel h b)
  | _ => none

/-- The candidate of a matrix major. -/
def candMat (r : Raw) : Option Instr :=
  let h := hdrOf r
  let x := r.x
  let b := opD r.b
  match r.op with
  | 0xA0 => if x = 0 then some (.slotClaim h (num 64 r.d) b) else only? (x == 1) (.slotClaimAt h (num 64 r.d) b)
  | 0xA1 => only? (x == 0) (.slotFree h b)
  | 0xA2 => if x = 0 then some (.mma h false (num 32 r.d) (num 64 r.a) (num 64 r.b))
            else only? (x == 16) (.mma h true (num 32 r.d) (num 64 r.a) (num 64 r.b))
  | 0xA3 => only? (decide (x < 32))
      (.mmStage h (x % 8) (x / 8 % 2 == 1) (x / 16 == 1) (num 32 r.d) (num 64 r.a) (num 64 r.b))
  | 0xA4 => if x = 0 then some (.accZero h (num 32 r.d)) else only? (x == 1) (.accZeroFlg h (num 32 r.d))
  | 0xA5 => if x % 4 = 0 ∧ x < 128 then (rmOf (x / 4 % 8)).map fun rm =>
      .drain h rm (x / 32 % 2 == 1) (x / 64 == 1) (num 16 r.d) (num 32 r.a) b else none
  | 0xA6 => only? (x == 0) (.accLd h (num 32 r.d) (num 16 r.a))
  | 0xA7 => only? (x == 0) (.accSt h (num 16 r.d) (num 32 r.a))
  | 0xA8 => only? (decide (x < 16)) (.gmv h x (num 16 r.d) (num 16 r.a) (num 64 r.b))
  | 0xA9 => only? (x == 0) (.mmWait h b)
  | 0xAA =>
    match x with
    | 0 => some (.slotInfoGet h (num 64 r.d) (num 64 r.a))
    | 1 => some (.slotInfoExt h (num 64 r.d) b)
    | 2 => some (.slotInfoAcc h (num 64 r.d) (num 32 r.a))
    | _ => none
  | _ => none

/-- The candidate of a light-field or frame major. -/
def candLf (r : Raw) : Option Instr :=
  let h := hdrOf r
  let x := r.x
  let b := opD r.b
  let ba := num 16 r.a
  let vb := num 256 r.b
  match r.op with
  | 0xC0 => only? (x == 0) (.lfSetup h (num 16 r.d) ba b)
  | 0xC1 => some (.lfSpan h (x / 128 == 1) (x / 8 % 16) (x % 8) (num 256 r.d) ba (num 64 r.b))
  | 0xC2 => only? (decide (x < 4)) (.lfZtest h (x % 2 == 1) (x / 2 == 1) (num 8 r.d) vb)
  | 0xC3 => only? (decide (x < 64)) (.lfVsplit h (x % 2 == 1) (x / 2) (num 8 r.d) (num 8 r.a))
  | 0xC4 => only? (decide (x < 8)) (.lfInterp h x (num 256 r.d) (num 256 r.a) vb)
  | 0xC5 => if x = 0 then some (.lfWrite h (num 8 r.d) (opD r.a) vb)
            else only? (x == 1) (.lfWriteInc h (num 8 r.d) (num 256 r.a) vb)
  | 0xC6 => only? (x == 0) (.lfVis h (num 8 r.d) (opD r.a) vb)
  | 0xC7 => only? (x == 0) (.lfRate h b)
  | 0xC8 => only? (x == 0) (.lfRepro h (num 16 r.d) ba (num 64 r.b))
  | 0xC9 => only? (x == 0) (.lfResolve h (num 16 r.d) ba (num 64 r.b))
  | 0xCA =>
    match x with
    | 0 => some (.lfPresentArm h (num 64 r.b))
    | 1 => some (.lfPresentCommit h ba (num 64 r.b))
    | 2 => some (.lfPresentSub h ba (num 64 r.b))
    | _ => none
  | 0xCB => only? (decide (x < 2)) (.lfStat h (x == 1) (num 64 r.d) b)
  | 0xCC => if x = 0 then some (.lfViews h (num 64 r.d)) else only? (x == 1) (.lfViewsV h (opD r.d) (num 1048576 r.b))
  | _ => none

/-- The candidate of a system major. -/
def candSys (r : Raw) : Option Instr :=
  let h := hdrOf r
  let x := r.x
  let b := opD r.b
  let ba := num 16 r.a
  match r.op with
  | 0xD0 => only? (x == 0) (.taskSpawn h (num 64 r.d) ba)
  | 0xD1 => only? (x == 0) (.taskSignal h ba)
  | 0xD2 => only? (x == 0) (.taskCollect h ba b)
  | 0xD3 => only? (x == 0) (.taskCheck h (num 64 r.d) ba)
  | 0xD4 => only? (x == 0) (.taskMigrate h b)
  | 0xD5 => if x = 0 then some (.ebudWait h b) else only? (x == 1) (.ebudCap h b)
  | 0xD6 => if x = 0 then some (.perfRd h (num 64 r.d) (num 1048576 r.b)) else only? (x == 1) (.perfClr h)
  | 0xD7 =>
    match x with
    | 0 => some (.rmapSet h ba b)
    | 1 => some (.rmapClr h ba b)
    | 2 => some (.rmapBump h)
    | _ => none
  | 0xD8 => only? (x == 0) (.csrRd h (num 64 r.d) (num 1048576 r.b))
  | 0xD9 => only? (x == 0) (.csrWr h (num 1048576 r.b) (opD r.a))
  | 0xDA => only? (x == 0) (.tret h)
  | 0xDB => only? (x == 0) (.halt h b)
  | _ => none

/-- The majors of R37. -/
def majorKnown (op : Nat) : Bool :=
  decide (op < 0x3B) || (decide (0x40 ≤ op) && decide (op < 0x44)) || (decide (0x50 ≤ op) && decide (op < 0x5D)) ||
  (decide (0x60 ≤ op) && decide (op < 0x72)) || (decide (0x80 ≤ op) && decide (op < 0x8F)) ||
  (decide (0x90 ≤ op) && decide (op < 0x98)) || (decide (0xA0 ≤ op) && decide (op < 0xAB)) ||
  (decide (0xC0 ≤ op) && decide (op < 0xCD)) || (decide (0xD0 ≤ op) && decide (op < 0xDC))

def candidate (r : Raw) : Option Instr :=
  if r.op < 0x20 then candInt r
  else if r.op < 0x40 then candFp r
  else if r.op < 0x50 then candInt r
  else if r.op < 0x60 then candCtl r
  else if r.op < 0x80 then candMem r
  else if r.op < 0xA0 then candSync r
  else if r.op < 0xC0 then candMat r
  else if r.op < 0xD0 then candLf r
  else candSys r

/-- W bits of the branch majors that must be zero, a join index that no J names among them (R140), and the bits of FCVT's B above its formats (R117). -/
def wideErrs (r : Raw) : List Nat :=
  let w := rawW r
  let join := decide (w < 2 ^ 27) && (decide (2 ^ 26 ≤ w) || decide (w < 8192))
  match r.op with
  | 0x50 | 0x52 => if join then [] else [3]
  | 0x51 => if join ∧ w % 8192 = 0 then [] else [3]
  | 0x58 => if w < 8192 then [] else [3]
  | 0x59 => if w < 16384 then [] else [3]
  | 0x35 => if r.b % 1048576 < 65536 then [] else [4]
  | _ => []

/-- Every subcode of R38 but 1, 2 and 7 that the word raises as instruction `i`. -/
def wordErrs (lim : Lim) (r : Raw) (i : Instr) : List Nat :=
  (if r.z = 0 then [] else [3]) ++ wideErrs r ++ fieldErrs lim r.d (instrForm i).d ++
  fieldErrs lim r.a (instrForm i).a ++ fieldErrs lim r.b (instrForm i).b ++ extraErrs lim i

/-- The lowest of the subcodes; 0 when there is none (R38). -/
def lowestSub (l : List Nat) : Nat := l.foldl (fun m k => if m = 0 ∨ k < m then k else m) 0

/-- What a word is: an instruction, or the subcode of the ILL it raises (R38). -/
inductive Decoded where
  | ok (i : Instr)
  | ill (sub : Nat)
  deriving DecidableEq, Repr

/-- The decoder, on the fields of a word. -/
def decodeRaw (lim : Lim) (r : Raw) : Decoded :=
  if majorKnown r.op then
    match candidate r with
    | none => .ill 2
    | some i => if lowestSub (wordErrs lim r i) = 0 then .ok i else .ill (lowestSub (wordErrs lim r i))
  else .ill 1

/-- The decoder of a word under a task's declared counts (R38). -/
def decode (lim : Lim) (w : Nat) : Decoded := decodeRaw lim (splitWord w)

/-- The bytes of a word, lowest address first (R21). -/
def bytesWord : List Byte → Nat
  | [] => 0
  | b :: r => b.toNat + 256 * bytesWord r

/-- The 12 bytes of a word. -/
def wordBytes (w : Nat) : List Byte :=
  (List.range 12).map fun i => BitVec.ofNat 8 (w / 256 ^ i)

/-- The decoder on bytes: fewer than 12 name no instruction. -/
def decodeBytes (lim : Lim) (bs : List Byte) : Option (Decoded × List Byte) :=
  if bs.length < 12 then none else some (decode lim (bytesWord (bs.take 12)), bs.drop 12)

/-- The instruction read from the bits `w` of a table row (`nbits` of them, the bits above zero). -/
def decodeTableWord (nbits w : Nat) : Option Instr :=
  match decodeBytes .max (wordBytes (w % 2 ^ nbits)) with
  | some (.ok i, _) => some i
  | _ => none

/-! ### The encoder -/

def slotField : Slot → Nat
  | .op o .. => fieldOf o
  | .lateV n => n
  | _ => 0

def ldX (sz : MemSize) (ord : Bool) (sc : Scope) : Nat := sizeCode sz + 8 * bit ord + 32 * scopeCode sc
def addX (ty : IType) (sat ci co : Bool) (cp : Nat) : Nat := ityCode ty + 4 * bit sat + 8 * bit ci + 16 * bit co + 32 * cp
def rfX (ft : FType) (rm : Rm) : Nat := ftCode ft + 4 * rmCode rm

/-- Major opcode, X and W of an instruction; none for an event. -/
def opx : Instr → Option (Nat × Nat × Nat)
  | .nop _ => some (0x00, 0, 0)
  | .mov _ ty .. => some (0x01, ityCode ty, 0)
  | .movw _ ty _ w => some (0x02, ityCode ty, w)
  | .sel _ ty ps ng .. => some (0x03, ityCode ty + 4 * ps + 128 * bit ng, 0)
  | .iadd _ ty sat ci co cp .. => some (0x04, addX ty sat ci co cp, 0)
  | .isub _ ty sat ci co cp .. => some (0x05, addX ty sat ci co cp, 0)
  | .imul _ ty .. => some (0x06, ityCode ty, 0)
  | .imulh _ ty .. => some (0x07, ityCode ty, 0)
  | .imad _ ty .. => some (0x08, ityCode ty, 0)
  | .idiv _ ty .. => some (0x09, ityCode ty, 0)
  | .idivRem _ ty .. => some (0x09, ityCode ty + 4, 0)
  | .imin _ ty .. => some (0x0A, ityCode ty, 0)
  | .imax _ ty .. => some (0x0B, ityCode ty, 0)
  | .iabs _ ty .. => some (0x0C, ityCode ty, 0)
  | .ineg _ ty .. => some (0x0D, ityCode ty, 0)
  | .and _ ty .. => some (0x0E, ityCode ty, 0)
  | .or _ ty .. => some (0x0F, ityCode ty, 0)
  | .xor _ ty .. => some (0x10, ityCode ty, 0)
  | .not _ ty .. => some (0x11, ityCode ty, 0)
  | .shl _ ty .. => some (0x12, ityCode ty, 0)
  | .shr _ ty .. => some (0x13, ityCode ty, 0)
  | .rot _ ty .. => some (0x14, ityCode ty, 0)
  | .bfx _ ty .. => some (0x15, ityCode ty, 0)
  | .bfi _ ty .. => some (0x16, ityCode ty, 0)
  | .popc _ ty .. => some (0x17, ityCode ty, 0)
  | .clz _ ty .. => some (0x18, ityCode ty, 0)
  | .brev _ ty .. => some (0x19, ityCode ty, 0)
  | .icmp _ ty c .. => some (0x1A, ityCode ty + 4 * condCode c, 0)
  | .lea _ ty sh .. => some (0x1B, ityCode ty + 4 * sh, 0)
  | .movs .. => some (0x1C, 0, 0)
  | .movx .. => some (0x1D, 0, 0)
  | .shfl _ ty m .. => some (0x1E, ityCode ty + 4 * shflCode m, 0)
  | .ired _ ty o .. => some (0x1F, ityCode ty + 4 * iredCode o, 0)
  | .fadd _ ft rm .. => some (0x20, rfX ft rm, 0)
  | .fsub _ ft rm .. => some (0x21, rfX ft rm, 0)
  | .fmul _ ft rm .. => some (0x22, rfX ft rm, 0)
  | .ffma _ ft rm .. => some (0x23, rfX ft rm, 0)
  | .fmin _ ft .. => some (0x24, ftCode ft, 0)
  | .fmax _ ft .. => some (0x25, ftCode ft, 0)
  | .fcmp _ ft c .. => some (0x26, ftCode ft + 4 * condCode c, 0)
  | .frnd _ ft rm .. => some (0x27, rfX ft rm, 0)
  | .fdiv .. => some (0x28, 0, 0)
  | .fsqrt .. => some (0x29, 0, 0)
  | .frcp .. => some (0x2A, 0, 0)
  | .frsq .. => some (0x2B, 0, 0)
  | .fex2 .. => some (0x2C, 0, 0)
  | .flg2 .. => some (0x2D, 0, 0)
  | .fsin .. => some (0x2E, 0, 0)
  | .fcos .. => some (0x2F, 0, 0)
  | .hfma2 _ ft rm .. => some (0x30, rfX ft rm, 0)
  | .hadd2 _ ft rm .. => some (0x31, rfX ft rm, 0)
  | .hmul2 _ ft rm .. => some (0x32, rfX ft rm, 0)
  | .f2i _ ity ft rm .. => some (0x33, ityCode ity + 4 * rmCode rm + 32 * ftCode ft, 0)
  | .i2f _ ft ity rm .. => some (0x34, ityCode ity + 4 * rmCode rm + 32 * ftCode ft, 0)
  | .fcvt _ _ _ rm .. => some (0x35, 4 * rmCode rm, 0)
  | .dxpk _ w g rm .. => some (0x36, dxCode w + 4 * rmCode rm + 32 * (g - 1), 0)
  | .dxunpk _ w .. => some (0x37, dxCode w, 0)
  | .fclass _ ft .. => some (0x38, ftCode ft, 0)
  | .fscale _ ft rm .. => some (0x39, rfX ft rm, 0)
  | .fred _ ft o .. => some (0x3A, ftCode ft + 4 * fredCode o, 0)
  | .plop _ lut .. => some (0x40, lut, 0)
  | .voteAny .. => some (0x41, 0, 0)
  | .voteAll .. => some (0x41, 4, 0)
  | .voteUni .. => some (0x41, 8, 0)
  | .voteBallot .. => some (0x41, 12, 0)
  | .pmaskGet .. => some (0x42, 0, 0)
  | .pmaskSet .. => some (0x42, 4, 0)
  | .flagsTest .. => some (0x43, 0, 0)
  | .flagsClr .. => some (0x43, 4, 0)
  | .bra _ t j => some (0x50, 0, t + joinCode j)
  | .brx _ _ j => some (0x51, 0, joinCode j)
  | .call _ t j => some (0x52, 0, t + joinCode j)
  | .ret _ => some (0x53, 0, 0)
  | .join _ => some (0x54, 0, 0)
  | .yield _ => some (0x55, 0, 0)
  | .setpri .. => some (0x56, 0, 0)
  | .exit _ => some (0x57, 0, 0)
  | .brdec _ _ t => some (0x58, 0, t)
  | .ovlj _ c bk t => some (0x59, bit c, t + 8192 * bit bk)
  | .bkpt .. => some (0x5A, 0, 0)
  | .trap .. => some (0x5B, 0, 0)
  | .waitc .. => some (0x5C, 0, 0)
  | .waitcRel .. => some (0x5C, 1, 0)
  | .ld _ sz o sc .. => some (0x60, ldX sz o sc, 0)
  | .st _ sz o sc .. => some (0x61, ldX sz o sc, 0)
  | .lds _ sz o sc .. => some (0x62, ldX sz o sc, 0)
  | .sts _ sz o sc .. => some (0x63, ldX sz o sc, 0)
  | .ldr _ sz o sc .. => some (0x64, ldX sz o sc, 0)
  | .str _ sz o sc .. => some (0x65, ldX sz o sc, 0)
  | .ldu _ sz o sc .. => some (0x66, ldX sz o sc, 0)
  | .recld .. => some (0x67, 0, 0)
  | .recldRange .. => some (0x67, 1, 0)
  | .recldScr .. => some (0x67, 2, 0)
  | .recldTile .. => some (0x67, 3, 0)
  | .recsetOff .. => some (0x68, 0, 0)
  | .recsetExt0 .. => some (0x68, 1, 0)
  | .recsetExt1 .. => some (0x68, 2, 0)
  | .recsetRow .. => some (0x68, 3, 0)
  | .recsetShape .. => some (0x68, 4, 0)
  | .recsetEsize .. => some (0x68, 5, 0)
  | .recsetBmode .. => some (0x68, 6, 0)
  | .recsetSwz .. => some (0x68, 7, 0)
  | .recsetXv .. => some (0x68, 8, 0)
  | .recsetRo .. => some (0x68, 9, 0)
  | .recsetTgt .. => some (0x68, 10, 0)
  | .recsetAlias .. => some (0x68, 11, 0)
  | .lld _ sz l .. => some (0x69, lodSizeCode sz + lvlCode l, 0)
  | .lodq _ l .. => some (0x6A, lvlCode l, 0)
  | .fbput .. => some (0x6B, 0, 0)
  | .tld _ p .. => some (0x6C, planeCode p, 0)
  | .tst _ p .. => some (0x6D, planeCode p, 0)
  | .descrd .. => some (0x6E, 0, 0)
  | .descwr .. => some (0x6F, 0, 0)
  | .prefDc .. => some (0x70, 0, 0)
  | .prefXl .. => some (0x70, 1, 0)
  | .cwbWb .. => some (0x71, 0, 0)
  | .cwbWbi .. => some (0x71, 1, 0)
  | .atom _ so o .. => some (0x80, atomOpCode o + 16 * soCode so, 0)
  | .red _ so o .. => some (0x81, atomOpCode o + 16 * soCode so, 0)
  | .cas _ so .. => some (0x82, 16 * soCode so, 0)
  | .fence _ o sc => some (0x83, 8 * fenceCode o + 32 * scopeCode sc, 0)
  | .fencex _ sc .. => some (0x84, 32 * scopeCode sc, 0)
  | .barArm _ sc .. => some (0x85, 32 * scopeCode sc, 0)
  | .barArv .. => some (0x86, 0, 0)
  | .barWait .. => some (0x87, 0, 0)
  | .barSync .. => some (0x88, 0, 0)
  | .awSet .. => some (0x89, 0, 0)
  | .awWait _ sc .. => some (0x8A, 32 * scopeCode sc, 0)
  | .qInit _ sc .. => some (0x8B, 32 * scopeCode sc, 0)
  | .qPush .. => some (0x8C, 0, 0)
  | .qPop _ px .. => some (0x8D, px, 0)
  | .qClose .. => some (0x8E, 0, 0)
  | .cpy .. => some (0x90, 0, 0)
  | .cpyg .. => some (0x91, 0, 0)
  | .cpyp .. => some (0x92, 0, 0)
  | .cpys .. => some (0x93, 0, 0)
  | .cpysCb .. => some (0x93, 1, 0)
  | .cpysZb .. => some (0x93, 2, 0)
  | .cpyl .. => some (0x94, 0, 0)
  | .ovlLd _ bk .. => some (0x95, bit bk, 0)
  | .cpyStat .. => some (0x96, 0, 0)
  | .cpyCancel .. => some (0x97, 0, 0)
  | .slotClaim .. => some (0xA0, 0, 0)
  | .slotClaimAt .. => some (0xA0, 1, 0)
  | .slotFree .. => some (0xA1, 0, 0)
  | .mma _ z .. => some (0xA2, 16 * bit z, 0)
  | .mmStage _ n t z .. => some (0xA3, n + 8 * bit t + 16 * bit z, 0)
  | .accZero .. => some (0xA4, 0, 0)
  | .accZeroFlg .. => some (0xA4, 1, 0)
  | .drain _ rm ad cl .. => some (0xA5, 4 * rmCode rm + 32 * bit ad + 64 * bit cl, 0)
  | .accLd .. => some (0xA6, 0, 0)
  | .accSt .. => some (0xA7, 0, 0)
  | .gmv _ bi .. => some (0xA8, bi, 0)
  | .mmWait .. => some (0xA9, 0, 0)
  | .slotInfoGet .. => some (0xAA, 0, 0)
  | .slotInfoExt .. => some (0xAA, 1, 0)
  | .slotInfoAcc .. => some (0xAA, 2, 0)
  | .lfSetup .. => some (0xC0, 0, 0)
  | .lfSpan _ re pm k .. => some (0xC1, k + 8 * pm + 128 * bit re, 0)
  | .lfZtest _ ge w .. => some (0xC2, bit ge + 2 * bit w, 0)
  | .lfVsplit _ g pp .. => some (0xC3, bit g + 2 * pp, 0)
  | .lfInterp _ k .. => some (0xC4, k, 0)
  | .lfWrite .. => some (0xC5, 0, 0)
  | .lfWriteInc .. => some (0xC5, 1, 0)
  | .lfVis .. => some (0xC6, 0, 0)
  | .lfRate .. => some (0xC7, 0, 0)
  | .lfRepro .. => some (0xC8, 0, 0)
  | .lfResolve .. => some (0xC9, 0, 0)
  | .lfPresentArm .. => some (0xCA, 0, 0)
  | .lfPresentCommit .. => some (0xCA, 1, 0)
  | .lfPresentSub .. => some (0xCA, 2, 0)
  | .lfStat _ pkg .. => some (0xCB, bit pkg, 0)
  | .lfViews .. => some (0xCC, 0, 0)
  | .lfViewsV .. => some (0xCC, 1, 0)
  | .taskSpawn .. => some (0xD0, 0, 0)
  | .taskSignal .. => some (0xD1, 0, 0)
  | .taskCollect .. => some (0xD2, 0, 0)
  | .taskCheck .. => some (0xD3, 0, 0)
  | .taskMigrate .. => some (0xD4, 0, 0)
  | .ebudWait .. => some (0xD5, 0, 0)
  | .ebudCap .. => some (0xD5, 1, 0)
  | .perfRd .. => some (0xD6, 0, 0)
  | .perfClr .. => some (0xD6, 1, 0)
  | .rmapSet .. => some (0xD7, 0, 0)
  | .rmapClr .. => some (0xD7, 1, 0)
  | .rmapBump .. => some (0xD7, 2, 0)
  | .csrRd .. => some (0xD8, 0, 0)
  | .csrWr .. => some (0xD9, 0, 0)
  | .tret .. => some (0xDA, 0, 0)
  | .halt .. => some (0xDB, 0, 0)
  | _ => none

def encodeRaw (i : Instr) : Option Raw :=
  match i.hdr, opx i with
  | some h, some (op, x, w) =>
    some { op := op, gn := bit h.gn, gp := h.gp, s := bit h.s, ec := h.ec, ru := h.ru, z := 0, x := x,
           d := slotField (instrForm i).d,
           a := if (instrForm i).a = .wide then w / 4194304 else slotField (instrForm i).a,
           b := if (instrForm i).b = .wide then w % 4194304 else slotField (instrForm i).b }
  | _, _ => none

/-- The word of an instruction; none for an event. -/
def encode (i : Instr) : Option Nat := (encodeRaw i).map joinWord

end Sys2Proof
end

