-- ==== Sys2Proof/Machine/Tbl.lean ====
section
/-! DEFINITION. Sparse stores as plain data: lists of (key, value) pairs in ONE canonical form (keys strictly rising).
A `Tbl` has a value for unlisted keys and lists no key at that value, so equal contents are equal lists. -/

namespace Sys2Proof.Machine

/-- Finite map from numbers, keys strictly rising in canonical form. -/
abbrev Assoc (α : Type) := List (Nat × α)

/-- The value at key `i`, if listed. -/
def aget {α : Type} : Assoc α → Nat → Option α
  | [], _ => none
  | (k, v) :: r, i => if k = i then some v else aget r i

/-- Insert or replace at key `i`, keeping the keys rising. -/
def aput {α : Type} : Assoc α → Nat → α → Assoc α
  | [], i, v => [(i, v)]
  | (k, w) :: r, i, v =>
    if i < k then (i, v) :: (k, w) :: r else if k = i then (i, v) :: r else (k, w) :: aput r i v

/-- Remove key `i`. -/
def adel {α : Type} : Assoc α → Nat → Assoc α
  | [], _ => []
  | (k, w) :: r, i => if k = i then adel r i else (k, w) :: adel r i

/-- Replace the value at key `i` by `f` of it, when it is listed. -/
def amod {α : Type} (m : Assoc α) (i : Nat) (f : α → α) : Assoc α :=
  match aget m i with
  | some v => aput m i (f v)
  | none => m

/-- A sparse table: unlisted keys read as the default given at each use. -/
abbrev Tbl (α : Type) := List (Nat × α)

/-- Read of a table whose unlisted keys read as `d`. -/
def tget {α : Type} (d : α) (m : Tbl α) (i : Nat) : α := (aget m i).getD d

/-- Write to a table: writing `d` removes the entry. -/
def tset {α : Type} [DecidableEq α] (d : α) (m : Tbl α) (i : Nat) (v : α) : Tbl α :=
  if v = d then adel m i else aput m i v

/-- Keys strictly rising. -/
def keysRise {α : Type} : Assoc α → Bool
  | [] => true
  | [_] => true
  | (k, _) :: (k', w) :: r => decide (k < k') && keysRise ((k', w) :: r)

/-- The canonical form of a table with default `d`. -/
def Tbl.wf {α : Type} [DecidableEq α] (d : α) (m : Tbl α) : Bool :=
  keysRise m && m.all (fun e => e.2 ≠ d)

end Sys2Proof.Machine
end

