-- ==== Sys2Proof/Machine/Bytes.lean ====
section
/-! DEFINITION. Byte order (R1), bit fields of numbers, CRC-32C (R267), SHA-256 (R44) and RSASSA-PSS (R419). -/

namespace Sys2Proof.Machine

/-- The `n` bytes of a number, lowest address first (R1). -/
def leBytes (n x : Nat) : List Byte := (List.range n).map fun i => BitVec.ofNat 8 (x / 256 ^ i)

/-- The number that bytes hold, lowest address first. -/
def leVal (bs : List Byte) : Nat := bytesWord bs

/-- Bits hi..lo of a number. -/
def bits (x hi lo : Nat) : Nat := x / 2 ^ lo % 2 ^ (hi - lo + 1)

/-- A number of `w` bits read as two's complement. -/
def sextN (w x : Nat) : Int := if x % 2 ^ w ≥ 2 ^ (w - 1) then (x % 2 ^ w : Nat) - (2 ^ w : Nat) else (x % 2 ^ w : Nat)

/-- An integer cut to `w` bits. -/
def cutN (w : Nat) (x : Int) : Nat := (x % (2 ^ w : Nat)).toNat

/-- Bits set among the low `w`. -/
def popN : Nat → Nat → Nat
  | 0, _ => 0
  | w + 1, x => x % 2 + popN w (x / 2)

/-- Lowest set bit among bits `i` .. `i + n - 1`. -/
def lowBitFrom (x : Nat) : Nat → Nat → Option Nat
  | 0, _ => none
  | n + 1, i => if x.testBit i then some i else lowBitFrom x n (i + 1)
def lowBit (w x : Nat) : Option Nat := lowBitFrom x w 0
def highBit (x : Nat) : Option Nat := if x = 0 then none else some (Nat.log2 x)

/-- Round up to a multiple. -/
def alignUp (x a : Nat) : Nat := (x + a - 1) / a * a
def ceilDiv (x a : Nat) : Nat := (x + a - 1) / a

/-- CRC-32C, reflected, initial and final value all ones (R264). -/
def crcByte : Nat → Nat → Nat
  | 0, c => c
  | n + 1, c => crcByte n (if c % 2 = 1 then (c / 2) ^^^ 0x82F63B78 else c / 2)
def crc32c (bs : List Byte) : Nat :=
  (bs.foldl (fun c b => crcByte 8 (c ^^^ b.toNat)) 0xFFFFFFFF) ^^^ 0xFFFFFFFF

/-! ### SHA-256 (R44, R419, R420)

Words are numbers below 2^32. The constants are the first 32 fractional bits of square and cube roots of primes. -/

def nthN (l : List Nat) (i : Nat) : Nat := (l[i]?).getD 0

/-- The first 64 primes: below 312, without a smaller divisor up to 17. -/
def shaPrimes : List Nat :=
  (List.range 312).filter fun n => decide (2 ≤ n) && [2, 3, 5, 7, 11, 13, 17].all fun d => decide (n ≤ d) || n % d != 0

/-- The largest `r + y` with `y < 2 ^ b` whose `k`-th power is at most `x`. -/
def rootFrom (k x : Nat) : Nat → Nat → Nat
  | 0, r => r
  | b + 1, r => rootFrom k x b (if (r + 2 ^ b) ^ k ≤ x then r + 2 ^ b else r)

/-- 32 fractional bits of the `k`-th root of a small number. -/
def rootFrac (k p : Nat) : Nat := rootFrom k (p * 2 ^ (32 * k)) 40 0 % 2 ^ 32

/-- Round constants, from cube roots; the starting state, from square roots. -/
def shaKeys : List Nat := shaPrimes.map (rootFrac 3)
def shaStart : List Nat := (shaPrimes.take 8).map (rootFrac 2)

/-- Exclusive or of a word rotated right by each of `ns` and shifted right by `sh`, if given. -/
def shaMix (ns : List Nat) (sh : Option Nat) (x : Nat) : Nat :=
  ns.foldl (fun r n => r ^^^ (x / 2 ^ n + x % 2 ^ n * 2 ^ (32 - n))) ((sh.map fun n => x / 2 ^ n).getD 0)

/-- The schedule, latest word first: each new word from those 2, 7, 15 and 16 before it. -/
def shaExtend : Nat → List Nat → List Nat
  | 0, w => w
  | n + 1, w =>
    let old (k : Nat) : Nat := nthN w (k - 1)
    shaExtend n ((shaMix [17, 19] (some 10) (old 2) + old 7 + shaMix [7, 18] (some 3) (old 15) + old 16) % 2 ^ 32 :: w)

/-- One round: `k` is constant plus schedule word. Words 1 to 3 and 5 to 7 of the state move up by one. -/
def shaTurn (st : List Nat) (k : Nat) : List Nat :=
  let at' : Nat → Nat := nthN st
  let choose := (at' 4 &&& at' 5) + ((2 ^ 32 - 1 - at' 4) &&& at' 6)
  let common := (at' 0 &&& at' 1) ||| (at' 2 &&& (at' 0 ||| at' 1))
  let x := at' 7 + shaMix [6, 11, 25] none (at' 4) + choose + k
  let y := shaMix [2, 13, 22] none (at' 0) + common
  ((x + y) % 2 ^ 32 :: st.take 3) ++ ((at' 3 + x) % 2 ^ 32 :: (st.drop 4).take 3)

/-- One 16-word block. -/
def shaBlock (st blk : List Nat) : List Nat :=
  let ks := List.zipWith (· + ·) shaKeys (shaExtend 48 blk.reverse).reverse
  List.zipWith (fun a b => (a + b) % 2 ^ 32) (ks.foldl shaTurn st) st

/-- All blocks of a padded message, `n` of them. -/
def shaBlocks : Nat → List Nat → List Byte → List Nat
  | 0, st, _ => st
  | n + 1, st, m =>
    let word (i : Nat) : Nat := leVal ((m.drop (4 * i)).take 4).reverse
    shaBlocks n (shaBlock st ((List.range 16).map word)) (m.drop 64)

/-- SHA-256 of bytes, as 32 bytes. -/
def sha256 (bs : List Byte) : List Byte :=
  let pad := 0x80#8 :: List.replicate ((119 - bs.length % 64) % 64) 0#8
  let msg := bs ++ pad ++ (leBytes 8 (8 * bs.length)).reverse
  (shaBlocks (msg.length / 64) shaStart msg).flatMap fun w => (leBytes 4 w).reverse

/-! ### RSASSA-PSS, RSA-3072 with SHA-256, MGF1-SHA-256 and a 32-byte salt (R419) -/

/-- Bytes as a number, most significant first, and back. -/
def beVal (bs : List Byte) : Nat := leVal bs.reverse
def beBytes (n x : Nat) : List Byte := (leBytes n x).reverse

/-- `x ^ e` modulo `n`, over `k` bits of the exponent. -/
def powMod (n : Nat) : Nat → Nat → Nat → Nat
  | 0, _, _ => 1 % n
  | k + 1, x, e =>
    let r := powMod n k (x * x % n) (e / 2)
    if e % 2 = 1 then x * r % n else r

/-- MGF1: `k` digests of the seed and a counter, cut to `len` bytes. -/
def mgf1 (seed : List Byte) (len : Nat) : List Byte :=
  ((List.range (ceilDiv len 32)).flatMap fun c => sha256 (seed ++ beBytes 4 c)).take len

/-- The encoded message of a digest under a salt, 3071 bits in 384 bytes. -/
def pssEncode (mHash salt : List Byte) : List Byte :=
  let h := sha256 (List.replicate 8 0#8 ++ mHash ++ salt)
  let db := List.replicate 318 0#8 ++ [1#8] ++ salt
  let masked := List.zipWith (· ^^^ ·) db (mgf1 h 351)
  (masked.take 1).map (· &&& 0x7F#8) ++ masked.drop 1 ++ h ++ [0xBC#8]

/-- The salt that an encoded message claims to hold. -/
def pssSalt (em : List Byte) : List Byte :=
  let h := (em.drop 351).take 32
  (List.zipWith (· ^^^ ·) (em.take 351) (mgf1 h 351)).drop 319

/-- A signature of a message under a modulus and the public exponent: the encoded message must be the one its salt gives. -/
def pssVerify (n e : Nat) (msg sig : List Byte) : Bool :=
  decide (n < 2 ^ 3072) && sig.length == 384 && decide (beVal sig < n) &&
    let em := beBytes 384 (powMod n 32 (beVal sig) e)
    pssEncode (sha256 msg) (pssSalt em) == em

/-- The signature of a message with a private exponent and a salt. -/
def pssSign (n d : Nat) (salt msg : List Byte) : List Byte :=
  beBytes 384 (powMod n 3072 (beVal (pssEncode (sha256 msg) salt)) d)

end Sys2Proof.Machine
end

