-- ==== Sys2Proof/Machine/State.lean ====
section
/-! DEFINITION. The state of the device: every piece the manual names, as plain data, and its value at reset. -/

namespace Sys2Proof.Machine

/-! ### Squads (R32-R36, R123-R137, R331, R382, R391, R392) -/

/-- One register write of a squad. -/
inductive RegW where
  | v (r t : Nat) (x : W32)
  | s (r : Nat) (x : W64)
  | p (r t : Nat) (x : Bool)
  | b (r : Nat) (x : Rec)
  | vi (r t : Nat) (x : W32)
  | im (r t : Nat) (x : W64)
  | flg (x : BitVec 5)
  deriving DecidableEq, Repr

/-- An outstanding variable-latency result (R27): what it writes, whether its value is there (a barrier token comes
later), and the LOD epoch that tags its walk (R210). -/
structure Pend where
  id : Nat
  ready : Bool
  ws : List RegW
  walk : Option Nat
  deriving DecidableEq, Repr

/-- Overlay bank and instruction index (R41); `bank` is true for B. -/
structure Pc where
  bank : Bool
  index : Nat
  deriving DecidableEq, Repr

/-- A ready path (R127). `entry` is its place in the path table. -/
structure Path where
  entry : Nat
  pc : Pc
  members : Mask
  exm : Mask
  ppri : Nat
  jrec : Option Nat
  ret : List Pc
  deriving DecidableEq, Repr

/-- A path held by its join record (R135). -/
structure Deferred where
  pc : Pc
  exm : Mask
  members : Mask
  ppri : Nat
  ret : List Pc
  deriving DecidableEq, Repr

/-- A join record (R128). `lastRet` is the return stack of the last path that parked. -/
structure JoinRec where
  expected : Mask
  arrived : Mask
  join : Pc
  spri : Nat
  rdepth : Nat
  outer : Option Nat
  deferred : Option Deferred
  lastRet : List Pc
  deriving DecidableEq, Repr

/-- A fault on its way to delivery (R380, R448). -/
structure FaultInfo where
  code : Nat
  sub : Nat
  thread : Nat
  mask : Mask
  addr : Nat
  /-- the program counter is left at the next index (TRAP, BKPT) -/
  advance : Bool
  /-- on a leased page: parked for the host first (R383) -/
  park : Bool
  /-- path entry and instruction that raised it; the path may have moved on -/
  late : Option (Nat × Pc)
  deriving DecidableEq, Repr

/-- What a squad waits for (R123). -/
inductive Wait where
  /-- BAR.WAIT or BAR.SYNC on a token -/
  | bar (token : W32)
  /-- BAR.SYNC whose arrival is not yet counted -/
  | barArrive (pend : Nat)
  | aw
  | qPush
  | qPop
  /-- WAITC: deadline in ns -/
  | waitc (deadline : Nat)
  /-- WAITC.REL: %clock at the end -/
  | waitcRel (clock : Nat)
  | mmWait (n : Nat)
  /-- EBUD.WAIT for its grant -/
  | ebud (units : Nat)
  /-- the budget is below the cost of the next instruction; `granted` once the pacer took the cost -/
  | budget (cost : Nat)
  /-- the squad's own EBUD cap is reached until the next refill (R391) -/
  | capped
  /-- LF.SPAN until the rasteriser accepts -/
  | span
  | collect
  /-- a parked fault awaits the host, since when (R383) -/
  | parked (token since : Nat)
  /-- a copy or matrix command has no room yet in its queue -/
  | accept (cmd : Nat)
  /-- a peer window's target does not answer (R410); since when -/
  | peer (since : Nat)
  /-- it has not answered for 20 us -/
  | peerLost
  /-- stopped by the debugger at BKPT (R151) -/
  | debugger
  deriving DecidableEq, Repr

/-- The trap CSRs of a squad in a handler (R382), and the path that trapped. -/
structure TrapState where
  cause : W32
  pc : Pc
  addr : W64
  mask : Mask
  entry : Nat
  deriving DecidableEq, Repr

/-- A resident squad. -/
structure Squad where
  task : Nat
  idx : Nat
  lane : Nat
  /-- 128 x die + core -/
  core : Nat
  v : Tbl W32
  s : Tbl W64
  p : Tbl Mask
  b : Tbl Rec
  vi : Tbl W32
  im : Tbl W64
  flg : BitVec 5
  /-- the ready list, first the path that issues next (R129) -/
  paths : List Path
  joins : Assoc JoinRec
  pend : List Pend
  settling : Bool
  /-- the path a debug step issues, when the user selected one (R155) -/
  select : Option Nat
  wait : Option Wait
  granted : Bool
  /-- units of RES and BUD that the grant took -/
  taken : Nat × Nat
  fault : Option FaultInfo
  rasterLv : Bool
  rasterRvc : Nat
  rasterRy : Nat
  rasterRx : Nat
  latch : BitVec 1024
  perf : Tbl W64
  ebudCap : Nat
  ebudDeb : Nat
  trap : Option TrapState
  /-- its place in the order of residence on the lane (R123) -/
  since : Nat
  /-- an atomic parked on POISON: its path and instruction, the threads that have performed it and what they read (R383) -/
  atomDone : Option (Nat × Pc × List (Nat × Nat))
  deriving DecidableEq, Repr

/-! ### Cores and dies -/

/-- An overlay bank (R41, R42). Its bytes are in `State.imem`. -/
structure Bank where
  valid : Bool
  ovlid : Nat
  ninst : Nat
  /-- the commands that load it -/
  loading : List Nat
  /-- tasks that hold it, and the overlay id that their records name (R43) -/
  holders : List Nat
  named : Nat
  deriving DecidableEq, Repr

/-- What a matrix command does (R279). -/
inductive MKind where
  | mma (z : Bool) (d a b : Nat)
  | zero (flgOnly : Bool) (d : Nat)
  | drain (fmt : Nat) (rm : Rm) (add clr : Bool) (dst : Rec) (a : Nat)
  | accLd (d : Nat) (src : Rec)
  | accSt (dst : Rec) (a : Nat)
  | gmv (dst src inp : Rec) (cw : W64)
  deriving DecidableEq, Repr

/-- A matrix command and the instruction that made it (R448). -/
structure MCmd where
  serial : Nat
  ctx : Nat
  task : Nat
  /-- id of the squad, and its index in the task -/
  squad : Nat
  sidx : Nat
  pc : Pc
  kind : MKind
  /-- operands fetched (R254, R285) -/
  fetched : Bool
  /-- results written -/
  executed : Bool
  /-- MMA: the tile after the command and its flags, from the operands fetched; add-on-store: the image, and the homes not
  yet updated (R293) -/
  image : List W32
  homes : List Nat
  deriving DecidableEq, Repr

/-- A staged command (R288, R289). -/
structure Staged where
  cmd : MCmd
  trig : Nat
  deriving DecidableEq, Repr

/-- Where an arrival word stands. -/
structure AwLoc where
  sp : Space
  addr : Nat
  deriving DecidableEq, Repr

/-- Phases of a copy command (R247). -/
inductive CopyPhase where | inbox | queued | running
  deriving DecidableEq, Repr

/-- A copy command (R248, R270). -/
structure Copy where
  id : Nat
  die : Nat
  eng : Nat
  core : Nat
  ctx : Nat
  task : Nat
  /-- KIND 2 node, when no task issued it (R368) -/
  node : Option Nat
  /-- the squad that waits for acceptance, and the index of the instruction's squad -/
  squad : Nat
  sidx : Nat
  pc : Pc
  major : Nat
  xf : Nat
  drec : Rec
  srec : Rec
  irec : Rec
  /-- slot name of the destination -/
  dslot : Option Nat
  cword : W64
  param : W64
  /-- arrival word: where it stands, and the space and address that named it -/
  aw : AwLoc
  awName : Nat × Nat
  phase : CopyPhase
  /-- destination bytes in all -/
  total : Nat
  landed : List Nat
  cancelled : Bool
  /-- matrix serials that must fetch before the first byte is written (R254) -/
  hold : List Nat
  /-- staged command bound by STV: number and serial (R289) -/
  stv : Option (Nat × Nat)
  /-- CPYL: level served and status -/
  walk : Option (Nat × Nat)
  /-- LOD epoch of the walk (R210) -/
  epoch : Option Nat
  /-- CPYP: source offset of the current block, bytes decoded before it, its chunks decoded and committed -/
  soff : Nat
  out : Nat
  decoded : List Nat
  committed : Nat
  parked : Option Nat
  deriving DecidableEq, Repr

/-- A reprojection or resolve command (R345-R351). -/
structure LfCmd where
  id : Nat
  repro : Bool
  die : Nat
  core : Nat
  ctx : Nat
  task : Nat
  node : Option Nat
  squad : Nat
  sidx : Nat
  pc : Pc
  tileRec : Rec
  other : Rec
  panel : Rec
  word : W64
  views : Nat
  aw : AwLoc
  parked : Option Nat
  deriving DecidableEq, Repr

/-- A request at a quad's span rasteriser, as issued (R334): its number, squad, path, instruction, threads, form, place of the record,
span word. -/
structure SpanReq where
  id : Nat
  squad : Nat
  entry : Nat
  pc : Pc
  act : Mask
  redo : Bool
  pm : Nat
  k : Nat
  vd : Nat
  addr : Nat
  word : Nat
  deriving DecidableEq, Repr

/-- A deferred effect on a slot (R283, R284), and the commands that still read the slot at its issue. -/
structure SlotWait where
  core : Nat
  slot : Nat
  task : Nat
  name : Nat
  readers : List Nat
  /-- none: free; some (rows, kel): new extents -/
  ext : Option (Nat × Nat)
  deriving DecidableEq, Repr

/-- Counters of a context on a die (R302, R303), and its waiting lists (squad, cost, debits on grant). -/
structure Budget where
  bud : Nat
  res : Nat
  refill : Nat
  cap : Nat
  rcap : Nat
  prio : List (Nat × Nat × Bool)
  gen : List (Nat × Nat × Bool)
  deriving DecidableEq, Repr

/-- The part of an armed barrier object that the device holds (R227, R229): the instance of the arming squad, the place of
the parent, the children that arrived in this phase, the tasks with counted arrivals, and the arrivals counted in the phase
by the object and the objects below it (R231). -/
structure BarDev where
  inst : Nat
  parent : Option AwLoc
  kids : List AwLoc
  arrivers : List Nat
  arrs : List Nat
  deriving DecidableEq, Repr

/-- What the device holds of an initialised relay queue: ring size, owning core (128 x die + core), scope, closed. A store to
the live header reaches none of it (R240). -/
structure QueueDev where
  log2n : Nat
  owner : Nat
  scope : Scope
  closed : Bool
  deriving DecidableEq, Repr

/-- An arrival under way or held (R229): the squad that answers for it, its core, lane and index, which serve when the squad
has ended, its path, instruction and threads, the outstanding token (none for BAR.SYNC), and the arriving child, when it is
not a squad's own arrival. -/
structure Arrival where
  id : Nat
  squad : Nat
  core : Nat
  lane : Nat
  idx : Nat
  task : Nat
  entry : Nat
  pc : Pc
  mask : Mask
  pend : Option Nat
  obj : AwLoc
  count : Nat
  child : Option AwLoc
  deriving DecidableEq, Repr

/-! ### Tasks and graphs (R361-R379) -/

/-- A task record's fields as last read (R361). -/
structure TRec where
  ovla : Nat
  ovlb : Nat
  nsquad : Nat
  regs : Nat
  slots : Nat
  acc : Nat
  ntile : Nat
  ctrl : Nat
  flags : Nat
  rbudget : Nat
  nrange : Nat
  gang : Nat
  scratch : Nat
  tileoff : Nat
  preds : Nat
  band : W64
  sched : Nat
  size : W64
  /-- bytes 64-191 -/
  range : BitVec 1024
  succ : Nat
  nsucc : Nat
  cthresh : Nat
  cdead : Nat
  runlim : Nat
  save : Nat
  deriving DecidableEq, Repr

/-- What a fault record says (R363, R448). -/
structure FaultRec where
  code : Nat
  sub : Nat
  core : Nat
  squad : Nat
  thread : Nat
  pc : Nat
  addr : Nat
  time : Nat
  /-- the task may be relaunched -/
  relaunch : Bool
  deriving DecidableEq, Repr

/-- Why a task is being stopped. -/
inductive Stopping where
  | no
  /-- to be killed -/
  | kill (r : FaultRec)
  /-- killed: waits for the scrub -/
  | scrub (r : FaultRec)
  /-- ended by HALT 0: every squad ends as if it had exited -/
  | halted
  /-- being saved or replayed; the core a migration goes to -/
  | preempt (migrate : Option Nat)
  /-- stopped for replay: waits for the fills in flight (R377) -/
  | replaying
  deriving DecidableEq, Repr

/-- What the device keeps of a saved task beside its save area: the parts whose layout R378 leaves open, or that live
elsewhere on the core. Places are relative to the task: slot names, tile names, footprint offsets. `waits` are the blocked requests of
its squads at relay queues: squad, whether it pushes, queue. What the device holds of the barrier objects and queues of the
footprint stays in `State.bars` and its like, at the saved task's own place (`homeCore`). -/
structure Kept where
  residual : List Copy
  staged : List (Nat × Staged)
  banks : List (Bool × Bank × List Byte)
  slotWaits : List SlotWait
  zown : List (Nat × Nat)
  waits : List (Nat × Bool × AwLoc)
  deriving DecidableEq, Repr

/-- An instance of a task on a core. -/
structure Task where
  node : Nat
  ctx : Nat
  part : Nat
  size : W64
  tr : TRec
  core : Nat
  base : Nat
  /-- physical slots of the names o0, o1, ... (R272) -/
  slots : List Nat
  claimed : List Nat
  tile0 : Nat
  banks : List Bool
  squads : List Nat
  saved : Bool
  stopping : Stopping
  rbudget : Nat
  /-- time of the last launch or resume, and ns parked since (R380) -/
  runFrom : Nat
  idle : Nat
  entry : Nat
  bin : Tbl Nat
  kept : Option Kept
  /-- length of the ordering record at its launch: its walks may see LOD descriptors as of then or later (R196) -/
  born : Nat
  deriving DecidableEq, Repr

/-- An instance that is to run again: after a kill or a replay (R298, R377). -/
structure Part where
  part : Nat
  rbudget : Nat
  entry : Nat
  deriving DecidableEq, Repr

/-- A node of an accepted graph. -/
structure Node where
  graph : Nat
  ctx : Nat
  va : Nat
  tr : TRec
  st : Nat
  die : Nat
  entry : Nat
  leased : Bool
  asked : Bool
  /-- first moment the leased node fitted nowhere on its die -/
  misfit : Option Nat
  /-- dies the placement may use: all, after 100 us (R368) -/
  spill : Bool
  drain : List Nat
  /-- collector: WRITE, READ, arrival of the oldest record that no instance has, records and size word of the instance -/
  wr : Nat
  rd : Nat
  oldest : Nat
  consume : Nat
  csize : W64
  /-- instances asked for, instances begun, those to run again, those on a core -/
  parts : Nat
  started : Nat
  again : List Part
  insts : List Nat
  /-- fault of a node without squads -/
  fault : Option FaultRec
  spawner : Option Nat
  priv : Bool
  deriving DecidableEq, Repr

/-- An accepted graph (R364). -/
structure Graph where
  ctx : Nat
  gid : Nat
  nodes : List Nat
  awva : Nat
  /-- earliest fault of its nodes: time, code, subcode -/
  fault : Option (Nat × Nat × Nat)
  ended : Bool
  deriving DecidableEq, Repr

/-- The effect of a graph submission under way. -/
structure Spawn where
  die : Nat
  graph : Nat
  deriving DecidableEq, Repr

/-! ### Contexts, frames, links and services (R202, R210, R352, R401-R420) -/

/-- An event for the host (R403). -/
structure HostEv where
  token : Nat
  type : Nat
  code : Nat
  sub : Nat
  trec : Nat
  addr : Nat
  time : Nat
  deriving DecidableEq, Repr

/-- Who awaits an answer of the host (R383, R403). -/
inductive Awaiter where
  | squad (id : Nat)
  | copy (id : Nat)
  | matrix (core : Nat)
  | frame (id : Nat)
  | node (id : Nat)
  deriving DecidableEq, Repr

/-- A feedback entry on its way to the ring (R203). -/
structure Feedback where
  page : Nat
  rid : Nat
  want : Nat
  served : Nat
  src : Nat
  time : Nat
  deriving DecidableEq, Repr

/-- An answer that is awaited: the fault or node it is about, and since when. -/
structure Await where
  token : Nat
  who : Awaiter
  code : Nat
  sub : Nat
  addr : Nat
  since : Nat
  deriving DecidableEq, Repr

/-- A context entry (R401) and what the device holds for the context. -/
structure Ctx where
  ptroot : W64
  cflags : W64
  fbctl : W64
  sqbase : W64
  sqlog2 : Nat
  sqhead : Nat
  sqtail : Nat
  trapovl : W64
  eqbase : W64
  eqlog2 : Nat
  eqwrite : Nat
  eqread : Nat
  invBusy : Bool
  invCount : Nat
  invVpn : Nat
  epoch : Nat
  done : Nat
  feedback : List Feedback
  events : List HostEv
  awaiting : List Await
  nextToken : Nat
  /-- pages asked of the host's fault service: node, page, whether for writing (R369) -/
  asks : List (Nat × Nat × Bool)
  deriving DecidableEq, Repr

/-- An image to scan out: the commit that named it, and its record. -/
structure Image where
  commit : Nat
  record : Rec
  deriving DecidableEq, Repr

/-- An armed frame (R353). -/
structure Frame where
  frame : Nat
  deadline : Nat
  graph : Nat
  image : Option Image
  deriving DecidableEq, Repr

/-- A commit or substitute on its way to the present engine (R354). -/
structure Commit where
  id : Nat
  ch : Nat
  frame : Nat
  image : Rec
  isSub : Bool
  deriving DecidableEq, Repr

/-- A present channel (R352-R355, R405). -/
structure Channel where
  reg : BitVec 128
  armed : List Frame
  lastArmed : Option Nat
  substitute : Option Image
  last : Option Image
  frames : Nat
  miss : Nat
  late : Nat
  /-- images due for scan-out and when -/
  due : List (Nat × Option Image)
  /-- what has been scanned out: image and start -/
  shown : List (Nat × Option Image)
  commits : List Commit
  claims : Nat
  deriving DecidableEq, Repr

/-- An Onaler port (R409, R415). -/
structure Port where
  up : Bool
  lanes : Nat
  fails : Nat
  lastFlit : Nat
  lastBeat : Nat
  sentBeat : Nat
  lost : Bool
  deriving DecidableEq, Repr

/-- The timebase block (R412). -/
structure Timebase where
  root : Nat
  port : Nat
  locked : Bool
  lost : Bool
  lastSync : Nat
  /-- ns still to gain or lose by slewing, and ns that have passed towards the next ns of it -/
  slew : Int
  credit : Nat
  deriving DecidableEq, Repr

/-- A firmware slot (R419). -/
structure Firmware where
  image : List Byte
  /-- public key and signature that came with the image -/
  key : List Byte
  sig : List Byte
  version : Nat
  valid : Bool
  /-- written since the last reset: takes effect at the next one -/
  staged : Bool
  deriving DecidableEq, Repr

/-- A forwarding entry of a migration (R379). -/
structure Forward where
  core : Nat
  lo : Nat
  hi : Nat
  dest : Nat
  expiry : Nat
  deriving DecidableEq, Repr

/-- A host access to BAR 2 that waits for a peer device, or behind one of its link that does, since when (R399, R410); or a doorbell
behind such an access: context and tail. -/
structure HostReq where
  link : Nat
  off : Nat
  write : Bool
  relaxed : Bool
  data : List Byte
  since : Nat
  bell : Option (Nat × Nat)
  deriving DecidableEq, Repr

/-- A cached line translation (R166): the page's physical base and permissions. -/
structure CachedPage where
  ctx : Nat
  page : Nat
  pa : Nat
  w : Bool
  xo : Bool
  deriving DecidableEq, Repr

/-! ### The ordering record (R175-R181, R446): what has been performed, in order -/

/-- Who performs an access (R177); a node stands for all its accesses at its completion and its launch (R367). -/
inductive Agent where
  | thread (squad t : Nat)
  | copy (die eng : Nat)
  | matrix (core : Nat)
  | unit (die : Nat)
  | link (n : Nat)
  | peer (dev : Nat)
  | node (id : Nat)
  /-- the writer of a context's feedback or event ring, and the scan-out of a channel -/
  | ring (ctx : Nat) (events : Bool)
  | scan (ch : Nat)
  | device
  deriving DecidableEq, Repr

/-- An agent as it performs: the engine command and the graph node it acts for, and the device, die, core (128 x die + core)
and lane that hold it at that moment (R10). A host link lies in no device, a copy engine in no core. -/
structure Who where
  agent : Agent
  cmd : Option Nat
  node : Option Nat
  dev : Option Nat
  die : Option Nat
  core : Option Nat
  lane : Option Nat
  deriving DecidableEq, Repr

/-- Access paths (R175). -/
inductive APath where | T | C | M | G | L | V | H
  deriving DecidableEq, Repr

/-- What an access touches: bytes; descriptors of blocks, locations of their own (R173); an operand slot; a tile of the
accumulator store. -/
inductive HLoc where
  | bytes (sp : Space) (lo len : Nat)
  | desc (sp : Space) (blk n : Nat)
  | slot (core k : Nat)
  | acc (core tile : Nat)
  deriving DecidableEq, Repr

/-- An access: whether it reads and writes, its acquire and release scopes, the bytes that a store replaced, and for a load, by
8-byte granule of its bytes, the length of the record whose stores it saw; none, when it saw all before it (R181). -/
structure Acc where
  who : Who
  path : APath
  rd : Bool
  wr : Bool
  loc : HLoc
  acq : Option Scope
  rel : Option Scope
  old : List Byte
  asOf : List Nat
  deriving DecidableEq, Repr

/-- What a stated synchronisation goes through: a release names one, an acquire those it may take it from. -/
inductive HKey where
  /-- an arrival, by its id; a wait on an object's phase (R231) -/
  | arrival (id : Nat)
  | phase (obj : AwLoc) (n : Nat)
  /-- the push of a handle, the close of a queue (R243) -/
  | handle (obj : AwLoc) (n : Nat)
  | closed (obj : AwLoc)
  /-- a count at an arrival word and whether it advances GEN; a wait that reads GEN (R239) -/
  | count (word : AwLoc) (adv : Bool)
  | gen (word : AwLoc)
  /-- completed matrix commands of a squad (R280) -/
  | matrix (squad : Nat)
  /-- the last count of a fill, for a staged command; the fetch of a matrix command, for a held fill (R254, R255) -/
  | staged (serial : Nat)
  | fetched (serial : Nat)
  /-- LF.SETUP of a squad (R342) -/
  | setup (squad : Nat)
  /-- what readies a node; a submission of a graph (R367, R386, R387, R402) -/
  | towards (node : Nat)
  | graph (id : Nat)
  /-- record `k` of a collector (R388) -/
  | record (node k : Nat)
  /-- the completion of the node of a record (R367, R389) -/
  | done (ctx va : Nat)
  /-- a commit of an image (R354) -/
  | commit (id : Nat)
  /-- events appended for a context (R403) -/
  | events (ctx : Nat)
  /-- LOD epoch that a bump began, or that a finished walk lies below; the DONE that was read (R210) -/
  | lodep (ctx epoch : Nat)
  deriving DecidableEq, Repr

/-- One entry of the ordering record. -/
inductive HEv where
  | access (a : Acc)
  | fence (who : Who) (ord : FenceOrd) (sc : Scope)
  | fencex (who : Who) (sc : Scope) (m1 m2 : Nat)
  /-- a path issues an engine command: one entry for each of its threads (R224) -/
  | command (who : Who) (cmd : Nat)
  /-- a release of the paths in `mask`, and an acquire for them -/
  | release (who : Who) (mask : Nat) (sc : Scope) (key : HKey)
  | acquire (who : Who) (mask : Nat) (sc : Scope) (keys : List HKey)
  /-- a flip of an object's phase, with the LEVEL of its root and the arrivals that led to it (R231) -/
  | flip (obj : AwLoc) (phase : Nat) (level : Scope) (arrs : List Nat)
  /-- bytes set otherwise than by an access: a saved footprint comes back -/
  | wipe (l : HLoc)
  deriving DecidableEq, Repr

/-! ### The machine -/

/-- What the model does next: the choice of the moving agent, as data. -/
inductive Agendum where
  | issue (squad : Nat)
  | event (i : Instr)
  | tick (ns : Nat)
  deriving DecidableEq, Repr

/-- The state of the device. -/
structure State where
  -- squads, tasks, nodes and graphs
  squads : Assoc Squad
  tasks : Assoc Task
  nodes : Assoc Node
  graphs : Assoc Graph
  spawns : List Spawn
  -- cores: keys core x size + offset, core = 128 x die + core
  scr : Tbl Byte
  scrTag : Tbl W16
  slotMem : Tbl Byte
  sidecar : Tbl Byte
  ext : Tbl (Nat × Nat)
  slotWaits : List SlotWait
  acc : Tbl W32
  accFlg : Tbl (BitVec 5)
  imem : Tbl Byte
  banks : Assoc Bank
  matQueue : Assoc (List MCmd)
  matInbox : Assoc (List MCmd)
  staged : Assoc Staged
  cong : Tbl Nat
  debug : Tbl (BitVec 64)
  zown : Assoc Nat
  spans : List SpanReq
  spanLast : Tbl Nat
  lanes : Assoc (List Nat × Nat)
  -- dies
  copies : List Copy
  lfCmds : List LfCmd
  budgets : Assoc Budget
  stats : Tbl Nat
  refresh : Tbl Nat
  active : Tbl Nat
  corrected : Tbl Nat
  /-- lines of the die caches, die x 2^40 + line: 1 clean, 2 dirty; their bytes and descriptors are those of the store -/
  dcache : Tbl Nat
  -- memory
  mem : List Host.Cell
  tags : Tbl W16
  peer : Tbl Byte
  peerTag : Tbl W16
  tlb : List CachedPage
  bars : Assoc BarDev
  barsScr : Assoc BarDev
  arrivals : List Arrival
  qWaits : Assoc (List Nat × List Nat)
  queues : Assoc QueueDev
  forwards : List Forward
  /-- engine commands that wait for a peer device: id and since when (R410) -/
  engWaits : Assoc Nat
  hostHeld : List HostReq
  -- contexts and device
  ctxs : Assoc Ctx
  channels : Assoc Channel
  ports : Assoc Port
  timebase : Timebase
  time : Nat
  clock : Nat
  /-- thousandths of a cycle that have passed beyond `clock` -/
  clockRem : Nat
  mhz : Nat
  dev : Nat
  devFixed : Bool
  wbase : Tbl Nat
  /-- log2 of the size of BAR 2 on each link (R397) -/
  bar2 : Tbl Nat
  teams : BitVec 8
  windows : Tbl W64
  hostAcc : Tbl Nat
  peerAcc : Tbl Nat
  readback : BitVec 16
  ageing : Tbl (BitVec 64)
  aged : List Nat
  firmware : Assoc Firmware
  running : Nat
  fusedVersion : Nat
  ready : Bool
  powered : Bool
  nonce : Rec
  report : List Byte
  refills : Nat
  debugger : Bool
  -- replies in order: what reads returned to a host link, by its number, to peer device d, by 2 + d, and to the management
  -- controller, by 2050
  replies : List (Nat × Option (List Byte))
  msix : List Nat
  -- the model's own
  cur : Option Nat
  agenda : List Agendum
  ctr : Nat
  nextId : Nat
  hist : List HEv
  deriving DecidableEq, Repr

/-- Why a step stops instead of moving. -/
inductive Fault where
  /-- `exec` of an instruction word's meaning when `State.cur` names no resident squad: no lane issues it. Raised by the
  issue wrapper only; the step never calls a meaning so. Safe. -/
  | noSquad
  /-- the device is without power after the 110 degree cut-off (R417): nothing runs. Raised by the step. Safe. -/
  | noPower
  deriving DecidableEq, Repr

/-- Why a step has no meaning. -/
inductive Refusal where
  /-- the instruction has no meaning in the model. Raised by the dispatch only. Safe. -/
  | notModelled (mnemonic : String)
  deriving DecidableEq, Repr

/-- The canonical form of byte memory: addresses strictly rising and no byte at its unlisted value 0. -/
def Memory.wf (m : List Host.Cell) : Bool := Tbl.wf (0 : Byte) m

def Timebase.reset : Timebase := ⟨0, 0, false, false, 0, 0, 0⟩

/-- The device after reset (R36, R42, R60, R276, R303, R357, R358, R400-R416). -/
def State.reset : State :=
  { squads := [], tasks := [], nodes := [], graphs := [], spawns := [],
    scr := [], scrTag := [], slotMem := [], sidecar := [], ext := [], slotWaits := [], acc := [], accFlg := [],
    imem := [], banks := [], matQueue := [], matInbox := [], staged := [], cong := [], debug := [], zown := [],
    spans := [], spanLast := [], lanes := [], copies := [], lfCmds := [], budgets := [], stats := [], refresh := [],
    active := [], corrected := [], dcache := [],
    mem := [], tags := [], peer := [], peerTag := [], tlb := [], bars := [], barsScr := [], arrivals := [],
    qWaits := [], queues := [], forwards := [], engWaits := [], hostHeld := [], ctxs := [], channels := [], ports := [], timebase := .reset, time := 0, clock := 0,
    clockRem := 0, mhz := 3600, dev := 0, devFixed := false, wbase := [], bar2 := [], teams := 0xF0, windows := [], hostAcc := [],
    peerAcc := [], readback := 0, ageing := [], aged := [], firmware := [], running := 0,
    fusedVersion := 0, ready := false, powered := true, nonce := 0, report := [], refills := 0, debugger := false,
    replies := [], msix := [], cur := none, agenda := [], ctr := 0, nextId := 0, hist := [] }

end Sys2Proof.Machine
end

