-- ==== Sys2Proof/Machine/Operands.lean ====
section
/-! DEFINITION. The registers of a squad and every operand form (R22-R27, R32, R79, R104, R125). -/

namespace Sys2Proof.Machine

/-! ### Threads and masks -/

def bitM (m : Mask) (t : Nat) : Bool := m.getLsbD t
/-- The threads of a mask, ascending. -/
def threadsOf (m : Mask) : List Nat := (List.range 32).filter fun t => bitM m t
def maskOf (f : Nat → Bool) : Mask :=
  (List.range 32).foldl (fun m t => if f t then m ||| (1 <<< t : Mask) else m) 0
/-- The lowest thread of a mask. -/
def lowest (m : Mask) : Option Nat := (List.range 32).find? fun t => bitM m t
def lowestD (m : Mask) : Nat := (lowest m).getD 0
def countM (m : Mask) : Nat := popN 32 m.toNat

/-! ### Register reads -/

def rdV (q : Squad) (r t : Nat) : W32 := tget 0 q.v (r * 32 + t)
def rdS (q : Squad) (r : Nat) : W64 := tget 0 q.s r
/-- p0 reads true (R32). -/
def rdP (q : Squad) (r t : Nat) : Bool := r == 0 || bitM (tget 0 q.p r) t
def rdB (q : Squad) (r : Nat) : Rec := tget 0 q.b r
def rdVi (q : Squad) (r t : Nat) : W32 := tget 0 q.vi (r * 32 + t)
def rdIm (q : Squad) (r t : Nat) : W64 := tget 0 q.im (r * 32 + t)
/-- A register pair, low half in the even register (R32). -/
def rdPair (q : Squad) (r t : Nat) : Nat := (rdV q r t).toNat + 2 ^ 32 * (rdV q (r + 1) t).toNat

/-! ### Register writes -/

/-- One write. Writes to p0 are discarded, bits 31-23 of `vi` stay zero; a flag write is an OR (R32, R33, R76). -/
def applyW (w : RegW) (q : Squad) : Squad :=
  match w with
  | .v r t x => { q with v := tset 0 q.v (r * 32 + t) x }
  | .s r x => { q with s := tset 0 q.s r x }
  | .p r t x =>
    if r = 0 then q
    else
      let m := tget 0 q.p r
      { q with p := tset 0 q.p r (if x then m ||| (1 <<< t : Mask) else m &&& ~~~(1 <<< t : Mask)) }
  | .b r x => { q with b := tset 0 q.b r x }
  | .vi r t x => { q with vi := tset 0 q.vi (r * 32 + t) (x &&& 0x7FFFFF) }
  | .im r t x => { q with im := tset 0 q.im (r * 32 + t) x }
  | .flg x => { q with flg := q.flg ||| x }

def applyWs (ws : List RegW) (q : Squad) : Squad := ws.foldl (fun q w => applyW w q) q

/-- The register a write names, threads apart. -/
def regKey : RegW → Nat × Nat
  | .v r _ _ => (0, r) | .s r _ => (1, r) | .p r _ _ => (2, r) | .b r _ => (3, r) | .vi r _ _ => (4, r)
  | .im r _ _ => (5, r) | .flg _ => (6, 0)

/-- Two writes meet in a register; flags combine and never hold a writer (R76, R125). -/
def sameReg (a b : RegW) : Bool := regKey a == regKey b && regKey a != (6, 0)

/-- The outstanding results that a write to these registers must wait for, written first (R125). -/
def landFor (ws : List RegW) (q : Squad) : Squad :=
  let hit (p : Pend) : Bool := p.ready && p.ws.any fun a => ws.any (sameReg a)
  let q' := (q.pend.filter hit).foldl (fun q p => applyWs p.ws q) q
  { q' with pend := (q.pend.filter fun p => !hit p).map fun p =>
      if p.ready then p else { p with ws := p.ws.filter fun a => !ws.any (sameReg a) } }

/-- A fixed-latency result: held until earlier results to the same registers have been written, then written. -/
def writeFixed (ws : List RegW) (q : Squad) : Squad := applyWs ws (landFor ws q)

/-- A variable-latency result: it is outstanding until it lands (R27). -/
def writeLater (id : Nat) (ws : List RegW) (walk : Option Nat) (q : Squad) : Squad :=
  let q := landFor ws q
  { q with pend := q.pend ++ [⟨id, true, ws, walk⟩] }

/-- The registers as one issue may read them: each outstanding write is seen or not (R125). -/
def earlyView (ctr : Nat) (q : Squad) : Squad :=
  ((q.pend.filter (·.ready)).flatMap (·.ws)).zipIdx.foldl
    (fun q w => if Config.early ctr w.2 then applyW w.1 q else q) q

/-! ### Integer operands (R24, R25, R79) -/

def tyW : IType → Nat
  | .u32 => 32 | .s32 => 32 | .u64 => 64 | .s64 => 64
def tySigned : IType → Bool
  | .s32 => true | .s64 => true | _ => false

/-- Absolute value first, then negation, wrapping (R25). -/
def modInt (w : Nat) (neg abs : Bool) (x : Nat) : Nat :=
  let y := if abs && decide (x ≥ 2 ^ (w - 1)) then (2 ^ w - x) % 2 ^ w else x
  if neg then (2 ^ w - y) % 2 ^ w else y

/-- The value of an integer operand for a thread, below 2^w. -/
def rdInt (q : Squad) (w : Nat) (o : Opnd) (t : Nat) : Nat :=
  match o with
  | .v n g a => modInt w g a (if w = 64 then rdPair q n t else (rdV q n t).toNat)
  | .s n g a => modInt w g a ((rdS q n).toNat % 2 ^ w)
  | .imm x => cutN w (sextN 20 x)
  | .vi n => (rdVi q n t).toNat
  | .im n => (rdIm q n t).toNat % 2 ^ w
  | _ => 0

/-- A 64-bit scalar: an s-register, or an immediate sign-extended (R24). -/
def rdScal (q : Squad) (o : Opnd) : Nat := rdInt q 64 o 0

/-- A result of `w` bits into the destination operand for thread `t`; a 32-bit result in an s-register is extended by the
type's signedness (R25). -/
def wrInt (w : Nat) (signed : Bool) (d : Opnd) (t x : Nat) : List RegW :=
  match d with
  | .v n .. =>
    if w = 64 then [.v n t (BitVec.ofNat 32 x), .v (n + 1) t (BitVec.ofNat 32 (x / 2 ^ 32))]
    else [.v n t (BitVec.ofNat 32 x)]
  | .s n .. => [.s n (BitVec.ofNat 64 (if w = 32 ∧ signed then cutN 64 (sextN 32 x) else x))]
  | .vi n => [.vi n t (BitVec.ofNat 32 x)]
  | .im n => [.im n t (BitVec.ofNat 64 x)]
  | _ => []

def wrTy (ty : IType) (d : Opnd) (t x : Nat) : List RegW := wrInt (tyW ty) (tySigned ty) d t x

/-! ### Floating-point operands (R24, R25, R104) -/

/-- Sign-bit modifiers on a code of `w` bits. -/
def modF (w : Nat) (neg abs : Bool) (x : Nat) : Nat :=
  let s := 2 ^ (w - 1)
  let y := if abs then x % s else x
  if neg then (if y ≥ s then y - s else y + s) else y

def ftW : FType → Nat
  | .f32 => 32 | _ => 16

/-- The code of a scalar operand. -/
def rdF (q : Squad) (ft : FType) (o : Opnd) (t : Nat) : Nat :=
  let w := ftW ft
  match o with
  | .v n g a => modF w g a ((rdV q n t).toNat % 2 ^ w)
  | .s n g a => modF w g a ((rdS q n).toNat % 2 ^ w)
  | .imm x => if w = 32 then x * 4096 else x % 65536
  | _ => 0

/-- The codes of the lo and hi elements of a packed operand (R104). -/
def rdPacked (q : Squad) (o : Opnd) (t : Nat) : Nat × Nat :=
  match o with
  | .v n g a => (modF 16 g a ((rdV q n t).toNat % 65536), modF 16 g a ((rdV q n t).toNat / 65536))
  | .s n g a => (modF 16 g a ((rdS q n).toNat % 65536), modF 16 g a ((rdS q n).toNat / 65536 % 65536))
  | .imm x => (x % 65536, x % 65536)
  | _ => (0, 0)

/-! ### Active threads and one execution (R26) -/

/-- The destination is an s-register: the instruction executes once. -/
def isUniform (d : Opnd) : Bool := opKind d == .s

/-- The threads an instruction executes for: the active ones, or the lowest alone when it is uniform. -/
def execThreads (d : Opnd) (act : Mask) : List Nat :=
  if isUniform d then (lowest act).toList else threadsOf act

/-- The copies of one result for the active threads: once into an s-register, in each active thread of a v-register. -/
def broadcast (d : Opnd) (act : Mask) (w : Nat) (signed : Bool) (x : Nat) : List RegW :=
  (execThreads d act).flatMap fun t => wrInt w signed d t x

end Sys2Proof.Machine
end

