-- ==== Sys2Proof/Machine/Flags.lean ====
section
/-! DEFINITION. What sets a flag or a predicate: the sticky flags of R35 and R74, the carries of R81, the compares of R93. -/

namespace Sys2Proof.Machine

/-- A flag write, when some flag is raised. -/
def flagW (f : Nat) : List RegW := if f = 0 then [] else [.flg (BitVec.ofNat 5 f)]

/-- The carry of an addition or the borrow of a subtraction of `w`-bit values (R81). -/
def carryOut (w : Nat) (sub : Bool) (a b c : Nat) : Bool :=
  if sub then decide (a < b + c) else decide (2 ^ w ≤ a + b + c)

/-- Sum or difference with carry, wrapped or clamped to the type's range (R81). -/
def addSub (ty : IType) (sub sat : Bool) (a b c : Nat) : Nat :=
  let w := tyW ty
  let v (x : Nat) : Int := if tySigned ty then sextN w x else (x : Int)
  let exact : Int := if sub then v a - v b - c else v a + v b + c
  if sat then
    let lo : Int := if tySigned ty then -(2 ^ (w - 1) : Nat) else 0
    let hi : Int := if tySigned ty then (2 ^ (w - 1) : Nat) - 1 else (2 ^ w : Nat) - 1
    cutN w (max lo (min hi exact))
  else cutN w exact

/-- Signed or unsigned order of two values of a type. -/
def cmpInt (ty : IType) (a b : Nat) : Ordering :=
  if tySigned ty then compare (sextN (tyW ty) a) (sextN (tyW ty) b) else compare a b

/-- The conditions of R31 on integers. -/
def condInt (c : Cond) (o : Ordering) : Bool := condF c (some o)

end Sys2Proof.Machine
end

