-- ==== Sys2Proof/Machine/Mem.lean ====
section
/-! DEFINITION. Memory, scratchpad and peer windows; translation, leases and footprints; buffer records
(R11, R157-R174, R370, R379, R410). -/

namespace Sys2Proof.Machine

/-! ### Bytes and descriptors by place -/

/-- What a byte of memory or scratchpad that nothing has written reads as. -/
def zeroByte : Byte := 0

def scrKey (core a : Nat) : Nat := core * 2 ^ 20 + a
def peerKey (dev a : Nat) : Nat := dev * 2 ^ 40 + a

def rdByte (s : State) : Space → Nat → Byte
  | .mem, a => tget zeroByte s.mem a
  | .scr c, a => tget zeroByte s.scr (scrKey c a)
  | .peer d, a => tget zeroByte s.peer (peerKey d a)

/-- A byte store. A scratchpad word loses its last `.w` test's mark (R358, SURV). -/
def wrByte (s : State) (sp : Space) (a : Nat) (x : Byte) : State :=
  match sp with
  | .mem => { s with mem := tset zeroByte s.mem a x }
  | .scr c => { s with scr := tset zeroByte s.scr (scrKey c a) x, zown := adel s.zown (scrKey c a / 4) }
  | .peer d => { s with peer := tset zeroByte s.peer (peerKey d a) x }

/-- The descriptor of 64-byte block `blk` (R60, R173). -/
def rdTag (s : State) : Space → Nat → W16
  | .mem, b => tget 0 s.tags b
  | .scr c, b => tget 0 s.scrTag (c * 2 ^ 14 + b)
  | .peer d, b => tget 0 s.peerTag (d * 2 ^ 34 + b)

def wrTag (s : State) (sp : Space) (b : Nat) (x : W16) : State :=
  match sp with
  | .mem => { s with tags := tset 0 s.tags b x }
  | .scr c => { s with scrTag := tset 0 s.scrTag (c * 2 ^ 14 + b) x }
  | .peer d => { s with peerTag := tset 0 s.peerTag (d * 2 ^ 34 + b) x }

/-- `len` bytes at byte `off` of a structure held as one number. -/
def fieldAt (n off len : Nat) : Nat := n / 256 ^ off % 256 ^ len

def rdBytes (s : State) (sp : Space) (a : Nat) : Nat → List Byte
  | 0 => []
  | n + 1 => rdByte s sp a :: rdBytes s sp (a + 1) n

def wrBytes (s : State) (sp : Space) : Nat → List Byte → State
  | _, [] => s
  | a, x :: r => wrBytes (wrByte s sp a x) sp (a + 1) r

def rdN (s : State) (sp : Space) (a n : Nat) : Nat := leVal (rdBytes s sp a n)
def wrN (s : State) (sp : Space) (a n x : Nat) : State := wrBytes s sp a (leBytes n x)

/-- An Onaler port, down until the links are trained (R409, R419). -/
def portReset : Port := ⟨false, 8, 0, 0, 0, 0, false⟩
def portOf (s : State) (n : Nat) : Port := (aget s.ports n).getD portReset
/-- No port leads to a device (R410). -/
def unreachable (s : State) (dev : Nat) : Bool := !(portOf s (Config.routeOf dev)).up
/-- The place is on a device that does not answer. -/
def spaceDown (s : State) : Space → Bool
  | .peer d => unreachable s d
  | _ => false

/-- The block a byte lies in carries POISON (R62). -/
def poisoned (s : State) (sp : Space) (a n : Nat) : Bool :=
  (List.range (ceilDiv (a % 64 + n) 64)).any fun i => (rdTag s sp (a / 64 + i)).toNat % 256 == 0xF8

/-! ### Physical addresses (R163, R410) -/

def populated (pa : Nat) : Bool := decide (pa / 2 ^ 37 < 8) && decide (pa % 2 ^ 37 < Config.dieBytes)

/-- The peer window a physical address lies in. -/
def windowOf (pa : Nat) : Option Nat :=
  let k := pa % 2 ^ 37 / 2 ^ 30
  if pa / 2 ^ 37 < 8 ∧ 100 ≤ k ∧ k < 128 then some (28 * (pa / 2 ^ 37) + (k - 100)) else none

/-- Home die of a physical address. -/
def homeDie (pa : Nat) : Nat := pa / 2 ^ 37

/-- A failed access: code and subcode. -/
abbrev Err := Nat × Nat

def eXLATE (sub : Nat) : Err := (0x06, sub)
def eACCESS (sub : Nat) : Err := (0x07, sub)

/-- Where a physical address is performed, for an issuer; a window checks its entry and, at the target, its answer (R410). -/
def placePa (s : State) (pa : Nat) (wr : Bool) : Except Err (Space × Nat) :=
  if populated pa then .ok (.mem, pa)
  else
    match windowOf pa with
    | none => .error (eXLATE 0x04)
    | some i =>
      let w := tget 0 s.windows i
      let acc := w.toNat / 2 ^ 62
      let d := w.toNat / 2 ^ 51 % 2048
      let a := w.toNat / 2 % 1024 * 2 ^ 30 + pa % 2 ^ 30
      if w.getLsbD 0 && (acc == 3 || (acc == 1 && !wr)) && !Config.peerRefuses s.ctr d a wr then .ok (.peer d, a)
      else .error (eACCESS 0x07)

/-! ### Page tables (R164) and cached translations (R166) -/

structure Page where
  pa : Nat
  w : Bool
  xo : Bool
  deriving DecidableEq, Repr

/-- One level: the shift of the page a leaf maps, the bits of the index, and the log2 of the next table's size. -/
def levelShift : Nat → Nat × Nat × Nat
  | 0 => (39, 13, 12) | 1 => (30, 9, 12) | 2 => (21, 9, 8) | _ => (16, 5, 0)

/-- The walk from a table at `tbl`; `n` levels remain. DESIGN CHOICE: R164 says that LEAF must be 1 at level 3 and names no
fault for LEAF 0 there; the model raises XLATE 0x03, which R161 gives to entries that are not well formed. -/
def walkFrom (s : State) (va : Nat) : Nat → Nat → Except Err Page
  | 0, _ => .error (eXLATE 0x03)
  | n + 1, tbl =>
    let lv := 3 - n
    let (sh, ib, nx) := levelShift lv
    let e := rdN s .mem (tbl + 8 * (va / 2 ^ sh % 2 ^ ib)) 8
    let leaf := e / 2 % 2 == 1
    let addr := e % 2 ^ 40 / 256 * 256
    if !populated tbl then .error (eXLATE 0x04)
    else if e % 2 = 0 then .error (eXLATE 0x01)
    else if e / 2 ^ 40 ≠ 0 ∨ e / 16 % 16 ≠ 0 then .error (eXLATE 0x03)
    else if leaf then
      if lv = 0 ∨ addr % 2 ^ sh ≠ 0 then .error (eXLATE 0x03)
      else .ok ⟨addr + va % 2 ^ sh / 65536 * 65536, e / 4 % 2 == 1, e / 8 % 2 == 1⟩
    else if lv = 3 ∨ addr % 2 ^ nx ≠ 0 then .error (eXLATE 0x03)
    else walkFrom s va n addr

def ctxReset : Ctx :=
  ⟨0, 0, 0, 0, 0, 0, 0, 0, 0, 0, 0, 0, false, 0, 0, 0, 0, [], [], [], 0, []⟩
def ctxOf (s : State) (c : Nat) : Ctx := (aget s.ctxs c).getD ctxReset
def modCtx (s : State) (c : Nat) (f : Ctx → Ctx) : State := { s with ctxs := aput s.ctxs c (f (ctxOf s c)) }

/-- The 64 KiB page of a virtual address by table walk. -/
def walkPage (s : State) (ctx va : Nat) : Except Err Page :=
  let r := (ctxOf s ctx).ptroot.toNat
  if r % 2 = 0 then .error (eXLATE 0x01) else walkFrom s va 4 (r % 2 ^ 40 / 65536 * 65536)

def cachedPage (s : State) (ctx va : Nat) : Option Page :=
  (s.tlb.find? fun e => e.ctx == ctx && e.page == va / 65536).map fun e => ⟨e.pa, e.w, e.xo⟩

/-- The page a line access uses: the table's, or a cached translation that the table no longer has (R166, R404). -/
def pageOf (s : State) (ctx va : Nat) : Except Err Page :=
  match cachedPage s ctx va with
  | none => walkPage s ctx va
  | some p =>
    match walkPage s ctx va with
    | .ok q => if p = q then .ok q else if Config.stale s.ctr then .ok p else .ok q
    | .error e => if Config.stale s.ctr then .ok p else .error e

/-- The key of a 256-byte line in a die's cache. -/
def cacheKey (die line : Nat) : Nat := die * 2 ^ 40 + line
/-- A line that the home die's cache lacks comes from HBM and activates its row (R168). -/
def fetchRow (s : State) (active : Tbl Nat) (line : Nat) : Tbl Nat :=
  if tget 0 s.dcache (cacheKey (homeDie (line * 256)) line) = 0 then tset 0 active line (s.time + 1) else active

/-- Lines of the table entries that a walk from a table at `tbl` reads; `n` levels remain. -/
def walkLines (s : State) (va : Nat) : Nat → Nat → List Nat
  | 0, _ => []
  | n + 1, tbl =>
    let (sh, ib, _) := levelShift (3 - n)
    let a := tbl + 8 * (va / 2 ^ sh % 2 ^ ib)
    let e := rdN s .mem a 8
    if !populated tbl then []
    else a / 256 :: if e % 4 = 1 then walkLines s va n (e % 2 ^ 40 / 256 * 256) else []

/-- Keep a translation in the caches: one that they lack takes a table walk (R166). DESIGN CHOICE: a walk reads its entries past
the die caches unless the home die's holds the line, and fills none; the manual does not say. -/
def cachePage (s : State) (ctx va : Nat) : State :=
  match pageOf s ctx va with
  | .ok p =>
    if cachedPage s ctx va = some p then s
    else { s with
      tlb := ⟨ctx, va / 65536, p.pa, p.w, p.xo⟩ :: s.tlb.filter fun e => !(e.ctx == ctx && e.page == va / 65536)
      active := (walkLines s va 4 ((ctxOf s ctx).ptroot.toNat % 2 ^ 40 / 65536 * 65536)).foldl (fetchRow s) s.active }
  | .error _ => s

/-- Translate one line access; a store needs W (R161). -/
def translate (s : State) (ctx va : Nat) (wr : Bool) : Except Err (Space × Nat) :=
  if va ≥ 2 ^ 51 then .error (eXLATE 0x02)
  else
    match pageOf s ctx va with
    | .error e => .error e
    | .ok p =>
      match placePa s (p.pa + va % 65536) wr with
      | .error (0x06, x) => .error (0x06, x)
      | r => if wr && !p.w then .error (eACCESS 0x07) else r

/-! ### Declared ranges and footprints (R171, R362, R370, R379) -/

/-- A range entry (R362). -/
structure RangeEnt where
  base : Nat
  len : Nat
  acc : Nat
  lod : Bool
  deriving DecidableEq, Repr

def rangeOf (tr : TRec) (n : Nat) : RangeEnt :=
  let e := tr.range.toNat / 2 ^ (128 * n)
  ⟨e % 2 ^ 52, e / 2 ^ 64 % 2 ^ 40, e / 2 ^ 104 % 4, e / 2 ^ 106 % 2 == 1⟩

def ranges (tr : TRec) : List RangeEnt := (List.range tr.nrange).map (rangeOf tr)

/-- The access lies wholly within one declared range, with ACC 11 for a write (R370). -/
def leaseOk (tr : TRec) (va n : Nat) (wr : Bool) : Bool :=
  (ranges tr).any fun r => decide (r.base ≤ va) && decide (va + n ≤ r.base + r.len) && (!wr || r.acc == 3)

def eLEASE (wr : Bool) : Err := (0x05, if wr then 2 else 1)

/-- The task whose footprint on a core holds the bytes, among the context's tasks. -/
def footprintOk (s : State) (ctx core a n : Nat) : Bool :=
  decide (a + n ≤ Config.scratchBytes) &&
  s.tasks.any fun e => e.2.ctx == ctx && e.2.core == core && !e.2.saved && decide (e.2.base ≤ a) &&
    decide (a + n ≤ e.2.base + e.2.tr.scratch)

/-- Where a remote scratchpad request is performed: where a forwarding entry of the core it names sends it (R379), else at that
core. -/
def scrPlace (s : State) (ctx core a n : Nat) : Except Err Nat :=
  let f := s.forwards.find? fun f => f.core == core && decide (f.lo ≤ a) && decide (a + n ≤ f.hi) && decide (s.time < f.expiry)
  let c := (f.map (·.dest)).getD core
  if footprintOk s ctx c a n then .ok c else .error (eACCESS 0x08)

/-! ### Buffer records (R157) -/

def recField (r : Rec) (hi lo : Nat) : Nat := bits r.toNat hi lo
def recKind (r : Rec) : Nat := recField r 255 252
def recSpace (r : Rec) : Nat := recField r 251 251
def recBmode (r : Rec) : Bool := recField r 250 250 == 1
def recWr (r : Rec) : Bool := recField r 249 249 == 1
def recSwz (r : Rec) : Nat := recField r 248 246
def recTarget (r : Rec) : Nat := recField r 245 239
def recEsize (r : Rec) : Nat := recField r 238 235
def recXv (r : Rec) : Nat := recField r 223 208
def recStride (r : Rec) : Nat := recField r 207 176
def recExt1 (r : Rec) : Nat := recField r 175 144
def recExt0 (r : Rec) : Nat := recField r 143 112
def recBase (r : Rec) : Nat := recField r 51 0
def recLclamp (r : Rec) : Nat := recField r 223 220
/-- Element bytes. -/
def recE (r : Rec) : Nat := 2 ^ recEsize r
def rec2d (r : Rec) : Bool := recStride r != 0

/-- Replace bits hi..lo. -/
def recSet (r : Rec) (hi lo x : Nat) : Rec :=
  let w := hi - lo + 1
  BitVec.ofNat 256 (r.toNat - bits r.toNat hi lo * 2 ^ lo + x % 2 ^ w * 2 ^ lo)

/-- A reserved value in a field other than KIND and SPACE, a TARGET without scratchpad, or a LOD record whose BASE is no
multiple of 128 (R160, R197). DESIGN CHOICE: R197 says that a LOD record's EXT0 is at least 128 and names no fault for a smaller
one; the model checks nothing there. -/
def recReserved (r : Rec) : Bool :=
  if recKind r = 1 then
    recSwz r != 0 || recTarget r != 0 || recEsize r != 0 || recSpace r != 0 || recField r 234 224 != 0 ||
      recField r 219 144 != 0 || recField r 111 52 != 0 || recBase r % 128 != 0
  else
    decide (recSwz r > 4) || decide (recEsize r > 4) || recField r 234 224 != 0 || recField r 111 52 != 0 ||
      (recTarget r != 0 && recSpace r == 0)

/-- The alias geometry of R189, on the plain address below the aperture. -/
def aliasOk (r : Rec) : Bool :=
  let plain := recBase r - 2 ^ 51
  (recEsize r == 1 || recEsize r == 2) && rec2d r && decide (2 ^ 51 ≤ recBase r) && plain % 256 == 0 &&
    recStride r % 256 == 0 && recExt0 r % 64 == 0 && recExt1 r % 64 == 0 &&
    decide (plain + (recExt1 r - 1) * recStride r + recExt0 r * recE r < 2 ^ 51)

/-- An invalid swizzle, of any kind of record, or an alias geometry (R158, R160). -/
def recGeomBad (r : Rec) : Bool :=
  (recKind r == 2 && !aliasOk r) || (recKind r != 1 && recSwz r != 0 && recExt0 r * recE r % 2 ^ (recSwz r + 4) != 0)

/-- The record checks of R160 for accepted kinds and spaces. -/
def recCheck (r : Rec) (kinds spaces : List Nat) : Option Err :=
  if !kinds.contains (recKind r) || !spaces.contains (recSpace r) then some (eACCESS 0x02)
  else if recReserved r then some (eACCESS 0x04)
  else if recGeomBad r then some (eACCESS 0x05)
  else none

/-- Address and bound of an access of `size` bytes at index `b` (R158). DESIGN CHOICE: of a SPACE 1 record the whole BASE counts, so
that bits 51-20, of which R157 says nothing, take the address out of every scratchpad when they are not zero. -/
def recAddr (r : Rec) (size b : Nat) : Nat × Bool :=
  let x := if rec2d r then b % 65536 else b % 2 ^ 32
  let y := if rec2d r then b / 65536 % 65536 else 0
  let e := recE r
  if recKind r = 2 then
    (recBase r + (x * recStride r + y * e), decide (x < recExt1 r) && decide (y < recExt0 r))
  else
    let n := max 1 (size / e)
    let col := x * e
    let col := if rec2d r && decide (recSwz r > 0) then col ^^^ (y % 2 ^ recSwz r * 16) else col
    (recBase r + (y * recStride r + col), decide (x + n ≤ recExt0 r) && (!rec2d r || decide (y < recExt1 r)))

/-- Bytes a record reaches, row by row (R249). -/
def regionSize (r : Rec) : Nat := if rec2d r then recExt1 r * (recExt0 r * recE r) else recExt0 r * recE r
/-- The address of region byte `i`. -/
def regionAddr (r : Rec) (i : Nat) : Nat :=
  if rec2d r then
    let row := recExt0 r * recE r
    recBase r + i / row * recStride r + i % row
  else recBase r + i

/-- The scratchpad record of a range of bytes on a core (R188). -/
def scrRec (core base bytes : Nat) : Rec :=
  recSet (recSet (recSet (recSet (recSet 0 251 251 1) 249 249 1) 245 239 core) 143 112 bytes) 51 0 base

end Sys2Proof.Machine
end

