-- ==== Sys2Proof/Machine/Ops.lean ====
section
/-! DEFINITION. The operations every instruction shares: squads and tasks of the state, energy, faults and trap entry, the
return from a handler, and the issue of one instruction. -/

namespace Sys2Proof.Machine

abbrev Out := Host.Outcome State Fault Refusal

/-! ### Parts of the state by name -/

def squadOf (s : State) (id : Nat) : Option Squad := aget s.squads id
def modSquad (s : State) (id : Nat) (f : Squad → Squad) : State := { s with squads := amod s.squads id f }
def taskOf (s : State) (t : Nat) : Option Task := aget s.tasks t
def modTask (s : State) (t : Nat) (f : Task → Task) : State := { s with tasks := amod s.tasks t f }
def nodeOf (s : State) (n : Nat) : Option Node := aget s.nodes n
def modNode (s : State) (n : Nat) (f : Node → Node) : State := { s with nodes := amod s.nodes n f }

/-- The task record of a squad's task; zero counts when the task is gone. -/
def trReset : TRec := ⟨0, 0, 0, 0, 0, 0, 0, 0, 0, 0, 0, 0, 0, 0, 0, 0, 0, 0, 0, 0, 0, 0, 0, 0, 0⟩
def trOf (s : State) (q : Squad) : TRec := ((taskOf s q.task).map (·.tr)).getD trReset
def ctxId (s : State) (q : Squad) : Nat := ((taskOf s q.task).map (·.ctx)).getD 0
def dieOf (q : Squad) : Nat := q.core / 128
/-- The core of the issuing die that a record's TARGET names (R157). -/
def targetCore (q : Squad) (r : Rec) : Nat := dieOf q * 128 + recTarget r

def limOf (s : State) (q : Squad) : Lim :=
  let tr := trOf s q
  ⟨8 * tr.regs, tr.slots, tr.acc⟩

/-- A fresh id, and a fresh index for free values. -/
def fresh (s : State) : Nat × State := (s.nextId, { s with nextId := s.nextId + 1 })
def tickCtr (s : State) : State := { s with ctr := s.ctr + 1 }

/-! ### The ordering record and the die caches (R10, R172, R175) -/

/-- Thread `t` of the issuing squad, as it performs an access. -/
def whoSquad (s : State) (id : Nat) (q : Squad) (t : Nat) : Who :=
  ⟨.thread id t, none, (taskOf s q.task).map (·.node), some s.dev, some (dieOf q), some q.core, some q.lane⟩
/-- An engine of a die, for a command of a task or of a node without one; only the matrix engine lies in a core. -/
def whoCmd (s : State) (a : Agent) (cmd task : Nat) (node : Option Nat) (die : Nat) (core : Option Nat) : Who :=
  ⟨a, some cmd, node.orElse fun _ => (taskOf s task).map (·.node), some s.dev, some die, core, none⟩
/-- The device outside its compute dies, the scan-out of a channel, the writer of a ring, a host link, a peer device, and a graph node as a whole. -/
def whoDev (s : State) : Who := ⟨.device, none, none, some s.dev, none, none, none⟩
def whoScan (s : State) (ch : Nat) : Who := { whoDev s with agent := .scan ch }
def whoRing (s : State) (ctx : Nat) (events : Bool) : Who := { whoDev s with agent := .ring ctx events }
def whoLink (n : Nat) : Who := ⟨.link n, none, none, none, none, none, none⟩
def whoPeer (d : Nat) : Who := ⟨.peer d, none, none, some d, none, none, none⟩
def whoNode (s : State) (n : Nat) : Who := ⟨.node n, none, some n, some s.dev, none, none, none⟩

/-- A read and a write of a place, without order of their own. -/
def accRd (w : Who) (p : APath) (l : HLoc) : Acc := ⟨w, p, true, false, l, none, none, [], []⟩
def accWr (w : Who) (p : APath) (l : HLoc) : Acc := ⟨w, p, false, true, l, none, none, [], []⟩
/-- A store of `n` bytes, with what it replaces in `s`. -/
def accPut (s : State) (w : Who) (p : APath) (sp : Space) (a n : Nat) : Acc :=
  { accWr w p (.bytes sp a n) with old := rdBytes s sp a n }

/-- The line of a key is a guest in that die's cache. -/
def cacheGuest (k : Nat) : Bool := homeDie (k % 2 ^ 40 * 256) != k / 2 ^ 40
def widerThanDie : Scope → Bool
  | .pkg | .pod | .sys => true
  | _ => false

/-- The lines of memory that an access touches. -/
def accLines (a : Acc) : List Nat :=
  match a.loc with
  | .bytes .mem lo n => if n = 0 then [] else (List.range ((lo + n - 1) / 256 - lo / 256 + 1)).map (lo / 256 + ·)
  | _ => []
/-- The die whose cache an access brings a line into: walks and links go to the line's home (R172, R200), all other paths to the
die of the agent. -/
def fillDie (a : Acc) (line : Nat) : Option Nat :=
  match a.path with
  | .L | .H => some (homeDie (line * 256))
  | _ => a.who.die

/-- A line comes in, or becomes dirty; a full cache loses a line (R11). -/
def cacheFill (seed die : Nat) (wr : Bool) (m : Tbl Nat) (line : Nat) : Tbl Nat :=
  let k := cacheKey die line
  let mine := m.filter fun e => e.1 / 2 ^ 40 == die
  let m' := if tget 0 m k = 0 ∧ Config.cacheLines ≤ mine.length then
      match mine[Config.victim seed line % mine.length]? with
      | some e => tset 0 m e.1 0
      | none => m
    else m
  tset 0 m' k (if wr then 2 else max 1 (tget 0 m k))
/-- A release at `pkg` or wider cleans the guest copies of a die, an acquire there drops the clean ones (R172). -/
def cacheRelease (die : Nat) (m : Tbl Nat) : Tbl Nat :=
  m.map fun e => if e.1 / 2 ^ 40 = die ∧ cacheGuest e.1 = true then (e.1, 1) else e
def cacheAcquire (die : Nat) (m : Tbl Nat) : Tbl Nat :=
  m.filter fun e => !(e.1 / 2 ^ 40 == die && cacheGuest e.1 && e.2 == 1)

/-- A guest copy is written back to its home, or dropped (R193). -/
def cacheClean (die line : Nat) (m : Tbl Nat) : Tbl Nat :=
  let k := cacheKey die line
  if cacheGuest k && tget 0 m k == 2 then tset 0 m k 1 else m
def cacheDrop (die line : Nat) (m : Tbl Nat) : Tbl Nat :=
  let k := cacheKey die line
  if cacheGuest k then tset 0 m k 0 else m

/-- The parts of an entry that release and acquire at a scope. -/
def relScope : HEv → Option Scope
  | .access a => a.rel
  | .fence _ o sc => if o = .acq then none else some sc
  | .fencex _ sc .. | .release _ _ sc _ => some sc
  | _ => none
def acqScope : HEv → Option Scope
  | .access a => a.acq
  | .fence _ o sc => if o = .rel then none else some sc
  | .fencex _ sc .. | .acquire _ _ sc _ => some sc
  | _ => none
def whoOf : HEv → Option Who
  | .access a => some a.who
  | .fence w .. | .fencex w .. | .command w _ | .release w .. | .acquire w .. => some w
  | .flip .. | .wipe _ => none

/-- What an entry does to the die caches. -/
def cacheEv (seed : Nat) (m : Tbl Nat) (e : HEv) : Tbl Nat :=
  let m := match e with
    | .access a => (accLines a).foldl (fun m l => match fillDie a l with
        | some d => cacheFill seed d a.wr m l
        | none => m) m
    | _ => m
  match (whoOf e).bind (·.die) with
  | none => m
  | some d =>
    let m := if (relScope e).any widerThanDie then cacheRelease d m else m
    if (acqScope e).any widerThanDie then cacheAcquire d m else m

/-- Append entries to the record; the die caches follow, and a line from HBM activates its row (R168). -/
def logEv (s : State) (e : HEv) : State :=
  { s with
    hist := s.hist ++ [e]
    dcache := cacheEv s.ctr s.dcache e
    active := match e with
      | .access a => (accLines a).foldl (fetchRow s) s.active
      | _ => s.active }
def logEvs (s : State) (es : List HEv) : State := es.foldl logEv s

/-- Bytes of a context's virtual memory that the device itself reads and writes (records, rings): none when a page is
missing. -/
def devRead (s : State) (ctx va : Nat) : Nat → Option (List Byte)
  | 0 => some []
  | n + 1 =>
    match translate s ctx va false with
    | .ok (sp, pa) => (devRead s ctx (va + 1) n).map (rdByte s sp pa :: ·)
    | .error _ => none
def devReadN (s : State) (ctx va n : Nat) : Option Nat := (devRead s ctx va n).map leVal

/-- A device write of bytes; a byte whose page is missing is dropped. -/
def devWrite (s : State) (ctx : Nat) : Nat → List Byte → State
  | _, [] => s
  | va, b :: r =>
    let s := match translate s ctx va false with
      | .ok (sp, pa) => wrByte s sp pa b
      | .error _ => s
    devWrite s ctx (va + 1) r
def devWriteN (s : State) (ctx va n x : Nat) : State := devWrite s ctx va (leBytes n x)

/-- Append an event for the host (R403); it reaches the ring by EVENT_APPEND. -/
def pushEvent (s : State) (ctx type code sub trec addr : Nat) : Nat × State :=
  let c := ctxOf s ctx
  (c.nextToken, modCtx s ctx fun c =>
    { c with events := c.events ++ [⟨c.nextToken, type, code, sub, trec, addr, s.time⟩], nextToken := c.nextToken + 1 })

/-! ### Paths (R126) -/

/-- The path that issues: the one the debugger selected, the trapped one in a handler, else the first ready one. -/
def runningPath (q : Squad) : Option Path :=
  match q.select with
  | some e => q.paths.find? fun p => p.entry == e
  | none =>
    match q.trap with
    | some t => q.paths.find? fun p => p.entry == t.entry
    | none => q.paths.head?

def modPath (entry : Nat) (f : Path → Path) (q : Squad) : Squad :=
  { q with paths := q.paths.map fun p => if p.entry = entry then f p else p }

def nextPc (p : Pc) : Pc := { p with index := p.index + 1 }
def advance (entry : Nat) (q : Squad) : Squad := modPath entry (fun p => { p with pc := nextPc p.pc }) q

/-! ### Energy (R300-R305, R391) -/

/-- Units of an energy class (R300). -/
def classUnits (c : Nat) : Nat := if c = 0 then 0 else 2 ^ (c - 1)

def budgetReset : Budget := ⟨0, 0, 0, 0, 0, [], []⟩
def budKey (die ctx : Nat) : Nat := die * 64 + ctx
def budgetOf (s : State) (die ctx : Nat) : Budget := (aget s.budgets (budKey die ctx)).getD budgetReset
def setBudget (s : State) (die ctx : Nat) (b : Budget) : State := { s with budgets := aput s.budgets (budKey die ctx) b }

/-- PRIO 7 in a context granted deadline work (R302). -/
def deadlineRec (s : State) (tr : TRec) (ctx : Nat) : Bool := tr.ctrl % 8 == 7 && (ctxOf s ctx).cflags.getLsbD 2
def deadline (s : State) (q : Squad) : Bool := deadlineRec s (trOf s q) (ctxId s q)

/-- What a squad may spend (R302). -/
def spendable (b : Budget) (prio : Bool) : Nat := if prio then b.res + b.bud else b.bud
/-- Take units, from RES first at deadline priority. -/
def takeUnits (b : Budget) (prio : Bool) (u : Nat) : Budget :=
  if prio then { b with res := b.res - u, bud := b.bud - (u - b.res) } else { b with bud := b.bud - u }

/-- The squad stands under its own EBUD cap (R391). -/
def underCap (q : Squad) : Bool := q.ebudCap == 0 || decide (q.ebudDeb < q.ebudCap)

/-- What the issue of an instruction of a cost finds: paid, to wait on a list, or stopped by the cap. -/
inductive Pay where
  | paid (s : State)
  | list
  | cap
  deriving DecidableEq, Repr

/-- A grant gives its units back (R39). -/
def ungrant (s : State) (id : Nat) (q : Squad) : State :=
  if q.granted then
    let b := budgetOf s (dieOf q) (ctxId s q)
    modSquad (setBudget s (dieOf q) (ctxId s q)
        { b with res := min b.rcap (b.res + q.taken.1), bud := min b.cap (b.bud + q.taken.2) }) id fun q =>
      let u := q.taken.1 + q.taken.2
      { q with
        granted := false, taken := (0, 0), ebudDeb := q.ebudDeb - u
        perf := tset 0 q.perf 7 (tget 0 q.perf 7 - BitVec.ofNat 64 u) }
  else s

def countDebit (u : Nat) (q : Squad) : Squad :=
  { q with ebudDeb := q.ebudDeb + u, perf := tset 0 q.perf 7 (tget 0 q.perf 7 + BitVec.ofNat 64 u) }

/-- The debit at issue (R301, R305): cost 0 always issues, a grant has been taken, a direct debit needs an empty list. -/
def pay (s : State) (id : Nat) (q : Squad) (cost : Nat) : Pay :=
  if cost = 0 then .paid s
  else if q.granted then .paid (modSquad s id fun q => { q with granted := false, taken := (0, 0) })
  else if !underCap q then .cap
  else
    let b := budgetOf s (dieOf q) (ctxId s q)
    let prio := deadline s q
    if (if prio then b.prio else b.gen).isEmpty && decide (cost ≤ spendable b prio) then
      .paid (modSquad (setBudget s (dieOf q) (ctxId s q) (takeUnits b prio cost)) id (countDebit cost))
    else .list

/-- Join the waiting list of the context on the die (R305). `debits`: the grant takes the cost (an instruction), or not
(EBUD.WAIT). -/
def joinList (s : State) (id : Nat) (q : Squad) (cost : Nat) (debits : Bool) : State :=
  let b := budgetOf s (dieOf q) (ctxId s q)
  if (b.prio ++ b.gen).any (fun e => e.1 == id) then s
  else setBudget s (dieOf q) (ctxId s q)
    (if deadline s q then { b with prio := b.prio ++ [(id, cost, debits)] } else { b with gen := b.gen ++ [(id, cost, debits)] })

def leaveLists (s : State) (id : Nat) (q : Squad) : State :=
  let b := budgetOf s (dieOf q) (ctxId s q)
  if (b.prio ++ b.gen).any (fun e => e.1 == id) then
    setBudget s (dieOf q) (ctxId s q)
      { b with prio := b.prio.filter fun e => e.1 != id, gen := b.gen.filter fun e => e.1 != id }
  else s

/-! ### Faults (R380-R383, R448) -/

def pcCode (p : Pc) : Nat := p.index + (if p.bank then 8192 else 0)

/-- The threads that R448 takes a fault's thread from, when no per-thread check raised it. -/
def faultSet (act : Mask) (p : Path) : Mask := if act ≠ 0 then act else if p.exm ≠ 0 then p.exm else p.members

def mkFault (code sub : Nat) (act : Mask) (p : Path) : FaultInfo :=
  let m := faultSet act p
  ⟨code, sub, lowestD m, m, 0, false, false, none⟩
def mkFaultAt (e : Err) (mask : Mask) (addr : Nat) : FaultInfo := ⟨e.1, e.2, lowestD mask, mask, addr, false, false, none⟩

/-- Bank B of the squad's core holds an overlay with FLAGS bit 1, for a task without one of its own (R44, R382). -/
def trapHeld (s : State) (q : Squad) : Bool :=
  let k := q.core * 2 + 1
  (match aget s.banks k with | some b => b.valid && b.holders.contains q.task | none => false) &&
    (trOf s q).ovlb == 0 && (tget 0xFF#8 s.imem (k * 65536 + 6)).getLsbD 1

def faultRec (s : State) (q : Squad) (f : FaultInfo) (pc : Pc) (relaunch : Bool) : FaultRec :=
  ⟨f.code, f.sub, q.core, q.idx, f.thread, pcCode pc, f.addr, s.time, relaunch⟩

/-- Ask for a task's kill; a task already stopping keeps its first reason (R298). -/
def requestKill (s : State) (task : Nat) (r : FaultRec) : State :=
  modTask s task fun t =>
    match t.stopping with
    | .kill _ | .scrub _ => t
    | _ => { t with stopping := .kill r }

/-- TAKING A TRAP (R382): the CSRs are written, the faulting path continues at bank B, index 0, in handler state, its masks
and return stack unchanged. -/
def trapEntry (f : FaultInfo) (p : Path) (q : Squad) : Squad :=
  let pc := if f.advance then nextPc p.pc else p.pc
  let q := modPath p.entry (fun p => { p with pc := ⟨true, 0⟩ }) q
  { q with
    fault := none
    wait := none
    trap := some ⟨BitVec.ofNat 32 (f.code + 256 * f.sub + 65536 * f.thread), pc, BitVec.ofNat 64 f.addr, f.mask, p.entry⟩ }

/-- LEAVING A HANDLER (R394): the path continues at TRPC in its bank and the other paths resume issue. -/
def trapReturn (t : TrapState) (q : Squad) : Squad :=
  { modPath t.entry (fun p => { p with pc := t.pc }) q with trap := none }

/-- A squad leaves every waiting list. -/
def unlist (s : State) (id : Nat) (q : Squad) : State :=
  let s := leaveLists s id q
  { s with qWaits := s.qWaits.map fun e => (e.1, (e.2.1.filter (· ≠ id), e.2.2.filter (· ≠ id))) }

/-- The path a fault belongs to: the one that issued the instruction, at that instruction; else the running one. -/
def faultPath (q : Squad) (f : FaultInfo) : Option Path :=
  match f.late with
  | none => runningPath q
  | some (e, pc) => ((q.paths.find? fun p => p.entry == e).orElse fun _ => runningPath q).map fun p => { p with pc := pc }

/-- Delivery of an instruction fault of a settled squad, by the first rule of R381 that applies. A parked one waits for the
host first (R383). -/
def takeFault (s : State) (id : Nat) (q : Squad) (p : Path) (f : FaultInfo) : State :=
  let s := unlist s id q
  if f.park then
    let ctx := ctxId s q
    let va := ((taskOf s q.task).bind fun t => nodeOf s t.node).map (·.va) |>.getD 0
    let (tok, s) := pushEvent s ctx 1 f.code f.sub va f.addr
    let s := modCtx s ctx fun c => { c with awaiting := c.awaiting ++ [⟨tok, .squad id, f.code, f.sub, f.addr, s.time⟩] }
    modSquad s id fun q => { q with fault := some { f with park := false }, wait := some (.parked tok s.time) }
  else if s.debugger && f.code == 0x11 then
    modSquad s id fun q => { advance p.entry q with fault := none, wait := some .debugger }
  else if q.trap.isNone && f.code != 0x05 && trapHeld s q then
    modSquad s id (trapEntry f p)
  else if f.code == 0x11 then
    modSquad s id fun q => { advance p.entry q with fault := none, wait := none }
  else
    requestKill (modSquad s id fun q => { q with fault := none }) q.task (faultRec s q f p.pc (f.code != 0x05))

/-- Raise a fault: at once when the squad is settled, otherwise when its outstanding results have been written (R39). A squad
that has a fault already keeps that one. -/
def raiseFault (s : State) (id : Nat) (f : FaultInfo) : State :=
  match squadOf s id with
  | none => s
  | some q =>
    if q.fault.isSome then s
    else if q.pend.isEmpty then
      match faultPath q f with
      | some p => takeFault s id q p f
      | none => s
    else modSquad s id fun q => { q with fault := some f }

/-! ### The issue of one instruction (R26-R28, R125, R301) -/

/-- What a meaning sees: the squad, its registers as this issue reads them, the active threads, the issuing path, and the
wait that it resumes. -/
structure Iss where
  id : Nat
  q : Squad
  act : Mask
  path : Path
  wait : Option Wait
  deriving DecidableEq, Repr

/-- What a meaning answers. -/
inductive Res where
  /-- done; the path continues at the next index -/
  | ok (s : State)
  /-- done; the meaning has set the paths itself -/
  | jump (s : State)
  /-- not done: the squad waits and issues the instruction again -/
  | wait (s : State) (w : Wait)
  /-- done, and the squad is held until the wait ends -/
  | hold (s : State) (w : Wait)
  | fault (s : State) (f : FaultInfo)
  deriving DecidableEq, Repr

/-- The guard of R26, from the registers as read. -/
def guardMask (h : Hdr) (q : Squad) : Mask := maskOf fun t => rdP q h.gp t != h.gn

/-- The squad retries an instruction that it has already paid for. -/
def retrying (w : Option Wait) : Bool :=
  match w with
  | none | some (.budget _) | some .capped | some (.accept _) | some .debugger => false
  | _ => true

/-- How an instruction occupies its lane: cycles for each active thread's pass, or cycles in all (R77, R106, R124). -/
inductive Occ where
  | per (n : Nat)
  | once (n : Nat)
  deriving DecidableEq, Repr

/-- Cycles of the lane; one with no active thread. -/
def occCycles (o : Occ) (act : Mask) : Nat :=
  match o with
  | .per n => max 1 (n * countM act)
  | .once n => if act = 0 then 1 else n

/-- Counters 0 and 1: instructions issued and lane cycles (R392). -/
def countIssue (o : Occ) (act : Mask) (q : Squad) : Squad :=
  let c := BitVec.ofNat 64 (occCycles o act)
  { q with perf := tset 0 (tset 0 q.perf 0 (tget 0 q.perf 0 + 1)) 1 (tget 0 q.perf 1 + c) }

def finish (h : Hdr) (x : Iss) : Res → State
  | .ok s => modSquad s x.id fun q =>
      { advance x.path.entry q with wait := none, settling := q.settling || h.s, select := none }
  | .jump s => modSquad s x.id fun q => { q with wait := none, settling := q.settling || h.s, select := none }
  | .wait s w => modSquad s x.id fun q => { q with wait := some w }
  | .hold s w => modSquad s x.id fun q =>
      { advance x.path.entry q with wait := some w, settling := q.settling || h.s, select := none }
  | .fault s f => raiseFault (modSquad s x.id fun q => { q with wait := none, select := none }) x.id
      { f with late := some (x.path.entry, x.path.pc) }

/-- An ILL that a meaning finds (the register rule of ATOM, R218) leaves the energy as before the issue (R39), a grant given
back. -/
def unpaidIll (before : State) : Res → Res
  | .fault s f => .fault (if f.code = 1 then before else s) f
  | r => r

/-- Issue the current squad's instruction with header `h`, minimum class `cls` and lane occupation `occ`: debit (R28,
R301), then the meaning `body`. -/
def issue (h : Hdr) (cls : Nat) (occ : Occ) (s : State) (body : Iss → State → Res) : Out :=
  match s.cur.bind (squadOf s) with
  | none => .fault .noSquad
  | some q =>
    let id := s.cur.getD 0
    match runningPath q with
    | none => .fault .noSquad
    | some p =>
      let view := earlyView s.ctr q
      let act := p.exm &&& guardMask h view
      let x : Iss := ⟨id, view, act, p, q.wait⟩
      let go (s' : State) : Out := .next (finish h x (unpaidIll (ungrant s id q) (body x (tickCtr s'))))
      if retrying q.wait then go s
      else
        let cost := classUnits (max h.ec cls)
        match pay s id q cost with
        | .paid s => go (modSquad s id (countIssue occ act))
        | .list => .next (modSquad (joinList s id q cost true) id fun q => { q with wait := some (.budget cost) })
        | .cap => .next (modSquad s id fun q => { q with wait := some .capped })

/-- A fixed-latency result of the issuing squad. -/
def putFixed (s : State) (x : Iss) (ws : List RegW) : State := modSquad s x.id (writeFixed ws)
/-- A variable-latency result of the issuing squad (R27); nothing outstanding when nothing is written. -/
def putLater (s : State) (x : Iss) (ws : List RegW) (walk : Option Nat := none) : State :=
  if ws.isEmpty then s
  else modSquad { s with nextId := s.nextId + 1 } x.id (writeLater s.nextId ws walk)

/-- An instruction fault that no per-thread check raises. -/
def failI (s : State) (x : Iss) (code sub : Nat) : Res := .fault s (mkFault code sub x.act x.path)
def failE (s : State) (x : Iss) (e : Err) : Res := failI s x e.1 e.2

/-- The lane occupation of an arithmetic instruction: a uniform one takes the place of one pass (R77). -/
def occOf (d : Opnd) (n : Nat) : Occ := if isUniform d then .once n else .per n

/-- An arithmetic instruction of fixed latency: the writes of each executing thread (R26). -/
def alu (h : Hdr) (cls n : Nat) (d : Opnd) (f : Squad → Nat → List RegW) (s : State) : Out :=
  issue h cls (occOf d n) s fun x s => .ok (putFixed s x ((execThreads d x.act).flatMap (f x.q)))

/-- The same with a variable-latency result. -/
def aluLater (h : Hdr) (cls n : Nat) (d : Opnd) (f : Squad → Nat → List RegW) (s : State) : Out :=
  issue h cls (occOf d n) s fun x s => .ok (putLater s x ((execThreads d x.act).flatMap (f x.q)))

end Sys2Proof.Machine
end

