-- ==== Sys2Proof/Machine/Paths.lean ====
section
/-! DEFINITION. The path table, the join records and the end of a squad (R126-R137). -/

namespace Sys2Proof.Machine

/-- Place a path behind the last one whose priority is at least its own (R129). -/
def insertBehind (p : Path) : List Path → List Path
  | [] => [p]
  | a :: r => if (a :: r).any (fun b => decide (p.ppri ≤ b.ppri)) then a :: insertBehind p r else p :: a :: r

/-- Order by priority, keeping the order among equals (R129). -/
def sortPaths (ps : List Path) : List Path := ps.foldl (fun acc p => insertBehind p acc) []

/-- The lowest number below `n` that is free. -/
def firstFree (n : Nat) (used : List Nat) : Option Nat := (List.range n).find? fun i => !used.contains i

def freeJoin (q : Squad) : Option Nat := firstFree 16 (q.joins.map (·.1))

/-- Replace a path by others in its place of the ready list, which stays sorted. -/
def placePaths (entry : Nat) (by' : List Path) (q : Squad) : Squad :=
  { q with paths := sortPaths (q.paths.flatMap fun p => if p.entry = entry then by' else [p]) }

/-- STACK faults (R138). -/
def eSTACK (sub : Nat) : Nat × Nat := (0x12, sub)

/-- The parent continues after its join (R131). -/
def mergedPath (entry : Nat) (r : JoinRec) : Path :=
  ⟨entry, nextPc r.join, r.arrived, r.arrived, r.spri, r.outer, r.lastRet⟩

def deferredPath (entry rid : Nat) (d : Deferred) : Path := ⟨entry, d.pc, d.members, d.exm, d.ppri, some rid, d.ret⟩

/-- Park path `p` at its innermost record `rid`, reinstate a deferred path, merge when all have arrived (R131, R135). -/
def parkAt (p : Path) (rid : Nat) (r : JoinRec) (q : Squad) : Squad :=
  let r := { r with arrived := r.arrived ||| p.members, lastRet := p.ret }
  match r.deferred with
  | some d =>
    placePaths p.entry [deferredPath p.entry rid d] { q with joins := aput q.joins rid { r with deferred := none } }
  | none =>
    if r.arrived = r.expected then placePaths p.entry [mergedPath p.entry r] { q with joins := adel q.joins rid }
    else placePaths p.entry [] { q with joins := aput q.joins rid r }

/-- The record that an implied park of `p` would use, when its depth check fails (R133). -/
def parkFault (q : Squad) (p : Path) : Bool :=
  match p.jrec.bind (aget q.joins) with
  | some r => decide (p.ret.length ≠ r.rdepth)
  | none => false

/-- Every record that has all its members merges into the place of entry `entry`; an empty one is freed (R134). -/
def settleJoins (entry : Nat) (q : Squad) : Squad :=
  q.joins.foldl (fun q e =>
    let r := e.2
    if r.expected = 0 then { q with joins := adel q.joins e.1 }
    else if r.arrived = r.expected && r.deferred.isNone then
      { q with joins := adel q.joins e.1, paths := sortPaths (q.paths ++ [mergedPath entry r]) }
    else q) q

/-- Threads leave every record (R134). -/
def leaveJoins (t : Mask) (q : Squad) : Squad :=
  { q with joins := q.joins.map fun e => (e.1, { e.2 with
      expected := e.2.expected &&& ~~~t, arrived := e.2.arrived &&& ~~~t,
      deferred := e.2.deferred.map fun d => { d with exm := d.exm &&& ~~~t, members := d.members &&& ~~~t } }) }

/-- Outstanding results of exited threads are discarded (R134). -/
def writeThread : RegW → Option Nat
  | .v _ t _ | .p _ t _ | .vi _ t _ | .im _ t _ => some t
  | _ => none
def dropResults (m : Mask) (q : Squad) : Squad :=
  { q with pend := q.pend.map fun p => { p with ws := p.ws.filter fun w => !(writeThread w).any (bitM m) } }

/-- A record whose deferred path has no sibling left that could park there: deferral changes only timing (R135). -/
def orphan (q : Squad) : Option (Nat × JoinRec × Deferred) :=
  q.joins.findSome? fun e => match e.2.deferred with
    | some d =>
      if q.paths.any (fun p => p.jrec == some e.1) || q.joins.any (fun o => o.2.outer == some e.1) then none
      else some (e.1, e.2, d)
    | none => none

/-- A freed entry goes to the paths that merged, else to such a deferred one. -/
def takeEntry (entry : Nat) (merged : List Path) (q : Squad) (o : Option (Nat × JoinRec × Deferred)) : Squad :=
  match merged, o with
  | [], some (rid, r, d) =>
    placePaths entry [deferredPath entry rid d] { q with joins := aput q.joins rid { r with deferred := none } }
  | _, _ => placePaths entry merged q

/-- Threads `t` of path `p` exit (R133, R134). `p` is the path as in the table. -/
def exitThreads (p : Path) (t : Mask) (q : Squad) : Squad :=
  let p' := { p with members := p.members &&& ~~~t, exm := p.exm &&& ~~~t }
  let q := dropResults t (leaveJoins t q)
  if p'.members = 0 then
    -- the freed entry and the place in the list go to a record that merges
    let q' := settleJoins p.entry { q with paths := q.paths.filter fun a => a.entry ≠ p.entry }
    let new := q'.paths.filter fun a => a.entry = p.entry
    takeEntry p.entry new { q with joins := q'.joins } (orphan q')
  else if p'.exm = 0 then
    match p'.jrec with
    | some rid =>
      match aget q.joins rid with
      | some r => parkAt p' rid r q
      | none => placePaths p.entry [] q
    | none => { q with paths := [], joins := [] }
  else placePaths p.entry [p'] q

/-- The candidate for deferral: lowest priority, latest in the list (R135). -/
def deferral (q : Squad) : Option Path :=
  let cand := q.paths.filter fun p =>
    match p.jrec.bind (aget q.joins) with
    | some r => r.deferred.isNone && decide (2 ≤ (q.paths.filter fun o => o.jrec = p.jrec).length)
    | none => false
  cand.foldl (fun b p => match b with
    | some c => if c.ppri < p.ppri then b else some p
    | none => some p) none

/-- Move the candidate into its record; its entry goes to the path that has none (entry 8). -/
def makeRoom (q : Squad) : Squad :=
  match deferral q with
  | none => q
  | some c =>
    let q := { q with paths := q.paths.filter fun p => p.entry ≠ c.entry }
    let q := match c.jrec with
      | some rid => { q with joins := amod q.joins rid fun r => { r with deferred := some ⟨c.pc, c.exm, c.members, c.ppri, c.ret⟩ } }
      | none => q
    modPath 8 (fun p => { p with entry := c.entry }) q

/-- A split of `p`: `taken` goes to `target` with return stack `ret` (R130, R135). -/
def splitPath (p : Path) (t : Mask) (target : Pc) (ret : List Pc) (join : Nat) (q : Squad) : Option Squad :=
  match freeJoin q with
  | none => none
  | some rid =>
    let r : JoinRec := ⟨p.members, 0, ⟨p.pc.bank, join⟩, p.ppri, p.ret.length, p.jrec, none, []⟩
    let taken := { p with members := t, exm := t, pc := target, jrec := some rid, ret := ret }
    let e := (firstFree 8 (q.paths.map (·.entry))).getD 8
    let fall := { p with entry := e, members := p.members &&& ~~~t, exm := p.exm &&& ~~~t, pc := nextPc p.pc, jrec := some rid }
    let q := placePaths p.entry [taken, fall] { q with joins := aput q.joins rid r }
    some (if e = 8 then makeRoom q else q)

/-! ### The end of a squad -/

/-- A squad leaves its lane, its lists and its task (R134). -/
def endSquad (s : State) (id : Nat) : State :=
  match squadOf s id with
  | none => s
  | some q =>
    let s := unlist s id q
    { s with
      squads := adel s.squads id
      tasks := amod s.tasks q.task fun t => { t with squads := t.squads.filter (· ≠ id) }
      lanes := s.lanes.map fun e => (e.1, (e.2.1.filter (· ≠ id), e.2.2)) }

/-- Change the issuing squad's paths; a squad without paths ends. -/
def setPaths (s : State) (x : Iss) (f : Squad → Squad) : State :=
  let s := modSquad s x.id f
  match squadOf s x.id with
  | some q => if q.paths.isEmpty then endSquad s x.id else s
  | none => s

/-- EXM of the running path becomes `m` (R96, R133). -/
def setExm (s : State) (x : Iss) (m : Mask) : Res :=
  let m := m &&& x.path.members
  if m = 0 then
    match squadOf s x.id with
    | none => .jump s
    | some q =>
      match x.path.jrec with
      | none => .jump (endSquad s x.id)
      | some rid =>
        if parkFault q x.path then failE s x (eSTACK 5)
        else .jump (setPaths s x fun q =>
          match aget q.joins rid with
          | some r => parkAt { x.path with exm := 0 } rid r q
          | none => q)
  else .ok (modSquad s x.id (modPath x.path.entry fun p => { p with exm := m }))

/-- The priority byte of the running path (R129). DESIGN CHOICE: the ORDER that paths of one priority keep is their place in the list of
the moment (R127), which a stable sort carries on; there is no ORDER beside the list. -/
def setPpri (s : State) (x : Iss) (n : Nat) : State :=
  modSquad s x.id fun q =>
    let q := modPath x.path.entry (fun p => { p with ppri := n }) q
    { q with paths := sortPaths q.paths }

/-- The whole path goes to `target`. -/
def goWhole (s : State) (x : Iss) (target : Pc) (ret : List Pc) : Res :=
  .jump (modSquad s x.id (modPath x.path.entry fun p => { p with pc := target, ret := ret }))

/-- A branch of the running path with return stack `ret` for the threads that go (R130). -/
def branch (s : State) (x : Iss) (target : Pc) (ret : List Pc) (jn : Option Nat) : Res :=
  if x.act = 0 then .ok s
  else if x.act = x.path.exm then goWhole s x target ret
  else
    match jn with
    | none => failE s x (eSTACK 4)
    | some j =>
      match (squadOf s x.id).bind (splitPath x.path x.act target ret j) with
      | none => failE s x (eSTACK 3)
      | some q => .jump (modSquad s x.id fun _ => q)

end Sys2Proof.Machine
end

