-- ==== Sys2Proof/Machine/Control.lean ====
section
/-! DEFINITION. Control flow (R123-R156): branches, calls, joins, exits, overlays and timed waits. -/

namespace Sys2Proof.Machine

/-- A place in the path's own bank. -/
def here (x : Iss) (i : Nat) : Pc := ⟨x.path.pc.bank, i⟩

/-- A whole-path transfer, for T equal to EXM; other nonempty T is STACK 0x04 (R144, R150). -/
def whole (s : State) (x : Iss) (f : Unit → Res) : Res :=
  if x.act = 0 then .ok s else if x.act = x.path.exm then f () else failE s x (eSTACK 4)

def execBra (h : Hdr) (target : Nat) (jn : Option Nat) (s : State) : Out :=
  issue h 1 (.once 1) s fun x s => branch s x (here x target) x.path.ret jn

def execBrx (h : Hdr) (sd : Nat) (jn : Option Nat) (s : State) : Out :=
  issue h 1 (.once 1) s fun x s => branch s x (here x ((rdS x.q sd).toNat % 8192)) x.path.ret jn

/-- The return stack after a push, or overflow (R137). -/
def pushRet (x : Iss) : Option (List Pc) := if x.path.ret.length ≥ 16 then none else some (nextPc x.path.pc :: x.path.ret)

/-- DESIGN CHOICE: of the faults of one `call` the rules give no order; the model raises STACK 0x04 (a split that names no join),
then 0x01 (full return stack), then 0x03 (no free join record). -/
def execCall (h : Hdr) (target : Nat) (jn : Option Nat) (s : State) : Out :=
  issue h 1 (.once 1) s fun x s =>
    if x.act = 0 then .ok s
    else if x.act ≠ x.path.exm ∧ jn.isNone then failE s x (eSTACK 4)
    else
      match pushRet x with
      | none => failE s x (eSTACK 1)
      | some r => branch s x (here x target) r jn

/-- Return-stack depth below which the path may not pop: that of its innermost record (R137). -/
def depthFloor (s : State) (x : Iss) : Nat :=
  match (squadOf s x.id).bind fun q => x.path.jrec.bind (aget q.joins) with
  | some r => r.rdepth
  | none => 0

def execRet (h : Hdr) (s : State) : Out :=
  issue h 1 (.once 1) s fun x s => whole s x fun _ =>
    match x.path.ret with
    | [] => failE s x (eSTACK 2)
    | pc :: r => if r.length < depthFloor s x then failE s x (eSTACK 7) else goWhole s x pc r

/-- The join records from the innermost outwards (R132). -/
def joinChain (q : Squad) : Nat → Option Nat → List JoinRec
  | 0, _ => []
  | n + 1, j =>
    match j.bind (aget q.joins) with
    | some r => r :: joinChain q n r.outer
    | none => []

/-- What `join` does on a path (R131, R132). -/
def joinStep (s : State) (x : Iss) : Res :=
  match squadOf s x.id with
  | none => .jump s
  | some q =>
    match joinChain q 16 x.path.jrec with
    | [] => .ok s
    | r :: outer =>
      if r.join = x.path.pc then
        if x.path.ret.length ≠ r.rdepth then failE s x (eSTACK 5)
        else .jump (setPaths s x (parkAt x.path (x.path.jrec.getD 0) r))
      else if outer.any fun o => o.join = x.path.pc then failE s x (eSTACK 6)
      else .ok s

def execJoin (h : Hdr) (s : State) : Out := issue h 1 (.once 1) s fun x s => joinStep s x

def execYield (h : Hdr) (s : State) : Out :=
  issue h 0 (.once 1) s fun x s =>
    if x.act = 0 then .ok s
    else .ok (modSquad s x.id fun q =>
      let others := q.paths.filter fun p => p.entry ≠ x.path.entry
      { q with paths := (q.paths.filter fun p => p.entry = x.path.entry).foldl (fun l p => insertBehind p l) others })

def execSetpri (h : Hdr) (b : Opnd) (s : State) : Out :=
  issue h 1 (.once 1) s fun x s => if x.act = 0 then .ok s else .ok (setPpri s x (rdScal x.q b % 256))

def execExit (h : Hdr) (s : State) : Out :=
  issue h 0 (.once 1) s fun x s =>
    if x.act = 0 then .ok s
    else
      match squadOf s x.id with
      | none => .jump s
      | some q =>
        if x.path.exm = x.act ∧ x.path.members ≠ x.act ∧ parkFault q x.path then failE s x (eSTACK 5)
        else .jump (setPaths s x fun q =>
          exitThreads { x.path with pc := nextPc x.path.pc } x.act (advance x.path.entry q))

def execBrdec (h : Hdr) (sd target : Nat) (s : State) : Out :=
  issue h 1 (.once 1) s fun x s =>
    if x.act = 0 then .ok s
    else
      let n := rdS x.q sd - 1
      let s := putFixed s x [.s sd n]
      if n = 0 then .ok s else goWhole s x (here x target) x.path.ret

/-- The task holds the bank (R43). -/
def holdsBank (s : State) (q : Squad) (bank : Bool) : Bool :=
  ((taskOf s q.task).map fun t => t.banks.contains bank).getD false

/-- DESIGN CHOICE: of a bank not held (ACCESS 0x01) and a full return stack (STACK 0x01) the rules give no order; the model
checks the bank first. -/
def execOvlj (h : Hdr) (call bank : Bool) (target : Nat) (s : State) : Out :=
  issue h 2 (.once 1) s fun x s => whole s x fun _ =>
    if !holdsBank s x.q bank then failE s x (eACCESS 1)
    else if call then
      match pushRet x with
      | none => failE s x (eSTACK 1)
      | some r => goWhole s x ⟨bank, target⟩ r
    else goWhole s x ⟨bank, target⟩ x.path.ret

/-- A fault that leaves the program counter at the next index (R151, R152). -/
def execBkpt (h : Hdr) (n : Nat) (s : State) : Out :=
  issue h 0 (.once 1) s fun x s =>
    if x.act = 0 then .ok s else .fault s { mkFault 0x11 n x.act x.path with advance := true }

def execTrap (h : Hdr) (n : Nat) (s : State) : Out :=
  issue h 0 (.once 1) s fun x s =>
    if x.act = 0 then .ok s else .fault s { mkFault 0x10 n x.act x.path with advance := true }

def execWaitc (h : Hdr) (b : Opnd) (s : State) : Out :=
  issue h 0 (.once 1) s fun x s =>
    let n := rdScal x.q b
    if x.act = 0 || decide (n ≤ s.time) then .ok s else .hold s (.waitc n)

def execWaitcRel (h : Hdr) (b : Opnd) (s : State) : Out :=
  issue h 0 (.once 1) s fun x s =>
    let n := sextN 64 (rdScal x.q b)
    if x.act = 0 || decide (n ≤ 0) then .ok s else .hold s (.waitcRel (s.clock + n.toNat))

end Sys2Proof.Machine
end

