-- ==== Sys2Proof/Machine/Ordering.lean ====
section
/-! DEFINITION. Happens-before over the ordering record, conflicts and races (R175-R181, R221-R224, R446, R447). An entry of the
record is named by its index; a lower index was performed earlier. The record holds who performed each access and where that
agent then was, so the agents of a squad that has ended keep their scopes. -/

namespace Sys2Proof.Machine

/-! ### Agents and places -/

/-- Both agents lie in one instance of a scope (R10, R177): each level contains those before it. -/
def together (sc : Scope) (a b : Who) : Bool :=
  let dev := a.dev.isSome && b.dev.isSome
  let pkg := dev && a.dev == b.dev
  let die := pkg && a.die.isSome && a.die == b.die
  let core := die && a.core.isSome && a.core == b.core
  match sc with
  | .lane => core && a.lane.isSome && a.lane == b.lane
  | .core => core
  | .quad => die && a.core.isSome && b.core.isSome && a.core.map (· / 4) == b.core.map (· / 4)
  | .die => die
  | .pkg => pkg
  | .pod => dev
  | .sys => true

/-- Bit of a path in the masks of FENCEX (R175). -/
def pathBit : APath → Nat
  | .T => 0 | .C => 1 | .M => 2 | .G => 3 | .L => 4 | .V => 5 | .H => 6

/-- Two places share a byte, a descriptor, a slot or a tile. -/
def meets : HLoc → HLoc → Bool
  | .bytes sp lo n, .bytes sp' lo' n' => sp == sp' && decide (lo < lo' + n') && decide (lo' < lo + n)
  | .desc sp b n, .desc sp' b' n' => sp == sp' && decide (b < b' + n') && decide (b' < b + n)
  | .slot c k, .slot c' k' => c == c' && k == k'
  | .acc c k, .acc c' k' => c == c' && k == k'
  | _, _ => false

/-- The parts of a place that are read and written each for itself: a byte, a descriptor, a slot, a tile. -/
def locUnits : HLoc → List HLoc
  | .bytes sp lo n => (List.range n).map fun i => .bytes sp (lo + i) 1
  | .desc sp b n => (List.range n).map fun i => .desc sp (b + i) 1
  | l => [l]

/-! ### Entries -/

/-- The access at an index. -/
def accAt (h : List HEv) (i : Nat) : Option Acc :=
  match h[i]? with
  | some (.access a) => some a
  | _ => none
def whoAt (h : List HEv) (i : Nat) : Option Who := (h[i]?).bind whoOf

def onPath (m : Nat) (a : Acc) : Bool := m.testBit (pathBit a.path)
def isThread (w : Who) : Bool := w.agent matches .thread ..

/-- Each agent lies in the other's instance of its scope (R177). -/
def bothIn (sc sc' : Scope) (a b : Who) : Bool := together sc a b && together sc' a b

/-- Conflict (R180): a common byte, a store, different agents or paths. -/
def conflict (a b : Acc) : Bool :=
  meets a.loc b.loc && (a.wr || b.wr) && (a.who.agent != b.who.agent || a.path != b.path)

/-! ### Program order (R176, R279, R399) -/

/-- Accesses of a thread on one path. -/
def threadOrder (a b : Acc) : Bool := isThread a.who && a.who.agent == b.who.agent && a.path == b.path

/-- Agents that are no threads: the queue of a core's matrix engine, in order; a link's writes in order, and its reads, each an
acquire, before what follows them (R399); a peer device's releases and acquires (R411); the entries of a ring before the index
that releases them (R205, R403). DEDUCED: a peer is one agent, since the accesses that arrive do not name its threads. -/
def agentOrder (a b : Acc) : Bool :=
  a.who.agent == b.who.agent &&
    match a.who.agent with
    | .matrix _ => a.path == .M && b.path == .M
    | .link _ => a.rd || (a.wr && b.wr)
    | .peer _ => b.rel.isSome || a.acq.isSome
    | .ring .. => a.wr && b.rel.isSome
    | _ => false

/-- Two accesses of one engine command. -/
def sameCommand (a b : Who) : Bool := a.cmd.isSome && a.agent == b.agent && a.cmd == b.cmd

/-- The command has counted between two entries. -/
def counted (h : List HEv) (i j : Nat) (w : Who) : Bool :=
  ((h.take j).drop (i + 1)).any fun e => match e with
    | .access c => sameCommand w c.who && c.rel.isSome
    | _ => false

/-- Within an engine command: a write before the count of its chunk, the next one (R239, R351); a set residency bit before the
data (R200). -/
def commandOrder (h : List HEv) (i j : Nat) (a b : Acc) : Bool :=
  sameCommand a.who b.who && ((a.wr && b.rel.isSome && !counted h i j a.who) || (a.path == .L && a.acq.isSome))

/-- The thread's path issues, between two entries, the engine command that the later one belongs to. -/
def issuedAfter (h : List HEv) (i j : Nat) (w : Who) (cmd : Option Nat) : Bool :=
  ((h.take j).drop i).any fun e => match e with
    | .command u c => u.agent == w.agent && some c == cmd
    | _ => false

/-- A frame unit's command follows the earlier path-G accesses of the path that issues it (R351); a count follows an `aw.set`
of the word on that path (R237). -/
def issueOrder (h : List HEv) (i j : Nat) (a b : Acc) : Bool :=
  isThread a.who && issuedAfter h i j a.who b.who.cmd &&
    ((a.path == .G && b.path == .G && (b.who.agent matches .unit _)) ||
      (a.path == .T && a.wr && b.rel.isSome && a.loc == b.loc))

/-- An edge of program order between two accesses. -/
def accessOrder (h : List HEv) (i j : Nat) : Bool :=
  match accAt h i, accAt h j with
  | some a, some b => decide (i < j) && (threadOrder a b || agentOrder a b || commandOrder h i j a b || issueOrder h i j a b)
  | _, _ => false

/-- Same-address order (R176): accesses of one thread to a common byte, neither on path V or L; it is no edge of hb. -/
def sameAddress (h : List HEv) (i j : Nat) : Bool :=
  match accAt h i, accAt h j with
  | some a, some b =>
    decide (i < j) && isThread a.who && a.who.agent == b.who.agent && a.who.cmd.isNone && b.who.cmd.isNone && meets a.loc b.loc &&
      a.path != .V && a.path != .L && b.path != .V && b.path != .L
  | _, _ => false

/-! ### Releases and acquires by value (R177, R186, R221, R223) -/

/-- The number of stores to a location between two indices. -/
def storesIn (h : List HEv) (i j : Nat) (l : HLoc) : Nat :=
  ((h.take j).drop (i + 1)).countP fun e => match e with
    | .access c => c.wr && meets c.loc l
    | _ => false

/-- One more than the index of the last store to a location below `m`, or 0. -/
def lastStore (h : List HEv) (m : Nat) (l : HLoc) : Nat :=
  (h.take m).zipIdx.foldl (fun n e => match e.1 with
    | .access c => if c.wr && meets c.loc l then e.2 + 1 else n
    | _ => n) 0

/-- The length of the record whose stores the load at `j` saw at one of its units. -/
def seenAt (a : Acc) (j : Nat) (u : HLoc) : Nat :=
  match u, a.loc with
  | .bytes _ x _, .bytes _ lo _ => (a.asOf[x / 8 - lo / 8]?).getD j
  | _, _ => j

/-- The access at `j` reads, at some unit, what the one at `i` wrote: the last store to it of those that the load saw. -/
def readsFrom (h : List HEv) (i j : Nat) : Bool :=
  match accAt h i, accAt h j with
  | some a, some b =>
    decide (i < j) && a.wr && b.rd && (locUnits b.loc).any fun u =>
      meets a.loc u && decide (i < seenAt b j u) && storesIn h i (seenAt b j u) u == 0
  | _, _ => false

/-- A read-modify-write that carries a release chain: an atomic, of a thread or of a peer, and RMAP on its byte (R209,
R221). -/
def chains (a : Acc) : Bool := a.rd && a.wr && (a.path == .T || a.path == .H || a.path == .L)

/-- The store at `r` and the members of its release chain. -/
def chainOf (h : List HEv) (r : Nat) : List Nat :=
  (List.range h.length).foldl (fun c m =>
    if (accAt h m).any chains && c.any (fun k => readsFrom h k m) then c ++ [m] else c) [r]

/-- Scopes at which a store releases: its own, and for a thread's store on path T those of its earlier release fences. -/
def relScopes (h : List HEv) (i : Nat) : List Scope :=
  match accAt h i with
  | some a => a.rel.toList ++
      if a.path = .T ∧ isThread a.who = true then
        (h.take i).filterMap fun e => match e with
          | .fence w o sc => if w.agent = a.who.agent ∧ o ≠ .acq then some sc else none
          | _ => none
      else []
  | none => []

/-- Scopes at which a load acquires: its own, and for a thread's load on path T those of its later acquire fences. -/
def acqScopes (h : List HEv) (j : Nat) : List Scope :=
  match accAt h j with
  | some a => a.acq.toList ++
      if a.path = .T ∧ isThread a.who = true then
        (h.drop (j + 1)).filterMap fun e => match e with
          | .fence w o sc => if w.agent = a.who.agent ∧ o ≠ .rel then some sc else none
          | _ => none
      else []
  | none => []

/-- The store at `r` synchronises with the load at `q`, which reads from it or from its chain. -/
def syncs (h : List HEv) (r q : Nat) : Bool :=
  match accAt h r, accAt h q with
  | some a, some b =>
    decide (r < q) && a.wr && b.rd &&
      (relScopes h r).any (fun sc => (acqScopes h q).any fun sc' => bothIn sc sc' a.who b.who) &&
      (chainOf h r).any fun k => readsFrom h k q
  | _, _ => false

/-! ### Stated synchronisations (R231, R239, R243, R280, R342, R351, R354, R366-R367, R386-R389, R402, R403) -/

/-- The access belongs to the agent of a release or acquire: a thread's own, a command's, a node's, a link's. -/
def ownOf (w : Who) (a : Acc) : Bool :=
  match w.agent, w.cmd with
  | .node n, _ => a.who.node == some n
  | g, some c => a.who.agent == g && a.who.cmd == some c
  | g, none => a.who.agent == g

/-- A count covers the writes of its own chunk: those since the command's last count (R239, R351). -/
def chunkOf (h : List HEv) (i r : Nat) (w : Who) (a : Acc) : Bool :=
  a.wr && !((h.take r).drop (i + 1)).any fun e => match e with
    | .release u _ _ (.count ..) => sameCommand w u
    | _ => false

/-- The access at `i` is one that the release at `r` covers: the agent's own earlier ones on its paths, and, where path C is
among them, what engine commands of the thread's path have performed. -/
def relCovers (h : List HEv) (i r : Nat) : Bool :=
  match accAt h i, h[r]? with
  | some a, some (.release w m _ k) =>
    decide (i < r) && onPath m a &&
      ((ownOf w a && (w.cmd.isNone || !(k matches .count ..) || chunkOf h i r w a)) ||
        (m.testBit 1 && isThread w && issuedAfter h 0 i w a.who.cmd))
  | _, _ => false

/-- The word was stored to between two entries otherwise than by counts. -/
def overwritten (h : List HEv) (i j : Nat) (l : AwLoc) : Bool :=
  ((h.take j).drop i).any fun e => match e with
    | .access c => c.wr && !(c.rd && c.rel.isSome && c.path != .T) && meets c.loc (.bytes l.sp l.addr 16)
    | _ => false

/-- The count that wrote the GEN which the wait at `q` read. -/
def genWriter (h : List HEv) (q : Nat) (l : AwLoc) : Option Nat :=
  ((List.range q).reverse.find? fun k =>
    match (h[k]? : Option HEv) with
    | some (.release _ _ _ (.count l' adv)) => l' == l && adv
    | _ => false).bind fun k => if overwritten h k q l then none else some k

/-- No release of the same key stands between: a record, a handle or a queue can be used anew. -/
def lastOf (h : List HEv) (r q : Nat) (k : HKey) : Bool :=
  ((h.take q).drop (r + 1)).all fun e => match e with
    | .release _ _ _ k' => k' != k
    | _ => true

/-- The release with key `k` at `r` is one that the acquire at `q` takes from, for key `k'`. -/
def keyMeets (h : List HEv) (r q : Nat) (k k' : HKey) : Bool :=
  match k, k' with
  | .count l _, .gen l' => l == l' && (genWriter h q l).any fun g => decide (r ≤ g)
  | .lodep c e, .lodep c' d => c == c' && decide ((d + 2 ^ 32 - e % 2 ^ 32) % 2 ^ 32 < 2 ^ 31)
  | .handle .., .handle .. | .closed _, .closed _ | .done .., .done .. => k == k' && lastOf h r q k
  | .arrival .., _ | .phase .., _ | .gen _, _ => false
  | k, k' => k == k'

/-- The release at `r` synchronises with the acquire at `q`. -/
def keySync (h : List HEv) (r q : Nat) : Bool :=
  match h[r]?, h[q]? with
  | some (.release a _ sc k), some (.acquire b _ sc' ks) =>
    decide (r < q) && bothIn sc sc' a b && ks.any (keyMeets h r q k)
  | _, _ => false

/-- The arrival at `r` led to the flip that ended the wait at `q`; both scopes are the LEVEL of the root (R231). -/
def barSync (h : List HEv) (r q : Nat) : Bool :=
  match h[r]?, h[q]? with
  | some (.release a _ _ (.arrival id)), some (.acquire b _ _ [.phase l n]) =>
    decide (r < q) && (((h.take q).drop r).reverse.find? fun e => match e with
        | .flip l' n' _ _ => l' == l && n' == n
        | _ => false).any fun e => match e with
      | .flip _ _ lv ids => ids.contains id && bothIn lv lv a b
      | _ => false
  | _, _ => false

/-- The paths that an acquire covers: path G too when a frame unit's count advanced the GEN it read (R351). -/
def acqMask (h : List HEv) (q : Nat) (m : Nat) : HKey → Nat
  | .gen l =>
    match (genWriter h q l).bind (whoAt h) with
    | some w => if w.agent matches .unit _ then m ||| 8 else m
    | none => m
  | _ => m

/-- The entry at `j` is one that the acquire at `q` covers: a later access of the agent on its paths; on paths C and M, and on
G where C is covered too, one of an engine command that its path issues later; a later release, fence or FENCEX. -/
def takesAfter (h : List HEv) (q j : Nat) : Bool :=
  match h[q]?, h[j]? with
  | some (.acquire w m _ ks), some e =>
    let m := ks.foldl (fun m k => acqMask h q m k) m
    decide (q < j) &&
      match e with
      | .access b =>
        onPath m b && (ownOf w b ||
          (isThread w && (b.path == .C || b.path == .M || (b.path == .G && m.testBit 1)) && issuedAfter h q j w b.who.cmd))
      | .release u m' .. => u.agent == w.agent && m &&& m' != 0
      | .fence u .. => u.agent == w.agent && m.testBit 0
      | .fencex u .. => u.agent == w.agent
      | _ => false
  | _, _ => false

/-! ### Fences (R223, R224) -/

/-- A thread's entries before its fence; path-T accesses after it. Everything of the thread stands before its FENCEX. -/
def fenceOrder (h : List HEv) (i j : Nat) : Bool :=
  match h[i]?, h[j]? with
  | some (.access a), some (.fence w ..) => decide (i < j) && a.who.agent == w.agent && a.path == .T
  | some (.fence w ..), some (.access b) => decide (i < j) && b.who.agent == w.agent && b.path == .T
  | some (.fence w .sc sc), some (.fence u .sc sc') => decide (i < j) && (w.agent == u.agent || bothIn sc sc' w u)
  | some (.access a), some (.fencex u ..) => decide (i < j) && a.who.agent == u.agent
  | some (.fence w ..), some (.fencex u ..) | some (.fencex w ..), some (.fencex u ..) => decide (i < j) && w.agent == u.agent
  | _, _ => false

/-- Below `pkg`, the edges of FENCEX reach no line of another die (R224). -/
def lineReached (sc : Scope) (w : Who) (a : Acc) : Bool :=
  widerThanDie sc ||
    match a.loc with
    | .bytes .mem lo _ => w.die == some (homeDie lo)
    | .desc .mem b _ => w.die == some (homeDie (b * 64))
    | .bytes (.scr c) .. | .desc (.scr c) .. | .slot c _ | .acc c _ => w.die == some (c / 128)
    | _ => false

/-- The access at `i` is on M1, the one at `j` on M2 and after the FENCEX at `f`: the thread's own, or of an engine command
that its path issues later. -/
def crosses (h : List HEv) (i f j : Nat) : Bool :=
  match accAt h i, h[f]?, accAt h j with
  | some a, some (.fencex w sc m1 m2), some b =>
    onPath m1 a && onPath m2 b && lineReached sc w a && lineReached sc w b &&
      decide (f < j) && (b.who.agent == w.agent || issuedAfter h f j w b.who.cmd)
  | _, _, _ => false

/-! ### Happens-before (R178, R447) -/

/-- One edge between two entries, those of FENCEX apart. -/
def hbEdge (h : List HEv) (i j : Nat) : Bool :=
  accessOrder h i j || syncs h i j || relCovers h i j || keySync h i j || barSync h i j || takesAfter h i j || fenceOrder h i j

/-- The transitive closure. FENCEX takes every access on M1 that the thread performed before it, or that happens before it,
to the accesses on M2 after it. -/
inductive HappensBefore (h : List HEv) : Nat → Nat → Prop where
  | edge (i j : Nat) : hbEdge h i j = true → HappensBefore h i j
  | trans (i j k : Nat) : HappensBefore h i j → HappensBefore h j k → HappensBefore h i k
  | fencex (i f j : Nat) : HappensBefore h i f → crosses h i f j = true → HappensBefore h i j

/-- The entries that happen before entry `j`, from the rows of the entries before it. Every edge leads forward. -/
def hbRow (h : List HEv) (rows : List (List Nat)) (j : Nat) : List Nat :=
  let row (k : Nat) : List Nat := (rows[k]?).getD []
  let near := (List.range j).filter (fun i => hbEdge h i j) ++
    (List.range j).flatMap fun f => (row f).filter fun i => crosses h i f j
  near ++ near.flatMap row

/-- The rows of the first `n` entries. -/
def hbRows (h : List HEv) : Nat → List (List Nat)
  | 0 => []
  | n + 1 => let rows := hbRows h n; rows ++ [hbRow h rows n]

/-- The entries that happen before entry `j`, computed. -/
def hbBefore (h : List HEv) (j : Nat) : List Nat := hbRow h (hbRows h j) j

/-- Ordered accesses (R447): by happens-before, or by same-address order. -/
def Ordered (h : List HEv) (i j : Nat) : Prop := HappensBefore h i j ∨ sameAddress h i j = true

/-- No data race in the record (R180): happens-before orders every conflicting pair. -/
def RaceFree (h : List HEv) : Prop :=
  ∀ i j a b, i < j → accAt h i = some a → accAt h j = some b → conflict a b = true → HappensBefore h i j

end Sys2Proof.Machine
end

