-- ==== Sys2Proof/Machine/Access.lean ====
section
/-! DEFINITION. What every per-thread memory instruction shares: addresses, the checks of R162 in their order, loads and
stores of the active threads (R157-R173, R182-R186). -/

namespace Sys2Proof.Machine

/-- Bytes a size moves (R182). -/
def sizeBytes : MemSize → Nat
  | .zx8 | .sx8 => 1 | .zx16 | .sx16 => 2 | .b32 => 4 | .b64 => 8 | .b128 => 16

/-- One thread's access: its address, and where it is performed. -/
structure Tgt where
  t : Nat
  va : Nat
  sp : Space
  a : Nat
  deriving DecidableEq, Repr

/-- A per-thread fault for the threads in `ts` (R448). -/
def faultOf (e : Err) (ts : List (Nat × Nat)) : FaultInfo :=
  let m := maskOf fun t => ts.any fun a => a.1 == t
  let lo := lowestD m
  mkFaultAt e m ((ts.find? fun a => a.1 == lo).map (·.2) |>.getD 0)

/-- Rank of the checks of one line: lease, translation, access (R162). -/
def errRank (e : Err) : Nat := if e.1 = 0x05 then 0 else if e.1 = 0x06 then 1 else 2

/-- The first failing check on the lowest failing line, with the threads that fail it. An XLATE of a leased page is parked,
subcode 0x04 apart (R380, R383). -/
def lineFault (errs : List (Nat × Nat × Err)) : Option FaultInfo :=
  match errs.foldl (fun b e => match b with
      | none => some e
      | some c => if (e.2.1 / 256, errRank e.2.2).1 < c.2.1 / 256 ∨ (e.2.1 / 256 = c.2.1 / 256 ∧ errRank e.2.2 < errRank c.2.2)
          then some e else b) none with
  | none => none
  | some c =>
    let f := faultOf c.2.2 ((errs.filter fun e => e.2.1 / 256 == c.2.1 / 256 && e.2.2 == c.2.2).map fun e => (e.1, e.2.1))
    some { f with park := c.2.2.1 == 0x06 && c.2.2.2 != 4 }

/-- Where an access through a record is performed for a context and a task record, after the lease or footprint check
(R162, R171, R370); no record, no lease. `core` is the scratchpad's core; `fwd` lets a forwarding entry send the request on
(R379). -/
def placeAt (s : State) (ctx : Nat) (tr : Option TRec) (r : Rec) (core : Nat) (fwd : Bool) (va n : Nat) (wr : Bool) :
    Except Err (Space × Nat) :=
  if recSpace r = 1 then
    (if fwd then scrPlace s ctx core va n else if footprintOk s ctx core va n then .ok core else .error (eACCESS 0x08)).map
      fun c => (.scr c, va)
  else
    let a := if recKind r = 2 then va - 2 ^ 51 else va
    if tr.any (fun tr => !leaseOk tr a n wr) then .error (eLEASE wr) else translate s ctx a wr

def placeRec (s : State) (q : Squad) (r : Rec) (core : Nat) (fwd : Bool) (va n : Nat) (wr : Bool) : Except Err (Space × Nat) :=
  placeAt s (ctxId s q) (some (trOf s q)) r core fwd va n wr

/-- What an instruction asks of its record. -/
structure Want where
  kinds : List Nat
  spaces : List Nat
  size : Nat
  wr : Bool
  core : Nat
  fwd : Bool
  deriving DecidableEq, Repr

/-- The accesses of the active threads, checked in the order of R162; under ZERO mode, threads out of bounds are left out.
DESIGN CHOICE: when threads fail different checks of R162 step 3, a BOUND of any thread is reported before an ALIGN of any,
and that before an ACCESS 0x06; the rule says only the order of the checks and that the lowest faulting thread is named. -/
def plan (s : State) (x : Iss) (r : Rec) (w : Want) (addr : Nat → Nat × Bool) : Except FaultInfo (List Tgt) :=
  match recCheck r w.kinds w.spaces with
  | some e => .error (mkFault e.1 e.2 x.act x.path)
  | none =>
    if recKind r = 2 ∧ w.size ≠ recE r then .error (mkFault 0x07 0x05 x.act x.path)
    else
      let all := (threadsOf x.act).map fun t => (t, addr t)
      let oob := all.filter fun e => !e.2.2
      let ins := (all.filter fun e => e.2.2).map fun e => (e.1, e.2.1)
      if !recBmode r && !oob.isEmpty then .error (faultOf (0x04, 0x01) (oob.map fun e => (e.1, e.2.1)))
      else
        let mis := ins.filter fun e => e.2 % w.size ≠ 0
        if !mis.isEmpty then .error (faultOf (0x03, 0x01) mis)
        else if w.wr && !recWr r && !ins.isEmpty then .error (faultOf (0x07, 0x06) ins)
        else
          let ps := ins.map fun e => (e.1, e.2, placeRec s x.q r w.core w.fwd e.2 w.size w.wr)
          match lineFault (ps.filterMap fun e => match e.2.2 with | .error er => some (e.1, e.2.1, er) | .ok _ => none) with
          | some f => .error f
          | none => .ok (ps.filterMap fun e => match e.2.2 with | .ok p => some ⟨e.1, e.2.1, p.1, p.2⟩ | .error _ => none)

/-- The address of `size` bytes at each thread's index. -/
def recAddrs (x : Iss) (r : Rec) (size : Nat) (b : Opnd) (t : Nat) : Nat × Bool := recAddr r size (rdInt x.q 32 b t)

/-- Some target device does not answer. -/
def peerDown (s : State) (ts : List Tgt) : Bool :=
  ts.any fun g => spaceDown s g.sp

/-- The instruction waits for a peer, or has waited too long; `bad` are the threads that reach it, with their addresses
(R410). -/
def peerWait (s : State) (x : Iss) (bad : List (Nat × Nat) := []) : Res :=
  match x.wait with
  | some .peerLost => .fault s (if bad.isEmpty then mkFault 0x07 0x07 x.act x.path else faultOf (eACCESS 0x07) bad)
  | some (.peer t) => .wait s (.peer t)
  | _ => .wait s (.peer s.time)

/-- Threads whose access reaches a device that does not answer. -/
def downThreads (s : State) (ts : List Tgt) : List (Nat × Nat) := (ts.filter fun g => spaceDown s g.sp).map fun g => (g.t, g.va)

/-- The threads of a load that touch a POISON block (R161). -/
def poisonFault (s : State) (ts : List Tgt) (n : Nat) : Option FaultInfo :=
  let bad := ts.filter fun g => poisoned s g.sp g.a n
  if bad.isEmpty then none
  else
    let f := faultOf (0x08, 0x02) (bad.map fun g => (g.t, g.va))
    some { f with park := (bad.find? fun g => g.t == f.thread).any fun g => g.sp matches .mem | .peer _ }

/-- Keep the translations that an access used (R166). -/
def cacheAll (s : State) (x : Iss) (r : Rec) (ts : List Tgt) : State :=
  if recSpace r = 1 then s
  else ts.foldl (fun s g => cachePage s (ctxId s x.q) (if recKind r = 2 then g.va - 2 ^ 51 else g.va)) s

/-! ### What a load sees (R165, R176, R178, R181) -/

/-- The bytes before a store, where the record holds what it replaced. -/
def unstore (sp : Space) (a : Nat) (bs : List Byte) (c : Acc) : List Byte :=
  match c.loc with
  | .bytes sp' lo _ =>
    if c.wr && sp == sp' then bs.zipIdx.map fun e =>
      if lo ≤ a + e.2 then (c.old[a + e.2 - lo]?).getD e.1 else e.1
    else bs
  | _ => bs

/-- Bytes as they stood when the record had `m` entries: later stores are undone, the last one first. -/
def bytesAsOf (s : State) (sp : Space) (a n m : Nat) : List Byte :=
  (s.hist.drop m).reverse.foldl (fun bs e => match e with
    | .access c => unstore sp a bs c
    | _ => bs) (rdBytes s sp a n)

/-- A store whose old bytes the record does not hold. -/
def blind (c : Acc) : Bool :=
  match c.loc with
  | .bytes _ _ n => c.old.length != n
  | _ => true

/-- Two accesses of one thread whose loads keep coherence order: on one path (R178), or to the same byte off paths V and L
(R176). -/
def coherent (w : Who) (p : APath) (c : Acc) : Bool :=
  isThread w && w.agent == c.who.agent &&
    (p == c.path || (w.cmd.isNone && c.who.cmd.isNone && p != .V && p != .L && c.path != .V && c.path != .L))

/-- The shortest record that a load of a place by `w` on path `p` may see: with every store that happens before it, the thread's
own stores there, what set the bytes anew, and no store older than what an earlier load of the thread saw. -/
def mustSee (h : List HEv) (w : Who) (p : APath) (l : HLoc) : Nat :=
  if lastStore h h.length l = 0 then 0
  else
    let before := hbBefore (h ++ [.access (accRd w p l)]) h.length
    h.zipIdx.foldl (fun m e => match e.1 with
      | .access c =>
        let m := if c.wr && meets c.loc l && (before.contains e.2 || coherent w p c || blind c) then max m (e.2 + 1) else m
        if c.rd && coherent w p c then
          ((locUnits c.loc).filter (meets l)).foldl (fun m u => max m (lastStore h (seenAt c e.2 u) u)) m
        else m
      | .wipe l' => if meets l' l then max m (e.2 + 1) else m
      | _ => m) 0

/-- The 8-byte granules of `n` bytes: where each begins and its length (R178). -/
def granules (a n : Nat) : List (Nat × Nat) :=
  if n = 0 then []
  else (List.range ((a + n - 1) / 8 - a / 8 + 1)).map fun i =>
    let lo := max a (8 * (a / 8 + i))
    (lo, min (a + n) (8 * (a / 8 + i) + 8) - lo)

/-- What one agent of an instruction reads. -/
structure Look where
  w : Who
  sp : Space
  a : Nat
  n : Nat
  deriving DecidableEq, Repr

/-- The number of a place among all spaces. -/
def placeKey (sp : Space) (a : Nat) : Nat :=
  match sp with
  | .mem => a
  | .scr c => 2 ^ 62 + scrKey c a
  | .peer d => 2 ^ 63 + peerKey d a

/-- The length of the record whose stores the `n` bytes at `a`, within a granule, show to the looks of one instruction: any that
each look of these bytes may see. Threads that load the same bytes share one read of them (R165). -/
def seenIdx (s : State) (p : APath) (ls : List Look) (sp : Space) (a n : Nat) : Nat :=
  let ws := (ls.filter fun g => meets (.bytes sp a n) (.bytes g.sp g.a g.n)).map (·.w)
  let lo := ws.foldl (fun m w => max m (mustSee s.hist w p (.bytes sp a n))) 0
  let hi := lastStore s.hist s.hist.length (.bytes sp a n)
  if hi ≤ lo then hi else lo + Config.sees s.ctr (placeKey sp a) % (hi - lo + 1)

/-- The bytes that the looks of one instruction see at a place, and the lengths that the record keeps of it. -/
def seenBytes (s : State) (p : APath) (ls : List Look) (sp : Space) (a n : Nat) : List Byte :=
  (granules a n).flatMap fun g => bytesAsOf s sp g.1 g.2 (seenIdx s p ls sp g.1 g.2)
def seenLens (s : State) (p : APath) (ls : List Look) (sp : Space) (a n : Nat) : List Nat :=
  let ms := (granules a n).map fun g => (g, seenIdx s p ls sp g.1 g.2)
  if ms.all fun e => e.2 == lastStore s.hist s.hist.length (.bytes sp e.1.1 e.1.2) then [] else ms.map (·.2)

/-- The bytes that one agent reads in an access of its own, and its entry. -/
def lookBytes (s : State) (w : Who) (p : APath) (sp : Space) (a n : Nat) : List Byte := seenBytes s p [⟨w, sp, a, n⟩] sp a n
def lookN (s : State) (w : Who) (p : APath) (sp : Space) (a n : Nat) : Nat := leVal (lookBytes s w p sp a n)
def lookAcc (s : State) (w : Who) (p : APath) (sp : Space) (a n : Nat) : Acc :=
  { accRd w p (.bytes sp a n) with asOf := seenLens s p [⟨w, sp, a, n⟩] sp a n }

/-- The looks of the threads of a load. -/
def looksOf (s : State) (x : Iss) (n : Nat) (ts : List Tgt) : List Look :=
  ts.map fun g => ⟨whoSquad s x.id x.q g.t, g.sp, g.a, n⟩

/-- A load of one thread in the record. -/
def loadEv (s : State) (x : Iss) (p : APath) (acq : Option Scope) (ls : List Look) (n : Nat) (g : Tgt) : HEv :=
  .access { accRd (whoSquad s x.id x.q g.t) p (.bytes g.sp g.a n) with acq := acq, asOf := seenLens s p ls g.sp g.a n }

/-- The value one thread loads. -/
def seenBy (s : State) (p : APath) (ls : List Look) (n : Nat) (g : Tgt) : Nat := leVal (seenBytes s p ls g.sp g.a n)

/-- One thread's store. -/
def storeOne (x : Iss) (p : APath) (rel : Option Scope) (n v : Nat) (s : State) (g : Tgt) : State :=
  logEv (wrN s g.sp g.a n v) (.access { accPut s (whoSquad s x.id x.q g.t) p g.sp g.a n with rel := rel })

/-- A load: plan, poison, then the registers of `regs`, which gets none for a thread out of bounds (R184). -/
def loadThrough (s : State) (x : Iss) (r : Rec) (w : Want) (path : APath) (acq : Option Scope) (addr : Nat → Nat × Bool)
    (regs : Nat → Option Nat → List RegW) : Res :=
  match plan s x r w addr with
  | .error f => .fault s f
  | .ok ts =>
    if peerDown s ts then peerWait s x (downThreads s ts)
    else
      let s := cacheAll s x r ts
      match poisonFault s ts w.size with
      | some f => .fault s f
      | none =>
        let ls := looksOf s x w.size ts
        let ws := (threadsOf x.act).flatMap fun t =>
          regs t ((ts.find? fun g => g.t == t).map (seenBy s path ls w.size))
        .ok (putLater (logEvs s (ts.map (loadEv s x path acq ls w.size))) x ws)

/-- A store: plan, then the bytes of each thread in thread order, so the highest thread's value remains (R185). -/
def storeThrough (s : State) (x : Iss) (r : Rec) (w : Want) (path : APath) (rel : Option Scope) (addr : Nat → Nat × Bool)
    (data : Nat → Nat) : Res :=
  match plan s x r w addr with
  | .error f => .fault s f
  | .ok ts =>
    if peerDown s ts then peerWait s x (downThreads s ts)
    else
      .ok (ts.foldl (fun s g => storeOne x path rel w.size (data g.t) s g) (cacheAll s x r ts))

/-- Registers of a loaded value: extended to 32 bits, or 32 bits a register, low bytes first (R184). -/
def loadRegs (sz : MemSize) (vd t : Nat) (v : Option Nat) : List RegW :=
  let x := v.getD 0
  match sz with
  | .sx8 => [.v vd t (BitVec.ofNat 32 (cutN 32 (sextN 8 x)))]
  | .sx16 => [.v vd t (BitVec.ofNat 32 (cutN 32 (sextN 16 x)))]
  | _ => (List.range (sizeRegs sz)).map fun i => .v (vd + i) t (BitVec.ofNat 32 (x / 2 ^ (32 * i)))

/-- The data registers of a store. -/
def storeData (q : Squad) (sz : MemSize) (vd t : Nat) : Nat :=
  (List.range (sizeRegs sz)).foldl (fun r i => r + (rdV q (vd + i) t).toNat * 2 ^ (32 * i)) 0

/-- A release or acquire of the issuing path, and its issue of an engine command: an entry for each of its members. -/
def logRel (s : State) (x : Iss) (mask : Nat) (sc : Scope) (k : HKey) : State :=
  logEvs s ((threadsOf x.path.members).map fun t => .release (whoSquad s x.id x.q t) mask sc k)
def logAcq (s : State) (x : Iss) (mask : Nat) (sc : Scope) (ks : List HKey) : State :=
  logEvs s ((threadsOf x.path.members).map fun t => .acquire (whoSquad s x.id x.q t) mask sc ks)
def logCmd (s : State) (x : Iss) (cmd : Nat) : State :=
  logEvs s ((threadsOf x.path.members).map fun t => .command (whoSquad s x.id x.q t) cmd)

def ordScope (ord : Bool) (sc : Scope) : Option Scope := if ord then some sc else none

end Sys2Proof.Machine
end

