-- ==== Sys2Proof/Machine/LodWalk.lean ====
section
/-! DEFINITION. LOD descriptors, the fallback walk and feedback entries (R194-R205). -/

namespace Sys2Proof.Machine

/-- A byte that path L reads: zero where no page or memory stands (R163, R199). -/
def lodByte (s : State) (ctx va : Nat) : Byte :=
  match translate s ctx va false with
  | .ok (sp, a) => rdByte s sp a
  | .error _ => 0

def lodBytes (s : State) (ctx va n : Nat) : List Byte := (List.range n).map fun i => lodByte s ctx (va + i)
def lodReadN (s : State) (ctx va n : Nat) : Nat := leVal (lodBytes s ctx va n)

/-- A descriptor as its 128 bytes (R194). -/
abbrev Desc := Nat
def descAt (s : State) (ctx va : Nat) : Desc := lodReadN s ctx va 128

def descFloor (d : Desc) : Nat := bits d 127 124
def descTwl (d : Desc) : Nat := bits d 123 120
def descEsize (d : Desc) : Nat := bits d 119 117
def descRid (d : Desc) : Nat := bits d 116 101
def descMap (d : Desc) : Nat := bits d 100 52 * 8
def descBase (d : Desc) : Nat := bits d 51 16 * 65536
def descMip (d : Desc) : Bool := d.testBit 0
def descE (d : Desc) : Nat := 2 ^ descEsize d
def descTw (d : Desc) : Nat := 2 ^ descTwl d
def descTh (d : Desc) : Nat := 2 ^ (16 - descEsize d - descTwl d)

/-- A level entry: first page, width, height (R195). -/
structure Level where
  pgoff : Nat
  w : Nat
  h : Nat
  deriving DecidableEq, Repr

def levelOf (d : Desc) (k : Nat) : Level :=
  let e := bits d (128 + 56 * k + 55) (128 + 56 * k)
  ⟨bits e 55 32, bits e 31 16 + 1, bits e 15 0 + 1⟩

/-- Pages of a row and of the level. -/
def levelPw (d : Desc) (l : Level) : Nat := ceilDiv l.w (descTw d)
def levelPn (d : Desc) (l : Level) : Nat := levelPw d l * ceilDiv l.h (descTh d)
/-- The page of element (x, y). -/
def pageIn (d : Desc) (l : Level) (x y : Nat) : Nat := y / descTh d * levelPw d l + x / descTw d
/-- The byte address of element (x, y). -/
def elemAddr (d : Desc) (l : Level) (x y : Nat) : Nat :=
  descBase d + (l.pgoff + pageIn d l x y) * 65536 + (y % descTh d * descTw d + x % descTw d) * descE d

/-- A residency bit: its byte and its place (R195). -/
def mapByteVa (d : Desc) (bit : Nat) : Nat := descMap d + bit / 8
def mapBit (s : State) (ctx : Nat) (d : Desc) (l : Level) (page : Nat) : Bool :=
  (lodByte s ctx (mapByteVa d (l.pgoff + page))).getLsbD ((l.pgoff + page) % 8)

/-- The fields of a descriptor, as bit ranges (R194, R195). -/
def descFields : List (Nat × Nat) :=
  [(127, 124), (123, 120), (119, 117), (116, 101), (100, 52), (51, 16), (15, 1), (0, 0)] ++
    (List.range 16).flatMap fun k =>
      let b := 128 + 56 * k
      [(b + 55, b + 32), (b + 31, b + 16), (b + 15, b)]

/-- A descriptor that was stored to since the record had `born` entries, as the walk of thread `t` may see it: each field as of
then or of any later moment (R196). -/
def mixedDesc (s : State) (sp : Space) (a born t : Nat) : Desc :=
  descFields.zipIdx.foldl (fun d f =>
    let m := born + Config.lodSees s.ctr t f.2 % (s.hist.length - born + 1)
    d + bits (leVal (bytesAsOf s sp a 128 m)) f.1.1 f.1.2 * 2 ^ f.1.2) 0

/-- The task holds a lease on the LOD resource whose descriptor stands at an address. -/
def leasesLod (tr : TRec) (va : Nat) : Bool := (ranges tr).any fun r => r.lod && r.base == va

/-- The descriptor that the walk of a task's thread takes: one the task leases may be seen as of any moment since its launch. -/
def descFor (s : State) (ctx task t va : Nat) : Desc :=
  match taskOf s task, translate s ctx va false with
  | some k, .ok (sp, a) =>
    if leasesLod k.tr va && decide (k.born < lastStore s.hist s.hist.length (.bytes sp a 128)) then mixedDesc s sp a k.born t
    else descAt s ctx va
  | _, _ => descAt s ctx va

/-- The descriptor is valid (R196). DESIGN CHOICE: an ESIZE above 4, which R194 does not give and R196 does not list, makes it
invalid. -/
def descValid (d : Desc) : Bool :=
  let ls := (List.range (descFloor d + 1)).map (levelOf d)
  let spans := ls.map fun l => (l.pgoff, l.pgoff + levelPn d l)
  decide (descEsize d + descTwl d ≤ 16) && decide (descEsize d ≤ 4) && bits d 15 1 == 0 &&
    decide (descMap d < 2 ^ 51) && decide (descBase d < 2 ^ 51) &&
    (List.range spans.length).all fun i => (List.range i).all fun j =>
      match spans[i]?, spans[j]? with
      | some a, some b => decide (a.2 ≤ b.1) || decide (b.2 ≤ a.1)
      | _, _ => true

/-- What a walk finds. -/
structure Walk where
  level : Nat
  want : Nat
  status : Nat
  x : Nat
  y : Nat
  addr : Nat
  /-- page of level WANT, for the feedback entry -/
  page : Nat
  rid : Nat
  esize : Nat
  /-- addresses of the residency bytes read, with the bits -/
  looks : List (Nat × Bool)
  deriving DecidableEq, Repr

/-- Coordinates at a level (R199). -/
def atLevel (d : Desc) (base l x y : Nat) : Nat × Nat :=
  let e := levelOf d l
  let sh := if descMip d then l - base else 0
  (min (x / 2 ^ sh) (e.w - 1), min (y / 2 ^ sh) (e.h - 1))

/-- The first level at or above `l` whose page is resident, the floor at the latest; `n` bounds the levels left. -/
def findLevel (s : State) (ctx : Nat) (d : Desc) (base x y : Nat) : Nat → Nat → Nat
  | 0, l => l
  | n + 1, l =>
    let c := atLevel d base l x y
    if l ≥ descFloor d ∨ mapBit s ctx d (levelOf d l) (pageIn d (levelOf d l) c.1 c.2) then l
    else findLevel s ctx d base x y n (l + 1)

/-- The fallback walk of R199 for a task's thread. -/
def walkLod (s : State) (ctx task t : Nat) (r : Rec) (lvl x y : Nat) : Walk :=
  let d := descFor s ctx task t (recBase r)
  let f := descFloor d
  let base := min lvl f
  let want := max base (min (recLclamp r) f)
  let l := findLevel s ctx d base x y 16 want
  let c := atLevel d base l x y
  let e := levelOf d l
  let res := mapBit s ctx d e (pageIn d e c.1 c.2)
  let w := atLevel d base want x y
  ⟨l, want, if l = f && !res then 15 else min (l - want) 14, c.1, c.2, elemAddr d e c.1 c.2,
    pageIn d (levelOf d want) w.1 w.2, descRid d, descEsize d,
    (List.range (l + 1 - want)).map fun i =>
      let k := levelOf d (want + i)
      let p := atLevel d base (want + i) x y
      (mapByteVa d (k.pgoff + pageIn d k p.1 p.2), mapBit s ctx d k (pageIn d k p.1 p.2))⟩

/-- A read on path L, and the read of a descriptor. -/
def lEv (s : State) (ctx : Nat) (who : Who) (va n : Nat) (acq : Option Scope) : List HEv :=
  match translate s ctx va false with
  | .ok (sp, a) => [.access { accRd who .L (.bytes sp a n) with acq := acq }]
  | .error _ => []
def descEv (s : State) (ctx : Nat) (who : Who) (va : Nat) : List HEv := lEv s ctx who va 128 none

/-- The accesses of a walk on path L: the descriptor, then each residency bit, an acquire at `sys` when it is set (R200). -/
def walkEvs (s : State) (ctx : Nat) (who : Who) (r : Rec) (w : Walk) : List HEv :=
  descEv s ctx who (recBase r) ++ w.looks.flatMap fun k => lEv s ctx who k.1 1 (if k.2 then some .sys else none)

/-- The residency map or range a task's lease covers holds an address (R198, R370). -/
def mapLeased (s : State) (ctx : Nat) (tr : TRec) (va : Nat) : Bool :=
  (ranges tr).any fun r =>
    if r.lod then
      let d := descAt s ctx r.base
      let f := levelOf d (descFloor d)
      decide (descMap d ≤ va) && decide (va ≤ mapByteVa d (f.pgoff + levelPn d f - 1))
    else decide (r.base ≤ va) && decide (va < r.base + r.len)

def walkWord (w : Walk) (pois : Bool) : Nat := (if pois then 4096 else 0) + w.want * 256 + w.level * 16 + w.status

/-- The served block carries POISON. -/
def lodPoison (s : State) (ctx va : Nat) : Bool :=
  match translate s ctx va false with
  | .ok (sp, a) => poisoned s sp a 1
  | .error _ => false

/-- Entries of one instruction with equal (RID, WANT, PAGE) become one, at the lowest thread (R204). DESIGN CHOICE: the one keeps
the SERVED of that thread, where the threads were served at different levels; the rule does not say. -/
def combineFb : List Feedback → List Feedback
  | [] => []
  | e :: r => e :: (combineFb r).filter fun o => !(o.rid == e.rid && o.want == e.want && o.page == e.page)

/-- Control block of a context's feedback ring: its VA and its 64 bytes, when the ring is enabled (R202). DESIGN CHOICE: an FBCTL
or ENTRIES that is no multiple of 64 is used as it stands, and the bytes that must be zero are not looked at; the rule names no
effect for either. -/
def fbRing (s : State) (ctx : Nat) : Option (Nat × Nat) :=
  let va := (ctxOf s ctx).fbctl.toNat
  if va = 0 then none
  else
    let h := (devReadN s ctx va 64).getD 0
    let l := fieldAt h 8 1
    if 4 ≤ l ∧ l ≤ 15 then some (va, h) else none

/-- Entries on their way to the ring; a disabled ring takes none (R202). -/
def pushFeedback (s : State) (ctx : Nat) (es : List Feedback) : State :=
  if es.isEmpty ∨ (fbRing s ctx).isNone then s else modCtx s ctx fun c => { c with feedback := c.feedback ++ combineFb es }

/-- The entry of a fallback (R203, R204). -/
def walkFb (s : State) (w : Walk) (src : Nat) : List Feedback :=
  if w.status = 0 then [] else [⟨w.page, w.rid, w.want, w.level, src, s.time⟩]

end Sys2Proof.Machine
end

