-- ==== Sys2Proof/Machine/SyncOps.lean ====
section
/-! DEFINITION. Barrier objects, arrival words and relay queue headers where they stand (R226-R245). -/

namespace Sys2Proof.Machine

/-! ### Objects named by the BASE of a record (R227, R237) -/

/-- The object of `n` bytes, aligned to `n`, at BASE: record checks, bound, alignment, WR, then lease or footprint (R162). -/
def locate (s : State) (x : Iss) (r : Rec) (n : Nat) (spaces : List Nat) (needWr wr fwd : Bool) : Except FaultInfo AwLoc :=
  let bad (e : Err) (a : Nat) : Except FaultInfo AwLoc := .error { mkFault e.1 e.2 x.act x.path with addr := a }
  match recCheck r [0] spaces with
  | some e => bad e 0
  | none =>
    if recExt0 r * recE r < n then bad (0x04, 0x01) (recBase r)
    else if recBase r % n ≠ 0 then bad (0x03, 0x01) (recBase r)
    else if needWr && !recWr r then bad (eACCESS 0x06) (recBase r)
    else
      match placeRec s x.q r (targetCore x.q r) fwd (recBase r) n wr with
      | .ok (sp, a) => .ok ⟨sp, a⟩
      | .error e => .error { mkFault e.1 e.2 x.act x.path with addr := recBase r, park := e.1 == 0x06 && e.2 != 4 }

/-- The place's device does not answer (R410). -/
def locDown (s : State) (l : AwLoc) : Bool := spaceDown s l.sp

/-! ### Objects of saved tasks (R233, R378) -/

/-- Offsets in a save area (R378). -/
def squadArea (tr : TRec) : Nat := 8192 + 1024 * tr.regs
def footOff (tr : TRec) : Nat := 64 + tr.nsquad * squadArea tr

/-- The number by which the places of a task's footprint go: its core, or, while it is saved, one that no core has. -/
def homeCore (tid : Nat) (t : Task) : Nat := if t.saved then 1024 + tid else t.core

/-- Where the footprint byte at `a` of a saved task stands: context and VA in its save area. -/
def savedAt (s : State) (c a : Nat) : Option (Nat × Nat) :=
  if c < 1024 then none
  else (taskOf s (c - 1024)).bind fun t => if t.saved then some (t.ctx, t.tr.save + footOff t.tr + (a - t.base)) else none

/-- Where an object stands now, when its task is saved. -/
def areaOf (s : State) (l : AwLoc) : Option (Nat × Nat) :=
  match l.sp with
  | .scr c => savedAt s c l.addr
  | _ => none

/-- The word of `n` bytes of a barrier object or an arrival word. DEDUCED: while its task is saved it is read and updated in the
footprint image of the save area, so that a resumed squad sees what happened meanwhile (R233). -/
def objWord (s : State) (l : AwLoc) (n : Nat) : Nat :=
  match areaOf s l with
  | some p => (devReadN s p.1 p.2 n).getD 0
  | none => rdN s l.sp l.addr n
def putObj (s : State) (l : AwLoc) (n w : Nat) : State :=
  match areaOf s l with
  | some p => devWriteN s p.1 p.2 n w
  | none => wrN s l.sp l.addr n w

/-! ### Barrier objects -/

def barWord (s : State) (l : AwLoc) : Nat := objWord s l 32
def barPvalid (w : Nat) : Bool := w.testBit 255
def barCount (w : Nat) : Nat := bits w 191 176
def barPcount (w : Nat) : Nat := bits w 175 160
def barArrived (w : Nat) : Nat := bits w 159 144
def barPhase (w : Nat) : Nat := bits w 127 96
def barLevel (w : Nat) : Nat := bits w 95 93
def barState (w : Nat) : Nat := bits w 87 86

/-- Replace bits hi..lo of a number. -/
def setBits (w hi lo x : Nat) : Nat := w - bits w hi lo * 2 ^ lo + x % 2 ^ (hi - lo + 1) * 2 ^ lo

def putBar (s : State) (l : AwLoc) (w : Nat) : State := putObj s l 32 w
def setState (s : State) (l : AwLoc) (st : Nat) : State := putBar s l (setBits (barWord s l) 87 86 st)

/-- What the device holds of an object, by its place. -/
def barKey (l : AwLoc) : Nat :=
  match l.sp with
  | .mem => l.addr
  | .scr c => scrKey c l.addr
  | .peer d => peerKey (d + 1) l.addr
def barDev (s : State) (l : AwLoc) : BarDev :=
  (match l.sp with | .scr _ => aget s.barsScr (barKey l) | _ => aget s.bars (barKey l)).getD ⟨0, none, [], [], []⟩
def putBarDev (s : State) (l : AwLoc) (b : BarDev) : State :=
  match l.sp with
  | .scr _ => { s with barsScr := aput s.barsScr (barKey l) b }
  | _ => { s with bars := aput s.bars (barKey l) b }

/-- The instance of a scope level that holds a lane of a core (R10). -/
def instAt (core lane level : Nat) : Nat :=
  match level with
  | 0 => core * 32 + lane
  | 1 => core
  | 2 => core / 4
  | 3 => core / 128
  | _ => 0

/-- The instance of a scope level that holds a squad. -/
def instOf (q : Squad) (level : Nat) : Nat := instAt q.core q.lane level

def scopeNo : Scope → Nat
  | .lane => 0 | .core => 1 | .quad => 2 | .die => 3 | .pkg => 4 | .pod => 5 | .sys => 6
def scopeOf (n : Nat) : Scope :=
  match n with
  | 0 => .lane | 1 => .core | 2 => .quad | 3 => .die | 4 => .pkg | 5 => .pod | _ => .sys

/-- LEVEL of the root of an object's tree (R231). -/
def rootLevel (s : State) : Nat → AwLoc → Nat
  | 0, l => barLevel (barWord s l)
  | n + 1, l =>
    match (barDev s l).parent with
    | some p => rootLevel s n p
    | none => barLevel (barWord s l)

/-- The object's phase flips, and with it every child that arrived in this phase (R229); the record keeps the LEVEL of the
root and the arrivals that led to the flip (R231). -/
def flipBar (level : Scope) (arrs : List Nat) : Nat → AwLoc → State → State
  | 0, _, s => s
  | n + 1, l, s =>
    let w := barWord s l
    let d := barDev s l
    let s := putBar s l (setBits (setBits (setBits w 127 96 (barPhase w + 1)) 159 144 0) 87 86 1)
    let s := logEv (putBarDev s l { d with kids := [], arrivers := [], arrs := [] }) (.flip l (barPhase w) level arrs)
    d.kids.foldl (fun s k => flipBar level arrs n k s) s

/-- Every object from here to the root is broken (R233). -/
def breakBar : Nat → AwLoc → State → State
  | 0, _, s => s
  | n + 1, l, s =>
    let d := barDev s l
    let s := putBarDev (setState s l 3) l { d with arrivers := [], arrs := [] }
    match d.parent with
    | some p => breakBar n p s
    | none => s

/-- The place that a key of `bars` or `barsScr` stands for. -/
def locOfKey (scr : Bool) (k : Nat) : AwLoc :=
  if scr then ⟨.scr (k / 2 ^ 20), k % 2 ^ 20⟩
  else if k < 2 ^ 40 then ⟨.mem, k⟩ else ⟨.peer (k / 2 ^ 40 - 1), k % 2 ^ 40⟩

/-- The kill of a task breaks the objects of its counted arrivals (R233). -/
def breakTask (s : State) (task : Nat) : State :=
  let hit (e : Nat × BarDev) : Bool := e.2.arrivers.contains task
  let ls := (s.bars.filter hit).map (fun e => locOfKey false e.1) ++ (s.barsScr.filter hit).map (fun e => locOfKey true e.1)
  ls.foldl (fun s l => breakBar 8 l s) { s with arrivals := s.arrivals.filter fun a => a.task ≠ task || a.child.isSome }

/-- A barrier fault of the squad that an arrival answers for; a squad that has ended takes no trap, and its task is killed. -/
def arrivalFault (s : State) (a : Arrival) (sub : Nat) : State :=
  if (squadOf s a.squad).isNone then
    requestKill s a.task ⟨0x0D, sub, a.core, a.idx, lowestD a.mask, pcCode a.pc, 0, s.time, true⟩
  else
    let s := match a.pend with
      | some p => modSquad s a.squad fun q => { q with pend := q.pend.filter fun e => e.id ≠ p }
      | none => if a.child.isNone then modSquad s a.squad fun q => { q with wait := none } else s
    raiseFault s a.squad
      { mkFaultAt (0x0D, sub) a.mask 0 with late := some (a.entry, a.pc) }

/-- The token of an arrival reaches its squad. -/
def giveToken (s : State) (a : Arrival) (tok : Nat) : State :=
  if a.child.isSome then s
  else
    match a.pend with
    | some p => modSquad s a.squad fun q => { q with pend := q.pend.map fun e =>
        if e.id = p then { e with ready := true, ws := e.ws.map fun w => match w with
          | .s r _ => .s r (BitVec.ofNat 64 tok)
          | w => w } else e }
    | none => modSquad s a.squad fun q => { q with wait := some (.bar (BitVec.ofNat 32 tok)) }

/-- An arrival at an object in state 01 or 11 (R229). -/
def arrive (s : State) (a : Arrival) : State :=
  let w := barWord s a.obj
  let d := barDev s a.obj
  if barState w = 3 then arrivalFault s a 7
  else if a.count ≠ barCount w then arrivalFault s a 1
  else if (match a.child with | some c => decide (barLevel w ≤ barLevel (barWord s c)) | none => false) then arrivalFault s a 5
  else
    let inst := match squadOf s a.squad with
      | some q => instOf q (barLevel w)
      | none => instAt a.core a.lane (barLevel w)
    if inst ≠ d.inst then arrivalFault s a 4
    else
      let n := barArrived w + 1
      let s := giveToken s a (barPhase w)
      let arrs := d.arrs ++ match a.child with | some c => (barDev s c).arrs | none => [a.id]
      let s := putBarDev s a.obj { d with kids := d.kids ++ a.child.toList, arrivers := d.arrivers ++ [a.task], arrs := arrs }
      let w := setBits w 159 144 n
      if n ≠ barCount w then putBar s a.obj w
      else if barPvalid w then
        let s := putBar s a.obj (setBits w 87 86 2)
        match d.parent with
        | some p => { s with arrivals := s.arrivals ++ [{ a with obj := p, count := barPcount w, child := some a.obj, pend := none }] }
        | none => s
      else flipBar (scopeOf (barLevel w)) arrs 8 a.obj (putBar s a.obj w)

/-- The phase has passed a token, or the token lies ahead (R230). -/
def passed (phase tok : Nat) : Bool := let d := (phase + 2 ^ 32 - tok % 2 ^ 32) % 2 ^ 32; decide (1 ≤ d ∧ d < 2 ^ 31)

/-! ### Arrival words (R235, R236) -/

def awWord (s : State) (l : AwLoc) : Nat := objWord s l 16
def putAw (s : State) (l : AwLoc) (w : Nat) : State := putObj s l 16 w
def awFault (w : Nat) : Nat := bits w 127 120
def awGen (w : Nat) : Nat := bits w 95 64

/-- count(w, n, l). -/
def awCounted (w n lod : Nat) : Nat :=
  let target := bits w 31 0
  let c := bits w 63 32 + n
  let w := setBits w 107 104 (max (bits w 107 104) lod)
  if target = 0 then
    setBits (if c ≥ 2 ^ 32 then setBits w 96 96 1 else w) 63 32 (min c (2 ^ 32 - 1))
  else
    let w := if c > target then setBits w 96 96 1 else w
    setBits (setBits w 95 64 (bits w 95 64 + c / target)) 63 32 (c % target)

/-- fault(w, code, sub). -/
def awFaulted (w code sub : Nat) : Nat := if awFault w = 0 then setBits (setBits w 127 120 code) 119 112 sub else w

/-- Count `n` bytes at a word: an indivisible update on path `p`, and a release of the paths in `mask` (R239, R351, R367). -/
def awCount (s : State) (who : Who) (p : APath) (mask : Nat) (sc : Scope) (l : AwLoc) (n lod : Nat) : State :=
  let w := awCounted (awWord s l) n lod
  logEvs (putAw s l w) [.release who mask sc (.count l (decide (awGen w ≠ awGen (awWord s l)))),
    .access { accPut s who p l.sp l.addr 16 with rd := true, rel := some sc }]
def awPutFault (s : State) (l : AwLoc) (code sub : Nat) : State := putAw s l (awFaulted (awWord s l) code sub)

/-! ### Relay queue headers (R240) -/

def qWord (s : State) (l : AwLoc) : Nat := rdN s l.sp l.addr 64
def putQ (s : State) (l : AwLoc) (w : Nat) : State := wrN s l.sp l.addr 64 w
def qAllow (w : Nat) : Nat := bits w 319 288
def qPushed (w : Nat) : Nat := bits w 287 256
def qPopped (w : Nat) : Nat := bits w 255 224
def qMagic (w : Nat) : Nat := bits w 39 32

/-- An initialised queue: MAGIC stands in the header, and the device holds the queue (R240, R242). -/
def queueAt (s : State) (l : AwLoc) : Option QueueDev :=
  if qMagic (qWord s l) = 0x51 then aget s.queues (barKey l) else none
def putQueue (s : State) (l : AwLoc) (q : QueueDev) : State := { s with queues := aput s.queues (barKey l) q }
/-- Where entry `i` of a queue stands. -/
def qEntry (l : AwLoc) (q : QueueDev) (i : Nat) : Nat := l.addr + 64 + 4 * (i % 2 ^ q.log2n)

/-- Blocked pushers and poppers of a queue, in order (R242). -/
def qKey (l : AwLoc) : Nat := barKey l
def qLists (s : State) (l : AwLoc) : List Nat × List Nat := (aget s.qWaits (qKey l)).getD ([], [])
def putLists (s : State) (l : AwLoc) (x : List Nat × List Nat) : State :=
  { s with qWaits := if x = ([], []) then adel s.qWaits (qKey l) else aput s.qWaits (qKey l) x }

end Sys2Proof.Machine
end

