-- ==== Sys2Proof/Machine/SlotOps.lean ====
section
/-! DEFINITION. Operand slots, sidecars, extents, accumulator tiles and the matrix queue as stored (R272-R279, R283, R284). -/

namespace Sys2Proof.Machine

/-! ### Slots (R272-R276) -/

/-- The physical slot of a name of a task. -/
def physSlot (t : Task) (name : Nat) : Nat := nthN t.slots name
def slotKey (core slot : Nat) : Nat := core * 64 + slot

def rdSlot (s : State) (core slot off : Nat) : Byte := tget 0 s.slotMem (slotKey core slot * 8192 + off)
def wrSlot (s : State) (core slot off : Nat) (x : Byte) : State :=
  { s with slotMem := tset 0 s.slotMem (slotKey core slot * 8192 + off) x }
def rdSide (s : State) (core slot off : Nat) : Byte := tget 0 s.sidecar (slotKey core slot * 2336 + off)
def wrSide (s : State) (core slot off : Nat) (x : Byte) : State :=
  { s with sidecar := tset 0 s.sidecar (slotKey core slot * 2336 + off) x }

def wrSlotBytes (s : State) (core slot : Nat) : Nat → List Byte → State
  | _, [] => s
  | off, b :: r => wrSlotBytes (wrSlot s core slot off b) core slot (off + 1) r
def wrSideBytes (s : State) (core slot : Nat) : Nat → List Byte → State
  | _, [] => s
  | off, b :: r => wrSideBytes (wrSide s core slot off b) core slot (off + 1) r

/-- Descriptor of block `b` of a slot. -/
def slotTag (s : State) (core slot b : Nat) : Nat :=
  (rdSide s core slot (2 * b)).toNat + 256 * (rdSide s core slot (2 * b + 1)).toNat
def putSlotTag (s : State) (core slot b x : Nat) : State := wrSideBytes s core slot (2 * b) (leBytes 2 x)
/-- Codebook entry `i`. -/
def slotBook (s : State) (core slot i : Nat) : Nat :=
  (rdSide s core slot (256 + 2 * i)).toNat + 256 * (rdSide s core slot (257 + 2 * i)).toNat
/-- Zero-bitmap bit of position (r, k). -/
def slotBit (s : State) (core slot r k : Nat) : Bool :=
  (rdSide s core slot (288 + (r * 256 + k) / 8)).getLsbD ((r * 256 + k) % 8)

/-- ROWS and KEL; 64 and 256 after a claim. -/
def extOf (s : State) (core slot : Nat) : Nat × Nat := tget (64, 256) s.ext (slotKey core slot)
def setExt (s : State) (core slot : Nat) (e : Nat × Nat) : State := { s with ext := tset (64, 256) s.ext (slotKey core slot) e }

/-- Remove the entries of a store whose keys lie in [lo, lo + n). -/
def clearKeys {α : Type} (m : Tbl α) (lo n : Nat) : Tbl α := m.filter fun e => decide (e.1 < lo) || decide (lo + n ≤ e.1)

/-- A claim resets the sidecar and the extents. -/
def resetSide (s : State) (core slot : Nat) : State :=
  setExt { s with sidecar := clearKeys s.sidecar (slotKey core slot * 2336) 2336 } core slot (64, 256)
/-- The state of R276. -/
def scrubSlot (s : State) (core slot : Nat) : State :=
  resetSide { s with slotMem := clearKeys s.slotMem (slotKey core slot * 8192) 8192 } core slot

/-! ### Accumulator tiles (R277, R278) -/

def accKey (core row col : Nat) : Nat := core * 131072 + row * 64 + col
def rdAcc (s : State) (core row col : Nat) : Nat := (tget 0 s.acc (accKey core row col)).toNat
def wrAcc (s : State) (core row col x : Nat) : State :=
  { s with acc := tset 0 s.acc (accKey core row col) (BitVec.ofNat 32 x) }
def rdAccFlg (s : State) (core tile : Nat) : BitVec 5 := tget 0 s.accFlg (core * 32 + tile)
def orAccFlg (s : State) (core tile f : Nat) : State :=
  { s with accFlg := tset 0 s.accFlg (core * 32 + tile) (rdAccFlg s core tile ||| BitVec.ofNat 5 f) }
def clrAccFlg (s : State) (core tile : Nat) : State := { s with accFlg := tset 0 s.accFlg (core * 32 + tile) 0 }
/-- Every element +0. -/
def zeroTile (s : State) (core tile : Nat) : State := { s with acc := clearKeys s.acc (accKey core (64 * tile) 0) 4096 }
def scrubTile (s : State) (core tile : Nat) : State := clrAccFlg (zeroTile s core tile) core tile
/-- The 4,096 words of a tile in row-major order. -/
def tileWords (s : State) (core tile : Nat) : List Nat := (List.range 4096).map fun i => rdAcc s core (64 * tile + i / 64) (i % 64)
def putTile (s : State) (core tile : Nat) (ws : List Nat) : State :=
  ws.zipIdx.foldl (fun s e => wrAcc s core (64 * tile + e.2 / 64) (e.2 % 64) e.1) s

/-! ### The matrix queue (R279) -/

def queueOf (s : State) (core : Nat) : List MCmd := (aget s.matQueue core).getD []
def inboxOf (s : State) (core : Nat) : List MCmd := (aget s.matInbox core).getD []
def setQueue (s : State) (core : Nat) (l : List MCmd) : State :=
  { s with matQueue := if l.isEmpty then adel s.matQueue core else aput s.matQueue core l }
def setInbox (s : State) (core : Nat) (l : List MCmd) : State :=
  { s with matInbox := if l.isEmpty then adel s.matInbox core else aput s.matInbox core l }

/-- The command reads slot `name` of its task. -/
def readsSlot (c : MCmd) (task name : Nat) : Bool :=
  match c.kind with
  | .mma _ _ a b => c.task == task && (a == name || b == name)
  | _ => false

/-- Serials of the queued commands that still have to fetch a slot (R254, R283). -/
def pendingReaders (s : State) (core task name : Nat) : List Nat :=
  ((queueOf s core).filter fun c => readsSlot c task name && !c.fetched).map (·.serial)

/-- None of these commands still has to fetch. -/
def allFetched (s : State) (core : Nat) (serials : List Nat) : Bool :=
  (queueOf s core).all fun c => c.fetched || !serials.contains c.serial

/-- Copy commands in flight into a slot (R283). -/
def fillsOf (s : State) (task name : Nat) : List Nat :=
  (s.copies.filter fun c => c.task == task && c.node.isNone && c.dslot == some name).map (·.id)

/-- The command writes tile `t` of its task (R284); GMV the rows of its capacity. -/
def writesTile (k : MKind) (t : Nat) : Bool :=
  match k with
  | .mma _ d _ _ => d == t
  | .zero _ d => d == t
  | .accLd d _ => d == t
  | .drain _ _ _ clr _ a => clr && a == t
  | .accSt .. => false
  | .gmv _ _ _ cw =>
    let base := bits cw.toNat 10 0
    decide (base / 64 ≤ t) && decide (t ≤ (base + bits cw.toNat 23 12 - 1) / 64)

end Sys2Proof.Machine
end

