-- ==== Sys2Proof/Machine/CopyEngine.lean ====
section
/-! DEFINITION. The copy engines: chunks, fills, gathers, LOD rectangles, packed streams, overlay loads and their faults
(R247-R269). -/

namespace Sys2Proof.Machine

def copyOf (s : State) (id : Nat) : Option Copy := s.copies.find? fun c => c.id == id
def modCopy (s : State) (id : Nat) (f : Copy → Copy) : State :=
  { s with copies := s.copies.map fun c => if c.id = id then f c else c }

/-- The engine as it performs a command. -/
def copyWho (s : State) (c : Copy) : Who := whoCmd s (.copy c.die c.eng) c.id c.task c.node c.die none

/-- A command leaves the engines; the walk of a CPYL is over, and what it read is released below the next epoch (R210). -/
def dropCopy (s : State) (id : Nat) : State :=
  let s' := { s with copies := s.copies.filter fun c => c.id ≠ id }
  match (copyOf s id).bind fun c => c.epoch.map fun e => (c, e) with
  | some (c, e) => logEv s' (.release (copyWho s c) 18 .sys (.lodep c.ctx (e + 1)))
  | none => s'

/-- The task record that an engine command's accesses are leased under; none for a node without squads (R368). -/
def ownerTr (s : State) (task : Nat) (node : Option Nat) : Option TRec :=
  match node with
  | some _ => none
  | none => some (((taskOf s task).map (·.tr)).getD trReset)

/-- A command has waited 20 us for a device (R410). -/
def waitedOut (s : State) (id : Nat) : Bool := (aget s.engWaits id).any fun t => decide (t + 20000 ≤ s.time)
/-- What an access of an engine command meets at a device that does not answer: nothing yet, ACCESS 0x07 after 20 us, though the
device should answer by then (R410). -/
def eAgain : Err := (0, 0)
def noAnswer (s : State) (id : Nat) (sp : Space) : Option Err :=
  match sp with
  | .peer d => if waitedOut s id then some (eACCESS 7) else if unreachable s d then some eAgain else none
  | _ => none
/-- A command begins to wait for a device, or waits no more. -/
def waitPeer (s : State) (id : Nat) : State :=
  if (aget s.engWaits id).isSome then s else { s with engWaits := aput s.engWaits id s.time }
def peerDone (s : State) (id : Nat) : State := { s with engWaits := adel s.engWaits id }

/-- Where an engine access is performed. -/
def engPlace (s : State) (c : Copy) (r : Rec) (va n : Nat) (wr : Bool) : Except (Err × Nat) (Space × Nat) :=
  match placeAt s c.ctx (ownerTr s c.task c.node) r (c.die * 128 + recTarget r) wr va n wr with
  | .ok p => match noAnswer s c.id p.1 with | some e => .error (e, va) | none => .ok p
  | .error e => .error (e, va)

/-- Physical slot of the destination. -/
def copySlot (s : State) (c : Copy) : Option Nat :=
  c.dslot.bind fun n => (taskOf s c.task).map fun t => physSlot t n

/-! ### Source blocks -/

/-- A destination piece: offset in the destination region, bytes, descriptor. -/
abbrev Piece := Nat × List Byte × Nat

def okOr {α β : Type} (f : α → Except (Err × Nat) β) : List α → Except (Err × Nat) (List β)
  | [] => .ok []
  | a :: r =>
    match f a with
    | .error e => .error e
    | .ok b => (okOr f r).map (b :: ·)

/-- What a command reads on path C: a load like others, that need not see a store which nothing orders before it (R181). -/
def copyLook (s : State) (c : Copy) (p : Space × Nat) (n : Nat) : List Byte := lookBytes s (copyWho s c) .C p.1 p.2 n

/-- A source block with its descriptor, for destination offset `off`. -/
def srcBlock (s : State) (c : Copy) (va n off : Nat) : Except (Err × Nat) Piece :=
  (engPlace s c c.srec va n false).map fun p => (off, copyLook s c p n, (rdTag s p.1 (p.2 / 64)).toNat)

/-- A block of a gathered row (R259). -/
def gatherBlock (s : State) (c : Copy) (off : Nat) : Except (Err × Nat) Piece :=
  let row := recExt0 c.srec * recE c.srec
  let j := off / row
  let va := recBase c.irec + 4 * j
  match engPlace s c c.irec va 4 false with
  | .error e => .error e
  | .ok p =>
    let i := leVal (copyLook s c p 4)
    if i < recExt1 c.srec then srcBlock s c (recBase c.srec + i * recStride c.srec + off % row) 64 off
    else if recBmode c.srec then .ok (off, List.replicate 64 0, 0)
    else .error ((0x04, 0x01), recBase c.srec + i * recStride c.srec)

/-- The rectangle of CPYL: row bytes and rows (R260). -/
def lodRect (c : Copy) : Nat × Nat :=
  match c.dslot with
  | some _ => (128, 64)
  | none => (recExt0 c.drec * recE c.drec, if rec2d c.drec then recExt1 c.drec else 1)

def lodX0 (c : Copy) : Nat := bits c.param.toNat 15 0
def lodY0 (c : Copy) : Nat := bits c.param.toNat 31 16
def lodLvl (c : Copy) : Nat := bits c.param.toNat 35 32

/-- Pages that the rectangle touches at level `l`. -/
def rectPages (d : Desc) (c : Copy) (base l : Nat) : List Nat :=
  let e := levelOf d l
  let sh := if descMip d then l - base else 0
  let (rb, h) := lodRect c
  let w := rb / descE d
  let x0 := lodX0 c / 2 ^ sh
  let y0 := lodY0 c / 2 ^ sh
  let cx (i : Nat) : Nat := min (x0 + i) (e.w - 1) / descTw d
  let cy (j : Nat) : Nat := min (y0 + j) (e.h - 1) / descTh d
  (List.range (cy (h - 1) + 1 - cy 0)).flatMap fun j =>
    (List.range (cx (w - 1) + 1 - cx 0)).map fun i => (cy 0 + j) * levelPw d e + (cx 0 + i)

def rectResident (s : State) (ctx : Nat) (d : Desc) (c : Copy) (base l : Nat) : Bool :=
  (rectPages d c base l).all fun p => mapBit s ctx d (levelOf d l) p

def findRect (s : State) (ctx : Nat) (d : Desc) (c : Copy) (base : Nat) : Nat → Nat → Nat
  | 0, l => l
  | n + 1, l => if l ≥ descFloor d ∨ rectResident s ctx d c base l then l else findRect s ctx d c base n (l + 1)

/-- The descriptor that a CPYL takes. -/
def rectDesc (s : State) (c : Copy) : Desc := descFor s c.ctx c.task 0 (recBase c.srec)

/-- The walk of CPYL: level, status, and the feedback of the pages of WANT that are not resident (R260). -/
def rectWalk (s : State) (c : Copy) : Nat × Nat × List Feedback :=
  let d := rectDesc s c
  let f := descFloor d
  let base := min (lodLvl c) f
  let want := max base (min (recLclamp c.srec) f)
  let l := findRect s c.ctx d c base 16 want
  let st := if l = f && !rectResident s c.ctx d c base l then 15 else min (l - want) 14
  let fb := if st = 0 then [] else
    ((rectPages d c base want).filter fun p => !mapBit s c.ctx d (levelOf d want) p).map fun p =>
      (⟨p, descRid d, want, l, 1, s.time⟩ : Feedback)
  (l, st, fb)

/-- The accesses of that walk on path L: the descriptor, and the residency bits from WANT to the level served, each set one
an acquire at `sys` (R200, R260). -/
def rectEvs (s : State) (c : Copy) (who : Who) (l : Nat) : List HEv :=
  let d := rectDesc s c
  let base := min (lodLvl c) (descFloor d)
  let want := max base (min (recLclamp c.srec) (descFloor d))
  descEv s c.ctx who (recBase c.srec) ++ (List.range (l + 1 - want)).flatMap fun i =>
    let lv := levelOf d (want + i)
    (rectPages d c base (want + i)).flatMap fun p =>
      lEv s c.ctx who (mapByteVa d (lv.pgoff + p)) 1 (if mapBit s c.ctx d lv p then some .sys else none)

/-- The address of the element at destination byte `o` of the rectangle, at the level served. -/
def lodVa (s : State) (c : Copy) (l o : Nat) : Nat :=
  let d := rectDesc s c
  let lv := levelOf d l
  let sh := if descMip d then l - min (lodLvl c) (descFloor d) else 0
  let rb := (lodRect c).1
  elemAddr d lv (min (lodX0 c / 2 ^ sh + o % rb / descE d) (lv.w - 1)) (min (lodY0 c / 2 ^ sh + o / rb) (lv.h - 1))

/-- A block of the LOD rectangle: its elements, and the descriptor of the source block of the first one. -/
def lodBlock (s : State) (c : Copy) (off : Nat) : Piece :=
  let e := descE (rectDesc s c)
  let (l, st) := c.walk.getD (0, 15)
  if st = 15 then (off, List.replicate 64 0, 0)
  else
    let tag := match translate s c.ctx (lodVa s c l off) false with
      | .ok p => (rdTag s p.1 (p.2 / 64)).toNat
      | .error _ => 0
    (off, (List.range (64 / e)).flatMap fun i =>
      (match translate s c.ctx (lodVa s c l (off + i * e)) false with
       | .ok p => copyLook s c p e
       | .error _ => List.replicate e 0), tag)

/-- The 32 codebook bytes or the bitmap bytes from region byte `off`, where the record's rows put them (R249, R258). -/
def rowPiece (s : State) (c : Copy) (off : Nat) : Except (Err × Nat) Piece :=
  (okOr (fun i => (engPlace s c c.srec (regionAddr c.srec (off + i)) 1 false).map fun p => copyLook s c p 1)
    (List.range 32)).map fun bs => (off, bs.flatten, 0)

/-- The pieces of destination bytes [lo, lo + n). -/
def chunkPieces (s : State) (c : Copy) (lo n : Nat) : Except (Err × Nat) (List Piece) :=
  if c.major = 0x93 ∧ c.xf ≠ 0 then okOr (fun i => rowPiece s c (32 * i)) (List.range (n / 32))
  else
    okOr (fun i =>
      let off := lo + 64 * i
      if c.major = 0x91 then gatherBlock s c off
      else if c.major = 0x94 then .ok (lodBlock s c off)
      else srcBlock s c (regionAddr c.srec off) 64 off) (List.range (ceilDiv n 64))

/-! ### Destination -/

/-- The XV that an F4 fill leaves in codebook entry 0 (R54, R253); a LOD record has no XV field, and the value is open. -/
def fillXv (s : State) (c : Copy) : Nat := if recKind c.srec = 1 then Config.openValue 1 s.ctr % 65536 else recXv c.srec

/-- Write one piece at its destination: slot, sidecar part, or region. -/
def putPiece (s : State) (c : Copy) (p : Piece) : Except (Err × Nat) State :=
  match copySlot s c with
  | some sl =>
    if c.major = 0x93 ∧ c.xf = 1 then .ok (wrSideBytes s c.core sl (256 + p.1) p.2.1)
    else if c.major = 0x93 ∧ c.xf = 2 then .ok (wrSideBytes s c.core sl (288 + p.1) p.2.1)
    else
      let s' := putSlotTag (wrSlotBytes s c.core sl p.1 p.2.1) c.core sl (p.1 / 64) p.2.2
      .ok (if p.2.2 % 256 = 0x30 then wrSideBytes s' c.core sl 256 (leBytes 2 (fillXv s c)) else s')
  | none =>
    (engPlace s c c.drec (regionAddr c.drec p.1) p.2.1.length true).map fun q =>
      wrTag (wrBytes s q.1 q.2 p.2.1) q.1 (q.2 / 64) (BitVec.ofNat 16 p.2.2)

def putPieces (c : Copy) : List Piece → State → Except (Err × Nat) State
  | [], s => .ok s
  | p :: r, s =>
    match putPiece s c p with
    | .error e => .error e
    | .ok s => putPieces c r s

/-! ### Progress of a command -/

def chunksOf (c : Copy) : Nat := ceilDiv c.total 4096
def chunkBytes (c : Copy) (j : Nat) : Nat := min 4096 (c.total - 4096 * j)
/-- Chunks below this have started: they start in ascending order (R251). -/
def startedUpTo (c : Copy) : Nat := c.landed.foldl (fun m j => max m (j + 1)) 0
/-- Chunks still to land: all, or after a cancel only the started ones (R263). -/
def remaining (c : Copy) : List Nat :=
  (List.range (if c.cancelled then startedUpTo c else chunksOf c)).filter fun j => !c.landed.contains j

/-- A path-C access of a command, with the descriptors of whole blocks (R173, R252). -/
def copyEv (s : State) (who : Who) (wr blocks : Bool) (sp : Space) (a n : Nat) : List HEv :=
  let d : HLoc := .desc sp (a / 64) 1
  .access (if wr then accPut s who .C sp a n else lookAcc s who .C sp a n) ::
    if blocks then [.access (if wr then accWr who .C d else accRd who .C d)] else []

/-- The accesses of a command to `n` bytes at `va` through a record. -/
def copyEvs (s : State) (c : Copy) (r : Rec) (wr blocks : Bool) (va n : Nat) : List HEv :=
  match engPlace s c r va n wr with
  | .ok p => copyEv s (copyWho s c) wr blocks p.1 p.2 n
  | .error _ => []
/-- Its writes to the blocks of region bytes [lo, lo + n). -/
def regionEvs (s : State) (c : Copy) (r : Rec) (lo n : Nat) : List HEv :=
  (List.range (ceilDiv n 64)).flatMap fun i => copyEvs s c r true true (regionAddr r (lo + 64 * i)) 64

/-- Bytes [o, o + n) cut at multiples of 64: offsets and lengths. -/
def cutBlocks (o n : Nat) : List (Nat × Nat) :=
  if n = 0 then []
  else (List.range ((o + n - 1) / 64 - o / 64 + 1)).map fun i =>
    let lo := max o (64 * (o / 64 + i))
    (lo, min (o + n) (64 * (o / 64 + i) + 64) - lo)

/-- The index and the row block of destination offset `off` of a gather. -/
def gatherEvs (s : State) (c : Copy) (off : Nat) : List HEv :=
  let row := recExt0 c.srec * recE c.srec
  let va := recBase c.irec + 4 * (off / row)
  copyEvs s c c.irec false false va 4 ++
    match engPlace s c c.irec va 4 false with
    | .ok p =>
      let i := leVal (copyLook s c p 4)
      if i < recExt1 c.srec then copyEvs s c c.srec false true (recBase c.srec + i * recStride c.srec + off % row) 64 else []
    | .error _ => []

/-- The data reads of a block of a LOD rectangle: its elements, and the descriptor it takes. -/
def lodBlockEvs (s : State) (c : Copy) (off : Nat) : List HEv :=
  let e := descE (rectDesc s c)
  match c.walk with
  | none | some (_, 15) => []
  | some (l, _) =>
    (match translate s c.ctx (lodVa s c l off) false with
     | .ok p => [.access (accRd (copyWho s c) .C (.desc p.1 (p.2 / 64) 1))]
     | .error _ => []) ++
    (List.range (64 / e)).flatMap fun i =>
      match translate s c.ctx (lodVa s c l (off + i * e)) false with
      | .ok p => copyEv s (copyWho s c) false false p.1 p.2 e
      | .error _ => []

/-- The source reads of destination bytes [lo, lo + n). -/
def sourceEvs (s : State) (c : Copy) (lo n : Nat) : List HEv :=
  if c.major = 0x93 ∧ c.xf ≠ 0 then
    (List.range n).flatMap fun i => copyEvs s c c.srec false false (regionAddr c.srec (lo + i)) 1
  else
    (List.range (ceilDiv n 64)).flatMap fun i =>
      let off := lo + 64 * i
      if c.major = 0x91 then gatherEvs s c off
      else if c.major = 0x94 then lodBlockEvs s c off
      else copyEvs s c c.srec false true (regionAddr c.srec off) 64

/-- The writes of destination bytes [lo, lo + n). -/
def destEvs (s : State) (c : Copy) (lo n : Nat) : List HEv :=
  match copySlot s c with
  | some k => [.access (accWr (copyWho s c) .C (.slot c.core k))]
  | none => regionEvs s c c.drec lo n

/-- Count bytes of a command at its arrival word, or tell it a fault. A node without squads has no record that names a word
(R368), and tells none. -/
def copyCount (s : State) (c : Copy) (n lod : Nat) : State :=
  if c.node.isSome then s else awCount s (copyWho s c) .C 2 .pkg c.aw n lod
def copyTell (s : State) (c : Copy) (e : Err) : State := if c.node.isSome then s else awPutFault s c.aw e.1 e.2

/-- Decrement the trigger of the staged command bound at issue, while that one is pending (R255, R289); the command that fires
sees what the fill wrote. -/
def fireTrigger (s : State) (c : Copy) : State :=
  match c.stv with
  | none => s
  | some (n, serial) =>
    logEv { s with staged := amod s.staged (c.core * 8 + n) fun g => if g.cmd.serial = serial then { g with trig := g.trig - 1 } else g }
      (.release (copyWho s c) 2 .die (.staged serial))

/-- A command leaves its engine. -/
def endCopy (s : State) (c : Copy) (fires : Bool) : State :=
  let s := peerDone (dropCopy s c.id) c.id
  if fires then fireTrigger s c else s

/-! ### Instruction banks (R41-R44) -/

def imemKey (core : Nat) (bank : Bool) (off : Nat) : Nat := (core * 2 + bank.toNat) * 65536 + off
def bankKey (core : Nat) (bank : Bool) : Nat := core * 2 + bank.toNat
def bankReset : Bank := ⟨false, 0, 0, [], [], 0⟩
def bankOf (s : State) (core : Nat) (bank : Bool) : Bank := (aget s.banks (bankKey core bank)).getD bankReset
def setBank (s : State) (core : Nat) (bank : Bool) (b : Bank) : State := { s with banks := aput s.banks (bankKey core bank) b }

def putImem (s : State) (core : Nat) (bank : Bool) (bs : List Byte) : State :=
  let m := clearKeys s.imem (imemKey core bank 0) 65536
  { s with imem := bs.zipIdx.foldl (fun m e => tset 0xFF#8 m (imemKey core bank e.2) e.1) m }

/-- A bank without a valid overlay reads as all ones (R42). -/
def clearBank (s : State) (core : Nat) (bank : Bool) : State :=
  let b := bankOf s core bank
  setBank (putImem s core bank []) core bank { b with valid := false, ovlid := 0, ninst := 0 }
/-- A load into a bank is over. -/
def unload (s : State) (core : Nat) (bank : Bool) (id : Nat) : State :=
  let b := bankOf s core bank
  setBank s core bank { b with loading := b.loading.filter (· ≠ id) }
/-- The bank that a command loads. -/
def loadBank (c : Copy) : Option Bool := if c.major = 0x95 then some (c.xf % 2 == 1) else none
/-- An overlay load that will not complete leaves its bank without an overlay (R42). -/
def loadLost (s : State) (c : Copy) : State :=
  match loadBank c with
  | some k => if (bankOf s c.core k).loading.contains c.id then unload (clearBank s c.core k) c.core k c.id else s
  | none => s

/-- `cpy.cancel` on one command: gone when it has not started, cut to what has started otherwise (R263). -/
def cancelCopy (s : State) (c : Copy) : State :=
  if c.phase ≠ .running then
    modSquad (loadLost (dropCopy s c.id) c) c.squad fun q => if q.wait = some (.accept c.id) then { q with wait := none } else q
  else
    let c := { c with cancelled := true }
    let s := modCopy s c.id fun _ => c
    if c.major = 0x92 then (if c.decoded.isEmpty && c.committed == 0 then dropCopy s c.id else s)
    else if c.major = 0x95 then s
    else if (remaining c).isEmpty then dropCopy s c.id else s

def cancelAll (s : State) (p : Copy → Bool) : State :=
  (s.copies.filter p).foldl (fun s c => cancelCopy s c) s

/-- The record of an engine fault (R448). -/
def engineRec (s : State) (core sidx : Nat) (pc : Pc) (e : Err) (addr : Nat) (relaunch : Bool) : FaultRec :=
  ⟨e.1, e.2, core, sidx, 0xFF, pcCode pc, addr, s.time, relaunch⟩

/-- A fault of an engine command: the node without squads ends, a task is killed (R269, R368). -/
def engineFault (s : State) (task : Nat) (node : Option Nat) (r : FaultRec) : State :=
  match node with
  | some n => modNode s n fun n => { n with fault := n.fault.orElse fun _ => some { r with squad := 0xFF } }
  | none => requestKill s task r

/-- Ask the host about a fault of an engine command on a leased page (R383). -/
def parkEngine (s : State) (ctx va : Nat) (e : Err) (addr : Nat) (w : Awaiter) : Nat × State :=
  let (tok, s) := pushEvent s ctx 1 e.1 e.2 va addr
  (tok, modCtx s ctx fun c => { c with awaiting := c.awaiting ++ [⟨tok, w, e.1, e.2, addr, s.time⟩] })

/-- VA of the task record a command belongs to. -/
def ownerVa (s : State) (task : Nat) (node : Option Nat) : Nat :=
  match node.orElse fun _ => (taskOf s task).map (·.node) with
  | some n => ((nodeOf s n).map (·.va)).getD 0
  | none => 0

/-- Whether an engine fault is parked: XLATE, subcode 0x04 apart, of a task's leased page (R380). -/
def parks (e : Err) (node : Option Nat) : Bool := e.1 == 0x06 && e.2 != 4 && node.isNone

/-- The command stops with a fault: the word is told, the task's other commands are cancelled, the task is killed (R269). -/
def stopCopy (s : State) (c : Copy) (e : Err) (addr : Nat) : State :=
  let s := copyTell (dropCopy s c.id) c e
  let s := cancelAll s fun o => o.task == c.task && o.node == c.node
  engineFault s c.task c.node (engineRec s c.core c.sidx c.pc e addr (e.1 != 0x05))

/-! ### Packed streams (R261, R264-R267) -/

/-- The header of a block, as one number. -/
structure PackHdr where
  raw : Nat
  coded : Nat
  nch : Nat
  mode : Bool
  lens : Nat
  offs : List Nat
  crc : Nat
  deriving DecidableEq, Repr

def packHdr (h : Nat) : PackHdr :=
  ⟨bits h 44 28, bits h 61 45, bits h 27 25 + 1, h.testBit 24, bits h 125 62,
    0 :: (List.range 7).map fun k => bits h (126 + 14 * k + 13) (126 + 14 * k), bits h 255 224⟩

def packQ (p : PackHdr) : Nat := 64 * ceilDiv p.raw (64 * p.nch)
def lenOf (p : PackHdr) (k : Nat) : Nat := p.lens / 16 ^ k % 16

/-- Causes 1 to 4 of a header, the lowest first (R266). -/
def packCause (h : Nat) (p : PackHdr) : Nat :=
  let offs := p.offs.take p.nch
  if h % 65536 ≠ 0x5A3C ∨ bits h 23 16 ≠ 0 ∨ p.raw = 0 ∨ p.raw > 65536 ∨ p.coded = 0 ∨ p.coded > 65536 then 1
  else if (if p.mode then decide (p.coded ≥ p.raw) else p.coded != p.raw || p.lens != 0 || p.offs.any (· != 0)) then 2
  else if (p.nch - 1) * packQ p ≥ p.raw ∨ (p.offs.drop p.nch).any (· != 0) ∨
      (offs.zip (offs.drop 1)).any (fun e => decide (e.2 < e.1)) ∨ offs.any (fun o => decide (4 * o > p.coded)) then 3
  else if p.mode ∧ ((List.range 16).foldl (fun t k => t + if lenOf p k = 0 then 0 else 2 ^ (15 - lenOf p k)) 0) ≠ 2 ^ 15 then 4
  else 0

/-- The canonical code: (length, code, nibble), by length and then by value (R265). -/
def packCodes (p : PackHdr) : List (Nat × Nat × Nat) :=
  let syms := (List.range 15).flatMap fun l => (List.range 16).filterMap fun k => if lenOf p k = l + 1 then some (l + 1, k) else none
  (syms.foldl (fun (st : Nat × Nat × List (Nat × Nat × Nat)) e =>
    let code := st.1 * 2 ^ (e.1 - st.2.1)
    (code + 1, e.1, st.2.2 ++ [(e.1, code, e.2)])) (0, 0, [])).2.2

/-- One nibble from the bits at `pos` of `total`: bit i of the payload is bit 7 - i % 8 of byte i / 8. -/
def packBit (pay : List Byte) (i : Nat) : Nat := ((pay[i / 8]?).getD 0).toNat / 2 ^ (7 - i % 8) % 2
def packSym (codes : List (Nat × Nat × Nat)) (pay : List Byte) (total : Nat) : Nat → Nat → Nat → Nat → Option (Nat × Nat)
  | 0, _, _, _ => none
  | n + 1, pos, len, code =>
    if pos ≥ total then none
    else
      let code := 2 * code + packBit pay pos
      let len := len + 1
      match codes.find? fun e => e.1 == len && e.2.1 == code with
      | some e => some (e.2.2, pos + 1)
      | none => packSym codes pay total n (pos + 1) len code

/-- `n` raw bytes, each two nibbles, low one first: the bytes and the position after them. -/
def packBytes (codes : List (Nat × Nat × Nat)) (pay : List Byte) (total : Nat) : Nat → Nat → Option (List Byte × Nat)
  | 0, pos => some ([], pos)
  | n + 1, pos =>
    match packSym codes pay total 15 pos 0 0 with
    | none => none
    | some (lo, pos) =>
      match packSym codes pay total 15 pos 0 0 with
      | none => none
      | some (hi, pos) =>
        (packBytes codes pay total n pos).map fun r => (BitVec.ofNat 8 (lo + 16 * hi) :: r.1, r.2)

/-- Where the payload of stream chunk `k` begins and ends. -/
def packPart (p : PackHdr) (k : Nat) : Nat × Nat :=
  if p.mode then (4 * nthN p.offs k, if k + 1 < p.nch then 4 * nthN p.offs (k + 1) else p.coded)
  else (k * packQ p, min ((k + 1) * packQ p) p.raw)

/-- The raw bytes of stream chunk `k` from its payload, or its cause. -/
def packChunk (p : PackHdr) (part : List Byte) (k : Nat) : Except Nat (List Byte) :=
  if p.mode then
    let total := 8 * part.length
    match packBytes (packCodes p) part total (min ((k + 1) * packQ p) p.raw - k * packQ p) 0 with
    | none => .error 5
    | some (bs, pos) => if (List.range (total - pos)).any fun i => packBit part (pos + i) == 1 then .error 6 else .ok bs
  else .ok part

/-- Source bytes [o, o + n) of a command, no others (R261). The stream is read as it stands: a block is read over several steps, and
a race with a store to it shows only in the order of these steps. -/
def srcBytes (s : State) (c : Copy) (o n : Nat) : Except (Err × Nat) (List Byte) :=
  (okOr (fun k => (engPlace s c c.srec (regionAddr c.srec k.1) k.2 false).map fun p => rdBytes s p.1 p.2 k.2)
    (cutBlocks o n)).map (·.flatten)
def streamEvs (s : State) (c : Copy) (o n : Nat) : List HEv :=
  (cutBlocks o n).flatMap fun k => match engPlace s c c.srec (regionAddr c.srec k.1) k.2 false with
    | .ok p => [.access (accRd (copyWho s c) .C (.bytes p.1 p.2 k.2))]
    | .error _ => []

/-- The state of a packed command: complete, stopped by a fault, or a block under decode. -/
inductive PackState where
  | complete
  | bad (e : Err) (addr : Nat)
  | block (p : PackHdr)
  deriving DecidableEq, Repr

def packState (s : State) (c : Copy) : PackState :=
  let size := regionSize c.srec
  let here := regionAddr c.srec c.soff
  let pack (n : Nat) : PackState := .bad (0x0A, 16 * n) here
  if c.out ≥ c.total ∨ c.soff ≥ size ∨ (c.cancelled ∧ c.decoded = [] ∧ c.committed = 0) then .complete
  else if size - c.soff < 32 then pack 9
  else
    match srcBytes s c c.soff 32 with
    | .error e => .bad e.1 e.2
    | .ok hb =>
      let h := leVal hb
      let p := packHdr h
      if packCause h p ≠ 0 then pack (packCause h p)
      else if p.raw > c.total - c.out then pack 8
      else if 32 + p.coded > size - c.soff then pack 9
      else .block p

/-- The payload of stream chunk `k` of the block under decode. -/
def chunkPay (s : State) (c : Copy) (p : PackHdr) (k : Nat) : Except (Err × Nat) (List Byte) :=
  let e := packPart p k
  srcBytes s c (c.soff + 32 + e.1) (e.2 - e.1)

/-- All raw bytes of a block, when every chunk decodes. -/
def packAll (s : State) (c : Copy) (p : PackHdr) : Except (Err × Nat) (Option (List Byte)) :=
  (okOr (chunkPay s c p) (List.range p.nch)).map fun ps =>
    ps.zipIdx.foldl (fun r e => match r, packChunk p e.1 e.2 with
      | some l, .ok b => some (l ++ b)
      | _, _ => none) (some [])

/-- What committing the next stream chunk finds: its bytes, or a fault: of a read of its payload, or a cause with its number. -/
def nextCommit (s : State) (c : Copy) (p : PackHdr) : Except (Err × Nat) (List Byte) :=
  let k := c.committed
  let pack (n : Nat) : Except (Err × Nat) (List Byte) := .error ((0x0A, n), regionAddr c.srec c.soff)
  match chunkPay s c p k with
  | .error e => .error e
  | .ok part =>
    match packChunk p part k with
    | .error e => pack (16 * e + k)
    | .ok b =>
      if k + 1 < p.nch then .ok b
      else
        match packAll s c p with
        | .error e => .error e
        | .ok l => if l.any fun l => crc32c l == p.crc then .ok b else pack (0x70 + k)

/-- The pieces of decoded bytes at destination offset `o`, split at 64-byte blocks, all with DESC (R261). -/
def splitPieces (desc : Nat) : Nat → Nat → List Byte → List Piece
  | 0, _, _ => []
  | n + 1, o, bs =>
    if bs.isEmpty then []
    else
      let k := 64 - o % 64
      (o, bs.take k, desc) :: splitPieces desc n (o + k) (bs.drop k)

def copyDesc (c : Copy) : Nat := bits c.cword.toNat 43 28

/-! ### Overlay loads (R44, R262) -/

/-- The header obeys R44. -/
def ovlHeaderOk (hb : List Byte) : Bool :=
  leVal (hb.take 6) == 0x0001564F594E && leVal ((hb.drop 6).take 2) < 4 && leVal ((hb.drop 10).take 2) == 0 &&
    decide (1 ≤ leVal ((hb.drop 8).take 2)) && decide (leVal ((hb.drop 8).take 2) ≤ Config.maxInst) &&
    leVal (hb.drop 48) == 0 && ((leVal ((hb.drop 6).take 2)) % 2 == 1 || leVal ((hb.drop 16).take 32) == 0)

def ovlNinst (hb : List Byte) : Nat := leVal ((hb.drop 8).take 2)
def ovlFlags (hb : List Byte) : Nat := leVal ((hb.drop 6).take 2)
def ovlId (hb : List Byte) : Nat := leVal ((hb.drop 12).take 4)

/-- Where an overlay load reads a byte: XO, no lease (R164, R262). -/
def ovlPlace (s : State) (ctx va : Nat) : Except Err (Space × Nat) :=
  if va ≥ 2 ^ 51 then .error (eXLATE 2)
  else
    match pageOf s ctx va with
    | .error e => .error e
    | .ok p =>
      match placePa s (p.pa + va % 65536) false with
      | .error e => .error e
      | .ok q => if p.xo then .ok q else .error (eACCESS 0x0C)

/-- The byte there; a device that does not answer gives none yet. -/
def ovlByte (s : State) (ctx va : Nat) : Except Err Byte :=
  match ovlPlace s ctx va with
  | .error e => .error e
  | .ok q => if spaceDown s q.1 then .error eAgain else .ok (rdByte s q.1 q.2)

def ovlBytes (s : State) (ctx : Nat) (addr : Nat → Nat) : Nat → Nat → Except Err (List Byte)
  | 0, _ => .ok []
  | n + 1, i =>
    match ovlByte s ctx (addr i) with
    | .error e => .error e
    | .ok b => (ovlBytes s ctx addr n (i + 1)).map (b :: ·)

/-- The overlay of a region of `size` bytes at `addr`: its bytes, or the fault of R262. -/
def ovlImage (s : State) (ctx : Nat) (addr : Nat → Nat) (size : Nat) : Except Err (List Byte) :=
  if size < 64 then .error (eACCESS 0x0B)
  else
    match ovlBytes s ctx addr 64 0 with
    | .error e => .error e
    | .ok hb =>
      if !ovlHeaderOk hb || decide (size < 64 + 12 * ovlNinst hb) then .error (eACCESS 0x0B)
      else
        match ovlBytes s ctx addr (12 * ovlNinst hb) 64 with
        | .error e => .error e
        | .ok ws =>
          let hashed := ovlFlags hb % 2 == 1
          if (ctxOf s ctx).cflags.getLsbD 3 && !hashed then .error (eACCESS 0x0B)
          else if hashed && sha256 (hb.take 16 ++ ws) != (hb.drop 16).take 32 then .error (eACCESS 0x0B)
          else .ok (hb ++ ws)

/-- A bank takes an overlay image. -/
def installBank (s : State) (core : Nat) (bank : Bool) (img : List Byte) : State :=
  let b := bankOf s core bank
  setBank (putImem s core bank img) core bank { b with valid := true, ovlid := ovlId img, ninst := ovlNinst img }

/-! ### Events of the engines -/

/-- Commands of an engine in a phase, in order. -/
def inPhase (s : State) (die eng : Nat) (p : CopyPhase) : List Copy :=
  s.copies.filter fun c => c.die == die && c.eng == eng && c.phase == p

/-- The queue accepts the oldest command that waits for room (R247). -/
def copyAccept (s : State) (die eng : Nat) : State :=
  match inPhase s die eng .inbox with
  | [] => s
  | c :: _ =>
    if (inPhase s die eng .queued).length < 64 then
      modSquad (modCopy s c.id fun c => { c with phase := .queued }) c.squad fun q =>
        if q.wait = some (.accept c.id) then { q with wait := none } else q
    else s

/-- The engine starts the next queued command; CPYL makes its walk (R247, R260). -/
def copyStart (s : State) (die eng : Nat) : State :=
  match inPhase s die eng .queued with
  | [] => s
  | c :: _ =>
    if (inPhase s die eng .running).length < 4 then
      if c.major = 0x94 then
        let w := rectWalk s c
        modCopy (logEvs (pushFeedback s c.ctx w.2.2) (rectEvs s c (copyWho s c) w.1)) c.id fun c =>
          { c with phase := .running, walk := some (w.1, w.2.1) }
      else modCopy s c.id fun c => { c with phase := .running }
    else s

/-- The state after chunk `j`, or its fault; `eAgain` while a device does not answer. -/
def chunkEffect (s : State) (c : Copy) (j : Nat) : Except (Err × Nat) State :=
  match chunkPieces s c (4096 * j) (chunkBytes c j) with
  | .error e => .error e
  | .ok ps => putPieces c ps s

/-- Chunk `j` lands, is counted, and may be the last one (R251, R255). -/
def chunkLanded (s : State) (id j : Nat) : State :=
  match copyOf s id with
  | none => s
  | some c =>
    if c.phase = .running ∧ c.major ≠ 0x92 ∧ c.major ≠ 0x95 ∧ c.hold = [] ∧ c.parked = none ∧ (remaining c).contains j then
      match chunkEffect s c j with
      | .error e => if e.1 = eAgain then waitPeer s id else s
      | .ok s' =>
        let lo := 4096 * j
        let n := chunkBytes c j
        let s := peerDone (logEvs s' (sourceEvs s c lo n ++ destEvs s c lo n)) id
        let s := copyCount s c n ((c.walk.map (·.2)).getD 0)
        let c := { c with landed := c.landed ++ [j] }
        if (remaining c).isEmpty then endCopy s c (!c.cancelled) else modCopy s id fun _ => c
    else s

/-- The fault that stops a running command now, if any: the lowest chunk that has not landed fails, and no other started
chunk can still land; or the stream does (R266, R269). -/
def copyFaultNow (s : State) (c : Copy) : Option (Err × Nat) :=
  if c.phase ≠ .running ∨ c.parked ≠ none ∨ c.major = 0x95 then none
  else if c.major = 0x92 then
    match packState s c with
    | .bad e a => if e = eAgain then none else some (e, a)
    | .complete => none
    | .block p =>
      match chunkPay s c p c.committed, nextCommit s c p with
      | .error e, _ => if e.1 = eAgain then none else some e
      | .ok _, r =>
        if !c.decoded.contains c.committed then none
        else
        match r with
        | .error e => if e.1 = eAgain then none else some e
        | .ok b =>
          match putPieces c (splitPieces (copyDesc c) 1025 (c.out + c.committed * packQ p) b) s with
          | .error e => if e.1 = eAgain then none else some e
          | .ok _ => none
  else
    match remaining c with
    | [] => none
    | j :: _ =>
      match chunkEffect s c j with
      | .ok _ => none
      | .error e =>
        let stuck (k : Nat) : Bool := match chunkEffect s c k with
          | .error f => f.1 != eAgain
          | .ok _ => false
        if e.1 ≠ eAgain ∧ ((remaining c).filter fun k => k < startedUpTo c).all stuck then some e else none

/-- COPY_RUNTIME_FAULT: parked on a leased page, otherwise stopped (R269). -/
def copyFault (s : State) (id : Nat) : State :=
  match copyOf s id with
  | none => s
  | some c =>
    match copyFaultNow s c with
    | none => s
    | some (e, a) =>
      if parks e c.node then
        let (tok, s) := parkEngine s c.ctx (ownerVa s c.task c.node) e a (.copy id)
        modCopy s id fun c => { c with parked := some tok }
      else stopCopy s c e a

/-- A decoder lane finishes stream chunk `k` of the current block (R267). -/
def chunkDecoded (s : State) (id k : Nat) : State :=
  match copyOf s id with
  | none => s
  | some c =>
    match packState s c with
    | .block p =>
      if c.phase = .running ∧ c.major = 0x92 ∧ c.parked = none ∧ k < p.nch ∧ c.committed ≤ k ∧ !c.decoded.contains k then
        match chunkPay s c p k with
        | .ok _ => modCopy (peerDone s id) id fun c => { c with decoded := c.decoded ++ [k] }
        | .error e => if e.1 = eAgain then waitPeer s id else s
      else s
    | .bad e _ => if e = eAgain then waitPeer s id else s
    | .complete => s

/-- The next stream chunk commits and is counted; the last one ends the block (R267). -/
def chunkCommit (s : State) (id : Nat) : State :=
  match copyOf s id with
  | none => s
  | some c =>
    if c.phase = .running ∧ c.major = 0x92 ∧ c.hold = [] ∧ c.parked = none then
      match packState s c with
      | .complete => endCopy s c (!c.cancelled)
      | .bad _ _ => s
      | .block p =>
        if !c.decoded.contains c.committed then s
        else
          match nextCommit s c p with
          | .error e => if e.1 = eAgain then waitPeer s id else s
          | .ok b =>
            let o := c.out + c.committed * packQ p
            match putPieces c (splitPieces (copyDesc c) 1025 o b) s with
            | .error e => if e.1 = eAgain then waitPeer s id else s
            | .ok s' =>
              let e := packPart p c.committed
              let reads := (if c.committed = 0 then streamEvs s c c.soff 32 else []) ++
                streamEvs s c (c.soff + 32 + e.1) (e.2 - e.1)
              let s := peerDone (logEvs s' (reads ++ destEvs s c (o / 64 * 64) (o % 64 + b.length))) id
              let s := copyCount s c b.length 0
              let c := if c.committed + 1 < p.nch then { c with committed := c.committed + 1 }
                else { c with soff := alignUp (c.soff + 32 + p.coded) 4, out := c.out + p.raw, decoded := [], committed := 0 }
              let s := modCopy s id fun _ => c
              if c.out ≥ c.total ∨ c.soff ≥ regionSize c.srec ∨ (c.cancelled ∧ c.committed = 0) then endCopy s c (!c.cancelled) else s
    else s

/-- A held fill may write: the queued readers of its slot have fetched (R254). -/
def holdRelease (s : State) (id : Nat) : State :=
  match copyOf s id with
  | none => s
  | some c =>
    if c.hold ≠ [] ∧ allFetched s c.core c.hold then
      modCopy (logEv s (.acquire (copyWho s c) 2 .die (c.hold.map .fetched))) id fun c => { c with hold := [] }
    else s

/-- An overlay load completes or fails (R262). -/
def overlayEnd (s : State) (id : Nat) : State :=
  match copyOf s id with
  | none => s
  | some c =>
    if c.phase = .running ∧ c.major = 0x95 then
      let bank := c.xf % 2 == 1
      let ended (s : State) : State := unload (peerDone (dropCopy s id) id) c.core bank id
      match (if waitedOut s id then .error (eACCESS 7) else ovlImage s c.ctx (regionAddr c.srec) (regionSize c.srec)) with
      | .ok img =>
        let reads := (List.range (ceilDiv img.length 64)).flatMap fun i =>
          match ovlPlace s c.ctx (regionAddr c.srec (64 * i)) with
          | .ok p => [.access (accRd (copyWho s c) .C (.bytes p.1 p.2 64))]
          | .error _ => []
        copyCount (installBank (ended (logEvs s reads)) c.core bank img) c img.length 0
      | .error e =>
        if e = eAgain then waitPeer s id else copyTell (clearBank (ended s) c.core bank) c e
    else s

end Sys2Proof.Machine
end

