-- ==== Sys2Proof/Machine/CopyOps.lean ====
section
/-! DEFINITION. The copy instructions: the checks of R250 and the commands they queue (R247-R263). -/

namespace Sys2Proof.Machine

/-! ### The copy word (R248) -/

def cwAwrec (w : Nat) : Nat := w % 16
def cwAwidx (w : Nat) : Nat := bits w 19 4
def cwStv (w : Nat) : Bool := w.testBit 20
def cwStg (w : Nat) : Nat := bits w 23 21
def cwIrec (w : Nat) : Nat := bits w 27 24
def cwDesc (w : Nat) : Nat := bits w 43 28

/-- What a copy instruction asks for: destination record or slot, source, index record of CPYG, copy word, PARAM of CPYL. -/
structure CopyReq where
  major : Nat
  xf : Nat
  drec : Rec
  dslot : Option Nat
  srec : Rec
  irec : Rec
  cword : W64
  param : W64
  deriving DecidableEq, Repr

def rowBytes (r : Rec) : Nat := recExt0 r * recE r
def rowCount (r : Rec) : Nat := if rec2d r then recExt1 r else 1

/-- Fault of a record check that raised it: the first test that holds. -/
def firstErr : List (Bool × Err) → Option Err
  | [] => none
  | (b, e) :: r => if b then some e else firstErr r

/-- Rows of a scratchpad region lie in a footprint of the context (R171), or for a destination where a forwarding entry
sends them (R379). -/
def rowsIn (s : State) (ctx core : Nat) (fwd : Bool) (r : Rec) : Nat → Nat → Bool
  | 0, _ => true
  | n + 1, i =>
    let a := recBase r + i * recStride r
    (if fwd then (scrPlace s ctx core a (rowBytes r)) matches .ok _ else footprintOk s ctx core a (rowBytes r)) &&
      rowsIn s ctx core fwd r n (i + 1)

def regionIn (s : State) (ctx core : Nat) (fwd : Bool) (r : Rec) : Bool :=
  regionSize r == 0 || recSpace r == 0 || rowsIn s ctx core fwd r (rowCount r) 0

/-- BASE, row bytes and row distance are multiples of 64; an empty region passes (R250). -/
def aligned64 (r : Rec) : Bool :=
  regionSize r == 0 || (recBase r % 64 == 0 && rowBytes r % 64 == 0 && recStride r % 64 == 0)

/-- Bytes that the command moves into its destination region, at most. -/
def copyTotal (q : CopyReq) : Nat :=
  if q.major = 0x90 ∨ q.major = 0x93 then regionSize q.srec
  else if q.major = 0x91 then recExt0 q.irec * rowBytes q.srec
  else if q.major = 0x95 then 0
  else if q.dslot.isSome then 8192 else regionSize q.drec

/-- The region sizes are those that the entry requires (R250, R253, R257-R260). -/
def sizesOk (s : State) (ctx : Nat) (q : CopyReq) : Bool :=
  let n := copyTotal q
  if q.major = 0x90 then n == regionSize q.drec
  else if q.major = 0x91 then
    rec2d q.srec && (if q.dslot.isSome then n % 64 == 0 && decide (n ≤ 8192) else n == regionSize q.drec && decide (n < 2 ^ 32))
  else if q.major = 0x93 then
    if q.xf = 1 then n == 32 else if q.xf = 2 then n == 2048 else n % 64 == 0 && decide (n ≤ 8192)
  else if q.major = 0x94 then
    (if q.dslot.isSome then 128 else rowBytes q.drec) % descE (descAt s ctx (recBase q.srec)) == 0
  else true

/-- The row of R250 on the record of the arrival word. -/
def awRows (x : Iss) (w : Nat) : List (Bool × Err) :=
  let aw := rdB x.q (cwAwrec w)
  [(recKind aw != 0, eACCESS 2),
   (recReserved aw, eACCESS 4),
   (!recWr aw, eACCESS 6),
   (decide (16 * cwAwidx w + 16 > regionSize aw), (0x04, 0x01)),
   (recBase aw % 16 != 0, (0x03, 0x01))]

/-- The rows of R250 that concern the records and the copy word; `aw` is the arrival word's record, if one is named. -/
def copyRecRows (s : State) (ctx : Nat) (q : CopyReq) (aw : Option Rec) : Option Err :=
  let w := q.cword.toNat
  let lod := q.major = 0x94
  let toRec := q.dslot.isNone && q.major != 0x95
  let gather := q.major = 0x91
  firstErr [
    (if lod then recKind q.srec != 1 else recKind q.srec != 0 || (q.major == 0x95 && recSpace q.srec != 0), eACCESS 2),
    (gather && (recKind q.irec != 0 || rec2d q.irec || recEsize q.irec != 2), eACCESS 2),
    (toRec && recKind q.drec != 0, eACCESS 2),
    (toRec && !recWr q.drec, eACCESS 6),
    (recReserved q.srec || (toRec && recReserved q.drec) || (gather && recReserved q.irec) ||
      aw.any (fun r => recKind r == 0 && recReserved r), eACCESS 4),
    (w / 2 ^ 44 != 0 || (q.major != 0x92 && cwDesc w != 0) || (!gather && cwIrec w != 0) ||
      (cwStv w && (q.major == 0x90 || q.major == 0x95)) || q.param.toNat / 2 ^ 36 != 0, eACCESS 4),
    ((!lod && recSwz q.srec != 0) || (toRec && recSwz q.drec != 0) || (gather && recSwz q.irec != 0), eACCESS 5),
    (!sizesOk s ctx q, eACCESS 5),
    ((!lod && decide (regionSize q.srec ≥ 2 ^ 32)) || (toRec && decide (regionSize q.drec ≥ 2 ^ 32)), eACCESS 5),
    (!lod && !(if q.major = 0x93 ∧ q.xf = 1 then recBase q.srec % 32 == 0 else aligned64 q.srec), (0x03, 0x02)),
    (toRec && !aligned64 q.drec, (0x03, 0x02))]

/-- Those rows and the arrival word's. -/
def copyRows (s : State) (x : Iss) (q : CopyReq) : Option Err :=
  let w := q.cword.toNat
  (copyRecRows s (ctxId s x.q) q (some (rdB x.q (cwAwrec w)))).orElse fun _ => firstErr (awRows x w)

/-- The arrival word's place: lease, translation and writability in memory, footprint in a scratchpad (R250). -/
def copyAw (s : State) (x : Iss) (w : Nat) : Except FaultInfo AwLoc :=
  let r := rdB x.q (cwAwrec w)
  let va := recBase r + 16 * cwAwidx w
  match placeRec s x.q r (targetCore x.q r) true va 16 true with
  | .ok (sp, a) => .ok ⟨sp, a⟩
  | .error e => .error { mkFault e.1 e.2 x.act x.path with addr := va, park := e.1 == 0x06 && e.2 != 4 }

/-- The space and address that name an arrival word. -/
def awNameOf (x : Iss) (w : Nat) : Nat × Nat :=
  let r := rdB x.q (cwAwrec w)
  (if recSpace r = 1 then targetCore x.q r + 1 else 0, recBase r + 16 * cwAwidx w)

/-- The task has claimed a name. -/
def claimedBy (s : State) (q : Squad) (name : Nat) : Bool := ((taskOf s q.task).map (·.claimed)).any (·.contains name)

/-- The task's pending staged command of a number: its serial. -/
def stagedOf (s : State) (q : Squad) (n : Nat) : Option Nat :=
  match aget s.staged (q.core * 8 + n) with
  | some g => if g.cmd.task = q.task then some g.cmd.serial else none
  | none => none

/-- The last rows of R250: footprints, the slot and the staged command. -/
def copyLate (s : State) (x : Iss) (q : CopyReq) : Option Err :=
  let w := q.cword.toNat
  let bad (fwd : Bool) (r : Rec) : Bool := !regionIn s (ctxId s x.q) (targetCore x.q r) fwd r
  firstErr [
    ((q.major != 0x94 && bad false q.srec) || (q.major == 0x91 && bad false q.irec) ||
      (q.dslot.isNone && q.major != 0x95 && bad true q.drec), eACCESS 8),
    (q.dslot.any fun n => !claimedBy s x.q n, (0x0C, 0x01)),
    (cwStv w && q.dslot.isNone, eACCESS 4),
    (cwStv w && (stagedOf s x.q (cwStg w)).isNone, (0x0C, 0x05))]

/-- Count a command of the squad. -/
def countCmd (n : Nat) (q : Squad) : Squad := { q with perf := tset 0 q.perf n (tget 0 q.perf n + 1) }

/-- The command of a request that passed its checks. -/
def copyCmd (s : State) (x : Iss) (q : CopyReq) (aw : AwLoc) : Copy :=
  let w := q.cword.toNat
  let ctx := ctxId s x.q
  { id := s.nextId, die := dieOf x.q, eng := x.q.core % 2, core := x.q.core, ctx := ctx, task := x.q.task, node := none
    squad := x.id, sidx := x.q.idx, pc := x.path.pc, major := q.major, xf := q.xf, drec := q.drec, srec := q.srec,
    irec := q.irec, dslot := q.dslot, cword := q.cword, param := q.param, aw := aw, awName := awNameOf x w,
    phase := .inbox, total := copyTotal q, landed := [], cancelled := false,
    hold := (q.dslot.map fun n => pendingReaders s x.q.core x.q.task n).getD [],
    stv := if cwStv w then (stagedOf s x.q (cwStg w)).map fun n => (cwStg w, n) else none,
    walk := none, epoch := if q.major = 0x94 then some (ctxOf s ctx).epoch else none,
    soff := 0, out := 0, decoded := [], committed := 0, parked := none }

/-- The regions hold no byte to move (R250). -/
def copyEmpty (q : CopyReq) : Bool :=
  q.major != 0x95 && (copyTotal q == 0 || (q.major == 0x92 && regionSize q.srec == 0))

/-- Check a copy instruction and queue its command; the squad is held until the queue accepts it. -/
def copySubmit (s : State) (x : Iss) (q : CopyReq) : Res :=
  match copyRows s x q with
  | some e => failE s x e
  | none =>
    match copyAw s x q.cword.toNat with
    | .error f => .fault s f
    | .ok aw =>
      match copyLate s x q with
      | some e => failE s x e
      | none =>
        if locDown s aw then peerWait s x
        else
          let c := copyCmd s x q aw
          let s := logCmd (modSquad { s with nextId := s.nextId + 1 } x.id (countCmd 6)) x c.id
          if copyEmpty q then .ok (fireTrigger s c)
          else .hold { s with copies := s.copies ++ [c] } (.accept c.id)

/-- Destination fields of an operand: record, slot name. -/
def dstRec (x : Iss) (d : Opnd) : Rec := match d with | .b n => rdB x.q n | _ => 0
def dstSlot (d : Opnd) : Option Nat := match d with | .o n => some n | _ => none

/-- One copy major. -/
def copyForm (h : Hdr) (cls major xf : Nat) (d : Opnd) (ba : Nat) (w : Iss → W64) (param : Iss → W64) (s : State) : Out :=
  issue h cls (.once 1) s fun x s =>
    if x.act = 0 then .ok s
    else
      let cw := w x
      copySubmit s x ⟨major, xf, dstRec x d, dstSlot d, rdB x.q ba,
        if major = 0x91 then rdB x.q (cwIrec cw.toNat) else 0, cw, param x⟩

def cwOf (b : Opnd) (x : Iss) : W64 := BitVec.ofNat 64 (rdScal x.q b)
def noParam (_ : Iss) : W64 := 0

def execCpy (h : Hdr) (bd ba : Nat) (b : Opnd) (s : State) : Out := copyForm h 4 0x90 0 (.b bd) ba (cwOf b) noParam s
def execCpyg (h : Hdr) (d : Opnd) (ba : Nat) (b : Opnd) (s : State) : Out := copyForm h 4 0x91 0 d ba (cwOf b) noParam s
def execCpyp (h : Hdr) (d : Opnd) (ba : Nat) (b : Opnd) (s : State) : Out := copyForm h 5 0x92 0 d ba (cwOf b) noParam s
def execCpys (h : Hdr) (od ba : Nat) (b : Opnd) (s : State) : Out := copyForm h 4 0x93 0 (.o od) ba (cwOf b) noParam s
def execCpysCb (h : Hdr) (od ba : Nat) (b : Opnd) (s : State) : Out := copyForm h 4 0x93 1 (.o od) ba (cwOf b) noParam s
def execCpysZb (h : Hdr) (od ba : Nat) (b : Opnd) (s : State) : Out := copyForm h 4 0x93 2 (.o od) ba (cwOf b) noParam s
def execCpyl (h : Hdr) (d : Opnd) (ba sb : Nat) (s : State) : Out :=
  copyForm h 4 0x94 0 d ba (fun x => rdS x.q sb) (fun x => rdS x.q (sb + 1)) s

/-- OVL.LD: the bank check, then as a copy (R262). -/
def execOvlLd (h : Hdr) (bank : Bool) (ba : Nat) (b : Opnd) (s : State) : Out :=
  issue h 4 (.once 1) s fun x s =>
    if x.act = 0 then .ok s
    else
      let bk := bankOf s x.q.core bank
      if bk.holders ≠ [x.q.task] then failE s x (eACCESS 1)
      else
        match copySubmit s x ⟨0x95, bank.toNat, 0, none, rdB x.q ba, 0, cwOf b x, 0⟩ with
        | .hold s' (.accept id) => .hold (setBank s' x.q.core bank { bk with loading := bk.loading ++ [id] }) (.accept id)
        | r => r

/-- The task's commands that count at the word a copy word names (R263). -/
def countsAt (x : Iss) (w : Nat) (c : Copy) : Bool := c.task == x.q.task && c.node.isNone && c.awName == awNameOf x w

/-- Bytes of a command that are still to be counted. -/
def uncounted (s : State) (c : Copy) : Nat :=
  if c.major = 0x95 then
    match ovlImage s c.ctx (regionAddr c.srec) (regionSize c.srec) with
    | .ok img => img.length
    | .error _ => 0
  else if c.major = 0x92 then
    match packState s c with
    | .block p =>
      let done := min (c.committed * packQ p) p.raw
      if c.cancelled then p.raw - done else c.total - c.out - done
    | _ => if c.cancelled then 0 else c.total - c.out
  else ((remaining c).map (chunkBytes c)).foldl (· + ·) 0

def execCpyStat (h : Hdr) (sd : Nat) (b : Opnd) (s : State) : Out :=
  issue h 1 (.once 1) s fun x s =>
    if x.act = 0 then .ok s
    else
      let cs := s.copies.filter (countsAt x (rdScal x.q b))
      let n := min ((cs.map (uncounted s)).foldl (· + ·) 0) (2 ^ 32 - 1)
      .ok (putLater s x [.s sd (BitVec.ofNat 64 (n + cs.length % 65536 * 2 ^ 32))])

def execCpyCancel (h : Hdr) (b : Opnd) (s : State) : Out :=
  issue h 1 (.once 1) s fun x s =>
    if x.act = 0 then .ok s else .ok (cancelAll s (countsAt x (rdScal x.q b)))

end Sys2Proof.Machine
end

