-- ==== Sys2Proof/Machine/MatEngine.lean ====
section
/-! DEFINITION. The matrix engine: operand fetch, products, drains and transfers, staged commands, slot releases
(R254, R272-R299). -/

namespace Sys2Proof.Machine

/-! ### Operand formats (R273, R285, R287) -/

/-- Element bits of a matrix operand format; none for another code. -/
def matWidth (code : Nat) : Option Nat :=
  if code = 0x08 ∨ elemBits code = 0 then none else some (elemBits code)
def isZb (code : Nat) : Bool := decide (0x68 ≤ code ∧ code ≤ 0x6C)
/-- A code that R61 does not list. -/
def codeReserved (code : Nat) : Bool := elemBits code == 0 && code != 0 && code != 0xF8
/-- Elements of a row. -/
def rowK (w : Nat) : Nat := 1024 / w

/-- The fault of a consumed block, against the first block's code. -/
def blockErr (first code : Nat) : Option Err :=
  firstErr [
    (code == 0xF8, (0x08, 0x01)), (codeReserved code, (0x09, 0x01)), (code == 0, (0x09, 0x02)),
    ((matWidth code).isNone, (0x09, 0x03)), (matWidth code != matWidth first, (0x09, 0x05)),
    (isZb first && code != first, (0x09, 0x06))]

/-- An operand slot of a command: its core and physical number. -/
structure Operand where
  core : Nat
  slot : Nat
  deriving DecidableEq, Repr

def opCode (s : State) (o : Operand) (b : Nat) : Nat := slotTag s o.core o.slot b % 256
def opFirst (s : State) (o : Operand) : Nat := opCode s o 0
def opWidth (s : State) (o : Operand) : Nat := (matWidth (opFirst s o)).getD 8
def opExt (s : State) (o : Operand) : Nat × Nat :=
  let e := extOf s o.core o.slot
  (e.1, min e.2 (rowK (opWidth s o)))

/-- Present positions of a ZB slot before (r, k), over every row and K elements. -/
def zbRank (s : State) (o : Operand) (k0 r k : Nat) : Nat :=
  (List.range (r + 1)).foldl (fun n i =>
    n + ((List.range (if i = r then k else k0)).filter fun j => slotBit s o.core o.slot i j).length) 0

/-- The consumed blocks, ascending (R285). -/
def opBlocks (s : State) (o : Operand) : List Nat :=
  let w := opWidth s o
  let k := rowK w
  if isZb (opFirst s o) then
    List.range (max 1 (ceilDiv (zbRank s o k 64 0 * w / 8) 64))
  else
    let e := opExt s o
    (List.range e.1).flatMap fun r => if e.2 > k / 2 then [2 * r, 2 * r + 1] else [2 * r]

/-- The first fault of a slot's blocks. -/
def opErr (s : State) (o : Operand) : Option Err :=
  (blockErr (opFirst s o) (opFirst s o)).orElse fun _ =>
    (opBlocks s o).findSome? fun b => blockErr (opFirst s o) (opCode s o b)

/-- The element code at bit offset `bit` of a slot. -/
def slotElem (s : State) (o : Operand) (w bit : Nat) : Nat :=
  let b := (rdSlot s o.core o.slot (bit / 8)).toNat
  if w = 16 then b + 256 * (rdSlot s o.core o.slot (bit / 8 + 1)).toNat
  else if w = 8 then b
  else b / 2 ^ (bit % 8) % 16

/-- The value of the element at bit offset `bit`, under its block's descriptor (R286). -/
def slotVal (s : State) (o : Operand) (w bit : Nat) : FV :=
  let t := slotTag s o.core o.slot (bit / 512)
  elemVal (slotBook s o.core o.slot) (t % 256) (t / 256) (slotElem s o w bit)

/-- Row `r`, elements below `kk`; none where a zero bitmap has no element. DESIGN CHOICE: a block with a ZB code in a slot
whose block 0 is not ZB, which R285 makes no ZB slot and no fault, is read as dense elements of its base format (R59). -/
def opRow (s : State) (o : Operand) (kk r : Nat) : List (Option FV) :=
  let w := opWidth s o
  let k0 := rowK w
  if isZb (opFirst s o) then
    (List.range kk).map fun k =>
      if slotBit s o.core o.slot r k then some (slotVal s o w (zbRank s o k0 r k * w)) else none
  else (List.range kk).map fun k => some (slotVal s o w (1024 * r + k * w))

/-! ### The product (R67, R286) -/

/-- Products of a row and a column where both are present. -/
def products (a b : List (Option FV)) : List (FV × Nat) :=
  (a.zip b).filterMap fun p => match p.1, p.2 with
    | some x, some y => some (mulV x y)
    | _, _ => none

/-- The groups of 32 in ascending order added to an accumulator element; `n` bounds the groups. -/
def addGroups : Nat → List (Option FV) → List (Option FV) → Nat × Nat → Nat × Nat
  | 0, _, _, acc => acc
  | n + 1, a, b, acc =>
    if a.isEmpty then acc
    else
      let r := accAdd acc.1 (groupSum (products (a.take 32) (b.take 32)))
      addGroups n (a.drop 32) (b.drop 32) (r.1, acc.2 ||| r.2)

/-- The tile after the product, row-major, with its new flags last. -/
def mmaTile (s : State) (core tile : Nat) (z : Bool) (a b : Operand) : List Nat :=
  let ea := opExt s a
  let eb := opExt s b
  let kk := min ea.2 eb.2
  let bs := (List.range eb.1).map (opRow s b kk)
  let rows := (List.range 64).map fun i =>
    let ra := if i < ea.1 then opRow s a kk i else []
    (List.range 64).map fun j =>
      let old := if z then 0 else rdAcc s core (64 * tile + i) j
      if i < ea.1 ∧ j < eb.1 then addGroups 8 ra ((bs[j]?).getD []) (old, 0) else (old, 0)
  let es := rows.flatten
  es.map (·.1) ++ [es.foldl (fun f e => f ||| e.2) 0]

/-! ### Commands -/

def matTask (s : State) (c : MCmd) : Option Task := taskOf s c.task
def physTile (t : Task) (name : Nat) : Nat := t.tile0 + name

/-- The command at the head of a core's queue, unless its task is being killed. -/
def matHead (s : State) (core : Nat) : Option (MCmd × Task) :=
  match queueOf s core with
  | [] => none
  | c :: _ =>
    match matTask s c with
    | none => none
    | some t => match t.stopping with
      | .kill _ | .scrub _ => none
      | _ => some (c, t)

/-- The engine waits for the host (R383). -/
def matParked (s : State) (core : Nat) : Bool :=
  s.ctxs.any fun e => e.2.awaiting.any fun a => a.who == .matrix core

def modHead (s : State) (core : Nat) (f : MCmd → MCmd) : State :=
  match queueOf s core with
  | [] => s
  | c :: r => setQueue s core (f c :: r)

/-- The head command ends with a fault: parked for the host, or its task is killed (R297); it waits for a device that does not
answer yet (R410). -/
def matFault (s : State) (core : Nat) (c : MCmd) (e : Err) (addr : Nat) : State :=
  if e = eAgain then waitPeer s c.serial
  else if parks e none then (parkEngine s c.ctx (ownerVa s c.task none) e addr (.matrix core)).2
  else engineFault s c.task none (engineRec s core c.sidx c.pc e addr (e.1 != 0x05))

/-- Where an access of a matrix command is performed. -/
def matPlace (s : State) (core : Nat) (c : MCmd) (r : Rec) (va n : Nat) (wr : Bool) : Except (Err × Nat) (Space × Nat) :=
  match placeAt s c.ctx (ownerTr s c.task none) r (core / 128 * 128 + recTarget r) false va n wr with
  | .ok p => match noAnswer s c.serial p.1 with | some e => .error (e, va) | none => .ok p
  | .error e => .error (e, va)

/-- Places of the 64-byte blocks of a region, in order. -/
def regionBlocks (s : State) (core : Nat) (c : MCmd) (r : Rec) (wr : Bool) : Except (Err × Nat) (List (Space × Nat)) :=
  okOr (fun i => matPlace s core c r (regionAddr r (64 * i)) 64 wr) (List.range (regionSize r / 64))

def putBlock (s : State) (p : Space × Nat) (bs : List Byte) (desc : Nat) : State :=
  wrTag (wrBytes s p.1 p.2 bs) p.1 (p.2 / 64) (BitVec.ofNat 16 desc)
def putBlocks (s : State) (ps : List (Space × Nat)) (bs : List (List Byte × Nat)) : State :=
  (ps.zip bs).foldl (fun s e => putBlock s e.1 e.2.1 e.2.2) s

/-- The matrix engine of a core as it performs a command, and its path-M accesses from the state `s0` (R280): a read of memory need
not see a store that nothing orders before it. -/
def matWho (s : State) (core : Nat) (c : MCmd) : Who := whoCmd s (.matrix core) c.serial c.task none (core / 128) (some core)
def matLook (s : State) (core : Nat) (c : MCmd) (p : Space × Nat) (n : Nat) : List Byte := lookBytes s (matWho s core c) .M p.1 p.2 n
def matAcc (s : State) (w : Who) (wr : Bool) (l : HLoc) : Acc :=
  match l with
  | .bytes sp a n => if wr then accPut s w .M sp a n else lookAcc s w .M sp a n
  | _ => if wr then accWr w .M l else accRd w .M l
def logMat (s0 : State) (core : Nat) (c : MCmd) (wr : Bool) (ls : List HLoc) (s : State) : State :=
  logEvs s (ls.map fun l => .access (matAcc s0 (matWho s0 core c) wr l))
/-- Blocks and their descriptors (R173). -/
def blockLocs (ps : List (Space × Nat)) : List HLoc := ps.flatMap fun p => [.bytes p.1 p.2 64, .desc p.1 (p.2 / 64) 1]

def fp32Desc : Nat := 0x7F08
/-- An FP32 image in 64-byte blocks. -/
def imageBlocks (ws : List Nat) : List (List Byte × Nat) :=
  (List.range (ws.length / 16)).map fun i => (((ws.drop (16 * i)).take 16).flatMap (leBytes 4), fp32Desc)

/-! ### Operand fetch and MMA (R285-R287) -/

def operandOf (t : Task) (core name : Nat) : Operand := ⟨core, physSlot t name⟩

/-- The fault of an operand fetch. -/
def fetchErr (s : State) (core : Nat) (t : Task) (a b : Nat) : Option Err :=
  let oa := operandOf t core a
  let ob := operandOf t core b
  if !t.claimed.contains a || !t.claimed.contains b then some (0x0C, 0x03)
  else (opErr s oa).orElse fun _ => (opErr s ob).orElse fun _ =>
    if opWidth s oa ≠ opWidth s ob then some (0x09, 0x04) else none

/-- New extents of a slot wait for readers ahead of the command (R284). -/
def extPending (s : State) (c : MCmd) (o : Operand) : Bool :=
  s.slotWaits.any fun w => w.core == o.core && w.slot == o.slot && w.ext.isSome && !w.readers.contains c.serial

/-- The head MMA fetches its operands, with the extents that hold for it: the product is formed from them. -/
def matFetch (s : State) (core : Nat) : State :=
  match matHead s core with
  | none => s
  | some (c, t) =>
    match c.kind with
    | .mma z d a b =>
      let oa := operandOf t core a
      let ob := operandOf t core b
      if c.fetched || extPending s c oa || extPending s c ob then s
      else
        match fetchErr s core t a b with
        | some e => matFault s core c e 0
        | none =>
          let ws := mmaTile s core (physTile t d) z oa ob
          let s := logMat s core c false [.slot core oa.slot, .slot core ob.slot] s
          let s := logEv s (.release (matWho s core c) 4 .die (.fetched c.serial))
          modHead s core fun c => { c with fetched := true, image := ws.map (BitVec.ofNat 32) }
    | _ => s

/-- The head MMA writes its tile. -/
def matMma (s : State) (core : Nat) : State :=
  match matHead s core with
  | none => s
  | some (c, t) =>
    match c.kind with
    | .mma _ d _ _ =>
      if c.fetched && !c.executed then
        let ws := c.image.map (·.toNat)
        let s := orAccFlg (putTile s core (physTile t d) (ws.take 4096)) core (physTile t d) (nthN ws 4096)
        let s := logMat s core c true [.acc core (physTile t d)] (logMat s core c false [.acc core (physTile t d)] s)
        modHead s core fun c => { c with executed := true }
      else s
    | _ => s

/-- The head ACC.ZERO (R290). -/
def matZero (s : State) (core : Nat) : State :=
  match matHead s core with
  | none => s
  | some (c, t) =>
    match c.kind with
    | .zero flgOnly d =>
      if c.executed then s
      else
        let s := if flgOnly then s else zeroTile s core (physTile t d)
        modHead (logMat s core c true [.acc core (physTile t d)] (clrAccFlg s core (physTile t d))) core fun c => { c with executed := true }
    | _ => s

/-! ### Drains and transfers (R291-R293) -/

/-- One block of the converted image: bytes, descriptor, flags. -/
def drainBlock (code : Nat) (rm : Rm) (ws : List Nat) : List Byte × Nat × Nat :=
  let w := elemBits code
  let xs := ws.map (decodeIeee fp32)
  let (sc, es, fl) :=
    if isDx code then dxBlock w (dxGap code) rm xs
    else
      let rs := xs.map (encodeElem code rm)
      (127, rs.map (·.1), rs.foldl (fun f r => f ||| r.2) 0)
  (leBytes 64 (es.zipIdx.foldl (fun n e => n + e.1 * 2 ^ (w * e.2)) 0), sc * 256 + code, fl)

def drainImage (code : Nat) (rm : Rm) (ws : List Nat) : List (List Byte × Nat × Nat) :=
  let n := 512 / elemBits code
  (List.range (4096 / n)).map fun i => drainBlock code rm ((ws.drop (n * i)).take n)

/-- The home of a block for an add-on-store: a scratchpad is one home, memory has one for each line. -/
def homeOf (p : Space × Nat) : Nat :=
  match p.1 with
  | .scr _ => 0
  | .mem => p.2 / 256 + 1
  | .peer d => (d + 1) * 2 ^ 40 + p.2 / 256 + 1

def dedup (l : List Nat) : List Nat := l.foldl (fun acc a => if acc.contains a then acc else acc ++ [a]) []

/-- The head DRAIN: the copy of the tile, its conversion, the blocks; an add-on-store goes to its homes (R292, R293). -/
def matDrain (s : State) (core : Nat) : State :=
  match matHead s core with
  | none => s
  | some (c, t) =>
    match c.kind with
    | .drain code rm add clr dst a =>
      if c.executed || matParked s core then s
      else
        match regionBlocks s core c dst true with
        | .error e => matFault s core c e.1 e.2
        | .ok ps =>
          let tile := physTile t a
          let ws := tileWords s core tile
          let img := drainImage code rm ws
          let s := if clr then scrubTile s core tile else s
          let s := orAccFlg s core tile (img.foldl (fun f b => f ||| b.2.2) 0)
          let s := logMat s core c false [.acc core tile] s
          let s := if clr then logMat s core c true [.acc core tile] s else s
          if add then
            modHead s core fun c => { c with executed := true, image := ws.map (BitVec.ofNat 32), homes := dedup (ps.map homeOf) }
          else
            let s := logMat s core c true (blockLocs ps) (putBlocks s ps (img.map fun b => (b.1, b.2.1)))
            modHead s core fun c => { c with executed := true }
    | _ => s

/-- One word of an add-on-store: rne(old + v), no flag. -/
def addWord (old v : Nat) : Nat := (addF fp32 .rne old v).1

/-- A home applies its part, wholly or, where a descriptor differs, not at all (R293). -/
def matAddHome (s : State) (core home : Nat) : State :=
  match queueOf s core with
  | [] => s
  | c :: _ =>
    match c.kind with
    | .drain _ _ _ _ dst _ =>
      if !c.homes.contains home then s
      else
        match regionBlocks s core c dst true with
        | .error e => if matParked s core then s else matFault s core c e.1 e.2
        | .ok ps =>
          let mine := (ps.zipIdx).filter fun p => homeOf p.1 == home
          let s := modHead s core fun c => { c with homes := c.homes.filter (· ≠ home) }
          if mine.any fun p => (rdTag s p.1.1 (p.1.2 / 64)).toNat ≠ fp32Desc then
            engineFault s c.task none (engineRec s core c.sidx c.pc (0x09, 0x07) 0 true)
          else
            let s' := mine.foldl (fun s p =>
              (List.range 16).foldl (fun s i =>
                let v := ((c.image[16 * p.2 + i]?).getD 0).toNat
                wrN s p.1.1 (p.1.2 + 4 * i) 4 (addWord (rdN s p.1.1 (p.1.2 + 4 * i) 4) v)) s) s
            let ls := blockLocs (mine.map (·.1))
            let w := matWho s core c
            logMat s core c true ls (logEvs s' (ls.map fun l => .access (accRd w .M l)))
    | _ => s

/-- The head ACC.LD (R291). -/
def matLd (s : State) (core : Nat) : State :=
  match matHead s core with
  | none => s
  | some (c, t) =>
    match c.kind with
    | .accLd d src =>
      if c.executed || matParked s core then s
      else
        match regionBlocks s core c src false with
        | .error e => matFault s core c e.1 e.2
        | .ok ps =>
          match ps.zipIdx.find? fun p => (rdTag s p.1.1 (p.1.2 / 64)).toNat % 256 == 0xF8 with
          | some p => matFault s core c (0x08, 0x03) (regionAddr src (64 * p.2))
          | none =>
            let ws := ps.flatMap fun p =>
              let bs := matLook s core c p 64
              (List.range 16).map fun i => leVal ((bs.drop (4 * i)).take 4)
            let s' := clrAccFlg (putTile s core (physTile t d) ws) core (physTile t d)
            let s := logMat s core c true [.acc core (physTile t d)] (logMat s core c false (blockLocs ps) s')
            modHead s core fun c => { c with executed := true }
    | _ => s

/-- The head ACC.ST (R291). -/
def matSt (s : State) (core : Nat) : State :=
  match matHead s core with
  | none => s
  | some (c, t) =>
    match c.kind with
    | .accSt dst a =>
      if c.executed || matParked s core then s
      else
        match regionBlocks s core c dst true with
        | .error e => matFault s core c e.1 e.2
        | .ok ps =>
          let s' := putBlocks s ps (imageBlocks (tileWords s core (physTile t a)))
          let s := logMat s core c true (blockLocs ps) (logMat s core c false [.acc core (physTile t a)] s')
          modHead s core fun c => { c with executed := true }
    | _ => s

/-- The head command leaves the queue once its results and its homes are written; a wait of its squad may acquire them (R280). -/
def matComplete (s : State) (core : Nat) : State :=
  match queueOf s core with
  | [] => s
  | c :: r =>
    if c.executed && c.homes.isEmpty then
      logEv (peerDone (setQueue s core r) c.serial) (.release (matWho s core c) 4 .die (.matrix c.squad))
    else s

/-! ### Acceptance and staged commands (R279, R288) -/

/-- A squad held for an accepted command goes on. -/
def releaseAccept (s : State) (squad cmd : Nat) : State :=
  modSquad s squad fun q => if q.wait = some (.accept cmd) then { q with wait := none } else q

/-- The queue takes the oldest command that waits for room. -/
def matAccept (s : State) (core : Nat) : State :=
  match inboxOf s core with
  | [] => s
  | c :: r =>
    if (queueOf s core).length < 8 then
      releaseAccept (setInbox (setQueue s core (queueOf s core ++ [c])) core r) c.squad c.serial
    else s

/-- A staged command whose trigger reached zero enters the queue. -/
def stagedFire (s : State) (core n : Nat) : State :=
  match aget s.staged (core * 8 + n) with
  | none => s
  | some g =>
    if g.trig = 0 ∧ n < 8 ∧ (queueOf s core).length < 8 then
      let s := logEv s (.acquire (matWho s core g.cmd) 4 .die [.staged g.cmd.serial])
      setQueue { s with staged := adel s.staged (core * 8 + n) } core (queueOf s core ++ [g.cmd])
    else s

/-- Matrix commands that a squad has issued and that are not complete (R294). -/
def incomplete (s : State) (core squad : Nat) : Nat :=
  let mine (c : MCmd) : Bool := c.squad == squad
  ((queueOf s core).filter mine).length + ((inboxOf s core).filter mine).length +
    ((s.staged.filter fun e => e.1 / 8 == core && mine e.2.cmd)).length

/-! ### Slot releases (R283, R284) -/

/-- A slot's waiting effect of a kind takes place: its readers have fetched, for a free no fill into it is in flight. -/
def slotReady (s : State) (w : SlotWait) : Bool :=
  allFetched s w.core w.readers && (w.ext.isSome || (fillsOf s w.task w.name).isEmpty)

def takeSlotWait (s : State) (w : SlotWait) : State := { s with slotWaits := s.slotWaits.filter (· ≠ w) }

def slotFreeEffect (s : State) (core slot : Nat) : State :=
  match s.slotWaits.find? fun w => w.core == core && w.slot == slot && w.ext.isNone && slotReady s w with
  | none => s
  | some w => modTask (takeSlotWait s w) w.task fun t => { t with claimed := t.claimed.filter (· ≠ w.name) }

def slotExtEffect (s : State) (core slot : Nat) : State :=
  match s.slotWaits.find? fun w => w.core == core && w.slot == slot && w.ext.isSome && slotReady s w with
  | none => s
  | some w => setExt (takeSlotWait s w) core slot (w.ext.getD (64, 256))

end Sys2Proof.Machine
end

