-- ==== Sys2Proof/Machine/Matrix.lean ====
section
/-! DEFINITION. The instructions of slots, matrix commands and accumulator tiles (R281-R294). -/

namespace Sys2Proof.Machine

/-- Names of a mask of 64 bits, ascending. -/
def namesOf (m : Nat) : List Nat := (List.range 64).filter fun k => m.testBit k
def maskNames (l : List Nat) : Nat := l.foldl (fun m k => m + 2 ^ k) 0

/-- The names of the issuing task, and those not claimed. -/
def slotCount (s : State) (q : Squad) : Nat := (trOf s q).slots
def claimedNames (s : State) (q : Squad) : List Nat := ((taskOf s q.task).map (·.claimed)).getD []
def freeNames (s : State) (q : Squad) : List Nat := (List.range (slotCount s q)).filter fun k => !(claimedNames s q).contains k
def physOf (s : State) (q : Squad) (name : Nat) : Nat := ((taskOf s q.task).map fun t => physSlot t name).getD 0

/-- Claim names: sidecar and extents are reset (R276, R282). -/
def claimNames (s : State) (q : Squad) (ns : List Nat) : State :=
  let s := ns.foldl (fun s n =>
    let p := physOf s q n
    resetSide { s with slotWaits := s.slotWaits.filter fun w => !(w.core == q.core && w.slot == p) } q.core p) s
  modTask s q.task fun t => { t with claimed := t.claimed ++ ns }

def claimForm (h : Hdr) (sd : Nat) (b : Opnd) (pick : List Nat → Nat → List Nat) (s : State) : Out :=
  issue h 1 (.once 1) s fun x s =>
    if x.act = 0 then .ok s
    else
      let ns := pick (freeNames s x.q) (rdScal x.q b)
      .ok (putLater (claimNames s x.q ns) x [.s sd (BitVec.ofNat 64 (maskNames ns))])

def execSlotClaim (h : Hdr) (sd : Nat) (b : Opnd) (s : State) : Out :=
  claimForm h sd b (fun free k => if 1 ≤ k ∧ k ≤ 64 ∧ k ≤ free.length then free.take k else []) s
def execSlotClaimAt (h : Hdr) (sd : Nat) (b : Opnd) (s : State) : Out :=
  claimForm h sd b (fun free m => if m ≠ 0 ∧ (namesOf m).all free.contains then namesOf m else []) s

def execSlotFree (h : Hdr) (b : Opnd) (s : State) : Out :=
  issue h 1 (.once 1) s fun x s =>
    if x.act = 0 then .ok s
    else
      let ns := namesOf (rdScal x.q b)
      if ns.any fun n => !(claimedNames s x.q).contains n then failI s x 0x0C 2
      else
        let ws := ns.map fun n => (⟨x.q.core, physOf s x.q n, x.q.task, n,
          pendingReaders s x.q.core x.q.task n, none⟩ : SlotWait)
        .ok { s with slotWaits := s.slotWaits ++ ws }

/-- The status word of R284. -/
def slotStatus (s : State) (q : Squad) (name : Nat) : Nat :=
  let p := physOf s q name
  let e := extOf s q.core p
  let reads := (queueOf s q.core).any fun c => readsSlot c q.task name
  slotTag s q.core p 0 % 256 * 2 ^ 32 + (!(fillsOf s q.task name).isEmpty).toNat * 2 ^ 23 + reads.toNat * 2 ^ 22 +
    ((claimedNames s q).contains name).toNat * 2 ^ 21 + e.2 * 256 + e.1

def execSlotInfoGet (h : Hdr) (sd oa : Nat) (s : State) : Out :=
  issue h 1 (.once 1) s fun x s =>
    if x.act = 0 then .ok s else .ok (putLater s x [.s sd (BitVec.ofNat 64 (slotStatus s x.q oa))])

def execSlotInfoExt (h : Hdr) (od : Nat) (b : Opnd) (s : State) : Out :=
  issue h 1 (.once 1) s fun x s =>
    if x.act = 0 then .ok s
    else
      let v := rdScal x.q b
      let rows := v % 128
      let kel := v / 256 % 512
      if !(claimedNames s x.q).contains od then failI s x 0x0C 1
      else if rows = 0 ∨ rows > 64 ∨ kel = 0 ∨ kel > 256 ∨ v ≠ rows + 256 * kel then failI s x 0x0C 7
      else .ok { s with slotWaits := s.slotWaits ++ [⟨x.q.core, physOf s x.q od, x.q.task, od,
        pendingReaders s x.q.core x.q.task od, some (rows, kel)⟩] }

/-- A command of the task that writes the tile is not complete (R284). -/
def tileBusy (s : State) (q : Squad) (name : Nat) : Bool :=
  let hit (c : MCmd) : Bool := c.task == q.task && writesTile c.kind name
  (queueOf s q.core).any hit || (inboxOf s q.core).any hit || s.staged.any fun e => e.1 / 8 == q.core && hit e.2.cmd

def tileOf (s : State) (q : Squad) (name : Nat) : Nat := ((taskOf s q.task).map fun t => physTile t name).getD 0

def execSlotInfoAcc (h : Hdr) (sd aa : Nat) (s : State) : Out :=
  issue h 1 (.once 1) s fun x s =>
    if x.act = 0 then .ok s
    else
      let v := (rdAccFlg s x.q.core (tileOf s x.q aa)).toNat + 32 * (tileBusy s x.q aa).toNat
      .ok (putLater s x [.s sd (BitVec.ofNat 64 v)])

/-! ### Commands -/

def newCmd (s : State) (x : Iss) (k : MKind) : MCmd :=
  ⟨s.nextId, ctxId s x.q, x.q.task, x.id, x.q.idx, x.path.pc, k, false, false, [], []⟩

/-- Queue a matrix command: the squad is held until the queue has room (R279). -/
def matSubmit (s : State) (x : Iss) (k : MKind) : Res :=
  let c := newCmd s x k
  let s := logCmd (modSquad { s with nextId := s.nextId + 1 } x.id (countCmd 5)) x c.serial
  .hold (setInbox s x.q.core (inboxOf s x.q.core ++ [c])) (.accept c.serial)

def execMma (h : Hdr) (z : Bool) (ad oa ob : Nat) (s : State) : Out :=
  issue h 7 (.once 1) s fun x s =>
    if x.act = 0 then .ok s
    else if !claimedBy s x.q oa || !claimedBy s x.q ob then failI s x 0x0C 3
    else matSubmit s x (.mma z ad oa ob)

def execMmStage (h : Hdr) (n : Nat) (t2 z : Bool) (ad oa ob : Nat) (s : State) : Out :=
  issue h 7 (.once 1) s fun x s =>
    if x.act = 0 then .ok s
    else if (aget s.staged (x.q.core * 8 + n)).isSome then failI s x 0x0C 6
    else if !claimedBy s x.q oa || !claimedBy s x.q ob then failI s x 0x0C 3
    else
      let c := newCmd s x (.mma z ad oa ob)
      let s := logCmd (modSquad { s with nextId := s.nextId + 1 } x.id (countCmd 5)) x c.serial
      .ok { s with staged := aput s.staged (x.q.core * 8 + n) ⟨c, if t2 then 2 else 1⟩ }

def execAccZero (h : Hdr) (ad : Nat) (s : State) : Out :=
  issue h 2 (.once 1) s fun x s => if x.act = 0 then .ok s else matSubmit s x (.zero false ad)
def execAccZeroFlg (h : Hdr) (ad : Nat) (s : State) : Out :=
  issue h 2 (.once 1) s fun x s => if x.act = 0 then .ok s else matSubmit s x (.zero true ad)

/-- The formats that DRAIN permits (R292). -/
def drainFmt (c : Nat) : Bool :=
  [0x08, 0x10, 0x18, 0x20, 0x28, 0x30, 0x38, 0x39, 0x40].contains c || isDx c

/-- The rows of R250 that concern a transfer's record (R291, R292). -/
def xferErr (s : State) (x : Iss) (r : Rec) (wr : Bool) (size : Nat) (badWord : Bool) : Option Err :=
  firstErr [
    (recKind r != 0, eACCESS 2), (wr && !recWr r, eACCESS 6), (recReserved r || badWord, eACCESS 4),
    (recSwz r != 0 || regionSize r != size, eACCESS 5), (!aligned64 r, (0x03, 0x02)),
    (!regionIn s (ctxId s x.q) (targetCore x.q r) false r, eACCESS 8)]

def execDrain (h : Hdr) (rm : Rm) (add clr : Bool) (bd aa : Nat) (b : Opnd) (s : State) : Out :=
  issue h 4 (.once 1) s fun x s =>
    if x.act = 0 then .ok s
    else
      let code := rdScal x.q b
      let r := rdB x.q bd
      match xferErr s x r true (512 * elemBits code) (!drainFmt code || (add && code != 0x08)) with
      | some e => failE s x e
      | none => matSubmit s x (.drain code rm add clr r aa)

def execAccLd (h : Hdr) (ad ba : Nat) (s : State) : Out :=
  issue h 4 (.once 1) s fun x s =>
    if x.act = 0 then .ok s
    else
      match xferErr s x (rdB x.q ba) false 16384 false with
      | some e => failE s x e
      | none => matSubmit s x (.accLd ad (rdB x.q ba))

def execAccSt (h : Hdr) (bd aa : Nat) (s : State) : Out :=
  issue h 4 (.once 1) s fun x s =>
    if x.act = 0 then .ok s
    else
      match xferErr s x (rdB x.q bd) true 16384 false with
      | some e => failE s x e
      | none => matSubmit s x (.accSt (rdB x.q bd) aa)

/-- MM.WAIT: a settle point that also holds its condition (R294). -/
def execMmWait (h : Hdr) (b : Opnd) (s : State) : Out :=
  issue h 0 (.once 1) s fun x s =>
    if x.act = 0 then .ok s
    else
      let n := match x.wait with
        | some (.mmWait n) => n
        | _ => rdScal x.q b
      let busy := ((squadOf s x.id).map fun q => !q.pend.isEmpty).getD false
      if busy || decide (incomplete s x.q.core x.id > n) then .wait s (.mmWait n)
      else .ok (logAcq s x 15 .die [.matrix x.id])

end Sys2Proof.Machine
end

