-- ==== Sys2Proof/Machine/Grammar.lean ====
section
/-! DEFINITION. GMV: grammar-compressed matrices (R306-R317). -/

namespace Sys2Proof.Machine

/-- Fields of the control word (R309). -/
def gmvNb (w : Nat) : Nat := bits w 30 24
def gmvCap (w : Nat) : Nat := bits w 23 12
def gmvBase (w : Nat) : Nat := bits w 10 0
def gmvWordBad (w : Nat) : Bool :=
  w / 2 ^ 31 != 0 || bits w 11 11 != 0 || gmvNb w == 0 || decide (gmvNb w > 64) || gmvCap w == 0 || decide (gmvCap w > 2048)

/-- The checks at issue, in the order of R310. -/
def gmvErr (s : State) (x : Iss) (d a i : Rec) (w : Nat) : Option Err :=
  let bad (r : Rec) : Bool := !regionIn s (ctxId s x.q) (targetCore x.q r) false r
  firstErr [
    (recKind d != 0 || recKind a != 0 || recKind i != 0 || recSpace i != 1 || targetCore x.q i != x.q.core, eACCESS 2),
    (!recWr d, eACCESS 6),
    (recReserved d || recReserved a || recReserved i || gmvWordBad w, eACCESS 4),
    (rec2d d || rec2d a || rec2d i || recSwz d != 0 || recSwz a != 0 || recSwz i != 0, eACCESS 5),
    (recBase a % 64 != 0 || recBase i % 64 != 0 || recBase d % 64 != 0, (0x03, 0x02)),
    (decide (gmvBase w + gmvCap w > 64 * (trOf s x.q).acc), eACCESS 0x0D),
    (bad d || bad a || bad i, eACCESS 8)]

def execGmv (h : Hdr) (bi bd ba sb : Nat) (s : State) : Out :=
  issue h 6 (.once 1) s fun x s =>
    if x.act = 0 then .ok s
    else
      let cw := rdS x.q sb
      match gmvErr s x (rdB x.q bd) (rdB x.q ba) (rdB x.q bi) cw.toNat with
      | some e => failE s x e
      | none => matSubmit s x (.gmv (rdB x.q bd) (rdB x.q ba) (rdB x.q bi) cw)

/-! ### Evaluation (R311) -/

/-- One evaluation: core, task, command, records and control word. -/
structure Gmv where
  core : Nat
  tile0 : Nat
  cmd : MCmd
  dst : Rec
  src : Rec
  inp : Rec
  nb : Nat
  cap : Nat
  base : Nat
  rows : Nat
  cols : Nat
  dlim : Nat
  /-- end of the rule words -/
  fin : Nat
  deriving DecidableEq, Repr

abbrev GFail := Err × Nat
def gram (sub : Nat) : GFail := ((0x0B, sub), 0)

/-- Four stream bytes at `p`; a POISON block faults. -/
def gmvRead (s : State) (g : Gmv) (p : Nat) : Except GFail Nat :=
  match matPlace s g.core g.cmd g.src (recBase g.src + p) 4 false with
  | .error e => .error e
  | .ok q =>
    if poisoned s q.1 q.2 4 then .error ((0x08, 0x01), recBase g.src + p) else .ok (leVal (matLook s g.core g.cmd q 4))

/-- A rule word, inside the stream. -/
def gmvWord (s : State) (g : Gmv) (p : Nat) : Except GFail Nat :=
  if p + 4 > g.fin then .error (gram 8) else gmvRead s g p

/-- The input element of column `c`, vector `b`: its exact value, or the fault of its block (R313). -/
def gmvInput (s : State) (g : Gmv) (c b : Nat) : Except GFail FV :=
  let va := recBase g.inp + 4 * (c * g.nb + b)
  match matPlace s g.core g.cmd g.inp va 4 false with
  | .error e => .error e
  | .ok q =>
    let t := (rdTag s q.1 (q.2 / 64)).toNat
    let code := t % 256
    match firstErr [(code == 0xF8, (0x08, 0x01)), (codeReserved code, (0x09, 0x01)), (code == 0, (0x09, 0x02)),
        (code != 0x08, (0x09, 0x03))] with
    | some e => .error (e, va)
    | none => .ok (elemVal (fun _ => 0) code (t / 256) (leVal (matLook s g.core g.cmd q 4)))

def gmvRow (g : Gmv) (k : Nat) : Nat := 64 * g.tile0 + g.base + k

/-- The running sums of the batch columns with the flags raised so far. -/
abbrev Sums := Option (List Nat) × Nat

/-- Add one contribution to every column (R69). -/
def addSums (old : Sums) (c : List Nat) (f : Nat) : Sums :=
  match old.1 with
  | none => (some c, old.2 ||| f)
  | some l =>
    let rs := List.zipWith (addF fp32 .rne) l c
    (some (rs.map (·.1)), rs.foldl (fun f r => f ||| r.2) (old.2 ||| f))

/-- The contribution of a terminal. -/
def terminal (s : State) (g : Gmv) (col val : Nat) : Except GFail (List Nat × Nat) :=
  (okOr (fun b => (gmvInput s g col b).map fun x => opF fp32 .rne (mulV (decodeIeee bf16 val) x)) (List.range g.nb)).map
    fun rs => (rs.map (·.1), rs.foldl (fun f r => f ||| r.2) 0)

/-- The symbols of rule `i` from position `p`: sums, flags and the largest referenced depth; a fault with the position after the
last word looked at. -/
def gmvSyms (s : State) (g : Gmv) (i : Nat) (depth : List Nat) : Nat → Nat → Sums → Nat → Except (GFail × Nat) (Sums × Nat)
  | 0, _, sums, dmax => .ok (sums, dmax)
  | n + 1, p, sums, dmax =>
    match gmvWord s g p with
    | .error e => .error (e, p + 4)
    | .ok w =>
      if !w.testBit 31 then
        if bits w 30 16 ≥ g.cols then .error (gram 6, p + 4)
        else
          match terminal s g (bits w 30 16) (bits w 15 0) with
          | .error e => .error (e, p + 4)
          | .ok c => gmvSyms s g i depth n (p + 4) (addSums sums c.1 c.2) dmax
      else if bits w 30 11 ≠ 0 then .error (gram 6, p + 4)
      else
        let k := bits w 10 0
        if k ≥ i then .error (gram 2, p + 4)
        else
          let c := (List.range g.nb).map fun b => rdAcc s g.core (gmvRow g k) b
          gmvSyms s g i depth n (p + 4) (addSums sums c 0) (max dmax (nthN depth k))

/-- Write row `r` of the accumulator store: the sums, then +0. -/
def gmvPutRow (s : State) (g : Gmv) (r : Nat) (ws : List Nat) : State :=
  (List.range 64).foldl (fun s b => wrAcc s g.core r b (nthN ws b)) s

/-- Write an output row: four blocks (R313). -/
def gmvPutOut (s : State) (g : Gmv) (o : Nat) (ws : List Nat) : Except GFail State :=
  (okOr (fun i => matPlace s g.core g.cmd g.dst (recBase g.dst + 256 * o + 64 * i) 64 true) (List.range 4)).map fun ps =>
    logMat s g.core g.cmd true (blockLocs ps) (putBlocks s ps (imageBlocks ((List.range 64).map (nthN ws))))

/-- The rules from number `i` on, at position `p`; `n` remain. The state keeps what earlier rules wrote; with it come the
fault, the end of the words looked at, and the number of rules that are done. -/
def gmvRules (g : Gmv) : Nat → Nat → Nat → List Nat → State → State × Option GFail × Nat × Nat
  | 0, i, p, _, s => (s, if p = g.fin then none else some (gram 8), p, i)
  | n + 1, i, p, depth, s =>
    match gmvWord s g p with
    | .error e => (s, some e, p + 4, i)
    | .ok h =>
      let out := h.testBit 17
      let orow := bits h 31 18
      let dp := bits h 16 12
      let next := p + 4 + 4 * bits h 11 0
      if !out && orow != 0 then (s, some (gram 6), p + 4, i)
      else
        match gmvSyms s g i depth (bits h 11 0) (p + 4) (none, 0) 0 with
        | .error e => (s, some e.1, e.2, i)
        | .ok (sums, dmax) =>
          if dp ≠ dmax + 1 then (s, some (gram 3), next, i)
          else if dp > g.dlim then (s, some (gram 4), next, i)
          else if out && decide (orow ≥ g.rows) then (s, some (gram 7), next, i)
          else
            let row := gmvRow g i
            let ws := (sums.1).getD []
            let s' := orAccFlg (gmvPutRow s g row ws) g.core (row / 64) sums.2
            if out then
              match gmvPutOut s' g orow ws with
              | .error e => (s, some e, next, i)
              | .ok s' => gmvRules g n (i + 1) next (depth ++ [dp]) s'
            else gmvRules g n (i + 1) next (depth ++ [dp]) s'

/-- The header's bytes as one number, word by word. -/
def gmvHeader (s : State) (g : Gmv) : Except GFail Nat :=
  (okOr (fun i => gmvRead s g (4 * i)) (List.range 16)).map fun ws =>
    ws.zipIdx.foldl (fun n e => n + e.1 * 2 ^ (32 * e.2)) 0

/-- R306's conditions on the header. -/
def gmvHeaderOk (h : Nat) : Bool :=
  bits h 31 0 == 0x314D5247 && decide (1 ≤ bits h 47 32 ∧ bits h 47 32 ≤ 16384) &&
    decide (1 ≤ bits h 63 48 ∧ bits h 63 48 ≤ 32768) && decide (1 ≤ bits h 79 64 ∧ bits h 79 64 ≤ 2048) &&
    bits h 87 80 == 0x18 && decide (1 ≤ bits h 95 88 ∧ bits h 95 88 ≤ 31) && h / 2 ^ 128 == 0

/-- The whole evaluation: the state it leaves, its fault, the end of the stream bytes it looked at, and the rules done. -/
def gmvRun (s : State) (g : Gmv) : State × Option GFail × Nat × Nat :=
  if regionSize g.src < 64 then (s, some (gram 9), 0, 0)
  else
    match gmvHeader s g with
    | .error e => (s, some e, 64, 0)
    | .ok h =>
      let nrule := bits h 79 64
      let fin := 64 + 4 * bits h 127 96
      if !gmvHeaderOk h then (s, some (gram 1), 64, 0)
      else if nrule > g.cap then (s, some (gram 5), 64, 0)
      else if regionSize g.src < fin ∨ regionSize g.inp < 4 * bits h 63 48 * g.nb ∨ regionSize g.dst < 256 * bits h 47 32 then
        (s, some (gram 9), 64, 0)
      else
        gmvRules { g with rows := bits h 47 32, cols := bits h 63 48, dlim := bits h 95 88, fin := fin } nrule 0 64 [] s

/-- The columns that the terminals of the rules from position `p` on name, as far as `stop`; `n` rules at most. -/
def gmvColumns (s : State) (g : Gmv) (stop : Nat) : Nat → Nat → List Nat
  | 0, _ => []
  | n + 1, p =>
    if p ≥ stop then []
    else
      match gmvWord s g p with
      | .error _ => []
      | .ok h =>
        ((List.range (bits h 11 0)).filterMap fun j =>
          match gmvWord s g (p + 4 + 4 * j) with
          | .ok w => if w.testBit 31 ∨ p + 4 + 4 * j ≥ stop then none else some (bits w 30 16)
          | .error _ => none) ++ gmvColumns s g stop n (p + 4 + 4 * bits h 11 0)

/-- What an evaluation has read that looked at the stream up to `stop`: the stream, and the inputs of its terminals with their
descriptors (R316). -/
def gmvReads (s : State) (g : Gmv) (stop : Nat) : List HLoc :=
  let h := match gmvHeader s g with | .ok h => h | .error _ => 0
  let g := { g with fin := 64 + 4 * bits h 127 96 }
  let at' (r : Rec) (va : Nat) : List HLoc :=
    match matPlace s g.core g.cmd r va 4 false with
    | .ok p => [.bytes p.1 p.2 4, .desc p.1 (p.2 / 64) 1]
    | .error _ => []
  let cols := dedup (gmvColumns s g stop (bits h 79 64) 64)
  (List.range (stop / 4)).flatMap (fun i => at' g.src (recBase g.src + 4 * i)) ++
    cols.flatMap fun c => (List.range g.nb).flatMap fun b => at' g.inp (recBase g.inp + 4 * (c * g.nb + b))

/-- The tiles of the first `done` rows, and the accesses of an evaluation in the record, from the state before it. -/
def gmvTiles (g : Gmv) (done : Nat) : List HLoc := (dedup ((List.range done).map fun k => gmvRow g k / 64)).map (.acc g.core ·)
def gmvLog (s0 : State) (g : Gmv) (stop done : Nat) (s : State) : State :=
  logMat s0 g.core g.cmd true (gmvTiles g done) (logMat s0 g.core g.cmd false (gmvReads s0 g stop ++ gmvTiles g done) s)

/-- The head GMV evaluates its stream. A parked fault leaves nothing written, so that the replay starts anew. -/
def gmvEval (s : State) (core : Nat) : State :=
  match matHead s core with
  | none => s
  | some (c, t) =>
    match c.kind with
    | .gmv dst src inp cw =>
      if c.executed || matParked s core then s
      else
        let w := cw.toNat
        let g : Gmv := ⟨core, t.tile0, c, dst, src, inp, gmvNb w, gmvCap w, gmvBase w, 0, 0, 0, 0⟩
        match gmvRun s g with
        | (s', none, stop, done) => modHead (gmvLog s g stop done s') core fun c => { c with executed := true }
        | (s', some e, stop, done) =>
          if e.1 = eAgain then matFault s core c e.1 e.2
          else if parks e.1 none then matFault (gmvLog s g stop 0 s) core c e.1 e.2
          else matFault (gmvLog s g stop done s') core c e.1 e.2
    | _ => s

end Sys2Proof.Machine
end

