-- ==== Sys2Proof/Machine/Raster.lean ====
section
/-! DEFINITION. Views, primitive records, coverage, disparity and the raster state (R318-R331). -/

namespace Sys2Proof.Machine

/-! ### FP32 codes without flags (R321, R326) -/

def fAdd (a b : Nat) : Nat := (addF fp32 .rne a b).1
def fSub (a b : Nat) : Nat := (subF fp32 .rne a b).1
def fMul (a b : Nat) : Nat := (mulF fp32 .rne a b).1
def fDiv (a b : Nat) : Nat := (divF .rne a b).1
def fOne : Nat := 0x3F800000

/-- m x 2^e, exact in FP32 where the manual says so. -/
def f32Int (m e : Int) : Nat := (encodeF fp32 .rne (.fin (decide (m < 0)) m.natAbs e)).1

/-- f32(num / den) for a positive den: the exact quotient rounded once. -/
def f32Ratio (num den : Int) : Nat :=
  if num = 0 then 0
  else
    let q := divMag num.natAbs 0 den.natAbs 0
    (encodeF fp32 .rne (.fin (decide (num < 0)) q.1 q.2.1) q.2.2).1

/-! ### Bands (R318, R319) -/

/-- Vb of a band, 0 when it is not enabled. -/
def bandViews (band : W64) (b : Nat) : Nat :=
  let w := bits band.toNat (16 * b + 15) (16 * b)
  if w.testBit 15 then w % 64 + 1 else 0

/-- The doubled view offset. -/
def viewE2 (v : Int) (n : Nat) : Int := 2 * v - ((n : Int) - 1)

/-! ### Primitive records (R320-R322) -/

/-- XC, Y and D2 of a vertex. -/
structure Vtx where
  x : Int
  y : Int
  d : Int
  deriving DecidableEq, Repr

structure Prim where
  v0 : Vtx
  v1 : Vtx
  v2 : Vtx
  ctrl : Nat
  ymin : Int
  ymax : Int
  alpha : Nat
  beta : Nat
  gamma : Nat
  l1x : Nat
  l1y : Nat
  l10 : Nat
  l2x : Nat
  l2y : Nat
  l20 : Nat
  deriving DecidableEq, Repr

def wordOf (n i : Nat) : Nat := bits n (32 * i + 31) (32 * i)
def vtxOf (n i : Nat) : Vtx := ⟨sextN 32 (wordOf n i), sextN 32 (wordOf n (i + 1)), sextN 32 (wordOf n (i + 2))⟩

/-- A record from its 128 bytes. -/
def primOf (n : Nat) : Prim :=
  { v0 := vtxOf n 0, v1 := vtxOf n 3, v2 := vtxOf n 6, ctrl := wordOf n 9, ymin := sextN 32 (wordOf n 10),
    ymax := sextN 32 (wordOf n 11), alpha := wordOf n 12, beta := wordOf n 13, gamma := wordOf n 14, l1x := wordOf n 15,
    l1y := wordOf n 16, l10 := wordOf n 17, l2x := wordOf n 18, l2y := wordOf n 19, l20 := wordOf n 20 }

def primViews (p : Prim) : Nat := bits p.ctrl 13 8 + 1
def primBand (p : Prim) : Nat := p.ctrl % 4
def primCull (p : Prim) : Nat := bits p.ctrl 6 4
/-- Reserved bits or a reserved CULL of CTRL (R322). -/
def ctrlBad (c : Nat) : Bool := c / 2 ^ 14 != 0 || c.testBit 7 || c.testBit 3 || decide (bits c 6 4 > 3)

/-- Words of a record from number `i` on. -/
def packWords : List Nat → Nat
  | [] => 0
  | w :: r => w + 2 ^ 32 * packWords r

def vtxWords (v : Vtx) : List Nat := [cutN 32 v.x, cutN 32 v.y, cutN 32 v.d]
def inQ (k : Nat) (x : Int) : Bool := decide (-(2 ^ k : Int) ≤ x) && decide (x < 2 ^ k)

/-- The record that setup writes, as a number, and its CULL reason (R321, R322). -/
def buildPrim (a b c : Vtx) (band views cull : Nat) : Nat × Nat :=
  let ctrl (reason swap : Nat) : Nat := (views - 1) * 256 + reason * 16 + swap * 4 + band
  let culled (reason : Nat) : Nat × Nat :=
    (packWords (vtxWords a ++ vtxWords b ++ vtxWords c ++ [ctrl reason 0]), reason)
  let ok (v : Vtx) : Bool := inQ 23 v.x && inQ 23 v.y && inQ 20 v.d
  let area := (b.x - a.x) * (c.y - a.y) - (c.x - a.x) * (b.y - a.y)
  if !(ok a && ok b && ok c) then culled 3
  else if area = 0 then culled 1
  else if (cull = 1 ∧ area < 0) ∨ (cull = 2 ∧ area > 0) then culled 2
  else
    let swap := decide (area < 0)
    let v1 := if swap then c else b
    let v2 := if swap then b else c
    let ar : Int := area.natAbs
    let dx1 := v1.x - a.x
    let dy1 := v1.y - a.y
    let dd1 := v1.d - a.d
    let dx2 := v2.x - a.x
    let dy2 := v2.y - a.y
    let dd2 := v2.d - a.d
    let na := dd1 * dy2 - dd2 * dy1
    let nb := dx1 * dd2 - dx2 * dd1
    let lo := min a.y (min v1.y v2.y)
    let hi := max a.y (max v1.y v2.y)
    (packWords (vtxWords a ++ vtxWords v1 ++ vtxWords v2 ++
      [ctrl 0 swap.toNat, cutN 32 (-((128 - lo) / 256)), cutN 32 ((hi - 128) / 256),
       f32Ratio (2 * na) ar, f32Ratio (2 * nb) ar, f32Ratio (2 * a.d * ar - 2 * na * a.x - 2 * nb * a.y) (256 * ar),
       f32Ratio (256 * dy2) ar, f32Ratio (-256 * dx2) ar, f32Ratio (dx2 * a.y - dy2 * a.x) ar,
       f32Ratio (-256 * dy1) ar, f32Ratio (256 * dx1) ar, f32Ratio (dy1 * a.x - dx1 * a.y) ar]), 0)

/-! ### Coverage (R323-R325) -/

/-- A, B and C of an edge on a row. -/
structure Edge where
  a : Int
  b : Int
  c : Int
  deriving DecidableEq, Repr

def edgeOf (i j : Vtx) (py : Nat) : Edge :=
  let ys : Int := 256 * py + 128
  let dy := j.y - i.y
  ⟨-dy, (j.d - i.d) * (ys - i.y) + dy * i.d, (j.x - i.x) * (ys - i.y) + dy * i.x⟩

def edgesOf (p : Prim) (py : Nat) : List Edge := [edgeOf p.v0 p.v1 py, edgeOf p.v1 p.v2 py, edgeOf p.v2 p.v0 py]
def edgeVal (e : Edge) (px : Nat) (e2 : Int) : Int := e.a * (256 * px + 128) + e.b * e2 + e.c

/-- The edge condition of R324. -/
def edgeIn (e : Edge) (px : Nat) (e2 : Int) : Bool :=
  let x := edgeVal e px e2
  decide (0 < x) || (decide (x = 0) && (decide (0 < e.a) || (decide (e.a = 0) && decide (0 < e.b))))

/-- The edge and G conditions of R324. -/
def inView (p : Prim) (px py : Nat) (e2 : Int) : Bool :=
  let es := edgesOf p py
  es.all (fun e => edgeIn e px e2) && decide (0 < (es.map fun e => edgeVal e px e2).foldl (· + ·) 0)

/-- A value that 64 bits do not hold: the manual states no coverage there. -/
def beyond64 (p : Prim) (px py : Nat) (e2 : Int) : Bool := (edgesOf p py).any fun e => !inQ 63 (edgeVal e px e2)

/-- rne(1 + rne(ALPHA e)) of a doubled view offset. -/
def denAt (p : Prim) (e2 : Int) : Nat := fAdd fOne (fMul p.alpha (f32Int e2 (-1)))
def denOk (p : Prim) (e2 : Int) : Bool := cmpV (decodeIeee fp32 (denAt p e2)) (.fin false 1 (-20)) == some .gt

/-- The sample is covered (R324); `free` answers where 64 bits overflow. -/
def covered (p : Prim) (free : Bool) (px py v : Nat) : Bool :=
  let e2 := viewE2 v (primViews p)
  primCull p == 0 && decide (p.ymin ≤ py) && decide ((py : Int) ≤ p.ymax) &&
    (if beyond64 p px py e2 then free else inView p px py e2) && denOk p e2

/-- The coverage mask of a pixel. -/
def coverMask (p : Prim) (free : Nat) (px py : Nat) : Nat :=
  ((List.range (primViews p)).filter fun v => covered p (free.testBit (64 * px + v)) px py v).foldl (fun m v => m + 2 ^ v) 0

/-- Highest set bit of a nonzero mask, lowest set bit. -/
def topBit (m : Nat) : Nat := Nat.log2 m
def botBit (m : Nat) : Nat := (lowBit 64 m).getD 0

/-- The interval of a mask at a pixel: TL and TH from the views beyond the slice (R325, R334). -/
def interval (p : Prim) (redo : Bool) (px py m : Nat) : Nat :=
  if m = 0 then 0
  else
    let n := primViews p
    let tl := botBit m == 0 && inView p px py (viewE2 (-1) n)
    let th := topBit m == n - 1 && inView p px py (viewE2 n n)
    redo.toNat * 2 ^ 22 + th.toNat * 2 ^ 21 + tl.toNat * 2 ^ 20 + primBand p * 2 ^ 16 + topBit m * 256 + botBit m

/-- Some pixel x with start ≤ x < 2^16 meets the edge conditions of a view: the range of x that each edge allows. -/
def edgeRange (e : Edge) (e2 : Int) (r : Int × Int) : Int × Int :=
  let k := e.b * e2 + e.c
  if 0 < e.a then (max r.1 (-((k + 128 * e.a) / (256 * e.a))), r.2)
  else if e.a < 0 then (r.1, min r.2 ((k + 128 * e.a - 1) / (-256 * e.a)))
  else if 0 < k ∨ (k = 0 ∧ 0 < e.b) then r else (1, 0)

/-- The range of x for which 64 bits hold an edge's value. -/
def fitsRange (e : Edge) (e2 : Int) (r : Int × Int) : Int × Int :=
  let k := e.b * e2 + e.c + 128 * e.a
  let lo : Int := -(2 ^ 63) - k
  let hi : Int := 2 ^ 63 - 1 - k
  if 0 < e.a then (max r.1 (-(-lo / (256 * e.a))), min r.2 (hi / (256 * e.a)))
  else if e.a < 0 then (max r.1 (-(hi / (-256 * e.a))), min r.2 (-lo / (-256 * e.a)))
  else if lo ≤ 0 ∧ 0 ≤ hi then r else (1, 0)

/-- A pixel x with start ≤ x < 2^16 of a row is covered in a view; where 64 bits do not hold a value that decides, `free`
answers. -/
def viewMore (p : Prim) (free : Bool) (start py v : Nat) : Bool :=
  let e2 := viewE2 v (primViews p)
  let es := edgesOf p py
  let fits := es.foldl (fun r e => fitsRange e e2 r) ((start : Int), 65535)
  let r := es.foldl (fun r e => edgeRange e e2 r) fits
  primCull p == 0 && decide (p.ymin ≤ py) && decide ((py : Int) ≤ p.ymax) && decide (start < 65536) && denOk p e2 &&
    ((decide (r.1 ≤ r.2) && decide (0 < (es.map fun e => edgeVal e 0 e2).foldl (· + ·) 0)) ||
      (free && decide (fits ≠ ((start : Int), 65535))))

/-- `more` on one row (R334). -/
def rowMore (p : Prim) (free : Bool) (start py : Nat) : Bool :=
  (List.range (primViews p)).any fun v => viewMore p free start py v

/-! ### Disparity and depth (R326, R327) -/

/-- d at doubled pixel coordinates and a doubled view offset. -/
def disparity (p : Prim) (x2 y2 e2 : Int) : Nat :=
  fDiv (fAdd (fAdd (fMul p.alpha (f32Int x2 (-1))) (fMul p.beta (f32Int y2 (-1)))) p.gamma) (denAt p e2)

def depthPass (ge : Bool) (d old : Nat) : Bool :=
  match cmpV (decodeIeee fp32 d) (decodeIeee fp32 old) with
  | some .gt => true
  | some .eq => ge
  | _ => false

/-! ### The raster state and cells (R328-R331) -/

def rvOf (code : Nat) : Nat := nthN [1, 2, 4, 8, 16, 64] code
def cellRx (q : Squad) : Nat := q.rasterRx + 1
def cellRy (q : Squad) : Nat := q.rasterRy + 1
def cellN (q : Squad) : Nat := cellRx q * cellRy q
def cellBase (q : Squad) (k : Nat) : Nat := k - k % cellN q
/-- dx and dy of cell pixel `j`. -/
def cellDx (q : Squad) (j : Nat) : Nat := j % cellRx q
def cellDy (q : Squad) (j : Nat) : Nat := j / cellRx q

def latchOf (q : Squad) : Prim := primOf q.latch.toNat
/-- The union mask of a thread's cell. -/
def unionMask (q : Squad) (k t : Nat) : Nat :=
  (List.range (cellN q)).foldl (fun m j => m ||| (rdIm q (cellBase q k + j) t).toNat) 0 % 2 ^ primViews (latchOf q)

/-- A task's tile region in its core's scratchpad. -/
def tileBase (s : State) (q : Squad) : Nat := ((taskOf s q.task).map fun t => t.base + t.tr.tileoff).getD 0
def planeAddr (base tile px py v plane : Nat) : Nat := base + tile * 65536 + ((v * 8 + py) * 8 + px) * 16 + plane * 4

/-- Add to a count of the bin (R358). -/
def addBin (s : State) (task id n : Nat) : State :=
  modTask s task fun t => { t with bin := tset 0 t.bin id (tget 0 t.bin id + n) }

/-- A position pair of a thread: px, py, tile, x, y. -/
structure Pos where
  px : Nat
  py : Nat
  tile : Nat
  x : Nat
  y : Nat
  deriving DecidableEq, Repr

def posOf (q : Squad) (vb t : Nat) : Pos :=
  let w := (rdV q vb t).toNat
  let c := (rdV q (vb + 1) t).toNat
  ⟨w % 8, w / 8 % 8, bits w 14 12, c % 65536, c / 65536⟩

/-- The faults of an instruction with a position pair, in order: no latch, a tile beyond the count, a cell pixel above 7
(R341). A thread whose masks are zero has nothing to do, and its position is not looked at (R334). -/
def posFault (s : State) (x : Iss) (k vb : Nat) : Option FaultInfo :=
  let q := x.q
  if !q.rasterLv then some (mkFault 0x07 0x0E x.act x.path)
  else
    let ps := ((threadsOf x.act).filter fun t => unionMask q k t != 0).map fun t => (t, posOf q vb t)
    let far := ps.filter fun p => decide (p.2.tile ≥ (trOf s q).ntile)
    let edge := ps.filter fun p => decide (p.2.px + cellRx q > 8) || decide (p.2.py + cellRy q > 8)
    if !far.isEmpty then some (faultOf (0x04, 0x01) (far.map fun p => (p.1, 0)))
    else if !edge.isEmpty then some (faultOf (eACCESS 0x0F) (edge.map fun p => (p.1, 0)))
    else none

/-- A scratchpad record of the issuing core: the bytes it must reach, its alignment, whether it is written. -/
structure LfNeed where
  r : Rec
  n : Nat
  al : Nat
  wr : Bool
  deriving DecidableEq, Repr

/-- The checks of R333, R334 and R341 in the order of R162. -/
def lfFault (s : State) (x : Iss) (ns : List LfNeed) (badWord badTile : Bool) : Option FaultInfo :=
  let fail (c : Bool) (e : Err) (a : Nat) : Option FaultInfo := if c then some { mkFault e.1 e.2 x.act x.path with addr := a } else none
  let each (f : LfNeed → Option FaultInfo) : Option FaultInfo := ns.findSome? f
  (each fun n => fail (recKind n.r != 0 || recSpace n.r != 1 || recTarget n.r != x.q.core % 128) (eACCESS 2) 0).orElse fun _ =>
  (each fun n => (recCheck n.r [0] [1]).bind fun e => fail true e 0).orElse fun _ =>
  (fail badWord (eACCESS 4) 0).orElse fun _ =>
  (fail badTile (0x04, 0x01) 0).orElse fun _ =>
  (each fun n => fail (decide (regionSize n.r < n.n)) (0x04, 0x01) (recBase n.r)).orElse fun _ =>
  (each fun n => fail (recBase n.r % n.al != 0) (0x03, 0x01) (recBase n.r)).orElse fun _ =>
  (each fun n => fail (n.wr && !recWr n.r) (eACCESS 6) (recBase n.r)).orElse fun _ =>
  (each fun n => fail (!footprintOk s (ctxId s x.q) x.q.core (recBase n.r) n.n) (eACCESS 8) (recBase n.r))

/-- Path-G accesses to scratchpad bytes of a core (R329). -/
def gRead (s : State) (w : Who) (core addr n : Nat) : HEv := .access (lookAcc s w .G (.scr core) addr n)
def gWrite (s : State) (w : Who) (core addr n : Nat) : HEv := .access (accPut s w .G (.scr core) addr n)
/-- What such a read sees. -/
def gLook (s : State) (w : Who) (core addr n : Nat) : Nat := lookN s w .G (.scr core) addr n

end Sys2Proof.Machine
end

