-- ==== Sys2Proof/Machine/LightField.lean ====
section
/-! DEFINITION. The light-field instructions LF.SETUP to LF.RATE and LF.VIEWS, and the span rasteriser (R332-R343). -/

namespace Sys2Proof.Machine

/-! ### LF.SETUP (R321, R333) -/

/-- The words of the three vertices. -/
def vertexWords (base : Nat) : List Nat := (List.range 3).flatMap fun i => (List.range 3).map fun k => base + 16 * i + 4 * k

/-- LF.SETUP; the vertices are read word by word, and need not show a store on path T that no FENCEX orders (R342). -/
def execLfSetup (h : Hdr) (bd ba : Nat) (b : Opnd) (s : State) : Out :=
  issue h 3 (.once 1) s fun x s =>
    if x.act = 0 then .ok s
    else
      let rd := rdB x.q bd
      let ra := rdB x.q ba
      let w := rdScal x.q b
      let band := w % 4
      let cull := w / 4 % 4
      let views := bandViews (trOf s x.q).band band
      match lfFault s x [⟨ra, 48, 16, false⟩, ⟨rd, 128, 64, true⟩] (w / 16 != 0 || cull == 3 || views == 0) false with
      | some f => .fault s f
      | none =>
        let core := x.q.core
        let w : Who := { whoSquad s x.id x.q (lowestD x.act) with cmd := some s.nextId }
        let s := logCmd { s with nextId := s.nextId + 1 } x s.nextId
        let v (i : Nat) : Vtx := vtxOf (leVal ((List.range 3).flatMap fun k =>
          lookBytes s w .G (.scr core) (recBase ra + 16 * i + 4 * k) 4)) 0
        let r := buildPrim (v 0) (v 1) (v 2) band views cull
        let s := logEvs s ((vertexWords (recBase ra)).map (gRead s w core · 4) ++
          [gWrite s w core (recBase rd) 128, .release w 8 .core (.setup x.id)])
        .ok (addBin (wrN s (.scr core) (recBase rd) 128 r.1) x.q.task (if r.2 = 0 then 0 else 1) 1)

/-! ### LF.SPAN (R334, R342) -/

def swX0 (w : Nat) : Nat := bits w 15 0
def swY (w : Nat) : Nat := bits w 31 16
def swTile (w : Nat) : Nat := bits w 34 32
def swNt (w : Nat) : Nat := bits w 36 35 + 1

/-- The issue checks, then the request; the squad is held, as at a settle point, until the rasteriser accepts it. -/
def execLfSpan (h : Hdr) (redo : Bool) (pm k vd ba sb : Nat) (s : State) : Out :=
  issue h 3 (.once 1) s fun x s =>
    if x.act = 0 then .ok s
    else
      let s := modSquad s x.id fun q => { q with settling := true }
      let r := rdB x.q ba
      let w := (rdS x.q sb).toNat
      match lfFault s x [⟨r, 128, 64, true⟩]
          (w / 2 ^ 37 != 0 || swX0 w % 8 != 0 || (x.q.rasterRy == 1 && swY w % 2 == 1))
          (decide (swTile w + swNt w > (trOf s x.q).ntile)) with
      | some f => .fault s f
      | none =>
        let s := logCmd { s with nextId := s.nextId + 1 } x s.nextId
        .hold { s with spans := s.spans ++ [⟨s.nextId - 1, x.id, x.path.entry, x.path.pc, x.act, redo, pm, k, vd, recBase r, w⟩] } .span

/-- The cell of thread `t`: interval and mask of each pixel. -/
def spanCell (s : State) (q : Squad) (w : Who) (r : SpanReq) (p : Prim) (free t : Nat) : List (Nat × Nat) :=
  let x0 := swX0 r.word
  let y := swY r.word
  (List.range (cellN q)).map fun j =>
    let px := x0 + t + cellDx q j
    let py := y + cellDy q j
    let m := coverMask p free px py
    let m := if r.redo then
        ((List.range (primViews p)).filter fun v =>
          m.testBit v && (gLook s w q.core (planeAddr (tileBase s q) (swTile r.word + t / 8) (t % 8 + cellDx q j)
            (y % 8 + cellDy q j) v 3) 4).testBit 31).foldl (fun m v => m + 2 ^ v) 0
      else m
    (interval p r.redo px py m, m)

/-- The depth-test words whose REDO bits a cell reads under `.redo` (R329, R342). -/
def redoReads (s : State) (q : Squad) (w : Who) (r : SpanReq) (p : Prim) (free t : Nat) : List HEv :=
  let y := swY r.word
  if !r.redo then []
  else (List.range (cellN q)).flatMap fun j =>
    let m := coverMask p free (swX0 r.word + t + cellDx q j) (y + cellDy q j)
    ((List.range (primViews p)).filter fun v => m.testBit v).map fun v =>
      gRead s w q.core (planeAddr (tileBase s q) (swTile r.word + t / 8) (t % 8 + cellDx q j) (y % 8 + cellDy q j) v 3) 4

/-- What one thread's cell writes. -/
def spanRegs (q : Squad) (r : SpanReq) (t : Nat) (cell : List (Nat × Nat)) : List RegW :=
  let base := cellBase q r.k
  let got := cell.any fun c => c.2 != 0
  let x0 := swX0 r.word
  let y := swY r.word
  (if got then
    [RegW.v r.vd t (BitVec.ofNat 32 ((swTile r.word + t / 8) * 4096 + y % 8 * 8 + t % 8)),
     RegW.v (r.vd + 1) t (BitVec.ofNat 32 (y * 65536 ||| (x0 + t)))]
   else []) ++
  cell.zipIdx.flatMap fun c =>
    [RegW.vi (base + c.2) t (BitVec.ofNat 32 (if got then c.1.1 else 0)),
     RegW.im (base + c.2) t (BitVec.ofNat 64 (if got then c.1.2 else 0))]

/-- The rasteriser takes a request: CTRL is checked, the latch is loaded, the fragments are handed over. -/
def spanPerform (s : State) (q : Squad) (r : SpanReq) : State :=
  let w : Who := { whoSquad s r.squad q (lowestD r.act) with cmd := some r.id }
  let s := logEv s (.acquire w 8 .core [.setup r.squad])
  let n := gLook s w q.core r.addr 128
  let p := primOf n
  let s := modSquad (logEv s (gRead s w q.core r.addr 128)) r.squad fun q => { q with wait := none }
  if ctrlBad p.ctrl then
    raiseFault s r.squad { mkFaultAt (eACCESS 4) r.act 0 with late := some (r.entry, r.pc) }
  else
    let free := Config.openValue 2 s.ctr
    let ts := threadsOf r.act
    let nt := swNt r.word
    let reads := ts.flatMap fun t => if t < 8 * nt ∧ t % cellRx q = 0 then redoReads s q w r p free t else []
    let cells := ts.map fun t =>
      (t, if t < 8 * nt ∧ t % cellRx q = 0 then spanCell s q w r p free t else List.replicate (cellN q) (0, 0))
    let s := logEvs s reads
    let got := maskOf fun t => cells.any fun c => c.1 == t && c.2.any fun m => m.2 != 0
    let start := swX0 r.word + 8 * nt
    let more := (List.range (cellRy q)).any fun dy => rowMore p ((Config.openValue 3 s.ctr).testBit dy) start (swY r.word + dy)
    let ws := cells.flatMap (fun c => spanRegs q r c.1 c.2) ++ ts.map fun t => RegW.p r.pm t more
    let s := modSquad { s with nextId := s.nextId + 1, ctr := s.ctr + 1 } r.squad fun q =>
      let q := { q with rasterLv := true, latch := BitVec.ofNat 1024 n }
      let q := if got = 0 then q else modPath r.entry (fun p => { p with exm := got }) q
      writeLater s.nextId ws none q
    let samples := (cells.flatMap fun c => c.2.map fun m => popN 64 m.2).foldl (· + ·) 0
    addBin (addBin s q.task 2 (countM got)) q.task 3 samples

/-- Requests of a quad (32 x die + quad), in issue order. -/
def quadSpans (s : State) (quad : Nat) : List (SpanReq × Squad) :=
  s.spans.filterMap fun r => match squadOf s r.squad with
    | some q => if q.core / 4 = quad then some (r, q) else none
    | none => none

/-- The next request of a quad: round robin by core number (R14). DESIGN CHOICE: within a core the requests are taken in issue
order; the rule orders only those of one squad. -/
def nextSpan (s : State) (quad : Nat) : Option (SpanReq × Squad) :=
  let last := tget 3 s.spanLast quad
  let rank (q : Squad) : Nat := (q.core % 4 + 3 - last) % 4
  (quadSpans s quad).foldl (fun b e => match b with
    | none => some e
    | some c => if rank e.2 < rank c.2 then some e else b) none

def spanAccept (s : State) (quad : Nat) : State :=
  match nextSpan s quad with
  | none => s
  | some (r, q) =>
    let s := { s with spans := s.spans.filter (· ≠ r), spanLast := tset 3 s.spanLast quad (q.core % 4) }
    spanPerform s q r

/-! ### LF.ZTEST (R327, R335) -/

/-- Where one sample's depth word is tested. -/
structure ZJob where
  t : Nat
  j : Nat
  addr : Nat
  d : Nat
  v : Nat
  deriving DecidableEq, Repr

/-- The tests of a thread, pixel by pixel, view by view. -/
def zJobs (s : State) (q : Squad) (imk vb t : Nat) : List ZJob :=
  let p := latchOf q
  let n := primViews p
  let o := posOf q vb t
  (List.range (cellN q)).flatMap fun j =>
    let m := (rdIm q (cellBase q imk + j) t).toNat
    let x := o.x + cellDx q j
    let y := o.y + cellDy q j
    ((List.range n).filter fun v => m.testBit v).map fun v =>
      ⟨t, j, planeAddr (tileBase s q) o.tile (o.px + cellDx q j) (o.py + cellDy q j) v 1,
        disparity p (2 * x + 1) (2 * y + 1) (viewE2 v n), v⟩

/-- The tests one after another: the state and those that passed. -/
def zRun (ge w : Bool) (core task : Nat) (who : Nat → Who) : List ZJob → State → State × List ZJob
  | [], s => (s, [])
  | g :: r, s =>
    let pass := depthPass ge g.d (rdN s (.scr core) g.addr 4)
    let a := if w && pass then { accPut s (who g.t) .G (.scr core) g.addr 4 with rd := true }
      else accRd (who g.t) .G (.bytes (.scr core) g.addr 4)
    let s := logEv s (.access a)
    let s := if w && pass then
        let s := wrN s (.scr core) g.addr 4 g.d
        { s with zown := aput s.zown (scrKey core g.addr / 4) task }
      else s
    let k := zRun ge w core task who r s
    (k.1, if pass then g :: k.2 else k.2)

def execLfZtest (h : Hdr) (ge w : Bool) (imk vb : Nat) (s : State) : Out :=
  issue h 3 (.per 1) s fun x s =>
    if x.act = 0 then .ok s
    else
      match posFault s x imk vb with
      | some f => .fault s f
      | none =>
        let q := x.q
        let res := zRun ge w q.core q.task (whoSquad s x.id q) ((threadsOf x.act).flatMap (zJobs s q imk vb)) s
        let s := addBin res.1 q.task 4 res.2.length
        .ok (putLater s x ((threadsOf x.act).flatMap fun t => (List.range (cellN q)).map fun j =>
          .im (cellBase q imk + j) t (BitVec.ofNat 64
            ((res.2.filter fun g => g.t == t && g.j == j).foldl (fun m g => m + 2 ^ g.v) 0))))

/-! ### LF.VSPLIT (R336) -/

/-- VLO and VHI of a new mask in an interval; BAND and REDO stay, TL and TH stay with their end. -/
def reinterval (vi m : Nat) : Nat :=
  if m = 0 then 0
  else
    let lo := botBit m
    let hi := topBit m
    vi / 2 ^ 22 % 2 * 2 ^ 22 + (if bits vi 15 8 = hi then vi / 2 ^ 21 % 2 else 0) * 2 ^ 21 +
      (if bits vi 7 0 = lo then vi / 2 ^ 20 % 2 else 0) * 2 ^ 20 + bits vi 19 16 * 2 ^ 16 + hi * 256 + lo

/-- Bits lo..hi. -/
def span64 (lo hi : Nat) : Nat := 2 ^ (hi + 1) - 2 ^ lo

/-- One thread's split: writes of the source, then of the piece, then the predicate. -/
def vsplitRegs (q : Squad) (gap : Bool) (pp vid via t : Nat) : List RegW :=
  let n := cellN q
  let a := cellBase q via
  let d := cellBase q vid
  let u := unionMask q via t
  if u = 0 then
    ((List.range n).flatMap fun j => [RegW.vi (d + j) t 0, RegW.im (d + j) t 0]) ++ [RegW.p pp t false]
  else
    let lo := botBit u
    let rv := rvOf q.rasterRvc
    let fin := min (topBit u) (lo / rv * rv + rv - 1)
    let fin := if gap then min fin (((List.range 65).find? fun i => decide (lo < i) && !u.testBit i).getD 64 - 1) else fin
    let piece := span64 lo fin
    let above := 2 ^ 64 - 2 ^ (fin + 1)
    let im (j : Nat) : Nat := (rdIm q (a + j) t).toNat
    let vi (j : Nat) : Nat := (rdVi q (a + j) t).toNat
    ((List.range n).flatMap fun j =>
      let m := im j &&& above
      [RegW.im (a + j) t (BitVec.ofNat 64 m), RegW.vi (a + j) t (BitVec.ofNat 32 (reinterval (vi j) m))]) ++
    ((List.range n).flatMap fun j =>
      let m := im j &&& piece
      [RegW.im (d + j) t (BitVec.ofNat 64 m), RegW.vi (d + j) t (BitVec.ofNat 32 (reinterval (vi j) m))]) ++
    [RegW.p pp t (u &&& above != 0)]

def execLfVsplit (h : Hdr) (gap : Bool) (pp vid via : Nat) (s : State) : Out :=
  issue h 2 (.per 1) s fun x s =>
    if x.act = 0 then .ok s
    else if !x.q.rasterLv then failE s x (eACCESS 0x0E)
    else .ok (putFixed s x ((threadsOf x.act).flatMap (vsplitRegs x.q gap pp vid via)))

/-! ### LF.INTERP (R337) -/

/-- FP32 operations that collect their flags. -/
abbrev Fl := Nat × Nat
def gAdd (a b : Fl) : Fl := let r := addF fp32 .rne a.1 b.1; (r.1, r.2 ||| a.2 ||| b.2)
def gSub (a b : Fl) : Fl := let r := subF fp32 .rne a.1 b.1; (r.1, r.2 ||| a.2 ||| b.2)
def gMul (a b : Fl) : Fl := let r := mulF fp32 .rne a.1 b.1; (r.1, r.2 ||| a.2 ||| b.2)
def gDiv (a b : Fl) : Fl := let r := divF .rne a.1 b.1; (r.1, r.2 ||| a.2 ||| b.2)
def gNeg (a : Fl) : Fl := ((encodeF fp32 .rne (negV (decodeIeee fp32 a.1))).1, a.2)
def gOf (x : Nat) : Fl := (x, 0)

/-- Value, gradient and flags of one thread. -/
def interpAt (q : Squad) (k va vb t : Nat) : Nat × Nat × Nat :=
  let u := unionMask q k t
  if u = 0 then (0, 0, 0)
  else
    let p := latchOf q
    let n := primViews p
    let o := posOf q vb t
    let x2 : Int := 2 * o.x + cellRx q
    let y2 : Int := 2 * o.y + cellRy q
    let ec2 : Int := botBit u + topBit u - n + 1
    let swap := p.ctrl.testBit 2
    let at' (i : Nat) : Fl := gOf (rdV q (va + i) t).toNat
    let a0 := at' 0
    let a1 := if swap then at' 2 else at' 1
    let a2 := if swap then at' 1 else at' 2
    let d := gOf (disparity p x2 y2 ec2)
    let den := gOf (denAt p ec2)
    let xs := gOf (f32Int x2 (-1))
    let ys := gOf (f32Int y2 (-1))
    let xc := gSub xs (gMul d (gOf (f32Int ec2 (-1))))
    let l1 := gAdd (gAdd (gMul (gOf p.l1x) xc) (gMul (gOf p.l1y) ys)) (gOf p.l10)
    let l2 := gAdd (gAdd (gMul (gOf p.l2x) xc) (gMul (gOf p.l2y) ys)) (gOf p.l20)
    let g1 := gSub a1 a0
    let g2 := gSub a2 a0
    let v := gAdd (gAdd a0 (gMul g1 l1)) (gMul g2 l2)
    let ax := gAdd (gMul g1 (gOf p.l1x)) (gMul g2 (gOf p.l2x))
    let gr := gNeg (gDiv (gMul ax d) den)
    (v.1, gr.1, v.2 ||| gr.2)

def execLfInterp (h : Hdr) (k vd va vb : Nat) (s : State) : Out :=
  issue h 2 (.per 2) s fun x s =>
    if x.act = 0 then .ok s
    else
      match posFault s x k vb with
      | some f => .fault s f
      | none =>
        .ok (putLater s x ((threadsOf x.act).flatMap fun t =>
          let r := interpAt x.q k va vb t
          [RegW.v vd t (BitVec.ofNat 32 r.1), RegW.v (vd + 1) t (BitVec.ofNat 32 r.2.1)] ++ flagW r.2.2))

/-! ### LF.WRITE and LF.VIS (R338) -/

/-- Value `f t hull v` into the plane words of every masked sample, in thread order. -/
def writeForm (h : Hdr) (cls plane imk vb : Nat) (count : Bool) (f : Squad → Nat → Nat → Nat → Nat) (s : State) : Out :=
  issue h cls (.per 1) s fun x s =>
    if x.act = 0 then .ok s
    else
      match posFault s x imk vb with
      | some f => .fault s f
      | none =>
        let q := x.q
        let n := primViews (latchOf q)
        let items := (threadsOf x.act).flatMap fun t =>
          let o := posOf q vb t
          let u := unionMask q imk t
          (List.range (cellN q)).flatMap fun j =>
            let m := (rdIm q (cellBase q imk + j) t).toNat
            ((List.range n).filter fun v => m.testBit v).map fun v =>
              (t, planeAddr (tileBase s q) o.tile (o.px + cellDx q j) (o.py + cellDy q j) v plane, f q t u v)
        let s := items.foldl (fun s e =>
          logEv (wrN s (.scr q.core) e.2.1 4 e.2.2) (gWrite s (whoSquad s x.id q e.1) q.core e.2.1 4)) s
        .ok (if count then addBin s q.task 6 items.length else s)

/-- The low word of operand A for a thread. -/
def planeWord (a : Opnd) (q : Squad) (t _u _v : Nat) : Nat := rdInt q 32 a t

/-- Channel by channel: clamp(rnd(Ac + Ic (2v - lo - hi) / 32), 0, 255). -/
def incWord (va : Nat) (q : Squad) (t u v : Nat) : Nat :=
  let a := (rdV q va t).toNat
  let b := (rdV q (va + 1) t).toNat
  let hull : Int := botBit u + topBit u
  (List.range 4).foldl (fun w c =>
    let ac : Int := bits a (8 * c + 7) (8 * c)
    let ic := sextN 8 (bits b (8 * c + 7) (8 * c))
    let num := 32 * ac + ic * (2 * v - hull)
    let r := quant .rne (decide (num < 0)) num.natAbs (-5) false 0
    let x : Int := if num < 0 then -(r.1 : Int) else r.1
    w + (max 0 (min 255 x)).toNat * 2 ^ (8 * c)) 0

def execLfWrite (h : Hdr) (imk : Nat) (a : Opnd) (vb : Nat) (s : State) : Out := writeForm h 3 0 imk vb true (planeWord a) s
def execLfWriteInc (h : Hdr) (imk va vb : Nat) (s : State) : Out := writeForm h 3 0 imk vb true (incWord va) s
def execLfVis (h : Hdr) (imk : Nat) (a : Opnd) (vb : Nat) (s : State) : Out := writeForm h 2 2 imk vb false (planeWord a) s

/-! ### Rates and views (R339, R340) -/

def execLfRate (h : Hdr) (b : Opnd) (s : State) : Out :=
  issue h 1 (.once 1) s fun x s =>
    if x.act = 0 then .ok s
    else
      let v := rdScal x.q b
      if v / 32 ≠ 0 ∨ v / 4 > 5 then failE s x (eACCESS 4)
      else .ok (modSquad s x.id fun q => { q with rasterRx := v % 2, rasterRy := v / 2 % 2, rasterRvc := v / 4 })

def execLfViews (h : Hdr) (sd : Nat) (s : State) : Out :=
  issue h 1 (.once 1) s fun x s =>
    if x.act = 0 then .ok s else .ok (putLater s x [.s sd (trOf s x.q).band])

def execLfViewsV (h : Hdr) (d : Opnd) (band : Nat) (s : State) : Out :=
  issue h 1 (.once 1) s fun x s =>
    .ok (putLater s x (broadcast d x.act 32 false (bandViews (trOf s x.q).band band)))

end Sys2Proof.Machine
end

