-- ==== Sys2Proof/Machine/Frames.lean ====
section
/-! DEFINITION. Reprojection, resolve, present channels and statistics (R345-R359, R405). -/

namespace Sys2Proof.Machine

/-! ### Commands of the frame units (R345-R347) -/

def twX0 (w : Nat) : Nat := bits w 15 0
def twY0 (w : Nat) : Nat := bits w 31 16
def twTile (w : Nat) : Nat := bits w 34 32
def twBand (w : Nat) : Nat := bits w 36 35
/-- DV, signed. -/
def twDv (w : Nat) : Int := sextN 8 (bits w 47 40)
/-- TOL as an FP32 code. -/
def twTol (w : Nat) : Nat := bits w 63 48 * 65536

/-- The check rows of R347 before the arrival word's. -/
def frameRecRows (core : Nat) (repro : Bool) (tile other : Rec) (w c views : Nat) : List (Bool × Err) :=
  [(recKind tile != 3 || recSpace tile != 1 || recTarget tile != core % 128, eACCESS 2),
   (recKind other != 0 || recSpace other != 0 || !rec2d other || recEsize other != (if repro then 4 else 2), eACCESS 2),
   ((repro && !recWr tile) || (!repro && !recWr other), eACCESS 6),
   (recReserved tile || recReserved other, eACCESS 4),
   (bits w 39 37 != 0 || (!repro && w / 2 ^ 40 != 0) || c / 2 ^ 24 != 0 || (repro && bits c 23 20 != 0) ||
     twX0 w % 8 != 0 || twY0 w % 8 != 0 || views == 0, eACCESS 4),
   (recGeomBad tile || recGeomBad other, eACCESS 5),
   (decide (twTile w ≥ recExt0 tile), (0x04, 0x01))]

/-- Commands that the queue of a die's reprojection unit holds (R360). -/
def reproRoom : Nat := 16
def reproQueue (s : State) (die : Nat) : List LfCmd := s.lfCmds.filter fun c => c.die == die && c.repro

/-- Queue a command of a frame unit; the squad is held while the reprojection unit's queue has no room. -/
def frameForm (h : Hdr) (cls : Nat) (repro : Bool) (tileRec other : Iss → Rec) (sb : Nat) (s : State) : Out :=
  issue h cls (.once 1) s fun x s =>
    if x.act = 0 then .ok s
    else
      let w := (rdS x.q sb).toNat
      let c := (rdS x.q (sb + 1)).toNat
      let views := bandViews (trOf s x.q).band (twBand w)
      match firstErr (frameRecRows x.q.core repro (tileRec x) (other x) w c views ++ awRows x (c % 2 ^ 20)) with
      | some e => failE s x e
      | none =>
        match copyAw s x (c % 2 ^ 20) with
        | .error f => .fault s f
        | .ok aw =>
          if locDown s aw then peerWait s x
          else
            let cmd : LfCmd := ⟨s.nextId, repro, dieOf x.q, x.q.core, ctxId s x.q, x.q.task, none, x.id, x.q.idx, x.path.pc,
              tileRec x, other x, rdB x.q (bits c 23 20), rdS x.q sb, views, aw, none⟩
            let full := repro && decide (reproRoom ≤ (reproQueue s (dieOf x.q)).length)
            let s := logCmd { s with nextId := s.nextId + 1, lfCmds := s.lfCmds ++ [cmd] } x cmd.id
            if full then .hold s (.accept cmd.id) else .ok s

def execLfRepro (h : Hdr) (bd ba sb : Nat) (s : State) : Out :=
  frameForm h 4 true (fun x => rdB x.q bd) (fun x => rdB x.q ba) sb s
def execLfResolve (h : Hdr) (bd ba sb : Nat) (s : State) : Out :=
  frameForm h 5 false (fun x => rdB x.q ba) (fun x => rdB x.q bd) sb s

/-- The oldest command of a unit on a die. -/
def frameHead (s : State) (die : Nat) (repro : Bool) : Option LfCmd :=
  s.lfCmds.find? fun c => c.die == die && c.repro == repro

/-- The commands within the queue's room are accepted. -/
def frameAccept (s : State) (die : Nat) : State :=
  ((reproQueue s die).take reproRoom).foldl (fun s o => releaseAccept s o.squad o.id) s
/-- A command leaves its unit. -/
def frameDone (s : State) (c : LfCmd) : State :=
  frameAccept (peerDone { s with lfCmds := s.lfCmds.filter fun o => o.id ≠ c.id } c.id) c.die
/-- The unit of a die as it performs a command. -/
def frameWho (s : State) (c : LfCmd) : Who := whoCmd s (.unit c.die) c.id c.task c.node c.die none
/-- A path-G access of a command, and what a read of it sees. -/
def frameEv (s : State) (c : LfCmd) (wr : Bool) (sp : Space) (a n : Nat) : HEv :=
  .access (if wr then accPut s (frameWho s c) .G sp a n else lookAcc s (frameWho s c) .G sp a n)
def frameLook (s : State) (c : LfCmd) (p : Space × Nat) (n : Nat) : Nat := lookN s (frameWho s c) .G p.1 p.2 n

/-- The count of a completed command: a release of path G at `pkg` (R351). -/
def frameCount (s : State) (c : LfCmd) (n : Nat) : State :=
  if c.node.isSome then s else awCount s (frameWho s c) .G 8 .pkg c.aw n 0
/-- The fault of a command: told to the word; a node without squads ends with it (R350, R368). -/
def frameFault (s : State) (c : LfCmd) (e : Err) : State :=
  match c.node with
  | some n => modNode s n fun n => { n with fault := n.fault.orElse fun _ => some ⟨e.1, e.2, c.core, 0xFF, 0xFF, 0, 0, s.time, false⟩ }
  | none => awPutFault s c.aw e.1 e.2

/-- Where a frame unit's access is performed. -/
def framePlace (s : State) (c : LfCmd) (r : Rec) (va n : Nat) (wr : Bool) : Except Err (Space × Nat) :=
  match placeAt s c.ctx (ownerTr s c.task c.node) r (c.die * 128 + recTarget r) false va n wr with
  | .ok p => match noAnswer s c.id p.1 with | some e => .error e | none => .ok p
  | .error e => .error e

def tileWordAddr (c : LfCmd) (px py v plane : Nat) : Nat := planeAddr (recBase c.tileRec) (twTile c.word.toNat) px py v plane

/-- The tile's samples lie in a footprint. -/
def tileIn (s : State) (c : LfCmd) : Bool :=
  footprintOk s c.ctx c.core (recBase c.tileRec + twTile c.word.toNat * 65536) (1024 * c.views)

/-! ### Reprojection (R348) -/

/-- A history element: its four words. -/
structure Hist where
  colour : Nat
  depth : Nat
  vis : Nat
  motion : Nat
  deriving DecidableEq, Repr

/-- The address of element (x, y) of a 2-D record. -/
def elem2d (r : Rec) (x y : Nat) : Nat :=
  let col := x * recE r
  let col := if recSwz r > 0 then col ^^^ (y % 2 ^ recSwz r * 16) else col
  recBase r + (y * recStride r + col)

/-- The address of the history element of (x, y, v); none beyond the views or the record. -/
def histVa (c : LfCmd) (x y v : Int) : Option Nat :=
  if x < 0 ∨ y < 0 ∨ v < 0 ∨ v ≥ c.views then none
  else
    let ex := x.toNat
    let ey := y.toNat * c.views + v.toNat
    if ex ≥ recExt0 c.other ∨ ey ≥ recExt1 c.other then none else some (elem2d c.other ex ey)

/-- Where it is read; none when it counts as not read. -/
def histPlace (s : State) (c : LfCmd) (x y v : Int) : Option (Space × Nat) :=
  (histVa c x y v).bind fun va =>
    match framePlace s c c.other va 16 false with
    | .error _ => none
    | .ok p => if poisoned s p.1 p.2 16 then none else some p

/-- Its device does not answer yet (R410). -/
def histAgain (s : State) (c : LfCmd) (x y v : Int) : Bool :=
  (histVa c x y v).any fun va => match framePlace s c c.other va 16 false with
    | .error e => e == eAgain
    | .ok _ => false

/-- num / 256 rounded to the nearest integer, ties to even. -/
def rnd256 (num : Int) : Int :=
  let r := (quant .rne (decide (num < 0)) num.natAbs (-8) false 0).1
  if num < 0 then -(r : Int) else r

def motionX (m : Nat) : Int := sextN 16 (m % 65536)
def motionY (m : Nat) : Int := sextN 15 (bits m 30 16)
def negInf : Nat := 0xFF800000

def finiteF (x : Nat) : Bool := match decodeIeee fp32 x with | .fin .. => true | _ => false

/-- The two depths agree within the tolerance. -/
def depthsAgree (g h tol : Nat) : Bool :=
  (g == negInf && h == negInf) ||
    (finiteF g && finiteF h &&
      (match cmpV (absV (decodeIeee fp32 (fSub h g))) (decodeIeee fp32 tol) with
       | some .lt => true | some .eq => true | _ => false))

/-- The sample's own history element, and the one that its motion and the view shift point at (R348), by what is asked of the
place. -/
def atOwn {α : Type} (f : Int → Int → Int → α) (c : LfCmd) (px py v : Nat) : α :=
  f (twX0 c.word.toNat + px : Nat) (twY0 c.word.toNat + py : Nat) v
def atFrom {α : Type} (f : Int → Int → Int → α) (c : LfCmd) (px py v : Nat) (g : Hist) : α :=
  f ((twX0 c.word.toNat + px : Nat) - rnd256 (motionX g.motion))
    ((twY0 c.word.toNat + py : Nat) - rnd256 (motionY g.motion)) ((v : Int) - twDv c.word.toNat)
def histOwn (s : State) (c : LfCmd) (px py v : Nat) : Option (Space × Nat) := atOwn (histPlace s c) c px py v
def histFrom (s : State) (c : LfCmd) (px py v : Nat) (g : Hist) : Option (Space × Nat) := atFrom (histPlace s c) c px py v g
/-- The four words of an element. -/
def histRead (s : State) (c : LfCmd) (p : Space × Nat) : Hist :=
  let n := frameLook s c p 16
  ⟨wordOf n 0, wordOf n 1, wordOf n 2, wordOf n 3⟩

/-- The four words of a reprojected sample. Where g is not read, the manual states no source position, and the colour is
open. -/
def reproSample (s : State) (c : LfCmd) (px py v : Nat) : Hist :=
  match (histOwn s c px py v).map (histRead s c) with
  | none => ⟨Config.openValue 4 (s.ctr * 4096 + v * 64 + py * 8 + px) % 2 ^ 32, negInf, 0, 2 ^ 31⟩
  | some g =>
    match (histFrom s c px py v g).map (histRead s c) with
    | none => ⟨0, negInf, 0, g.motion % 2 ^ 31 + 2 ^ 31⟩
    | some h =>
      if depthsAgree g.depth h.depth (twTol c.word.toNat) then ⟨h.colour, h.depth, h.vis, h.motion % 2 ^ 31⟩
      else ⟨h.colour, negInf, 0, g.motion % 2 ^ 31 + 2 ^ 31⟩

/-- A sample waits for a device that does not answer yet. -/
def sampleAgain (s : State) (c : LfCmd) (px py v : Nat) : Bool :=
  atOwn (histAgain s c) c px py v ||
    (histOwn s c px py v).any fun p => atFrom (histAgain s c) c px py v (histRead s c p)

/-- The elements that a sample reads. -/
def histReads (s : State) (c : LfCmd) (px py v : Nat) : List (Space × Nat) :=
  match histOwn s c px py v with
  | none => []
  | some p => p :: (histFrom s c px py v (histRead s c p)).toList

/-- Every sample (v, py, px) of a tile with `n` views. -/
def samplesOf (n : Nat) : List (Nat × Nat × Nat) :=
  (List.range n).flatMap fun v => (List.range 8).flatMap fun py => (List.range 8).map fun px => (v, py, px)

def putSample (s : State) (c : LfCmd) (v py px : Nat) (h : Hist) : State :=
  wrN s (.scr c.core) (tileWordAddr c px py v 0) 16
    (h.colour + h.depth * 2 ^ 32 + h.vis * 2 ^ 64 + h.motion * 2 ^ 96)

/-- A committed counter of a context on a die (R358). -/
def statKey (die ctx id : Nat) : Nat := (die * 64 + ctx) * 8 + id
def statOf (s : State) (die ctx id : Nat) : Nat := tget 0 s.stats (statKey die ctx id)

/-- Samples marked REDO count in the task's bin; the run of a node that rasterises is a bin of its own, committed as it completes
(R358, R368). -/
def countRedo (s : State) (c : LfCmd) (n : Nat) : State :=
  match c.node with
  | none => addBin s c.task 7 n
  | some id =>
    if (nodeOf s id).any fun k => k.tr.band != 0 then
      { s with stats := tset 0 s.stats (statKey c.die c.ctx 7) ((statOf s c.die c.ctx 7 + n) % 2 ^ 64) }
    else s

def reproRun (s : State) (die : Nat) : State :=
  match frameHead s die true with
  | none => s
  | some c =>
    if !tileIn s c then frameFault (frameDone s c) c (eACCESS 8)
    else if (samplesOf c.views).any fun e => sampleAgain s c e.2.2 e.2.1 e.1 then waitPeer s c.id
    else
      let hs := (samplesOf c.views).map fun e => (e, reproSample s c e.2.2 e.2.1 e.1)
      let rs := (samplesOf c.views).flatMap fun e => histReads s c e.2.2 e.2.1 e.1
      let evs := rs.map (fun p => frameEv s c false p.1 p.2 16) ++
        [frameEv s c true (.scr c.core) (tileWordAddr c 0 0 0 0) (1024 * c.views)]
      let s := logEvs (hs.foldl (fun s e => putSample s c e.1.1 e.1.2.1 e.1.2.2 e.2) s) evs
      let s := countRedo s c (hs.filter fun e => decide (e.2.motion ≥ 2 ^ 31)).length
      frameCount (frameDone s c) c (1024 * c.views)

/-! ### Resolve (R349, R350) -/

/-- The view of channel `ch` of panel pixel (x, y). -/
def panelView (sigma phi : Int) (pitch views x y ch : Nat) : Nat :=
  let n : Int := 65536 * (3 * x + ch) + 3 * y * sigma + phi
  (n % pitch).toNat * views / pitch

/-- The tile word that channel `ch` of a tile pixel takes. -/
def resolveAddr (c : LfCmd) (d px py ch : Nat) : Nat :=
  tileWordAddr c px py (panelView (sextN 32 (wordOf d 0)) (sextN 32 (wordOf d 2)) (wordOf d 1) c.views
    (twX0 c.word.toNat + px) (twY0 c.word.toNat + py) ch) 0
/-- The output word of a tile pixel. -/
def resolveWord (s : State) (c : LfCmd) (d px py : Nat) : Nat :=
  (List.range 3).foldl (fun w ch =>
    w + bits (frameLook s c (.scr c.core, resolveAddr c d px py ch) 4) (8 * ch + 7) (8 * ch) * 2 ^ (8 * ch)) (255 * 2 ^ 24)
/-- A pixel in the record: the words it reads, then its store. -/
def resolveEvs (s : State) (c : LfCmd) (d px py : Nat) (p : Space × Nat) : List HEv :=
  (List.range 3).map (fun ch => frameEv s c false (.scr c.core) (resolveAddr c d px py ch) 4) ++ [frameEv s c true p.1 p.2 4]

/-- The pixels of a tile in order: the state they leave, or the fault that stops the command. -/
def resolvePixels (c : LfCmd) (d : Nat) : List (Nat × Nat) → State → State × Option (Err × Nat)
  | [], s => (s, none)
  | (py, px) :: r, s =>
    let x := twX0 c.word.toNat + px
    let y := twY0 c.word.toNat + py
    if x ≥ bits d 111 96 ∨ y ≥ bits d 127 112 then resolvePixels c d r s
    else if x ≥ recExt0 c.other ∨ y ≥ recExt1 c.other then
      if recBmode c.other then resolvePixels c d r s else (s, some ((0x04, 0x01), elem2d c.other x y))
    else
      match framePlace s c c.other (elem2d c.other x y) 4 true with
      | .error e => (s, some (e, elem2d c.other x y))
      | .ok p =>
        let s' := wrN s p.1 p.2 4 (resolveWord s c d px py)
        resolvePixels c d r (logEvs s' (resolveEvs s c d px py p))

def tilePixels : List (Nat × Nat) := (List.range 8).flatMap fun py => (List.range 8).map fun px => (py, px)

/-- The panel descriptor, or the fault of reading it. -/
def panelDesc (s : State) (c : LfCmd) : Except Err Nat :=
  match framePlace s c c.panel (recBase c.panel) 32 false with
  | .error e => .error e
  | .ok p =>
    let d := frameLook s c p 32
    if wordOf d 1 = 0 ∨ d / 2 ^ 128 ≠ 0 then .error (eACCESS 4) else .ok d

/-- A resolve that cannot go on: it waits for a device, its XLATE of a leased page is parked (R383), its LEASE kills the task
(R370), and any other fault is told to the word, as after a fatal answer (R350). -/
def resolveStop (s : State) (c : LfCmd) (e : Err) (addr : Nat) : State :=
  if e = eAgain then waitPeer s c.id
  else if parks e c.node then
    let (tok, s) := parkEngine s c.ctx (ownerVa s c.task c.node) e addr (.frame c.id)
    { s with lfCmds := s.lfCmds.map fun o => if o.id = c.id then { o with parked := some tok } else o }
  else if e.1 = 0x05 then
    engineFault (frameDone s c) c.task c.node (engineRec s c.core c.sidx c.pc e addr false)
  else frameFault (frameDone s c) c e

def resolveRun (s : State) (die : Nat) : State :=
  match frameHead s die false with
  | none => s
  | some c =>
    if c.parked.isSome then s
    else if !tileIn s c then frameFault (frameDone s c) c (eACCESS 8)
    else
      match panelDesc s c with
      | .error e => resolveStop s c e (recBase c.panel)
      | .ok d =>
        let reads := match framePlace s c c.panel (recBase c.panel) 32 false with
          | .ok p => [frameEv s c false p.1 p.2 32]
          | .error _ => []
        match resolvePixels c d tilePixels (logEvs s reads) with
        | (s, some e) => resolveStop s c e.1 e.2
        | (s, none) => frameCount (frameDone s c) c 256

/-! ### Present channels (R352-R355, R405) -/

def channelReset : Channel := ⟨0, [], none, none, none, 0, 0, 0, [], [], [], 0⟩
def channelOf (s : State) (ch : Nat) : Channel := (aget s.channels ch).getD channelReset
def modChannel (s : State) (ch : Nat) (f : Channel → Channel) : State :=
  { s with channels := aput s.channels ch (f (channelOf s ch)) }
def chEn (c : Channel) : Bool := c.reg.getLsbD 0
def chCtx (c : Channel) : Nat := bits c.reg.toNat 7 2
def chWidth (c : Channel) : Nat := bits c.reg.toNat 79 64
def chHeight (c : Channel) : Nat := bits c.reg.toNat 95 80
def chScanlat (c : Channel) : Nat := bits c.reg.toNat 127 96
def bound (s : State) (ch ctx : Nat) : Bool := chEn (channelOf s ch) && chCtx (channelOf s ch) == ctx

/-- The checks of R352 that every form shares, then the image's. -/
def presentErr (s : State) (x : Iss) (sb : Nat) (img : Option Rec) : Option Err :=
  let c := (rdS x.q (sb + 1)).toNat
  let k := channelOf s (c % 64)
  firstErr ([
    (!bound s (c % 64) (ctxId s x.q), eACCESS 0x10),
    (bits c 31 6 != 0, eACCESS 4)] ++
    match img with
    | none => []
    | some r =>
      [(recKind r != 0 || recSpace r != 0 || !rec2d r || recEsize r != 2, eACCESS 2),
       (recReserved r, eACCESS 4), (recGeomBad r, eACCESS 5),
       (decide (recExt0 r < chWidth k) || decide (recExt1 r < chHeight k), eACCESS 5)])

/-- The graph of the issuing task. -/
def graphOf (s : State) (q : Squad) : Nat := (((taskOf s q.task).bind fun t => nodeOf s t.node).map (·.graph)).getD 0

def execLfPresentArm (h : Hdr) (sb : Nat) (s : State) : Out :=
  issue h 2 (.once 1) s fun x s =>
    if x.act = 0 then .ok s
    else
      match presentErr s x sb none with
      | some e => failE s x e
      | none =>
        let c := (rdS x.q (sb + 1)).toNat
        let dl := (rdS x.q sb).toNat
        let k := channelOf s (c % 64)
        if k.lastArmed.any (fun l => decide (dl ≤ l)) || decide (k.armed.length ≥ 4) then failE s x (eACCESS 0x11)
        else .ok (modChannel s (c % 64) fun k =>
          { k with armed := k.armed ++ [⟨bits c 63 32, dl, graphOf s x.q, none⟩], lastArmed := some dl })

/-- A commit or substitute: a release of paths T, C, M and G at `pkg`, on its way to the present engine (R354). -/
def presentForm (h : Hdr) (isSub : Bool) (ba sb : Nat) (s : State) : Out :=
  issue h 2 (.once 1) s fun x s =>
    if x.act = 0 then .ok s
    else
      match presentErr s x sb (some (rdB x.q ba)) with
      | some e => failE s x e
      | none =>
        let c := (rdS x.q (sb + 1)).toNat
        let id := s.nextId
        let s := logRel { s with nextId := id + 1 } x 15 .pkg (.commit id)
        .ok (modChannel s (c % 64) fun k =>
          { k with commits := k.commits ++ [⟨id, c % 64, bits c 63 32, rdB x.q ba, isSub⟩] })

def execLfPresentCommit (h : Hdr) (ba sb : Nat) (s : State) : Out := presentForm h false ba sb s
def execLfPresentSub (h : Hdr) (ba sb : Nat) (s : State) : Out := presentForm h true ba sb s

/-- The graph of an armed frame has a task that ended with a fault (R355). -/
def frameFaulted (s : State) (f : Frame) : Bool := ((aget s.graphs f.graph).bind (·.fault)).isSome

/-- The oldest commit of a channel takes effect at this tick. -/
def commitEffect (s : State) (ch : Nat) : State :=
  match (channelOf s ch).commits with
  | [] => s
  | c :: r =>
    modChannel s ch fun k =>
      let k := { k with commits := r }
      let img : Image := ⟨c.id, c.image⟩
      if c.isSub then { k with substitute := some img }
      else if k.armed.any fun f => f.frame == c.frame && decide (s.time < f.deadline) && !frameFaulted s f then
        { k with armed := k.armed.map fun f => if f.frame = c.frame then { f with image := some img } else f }
      else { k with late := (k.late + 1) % 2 ^ 64 }

/-- The earliest armed frame whose deadline has come. -/
def dueFrame (s : State) (ch : Nat) : Option Frame := (channelOf s ch).armed.find? fun f => decide (f.deadline ≤ s.time)

/-- The decision at a deadline (R355). -/
def deadlineEffect (s : State) (ch : Nat) : State :=
  match dueFrame s ch with
  | none => s
  | some f =>
    modChannel s ch fun k =>
      let good := f.image.isSome && !frameFaulted s f
      let img := if good then f.image else k.substitute.orElse fun _ => k.last
      { k with
        armed := k.armed.filter (· ≠ f), last := img
        frames := (k.frames + 1) % 2 ^ 64, miss := if good then k.miss else (k.miss + 1) % 2 ^ 64
        due := k.due ++ [(f.deadline + chScanlat k, img)] }

/-- `n` bytes at an address, cut at page ends. -/
def pageParts (va n : Nat) : List (Nat × Nat) :=
  (List.range (ceilDiv (va % 65536 + n) 65536)).map fun i =>
    let lo := max va (va / 65536 * 65536 + 65536 * i)
    (lo, min (va + n) (va / 65536 * 65536 + 65536 * (i + 1)) - lo)

/-- What scan-out reads of an image, through the context of the channel; a missing page gives nothing. DESIGN CHOICE: R175
names no path for these reads; they are put on path H. -/
def scanEvs (s : State) (ch : Nat) (img : Image) : List HEv :=
  let k := channelOf s ch
  let r := img.record
  let bytes := if recSwz r > 0 then rowBytes r else 4 * chWidth k
  .acquire (whoScan s ch) 64 .pkg [.commit img.commit] ::
    (List.range (chHeight k)).flatMap fun y =>
      (pageParts (recBase r + y * recStride r) bytes).flatMap fun p =>
        match translate s (chCtx k) p.1 false with
        | .ok (sp, a) => [.access (accRd (whoScan s ch) .H (.bytes sp a p.2))]
        | .error _ => []

/-- The image that falls due first; after a change of SCANLAT it may have been decided later than others. -/
def dueImage (k : Channel) : Option (Nat × Option Image) :=
  k.due.foldl (fun b d => match b with
    | none => some d
    | some c => if d.1 < c.1 then some d else b) none

/-- Scan-out of the next image whose time has come. -/
def scanOut (s : State) (ch : Nat) : State :=
  match dueImage (channelOf s ch) with
  | none => s
  | some d =>
    if d.1 ≤ s.time then
      modChannel (logEvs s ((d.2.map (scanEvs s ch)).getD [])) ch fun k =>
        { k with due := k.due.erase d, shown := k.shown ++ [(s.time, d.2)] }
    else s

/-- A write of a channel register (R405). -/
def channelWrite (s : State) (ch : Nat) (x : BitVec 128) : State :=
  modChannel s ch fun k =>
    let x := x &&& BitVec.ofNat 128 (2 ^ 128 - 2 ^ 48 + 0xFD)
    let k' := { k with reg := x, claims := if x.getLsbD 0 && !chEn k then k.claims + 1 else k.claims }
    if chEn k' ≠ chEn k ∨ chCtx k' ≠ chCtx k then { k' with armed := [], lastArmed := none, substitute := none } else k'

/-! ### Statistics (R358, R359) -/

/-- The counts of a bin join the committed ones. -/
def commitBin (s : State) (t : Task) : State :=
  (List.range 8).foldl (fun s id =>
    let k := statKey (t.core / 128) t.ctx id
    { s with stats := tset 0 s.stats k ((tget 0 s.stats k + tget 0 t.bin id) % 2 ^ 64) }) s

/-- SURV of a bin: samples whose depth word a `.w` test of it wrote last. -/
def survivors (s : State) (task : Nat) : Nat := (s.zown.filter fun e => e.2 == task).length

def statValue (s : State) (die ctx v : Nat) (pkg : Bool) : Nat :=
  let id := v % 16
  let k := channelOf s (bits v 13 8)
  if id < 8 then
    (if pkg then ((List.range 8).map fun d => statOf s d ctx id).foldl (· + ·) 0 % 2 ^ 64 else statOf s die ctx id)
  else if id = 8 then k.frames else if id = 9 then k.miss else k.late

def execLfStat (h : Hdr) (pkg : Bool) (sd : Nat) (b : Opnd) (s : State) : Out :=
  issue h 1 (.once 1) s fun x s =>
    if x.act = 0 then .ok s
    else
      let v := rdScal x.q b
      let ctx := ctxId s x.q
      if v % 16 > 10 ∨ bits v 7 4 ≠ 0 ∨ v / 2 ^ 14 ≠ 0 ∨ (v % 16 ≥ 8 ∧ !bound s (bits v 13 8) ctx) then failE s x (eACCESS 4)
      else .ok (putLater s x [.s sd (BitVec.ofNat 64 (statValue s (dieOf x.q) ctx v pkg))])

end Sys2Proof.Machine
end

