-- ==== Sys2Proof/Machine/Graphs.lean ====
section
/-! DEFINITION. Task records, graphs and their acceptance; readiness, completion and skipping of nodes; leases
(R361-R373). -/

namespace Sys2Proof.Machine

/-! ### Task records (R361, R362) -/

def trecOf (n : Nat) : TRec :=
  { ovla := fieldAt n 0 8, ovlb := fieldAt n 8 8, nsquad := fieldAt n 16 2, regs := fieldAt n 18 1,
    slots := fieldAt n 19 1, acc := fieldAt n 20 1, ntile := fieldAt n 21 1, ctrl := fieldAt n 22 1,
    flags := fieldAt n 23 1, rbudget := fieldAt n 24 1, nrange := fieldAt n 25 1, gang := fieldAt n 26 2,
    scratch := fieldAt n 28 4, tileoff := fieldAt n 32 4, preds := fieldAt n 36 4,
    band := BitVec.ofNat 64 (fieldAt n 40 8), sched := fieldAt n 48 8, size := BitVec.ofNat 64 (fieldAt n 56 8),
    range := BitVec.ofNat 1024 (fieldAt n 64 128), succ := fieldAt n 192 8, nsucc := fieldAt n 200 4,
    cthresh := fieldAt n 204 4, cdead := fieldAt n 208 4, runlim := fieldAt n 212 4, save := fieldAt n 216 8 }

def trKind (tr : TRec) : Nat := tr.ctrl / 16 % 4
def trIdem (tr : TRec) : Bool := tr.flags.testBit 0
def trReplay (tr : TRec) : Bool := tr.flags.testBit 1
def trPriv (tr : TRec) : Bool := tr.flags.testBit 2
def trMigr (tr : TRec) : Bool := tr.flags.testBit 3

/-- A range entry below NRANGE obeys R362; the others are zero. -/
def rangesOk (tr : TRec) : Bool :=
  (List.range 8).all fun i =>
    let e := fieldAt tr.range.toNat (16 * i) 16
    let r := rangeOf tr i
    if i < tr.nrange then
      e / 2 ^ 107 == 0 && bits e 63 52 == 0 && (r.acc == 1 || r.acc == 3) && decide (1 ≤ r.len) &&
        (!r.lod || (decide (128 ≤ r.len) && r.base % 128 == 0))
    else e == 0

/-- The band word's zero bits (R318). -/
def bandOk (band : W64) : Bool := (List.range 4).all fun b => bits band.toNat (16 * b + 14) (16 * b + 6) == 0

/-- Overlays, slots, tiles and footprint lie in their ranges, for every KIND (R361, R365). -/
def shapeOk (tr : TRec) : Bool :=
  tr.ovla / 2 ^ 45 == 0 && (tr.ovlb == 0 || (tr.ovlb.testBit 63 && bits tr.ovlb 62 45 == 0)) &&
    decide (tr.slots ≤ 64) && decide (tr.acc ≤ 32) && decide (tr.ntile ≤ 8) && tr.scratch % 64 == 0 &&
    decide (tr.scratch ≤ Config.scratchBytes) && tr.tileoff % 65536 == 0 && decide (tr.tileoff + 65536 * tr.ntile ≤ tr.scratch)

/-- So do the fields that a launch uses, for KIND 0. -/
def launchOk (tr : TRec) : Bool :=
  shapeOk tr && decide (1 ≤ tr.nsquad) && decide (2 ≤ tr.regs) && decide (tr.regs ≤ 32) &&
    decide (tr.nsquad * 256 * tr.regs ≤ 65536)

/-- The command entry of a KIND 1 or 2 node, as one number (R270, R368). -/
def cmdEntry (tr : TRec) : Nat := tr.range.toNat
def cmdMajor (tr : TRec) : Nat := fieldAt (cmdEntry tr) 104 1
def cmdOk (tr : TRec) : Bool :=
  if trKind tr = 1 then cmdMajor tr == 0xC8
  else if trKind tr = 2 then [0x90, 0x91, 0x92, 0x94].contains (cmdMajor tr)
  else rangesOk tr

/-- The bounds of R361 on a whole record, and the two rules of R365 on REPLAY and SAVE. -/
def fieldsOk (tr : TRec) : Bool :=
  (if trKind tr = 0 then launchOk tr else shapeOk tr) && tr.ctrl / 64 == 0 && !tr.ctrl.testBit 3 && decide (tr.flags < 16) &&
    decide (tr.nrange ≤ 8) && bandOk tr.band && decide (tr.nsucc ≤ 65535) && tr.save % 64 == 0 && cmdOk tr &&
    (!trReplay tr || trIdem tr) && (tr.save != 0 || trReplay tr) &&
    (trKind tr == 0 || (tr.nsquad == 0 && tr.nrange == 0 && tr.sched == 0 && tr.gang == 0))

/-! ### Size-class schedules (R372) -/

/-- The entries (CAP, TREC) of a schedule set; none when it is not valid in itself. -/
def schedSet (s : State) (ctx va : Nat) : Option (List (Nat × Nat)) :=
  match devReadN s ctx va 8 with
  | none => none
  | some h =>
    if va % 8 ≠ 0 ∨ h = 0 ∨ h > 8 then none
    else
      match devReadN s ctx (va + 8) (16 * h) with
      | none => none
      | some d =>
        let es := (List.range h).map fun k => (fieldAt d (16 * k) 8, fieldAt d (16 * k + 8) 8)
        if es.all (fun e => decide (1 ≤ e.1)) && (es.zip (es.drop 1)).all (fun p => decide (p.1.1 < p.2.1)) then some es else none

/-- Instances, and the variant's record VA, for a size. -/
def schedPick (es : List (Nat × Nat)) (size : Nat) : Nat × Nat :=
  match es.find? fun e => decide (size ≤ e.1) with
  | some e => (1, e.2)
  | none =>
    match es.getLast? with
    | some e => (ceilDiv size e.1, e.2)
    | none => (1, 0)

/-- The node's record with the fields that the variant supplies. -/
def withVariant (tr v : TRec) : TRec :=
  { tr with ovla := v.ovla, ovlb := v.ovlb, nsquad := v.nsquad, regs := v.regs, slots := v.slots, acc := v.acc,
            ntile := v.ntile, scratch := v.scratch, tileoff := v.tileoff, runlim := v.runlim,
            flags := tr.flags % 2 + v.flags / 2 % 2 * 2 + tr.flags / 4 % 2 * 4 + v.flags / 8 % 2 * 8 }

/-- Bytes of a save area (R378). -/
def saveSize (tr : TRec) : Nat :=
  64 + tr.nsquad * (8192 + 1024 * tr.regs) + tr.scratch + 10560 * tr.slots + 16448 * tr.acc + 512 + 8704

def readTRec (s : State) (ctx va : Nat) : Option TRec := (devReadN s ctx va 256).map trecOf

/-- The record that instance `part` runs under (R372). -/
def instTr (s : State) (ctx : Nat) (tr : TRec) (part : Nat) : TRec :=
  if tr.sched = 0 then tr
  else
    match (schedSet s ctx tr.sched).map fun es => schedPick es tr.size.toNat with
    | none => tr
    | some p =>
      match readTRec s ctx p.2 with
      | none => tr
      | some v =>
        let r := withVariant tr v
        { r with save := if tr.save = 0 then 0 else tr.save + part * alignUp (saveSize r) 4096 }

/-- Instances of a node when it becomes ready; a collector has them one by one. -/
def partCount (s : State) (ctx : Nat) (tr : TRec) : Nat :=
  if tr.cthresh ≠ 0 then 0
  else if tr.sched = 0 then 1
  else ((schedSet s ctx tr.sched).map fun es => (schedPick es tr.size.toNat).1).getD 1

/-- A schedule set is valid: in itself, and every variant gives the node a record that can be launched. -/
def schedOk (s : State) (ctx : Nat) (tr : TRec) : Bool :=
  tr.sched == 0 || (schedSet s ctx tr.sched).any fun es => es.all fun e =>
    match readTRec s ctx e.2 with
    | some v => launchOk (withVariant tr v) && fieldsOk (withVariant tr v)
    | none => false

/-! ### Room on a core (R12, R13, R43, R272, R277) -/

/-- What the resident tasks of a core occupy. A bank is free, or held by a context's tasks with the overlay id that they name
while the bank holds that overlay: another task may share it then. -/
structure CoreUse where
  regs : Nat
  lanes : List Nat
  feet : List (Nat × Nat)
  slots : List Nat
  tiles : List Nat
  bankA : Option (Nat × Option Nat)
  bankB : Option (Nat × Option Nat)
  deriving DecidableEq, Repr

def emptyUse : CoreUse := ⟨0, List.replicate 32 0, [], [], [], none, none⟩

/-- Where a task is put on a core. -/
structure Spot where
  base : Nat
  slots : List Nat
  tile0 : Nat
  deriving DecidableEq, Repr

/-- The overlay that a held bank offers to tasks that name the same (R43). DEDUCED: once an OVL.LD of a holder has put another
overlay there, or began one, it offers none, since a task is given a bank holding the overlay that it names. -/
def offers (b : Bank) : Option Nat := if b.valid && b.loading.isEmpty && b.ovlid == b.named then some b.named else none

def bankUse (s : State) (core : Nat) (bank : Bool) (gone : List Nat) : Option (Nat × Option Nat) :=
  let b := bankOf s core bank
  match b.holders.filter fun t => !gone.contains t with
  | [] => none
  | t :: _ => some (((taskOf s t).map (·.ctx)).getD 0, offers b)

/-- The tasks on a core: those that are not saved. -/
def residents (s : State) (core : Nat) : List (Nat × Task) := s.tasks.filter fun e => e.2.core == core && !e.2.saved

/-- Squads on a lane. -/
def laneSquads (s : State) (core lane : Nat) (gone : List Nat) : Nat :=
  (s.squads.filter fun e => e.2.core == core && e.2.lane == lane && !gone.contains e.2.task &&
    ((taskOf s e.2.task).map fun t => !t.saved).getD false).length

/-- The use of a core, without the tasks in `gone`. DESIGN CHOICE: R12 does not say when a squad that has exited stops counting;
its registers are charged until its task ends, its place on a lane until it exits. -/
def useOf (s : State) (gone : List Nat) (core : Nat) : CoreUse :=
  let ts := ((residents s core).filter fun e => !gone.contains e.1).map (·.2)
  { regs := (ts.map fun t => t.tr.nsquad * 256 * t.tr.regs).foldl (· + ·) 0
    lanes := (List.range 32).map fun l => laneSquads s core l gone
    feet := ts.map fun t => (t.base, t.tr.scratch)
    slots := ts.flatMap (·.slots)
    tiles := ts.flatMap fun t => (List.range t.tr.acc).map fun i => t.tile0 + i
    bankA := bankUse s core false gone, bankB := bankUse s core true gone }

/-- The lowest aligned address with `n` bytes free of every footprint. -/
def firstFoot (feet : List (Nat × Nat)) (n : Nat) : Option Nat :=
  let free (a : Nat) : Bool := decide (a + n ≤ Config.scratchBytes) &&
    feet.all fun f => decide (a + n ≤ f.1) || decide (f.1 + f.2 ≤ a)
  (0 :: feet.map fun f => f.1 + f.2).foldl (fun b a => if free a then some (match b with | some c => min a c | none => a) else b) none

/-- The first `n` free slots. -/
def firstSlots (used : List Nat) (n : Nat) : Option (List Nat) :=
  let l := ((List.range 64).filter fun i => !used.contains i).take n
  if l.length = n then some l else none

/-- The first of `n` consecutive free tiles. -/
def firstTiles (used : List Nat) (n : Nat) : Option Nat :=
  (List.range 33).find? fun q => decide (q + n ≤ 32) && (List.range n).all fun i => !used.contains (q + i)

/-- Id of the context's trap overlay. -/
def trapId (s : State) (ctx : Nat) : Option Nat :=
  let va := (ctxOf s ctx).trapovl.toNat
  if va = 0 then none else some ((devReadN s ctx (va + 12) 4).getD 0)
/-- The overlay that bank B is to hold for a task (R368, R382). -/
def needB (s : State) (ctx : Nat) (tr : TRec) : Option Nat :=
  if tr.ovlb ≠ 0 then some (tr.ovlb % 2 ^ 32) else trapId s ctx

def bankFits (b : Option (Nat × Option Nat)) (ctx : Nat) (need : Option Nat) : Bool :=
  match need, b with
  | none, _ => true
  | some _, none => true
  | some i, some (c, j) => c == ctx && j == some i

/-- Squads, registers and banks fit; `a` and `b` are the overlays that the banks are to hold. -/
def squadsFit (u : CoreUse) (ctx : Nat) (tr : TRec) (a b : Option Nat) : Bool :=
  decide (u.regs + tr.nsquad * 256 * tr.regs ≤ 65536) &&
    decide (tr.nsquad ≤ (u.lanes.map fun n => 4 - n).foldl (· + ·) 0) &&
    bankFits u.bankA ctx a && bankFits u.bankB ctx b

/-- Room for a task; `fix` is the footprint base that it must have. -/
def fitIn (u : CoreUse) (ctx : Nat) (tr : TRec) (fix : Option Nat) (a b : Option Nat) : Option Spot :=
  if !squadsFit u ctx tr a b then none
  else
    let base := match fix with
      | none => firstFoot u.feet tr.scratch
      | some a => if u.feet.all fun f => decide (a + tr.scratch ≤ f.1) || decide (f.1 + f.2 ≤ a) || tr.scratch == 0 then some a else none
    match base, firstSlots u.slots tr.slots, firstTiles u.tiles tr.acc with
    | some b, some l, some q => some ⟨b, l, q⟩
    | _, _, _ => none

/-- The lanes of `n` squads, and the counts after them (R13). -/
def nextLane (cnt : List Nat) (at' : Nat) : Nat :=
  (((List.range 32).map fun i => (at' + i) % 32).find? fun l => decide (nthN cnt l < 4)).getD at'
def bump (cnt : List Nat) (l : Nat) : List Nat := cnt.zipIdx.map fun e => if e.2 = l then e.1 + 1 else e.1
def startLane (cnt : List Nat) : Nat :=
  (List.range 32).foldl (fun b l => if nthN cnt l < nthN cnt b then l else b) 0
def lanesFrom (l0 : Nat) : Nat → Nat → List Nat → List Nat
  | 0, _, _ => []
  | n + 1, k, cnt =>
    let l := nextLane cnt ((l0 + k) % 32)
    l :: lanesFrom l0 n (k + 1) (bump cnt l)
def lanesFor (cnt : List Nat) (n : Nat) : List Nat := lanesFrom (startLane cnt) n 0 cnt
/-- The lanes of the squads with these indices, each from its own place (R13). -/
def lanesAt (l0 : Nat) : List Nat → List Nat → List Nat
  | [], _ => []
  | k :: r, cnt =>
    let l := nextLane cnt ((l0 + k) % 32)
    l :: lanesAt l0 r (bump cnt l)

/-- The use after a task is added. -/
def addUse (s : State) (u : CoreUse) (ctx : Nat) (tr : TRec) (p : Spot) : CoreUse :=
  { regs := u.regs + tr.nsquad * 256 * tr.regs
    lanes := (lanesFor u.lanes tr.nsquad).foldl bump u.lanes
    feet := u.feet ++ [(p.base, tr.scratch)]
    slots := u.slots ++ p.slots
    tiles := u.tiles ++ (List.range tr.acc).map fun i => p.tile0 + i
    bankA := some (ctx, some (tr.ovla % 2 ^ 32))
    bankB := match needB s ctx tr with | some i => some (ctx, some i) | none => u.bankB }

/-- The lowest core of a die with room. -/
def fitDie (s : State) (use : Nat → CoreUse) (avail : Nat → Bool) (ctx : Nat) (tr : TRec) (die : Nat) : Option (Nat × Spot) :=
  ((List.range Config.coresPerDie).map fun i => die * 128 + i).findSome? fun c =>
    if avail c then (fitIn (use c) ctx tr none (some (tr.ovla % 2 ^ 32)) (needB s ctx tr)).map fun p => (c, p) else none

/-- The home die first, then, when the task may leave it, the others. -/
def fitAny (s : State) (use : Nat → CoreUse) (avail : Nat → Bool) (ctx : Nat) (tr : TRec) (die : Nat) (spill : Bool) :
    Option (Nat × Spot) :=
  (fitDie s use avail ctx tr die).orElse fun _ =>
    if spill then ((List.range 8).filter (· ≠ die)).findSome? fun d => fitDie s use avail ctx tr d else none

/-- What is to be placed: context, record, home die, and whether other dies are allowed. -/
structure Want1 where
  ctx : Nat
  tr : TRec
  die : Nat
  spill : Bool
  deriving DecidableEq, Repr

/-- Places for several tasks at one moment (R374). -/
def packAll1 (s : State) (avail : Nat → Bool) : List Want1 → (Nat → CoreUse) → Option (List (Nat × Spot))
  | [], _ => some []
  | w :: r, use =>
    match fitAny s use avail w.ctx w.tr w.die w.spill with
    | none => none
    | some (c, p) =>
      (packAll1 s avail r fun k => if k = c then addUse s (use c) w.ctx w.tr p else use k).map ((c, p) :: ·)

/-! ### Home dies, priorities and leases (R368, R369, R198) -/

/-- Each entry once. -/
def dedupWith (l : List (Nat × Bool)) : List (Nat × Bool) := l.foldl (fun m e => if m.contains e then m else m ++ [e]) []

/-- The 64 KiB pages that a range of bytes touches, as page numbers. -/
def pagesOf (base len : Nat) : List Nat :=
  if len = 0 then [] else (List.range ((base + len - 1) / 65536 - base / 65536 + 1)).map fun i => base / 65536 + i

/-- Bytes of a range that a die homes. -/
def homeBytes (s : State) (ctx : Nat) (r : RangeEnt) (die : Nat) : Nat :=
  ((pagesOf r.base r.len).map fun p =>
    match walkPage s ctx (p * 65536) with
    | .ok g => if homeDie g.pa = die then min (r.base + r.len) ((p + 1) * 65536) - max r.base (p * 65536) else 0
    | .error _ => 0).foldl (· + ·) 0

/-- The pool that a node enters; `dflt` when it declares no range outside LOD. -/
def nodeDie (s : State) (ctx : Nat) (tr : TRec) (dflt : Nat) : Nat :=
  let rs := (ranges tr).filter fun r => !r.lod
  if rs.isEmpty then dflt
  else
    let b (d : Nat) : Nat := (rs.map fun r => homeBytes s ctx r d).foldl (· + ·) 0
    (List.range 8).foldl (fun m d => if b m < b d then d else m) 0

/-- Effective priority of a record that entered the pool at `entry` (R368). -/
def effPrio (s : State) (ctx : Nat) (tr : TRec) (entry now : Nat) : Nat :=
  if deadlineRec s tr ctx then 7 else min (min (tr.ctrl % 8) 6 + (now - entry) / 1000000) 6

def mapped (s : State) (ctx p : Nat) (wr : Bool) : Bool :=
  match walkPage s ctx (p * 65536) with
  | .ok g => !wr || g.w
  | .error _ => false
def mappedAll (s : State) (ctx base len : Nat) (wr : Bool) : Bool := (pagesOf base len).all fun p => mapped s ctx p wr

/-- The byte ranges that the lease of a LOD range covers, and whether they are written (R198): of a missing or an invalid
descriptor only its own bytes. -/
def lodNeeds (s : State) (ctx : Nat) (r : RangeEnt) : List (Nat × Nat × Bool) :=
  let d := descAt s ctx r.base
  let fl := levelOf d (descFloor d)
  let pn := levelPn d fl
  let fb := (ctxOf s ctx).fbctl.toNat
  let h := (devReadN s ctx fb 16).getD 0
  let l := fieldAt h 8 1
  (r.base, 128, false) ::
    ((if mappedAll s ctx r.base 128 false && descValid d then
        [(descMap d, (fl.pgoff + pn + 7) / 8, false), (descBase d + fl.pgoff * 65536, pn * 65536, false)]
      else []) ++
    (if fb = 0 then [] else (fb, 64, true) :: if 4 ≤ l ∧ l ≤ 15 then [(fieldAt h 0 8, 16 * 2 ^ l, true)] else []))

/-- What a range needs (R369). -/
def rangeNeeds (s : State) (ctx : Nat) (r : RangeEnt) : List (Nat × Nat × Bool) :=
  if r.lod then lodNeeds s ctx r else [(r.base, r.len, r.acc == 3)]

/-- Every floor-level residency bit of a valid descriptor is set (R198). -/
def floorSet (s : State) (ctx : Nat) (r : RangeEnt) : Bool :=
  let d := descAt s ctx r.base
  let fl := levelOf d (descFloor d)
  !r.lod || !descValid d || (List.range (levelPn d fl)).all fun p => mapBit s ctx d fl p

/-- Every page that the ranges of a record need is there (R369). -/
def leaseThere (s : State) (ctx : Nat) (tr : TRec) : Bool :=
  (ranges tr).all fun r => (rangeNeeds s ctx r).all (fun n => mappedAll s ctx n.1 n.2.1 n.2.2) && floorSet s ctx r

/-- The pages that are missing, each with whether it is to be written. -/
def missingPages (s : State) (ctx : Nat) (tr : TRec) : List (Nat × Bool) :=
  dedupWith ((ranges tr).flatMap fun r => (rangeNeeds s ctx r).flatMap fun n =>
    ((pagesOf n.1 n.2.1).filter fun p => !mapped s ctx p n.2.2).map fun p => (p, n.2.2))

/-- Every LOD descriptor of a record is valid (R196). -/
def lodValid (s : State) (ctx : Nat) (tr : TRec) : Bool :=
  (ranges tr).all fun r => !r.lod || descValid (descAt s ctx r.base)

/-! ### Nodes (R363-R367) -/

/-- STATE of a node, in the device and in its record. -/
def setNodeState (s : State) (id st : Nat) : State :=
  match nodeOf s id with
  | none => s
  | some n => devWriteN (modNode s id fun n => { n with st := st }) n.ctx (n.va + 224) 1 st

/-- The fault part of FREC, with the kill count (R363, R448). -/
def writeFrec (s : State) (ctx va : Nat) (r : FaultRec) (kill : Bool) : State :=
  let kills := min 255 ((devReadN s ctx (va + 227) 1).getD 0 + kill.toNat)
  devWrite s ctx (va + 225) (leBytes 1 r.code ++ leBytes 1 r.sub ++ leBytes 1 kills ++ leBytes 1 (r.core / 128) ++
    leBytes 1 (r.core % 128) ++ leBytes 1 r.squad ++ leBytes 1 r.thread ++ leBytes 2 r.pc ++ leBytes 6 0 ++
    leBytes 8 r.addr ++ leBytes 8 r.time)

/-- The accepted node of a record that is still in play. -/
def nodeAt (s : State) (ctx va : Nat) : Option Nat :=
  (s.nodes.find? fun e => e.2.ctx == ctx && e.2.va == va && decide (e.2.st < 5)).map (·.1)

def nodeKind (n : Node) : Nat := trKind n.tr
def collector (n : Node) : Bool := n.tr.cthresh != 0

/-- The record of an accepted node as it now is (R361). One that would be refused is disregarded; KIND, GANG and what makes
a collector stay as accepted. -/
def reread (s : State) (n : Node) : TRec :=
  match readTRec s n.ctx n.va with
  | some tr =>
    if fieldsOk tr && (!trPriv tr || n.priv) && schedOk s n.ctx tr && trKind tr == trKind n.tr &&
        (tr.cthresh == 0) == (n.tr.cthresh == 0) then { tr with gang := n.tr.gang }
    else n.tr
  | none => n.tr

/-- A node becomes ready, an acquire for all its accesses (R367): it enters its pool (R368). A collector waits for its records
instead. -/
def makeReady (s : State) (id : Nat) : State :=
  match nodeOf s id with
  | none => s
  | some n =>
    let tr := reread s n
    let s := logEv s (.acquire (whoNode s id) 127 .sys [.towards id, .graph n.graph])
    if collector n then s
    else
      let die := nodeDie s n.ctx tr (n.spawner.getD (((aget s.graphs n.graph).map (·.gid)).getD 0 % 8))
      setNodeState (modNode s id fun n => { n with tr := tr, die := die, entry := s.time, parts := partCount s n.ctx tr }) id 2

/-- PREDS of a record less one, at its home; the node becomes ready at 0 (R366, R387). -/
def decPreds (s : State) (ctx va : Nat) : State :=
  let p := (devReadN s ctx (va + 36) 4).getD 0
  if p = 0 then s
  else
    let s := devWriteN s ctx (va + 36) 4 (p - 1)
    match nodeAt s ctx va with
    | some id => if p = 1 && ((nodeOf s id).map fun n => n.st == 1).getD false then makeReady s id else s
    | none => s

/-- The successors of a node. -/
def succsOf (s : State) (n : Node) : List Nat :=
  (List.range n.tr.nsucc).map fun i => (devReadN s n.ctx (n.tr.succ + 8 * i) 8).getD 0

/-- Releases towards the accepted nodes of a list of records (R367). DEDUCED: each predecessor's completion releases towards the
successor, not only the last one's. -/
def releaseTowards (s : State) (who : Who) (ctx : Nat) (vas : List Nat) : State :=
  logEvs s ((vas.filterMap (nodeAt s ctx)).map fun m => .release who 127 .sys (.towards m))

/-- Skip the successors of a record and theirs in turn; `fuel` bounds the chain (R366). -/
def skipFrom : Nat → List (Nat × Nat) → State → State
  | 0, _, s => s
  | _, [], s => s
  | fuel + 1, (ctx, va) :: r, s =>
    match nodeAt s ctx va with
    | none => skipFrom fuel r s
    | some id =>
      match nodeOf s id with
      | none => skipFrom fuel r s
      | some n =>
        if n.st = 1 ∨ n.st = 2 ∨ collector n then
          skipFrom fuel (r ++ (succsOf s n).map fun v => (n.ctx, v)) (setNodeState s id 7)
        else skipFrom fuel r s

/-- An instance of the node is asked for and not begun. -/
def pending (n : Node) : Bool := decide (n.started < n.parts) || !n.again.isEmpty

/-- A node is in STATE 5, 6 or 7 and its instances have run to their end (R372). -/
def nodeOver (n : Node) : Bool := decide (5 ≤ n.st) && n.insts.isEmpty && (n.st == 7 || !pending n)

/-- A graph whose nodes have all ended is over: its arrival word is told (R366, R367). -/
def graphEnd (s : State) (g : Nat) : State :=
  match aget s.graphs g with
  | none => s
  | some gr =>
    let ns := gr.nodes.filterMap (nodeOf s)
    if !gr.ended && ns.all nodeOver then
      let s := logEv s (.acquire (whoDev s) 127 .sys (ns.map fun n => .done n.ctx n.va))
      let s := if gr.awva = 0 then s else
        match translate s gr.ctx gr.awva true with
        | .error _ => s
        | .ok (sp, a) =>
          let l : AwLoc := ⟨sp, a⟩
          let s := match gr.fault with | some f => awPutFault s l f.2.1 f.2.2 | none => s
          awCount s (whoDev s) .H 127 .sys l 1 0
      { s with
        graphs := amod s.graphs g fun gr => { gr with ended := true }
        nodes := s.nodes.filter fun e => !gr.nodes.contains e.1
        spawns := s.spawns.filter fun p => p.graph ≠ g }
    else s

/-- Every graph that has come to its end. -/
def graphsEnd (s : State) : State := s.graphs.foldl (fun s e => graphEnd s e.1) s

/-- A node completes: a release of all its accesses, then PREDS of its successors in list order (R366, R367). -/
def nodeDone (s : State) (id : Nat) : State :=
  match nodeOf s id with
  | none => s
  | some n =>
    let s := setNodeState (logEv s (.release (whoNode s id) 127 .sys (.done n.ctx n.va))) id 5
    let s := releaseTowards s (whoNode s id) n.ctx (succsOf s n)
    let s := (succsOf s n).foldl (fun s v => decPreds s n.ctx v) s
    graphEnd s n.graph

/-- The earlier of two faults of a graph. -/
def earlier (a : Option (Nat × Nat × Nat)) (b : Nat × Nat × Nat) : Nat × Nat × Nat :=
  match a with
  | some f => if f.1 ≤ b.1 then f else b
  | none => b

/-- A node ends with a fault raised at `time`: STATE 6, its successors are skipped (R366); they may be of other graphs. -/
def nodeFail (s : State) (id : Nat) (code sub time : Nat) : State :=
  match nodeOf s id with
  | none => s
  | some n =>
    let s := if n.st = 7 then s else setNodeState s id 6
    let s := { s with graphs := amod s.graphs n.graph fun g => { g with fault := some (earlier g.fault (time, code, sub)) } }
    graphsEnd (skipFrom (65537 * (s.nodes.length + 1)) ((succsOf s n).map fun v => (n.ctx, v)) s)

/-! ### Acceptance of a graph (R364, R365) -/

/-- A record passes the checks of R365 that concern it alone. -/
def recordOk (s : State) (ctx va : Nat) (priv : Bool) : Bool :=
  match devReadN s ctx va 256 with
  | none => false
  | some n =>
    let tr := trecOf n
    va % 64 == 0 && fieldAt n 224 1 == 0 && fieldsOk tr && (!trPriv tr || priv) && schedOk s ctx tr

/-- Members of a gang among records, with every instance of each; a collector has one at a time (R373). -/
def gangWants (s : State) (ctx dflt : Nat) (trs : List TRec) (gang : Nat) : List Want1 :=
  (trs.filter fun t => t.gang == gang).flatMap fun t =>
    (List.range (if t.cthresh ≠ 0 then 1 else partCount s ctx t)).map fun i => ⟨ctx, instTr s ctx t i, nodeDie s ctx t dflt, true⟩

/-- The gang of a record fits an empty package (R374). -/
def gangFits (s : State) (ctx dflt : Nat) (trs : List TRec) (tr : TRec) : Bool :=
  tr.gang == 0 || (packAll1 s (fun _ => true) (gangWants s ctx dflt trs tr.gang) fun _ => emptyUse).isSome

/-- A graph descriptor's fields. -/
structure GDesc where
  nodes : Nat
  nnode : Nat
  gid : Nat
  awva : Nat
  deriving DecidableEq, Repr

def gdescOf (n : Nat) : Option GDesc :=
  let d : GDesc := ⟨fieldAt n 0 8, fieldAt n 8 4, fieldAt n 12 4, fieldAt n 16 8⟩
  if 1 ≤ d.nnode ∧ d.nnode ≤ 65536 ∧ fieldAt n 24 8 = 0 then some d else none

/-- The index of the first node that fails, if any. -/
def firstRefused (s : State) (ctx dflt : Nat) (priv : Bool) (vas : List Nat) : Option Nat :=
  let trs := vas.filterMap (readTRec s ctx)
  (vas.zipIdx.find? fun e => !(recordOk s ctx e.1 priv &&
    ((readTRec s ctx e.1).map fun tr => gangFits s ctx dflt trs tr).getD false)).map (·.2)

/-- A node that has just been accepted. -/
def newNode (graph ctx va die : Nat) (tr : TRec) (spawner : Option Nat) : Node :=
  { graph := graph, ctx := ctx, va := va, tr := tr, st := 1, die := die, entry := 0, leased := false, asked := false,
    misfit := none, spill := false, drain := [], wr := 0, rd := 0, oldest := 0, consume := 0, csize := 0, parts := 0,
    started := 0, again := [], insts := [], fault := none, spawner := spawner, priv := trPriv tr }

def addNodes (ctx g dflt : Nat) (spawner : Option Nat) : List Nat → State → State
  | [], s => s
  | va :: r, s =>
    let id := s.nextId
    let tr := (readTRec s ctx va).getD trReset
    let s := { s with
      nextId := id + 1
      nodes := aput s.nodes id (newNode g ctx va dflt tr spawner)
      graphs := amod s.graphs g fun gr => { gr with nodes := gr.nodes ++ [id] } }
    addNodes ctx g dflt spawner r (setNodeState s id 1)

/-- Submit the graph of a descriptor: the state and the new graph's id, or the first refused node. `spawner` is the die of
the spawning task, none for the host. -/
def submitGraph (s : State) (ctx : Nat) (priv : Bool) (spawner : Option Nat) (desc : Nat) : Except (Nat × Nat) (State × Nat × Nat) :=
  match gdescOf desc with
  | none => .error (0, fieldAt desc 12 4)
  | some d =>
    let dflt := spawner.getD (d.gid % 8)
    let vas := (List.range d.nnode).map fun i => (devReadN s ctx (d.nodes + 8 * i) 8).getD 1
    match firstRefused s ctx dflt priv vas with
    | some i => .error (i, d.gid)
    | none =>
      let g := s.nextId
      let s := { s with nextId := g + 1, graphs := aput s.graphs g ⟨ctx, d.gid, [], d.awva, none, false⟩ }
      let s := addNodes ctx g dflt spawner vas s
      let ids := ((aget s.graphs g).map (·.nodes)).getD []
      let s := ids.foldl (fun s id =>
        if ((nodeOf s id).map fun n => n.tr.preds == 0).getD false then makeReady (setNodeState s id 2) id else s) s
      .ok (s, g, d.gid)

/-! ### Collectors (R373) -/

/-- Entries of a collector's ring, and its base. -/
def ringSize (tr : TRec) : Nat := (rangeOf tr 0).len / 8
def ringBase (tr : TRec) : Nat := (rangeOf tr 0).base

/-- The collector may start an instance: no other is asked for, and there are records. -/
def collectIdle (n : Node) : Bool :=
  collector n && (n.st == 1 || n.st == 2) && n.insts.isEmpty && n.again.isEmpty && n.started == n.parts && decide (n.rd < n.wr)

/-- An instance of the collector enters the pool. -/
def collectReady (s : State) (id : Nat) : State :=
  match nodeOf s id with
  | none => s
  | some n =>
    let c := n.wr - n.rd
    let die := nodeDie s n.ctx n.tr n.die
    setNodeState (modNode s id fun n => { n with
      consume := c, csize := BitVec.ofNat 64 (c % 2 ^ 32 + n.rd % ringSize n.tr * 2 ^ 32), parts := n.parts + 1,
      die := die, entry := s.time }) id 2

def predsOf (s : State) (n : Node) : Nat := (devReadN s n.ctx (n.va + 36) 4).getD 0

/-- The instance is due by threshold, or because no more producers are awaited. -/
def collectDue (s : State) (n : Node) : Bool :=
  collectIdle n && (decide (n.tr.cthresh ≤ n.wr - n.rd) || predsOf s n == 0)
/-- The instance is due by its deadline. -/
def collectLate (s : State) (n : Node) : Bool :=
  collectIdle n && decide (n.oldest + (if n.tr.cdead = 0 then 50 else n.tr.cdead) * 1000 ≤ s.time)

end Sys2Proof.Machine
end

