-- ==== Sys2Proof/Machine/Placement.lean ====
section
/-! DEFINITION. The ready pool, placement and launch; the end, the kill and the relaunch of tasks
(R36, R42-R44, R276, R298, R363, R366, R368, R374, R382). -/

namespace Sys2Proof.Machine

/-! ### What waits in the pools (R368, R374) -/

def nextPart (n : Node) : Part :=
  match n.again with
  | p :: _ => p
  | [] => ⟨n.started, n.tr.rbudget, n.entry⟩

/-- A node asks for a place: with something to place, before or while other instances of it run, or after one failed. -/
def placing (n : Node) : Bool := pending n && (n.st == 2 || n.st == 3 || n.st == 6)

/-- A node of a pool: it asks for a place, and is leased when it has ranges to lease. -/
def inPool (n : Node) : Bool := placing n && (n.leased || nodeKind n != 0)

def gangOf (s : State) (n : Node) : List (Nat × Node) :=
  s.nodes.filter fun e => e.2.graph == n.graph && e.2.tr.gang == n.tr.gang

/-- Outside a gang, or relaunched while other members of its gang still run: placed alone (R374). DESIGN CHOICE: a later instance
of a collector is placed so too; R374 speaks of members, not of their instances. -/
def placedAlone (s : State) (n : Node) : Bool :=
  n.tr.gang == 0 || (decide (0 < n.started) && (gangOf s n).any fun e => !e.2.insts.isEmpty)

/-- Cores that a node may take: those under another node's drain reservation are for gangs. -/
def availFor (s : State) (id : Nat) (n : Node) (core : Nat) : Bool :=
  n.tr.gang != 0 || !(s.nodes.any fun e => e.1 != id && e.2.drain.contains core)

/-- All the instances that a node asks for. -/
def partsOf (n : Node) : List Part :=
  n.again ++ (List.range (n.parts - n.started)).map fun i => ⟨n.started + i, n.tr.rbudget, n.entry⟩

/-- What a placement of a node puts down together: node, instance, and what it asks for. -/
def placeWants (s : State) (id : Nat) (n : Node) : List (Nat × Part × Want1) :=
  if placedAlone s n then
    let p := nextPart n
    [(id, p, ⟨n.ctx, instTr s n.ctx n.tr p.part, n.die, n.spill⟩)]
  else
    (gangOf s n).flatMap fun e =>
      (partsOf e.2).map fun p => (e.1, p, ⟨e.2.ctx, instTr s e.2.ctx e.2.tr p.part, e.2.die, e.2.spill⟩)

/-- Every member of the gang is ready and leased, or has nothing more to place. -/
def gangReady (s : State) (n : Node) : Bool :=
  (gangOf s n).all fun e => nodeOver e.2 || (decide (0 < e.2.started) && !pending e.2) || (placing e.2 && e.2.leased)

/-- Places for a node, or for its gang, now. A node without squads needs none. -/
def placeTry (s : State) (id : Nat) : Option (List ((Nat × Part × Want1) × Nat × Spot)) :=
  match nodeOf s id with
  | none => none
  | some n =>
    if !inPool n then none
    else if nodeKind n ≠ 0 then some []
    else if !placedAlone s n && !gangReady s n then none
    else
      let ws := placeWants s id n
      (packAll1 s (availFor s id n) (ws.map fun w => w.2.2) (useOf s [])).map fun ps => ws.zip ps

/-- The overlays that a saved task's banks offer, for a bank test; one that offers none is shared with nobody. -/
def keptNeed (t : Task) (bank : Bool) : Option Nat :=
  (t.kept.bind fun k => k.banks.find? fun b => b.1 == bank).map fun b => (offers b.2.1).getD (2 ^ 40)

/-- A place that a task had is free again. -/
def spotFree (u : CoreUse) (tr : TRec) (p : Spot) : Bool :=
  (u.feet.all fun f => decide (p.base + tr.scratch ≤ f.1) || decide (f.1 + f.2 ≤ p.base) || tr.scratch == 0) &&
    p.slots.all (fun i => !u.slots.contains i) && (List.range tr.acc).all fun i => !u.tiles.contains (p.tile0 + i)

/-- The staged numbers of a saved task are free on a core (R288, R299). -/
def stagedFree (s : State) (core : Nat) (k : Kept) : Bool := k.staged.all fun e => (aget s.staged (core * 8 + e.1)).isNone

/-- No drain reservation keeps a task off a core: one holds it for gangs (R374). -/
def undrained (s : State) (t : Task) (core : Nat) : Bool := t.tr.gang != 0 || !(s.nodes.any fun e => e.2.drain.contains core)

/-- A saved task can come back to its core (R376). -/
def resumeFits (s : State) (t : Task) : Bool :=
  t.saved && t.stopping == .no && undrained s t t.core && squadsFit (useOf s [] t.core) t.ctx t.tr (keptNeed t false) (keptNeed t true) &&
    spotFree (useOf s [] t.core) t.tr ⟨t.base, t.slots, t.tile0⟩ && t.kept.all (stagedFree s t.core)

/-- An entry of a pool with room: a node or a saved task, with its priority and entry time. -/
structure PoolItem where
  task : Bool
  id : Nat
  prio : Nat
  entry : Nat
  deriving DecidableEq, Repr

def poolItems (s : State) (die : Nat) : List PoolItem :=
  ((s.nodes.filter fun e => e.2.die == die && (placeTry s e.1).isSome).map fun e =>
    let p := nextPart e.2
    ⟨false, e.1, effPrio s e.2.ctx e.2.tr p.entry s.time, p.entry⟩) ++
  (s.tasks.filter fun e => e.2.core / 128 == die && resumeFits s e.2).map fun e =>
    ⟨true, e.1, effPrio s e.2.ctx e.2.tr e.2.entry s.time, e.2.entry⟩

/-- The entry that the dispatcher takes: highest priority, then earliest, then first in order. -/
def poolBest (s : State) (die : Nat) : Option PoolItem :=
  (poolItems s die).foldl (fun b e => match b with
    | none => some e
    | some c =>
      if c.prio < e.prio ∨ (c.prio = e.prio ∧ (e.entry < c.entry ∨ (e.entry = c.entry ∧ e.id < c.id))) then some e else b) none

/-- The dispatcher of the node's die takes this node next. -/
def poolTakes (s : State) (id : Nat) : Bool :=
  match nodeOf s id with
  | some n => (poolBest s n.die).any fun e => !e.task && e.id == id
  | none => false

/-! ### Launch (R13, R36, R276, R368) -/

def allThreads : Mask := BitVec.allOnes 32

/-- A squad at launch (R36). -/
def newSquad (task idx lane core entry since : Nat) : Squad :=
  { task := task, idx := idx, lane := lane, core := core, v := [], s := [], p := [], b := [], vi := [], im := [], flg := 0,
    paths := [⟨0, ⟨false, entry⟩, allThreads, allThreads, 0, none, []⟩], joins := [], pend := [], settling := false,
    select := none, wait := none, granted := false, fault := none, rasterLv := false, rasterRvc := 0, rasterRy := 0,
    rasterRx := 0, latch := 0, perf := [], ebudCap := 0, ebudDeb := 0, trap := none, taken := (0, 0), since := since,
    atomDone := none }

/-- The dispatcher loads a bank with the overlay that the task names, unless tasks that name the same hold it already. -/
def fillBank (s : State) (core : Nat) (bank : Bool) (ctx va ovl tid : Nat) : State :=
  let s := if (bankOf s core bank).holders.isEmpty then
      match ovlImage s ctx (va + ·) 65536 with
      | .ok img => installBank s core bank img
      | .error _ => clearBank s core bank
    else s
  let b := bankOf s core bank
  setBank s core bank { b with holders := b.holders ++ [tid], named := ovl }

/-- Where the overlay of bank B stands (R361, R382). -/
def bankBVa (s : State) (ctx : Nat) (tr : TRec) : Nat :=
  if tr.ovlb ≠ 0 then Config.overlayVa ctx (tr.ovlb % 2 ^ 32) else (ctxOf s ctx).trapovl.toNat

def loadBanks (s : State) (core ctx : Nat) (tr : TRec) (tid : Nat) : State :=
  let s := fillBank s core false ctx (Config.overlayVa ctx (tr.ovla % 2 ^ 32)) (tr.ovla % 2 ^ 32) tid
  match needB s ctx tr with
  | some i => fillBank s core true ctx (bankBVa s ctx tr) i tid
  | none => s

/-- Squads of a task, each with its lane. -/
def addSquads (task core entry : Nat) : List (Nat × Nat) → State → State
  | [], s => s
  | (lane, k) :: r, s =>
    let id := s.nextId
    let s := { s with nextId := id + 1, squads := aput s.squads id (newSquad task k lane core entry id) }
    addSquads task core entry r (modTask s task fun t => { t with squads := t.squads ++ [id] })

/-- The slots and tiles of a task in the state of R276. -/
def scrubTask (s : State) (t : Task) : State :=
  let s := t.slots.foldl (fun s i => scrubSlot s t.core i) s
  (List.range t.tr.acc).foldl (fun s i => scrubTile s t.core (t.tile0 + i)) s

/-- An instance of a node is no longer waiting. -/
def takePart (n : Node) (p : Part) : Node :=
  match n.again with
  | q :: r => if q = p then { n with again := r } else { n with started := n.started + 1 }
  | [] => { n with started := n.started + 1 }

/-- Launch one instance at a place; that of a collector acquires the records it consumes (R388), and what its predecessors have
completed so far (R367). -/
def launch (s : State) (id : Nat) (p : Part) (tr : TRec) (core : Nat) (sp : Spot) : State :=
  match nodeOf s id with
  | none => s
  | some n =>
    let s := modNode s id fun n => { takePart n p with misfit := none, spill := false, drain := [] }
    if !lodValid s n.ctx tr then
      nodeFail (writeFrec s n.ctx n.va ⟨7, 4, core, 0xFF, 0xFF, 0, 0, s.time, false⟩ false) id 7 4 s.time
    else
      let tid := s.nextId
      let t : Task :=
        { node := id, ctx := n.ctx, part := p.part, size := if collector n then n.csize else tr.size, tr := tr, core := core,
          base := sp.base, slots := sp.slots, claimed := [], tile0 := sp.tile0,
          banks := if (needB s n.ctx tr).isSome then [false, true] else [false], squads := [], saved := false,
          stopping := .no, rbudget := p.rbudget, runFrom := s.time, idle := 0, entry := p.entry, bin := [], kept := none,
          born := s.hist.length }
      let lanes := lanesFor (useOf s [] core).lanes tr.nsquad
      let s := loadBanks { s with nextId := tid + 1, tasks := aput s.tasks tid t } core n.ctx tr tid
      let s := addSquads tid core (bits tr.ovla 44 32) lanes.zipIdx (scrubTask s t)
      let s := modNode s id fun n => { n with insts := n.insts ++ [tid] }
      let s := if collector n then
          logEv s (.acquire (whoNode s id) 127 .sys
            (.towards id :: .graph n.graph :: (List.range n.consume).map fun i => .record id (n.rd + i)))
        else s
      if n.st = 6 then s else setNodeState s id 3

/-! ### Nodes without squads (R368) -/

/-- The command entry as a copy request. -/
def entryReq (e : Nat) : CopyReq :=
  { major := fieldAt e 104 1, xf := fieldAt e 105 1, drec := BitVec.ofNat 256 (fieldAt e 0 32), dslot := none,
    srec := BitVec.ofNat 256 (fieldAt e 32 32), irec := BitVec.ofNat 256 (fieldAt e 64 32),
    cword := BitVec.ofNat 64 (fieldAt e 96 8), param := BitVec.ofNat 64 (fieldAt e 112 8) }
def entryFirst (e : Nat) : Nat := fieldAt e 108 4
def entrySoff (e : Nat) : Nat := fieldAt e 120 8

/-- What has been done of a command that starts at destination byte FIRST and source offset SOFF (R270). -/
def fromFirst (c : Copy) (e : Nat) : Copy :=
  if c.major = 0x92 then { c with out := entryFirst e, soff := entrySoff e }
  else { c with landed := List.range (entryFirst e / 4096) }

/-- The fault of a copy node's entry. -/
def copyNodeErr (s : State) (n : Node) (q : CopyReq) : Option Err :=
  let core (r : Rec) : Nat := n.die * 128 + recTarget r
  (copyRecRows s n.ctx q none).orElse fun _ =>
    firstErr [
      (!regionIn s n.ctx (core q.srec) false q.srec && q.major != 0x94, eACCESS 8),
      (q.major == 0x91 && !regionIn s n.ctx (core q.irec) false q.irec, eACCESS 8),
      (!regionIn s n.ctx (core q.drec) true q.drec, eACCESS 8),
      ((fieldAt (cmdEntry n.tr) 106 1).testBit 7, (0x0C, 0x01)),
      (cwStv q.cword.toNat, eACCESS 4)]

/-- The copy command of a node: engine 0 of its home die. -/
def nodeCopy (s : State) (id : Nat) (n : Node) (q : CopyReq) : Copy :=
  fromFirst
    { id := s.nextId, die := n.die, eng := 0, core := n.die * 128, ctx := n.ctx, task := 0, node := some id,
      squad := 0, sidx := 0xFF, pc := ⟨false, 0⟩, major := q.major, xf := q.xf, drec := q.drec, srec := q.srec,
      irec := q.irec, dslot := none, cword := q.cword, param := q.param, aw := ⟨.mem, 0⟩, awName := (0, 0),
      phase := .inbox, total := copyTotal q, landed := [], cancelled := false, hold := [], stv := none, walk := none,
      epoch := if q.major = 0x94 then some (ctxOf s n.ctx).epoch else none, soff := 0, out := 0, decoded := [],
      committed := 0, parked := none } (cmdEntry n.tr)

/-- The reprojection command of a node: the core is the one whose tile it names. -/
def nodeRepro (s : State) (id : Nat) (n : Node) : LfCmd :=
  let q := entryReq (cmdEntry n.tr)
  { id := s.nextId, repro := true, die := n.die, core := n.die * 128 + recTarget q.drec, ctx := n.ctx, task := 0,
    node := some id, squad := 0, sidx := 0xFF, pc := ⟨false, 0⟩, tileRec := q.drec, other := q.srec, panel := 0, word := q.cword,
    views := bandViews n.tr.band (twBand q.cword.toNat), aw := ⟨.mem, 0⟩, parked := none }

/-- Fault of a node without squads; it is told and ended by NODE_COMPLETE. -/
def nodeErr (s : State) (id : Nat) (n : Node) (e : Err) : State :=
  modNode s id fun m => { m with fault := some ⟨e.1, e.2, n.die * 128, 0xFF, 0xFF, 0, 0, s.time, false⟩ }

/-- Start a node without squads. -/
def startNode (s : State) (id : Nat) (n : Node) : State :=
  let s := setNodeState (modNode s id fun m => { m with started := m.started + 1 }) id 3
  if nodeKind n = 3 then
    let (tok, s) := pushEvent s n.ctx 2 0 0 n.va 0
    modCtx s n.ctx fun c => { c with awaiting := c.awaiting ++ [⟨tok, .node id, 0, 0, 0, s.time⟩] }
  else if nodeKind n = 2 then
    let q := entryReq (cmdEntry n.tr)
    match copyNodeErr s n q with
    | some e => nodeErr s id n e
    | none =>
      if copyEmpty q then s
      else { s with nextId := s.nextId + 1, copies := s.copies ++ [nodeCopy s id n q] }
  else
    let c := nodeRepro s id n
    match firstErr (frameRecRows c.core true c.tileRec c.other c.word.toNat (fieldAt (cmdEntry n.tr) 112 8) c.views) with
    | some e => nodeErr s id n e
    | none => { s with nextId := s.nextId + 1, lfCmds := s.lfCmds ++ [c] }

/-- The LOD ranges of a record have all that their leases cover, and their floors (R198). -/
def lodThere (s : State) (ctx : Nat) (tr : TRec) : Bool :=
  (ranges tr).all fun r =>
    !r.lod || ((rangeNeeds s ctx r).all (fun n => mappedAll s ctx n.1 n.2.1 n.2.2) && floorSet s ctx r)

/-- The record is read again for a launch (R361), which waits until every floor-level residency bit is set (R198): a descriptor or
a bit may have changed since the node was leased. -/
def rereadNode (s : State) (id : Nat) : State :=
  modNode s id fun n =>
    let tr := reread s n
    { n with tr := tr, leased := n.leased && (if tr == n.tr then lodThere s n.ctx tr else leaseThere s n.ctx tr) }

/-- Read again the records of what a placement of a node puts down. -/
def rereadFor (s : State) (id : Nat) : State :=
  match nodeOf s id with
  | none => s
  | some n => if !inPool n then s else if placedAlone s n then rereadNode s id else (gangOf s n).foldl (fun s e => rereadNode s e.1) s

/-- TASK_PLACE: the node that its die's dispatcher takes now is placed, with its gang (R368, R374). -/
def taskPlace (s : State) (id : Nat) : State :=
  if poolTakes s id then
    let s := rereadFor s id
    match nodeOf s id, placeTry s id with
    | some n, some ps =>
      if nodeKind n ≠ 0 then startNode s id n
      else ps.foldl (fun s e => launch s e.1.1 e.1.2.1 e.1.2.2.tr e.2.1 e.2.2) s
    | _, _ => s
  else s

/-! ### Leases and the timers of placement (R368, R369, R374) -/

/-- The missing pages of a node that have not been asked for. -/
def unasked (s : State) (id : Nat) (n : Node) : List (Nat × Bool) :=
  (missingPages s n.ctx n.tr).filter fun p => !(ctxOf s n.ctx).asks.contains (id, p.1, p.2)

/-- The dispatcher asks the host's fault service for every page that a waiting node lacks. -/
def leaseRequest (s : State) (id : Nat) : State :=
  match nodeOf s id with
  | none => s
  | some n =>
    if placing n ∧ nodeKind n = 0 ∧ !n.leased ∧ !leaseThere s n.ctx n.tr ∧ (!n.asked ∨ unasked s id n ≠ []) then
      modCtx (modNode s id fun n => { n with asked := true }) n.ctx fun c =>
        { c with asks := c.asks ++ (unasked s id n).map fun p => (id, p.1, p.2) }
    else s

/-- Every page is there: the node is leased. -/
def nodeLeased (s : State) (id : Nat) : State :=
  match nodeOf s id with
  | none => s
  | some n =>
    if placing n ∧ nodeKind n = 0 ∧ !n.leased ∧ leaseThere s n.ctx n.tr then
      modCtx (modNode s id fun n => { n with leased := true, asked := false }) n.ctx fun c =>
        { c with asks := c.asks.filter fun a => a.1 ≠ id }
    else s

/-- A leased node that has no place now. -/
def misfits (s : State) (id : Nat) (n : Node) : Bool :=
  inPool n && nodeKind n == 0 && (placedAlone s n || gangReady s n) && (placeTry s id).isNone

/-- Note since when nodes have found no place. -/
def markMisfits (s : State) : State :=
  s.nodes.foldl (fun s e =>
    modNode s e.1 fun n => { n with misfit := if misfits s e.1 n then some (n.misfit.getD s.time) else none }) s

/-- No room on the home die for 100 us: other dies are allowed. -/
def spillTimeout (s : State) (id : Nat) : State :=
  match nodeOf s id with
  | none => s
  | some n =>
    if !n.spill && misfits s id n && n.misfit.any fun t => decide (t + 100000 ≤ s.time) then
      modNode s id fun n => { n with spill := true }
    else s

/-- The cores that an empty package gives a node, or its gang. -/
def emptySpots (s : State) (id : Nat) (n : Node) : List Nat :=
  ((packAll1 s (fun _ => true) ((placeWants s id n).map fun w => w.2.2) fun _ => emptyUse).getD []).map (·.1)

/-- No room for 2 ms: a drain reservation starts on those cores (R374). -/
def drainTimeout (s : State) (id : Nat) : State :=
  match nodeOf s id with
  | none => s
  | some n =>
    if n.tr.gang ≠ 0 && n.drain.isEmpty && misfits s id n && n.misfit.any fun t => decide (t + 2000000 ≤ s.time) then
      let cores := emptySpots s id n
      let ids := if placedAlone s n then [id] else (gangOf s n).map (·.1)
      ids.foldl (fun s i => modNode s i fun m => { m with drain := cores }) s
    else s

/-! ### The end of a task (R298, R358, R366) -/

/-- A place in the footprint of a task that stands at a core. -/
def inFoot (t : Task) (core : Nat) (l : AwLoc) : Bool :=
  l.sp == .scr core && decide (t.base ≤ l.addr) && decide (l.addr < t.base + t.tr.scratch)

/-- An arrival under way at an object of a task's footprint. -/
def arrivesAt (s : State) (tid : Nat) (a : Arrival) : Bool :=
  ((taskOf s tid).map fun t => inFoot t (homeCore tid t) a.obj).getD false

/-- A key of barrier objects or queues in a saved task's footprint. -/
def savedKey (tid k : Nat) : Bool := k / 2 ^ 20 == 1024 + tid

/-- A task leaves its core: banks, marks, waits, commands not yet fired, arrivals under way at its footprint, and, when it was
saved, what the device held of its objects. -/
def dropTask (s : State) (tid : Nat) : State :=
  { s with
    arrivals := s.arrivals.filter fun a => !arrivesAt s tid a
    barsScr := s.barsScr.filter fun e => !savedKey tid e.1
    queues := s.queues.filter fun e => !savedKey tid e.1
    qWaits := s.qWaits.filter fun e => !savedKey tid e.1
    tasks := adel s.tasks tid
    banks := s.banks.map fun e => (e.1, { e.2 with holders := e.2.holders.filter (· ≠ tid) })
    zown := s.zown.filter fun e => e.2 ≠ tid
    slotWaits := s.slotWaits.filter fun w => w.task ≠ tid
    staged := s.staged.filter fun e => e.2.cmd.task ≠ tid }

/-- Commands of a task in any engine. -/
def taskCopies (s : State) (tid : Nat) : List Copy := s.copies.filter fun c => c.task == tid && c.node.isNone
def taskMats (s : State) (t : Task) (tid : Nat) : List MCmd := (queueOf s t.core ++ inboxOf s t.core).filter fun c => c.task == tid
def taskFrames (s : State) (tid : Nat) : List LfCmd := s.lfCmds.filter fun c => c.task == tid && c.node.isNone

/-- Every squad has ended and every command is complete; a staged command whose trigger has come about is one of them, one that
still waits for fills is not (R289). -/
def taskFinished (s : State) (tid : Nat) : Bool :=
  match taskOf s tid with
  | none => false
  | some t => t.squads.isEmpty && !t.saved && (t.stopping == .no || t.stopping matches .preempt _) &&
      (taskCopies s tid).isEmpty && (taskMats s t tid).isEmpty && (taskFrames s tid).isEmpty &&
      !s.staged.any fun e => e.2.cmd.task == tid && e.2.trig == 0

/-- An instance has completed: its counts are committed, a collector's records are consumed. -/
def endInstance (s : State) (id tid : Nat) : State :=
  let s := addBin s tid 5 (survivors s tid)
  let s := match taskOf s tid with | some t => commitBin s t | none => s
  modNode (dropTask s tid) id fun n => { n with
    insts := n.insts.filter (· ≠ tid), rd := n.rd + n.consume, consume := 0 }

/-- A node's instances are over. -/
def settleNode (s : State) (id : Nat) : State :=
  match nodeOf s id with
  | none => s
  | some n =>
    if pending n || !n.insts.isEmpty then s
    else if n.st = 6 ∨ n.st = 7 then graphEnd s n.graph
    else if collector n then
      if predsOf s n = 0 ∧ n.wr = n.rd then nodeDone s id else if n.st = 3 then setNodeState s id 1 else s
    else if n.st = 3 then nodeDone s id
    else s

/-- NODE_COMPLETE (R366). -/
def nodeComplete (s : State) (id : Nat) : State :=
  match nodeOf s id with
  | none => s
  | some n =>
    if nodeKind n = 0 then
      let done := n.insts.filter (taskFinished s)
      settleNode (done.foldl (fun s t => endInstance s id t) s) id
    else if n.st = 3 ∧ nodeKind n ≠ 3 then
      match n.fault with
      | some r => nodeFail (writeFrec s n.ctx n.va r false) id r.code r.sub r.time
      | none =>
        if (s.copies.any fun c => c.node == some id) || (s.lfCmds.any fun c => c.node == some id) then s else nodeDone s id
    else s

/-! ### Kill, scrub, relaunch (R298, R363) -/

/-- Answers that are awaited for a task's squads and commands are dropped. -/
def dropAwaiting (s : State) (tid : Nat) (t : Task) : State :=
  let cs := (taskCopies s tid).map (·.id)
  let fs := (taskFrames s tid).map (·.id)
  let mine : Awaiter → Bool
    | .squad q => t.squads.contains q
    | .copy c => cs.contains c
    | .matrix core => core == t.core && ((queueOf s core).head?.map (·.task)) == some tid
    | .frame c => fs.contains c
    | .node _ => false
  modCtx s t.ctx fun c => { c with awaiting := c.awaiting.filter fun a => !mine a.who }

/-- Only commands that still exist wait for a device. -/
def trimWaits (s : State) : State :=
  let there (id : Nat) : Bool := s.copies.any (fun c => c.id == id) || s.lfCmds.any (fun c => c.id == id) ||
    s.matQueue.any fun e => e.2.any fun c => c.serial == id
  { s with engWaits := s.engWaits.filter fun e => there e.1 }

/-- Steps 1 and 2 of a kill: squads stop, barriers break, copies end, commands that have not started are removed. -/
def stopTask (s : State) (tid : Nat) (t : Task) : State :=
  let s := dropAwaiting (breakTask s tid) tid t
  let s := t.squads.foldl (fun s id => match squadOf s id with | some q => unlist s id q | none => s) s
  let s := cancelAll s fun c => c.task == tid && c.node.isNone
  let gone (c : MCmd) : Bool := c.task == tid && !c.executed
  let s := setQueue s t.core ((queueOf s t.core).filter fun c => !gone c)
  let s := setInbox s t.core ((inboxOf s t.core).filter fun c => !gone c)
  (frameAccept · (t.core / 128)) <| trimWaits { s with
    copies := s.copies.filter fun c => !(c.task == tid && c.node.isNone && c.parked.isSome)
    lfCmds := s.lfCmds.filter fun c => !(c.task == tid && c.node.isNone)
    staged := s.staged.filter fun e => e.2.cmd.task ≠ tid
    slotWaits := s.slotWaits.filter fun w => w.task ≠ tid
    spans := s.spans.filter fun r => !t.squads.contains r.squad
    squads := s.squads.filter fun e => e.2.task ≠ tid
    lanes := s.lanes.map fun e => (e.1, (e.2.1.filter fun id => !t.squads.contains id, e.2.2))
    tasks := amod s.tasks tid fun t => { t with squads := [] } }

/-- TASK_KILL: the kill asked for begins. -/
def taskKill (s : State) (tid code sub : Nat) : State :=
  match taskOf s tid with
  | none => s
  | some t =>
    match t.stopping with
    | .kill r =>
      if r.code = code ∧ r.sub = sub then
        let s := modTask (stopTask s tid t) tid fun t => { t with stopping := .scrub r }
        match nodeOf s t.node with
        | some n => writeFrec s n.ctx n.va r true
        | none => s
      else s
    | _ => s

/-- Fills in flight and executed commands of a stopped task. -/
def quiet (s : State) (tid : Nat) (t : Task) : Bool := (taskCopies s tid).isEmpty && (taskMats s t tid).isEmpty

/-- An instance is to run again. -/
def runAgain (s : State) (tid : Nat) (t : Task) (p : Part) : State :=
  let s := modNode (dropTask s tid) t.node fun n => { n with insts := n.insts.filter (· ≠ tid), again := n.again ++ [p] }
  match nodeOf s t.node with
  | some n => if (n.st = 3 ∨ n.st = 4) ∧ n.insts.isEmpty then setNodeState s t.node 2 else s
  | none => s

/-- TASK_SCRUB: once the fills have landed, slots and tiles are scrubbed, and the task is relaunched or ends. -/
def taskScrub (s : State) (tid : Nat) : State :=
  match taskOf s tid with
  | none => s
  | some t =>
    match t.stopping with
    | .scrub r =>
      if !quiet s tid t then s
      else
        let s := if t.saved then s else scrubTask s t
        if r.relaunch && trIdem t.tr && decide (0 < t.rbudget) then runAgain s tid t ⟨t.part, t.rbudget - 1, s.time⟩
        else
          nodeFail (modNode (dropTask s tid) t.node fun n => { n with insts := n.insts.filter (· ≠ tid) }) t.node r.code r.sub r.time
    | _ => s

/-- Time that a task has run since its last launch or resume (R380). -/
def runTime (s : State) (t : Task) : Nat := s.time - t.runFrom - t.idle
def anyParked (s : State) (t : Task) : Bool :=
  t.squads.any fun id => ((squadOf s id).map fun q => q.wait matches some (.parked ..)).getD false

/-- The run limit has passed. -/
def wdogDue (s : State) (t : Task) : Bool :=
  t.tr.runlim != 0 && !t.saved && t.stopping == .no && !anyParked s t && decide (t.tr.runlim * 1000 < runTime s t)
def wdogExpiry (s : State) (tid : Nat) : State :=
  match taskOf s tid with
  | none => s
  | some t => if wdogDue s t then requestKill s tid ⟨0x0F, 1, t.core, 0xFF, 0xFF, 0, 0, s.time, true⟩ else s

end Sys2Proof.Machine
end

