-- ==== Sys2Proof/Machine/SaveArea.lean ====
section
/-! DEFINITION. The save area of a pre-empted task: its layout, written and read back (R127, R128, R270, R376, R378). -/

namespace Sys2Proof.Machine

/-! ### Path entries and join records as words (R127, R128) -/

def pcWord (p : Pc) : Nat := p.bank.toNat * 2 ^ 13 + p.index % 2 ^ 13
def pcOfWord (n : Nat) : Pc := ⟨n.testBit 13, n % 2 ^ 13⟩

def pathWord (order : Nat) (p : Path) : Nat :=
  2 ^ 127 + (p.jrec.getD 0) % 16 * 2 ^ 122 + p.jrec.isSome.toNat * 2 ^ 121 + p.ret.length % 32 * 2 ^ 116 + order % 8 * 2 ^ 113 +
    p.ppri % 256 * 2 ^ 105 + pcWord p.pc * 2 ^ 91 + p.members.toNat * 2 ^ 32 + p.exm.toNat

def joinWord (r : JoinRec) : Nat :=
  2 ^ 255 + r.deferred.isSome.toNat * 2 ^ 254 + (r.outer.getD 0) % 16 * 2 ^ 250 + r.outer.isSome.toNat * 2 ^ 249 +
    r.rdepth % 32 * 2 ^ 244 + r.spri % 256 * 2 ^ 236 + pcWord r.join * 2 ^ 222 +
    (match r.deferred with
     | some d => d.ppri % 256 * 2 ^ 214 + pcWord d.pc * 2 ^ 200 + d.exm.toNat * 2 ^ 160 + d.members.toNat * 2 ^ 128
     | none => 0) +
    r.arrived.toNat * 2 ^ 32 + r.expected.toNat

/-- A return stack: entry 0 is the oldest. -/
def stackBytes (r : List Pc) : List Byte :=
  let r := r.reverse
  (List.range 16).flatMap fun k => leBytes 2 (((r[k]?).map pcWord).getD 0)
def stackOf (n depth : Nat) : List Pc := ((List.range depth).map fun k => pcOfWord (fieldAt n (2 * k) 2)).reverse

/-! ### Writing -/

/-- Offsets of the sections behind the footprint (R378). -/
def slotOff (tr : TRec) : Nat := footOff tr + tr.scratch
def tileOff (tr : TRec) : Nat := slotOff tr + 10560 * tr.slots
def stagedOff (tr : TRec) : Nat := tileOff tr + 16448 * tr.acc
def residualOff (tr : TRec) : Nat := stagedOff tr + 512

/-- Bytes of a part that R378 names without laying it out. -/
def openBytes (s : State) (n : Nat) : List Byte := (List.range n).map fun i => Config.openByte (s.ctr * 1024 + i)

/-- A path entry that holds no path, at its reset values: MEMBERS and EXM are full, BANK and INDEX those of the task's entry (R127).
DESIGN CHOICE: one that has been freed shows them again. -/
def freeWord (entry : Nat) : Nat := entry % 2 ^ 13 * 2 ^ 91 + (2 ^ 64 - 1)

/-- The first 8,192 bytes of a squad section. DESIGN CHOICE: a join record that is free again shows zero, its reset value (R128), and
so do the D fields of one that holds no deferred path, the stack of a path entry without a path and the entries above a stack's
depth. -/
def squadBytes (s : State) (q : Squad) : List Byte :=
  let e0 := ((taskOf s q.task).map fun t => bits t.tr.ovla 44 32).getD 0
  let entry (p : Nat) : Option (Nat × Path) := (q.paths.zipIdx.find? fun e => e.1.entry == p).map fun e => (e.2, e.1)
  ((List.range 64).flatMap fun r => leBytes 8 (rdS q r).toNat) ++
  ((List.range 32).flatMap fun t => leBytes 4 (((List.range 32).filter fun r => rdP q r t).foldl (fun n r => n + 2 ^ r) 0)) ++
  ((List.range 16).flatMap fun r => leBytes 32 (rdB q r).toNat) ++
  ((List.range 256).flatMap fun i => leBytes 4 (rdVi q (i / 32) (i % 32)).toNat) ++
  ((List.range 256).flatMap fun i => leBytes 8 (rdIm q (i / 32) (i % 32)).toNat) ++
  ((List.range 8).flatMap fun p => leBytes 16 (match entry p with | some e => pathWord e.1 e.2 | none => freeWord e0)) ++
  ((List.range 16).flatMap fun r => leBytes 32 (match aget q.joins r with | some j => joinWord j | none => 0)) ++
  ((List.range 8).flatMap fun p => stackBytes (match entry p with | some e => e.2.ret | none => [])) ++
  ((List.range 16).flatMap fun r => stackBytes ((((aget q.joins r).bind (·.deferred)).map (·.ret)).getD [])) ++
  leBytes 128 q.latch.toNat ++ openBytes s 64 ++
  ((List.range 8).flatMap fun n => leBytes 8 (tget 0 q.perf n).toNat) ++ leBytes 2304 0

def vregBytes (q : Squad) (regs : Nat) : List Byte :=
  (List.range (regs * 256)).flatMap fun i => leBytes 4 (rdV q (i / 32) (i % 32)).toNat

def headerBytes (s : State) (tr : TRec) (nres : Nat) : List Byte :=
  leBytes 4 0x45564153 ++ leBytes 1 1 ++ leBytes 3 0 ++ leBytes 2 tr.nsquad ++ leBytes 1 nres ++ leBytes 5 0 ++
    leBytes 8 s.time ++ leBytes 40 0

def slotBytes (s : State) (core phys : Nat) (claimed : Bool) : List Byte :=
  ((List.range 8192).map fun i => rdSlot s core phys i) ++ ((List.range 2336).map fun i => rdSide s core phys i) ++
    leBytes 32 (claimed.toNat + (extOf s core phys).1 % 128 * 2 ^ 8 + (extOf s core phys).2 % 512 * 2 ^ 16)

def tileBytes (s : State) (core tile : Nat) : List Byte :=
  ((tileWords s core tile).flatMap (leBytes 4)) ++ leBytes 64 (rdAccFlg s core tile).toNat

/-- The lowest chunk that has not landed. -/
def firstChunk (c : Copy) : Nat := ((List.range (chunksOf c + 1)).find? fun j => !c.landed.contains j).getD 0

/-- A residual copy (R270). -/
def residualBytes (c : Copy) : List Byte :=
  leBytes 32 c.drec.toNat ++ leBytes 32 c.srec.toNat ++ leBytes 32 c.irec.toNat ++ leBytes 8 c.cword.toNat ++
    leBytes 1 c.major ++ leBytes 1 c.xf ++ leBytes 1 (match c.dslot with | some n => 128 + n % 64 | none => 0) ++ leBytes 1 0 ++
    leBytes 4 (if c.major = 0x92 then c.out else 4096 * firstChunk c) ++ leBytes 8 c.param.toNat ++
    leBytes 8 (if c.major = 0x92 then c.soff else 0)

/-- Descriptors of the 64-byte blocks of a device write, with the blocks. -/
def devWriteTags (s : State) (ctx va : Nat) : List Nat → State
  | [] => s
  | t :: r =>
    let s := match translate s ctx va false with
      | .ok (sp, a) => wrTag s sp (a / 64) (BitVec.ofNat 16 t)
      | .error _ => s
    devWriteTags s ctx (va + 64) r

/-- Write the area of a task; the footprint's descriptors go with its blocks. -/
def writeArea (s : State) (tid : Nat) (t : Task) (res : List Copy) : State :=
  let tr := t.tr
  let put (off : Nat) (bs : List Byte) (s : State) : State := devWrite s t.ctx (tr.save + off) bs
  let s0 := s
  let s := put 0 (headerBytes s tr res.length) s
  let s := (List.range tr.nsquad).foldl (fun s k =>
    match t.squads.findSome? fun id => (squadOf s0 id).bind fun q => if q.idx = k then some q else none with
    | some q => put (64 + k * squadArea tr) (squadBytes s0 q ++ vregBytes q tr.regs) s
    | none => put (64 + k * squadArea tr) (leBytes (squadArea tr) 0) s) s
  let s := put (footOff tr) (rdBytes s0 (.scr t.core) t.base tr.scratch) s
  let s := devWriteTags s t.ctx (tr.save + footOff tr)
    ((List.range (tr.scratch / 64)).map fun i => (rdTag s0 (.scr t.core) (t.base / 64 + i)).toNat)
  let s := t.slots.zipIdx.foldl (fun s e => put (slotOff tr + 10560 * e.2) (slotBytes s0 t.core e.1 (t.claimed.contains e.2)) s) s
  let s := (List.range tr.acc).foldl (fun s k => put (tileOff tr + 16448 * k) (tileBytes s0 t.core (t.tile0 + k)) s) s
  let s := put (stagedOff tr) (openBytes { s0 with ctr := s0.ctr + tid } 512) s
  put (residualOff tr) ((res.flatMap residualBytes) ++ leBytes (8704 - 128 * res.length) 0) s

/-! ### Reading back -/

/-- A path entry, with its place in the order; none when it is not valid. -/
def pathOf (n e stack : Nat) : Option (Nat × Path) :=
  if n.testBit 127 then
    some (bits n 115 113, ⟨e, pcOfWord (bits n 104 91), BitVec.ofNat 32 (bits n 63 32), BitVec.ofNat 32 (bits n 31 0),
      bits n 112 105, if n.testBit 121 then some (bits n 125 122) else none, stackOf stack (bits n 120 116)⟩)
  else none

/-- A join record; the depth of a deferred path's stack and the last parker's stack are those the device kept. -/
def joinOf (n stack : Nat) (old : Option JoinRec) : Option JoinRec :=
  if n.testBit 255 then
    some
      { expected := BitVec.ofNat 32 (bits n 31 0), arrived := BitVec.ofNat 32 (bits n 63 32), join := pcOfWord (bits n 235 222),
        spri := bits n 243 236, rdepth := bits n 248 244, outer := if n.testBit 249 then some (bits n 253 250) else none,
        deferred := if n.testBit 254 then
            some ⟨pcOfWord (bits n 213 200), BitVec.ofNat 32 (bits n 191 160), BitVec.ofNat 32 (bits n 159 128), bits n 221 214,
              stackOf stack (((old.bind (·.deferred)).map (·.ret.length)).getD 0)⟩
          else none,
        lastRet := (old.map (·.lastRet)).getD [] }
  else none

/-- Insert by order. -/
def byOrder (ps : List (Nat × Path)) : List Path :=
  (List.range 8).flatMap fun o => (ps.filter fun p => p.1 == o).map (·.2)

/-- The squad as the area and what the device kept give it. -/
def squadFrom (n : Nat) (regs : Nat) (q : Squad) : Squad :=
  let at' (off len : Nat) : Nat := fieldAt n off len
  { q with
    s := (List.range 64).foldl (fun m r => tset 0 m r (BitVec.ofNat 64 (at' (8 * r) 8))) []
    p := (List.range 31).foldl (fun m r =>
      tset 0 m (r + 1) (maskOf fun t => (at' (512 + 4 * t) 4).testBit (r + 1))) []
    b := (List.range 16).foldl (fun m r => tset 0 m r (BitVec.ofNat 256 (at' (640 + 32 * r) 32))) []
    vi := (List.range 256).foldl (fun m i => tset 0 m i (BitVec.ofNat 32 (at' (1152 + 4 * i) 4 % 2 ^ 23))) []
    im := (List.range 256).foldl (fun m i => tset 0 m i (BitVec.ofNat 64 (at' (2176 + 8 * i) 8))) []
    paths := byOrder ((List.range 8).filterMap fun e => pathOf (at' (4224 + 16 * e) 16) e (at' (4864 + 32 * e) 32))
    joins := (List.range 16).filterMap fun r =>
      (joinOf (at' (4352 + 32 * r) 32) (at' (5120 + 32 * r) 32) (aget q.joins r)).map fun j => (r, j)
    latch := BitVec.ofNat 1024 (at' 5632 128)
    perf := (List.range 8).foldl (fun m i => tset 0 m i (BitVec.ofNat 64 (at' (5824 + 8 * i) 8))) []
    v := (List.range (256 * regs)).foldl (fun m i => tset 0 m i (BitVec.ofNat 32 (at' (8192 + 4 * i) 4))) [] }

/-- Restore a slot from its section. -/
def slotFrom (s : State) (core phys n : Nat) : State :=
  let s := wrSlotBytes s core phys 0 (leBytes 8192 (fieldAt n 0 8192))
  let s := wrSideBytes s core phys 0 (leBytes 2336 (fieldAt n 8192 2336))
  setExt s core phys (bits (fieldAt n 10528 32) 14 8, bits (fieldAt n 10528 32) 24 16)

def tileFrom (s : State) (core tile n : Nat) : State :=
  let s := putTile s core tile ((List.range 4096).map fun i => fieldAt n (4 * i) 4)
  { s with accFlg := tset 0 s.accFlg (core * 32 + tile) (BitVec.ofNat 5 (fieldAt n 16384 1)) }

/-- A residual copy with its laid-out fields read back. -/
def residualFrom (n : Nat) (c : Copy) : Copy :=
  let q := entryReq n
  let ds := fieldAt n 106 1
  let c := { c with drec := q.drec, srec := q.srec, irec := q.irec, cword := q.cword, major := q.major, xf := q.xf,
                    dslot := if ds.testBit 7 then some (ds % 64) else none, param := q.param }
  if c.major = 0x92 then { c with out := entryFirst n, soff := entrySoff n }
  else { c with landed := List.range (entryFirst n / 4096) ++ c.landed.filter fun j => decide (entryFirst n / 4096 < j) }

end Sys2Proof.Machine
end

