-- ==== Sys2Proof/Machine/Preempt.lean ====
section
/-! DEFINITION. Pre-emption by save and by replay, resume, and migration (R375-R379). -/

namespace Sys2Proof.Machine

/-! ### Requests (R375) -/

def taskPrio (s : State) (t : Task) : Nat := effPrio s t.ctx t.tr t.entry t.runFrom
/-- Running tasks of a core that may make room: not of priority 7, not already stopping. -/
def preemptible (s : State) (core : Nat) : List (Nat × Task) :=
  (residents s core).filter fun e => e.2.stopping == .no && !deadlineRec s e.2.tr e.2.ctx

/-- What is to be put down together and has found a place on its home die. -/
abbrev Put := List (Nat × Want1 × Spot)
/-- The use of a core without the tasks in `gone`, with what has been put down. -/
def useWith (s : State) (gone : List Nat) (put : Put) (core : Nat) : CoreUse :=
  put.foldl (fun u e => if e.1 = core then addUse s u e.2.1.ctx e.2.1.tr e.2.2 else u) (useOf s gone core)

/-- The first that fits no core of its home die, with those put down before it. -/
def firstUnplaced (s : State) (avail : Nat → Bool) : List Want1 → Put → Option (Want1 × Put)
  | [], _ => none
  | w :: r, put =>
    match fitDie s (useWith s [] put) avail w.ctx w.tr w.die with
    | some (c, p) => firstUnplaced s avail r (put ++ [(c, w, p)])
    | none => some (w, put)

/-- Sets of tasks of a core whose leaving makes room, as (count, sum of priorities, core, tasks). -/
def roomSets (s : State) (w : Want1) (put : Put) (core : Nat) : List (Nat × Nat × Nat × List Nat) :=
  ((preemptible s core).sublists.filter fun l =>
    (fitIn (useWith s (l.map (·.1)) put core) w.ctx w.tr none (some (w.tr.ovla % 2 ^ 32)) (needB s w.ctx w.tr)).isSome).map fun l =>
    (l.length, (l.map fun e => taskPrio s e.2).foldl (· + ·) 0, core, l.map (·.1))

/-- The tasks that make room for a priority-7 node on its home die: the fewest, of lowest effective priority, on the lowest
core that the node may take. -/
def victims (s : State) (avail : Nat → Bool) (w : Want1) (put : Put) : List Nat :=
  let all := (((List.range Config.coresPerDie).map fun i => w.die * 128 + i).filter avail).flatMap (roomSets s w put)
  match all.foldl (fun (b : Option (Nat × Nat × Nat × List Nat)) e => match b with
      | none => some e
      | some c => if e.1 < c.1 ∨ (e.1 = c.1 ∧ (e.2.1 < c.2.1 ∨ (e.2.1 = c.2.1 ∧ e.2.2.1 < c.2.2.1))) then some e else b) none with
  | some e => e.2.2.2
  | none => []

/-- Some leased priority-7 node that fits no core of its home die, alone or with its gang, has chosen the task. -/
def priorityVictim (s : State) (tid : Nat) : Bool :=
  s.nodes.any fun e =>
    inPool e.2 && nodeKind e.2 == 0 && (placedAlone s e.2 || gangReady s e.2) &&
      match firstUnplaced s (availFor s e.1 e.2) ((placeWants s e.1 e.2).map fun w => w.2.2) [] with
      | some (w, put) => deadlineRec s w.tr w.ctx && (victims s (availFor s e.1 e.2) w put).contains tid
      | none => false

/-- The task stands on a core that a drain reservation of higher priority holds (R374). -/
def drainVictim (s : State) (t : Task) : Bool :=
  s.nodes.any fun e => e.2.drain.contains t.core &&
    decide (taskPrio s t < effPrio s e.2.ctx e.2.tr (nextPart e.2).entry s.time)

/-- Migration to a core may be asked for (R379, R390). -/
def migrates (s : State) (tid : Nat) (t : Task) (core : Nat) : Bool :=
  trMigr t.tr && t.tr.gang == 0 && core != t.core && core / 128 == t.core / 128 && undrained s t core &&
    (fitIn (useOf s [tid] core) t.ctx t.tr (some t.base) (some (t.tr.ovla % 2 ^ 32)) (needB s t.ctx t.tr)).isSome

def askPreempt (s : State) (tid : Nat) (m : Option Nat) : State := modTask s tid fun t => { t with stopping := .preempt m }

def preemptRequest (s : State) (tid : Nat) (why : PreemptWhy) : State :=
  match taskOf s tid with
  | none => s
  | some t =>
    if t.saved || t.stopping != .no then s
    else
      match why with
      | .priority => if !deadlineRec s t.tr t.ctx && priorityVictim s tid then askPreempt s tid none else s
      | .drain => if !deadlineRec s t.tr t.ctx && drainVictim s t then askPreempt s tid none else s
      | .migration core => if !deadlineRec s t.tr t.ctx && migrates s tid t core then askPreempt s tid (some core) else s
      | .host => askPreempt s tid none

/-! ### Save (R376) -/

/-- Pre-emption by save: without REPLAY, and for a migration with a save area. -/
def saves (t : Task) (m : Option Nat) : Bool := !trReplay t.tr || (m.isSome && t.tr.save != 0)

/-- A copy command stands between two chunks or blocks. -/
def copyIdle (c : Copy) : Bool :=
  c.phase != .running || c.parked.isSome ||
    (c.major != 0x95 && (if c.major = 0x92 then c.decoded.isEmpty && c.committed == 0
      else (List.range (startedUpTo c)).all fun j => c.landed.contains j))

/-- Everything that a save waits for has come about: squads settled, matrix commands complete, copy commands accepted and between
chunks, so that 68 residuals hold them (R270), the area mapped. -/
def saveReady (s : State) (tid : Nat) (t : Task) : Bool :=
  (t.squads.all fun id => ((squadOf s id).map fun q => q.pend.isEmpty && (q.fault.isNone || q.wait matches some (.parked ..))).getD true) &&
    !(s.spans.any fun r => t.squads.contains r.squad) && (taskMats s t tid).isEmpty && (taskFrames s tid).isEmpty &&
    (taskCopies s tid).all (fun c => copyIdle c && c.phase != .inbox) && mappedAll s t.ctx t.tr.save (saveSize t.tr) true

/-- A squad's wait as it is saved: not performed; of WAITC.REL the cycles that remain (R153, R245). -/
def savedWait (s : State) (w : Option Wait) : Option Wait :=
  match w with
  | some (.budget _) | some .capped | some (.accept _) => none
  | some (.waitcRel e) => some (.waitcRel (e - s.clock))
  | w => w

/-- A key of the ordering record whose object has moved. -/
def keyMove (mv : AwLoc → AwLoc) : HKey → HKey
  | .phase o n => .phase (mv o) n
  | .handle o n => .handle (mv o) n
  | .closed o => .closed (mv o)
  | .count w a => .count (mv w) a
  | .gen w => .gen (mv w)
  | k => k
def evMove (mv : AwLoc → AwLoc) : HEv → HEv
  | .release w m sc k => .release w m sc (keyMove mv k)
  | .acquire w m sc ks => .acquire w m sc (ks.map (keyMove mv))
  | .flip o p lv as => .flip (mv o) p lv as
  | e => e

/-- What follows a footprint from one core to another (R379), or to the place of a saved task and back: barrier objects, queues and
waits in it, arrivals under way at them, arrival words of commands, and what the ordering record says of those objects. -/
def moveRefs (s : State) (t : Task) (old new : Nat) : State :=
  let mv (l : AwLoc) : AwLoc := if inFoot t old l then ⟨.scr new, l.addr⟩ else l
  let dev (b : BarDev) : BarDev := { b with parent := b.parent.map mv, kids := b.kids.map mv }
  let key (k : Nat) : Nat := barKey (mv (locOfKey true k))
  { s with
    arrivals := s.arrivals.map fun a => { a with obj := mv a.obj, child := a.child.map mv }
    bars := s.bars.map fun e => (e.1, dev e.2)
    barsScr := s.barsScr.foldl (fun m e => aput m (key e.1) (dev e.2)) []
    queues := s.queues.foldl (fun m e =>
      aput m (key e.1) (if key e.1 = e.1 then e.2 else { e.2 with owner := new })) []
    qWaits := s.qWaits.foldl (fun m e => aput m (qKey (mv (locOfKey true e.1))) e.2) []
    copies := s.copies.map fun c => { c with aw := mv c.aw }
    lfCmds := s.lfCmds.map fun c => { c with aw := mv c.aw }
    tasks := s.tasks.map fun (e : Nat × Task) => (e.1, { e.2 with kept := e.2.kept.map fun k =>
      { k with residual := k.residual.map fun c => { c with aw := mv c.aw }, waits := k.waits.map fun w => (w.1, w.2.1, mv w.2.2) } })
    hist := s.hist.map (evMove mv) }

/-- A task is saved and leaves its core. -/
def saveTask (s : State) (tid : Nat) (t : Task) (m : Option Nat) : State :=
  let res := (taskCopies s tid).map fun c => { c with phase := .inbox, hold := [] }
  let s := writeArea s tid t res
  let lo := scrKey t.core t.base
  let foot (k : Nat) : Bool := decide (lo ≤ k) && decide (k < lo + t.tr.scratch)
  let kept : Kept :=
    { residual := res
      staged := (s.staged.filter fun e => e.2.cmd.task == tid).map fun e => (e.1 % 8, e.2)
      banks := t.banks.map fun b => (b, bankOf s t.core b,
        (List.range 65536).map fun i => tget 0xFF#8 s.imem (imemKey t.core b i))
      slotWaits := s.slotWaits.filter fun w => w.task == tid
      zown := (s.zown.filter fun e => foot (4 * e.1)).map fun e => (e.1 - lo / 4, e.2)
      waits := s.qWaits.flatMap fun e =>
        ((e.2.1.filter t.squads.contains).map fun i => (i, true, locOfKey true e.1)) ++
          (e.2.2.filter t.squads.contains).map fun i => (i, false, locOfKey true e.1) }
  let s := t.squads.foldl (fun s id =>
    match squadOf s id with
    | some q => modSquad (unlist s id q) id fun q => { q with wait := savedWait s q.wait, settling := false }
    | none => s) s
  let s := trimWaits { s with
    copies := s.copies.filter fun c => !(c.task == tid && c.node.isNone)
    staged := s.staged.filter fun e => e.2.cmd.task ≠ tid
    slotWaits := s.slotWaits.filter fun w => w.task ≠ tid
    zown := s.zown.filter fun e => !foot (4 * e.1)
    banks := s.banks.map fun e => (e.1, { e.2 with
      holders := e.2.holders.filter (· ≠ tid), loading := e.2.loading.filter fun i => !(res.map (·.id)).contains i })
    lanes := s.lanes.map fun e => (e.1, (e.2.1.filter fun id => !t.squads.contains id, e.2.2))
    tasks := amod s.tasks tid fun t => { t with
      saved := true, kept := some kept, stopping := match m with | some c => .preempt (some c) | none => .no } }
  let s := moveRefs s t t.core (1024 + tid)
  match nodeOf s t.node with
  | some n => if n.st = 3 then setNodeState s t.node 4 else s
  | none => s

def preemptSave (s : State) (tid : Nat) : State :=
  match taskOf s tid with
  | none => s
  | some t =>
    match t.stopping with
    | .preempt m => if !t.saved && saves t m && saveReady s tid t then saveTask s tid t m else s
    | _ => s

/-! ### Replay (R377) -/

/-- First the task is stopped as by a kill; once its fills have landed it goes back to the pool. -/
def preemptReplay (s : State) (tid : Nat) : State :=
  match taskOf s tid with
  | none => s
  | some t =>
    match t.stopping with
    | .preempt m =>
      if !t.saved && !saves t m then modTask (stopTask s tid t) tid fun t => { t with stopping := .replaying } else s
    | .replaying => if quiet s tid t then runAgain (scrubTask s t) tid t ⟨t.part, t.rbudget, t.entry⟩ else s
    | _ => s

/-! ### Resume and migration (R376, R379) -/

/-- A record that names the old core names the new one (R379). -/
def retarget (old core : Nat) (r : Rec) : Rec :=
  if core ≠ old ∧ recSpace r = 1 ∧ recTarget r = old % 128 then recSet r 245 239 (core % 128) else r

/-- A saved squad on its lane, the latest there but for those that come back with it. -/
def squadBack (s : State) (t : Task) (core lane since : Nat) (q : Squad) : Squad :=
  let n := (devReadN s t.ctx (t.tr.save + 64 + q.idx * squadArea t.tr) (squadArea t.tr)).getD 0
  let q := squadFrom n t.tr.regs q
  { q with
    core := core, lane := lane, since := since
    wait := match q.wait with | some (.waitcRel r) => some (.waitcRel (s.clock + r)) | w => w
    b := q.b.map fun e => (e.1, retarget t.core core e.2) }

/-- The banks of a saved task, as it left them; a load that is reissued is still in flight (R42, R270). -/
def bankBack (s : State) (tid core : Nat) (k : Bool × Bank × List Byte) : State :=
  let s := if (bankOf s core k.1).holders.isEmpty then
      setBank (putImem s core k.1 k.2.2) core k.1 { k.2.1 with holders := [] }
    else s
  let b := bankOf s core k.1
  setBank s core k.1 { b with holders := b.holders ++ [tid] }

/-- The footprint from its section, with the descriptors of its blocks: loads see no bytes from before it. -/
def footBack (s : State) (t : Task) (core : Nat) : State :=
  let va := t.tr.save + footOff t.tr
  let s' := wrBytes s (.scr core) t.base ((List.range t.tr.scratch).map fun i =>
    match translate s t.ctx (va + i) false with | .ok p => rdByte s p.1 p.2 | .error _ => 0)
  let s' := (List.range (t.tr.scratch / 64)).foldl (fun s' i =>
    match translate s t.ctx (va + 64 * i) false with
    | .ok p => wrTag s' (.scr core) (t.base / 64 + i) (rdTag s p.1 (p.2 / 64))
    | .error _ => s') s'
  logEv s' (.wipe (.bytes (.scr core) t.base t.tr.scratch))

/-- A residual copy on the task's core: its records follow the task, as its arrival word does (R263, R379). -/
def residualBack (t : Task) (core n : Nat) (c : Copy) : Copy :=
  let c := residualFrom n c
  let mv := retarget t.core core
  { c with
    core := core, eng := core % 2, drec := mv c.drec, srec := mv c.srec, irec := mv c.irec
    awName := if c.awName.1 = t.core + 1 then (core + 1, c.awName.2) else c.awName }

/-- Restore a saved task on a core, at its footprint offset, with slots and tiles; each squad goes to the lane of its index
(R13), and a request that was blocked at a queue is issued again there (R245). -/
def restoreTask (s : State) (tid : Nat) (t : Task) (core : Nat) (sp : Spot) (k : Kept) : State :=
  let tr := t.tr
  let sec (off len : Nat) : Nat := (devReadN s t.ctx (tr.save + off) len).getD 0
  let lo := scrKey core t.base
  let cnt := (useOf s [] core).lanes
  let lanes := lanesAt (startLane cnt) (t.squads.map fun id => ((squadOf s id).map (·.idx)).getD 0) cnt
  let src := s
  let s := k.banks.foldl (fun s b => bankBack s tid core b) s
  let s := footBack s t core
  let s := sp.slots.zipIdx.foldl (fun s e => slotFrom s core e.1 (sec (slotOff tr + 10560 * e.2) 10560)) s
  let s := (List.range tr.acc).foldl (fun s i => tileFrom s core (sp.tile0 + i) (sec (tileOff tr + 16448 * i) 16448)) s
  let claimed := (List.range tr.slots).filter fun j => (sec (slotOff tr + 10560 * j + 10528) 1) % 2 == 1
  let s := (t.squads.zip lanes).zipIdx.foldl (fun s e =>
    modSquad s e.1.1 (squadBack src t core e.1.2 (src.nextId + e.2))) s
  let res := k.residual.zipIdx.map fun e => residualBack t core (sec (residualOff tr + 128 * e.2) 128) e.1
  let s := k.waits.foldl (fun s w =>
    let ls := qLists s w.2.2
    putLists s w.2.2 (if w.2.1 then (ls.1 ++ [w.1], ls.2) else (ls.1, ls.2 ++ [w.1]))) s
  let s := { s with
    nextId := s.nextId + t.squads.length
    copies := s.copies ++ res
    staged := k.staged.foldl (fun m e => aput m (core * 8 + e.1) e.2) s.staged
    slotWaits := s.slotWaits ++ k.slotWaits.map fun w => { w with core := core, slot := nthN sp.slots w.name }
    zown := k.zown.foldl (fun m e => aput m (lo / 4 + e.1) e.2) s.zown
    tasks := amod s.tasks tid fun t => { t with
      core := core, slots := sp.slots, tile0 := sp.tile0, claimed := claimed, saved := false, kept := none, stopping := .no,
      runFrom := s.time, idle := 0 } }
  moveRefs s t (1024 + tid) core

/-- Faults that were answered while their squads were saved are delivered now. -/
def lateFaults (s : State) (t : Task) : State :=
  t.squads.foldl (fun s id =>
    match squadOf s id with
    | some q =>
      match q.fault, q.wait with
      | some f, none => match faultPath q f with | some p => takeFault s id q p f | none => s
      | _, _ => s
    | none => s) s

/-- The node of a resumed task runs again. -/
def running (s : State) (t : Task) : State :=
  match nodeOf s t.node with
  | some n => if n.st = 4 then setNodeState s t.node 3 else s
  | none => s

def taskResume (s : State) (tid : Nat) : State :=
  match taskOf s tid with
  | none => s
  | some t =>
    match t.kept with
    | none => s
    | some k =>
      if resumeFits s t && (poolBest s (t.core / 128)).any fun e => e.task && e.id == tid then
        running (lateFaults (restoreTask s tid t t.core ⟨t.base, t.slots, t.tile0⟩ k) t) t
      else s

/-- A task leaves forwarding entries behind when it migrates: one for the old core, and those that led to it lead on (R379). -/
def forwardOn (s : State) (t : Task) (core : Nat) : State :=
  let fs := s.forwards.map fun f =>
    if f.dest = t.core ∧ f.lo = t.base ∧ f.hi = t.base + t.tr.scratch then { f with dest := core } else f
  { s with forwards := fs.filter (fun f => f.core != f.dest) ++ [⟨t.core, t.base, t.base + t.tr.scratch, core, s.time + 64000⟩] }

def migration (s : State) (tid : Nat) : State :=
  match taskOf s tid with
  | none => s
  | some t =>
    match t.stopping, t.kept with
    | .preempt (some core), some k =>
      if !t.saved then s
      else
        match (if stagedFree s core k && undrained s t core then fitIn (useOf s [] core) t.ctx t.tr (some t.base) (keptNeed t false) (keptNeed t true) else none) with
        | none => modTask s tid fun t => { t with stopping := .no }
        | some sp =>
          let s := forwardOn (restoreTask s tid t core sp k) t core
          running (lateFaults s t) t
    | _, _ => s

/-- A forwarding entry ends (R379). -/
def forwardExpiry (s : State) (k : Nat) : State :=
  match s.forwards[k]? with
  | some f => if f.expiry ≤ s.time then { s with forwards := s.forwards.eraseIdx k } else s
  | none => s

end Sys2Proof.Machine
end

