-- ==== Sys2Proof/Machine/Engines.lean ====
section
/-! DEFINITION. The events of squads, copy engines, matrix engines, rasterisers, frame units and the dispatcher
(R14, R125, R153, R229-R399). An event whose condition does not hold leaves the state as it is. -/

namespace Sys2Proof.Machine

/-! ### Squads -/

/-- A deferred fault of a squad that has settled is delivered (R39, R381). -/
def settleFault (s : State) (id : Nat) : State :=
  match squadOf s id with
  | some q =>
    match q.fault, q.wait with
    | some _, some (.parked ..) => s
    | some f, _ => if q.pend.isEmpty then (match faultPath q f with | some p => takeFault s id q p f | none => s) else s
    | none, _ => s
  | none => s

/-- An outstanding result is written (R27, R125). -/
def landResult (s : State) (id k : Nat) : State :=
  match (squadOf s id).bind fun q => q.pend.find? fun p => p.id == k && p.ready with
  | none => s
  | some p =>
    settleFault (modSquad s id fun q => { applyWs p.ws q with pend := q.pend.filter fun o => o.id != k }) id

def execVariableLatencyResult (squad k : Nat) (s : State) : Out := .next (landResult s squad k)

/-- The squad's task is on its core; while it is saved, a wait in cycles holds the cycles still to run (R153). -/
def onCore (s : State) (id : Nat) : Bool := ((squadOf s id).bind fun q => taskOf s q.task).any fun t => !t.saved

/-- A timed wait ends (R153). -/
def waitEnds (s : State) (id : Nat) : State :=
  match (squadOf s id).bind (·.wait) with
  | some (.waitc d) => if d ≤ s.time then modSquad s id fun q => { q with wait := none } else s
  | some (.waitcRel c) => if c ≤ s.clock ∧ onCore s id = true then modSquad s id fun q => { q with wait := none } else s
  | _ => s

def execWaitcExpiry (squad : Nat) (s : State) : Out := .next (waitEnds s squad)

/-- A peer has not answered for 20 us (R410). -/
def peerTimeout (s : State) (id : Nat) : State :=
  match (squadOf s id).bind (·.wait) with
  | some (.peer t) => if t + 20000 ≤ s.time then modSquad s id fun q => { q with wait := some .peerLost } else s
  | _ => s

def execPeerAccessTimeout (squad : Nat) (s : State) : Out := .next (peerTimeout s squad)

/-! ### Barriers (R229) -/

/-- The object's place can take the arrival: memory, a peer, or a footprint that is on its core. -/
def objThere (s : State) (l : AwLoc) : Bool :=
  match l.sp with
  | .scr c => (residents s c).any fun e => decide (e.2.base ≤ l.addr) && decide (l.addr + 32 ≤ e.2.base + e.2.tr.scratch)
  | sp => !spaceDown s sp

/-- Arrival `k` is processed, unless it is held: the object is unarmed, or waits for its parent's flip. -/
def arrivalAt (s : State) (k : Nat) : State :=
  match s.arrivals[k]? with
  | none => s
  | some a =>
    let st := barState (barWord s a.obj)
    if st = 0 ∨ st = 2 ∨ !objThere s a.obj then s else arrive { s with arrivals := s.arrivals.eraseIdx k } a

def execBarrierArrival (k : Nat) (s : State) : Out := .next (arrivalAt s k)

/-! ### Copy engines (R247-R269) -/

def execCopyCommandAccept (die eng : Nat) (s : State) : Out := .next (copyAccept s die eng)
def execCopyCommandStart (die eng : Nat) (s : State) : Out := .next (copyStart s die eng)
def execCopyChunkLanded (cmd chunk : Nat) (s : State) : Out := .next (chunkLanded s cmd chunk)
def execCopyRuntimeFault (cmd : Nat) (s : State) : Out := .next (copyFault s cmd)
def execStreamChunkDecoded (cmd k : Nat) (s : State) : Out := .next (chunkDecoded s cmd k)
def execStreamChunkCommit (cmd : Nat) (s : State) : Out := .next (chunkCommit s cmd)
def execFillHoldRelease (cmd : Nat) (s : State) : Out := .next (holdRelease s cmd)
def execStagedCommandFire (core n : Nat) (s : State) : Out := .next (stagedFire s core n)
def execOverlayLoadEnd (cmd : Nat) (s : State) : Out := .next (overlayEnd s cmd)

/-! ### Matrix engines (R279-R313) -/

def execMatrixQueueAccept (core : Nat) (s : State) : Out := .next (matAccept s core)
def execMmaOperandFetch (core : Nat) (s : State) : Out := .next (matFetch s core)
def execMmaExecute (core : Nat) (s : State) : Out := .next (matMma s core)
def execAccZeroExecute (core : Nat) (s : State) : Out := .next (matZero s core)
def execDrainExecute (core : Nat) (s : State) : Out := .next (matDrain s core)
def execAddOnStore (core home : Nat) (s : State) : Out := .next (matAddHome s core home)
def execAccLdExecute (core : Nat) (s : State) : Out := .next (matLd s core)
def execAccStExecute (core : Nat) (s : State) : Out := .next (matSt s core)
def execGmvEvaluate (core : Nat) (s : State) : Out := .next (gmvEval s core)
def execMatrixCommandComplete (core : Nat) (s : State) : Out := .next (matComplete s core)
def execSlotFreeEffect (core slot : Nat) (s : State) : Out := .next (slotFreeEffect s core slot)
def execSlotExtentEffect (core slot : Nat) (s : State) : Out := .next (slotExtEffect s core slot)

/-! ### LOD feedback and epochs (R202-R205, R210) -/

/-- An entry as its 16 bytes (R203). -/
def fbEntry (ctx : Nat) (f : Feedback) : Nat :=
  f.time % 2 ^ 48 * 2 ^ 80 + f.page % 2 ^ 24 * 2 ^ 56 + f.rid % 2 ^ 16 * 2 ^ 40 + ctx % 64 * 2 ^ 34 + f.want % 16 * 2 ^ 30 +
    f.served % 16 * 2 ^ 26 + f.src % 4 * 2 ^ 24

/-- The bytes of an append can be written. -/
def fbWritable (s : State) (ctx va : Nat) : Bool :=
  match translate s ctx va true, translate s ctx (va + 15) true with
  | .ok _, .ok _ => true
  | _, _ => false

/-- A field that the device writes on path L, `rel` where the write releases. -/
def fbPut (s : State) (ctx va n x : Nat) (rel : Option Scope) : State :=
  match translate s ctx va true with
  | .ok (sp, a) => logEv (devWriteN s ctx va n x) (.access { accPut s (whoRing s ctx false) .L sp a n with rel := rel })
  | .error _ => devWriteN s ctx va n x

/-- READ, as the device reads it on path L. -/
def fbLook (s : State) (ctx va : Nat) : State :=
  match translate s ctx (va + 20) false with
  | .ok (sp, a) => logEv s (.access (accRd (whoRing s ctx false) .L (.bytes sp a 4)))
  | .error _ => s

/-- The oldest entry is appended or dropped (R205). -/
def feedbackAppend (s : State) (ctx : Nat) : State :=
  match (ctxOf s ctx).feedback with
  | [] => s
  | f :: r =>
    let s := modCtx s ctx fun c => { c with feedback := r }
    match fbRing s ctx with
    | none => s
    | some (va, h) =>
      let n := 2 ^ fieldAt h 8 1
      let w := fieldAt h 16 4
      let at' := fieldAt h 0 8 + 16 * (w % n)
      let s := fbLook s ctx va
      if (w + 2 ^ 32 - fieldAt h 20 4) % 2 ^ 32 < n ∧ fbWritable s ctx at' then
        fbPut (fbPut s ctx at' 16 (fbEntry ctx f) none) ctx (va + 16) 4 ((w + 1) % 2 ^ 32) (some .sys)
      else
        fbPut (fbPut s ctx (va + 24) 4 (min (fieldAt h 24 4 + 1) (2 ^ 32 - 1)) none) ctx (va + 28) 1 (fieldAt h 28 1 ||| 1) none

def execFeedbackAppend (ctx : Nat) (s : State) : Out := .next (feedbackAppend s ctx)

/-- Epochs of a context's outstanding walks, on any die. -/
def walksOf (s : State) (ctx : Nat) : List Nat :=
  (s.squads.filter fun e => ctxId s e.2 == ctx).flatMap (fun e => e.2.pend.filterMap (·.walk)) ++
    ((s.copies ++ s.tasks.flatMap fun e => (e.2.kept.map (·.residual)).getD []).filter fun c => c.ctx == ctx).filterMap (·.epoch)

/-- DONE: no walk tagged below it is outstanding (R210). -/
def epochDone (s : State) (ctx : Nat) : State :=
  let d := (walksOf s ctx).foldl min (ctxOf s ctx).epoch
  if (ctxOf s ctx).done < d then modCtx s ctx fun c => { c with done := d } else s

def execLodEpochDoneAdvance (ctx : Nat) (s : State) : Out := .next (epochDone s ctx)

/-! ### Rasterisers, frame units, present engine (R14, R348-R355) -/

def execSpanRequestAccept (quad : Nat) (s : State) : Out := .next (spanAccept s quad)
def execReproExecute (die : Nat) (s : State) : Out := .next (reproRun s die)
def execResolveExecute (die : Nat) (s : State) : Out := .next (resolveRun s die)
def execPresentCommitEffect (ch : Nat) (s : State) : Out := .next (commitEffect s ch)
def execPresentDeadline (ch : Nat) (s : State) : Out := .next (deadlineEffect s ch)
def execScanOutStart (ch : Nat) (s : State) : Out := .next (scanOut s ch)

/-! ### The dispatcher (R298, R366-R380) -/

def execLeaseRequest (node : Nat) (s : State) : Out := .next (leaseRequest s node)
def execNodeLeased (node : Nat) (s : State) : Out := .next (nodeLeased s node)
def execTaskPlace (node : Nat) (s : State) : Out := .next (taskPlace s node)
def execPlacementSpillTimeout (node : Nat) (s : State) : Out := .next (spillTimeout s node)
def execGangDrainTimeout (node : Nat) (s : State) : Out := .next (drainTimeout s node)
def execNodeComplete (node : Nat) (s : State) : Out := .next (nodeComplete s node)

/-- A collector's instance enters the pool. -/
def readyIf (s : State) (node : Nat) (due : Node → Bool) : State :=
  match nodeOf s node with
  | some n => if due n then collectReady s node else s
  | none => s

def execCollectorDeadlineExpiry (node : Nat) (s : State) : Out := .next (readyIf s node (collectLate s))
def execCollectorInstanceReady (node : Nat) (s : State) : Out := .next (readyIf s node (collectDue s))
def execTaskKill (task code sub : Nat) (s : State) : Out := .next (taskKill s task code sub)
def execTaskScrub (task : Nat) (s : State) : Out := .next (taskScrub s task)
def execPreemptRequest (task : Nat) (why : PreemptWhy) (s : State) : Out := .next (preemptRequest s task why)
def execPreemptSave (task : Nat) (s : State) : Out := .next (preemptSave s task)
def execPreemptReplay (task : Nat) (s : State) : Out := .next (preemptReplay s task)
def execTaskResume (task : Nat) (s : State) : Out := .next (taskResume s task)
def execMigration (task : Nat) (s : State) : Out := .next (migration s task)
def execMigrationForwardExpiry (k : Nat) (s : State) : Out := .next (forwardExpiry s k)
def execWdogExpiry (task : Nat) (s : State) : Out := .next (wdogExpiry s task)

end Sys2Proof.Machine
end

