-- ==== Sys2Proof/Machine/Fetch.lean ====
section
/-! DEFINITION. Fetching an instruction word, and the issue of a word that is not a defined form (R38, R39, R41, R42). -/

namespace Sys2Proof.Machine

/-- The word at an index of a bank (R41). -/
def wordAt (s : State) (core : Nat) (pc : Pc) : Nat :=
  bytesWord ((List.range 12).map fun i => tget 0xFF#8 s.imem (imemKey core pc.bank (64 + 12 * pc.index + i)))

/-- The bank holds no valid overlay, or the index is not below its count (R42). -/
def overrun (s : State) (core : Nat) (pc : Pc) : Bool :=
  let b := bankOf s core pc.bank
  !b.valid || decide (b.ninst ≤ pc.index)

/-- What the running path of a squad issues next. -/
def fetch (s : State) (q : Squad) (p : Path) : Decoded :=
  if overrun s q.core p.pc then .ill 7 else decode (limOf s q) (wordAt s q.core p.pc)

/-- The threads of R448 under the guard of the word at the program counter. -/
def wordThreads (s : State) (q : Squad) (p : Path) : Mask :=
  let r := splitWord (wordAt s q.core p.pc)
  p.exm &&& maskOf fun t => rdP q r.gp t != (r.gn == 1)

/-- ILLEGAL_WORD: ILL with its subcode, nothing else changes (R38, R39). -/
def execIllegalWord (sub : Nat) (s : State) : Out :=
  match s.cur.bind (squadOf s) with
  | none => .fault .noSquad
  | some q =>
    match runningPath q with
    | none => .fault .noSquad
    | some p => .next (raiseFault s (s.cur.getD 0) { mkFault 1 sub (wordThreads s q p) p with late := some (p.entry, p.pc) })

end Sys2Proof.Machine
end

