-- ==== Sys2Proof/Machine/Float.lean ====
section
/-! DEFINITION. Floating-point and conversion instructions (R104-R122). -/

namespace Sys2Proof.Machine

/-- A code and its flags into the destination; a 16-bit code has zero above it (R104). -/
def putCode (d : Opnd) (t : Nat) (r : Nat × Nat) : List RegW := wrInt 32 false d t r.1 ++ flagW r.2

/-- A two-source scalar operation. -/
def flt2 (h : Hdr) (cls : Nat) (ft : FType) (d a b : Opnd) (f : Nat → Nat → Nat × Nat) (s : State) : Out :=
  alu h cls 1 d (fun q t => putCode d t (f (rdF q ft a t) (rdF q ft b t))) s

/-- A one-source scalar operation. -/
def flt1 (h : Hdr) (ft : FType) (d a : Opnd) (f : Nat → Nat × Nat) (s : State) : Out :=
  alu h 1 1 d (fun q t => putCode d t (f (rdF q ft a t))) s

/-- A variable-latency FP32 operation with its class and cycles (R106). -/
def sfu (h : Hdr) (cls n : Nat) (d a : Opnd) (f : Nat → Nat × Nat) (s : State) : Out :=
  aluLater h cls n d (fun q t => putCode d t (f (rdF q .f32 a t))) s

/-! ### Scalar arithmetic (R107, R109-R111) -/

def execFadd (h : Hdr) (ft : FType) (rm : Rm) (d a b : Opnd) (s : State) : Out := flt2 h 1 ft d a b (addF (fmtOf ft) rm) s
def execFsub (h : Hdr) (ft : FType) (rm : Rm) (d a b : Opnd) (s : State) : Out := flt2 h 1 ft d a b (subF (fmtOf ft) rm) s
def execFmul (h : Hdr) (ft : FType) (rm : Rm) (d a b : Opnd) (s : State) : Out := flt2 h 1 ft d a b (mulF (fmtOf ft) rm) s

def execFfma (h : Hdr) (ft : FType) (rm : Rm) (d a b : Opnd) (s : State) : Out :=
  alu h 2 1 d (fun q t => putCode d t (fmaF (fmtOf ft) rm (rdF q ft a t) (rdF q ft b t) (rdF q ft d t))) s

def execFmin (h : Hdr) (ft : FType) (d a b : Opnd) (s : State) : Out :=
  flt2 h 1 ft d a b (fun x y => (minmaxF (fmtOf ft) false x y, 0)) s
def execFmax (h : Hdr) (ft : FType) (d a b : Opnd) (s : State) : Out :=
  flt2 h 1 ft d a b (fun x y => (minmaxF (fmtOf ft) true x y, 0)) s

/-- The condition on two codes of a format (R110). -/
def fcmpVal (ft : FType) (c : Cond) (x y : Nat) : Bool :=
  condF c (cmpV (decodeIeee (fmtOf ft) x) (decodeIeee (fmtOf ft) y))

def execFcmp (h : Hdr) (ft : FType) (c : Cond) (pd : Nat) (a b : Opnd) (s : State) : Out :=
  alu h 1 1 (.p pd) (fun q t => [.p pd t (fcmpVal ft c (rdF q ft a t) (rdF q ft b t))]) s

def execFrnd (h : Hdr) (ft : FType) (rm : Rm) (d a : Opnd) (s : State) : Out :=
  flt1 h ft d a (fun x => (rndF (fmtOf ft) rm x, 0)) s

/-! ### Division, roots and transcendentals (R70-R72, R112) -/

def execFdiv (h : Hdr) (d a b : Opnd) (s : State) : Out :=
  aluLater h 3 8 d (fun q t => putCode d t (divF .rne (rdF q .f32 a t) (rdF q .f32 b t))) s
def execFsqrt (h : Hdr) (d a : Opnd) (s : State) : Out := sfu h 3 4 d a sqrtF s
def execFrcp (h : Hdr) (d a : Opnd) (s : State) : Out := sfu h 2 2 d a rcpF s
def execFrsq (h : Hdr) (d a : Opnd) (s : State) : Out := sfu h 3 4 d a rsqF s
def execFex2 (h : Hdr) (d a : Opnd) (s : State) : Out := sfu h 3 4 d a ex2F s
def execFlg2 (h : Hdr) (d a : Opnd) (s : State) : Out := sfu h 3 4 d a lg2F s
def execFsin (h : Hdr) (d a : Opnd) (s : State) : Out := sfu h 3 4 d a sinF s
def execFcos (h : Hdr) (d a : Opnd) (s : State) : Out := sfu h 3 4 d a cosF s

/-! ### Packed forms (R108) -/

/-- Two halves and their flags. -/
def putPair (d : Opnd) (t : Nat) (lo hi : Nat × Nat) : List RegW := putCode d t (lo.1 + 65536 * hi.1, lo.2 ||| hi.2)

def packed (h : Hdr) (cls : Nat) (d a b : Opnd) (f : Nat → Nat → Nat → Nat × Nat) (s : State) : Out :=
  alu h cls 1 d (fun q t =>
    let x := rdPacked q a t
    let y := rdPacked q b t
    let z := rdPacked q d t
    putPair d t (f x.1 y.1 z.1) (f x.2 y.2 z.2)) s

def execHfma2 (h : Hdr) (ft : FType) (rm : Rm) (d a b : Opnd) (s : State) : Out := packed h 2 d a b (fmaF (fmtOf ft) rm) s
def execHadd2 (h : Hdr) (ft : FType) (rm : Rm) (d a b : Opnd) (s : State) : Out :=
  packed h 1 d a b (fun x y _ => addF (fmtOf ft) rm x y) s
def execHmul2 (h : Hdr) (ft : FType) (rm : Rm) (d a b : Opnd) (s : State) : Out :=
  packed h 1 d a b (fun x y _ => mulF (fmtOf ft) rm x y) s

/-! ### Integer conversions (R115, R116) -/

/-- The value clamped to the type's range, with flags (R115). -/
def f2iVal (ity : IType) (ft : FType) (rm : Rm) (x : Nat) : Nat × Nat :=
  let w := tyW ity
  let lo : Int := if tySigned ity then -(2 ^ (w - 1) : Nat) else 0
  let hi : Int := if tySigned ity then (2 ^ (w - 1) : Nat) - 1 else (2 ^ w : Nat) - 1
  encodeI w lo hi rm (decodeIeee (fmtOf ft) x)

def execF2i (h : Hdr) (ity : IType) (ft : FType) (rm : Rm) (d a : Opnd) (s : State) : Out :=
  alu h 1 1 d (fun q t => let r := f2iVal ity ft rm (rdF q ft a t); wrTy ity d t r.1 ++ flagW r.2) s

def i2fVal (ft : FType) (ity : IType) (rm : Rm) (x : Nat) : Nat × Nat :=
  let v : Int := if tySigned ity then sextN (tyW ity) x else x
  encodeF (fmtOf ft) rm (.fin (decide (v < 0)) v.natAbs 0)

def execI2f (h : Hdr) (ft : FType) (ity : IType) (rm : Rm) (d a : Opnd) (s : State) : Out :=
  alu h 1 1 d (fun q t => putCode d t (i2fVal ft ity rm (rdInt q (tyW ity) a t))) s

/-! ### Element conversion (R117, R118) -/

/-- The 32-bit image of a source of the format (R24, R117). -/
def fcvtImage (q : Squad) (src : Nat) (a : Opnd) (t : Nat) : Nat :=
  if src = 0x08 then rdF q .f32 a t
  else if src = 0x10 ∨ src = 0x18 then rdF q .f16 a t
  else rdInt q 32 a t

/-- The value of an image: S from bits 31-24 for DX, XV from bits 31-16 for F4. -/
def fcvtSource (src img : Nat) : FV :=
  let c := img % 2 ^ elemBits src
  if isDx src then elemVal (fun _ => 0) src (img / 2 ^ 24) c else elemFace (img / 65536) src c

/-- The block of the squad's values for a DX destination; inactive threads give zero (R118). -/
def fcvtBlock (src dst' : Nat) (rm : Rm) (a : Opnd) (act : Mask) (q : Squad) : Nat × List Nat × Nat :=
  dxBlock (elemBits dst') (dxGap dst') rm
    ((List.range 32).map fun t => if bitM act t then fcvtSource src (fcvtImage q src a t) else .fin false 0 0)

def fcvtWrites (dst' src : Nat) (rm : Rm) (d a : Opnd) (act : Mask) (q : Squad) : List RegW :=
  if isDx dst' then
    let b := fcvtBlock src dst' rm a act q
    flagW b.2.2 ++ (execThreads d act).flatMap fun t =>
      wrInt 32 false d t (nthN b.2.1 t + 2 ^ 16 * dst' + 2 ^ 24 * b.1)
  else (execThreads d act).flatMap fun t => putCode d t (encodeElem dst' rm (fcvtSource src (fcvtImage q src a t)))

/-- Sixteen extra cycles of a block conversion (R106). -/
def blockCycles (s : State) (x : Iss) : State :=
  modSquad s x.id fun q => { q with perf := tset 0 q.perf 1 (tget 0 q.perf 1 + 16) }

def execFcvt (h : Hdr) (dst' src : Nat) (rm : Rm) (d a : Opnd) (s : State) : Out :=
  issue h 1 (occOf d 1) s fun x s =>
    if x.act = 0 then .ok s
    else
      let s := if isDx dst' then blockCycles s x else s
      .ok (putFixed s x (fcvtWrites dst' src rm d a x.act x.q))

/-! ### Block packing (R119, R120) -/

def dxBits : DxWidth → Nat
  | .dx16 => 16 | .dx8 => 8 | .dx4 => 4
/-- The format code of a width with gap `g` (R61). -/
def dxCode (w : DxWidth) (g : Nat) : Nat := (match w with | .dx16 => 0x47 | .dx8 => 0x4F | .dx4 => 0x57) + g

/-- Elements laid from bit 0 up, each of `w` bits. -/
def packBits (w : Nat) (es : List Nat) : Nat := es.foldr (fun e r => e + 2 ^ w * r) 0

def dxpkBlock (w : DxWidth) (g : Nat) (rm : Rm) (va : Nat) (act : Mask) (q : Squad) : Nat × List Nat × Nat :=
  dxBlock (dxBits w) g rm ((List.range (512 / dxBits w)).map fun i =>
    if bitM act (i % 32) then decodeIeee fp32 (rdV q (va + i / 32) (i % 32)).toNat else .fin false 0 0)

def execDxpk (h : Hdr) (w : DxWidth) (g : Nat) (rm : Rm) (vd va sb : Nat) (s : State) : Out :=
  issue h 2 (.per 1) s fun x s =>
    if x.act = 0 then .ok s
    else
      let b := dxpkBlock w g rm va x.act x.q
      let img := packBits (dxBits w) b.2.1
      .ok (putFixed (blockCycles s x) x
        ((threadsOf x.act).map (fun t => .v vd t (BitVec.ofNat 32 (if t < 16 then img / 2 ^ (32 * t) else 0))) ++
          [.s sb (BitVec.ofNat 64 (dxCode w g + 256 * b.1))] ++ flagW b.2.2))

/-- A known format code of R61, RAW apart. -/
def codeKnown (c : Nat) : Bool := elemBits c != 0 || c == 0xF8

/-- The fault of a descriptor on DXUNPK (R120). -/
def dxunpkErr (w : DxWidth) (code : Nat) : Option Err :=
  if code = 0xF8 then some (0x08, 5)
  else if code = 0 then some (0x09, 2)
  else if !codeKnown code then some (0x09, 1)
  else if !isDx code || elemBits code != dxBits w then some (0x09, 3)
  else none

def execDxunpk (h : Hdr) (w : DxWidth) (vd va : Nat) (b : Opnd) (s : State) : Out :=
  issue h 2 (.per 1) s fun x s =>
    if x.act = 0 then .ok s
    else
      let desc := rdScal x.q b % 65536
      match dxunpkErr w (desc % 256) with
      | some e => failE s x e
      | none =>
        let img := (List.range 16).foldl (fun r t => r + (rdV x.q va t).toNat * 2 ^ (32 * t)) 0
        let bw := dxBits w
        .ok (putFixed (blockCycles s x) x ((threadsOf x.act).flatMap fun t =>
          (List.range (16 / bw * 2)).filterMap fun j => if 32 * j + t < 512 / bw then
            some (.v (vd + j) t (BitVec.ofNat 32
              (encodeF fp32 .rne (elemVal (fun _ => 0) (desc % 256) (desc / 256) (img / 2 ^ (bw * (32 * j + t)) % 2 ^ bw))).1))
            else none))

/-! ### Classification, scaling and reduction (R113, R114, R121) -/

def execFclass (h : Hdr) (ft : FType) (d a : Opnd) (s : State) : Out :=
  flt1 h ft d a (fun x => (classF (fmtOf ft) x, 0)) s

def execFscale (h : Hdr) (ft : FType) (rm : Rm) (d a b : Opnd) (s : State) : Out :=
  alu h 1 1 d (fun q t => putCode d t (scaleF (fmtOf ft) rm (rdF q ft a t) (sextN 32 (rdInt q 32 b t)))) s

def fredOp (ft : FType) (op : FredOp) (x y : Nat) : Nat × Nat :=
  match op with
  | .add => addF (fmtOf ft) .rne x y
  | .min => (minmaxF (fmtOf ft) false x y, 0)
  | .max => (minmaxF (fmtOf ft) true x y, 0)

/-- A NaN becomes the canonical one of its format (R50). -/
def canonNan (f : FloatFmt) (x : Nat) : Nat := if isNan (decodeIeee f x) then f.nanCode else x

/-- DEDUCED: a value that the tree passes through alone (R68) is a result too, so a NaN leaves as the canonical one (R50). -/
def execFred (h : Hdr) (ft : FType) (op : FredOp) (sd : Nat) (a : Opnd) (s : State) : Out :=
  issue h 2 (.per 1) s fun x s =>
    match treeReduce (fredOp ft op) ((List.range 32).map fun t => if bitM x.act t then some (rdF x.q ft a t) else none) with
    | some r => .ok (putLater s x (.s sd (BitVec.ofNat 64 (canonNan (fmtOf ft) r.1)) :: flagW r.2))
    | none => .ok s

end Sys2Proof.Machine
end

