-- ==== Sys2Proof/Machine/Integer.lean ====
section
/-! DEFINITION. Integer, address, logic and predicate instructions (R77-R103). -/

namespace Sys2Proof.Machine

/-- Lane cycles of one pass: one, or two under a 64-bit type for the multiplies, and 8 or 16 for IDIV (R77). -/
def mulPass (ty : IType) : Nat := if tyW ty = 64 then 2 else 1
def divPass (ty : IType) : Nat := if tyW ty = 64 then 16 else 8

/-- A two-source integer operation. -/
def alu2 (h : Hdr) (cls n : Nat) (ty : IType) (d a b : Opnd) (f : Nat → Nat → Nat) (s : State) : Out :=
  alu h cls n d (fun q t => wrTy ty d t (f (rdInt q (tyW ty) a t) (rdInt q (tyW ty) b t))) s

/-- A one-source integer operation. -/
def alu1 (h : Hdr) (ty : IType) (d a : Opnd) (f : Nat → Nat) (s : State) : Out :=
  alu h 1 1 d (fun q t => wrTy ty d t (f (rdInt q (tyW ty) a t))) s

/-- A two-source operation that also reads D (R82, R87). -/
def alu3 (h : Hdr) (cls n : Nat) (ty : IType) (d a b : Opnd) (f : Nat → Nat → Nat → Nat) (s : State) : Out :=
  alu h cls n d (fun q t => wrTy ty d t (f (rdInt q (tyW ty) d t) (rdInt q (tyW ty) a t) (rdInt q (tyW ty) b t))) s

/-! ### Moves (R89-R92) -/

def execNop (h : Hdr) (s : State) : Out := issue h 0 (.per 1) s fun _ s => .ok s

/-- What MOV writes of a value. An s-register goes to every per-thread file under either width (R90): a `vi` register keeps the low
bits (R32). The manual states neither what a predicate makes of it nor the upper half of an `im` register under a 32-bit type: free
values, the same for every thread, as the source is broadcast. -/
def movWrites (free : Nat → Nat) (ty : IType) (d : Opnd) (t x : Nat) : List RegW :=
  match d with
  | .p n => [.p n t ((free 0).testBit 0)]
  | .im n => [.im n t (BitVec.ofNat 64 (if tyW ty = 32 then x + free 1 * 2 ^ 32 else x))]
  | d => wrTy ty d t x

def execMov (h : Hdr) (ty : IType) (d a : Opnd) (s : State) : Out :=
  issue h 1 (occOf d 1) s fun x s =>
    .ok (putFixed s x ((execThreads d x.act).flatMap fun t =>
      movWrites (fun k => Config.openValue (7 + k) s.ctr) ty d t (rdInt x.q (tyW ty) a t)))

/-- The value of the wide immediate (R91). -/
def movwVal (ty : IType) (w : Nat) : Nat :=
  match ty with
  | .u32 | .s32 => w % 2 ^ 32
  | .u64 => w % 2 ^ 44
  | .s64 => cutN 64 (sextN 44 w)

def execMovw (h : Hdr) (ty : IType) (d : Opnd) (w : Nat) (s : State) : Out :=
  alu h 1 1 d (fun _ t => wrTy ty d t (movwVal ty w)) s

/-- DEDUCED: a uniform `sel` reads pS of the lowest active thread, as R81 says of the carry predicate of a uniform `iadd`. -/
def execSel (h : Hdr) (ty : IType) (ps : Nat) (neg : Bool) (d a b : Opnd) (s : State) : Out :=
  alu h 1 1 d (fun q t => wrTy ty d t (rdInt q (tyW ty) (if rdP q ps t != neg then a else b) t)) s

/-! ### Addition and subtraction (R81) -/

/-- The threads whose carry predicate an add writes: the executing thread, or every active one when uniform. -/
def carryWrites (d : Opnd) (act : Mask) (pc t : Nat) (c : Bool) : List RegW :=
  if isUniform d then (threadsOf act).map fun u => .p pc u c else [.p pc t c]

def addWrites (ty : IType) (sub sat ci co : Bool) (cp : Nat) (d a b : Opnd) (act : Mask) (q : Squad) (t : Nat) : List RegW :=
  let w := tyW ty
  let x := rdInt q w a t
  let y := rdInt q w b t
  let c := if ci && rdP q (24 + cp) t then 1 else 0
  (if co then carryWrites d act (24 + cp) t (carryOut w sub x y c) else []) ++ wrTy ty d t (addSub ty sub sat x y c)

def addForm (h : Hdr) (ty : IType) (sub sat ci co : Bool) (cp : Nat) (d a b : Opnd) (s : State) : Out :=
  issue h 1 (occOf d 1) s fun x s =>
    .ok (putFixed s x ((execThreads d x.act).flatMap (addWrites ty sub sat ci co cp d a b x.act x.q)))

def execIadd (h : Hdr) (ty : IType) (sat ci co : Bool) (cp : Nat) (d a b : Opnd) (s : State) : Out :=
  addForm h ty false sat ci co cp d a b s

def execIsub (h : Hdr) (ty : IType) (sat ci co : Bool) (cp : Nat) (d a b : Opnd) (s : State) : Out :=
  addForm h ty true sat ci co cp d a b s

/-! ### Multiplication and division (R82, R83) -/

/-- The integer that a code of the type stands for. -/
def intOf (ty : IType) (x : Nat) : Int := if tySigned ty then sextN (tyW ty) x else x

def execImul (h : Hdr) (ty : IType) (d a b : Opnd) (s : State) : Out :=
  alu2 h 2 (mulPass ty) ty d a b (fun x y => x * y % 2 ^ tyW ty) s

/-- Bits 2W-1..W of the exact product. -/
def mulHigh (ty : IType) (x y : Nat) : Nat := cutN (tyW ty) ((intOf ty x * intOf ty y) / 2 ^ tyW ty)

def execImulh (h : Hdr) (ty : IType) (d a b : Opnd) (s : State) : Out := alu2 h 2 (mulPass ty) ty d a b (mulHigh ty) s

def execImad (h : Hdr) (ty : IType) (d a b : Opnd) (s : State) : Out :=
  alu3 h 2 (mulPass ty) ty d a b (fun z x y => (z + x * y) % 2 ^ tyW ty) s

/-- Quotient toward zero with the fixed cases of R83. -/
def quotient (ty : IType) (x y : Nat) : Nat :=
  if y = 0 then (if intOf ty x < 0 then 1 else 2 ^ tyW ty - 1) else cutN (tyW ty) ((intOf ty x).tdiv (intOf ty y))
/-- Remainder with the sign of the dividend. -/
def remainder (ty : IType) (x y : Nat) : Nat := if y = 0 then x else cutN (tyW ty) ((intOf ty x).tmod (intOf ty y))

def execIdiv (h : Hdr) (ty : IType) (d a b : Opnd) (s : State) : Out := alu2 h 3 (divPass ty) ty d a b (quotient ty) s
def execIdivRem (h : Hdr) (ty : IType) (d a b : Opnd) (s : State) : Out := alu2 h 3 (divPass ty) ty d a b (remainder ty) s

/-! ### Minimum, maximum, absolute value, negation (R84) -/

def minInt (ty : IType) (x y : Nat) : Nat := if cmpInt ty y x = .lt then y else x
def maxInt (ty : IType) (x y : Nat) : Nat := if cmpInt ty x y = .lt then y else x

def execImin (h : Hdr) (ty : IType) (d a b : Opnd) (s : State) : Out := alu2 h 1 1 ty d a b (minInt ty) s
def execImax (h : Hdr) (ty : IType) (d a b : Opnd) (s : State) : Out := alu2 h 1 1 ty d a b (maxInt ty) s
def execIabs (h : Hdr) (ty : IType) (d a : Opnd) (s : State) : Out := alu1 h ty d a (modInt (tyW ty) false true) s
def execIneg (h : Hdr) (ty : IType) (d a : Opnd) (s : State) : Out := alu1 h ty d a (modInt (tyW ty) true false) s

/-! ### Logic, shifts and bit fields (R85-R88) -/

def execAnd (h : Hdr) (ty : IType) (d a b : Opnd) (s : State) : Out := alu2 h 1 1 ty d a b (· &&& ·) s
def execOr (h : Hdr) (ty : IType) (d a b : Opnd) (s : State) : Out := alu2 h 1 1 ty d a b (· ||| ·) s
def execXor (h : Hdr) (ty : IType) (d a b : Opnd) (s : State) : Out := alu2 h 1 1 ty d a b (· ^^^ ·) s
def execNot (h : Hdr) (ty : IType) (d a : Opnd) (s : State) : Out := alu1 h ty d a (fun x => 2 ^ tyW ty - 1 - x) s

/-- The count of a shift: bits 31-0 of its source (R79). -/
def shiftCount (y : Nat) : Nat := y % 2 ^ 32

def shlVal (ty : IType) (x y : Nat) : Nat := if shiftCount y ≥ tyW ty then 0 else x * 2 ^ shiftCount y % 2 ^ tyW ty
def shrVal (ty : IType) (x y : Nat) : Nat := cutN (tyW ty) (intOf ty x / 2 ^ min (shiftCount y) (tyW ty))
def rotVal (ty : IType) (x y : Nat) : Nat :=
  let w := tyW ty
  let n := shiftCount y % w
  (x * 2 ^ n + x / 2 ^ (w - n)) % 2 ^ w

def execShl (h : Hdr) (ty : IType) (d a b : Opnd) (s : State) : Out := alu2 h 1 1 ty d a b (shlVal ty) s
def execShr (h : Hdr) (ty : IType) (d a b : Opnd) (s : State) : Out := alu2 h 1 1 ty d a b (shrVal ty) s
def execRot (h : Hdr) (ty : IType) (d a b : Opnd) (s : State) : Out := alu2 h 1 1 ty d a b (rotVal ty) s

/-- The field length used (R87). -/
def fieldLen (w y : Nat) : Nat := min (y / 256 % 256) (w - y % 256)

def bfxVal (ty : IType) (x y : Nat) : Nat :=
  let n := fieldLen (tyW ty) y
  let f := x / 2 ^ (y % 256) % 2 ^ n
  if n = 0 then 0 else if tySigned ty then cutN (tyW ty) (sextN n f) else f

def bfiVal (ty : IType) (z x y : Nat) : Nat :=
  let p := y % 256
  let n := fieldLen (tyW ty) y
  if n = 0 then z else z - z / 2 ^ p % 2 ^ n * 2 ^ p + x % 2 ^ n * 2 ^ p

def execBfx (h : Hdr) (ty : IType) (d a b : Opnd) (s : State) : Out := alu2 h 1 1 ty d a b (bfxVal ty) s
def execBfi (h : Hdr) (ty : IType) (d a b : Opnd) (s : State) : Out := alu3 h 1 1 ty d a b (bfiVal ty) s

def clzVal (w x : Nat) : Nat := match highBit x with | some i => w - 1 - i | none => w
def brevVal (w x : Nat) : Nat := (List.range w).foldl (fun r i => 2 * r + x / 2 ^ i % 2) 0

def execPopc (h : Hdr) (ty : IType) (d a : Opnd) (s : State) : Out := alu1 h ty d a (popN (tyW ty)) s
def execClz (h : Hdr) (ty : IType) (d a : Opnd) (s : State) : Out := alu1 h ty d a (clzVal (tyW ty)) s
def execBrev (h : Hdr) (ty : IType) (d a : Opnd) (s : State) : Out := alu1 h ty d a (brevVal (tyW ty)) s

/-! ### Comparison and offsets (R93, R94) -/

def execIcmp (h : Hdr) (ty : IType) (c : Cond) (pd : Nat) (a b : Opnd) (s : State) : Out :=
  alu h 1 1 (.p pd) (fun q t => [.p pd t (condInt c (cmpInt ty (rdInt q (tyW ty) a t) (rdInt q (tyW ty) b t)))]) s

def execLea (h : Hdr) (ty : IType) (sh : Nat) (d a b : Opnd) (s : State) : Out :=
  alu2 h 1 1 ty d a b (fun x y => (x + y * 2 ^ sh) % 2 ^ tyW ty) s

/-! ### Special registers (R34, R95, R96) -/

/-- Held per squad and returned as a variable-latency result (R34). -/
def specIsV (id : Nat) : Bool := id == 0x020 || id == 0x021 || id == 0x022 || id == 0x024

/-- The overlay word of the issuing path (R34, R44). -/
def ovlWord (s : State) (q : Squad) (p : Path) : Nat :=
  let b := if p.pc.bank then 1 else 0
  let id := match aget s.banks (q.core * 2 + b) with | some k => if k.valid then k.ovlid else 0xFFFFFFFF | none => 0xFFFFFFFF
  b + id % 2 ^ 32 * 2 ^ 32

/-- The content of a special register for thread `t` (R34). -/
def specVal (s : State) (x : Iss) (id t : Nat) : Nat :=
  let q := x.q
  match id with
  | 0x000 => t
  | 0x001 => q.idx
  | 0x002 => (trOf s q).nsquad
  | 0x003 => q.lane
  | 0x004 => q.core % 128
  | 0x005 => q.core % 128 / 4
  | 0x006 => dieOf q
  | 0x007 => s.dev
  | 0x008 => q.task % 2 ^ 32
  | 0x009 => ((taskOf s q.task).map (·.part)).getD 0
  | 0x00A => ((taskOf s q.task).map (·.size.toNat)).getD 0
  | 0x00B => ctxId s q
  | 0x010 => x.path.exm.toNat
  | 0x011 => x.path.ppri
  | 0x012 => q.flg.toNat
  | 0x013 => ovlWord s q x.path
  | 0x020 => spendable (budgetOf s (dieOf q) (ctxId s q)) (deadline s q)
  | 0x021 => tget 0 s.cong q.core
  | 0x022 => (ctxOf s (ctxId s q)).epoch % 2 ^ 32 * 2 ^ 32 + (ctxOf s (ctxId s q)).done % 2 ^ 32
  | 0x023 => s.clock
  | 0x024 => s.time
  | _ => 0

/-- Where MOVS writes: each active thread of a v-register, bits 31-0, or the s-register once. -/
def movsWrites (s : State) (x : Iss) (d : Opnd) (id : Nat) : List RegW :=
  (execThreads d x.act).flatMap fun t => wrInt (if isUniform d then 64 else 32) false d t (specVal s x id t)

/-- Reading DONE of the LOD epochs acquires what finished walks below it have done (R210, R446). DESIGN CHOICE: on every path, at
`sys`; the manual says only that the page may then be reused. -/
def sawDone (s : State) (x : Iss) (id : Nat) : State :=
  if id = 0x022 ∧ x.act ≠ 0 then
    logAcq s x 127 .sys [.lodep (ctxId s x.q) ((ctxOf s (ctxId s x.q)).done % 2 ^ 32)]
  else s

def execMovs (h : Hdr) (d : Opnd) (id : Nat) (s : State) : Out :=
  issue h 1 (occOf d 1) s fun x s =>
    let s := sawDone s x id
    .ok (if specIsV id then putLater s x (movsWrites s x d id) else putFixed s x (movsWrites s x d id))

def execMovx (h : Hdr) (id : Nat) (a : Opnd) (s : State) : Out :=
  issue h 1 (.once 1) s fun x s =>
    let v := rdScal x.q a
    if x.act = 0 then .ok s
    else if id = 0x010 then setExm s x (BitVec.ofNat 32 v)
    else if id = 0x011 then .ok (setPpri s x (v % 256))
    else .ok (modSquad s x.id fun q => { q with flg := BitVec.ofNat 5 v })

/-! ### Across the squad (R97, R98) -/

def shflSrc (m : ShflMode) (t : Nat) (k : Nat) : Int :=
  match m with
  | .idx => k
  | .up => (t : Int) - k
  | .down => t + k
  | .xor => ((t ^^^ k : Nat) : Int)

/-- The thread read: itself, unless the source is an active thread. -/
def shflFrom (m : ShflMode) (act : Mask) (t k : Nat) : Nat :=
  let i := shflSrc m t k
  if 0 ≤ i ∧ i ≤ 31 ∧ bitM act i.toNat then i.toNat else t

def execShfl (h : Hdr) (ty : IType) (mode : ShflMode) (vd va : Nat) (b : Opnd) (s : State) : Out :=
  issue h 2 (.per 1) s fun x s =>
    .ok (putLater s x ((threadsOf x.act).flatMap fun t =>
      let k := rdInt x.q (tyW ty) b t % 2 ^ 32
      wrTy ty (.v vd false false) t (rdInt x.q (tyW ty) (.v va false false) (shflFrom mode x.act t k))))

def iredOp (ty : IType) (op : IredOp) (x y : Nat) : Nat :=
  match op with
  | .add => (x + y) % 2 ^ tyW ty
  | .min => minInt ty x y
  | .max => maxInt ty x y
  | .and => x &&& y
  | .or => x ||| y
  | .xor => x ^^^ y

/-- The values of the active threads, in thread order, for the tree of R68. -/
def treeVals (act : Mask) (f : Nat → Nat) : List (Option Nat) := (List.range 32).map fun t => if bitM act t then some (f t) else none

def execIred (h : Hdr) (ty : IType) (op : IredOp) (sd va : Nat) (s : State) : Out :=
  issue h 2 (.per 1) s fun x s =>
    match treeReduce (fun a b => (iredOp ty op a b, 0)) (treeVals x.act (rdInt x.q (tyW ty) (.v va false false))) with
    | some r => .ok (putLater s x (wrTy ty (.s sd false false) 0 r.1))
    | none => .ok s

/-! ### Predicates and flags (R99-R102) -/

def execPlop (h : Hdr) (lut pd pa pb : Nat) (s : State) : Out :=
  alu h 1 1 (.p pd) (fun q t => [.p pd t (lut.testBit (2 * (rdP q pa t).toNat + (rdP q pb t).toNat))]) s

/-- The vote's answer from the guard values of the active threads. -/
def voteForm (h : Hdr) (pd pa : Nat) (f : List Bool → Bool) (s : State) : Out :=
  issue h 1 (.per 1) s fun x s =>
    let r := f ((threadsOf x.act).map (rdP x.q pa))
    .ok (putLater s x ((threadsOf x.act).map fun t => .p pd t r))

def execVoteAny (h : Hdr) (pd pa : Nat) (s : State) : Out := voteForm h pd pa (·.any id) s
def execVoteAll (h : Hdr) (pd pa : Nat) (s : State) : Out := voteForm h pd pa (·.all id) s
def execVoteUni (h : Hdr) (pd pa : Nat) (s : State) : Out := voteForm h pd pa (fun l => l.all id || l.all (!·)) s

def execVoteBallot (h : Hdr) (sd pa : Nat) (s : State) : Out :=
  issue h 1 (.per 1) s fun x s =>
    if x.act = 0 then .ok s
    else .ok (putLater s x [.s sd (BitVec.ofNat 64 (maskOf fun t => bitM x.act t && rdP x.q pa t).toNat)])

def execPmaskGet (h : Hdr) (sd pa : Nat) (s : State) : Out :=
  alu h 1 1 (.s sd false false) (fun q _ => [.s sd (BitVec.ofNat 64 (maskOf fun t => rdP q pa t).toNat)]) s

def execPmaskSet (h : Hdr) (pd : Nat) (a : Opnd) (s : State) : Out :=
  alu h 1 1 (.p pd) (fun q t => [.p pd t ((rdScal q a).testBit t)]) s

def execFlagsTest (h : Hdr) (pd mask : Nat) (s : State) : Out :=
  alu h 1 1 (.p pd) (fun q t => [.p pd t (decide (q.flg &&& BitVec.ofNat 5 mask ≠ 0))]) s

/-- DESIGN CHOICE: it clears the squad's flags once (R102), so it takes one lane cycle in all; the table of R77 gives FLAGS one for
each active thread. -/
def execFlagsClr (h : Hdr) (mask : Nat) (s : State) : Out :=
  issue h 1 (.once 1) s fun x s =>
    if x.act = 0 then .ok s
    else .ok (modSquad s x.id fun q => { q with flg := q.flg &&& ~~~(BitVec.ofNat 5 mask) })

end Sys2Proof.Machine
end

