-- ==== Sys2Proof/Machine/Lod.lean ====
section
/-! DEFINITION. LLD, LODQ, FBPUT and RMAP (R211-R216). -/

namespace Sys2Proof.Machine

def lodBytesOf : LodSize → Nat
  | .b8 => 1 | .b16 => 2 | .b32 => 4 | .b64 => 8 | .b128 => 16

/-- The requested level of a thread: the immediate, or bits 3-0 of register B + 1 (R211). -/
def lodLevel (q : Squad) (lvl : Option Nat) (b : Opnd) (t : Nat) : Nat :=
  match lvl, b with
  | some l, _ => l
  | none, .v n .. => (rdV q (n + 1) t).toNat % 16
  | none, _ => 0

/-- The walk of a thread. -/
def threadWalk (s : State) (x : Iss) (r : Rec) (lvl : Option Nat) (b : Opnd) (t : Nat) : Walk :=
  let c := rdInt x.q 32 b t
  walkLod s (ctxId s x.q) x.q.task t r (lodLevel x.q lvl b t) (c % 65536) (c / 65536 % 65536)

/-- Where the data of an LLD thread stand: nowhere when its walk found none, or no memory stands there. -/
def lldPlace (s : State) (x : Iss) (t : Nat) (w : Walk) : Option Tgt :=
  if w.status = 15 then none
  else match translate s (ctxId s x.q) w.addr false with
    | .ok (sp, a) => some ⟨t, w.addr, sp, a⟩
    | .error _ => none

/-- The registers of one LLD thread, whose looks are among `ls`. -/
def lldRegs (s : State) (x : Iss) (ls : List Look) (sz : LodSize) (vd t : Nat) (w : Walk) : List RegW :=
  let pois := w.status != 15 && lodPoison s (ctxId s x.q) w.addr
  let x := if pois then 0 else ((lldPlace s x t w).map (seenBy s .L ls (lodBytesOf sz))).getD 0
  (List.range (lodRegs sz)).map (fun i => .v (vd + i) t (BitVec.ofNat 32 (x / 2 ^ (32 * i)))) ++
    [.v (vd + lodRegs sz) t (BitVec.ofNat 32 (walkWord w pois))]

/-- The walks of an instruction: an acquire of the bits, then what they cover is released below the next epoch (R200, R210). -/
def logWalks (s : State) (x : Iss) (r : Rec) (ws : List (Nat × Walk)) : State :=
  logEvs s (ws.flatMap fun w => walkEvs s (ctxId s x.q) (whoSquad s x.id x.q w.1) r w.2)
def logEpoch (s : State) (x : Iss) (epoch : Nat) : State := logRel s x 16 .sys (.lodep (ctxId s x.q) epoch)

/-- LLD (R211, R212). DESIGN CHOICE: one that raises ACCESS 0x05 yields no feedback entry; the rules are silent. -/
def execLld (h : Hdr) (sz : LodSize) (lvl : Option Nat) (vd ba : Nat) (b : Opnd) (s : State) : Out :=
  issue h 3 (.per 1) s fun x s =>
    let r := rdB x.q ba
    if x.act = 0 then .ok s
    else
      match recCheck r [1] [0] with
      | some e => failE s x e
      | none =>
        let ctx := ctxId s x.q
        let ws := (threadsOf x.act).map fun t => (t, threadWalk s x r lvl b t)
        let bad := ws.filter fun w => 2 ^ w.2.esize ≠ lodBytesOf sz
        if !bad.isEmpty then .fault s (faultOf (eACCESS 5) (bad.map fun w => (w.1, 0)))
        else
          let e := (ctxOf s ctx).epoch
          let s := logWalks (pushFeedback s ctx (ws.flatMap fun w => walkFb s w.2 0)) x r ws
          let ts := ws.filterMap fun w => lldPlace s x w.1 w.2
          let ls := looksOf s x (lodBytesOf sz) ts
          .ok (putLater (logEpoch (logEvs s (ts.map (loadEv s x .L none ls (lodBytesOf sz)))) x (e + 1)) x
            (ws.flatMap fun w => lldRegs s x ls sz vd w.1 w.2) (some e))

def execLodq (h : Hdr) (lvl : Option Nat) (vd ba : Nat) (b : Opnd) (s : State) : Out :=
  issue h 2 (.per 1) s fun x s =>
    let r := rdB x.q ba
    if x.act = 0 then .ok s
    else
      match recCheck r [1] [0] with
      | some e => failE s x e
      | none =>
        let e := (ctxOf s (ctxId s x.q)).epoch
        let ws := (threadsOf x.act).map fun t => (t, threadWalk s x r lvl b t)
        .ok (putLater (logEpoch (logWalks s x r ws) x (e + 1)) x
          (ws.map fun w => .v vd w.1 (BitVec.ofNat 32 (walkWord w.2 false))) (some e))

def execFbput (h : Hdr) (a b : Opnd) (s : State) : Out :=
  issue h 2 (.per 1) s fun x s =>
    .ok (pushFeedback s (ctxId s x.q) ((threadsOf x.act).map fun t =>
      let k := rdInt x.q 32 a t
      let w := k / 65536 % 16
      ⟨rdInt x.q 32 b t % 2 ^ 24, k % 65536, w, w, 2, s.time⟩))

/-- Set or clear one residency bit where its byte stands. -/
def putBit (s : State) (sp : Space) (a bit : Nat) (v : Bool) : State :=
  let o := rdByte s sp a
  let m : Byte := 1#8 <<< bit
  wrByte s sp a (if v then o ||| m else o &&& ~~~m)

/-- The bit changes in one update, a release at `sys` on path L (R209). -/
def rmapOne (s : State) (w : Who) (sp : Space) (a bit : Nat) (v : Bool) : State :=
  logEv (putBit s sp a bit v) (.access { accPut s w .L sp a 1 with rd := true, rel := some .sys })

/-- RMAP on the bits that the active threads name (R215). -/
def rmapForm (h : Hdr) (ba : Nat) (b : Opnd) (v : Bool) (s : State) : Out :=
  issue h 2 (.per 1) s fun x s =>
    let r := rdB x.q ba
    if x.act = 0 then .ok s
    else
      match recCheck r [1] [0] with
      | some e => failE s x e
      | none =>
        let ctx := ctxId s x.q
        let d := descAt s ctx (recBase r)
        let all := (threadsOf x.act).map fun t =>
          let k := rdInt x.q 32 b t
          let lv := k / 2 ^ 24 % 16
          let page := k % 2 ^ 24
          let l := levelOf d lv
          (t, l.pgoff + page, decide (lv ≤ descFloor d) && decide (page < levelPn d l))
        let oob := all.filter fun e => !e.2.2
        if !recBmode r && !oob.isEmpty then .fault s (faultOf (0x04, 0x01) (oob.map fun e => (e.1, mapByteVa d e.2.1)))
        else
          let ps := (all.filter fun e => e.2.2).map fun e =>
            (e.1, mapByteVa d e.2.1, e.2.1 % 8, translate s ctx (mapByteVa d e.2.1) true)
          match lineFault (ps.filterMap fun e => match e.2.2.2 with | .error er => some (e.1, e.2.1, er) | .ok _ => none) with
          | some f => .fault s { f with park := f.park && mapLeased s ctx (trOf s x.q) f.addr }
          | none =>
            let ts : List (Tgt × Nat) := ps.filterMap fun e =>
              match e.2.2.2 with | .ok p => some (⟨e.1, e.2.1, p.1, p.2⟩, e.2.2.1) | .error _ => none
            if peerDown s (ts.map (·.1)) then peerWait s x (downThreads s (ts.map (·.1)))
            else
              .ok (ts.foldl (fun s g => rmapOne s (whoSquad s x.id x.q g.1.t) g.1.sp g.1.a g.2 v)
                (logEvs s ((threadsOf x.act).flatMap fun t => descEv s ctx (whoSquad s x.id x.q t) (recBase r))))

def execRmapSet (h : Hdr) (ba : Nat) (b : Opnd) (s : State) : Out := rmapForm h ba b true s
def execRmapClr (h : Hdr) (ba : Nat) (b : Opnd) (s : State) : Out := rmapForm h ba b false s

def execRmapBump (h : Hdr) (s : State) : Out :=
  issue h 2 (.once 1) s fun x s =>
    if x.act = 0 then .ok s
    else
      let e := (ctxOf s (ctxId s x.q)).epoch + 1
      .ok (logEpoch (modCtx s (ctxId s x.q) fun c => { c with epoch := e }) x e)

end Sys2Proof.Machine
end

