-- ==== Sys2Proof/Machine/Sync.lean ====
section
/-! DEFINITION. Atomics, fences, barriers, arrival words and relay queues (R217-R246). -/

namespace Sys2Proof.Machine

/-! ### Atomics (R217-R222) -/

/-- The new value of an operation on `w`-bit values (R219). -/
def atomVal (op : AtomOp) (w old v : Nat) : Nat :=
  match op with
  | .add => (old + v) % 2 ^ w
  | .minU => min old v
  | .minS => if sextN w v < sextN w old then v else old
  | .maxU => max old v
  | .maxS => if sextN w old < sextN w v then v else old
  | .and => old &&& v
  | .or => old ||| v
  | .xor => old ^^^ v
  | .exch => v
  | .inc => if old ≥ v then 0 else old + 1
  | .faddF32 => (addF fp32 .rne old v).1
  | .faddBf16x2 => (addF bf16 .rne (old % 65536) (v % 65536)).1 + 65536 * (addF bf16 .rne (old / 65536) (v / 65536)).1

def atomFp : AtomOp → Bool
  | .faddF32 => true | .faddBf16x2 => true | _ => false

def ordAcq : AtomOrd → Option Scope
  | .acq sc => some sc | .ar sc => some sc | _ => none
def ordRel : AtomOrd → Option Scope
  | .rel sc => some sc | .ar sc => some sc | _ => none

/-- A register operand of `w` bits at register `n`. -/
def regVal (q : Squad) (w n t : Nat) : Nat := if w = 64 then rdPair q n t else (rdV q n t).toNat

/-- What one read-modify-write does: none leaves the element. -/
abbrev Rmw := Nat → Nat → Option Nat

/-- One thread's read-modify-write: a path-T access that releases only when it writes (R221). -/
def atomOne (x : Iss) (so : AtomOrd) (n : Nat) (f : Rmw) (s : State) (g : Tgt) : State :=
  let a : Acc := { accRd (whoSquad s x.id x.q g.t) .T (.bytes g.sp g.a n) with acq := ordAcq so }
  match f g.t (rdN s g.sp g.a n) with
  | some v => logEv (wrN s g.sp g.a n v) (.access { a with wr := true, rel := ordRel so, old := rdBytes s g.sp g.a n })
  | none => logEv s (.access a)

/-- The read-modify-writes in ascending thread order: the state, and the old value of each thread, none in a POISON block;
`done` are threads that performed theirs before a parked fault. -/
def atomAll (x : Iss) (so : AtomOrd) (n : Nat) (f : Rmw) (done : List (Nat × Nat)) :
    List Tgt → State → State × List (Tgt × Option Nat)
  | [], s => (s, [])
  | g :: r, s =>
    let e : State × Option Nat :=
      match done.find? fun d => d.1 == g.t with
      | some d => (s, some d.2)
      | none => if poisoned s g.sp g.a n then (s, none) else (atomOne x so n f s g, some (rdN s g.sp g.a n))
    let k := atomAll x so n f done r e.1
    (k.1, (g, e.2) :: k.2)

/-- The threads of this atomic that performed it before its fault was parked (R162, R383). -/
def atomsDone (x : Iss) : List (Nat × Nat) :=
  match x.q.atomDone with
  | some d => if d.1 = x.path.entry ∧ d.2.1 = x.path.pc then d.2.2 else []
  | none => []

/-- The register rule of D for elements of `w` registers, `k` of which the form needs: the subcode of ILL it raises (R220). A
record of another element size has no such rule. -/
def dRule (w k vd regs : Nat) : Option Nat :=
  if w ≠ 1 ∧ w ≠ 2 then none
  else if vd % (k * w) ≠ 0 then some 5
  else if vd + k * w > regs then some 6
  else none

/-- An atomic: the checks of R218 in order, then the updates, then the destination registers for those that have them.
`k` registers of D are read or written. -/
def atomForm (h : Hdr) (so : AtomOrd) (fp : Bool) (k : Nat) (writes : Bool) (vd ba : Nat) (b : Opnd) (f : Squad → Nat → Rmw)
    (s : State) : Out :=
  issue h 3 (.per 1) s fun x s =>
    let r := rdB x.q ba
    let e := recE r
    let w := 8 * e
    let ill := dRule (e / 4) k vd (limOf s x.q).regs
    if x.act = 0 then (match ill with | some n => failI s x 1 n | none => .ok s)
    else
      match recCheck r [0] [0, 1] with
      | some er => failE s x er
      | none =>
        if (recEsize r != 2 && recEsize r != 3) || (fp && recEsize r == 3) then failE s x (eACCESS 0x0A)
        else if let some n := ill then failI s x 1 n
        else
          match plan s x r ⟨[0], [0, 1], e, true, targetCore x.q r, true⟩ (recAddrs x r e b) with
          | .error fl => .fault s fl
          | .ok ts =>
            if peerDown s ts then peerWait s x (downThreads s ts)
            else
              let res := atomAll x so e (f x.q w) (atomsDone x) ts (cacheAll s x r ts)
              let s := modSquad res.1 x.id fun q => { q with atomDone := none }
              let bad := res.2.filter fun g => g.2.isNone
              if !writes then .ok s
              else if !bad.isEmpty then
                let fl := faultOf (0x08, 0x02) (bad.map fun g => (g.1.t, g.1.va))
                let park := (bad.find? fun g => g.1.t == fl.thread).any fun g => g.1.sp matches .mem | .peer _
                let olds := res.2.filterMap fun g => g.2.map fun o => (g.1.t, o)
                .fault (if park then modSquad s x.id fun q => { q with atomDone := some (x.path.entry, x.path.pc, olds) } else s)
                  { fl with park := park }
              else
                .ok (putLater s x ((threadsOf x.act).flatMap fun t =>
                  wrInt w false (.v vd false false) t (((res.2.find? fun g => g.1.t == t).bind (·.2)).getD 0)))

def execAtom (h : Hdr) (so : AtomOrd) (op : AtomOp) (vd ba : Nat) (b : Opnd) (s : State) : Out :=
  atomForm h so (atomFp op) 1 true vd ba b (fun q w t old => some (atomVal op w old (regVal q w vd t))) s

def execRed (h : Hdr) (so : AtomOrd) (op : AtomOp) (vd ba : Nat) (b : Opnd) (s : State) : Out :=
  atomForm h so (atomFp op) 1 false vd ba b (fun q w t old => some (atomVal op w old (regVal q w vd t))) s

def execCas (h : Hdr) (so : AtomOrd) (vd ba : Nat) (b : Opnd) (s : State) : Out :=
  atomForm h so false 2 true vd ba b (fun q w t old =>
    if old = regVal q w vd t then some (regVal q w (vd + w / 32) t) else none) s

/-! ### Fences (R223-R225) -/

def execFence (h : Hdr) (ord : FenceOrd) (sc : Scope) (s : State) : Out :=
  issue h 1 (.once 1) s fun x s =>
    .ok (logEvs s ((threadsOf x.act).map fun t => .fence (whoSquad s x.id x.q t) ord sc))

def execFencex (h : Hdr) (sc : Scope) (m1 m2 : Nat) (s : State) : Out :=
  issue h 1 (.once 1) s fun x s =>
    .ok (logEvs s ((threadsOf x.act).map fun t => .fencex (whoSquad s x.id x.q t) sc m1 m2))

/-! ### Barriers (R226-R234) -/

/-- What an arm asks for. -/
structure ArmReq where
  count : Nat
  pcount : Nat
  level : Nat
  parent : Option (AwLoc × Rec)
  deriving DecidableEq, Repr

/-- The parameters obey R228. -/
def armOk (s : State) (x : Iss) (l : AwLoc) (a : ArmReq) : Bool :=
  decide (1 ≤ a.count) && (decide (1 ≤ a.pcount) == a.parent.isSome) &&
  (match l.sp with
   | .scr c => decide (a.level ≤ 3) && (decide (2 ≤ a.level) || c == x.q.core)
   | _ => decide (2 ≤ a.level)) &&
  (match a.parent with
   | some p =>
     let w := barWord s p.1
     !(barState w == 1 || barState w == 2) || decide (a.level < barLevel w)
   | none => true)

/-- The object word that the arm writes; PHASE stays. -/
def armWord (old : Nat) (a : ArmReq) (bind : W64) : Nat :=
  (match a.parent with
   | some p => 2 ^ 255 + recSpace p.2 * 2 ^ 254 + (if recSpace p.2 = 1 then recTarget p.2 else 0) * 2 ^ 247 +
       (if recSpace p.2 = 1 then recBase p.2 % 2 ^ 20 else recBase p.2) * 2 ^ 192
   | none => 0) +
  a.count * 2 ^ 176 + a.pcount * 2 ^ 160 + barPhase old * 2 ^ 96 + a.level * 2 ^ 93 + 2 ^ 86 + bind.toNat

/-- COUNT, PCOUNT, LEVEL and the parent equal the request. -/
def armSame (w : Nat) (a : ArmReq) : Bool :=
  bits w 255 247 == bits (armWord w a 0) 255 247 && bits w 243 160 == bits (armWord w a 0) 243 160 && barLevel w == a.level

/-- BAR.ARM (R227, R228). DESIGN CHOICE: of the parent's record B the bound of 32 bytes, the alignment and the write access of its
place are checked as for A, but not WR. -/
def execBarArm (h : Hdr) (sc : Scope) (ba sd : Nat) (b : Opnd) (s : State) : Out :=
  issue h 1 (.once 1) s fun x s =>
    if x.act = 0 then .ok s
    else
      match locate s x (rdB x.q ba) 32 [0, 1] true true false with
      | .error f => .fault s f
      | .ok l =>
        let par : Except FaultInfo (Option (AwLoc × Rec)) :=
          match b with
          | .b n => (locate s x (rdB x.q n) 32 [0, 1] false true false).map fun p => some (p, rdB x.q n)
          | _ => .ok none
        match par with
        | .error f => .fault s f
        | .ok p =>
          if locDown s l || p.any (fun p => locDown s p.1) then peerWait s x
          else
            let v := (rdS x.q sd).toNat
            let a : ArmReq := ⟨v % 65536, v / 65536 % 65536, scopeNo sc, p⟩
            let w := barWord s l
            if !armOk s x l a then failE s x (0x0D, 5)
            else if barState w == 1 && armSame w a then .ok s
            else if barState w == 1 || barState w == 2 then failE s x (0x0D, 2)
            else
              let s := putBar s l (armWord w a (Config.barBind s.ctr))
              .ok (putBarDev s l ⟨instOf x.q a.level, p.map (·.1), [], [], []⟩)

/-- An arrival of the issuing squad under way. -/
def sendArrival (s : State) (x : Iss) (pend : Option Nat) (l : AwLoc) (n : Nat) : State :=
  let id := s.nextId
  let s := { s with nextId := id + 1, arrivals := s.arrivals ++
    [⟨id, x.id, x.q.core, x.q.lane, x.q.idx, x.q.task, x.path.entry, x.path.pc, faultSet x.act x.path, pend, l, n, none⟩] }
  logRel s x 9 (scopeOf (rootLevel s 8 l)) (.arrival id)

def execBarArv (h : Hdr) (sd ba : Nat) (b : Opnd) (s : State) : Out :=
  issue h 1 (.once 1) s fun x s =>
    if x.act = 0 then .ok s
    else
      match locate s x (rdB x.q ba) 32 [0, 1] true true true with
      | .error f => .fault s f
      | .ok l =>
        if locDown s l then peerWait s x
        else
          let id := s.nextId
          let s := modSquad { s with nextId := id + 1 } x.id fun q =>
            let q := landFor [.s sd 0] q
            { q with pend := q.pend ++ [⟨id, false, [.s sd 0], none⟩] }
          .ok (sendArrival s x (some id) l (rdScal x.q b))

/-- Whether the phase of the object has passed the token: done, waiting, BAR 0x07, or BAR 0x03 for a token ahead (R230). -/
def waitPhase (s : State) (x : Iss) (l : AwLoc) (tok : Nat) : Res :=
  let w := barWord s l
  if barState w = 3 then failE s x (0x0D, 7)
  else if passed tok (barPhase w) then failE s x (0x0D, 3)
  else if passed (barPhase w) tok then .ok (logAcq s x 9 (scopeOf (rootLevel s 8 l)) [.phase l tok])
  else .wait s (.bar (BitVec.ofNat 32 tok))

def execBarWait (h : Hdr) (ba : Nat) (b : Opnd) (s : State) : Out :=
  issue h 0 (.once 1) s fun x s =>
    if x.act = 0 then .ok s
    else
      match locate s x (rdB x.q ba) 32 [0, 1] false false false with
      | .error f => .fault s f
      | .ok l =>
        let tok := rdScal x.q b % 2 ^ 32
        if locDown s l then peerWait s x
        else waitPhase s x l tok

def execBarSync (h : Hdr) (ba : Nat) (b : Opnd) (s : State) : Out :=
  issue h 1 (.once 1) s fun x s =>
    if x.act = 0 then .ok s
    else
      match x.wait with
      | some (.barArrive n) => .wait s (.barArrive n)
      | w =>
        match locate s x (rdB x.q ba) 32 [0, 1] true true true with
        | .error f => .fault s f
        | .ok l =>
          if locDown s l then peerWait s x
          else
            match w with
            | some (.bar tok) => waitPhase s x l tok.toNat
            | _ => .wait (sendArrival s x none l (rdScal x.q b)) (.barArrive 0)

/-! ### Arrival words (R235-R239) -/

def execAwSet (h : Hdr) (ba : Nat) (b : Opnd) (s : State) : Out :=
  issue h 1 (.once 1) s fun x s =>
    if x.act = 0 then .ok s
    else
      match locate s x (rdB x.q ba) 16 [0, 1] true true false with
      | .error f => .fault s f
      | .ok l =>
        if locDown s l then peerWait s x
        else
          let v := rdScal x.q b
          .ok (storeOne x .T none 16 (v % 2 ^ 32 + v / 2 ^ 32 * 2 ^ 64) s ⟨lowestD x.act, recBase (rdB x.q ba), l.sp, l.addr⟩)

def execAwWait (h : Hdr) (sc : Scope) (ba : Nat) (b : Opnd) (s : State) : Out :=
  issue h 0 (.once 1) s fun x s =>
    if x.act = 0 then .ok s
    else
      match locate s x (rdB x.q ba) 16 [0, 1] false false false with
      | .error f => .fault s f
      | .ok l =>
        if locDown s l then peerWait s x
        else
          let w := awWord s l
          if passed (awGen w) (rdScal x.q b) then .ok (logAcq s x 7 sc [.gen l])
          else if awFault w ≠ 0 then .ok s
          else .wait s .aw

/-! ### Relay queues (R240-R246) -/

/-- The header that a queue instruction names. DESIGN CHOICE: Q.POP, Q.CLOSE and Q.INIT need WR = 1 as Q.PUSH does; R241 checks the
record as for LDR and STR without saying which form checks as which. -/
def locateQ (s : State) (x : Iss) (ba : Nat) (fwd : Bool) : Except FaultInfo AwLoc := locate s x (rdB x.q ba) 64 [1] true true fwd

/-- Q.INIT (R242). DESIGN CHOICE, of the order of its checks: QUEUE 0x04, the ring's ACCESS 0x08, QUEUE 0x02, QUEUE 0x05. -/
def execQInit (h : Hdr) (sc : Scope) (ba : Nat) (b : Opnd) (s : State) : Out :=
  issue h 1 (.once 1) s fun x s =>
    if x.act = 0 then .ok s
    else
      match locateQ s x ba false with
      | .error f => .fault s f
      | .ok l =>
        let v := rdScal x.q b
        let n := v % 16
        let cr := if v / 16 % 2048 = 0 then 2 ^ n else v / 16 % 2048
        let core := targetCore x.q (rdB x.q ba)
        if n > 10 ∨ cr > 2 ^ n then failE s x (0x0E, 4)
        else if !footprintOk s (ctxId s x.q) core l.addr (64 + 4 * 2 ^ n) then failE s x (eACCESS 8)
        else if core ≠ x.q.core then failE s x (0x0E, 2)
        else if qLists s l ≠ ([], []) then failE s x (0x0E, 5)
        else
          let s := putQueue s l ⟨n, x.q.core, sc, false⟩
          .ok (putQ s l (cr * 2 ^ 288 + cr * 2 ^ 213 + 0x51 * 2 ^ 32 + scopeNo sc * 2 ^ 21 + core % 128 * 2 ^ 14 + n))

/-- The first active thread's value of an operand. -/
def singleVal (x : Iss) (b : Opnd) : Nat := rdInt x.q 32 b (lowestD x.act)

/-- This squad may go: nobody blocked before it. -/
def firstIn (l : List Nat) (id : Nat) : Bool := match l with | [] => true | a :: _ => a == id

def execQPush (h : Hdr) (ba : Nat) (b : Opnd) (s : State) : Out :=
  issue h 2 (.once 1) s fun x s =>
    if x.act = 0 then .ok s
    else
      match locateQ s x ba true with
      | .error f => .fault s f
      | .ok l =>
        let w := qWord s l
        let ls := qLists s l
        let leave := putLists s l (ls.1.filter (· ≠ x.id), ls.2)
        match queueAt s l with
        | none => failE leave x (0x0E, 1)
        | some k =>
          if k.closed then failE leave x (0x0E, 3)
          else if qAllow w = 0 ∨ !firstIn ls.1 x.id then
            .wait (if ls.1.contains x.id then s else putLists s l (ls.1 ++ [x.id], ls.2)) .qPush
          else if !footprintOk s (ctxId s x.q) k.owner (qEntry l k (qPushed w)) 4 then failE leave x (eACCESS 8)
          else
            let s := wrN leave l.sp (qEntry l k (qPushed w)) 4 (singleVal x b)
            let s := putQ s l (setBits (setBits w 287 256 (qPushed w + 1)) 319 288 (qAllow w - 1))
            .ok (logRel s x 13 k.scope (.handle l (qPushed w)))

def execQPop (h : Hdr) (px : Nat) (d : Opnd) (ba : Nat) (s : State) : Out :=
  issue h 2 (.once 1) s fun x s =>
    if x.act = 0 then .ok s
    else
      match locateQ s x ba false with
      | .error f => .fault s f
      | .ok l =>
        let w := qWord s l
        let ls := qLists s l
        let leave := putLists s l (ls.1, ls.2.filter (· ≠ x.id))
        let preds (v : Bool) : List RegW := (threadsOf x.act).map fun t => .p px t v
        match queueAt s l with
        | none => failE leave x (0x0E, 1)
        | some k =>
          if k.owner ≠ x.q.core then failE leave x (0x0E, 2)
          else if qPushed w = qPopped w ∧ k.closed then
            .ok (logAcq (putLater leave x (preds false)) x 13 k.scope [.closed l])
          else if qPushed w = qPopped w ∨ !firstIn ls.2 x.id then
            .wait (if ls.2.contains x.id then s else putLists s l (ls.1, ls.2 ++ [x.id])) .qPop
          else if !footprintOk s (ctxId s x.q) k.owner (qEntry l k (qPopped w)) 4 then failE leave x (eACCESS 8)
          else
            let v := rdN s l.sp (qEntry l k (qPopped w)) 4
            let s := putQ leave l (setBits (setBits w 255 224 (qPopped w + 1)) 319 288 (qAllow w + 1))
            .ok (logAcq (putLater s x (broadcast d x.act 32 false v ++ preds true)) x 13 k.scope [.handle l (qPopped w)])

def execQClose (h : Hdr) (ba : Nat) (s : State) : Out :=
  issue h 1 (.once 1) s fun x s =>
    if x.act = 0 then .ok s
    else
      match locateQ s x ba true with
      | .error f => .fault s f
      | .ok l =>
        match queueAt s l with
        | none => failE s x (0x0E, 1)
        | some k =>
          .ok (logRel (putQ (putQueue s l { k with closed := true }) l (setBits (qWord s l) 40 40 1)) x 13 k.scope (.closed l))

end Sys2Proof.Machine
end

