-- ==== Sys2Proof/Machine/Device.lean ====
section
/-! DEFINITION. The events of memory, pacers, host links, management space, Onaler fabric, timebase, power and boot
(R168, R169, R303-R305, R383, R397-R420). -/

namespace Sys2Proof.Machine

/-- Firmware has started the dies (R419). -/
def ifReady (s : State) (f : State → State) : State := if s.ready then f s else s

/-! ### Rights of the masters, and their replies (R399, R400, R406, R407) -/

/-- Reply of a link: bytes, or an unsupported request. -/
def reply (s : State) (link : Nat) (r : Option (List Byte)) : State := { s with replies := s.replies ++ [(link, r)] }

/-- Rights of a host link on a target: 3 at reset. -/
def hostRight (s : State) (target link : Nat) : Nat := tget 3 s.hostAcc (target * 2 + link)
def peerRight (s : State) (target dev : Nat) : Nat := tget 0 s.peerAcc (target * 2048 + dev)
def permits (acc : Nat) (write : Bool) : Bool := acc == 3 || (acc == 1 && !write)

/-- The master may access the management space, target 8: the management controller, and a host link with the right. -/
def mayManage (s : State) (m : Option Nat) (write : Bool) : Bool :=
  match m with
  | none => true
  | some l => decide (l < 2) && permits (hostRight s 8 l) write

/-- A write to the management space: dropped when refused (R407). -/
def mgmt (s : State) (m : Option Nat) (f : State → State) : State :=
  ifReady s fun s => if mayManage s m true then f s else s

/-! ### HBM and soft errors (R168, R169, R413) -/

/-- The congestion level of an occupancy in percent. -/
def congLevel (occ : Nat) : Nat := if occ < 50 then 0 else if occ < 75 then 1 else if occ < 90 then 2 else 3

def setCong (s : State) (die lv : Nat) : State :=
  { s with cong := (List.range 128).foldl (fun m i => tset 0 m (die * 128 + i) lv) s.cong }

def execCongestionBroadcast (die occ : Nat) (s : State) : Out := .next (setCong s die (congLevel occ))

/-- A line of the group was activated within the refresh window. DEDUCED: the window is the refresh period that ends now. -/
def activated (s : State) (die group : Nat) : Bool :=
  s.active.any fun e => homeDie (e.1 * 256) == die && Config.rowGroup e.1 == group && decide (s.time < e.2 + Config.refreshWindow)

/-- A refresh stamps a row group; a group activated within the window skips it. Data stay. -/
def refreshGroup (s : State) (die group : Nat) : State :=
  if activated s die group then s else { s with refresh := tset 0 s.refresh (die * 2 ^ 32 + group) s.time }

def execHbmRefresh (die group : Nat) (s : State) : Out := .next (refreshGroup s die group)

/-- Counters of corrected errors: die d at d, HBM stack k at 8 + k; die d has stacks 2d and 2d + 1 (DEDUCED from R8, R416). -/
def scrubCounters (die : Nat) : List Nat := [die, 8 + 2 * die, 9 + 2 * die]

/-- A patrol scrub corrects what it can; how many errors it met is open. -/
def scrubStep (s : State) (i : Nat) : State :=
  tickCtr { s with corrected := tset 0 s.corrected i (tget 0 s.corrected i + Config.openValue 5 s.ctr) }

def execPatrolScrub (die : Nat) (s : State) : Out := .next ((scrubCounters die).foldl scrubStep s)

/-- A kill with POISON 0x04. -/
def poisonKill (s : State) (task core sidx pc : Nat) : State :=
  requestKill s task ⟨8, 4, core, sidx, 0xFF, pc, 0, s.time, true⟩

def uncorrectable (s : State) (site : ErrSite) : State :=
  match site with
  | .block sp blk => wrTag s sp blk 0x00F8
  | .coreStore core task | .instrMem core task =>
    match taskOf s task with
    | some t => if t.core = core ∧ !t.saved then poisonKill s task core 0xFF 0 else s
    | none => s
  | .squadState id =>
    match squadOf s id with
    | some q => poisonKill s q.task q.core q.idx (((runningPath q).map fun p => pcCode p.pc).getD 0)
    | none => s

def execUncorrectableError (site : ErrSite) (s : State) : Out := .next (uncorrectable s site)

/-! ### The pacer (R303-R305, R391) -/

/-- REFILL to RES up to RCAP, the rest to BUD up to CAP. -/
def refillOne (b : Budget) : Budget :=
  let r := min b.refill (b.rcap - b.res)
  { b with res := b.res + r, bud := min b.cap (b.bud + (b.refill - r)) }

/-- What `takeUnits` takes from RES and from BUD. -/
def takenFrom (b : Budget) (prio : Bool) (u : Nat) : Nat × Nat := if prio then (min u b.res, u - b.res) else (0, u)

/-- A grant: the entry of the waiting list, and what it took. -/
structure Grant where
  squad : Nat
  cost : Nat
  debits : Bool
  taken : Nat × Nat
  deriving DecidableEq, Repr

/-- A squad is granted: its cost is taken, or, for EBUD.WAIT, only its wait ends. -/
def grantSquad (s : State) (g : Grant) : State :=
  modSquad s g.squad fun q =>
    let q := { q with granted := true, taken := g.taken }
    if g.debits then { countDebit g.cost q with wait := none } else q

/-- Grants from the head of a list while they fit; `prio` spends RES too. -/
def grantList (prio : Bool) : List (Nat × Nat × Bool) → Budget → List (Nat × Nat × Bool) × Budget × List Grant
  | [], b => ([], b, [])
  | e :: r, b =>
    if e.2.1 ≤ spendable b prio then
      let k := grantList prio r (if e.2.2 then takeUnits b prio e.2.1 else b)
      (k.1, k.2.1, ⟨e.1, e.2.1, e.2.2, if e.2.2 then takenFrom b prio e.2.1 else (0, 0)⟩ :: k.2.2)
    else (e :: r, b, [])

/-- One context's refill and grants on one die. -/
def refillKey (s : State) (k : Nat) : State :=
  match aget s.budgets k with
  | none => s
  | some b =>
    let b := refillOne b
    let p := grantList true b.prio b
    let g := grantList false b.gen p.2.1
    let s := { s with budgets := aput s.budgets k { g.2.1 with prio := p.1, gen := g.1 } }
    (p.2.2 ++ g.2.2).foldl grantSquad s

/-- The pacer's refill at a multiple of 1,000 ns: caps start anew, then refills and grants. -/
def pacerRefill (s : State) : State :=
  if s.refills < s.time / 1000 then
    let s := { s with
      refills := s.refills + 1
      squads := s.squads.map fun (e : Nat × Squad) =>
        (e.1, { e.2 with ebudDeb := 0, wait := if e.2.wait = some Wait.capped then none else e.2.wait }) }
    (s.budgets.map fun (e : Nat × Budget) => e.1).foldl refillKey s
  else s

def execPacerRefill (s : State) : Out := .next (pacerRefill s)

/-- This tick is a refill's, and that refill has been. -/
def refillNow (s : State) : Bool := s.time % 1000 == 0 && s.refills == s.time / 1000

/-- The registers of a context on a die are written; BUD and RES are 0. A refused write keeps them: REFILL not zero with CAP
below 64. -/
def pacerPut (s : State) (die ctx refill cap rcap : Nat) : State :=
  if refill % 2 ^ 32 ≠ 0 ∧ cap % 2 ^ 32 < 64 then s
  else
    let b := budgetOf s die ctx
    setBudget s die ctx { b with bud := 0, res := 0, refill := refill % 2 ^ 32, cap := cap % 2 ^ 32, rcap := rcap % 2 ^ 32 }

/-- A write; one at the tick of a refill counts as before it, so the new REFILL is added at once (R303). -/
def pacerWrite (s : State) (die ctx refill cap rcap : Nat) : State :=
  let s' := pacerPut s die ctx refill cap rcap
  if refill % 2 ^ 32 ≠ 0 ∧ cap % 2 ^ 32 < 64 then s'
  else if refillNow s then refillKey s' (budKey die ctx) else s'

def execPacerControlWrite (die : Via Nat) (ctx refill cap rcap : Nat) (s : State) : Out :=
  .next (mgmt s die.link fun s => if die.arg < 8 ∧ ctx < 64 then pacerWrite s die.arg ctx refill cap rcap else s)

/-! ### Host and peer accesses (R397-R399, R410, R411) -/

/-- BAR 2 of a link: log2 of its size, 1 GiB to 1 TiB. -/
def bar2Log (s : State) (link : Nat) : Nat := tget 30 s.bar2 link

/-- The window's base: aligned to the BAR size, and 0 under a BAR of 1 TiB. -/
def wbaseOf (s : State) (link : Nat) : Nat :=
  let z := bar2Log s link
  if z = 40 then 0 else tget 0 s.wbase link / 2 ^ z * 2 ^ z

/-- An access is made in pieces of 4 KiB at most: offset within the access, and length. -/
def hostPieces (off n : Nat) : List (Nat × Nat) :=
  (List.range (ceilDiv (off % 4096 + n) 4096)).map fun i =>
    let lo := max off (off / 4096 * 4096 + 4096 * i)
    (lo - off, min (off + n) (off / 4096 * 4096 + 4096 * (i + 1)) - lo)

/-- Where a piece is performed, when the table permits it and something answers (R398, R407). -/
def hostPlace (s : State) (link pa n : Nat) (write : Bool) : Option (Space × Nat) :=
  match placePa s pa write, placePa s (pa + n - 1) write with
  | .ok p, .ok _ => if permits (hostRight s (homeDie pa) link) write && !spaceDown s p.1 then some p else none
  | _, _ => none

/-- A write of a piece: without the Relaxed Ordering attribute it releases at `sys` (R399). -/
def hostPut (link pa : Nat) (relaxed : Bool) (s : State) (data : List Byte) : State :=
  match hostPlace s link pa data.length true with
  | none => s
  | some p =>
    logEv (wrBytes s p.1 p.2 data) (.access { accPut s (whoLink link) .H p.1 p.2 data.length with
      rel := if relaxed then none else some .sys })

/-- The pieces of a read: an acquire at `sys` each; none when one gets no answer. -/
def hostGet (link pa : Nat) : List (Nat × Nat) → State → State × Option (List Byte)
  | [], s => (s, some [])
  | e :: r, s =>
    match hostPlace s link (pa + e.1) e.2 false with
    | none => (s, none)
    | some p =>
      let k := hostGet link pa r
        (logEv s (.access { lookAcc s (whoLink link) .H p.1 p.2 e.2 with acq := some .sys }))
      (k.1, k.2.map (lookBytes s (whoLink link) .H p.1 p.2 e.2 ++ ·))

/-- An access of a link at an offset of BAR 2 is performed, as path H. -/
def hostPerform (s : State) (link off : Nat) (write relaxed : Bool) (data : List Byte) : State :=
  let pa := wbaseOf s link + off
  let ps := hostPieces pa data.length
  if 2 ≤ link ∨ 2 ^ bar2Log s link < off + data.length then (if write then s else reply s link none)
  else if write then ps.foldl (fun s e => hostPut link (pa + e.1) relaxed s ((data.drop e.1).take e.2)) s
  else
    match hostGet link pa ps s with
    | (s, r) => reply s link r

/-- Some piece of an access goes to a device that does not answer. -/
def hostDown (s : State) (link off n : Nat) (write : Bool) : Bool :=
  let pa := wbaseOf s link + off
  decide (link < 2) && decide (off + n ≤ 2 ^ bar2Log s link) && (hostPieces pa n).any fun e => match placePa s (pa + e.1) write with
    | .ok p => spaceDown s p.1
    | .error _ => false

/-- An access of a link: it waits for a device that does not answer, and behind one of its link that waits (R399, R410). -/
def hostAccess (s : State) (link off : Nat) (write relaxed : Bool) (data : List Byte) : State :=
  if (s.hostHeld.any fun r => r.link == link) || hostDown s link off data.length write then
    { s with hostHeld := s.hostHeld ++ [⟨link, off, write, relaxed, data, s.time, none⟩] }
  else hostPerform s link off write relaxed data

def execHostBar2Access (link : Nat) (off : Nat) (write : Bool) (relaxed : Bool) (data : List Byte) (s : State) : Out :=
  .next (ifReady s fun s => hostAccess s link off write relaxed data)

/-- Bytes that a peer's operation with its data touches, and whether it writes. -/
def peerSize (d : List Byte) : PeerOp → Nat
  | .read n _ => n
  | .write _ => d.length
  | .atomic _ wide .. | .cas wide .. => if wide then 8 else 4
  | .descRead | .descWrite _ => 64
  | .copyRead n => 64 * n
  | .copyWrite _ => d.length
def peerWrites : PeerOp → Bool
  | .read .. | .descRead | .copyRead _ => false
  | _ => true

/-- A read-modify-write at the home slice (R410): none in a POISON block. -/
def peerRmw (s : State) (w : Who) (so : AtomOrd) (pa n : Nat) (f : Nat → Option Nat) : State × Option (List Byte) :=
  if poisoned s .mem pa n then (s, some [])
  else
    let a : Acc := { accRd w .H (.bytes .mem pa n) with acq := ordAcq so }
    (match f (rdN s .mem pa n) with
     | some v => logEv (wrN s .mem pa n v) (.access { a with wr := true, rel := ordRel so, old := rdBytes s .mem pa n })
     | none => logEv s (.access a), some (rdBytes s .mem pa n))

/-- A peer's operation at its target's home slice, as path H, and the reply: bytes, none of them for a write. A read or an
atomic of a POISON block gets no bytes either, which tells the issuer to raise POISON (DESIGN CHOICE: the form of a reply is
not given). -/
def peerDo (s : State) (w : Who) (pa : Nat) (d : List Byte) : PeerOp → State × Option (List Byte)
  | .read n acq =>
    if poisoned s .mem pa n then (s, some [])
    else (logEv s (.access { lookAcc s w .H .mem pa n with acq := acq }), some (lookBytes s w .H .mem pa n))
  | .write rel => (logEv (wrBytes s .mem pa d) (.access { accPut s w .H .mem pa d.length with rel := rel }), some [])
  | .atomic op wide so x =>
    let n := if wide then 8 else 4
    peerRmw s w so pa n fun old => some (atomVal op (8 * n) old (x.toNat % 2 ^ (8 * n)))
  | .cas wide so c x =>
    let n := if wide then 8 else 4
    peerRmw s w so pa n fun old => if old = c.toNat % 2 ^ (8 * n) then some (x.toNat % 2 ^ (8 * n)) else none
  | .descRead => (logEv s (.access (accRd w .H (.desc .mem (pa / 64) 1))), some (leBytes 2 (rdTag s .mem (pa / 64)).toNat))
  | .descWrite x => (logEv (wrTag s .mem (pa / 64) x) (.access (accWr w .H (.desc .mem (pa / 64) 1))), some [])
  | .copyRead n =>
    (logEvs s [.access (lookAcc s w .H .mem pa (64 * n)), .access (accRd w .H (.desc .mem (pa / 64) n))],
      some (lookBytes s w .H .mem pa (64 * n) ++ (List.range n).flatMap fun i => leBytes 2 (rdTag s .mem (pa / 64 + i)).toNat))
  | .copyWrite ts =>
    let a := accPut s w .H .mem pa d.length
    let s := ts.zipIdx.foldl (fun s e => wrTag s .mem (pa / 64 + e.2) e.1) (wrBytes s .mem pa d)
    (logEvs s [.access a, .access (accWr w .H (.desc .mem (pa / 64) ts.length))], some [])

/-- A peer's access, when its memory is there and the table permits it; replies of peer `d` go by number 2 + d. -/
def peerAccess (s : State) (dev pa : Nat) (op : PeerOp) (data : List Byte) : State :=
  let last := pa + peerSize data op - 1
  if populated pa && populated last && permits (peerRight s (homeDie pa) dev) (peerWrites op) &&
      permits (peerRight s (homeDie last) dev) (peerWrites op) then
    match peerDo s (whoPeer dev) pa data op with
    | (s, r) => reply s (2 + dev) r
  else reply s (2 + dev) none

def execPeerAccessArrival (dev : Nat) (pa : Nat) (op : PeerOp) (data : List Byte) (s : State) : Out :=
  .next (ifReady s fun s => peerAccess s dev pa op data)

/-! ### Doorbells and events (R402, R403) -/

/-- The device reads `n` bytes of a context's submission ring, as path H. -/
def ringEv (s : State) (ctx va n : Nat) (acq : Option Scope) : State :=
  match translate s ctx va false with
  | .ok (sp, a) => logEv s (.access { accRd (whoDev s) .H (.bytes sp a n) with acq := acq })
  | .error _ => s

/-- The device writes bytes of a context's event ring, as path H. -/
def ringPut (s : State) (ctx va : Nat) (bs : List Byte) : State :=
  match translate s ctx va false with
  | .ok (sp, a) => logEv (devWrite s ctx va bs) (.access (accPut s (whoRing s ctx true) .H sp a bs.length))
  | .error _ => devWrite s ctx va bs

/-- Accept one descriptor of the submission ring: every host write that precedes the doorbell happens before every access of
the graph's nodes (R402). -/
def acceptOne (s : State) (ctx : Nat) : State :=
  let c := ctxOf s ctx
  let va := c.sqbase.toNat + 32 * (c.sqhead % 2 ^ c.sqlog2)
  let s := modCtx s ctx fun c => { c with sqhead := (c.sqhead + 1) % 2 ^ 32 }
  let s := logEvs s ([0, 1].map fun l => .release (whoLink l) 64 .sys (.graph s.nextId))
  let s := ringEv s ctx va 32 (some .sys)
  match (devReadN s ctx va 32).map (submitGraph s ctx (c.cflags.getLsbD 1) none) with
  | some (.ok (s, _)) => s
  | _ => (pushEvent s ctx 6 0 0 va 0).2

def acceptN (ctx : Nat) : Nat → State → State
  | 0, s => s
  | n + 1, s => acceptN ctx n (acceptOne s ctx)

def doorbell (s : State) (ctx n : Nat) : State :=
  let c := ctxOf s ctx
  let n := n % 2 ^ 32
  let a := (n + 2 ^ 32 - c.sqhead) % 2 ^ 32
  if !c.cflags.getLsbD 0 then s
  else if 2 ^ c.sqlog2 < a ∨ a < (c.sqtail + 2 ^ 32 - c.sqhead) % 2 ^ 32 then (pushEvent s ctx 7 0 0 0 n).2
  else if n = c.sqtail then s
  else acceptN ctx a (modCtx s ctx fun c => { c with sqtail := n })

/-- What a link asked for is performed: an access to BAR 2, or a doorbell. -/
def hostDo (s : State) (r : HostReq) : State :=
  match r.bell with
  | some b => doorbell s b.1 b.2
  | none => hostPerform s r.link r.off r.write r.relaxed r.data

/-- The oldest access of a link that waits is performed: its device answers again, or 20 us have passed, and what does not answer is
refused. What stood behind it waits from now. -/
def hostResume (s : State) (link : Nat) : State :=
  match s.hostHeld.find? fun r => r.link == link with
  | none => s
  | some r =>
    if r.bell.isNone && hostDown s link r.off r.data.length r.write && decide (s.time < r.since + 20000) then s
    else
      let rest := (s.hostHeld.erase r).map fun (k : HostReq) => if k.link = link then { k with since := s.time } else k
      hostDo { s with hostHeld := rest } r

/-- A doorbell: it is performed after every earlier write of its link (R399). DESIGN CHOICE: one whose link is not told follows every
access that waits; accesses to the management space wait for none. -/
def bell (s : State) (link : Option Nat) (ctx n : Nat) : State :=
  match s.hostHeld.reverse.find? fun r => link.all (· == r.link) with
  | some r => { s with hostHeld := s.hostHeld ++ [⟨r.link, 0, true, false, [], s.time, some (ctx, n)⟩] }
  | none => doorbell s ctx n

def execDoorbell (ctx n : Nat) (s : State) : Out := .next (ifReady s fun s => bell s none ctx n)

/-- An event as its 32 bytes. -/
def eventBytes (e : HostEv) : List Byte :=
  leBytes 4 e.token ++ leBytes 1 e.type ++ leBytes 1 e.code ++ leBytes 1 e.sub ++ leBytes 1 0 ++ leBytes 8 e.trec ++
    leBytes 8 e.addr ++ leBytes 8 e.time

/-- The oldest event goes to the ring when there is room; EQWRITE advances as a release at `sys`, and MSI-X follows
(R403). -/
def eventAppend (s : State) (ctx : Nat) : State :=
  let c := ctxOf s ctx
  match c.events with
  | [] => s
  | e :: r =>
    if (c.eqwrite + 2 ^ 32 - c.eqread) % 2 ^ 32 < 2 ^ c.eqlog2 then
      let va := c.eqbase.toNat + 32 * (c.eqwrite % 2 ^ c.eqlog2)
      let s := ringPut s ctx va (eventBytes e)
      let s := modCtx s ctx fun c => { c with events := r, eqwrite := (c.eqwrite + 1) % 2 ^ 32 }
      logEv { s with msix := s.msix ++ [ctx + 64 * (c.cflags.getLsbD 4).toNat] } (.release (whoRing s ctx true) 127 .sys (.events ctx))
    else s

def execEventAppend (ctx : Nat) (s : State) : Out := .next (eventAppend s ctx)

/-- A device event for every context that receives them. -/
def deviceEvent (s : State) (type code : Nat) : State :=
  (s.ctxs.filter fun e => e.2.cflags.getLsbD 5).foldl (fun s e => (pushEvent s e.1 type code 0 0 0).2) s

/-! ### Answers of the host (R383, R403) -/

/-- The answer that a token awaits, once its event has been appended. -/
def awaitOf (s : State) (ctx token : Nat) : Option Await :=
  let c := ctxOf s ctx
  if c.events.any fun e => e.token == token then none else c.awaiting.find? fun a => a.token == token

def takeAwait (s : State) (ctx token : Nat) : State :=
  modCtx s ctx fun c => { c with awaiting := c.awaiting.filter fun a => a.token != token }

/-- Time parked does not count as run time (R380). -/
def unparkTime (s : State) (task since : Nat) : State :=
  modTask s task fun t => { t with idle := t.idle + (s.time - max since t.runFrom) }

/-- A copy that is parked, in its engine or in a save. -/
def modParked (s : State) (id : Nat) (f : Copy → Copy) : State :=
  let g (c : Copy) : Copy := if c.id = id then f c else c
  { s with
    copies := s.copies.map g
    tasks := s.tasks.map fun e => (e.1, { e.2 with kept := e.2.kept.map fun k => { k with residual := k.residual.map g } }) }

/-- A parked frame command. -/
def modFrame (s : State) (id : Nat) (f : LfCmd → LfCmd) : State :=
  { s with lfCmds := s.lfCmds.map fun c => if c.id = id then f c else c }

def frespReplay (s : State) (ctx token : Nat) : State :=
  match awaitOf s ctx token with
  | none => s
  | some a =>
    match a.who with
    | .squad id =>
      let s := takeAwait s ctx token
      match squadOf s id with
      | some q => modSquad (unparkTime s q.task a.since) id fun q => { q with wait := none, fault := none }
      | none => s
    | .copy id => modParked (takeAwait s ctx token) id fun c => { c with parked := none }
    | .matrix _ => takeAwait s ctx token
    | .frame id => modFrame (takeAwait s ctx token) id fun c => { c with parked := none }
    | .node _ => s

def execFrespReplay (ctx : Via Nat) (token : Nat) (s : State) : Out :=
  .next (mgmt s ctx.link fun s => frespReplay s ctx.arg token)

/-- A fault that the host makes fatal: of a squad it is delivered, of an engine it kills (R383); a resolve's is told to its word
(R350). -/
def frespFatal (s : State) (ctx token : Nat) : State :=
  match awaitOf s ctx token with
  | none => s
  | some a =>
    match a.who with
    | .squad id =>
      let s := takeAwait s ctx token
      match squadOf s id with
      | none => s
      | some q =>
        let s := modSquad (unparkTime s q.task a.since) id fun q => { q with wait := none, atomDone := none }
        if ((taskOf s q.task).map (·.saved)).getD true then s else settleFault s id
    | .copy id =>
      let s := takeAwait s ctx token
      match copyOf s id with
      | some c => stopCopy s c (a.code, a.sub) a.addr
      | none =>
        match (s.tasks.flatMap fun e => (e.2.kept.map (·.residual)).getD []).find? fun c => c.id == id with
        | some c => engineFault (copyTell s c (a.code, a.sub)) c.task c.node (engineRec s c.core c.sidx c.pc (a.code, a.sub) a.addr true)
        | none => s
    | .matrix core =>
      let s := takeAwait s ctx token
      match queueOf s core with
      | c :: _ => engineFault s c.task none (engineRec s core c.sidx c.pc (a.code, a.sub) a.addr true)
      | [] => s
    | .frame id =>
      let s := takeAwait s ctx token
      match s.lfCmds.find? fun c => c.id == id with
      | some c => frameFault (frameDone s c) c (a.code, a.sub)
      | none => s
    | .node _ => s

def execFrespFatal (ctx : Via Nat) (token : Nat) (s : State) : Out :=
  .next (mgmt s ctx.link fun s => frespFatal s ctx.arg token)

/-- The host callback node that a token is about. -/
def awaitNode (s : State) (ctx token : Nat) : Option Nat :=
  match awaitOf s ctx token with
  | some ⟨_, .node id, _, _, _, _⟩ => some id
  | _ => none

/-- A host link's accesses become the node's own, and the node completes: a release at `sys` (R367, R403). -/
def completeHostNode (s : State) (m : Option Nat) (id : Nat) : State :=
  let s := match m with
    | some l => logEvs s [.release (whoLink l) 64 .sys (.towards id), .acquire (whoNode s id) 127 .sys [.towards id]]
    | none => s
  nodeDone s id

def execFrespCompleteNode (ctx : Via Nat) (token : Nat) (s : State) : Out :=
  .next (mgmt s ctx.link fun s =>
    match awaitNode s ctx.arg token with
    | some id => completeHostNode (takeAwait s ctx.arg token) ctx.link id
    | none => s)

/-- The node ends with TRAP 0xFF. -/
def endHostNode (s : State) (id : Nat) : State :=
  match nodeOf s id with
  | none => s
  | some n => nodeFail (writeFrec s n.ctx n.va ⟨0x10, 0xFF, n.die * 128, 0xFF, 0xFF, 0, 0, s.time, false⟩ false) id 0x10 0xFF s.time

def execFrespEndNode (ctx : Via Nat) (token : Nat) (s : State) : Out :=
  .next (mgmt s ctx.link fun s =>
    match awaitNode s ctx.arg token with
    | some id => endHostNode (takeAwait s ctx.arg token) id
    | none => s)

/-! ### Translation invalidation (R404) -/

def invalStart (s : State) (ctx count vpn : Nat) : State :=
  if (ctxOf s ctx).invBusy then s
  else modCtx s ctx fun c => { c with invBusy := true, invCount := count % 2 ^ 27, invVpn := vpn % 2 ^ 36 }

def execInval (ctx : Via Nat) (count vpn : Nat) (s : State) : Out :=
  .next (mgmt s ctx.link fun s => invalStart s ctx.arg count vpn)

def invalDone (s : State) (ctx : Nat) : State :=
  let c := ctxOf s ctx
  if !c.invBusy then s
  else
    let hit (e : CachedPage) : Bool := e.ctx == ctx &&
      (c.invCount == 0 || (decide (c.invVpn ≤ e.page) && decide (e.page < c.invVpn + c.invCount)))
    modCtx { s with tlb := s.tlb.filter fun e => !hit e } ctx fun c => { c with invBusy := false }

def execInvalidationComplete (ctx : Nat) (s : State) : Out := .next (invalDone s ctx)

/-! ### Present channels, counters, debug, readback (R358, R400, R405, R408) -/

def execPresentChannelWrite (ch : Via Nat) (x : BitVec 128) (s : State) : Out :=
  .next (mgmt s ch.link fun s => if ch.arg < 64 then channelWrite s ch.arg x else s)

/-- The counters of R358 start anew. -/
def countersZero (s : State) : State :=
  { s with stats := [], channels := s.channels.map fun e => (e.1, { e.2 with frames := 0, miss := 0, late := 0 }) }

/-- As the management controller asks it; a host link's is the access `MgmtOp.counterReset`, with its right. -/
def execCounterReset (s : State) : Out := .next (mgmt s none countersZero)

def debugOf (s : State) (core : Nat) : BitVec 64 := tget 0 s.debug core
/-- STOP is set (R408). -/
def stopped (s : State) (core : Nat) : Bool := (debugOf s core).getLsbD 0
def setDebug (s : State) (core hi lo x : Nat) : State :=
  { s with debug := tset 0 s.debug core (BitVec.ofNat 64 (setBits (debugOf s core).toNat hi lo x)) }

def execDebugStop (core : Via Nat) (s : State) : Out := .next (mgmt s core.link fun s => setDebug s core.arg 0 0 1)

/-- A squad has no result left to be written (R27): the token of a BAR.ARV and what an LF.SPAN writes count. -/
def settled (s : State) (id : Nat) (q : Squad) : Bool := q.pend.isEmpty && !s.spans.any fun r => r.squad == id
/-- STOPPED: every squad of the core has stopped at an instruction boundary, and has settled (R408, R438). -/
def halted (s : State) (core : Nat) : Bool :=
  stopped s core && s.squads.all fun e => e.2.core != core || settled s e.1 e.2

/-- A squad that the debugger stopped at BKPT goes on (R151). -/
def resumeBkpt (q : Squad) : Squad := { q with wait := if q.wait = some .debugger then none else q.wait }
/-- STOP is cleared: the core's squads go on, those stopped at BKPT too. -/
def debugResume (s : State) (core : Nat) : State :=
  let s := setDebug s core 0 0 0
  { s with squads := s.squads.map fun (e : Nat × Squad) => (e.1, if e.2.core = core then resumeBkpt e.2 else e.2) }

/-- The squad in a slot of a core: resident squads in order of residence. -/
def slotSquad (s : State) (core slot : Nat) : Option (Nat × Squad) :=
  (s.squads.filter fun e => e.2.core == core && ((taskOf s e.2.task).map fun t => !t.saved).getD false)[slot]?

/-- The path that a step issues: the selected one, else the first. -/
def stepPath (s : State) (q : Squad) (core : Nat) : Option Nat :=
  let d := (debugOf s core).toNat
  let first := (runningPath q).map (·.entry)
  if d.testBit 47 ∧ q.paths.any (fun p => p.entry == bits d 42 40) then some (bits d 42 40) else first

/-- A squad of a stopped core is to issue one instruction next (R155). -/
def debugStep (s : State) (core slot : Nat) : State :=
  let s := setDebug s core 38 32 slot
  match slotSquad s core slot with
  | none => s
  | some (id, q) =>
    match stepPath s q core with
    | some e =>
      if halted s core then
        { modSquad s id (fun q => { resumeBkpt q with select := some e }) with agenda := .issue id :: s.agenda }
      else s
    | none => s

def execDebugStep (core : Via Nat) (slot : Nat) (s : State) : Out :=
  .next (mgmt s core.link fun s => debugStep s core.arg slot)

/-! ### Readback (R408)

The manual gives the units no numbers, and lays out neither relay queues nor barrier slots. DESIGN CHOICE: an access names its unit,
and reaches it when the readback select register names its die and core; what the device holds of a core's queues, and of the barrier
objects that a core or a die homes, shows one after another in order of their places, each as the numbers of its fields and then its
lists. -/

/-- Die and core (128 x die + core) that the select register names. -/
def selectCore (s : State) : Nat := bits s.readback.toNat 2 0 * 128 + bits s.readback.toNat 9 3

/-- Core of a unit; none for the units of a die. -/
def unitCore (s : State) : ReadbackUnit → Option Nat
  | .vreg id .. | .sreg id _ | .pred id _ | .brec id _ | .squadByte id _ => (squadOf s id).map (·.core)
  | .scratch c _ | .scratchTag c _ | .slotByte c .. | .sidecarByte c .. | .slotState c _ | .acc c .. | .accFlags c _
  | .instrByte c .. | .queueByte c _ | .barrierByte c _ => some c
  | .copyByte id _ => (copyOf s id).map (·.core)
  | .memTag _ | .cacheTag .. | .cacheByte .. => none
/-- Die of a unit. -/
def unitDie (s : State) (u : ReadbackUnit) : Option Nat :=
  match u with
  | .memTag b => some (homeDie (b * 64))
  | .cacheTag d _ | .cacheByte d .. => some d
  | u => (unitCore s u).map (· / 128)
/-- The select register names the unit's die, and its core if it has one. -/
def selected (s : State) (u : ReadbackUnit) : Bool :=
  unitDie s u == some (selectCore s / 128) && (unitCore s u).all (· == selectCore s)

/-- A squad in the layout of the save area. -/
def squadImage (s : State) (q : Squad) : List Byte := squadBytes s q ++ vregBytes q (trOf s q).regs
def nthByte (l : List Byte) (i : Nat) : Byte := (l[i]?).getD 0

/-- A place in 16 bytes. -/
def locBytes (l : AwLoc) : List Byte :=
  leBytes 8 (match l.sp with | .mem => 1 | .scr c => 2 + 256 * c | .peer d => 3 + 256 * d) ++ leBytes 8 l.addr
def locFrom (n : Nat) : AwLoc :=
  ⟨if n % 256 = 2 then .scr (n / 256 % 2 ^ 56) else if n % 256 = 3 then .peer (n / 256 % 2 ^ 56) else .mem, n / 2 ^ 64 % 2 ^ 64⟩
/-- A list of numbers in 8 bytes each, and back from byte `o` on. -/
def numBytes (l : List Nat) : List Byte := l.flatMap (leBytes 8)
def numFrom (n o len : Nat) : List Nat := (List.range len).map fun i => fieldAt n (o + 8 * i) 8

/-- What the device holds of a relay queue: 16 bytes, then its blocked pushers and poppers. -/
def queueImage (k : Nat) (q : QueueDev) (ls : List Nat × List Nat) : List Byte :=
  leBytes 4 (k % 2 ^ 20) ++ leBytes 1 q.log2n ++ leBytes 1 (scopeNo q.scope) ++ leBytes 2 q.closed.toNat ++ leBytes 4 q.owner ++
    leBytes 2 ls.1.length ++ leBytes 2 ls.2.length ++ numBytes (ls.1 ++ ls.2)
/-- The queue and its lists, of the lengths they have, from an image. -/
def queueFrom (n : Nat) (ls : List Nat × List Nat) : QueueDev × List Nat × List Nat :=
  (⟨fieldAt n 4 1, fieldAt n 8 4, scopeOf (fieldAt n 5 1), (fieldAt n 6 1).testBit 0⟩,
    numFrom n 16 ls.1.length, numFrom n (16 + 8 * ls.1.length) ls.2.length)

/-- What the device holds of a barrier object: 40 bytes, then its lists. -/
def barImage (k : Nat) (b : BarDev) : List Byte :=
  leBytes 8 k ++ leBytes 4 b.inst ++ leBytes 4 b.parent.isSome.toNat ++ locBytes (b.parent.getD ⟨.mem, 0⟩) ++
    leBytes 2 b.kids.length ++ leBytes 2 b.arrivers.length ++ leBytes 4 b.arrs.length ++
    b.kids.flatMap locBytes ++ numBytes (b.arrivers ++ b.arrs)
def barFrom (n : Nat) (b : BarDev) : BarDev :=
  let o := 40 + 16 * b.kids.length
  { inst := fieldAt n 8 4
    parent := if (fieldAt n 12 1).testBit 0 then some (locFrom (fieldAt n 16 16)) else none
    kids := (List.range b.kids.length).map fun i => locFrom (fieldAt n (40 + 16 * i) 16)
    arrivers := numFrom n o b.arrivers.length
    arrs := numFrom n (o + 8 * b.arrivers.length) b.arrs.length }

/-- The images of a core's queues and barrier objects, each with its key; the objects in a die's memory go with its core 0. -/
def queueImages (s : State) (core : Nat) : List (Nat × List Byte) :=
  (s.queues.filter fun e => e.1 / 2 ^ 20 == core).map fun e => (e.1, queueImage e.1 e.2 ((aget s.qWaits e.1).getD ([], [])))
def barImages (s : State) (core : Nat) : List ((Bool × Nat) × List Byte) :=
  ((s.barsScr.filter fun e => e.1 / 2 ^ 20 == core).map fun e => ((true, e.1), barImage e.1 e.2)) ++
    (s.bars.filter fun e => core % 128 == 0 && (locOfKey false e.1).sp == .mem && homeDie e.1 == core / 128).map fun e =>
      ((false, e.1), barImage e.1 e.2)

/-- The image that byte `o` of several in a row lies in, and where in it. -/
def imageAt {α : Type} : List (α × List Byte) → Nat → Option (α × List Byte × Nat)
  | [], _ => none
  | e :: r, o => if o < e.2.length then some (e.1, e.2, o) else imageAt r (o - e.2.length)
def imageByte {α : Type} (l : List (α × List Byte)) (o : Nat) : List Byte :=
  [((imageAt l o).map fun e => nthByte e.2.1 e.2.2).getD 0]

/-- Byte `o` of a core's queues or barrier objects is written. -/
def queuePut (s : State) (core o : Nat) (x : Byte) : State :=
  match imageAt (queueImages s core) o with
  | none => s
  | some (k, b, i) =>
    let r := queueFrom (leVal (b.set i x)) ((aget s.qWaits k).getD ([], []))
    let s := { s with queues := aput s.queues k r.1 }
    if (aget s.qWaits k).isSome then { s with qWaits := aput s.qWaits k r.2 } else s
def barrierPut (s : State) (core o : Nat) (x : Byte) : State :=
  match imageAt (barImages s core) o with
  | none => s
  | some ((scr, k), b, i) =>
    let f (b' : BarDev) : BarDev := barFrom (leVal (b.set i x)) b'
    if scr then { s with barsScr := amod s.barsScr k f } else { s with bars := amod s.bars k f }

/-- The task that holds a slot of a core, and the slot's name in it. -/
def slotHolder (s : State) (core slot : Nat) : Option (Nat × Nat) :=
  (residents s core).findSome? fun e => (e.2.slots.findIdx? (· == slot)).map fun j => (e.1, j)
/-- A slot is claimed. -/
def slotClaimed (s : State) (core slot : Nat) : Bool :=
  (slotHolder s core slot).any fun h => ((taskOf s h.1).map (·.claimed)).any (·.contains h.2)
/-- The claim and the extents of a slot, written. -/
def slotStatePut (s : State) (core slot n : Nat) : State :=
  let s := setExt s core slot (bits n 14 8, bits n 24 16)
  match slotHolder s core slot with
  | some (t, j) => modTask s t fun t => { t with claimed := t.claimed.filter (· ≠ j) ++ if n.testBit 0 then [j] else [] }
  | none => s

/-- The line is in the die's cache. -/
def cached (s : State) (die line : Nat) : Bool := tget 0 s.dcache (cacheKey die line) != 0

/-- The bytes of a unit. -/
def unitBytes (s : State) (u : ReadbackUnit) : List Byte :=
  let ofSquad (id : Nat) (f : Squad → List Byte) : List Byte := ((squadOf s id).map f).getD []
  match u with
  | .vreg id r t => ofSquad id fun q => leBytes 4 (rdV q (r % 256) (t % 32)).toNat
  | .sreg id r => ofSquad id fun q => leBytes 8 (rdS q (r % 64)).toNat
  | .pred id r => ofSquad id fun q => leBytes 4 (maskOf fun t => rdP q (r % 32) t).toNat
  | .brec id r => ofSquad id fun q => leBytes 32 (rdB q (r % 16)).toNat
  | .squadByte id o => ofSquad id fun q => [nthByte (squadImage s q) o]
  | .scratch c a => [rdByte s (.scr c) a]
  | .scratchTag c b => leBytes 2 (rdTag s (.scr c) b).toNat
  | .slotByte c k o => [rdSlot s c (k % 64) (o % 8192)]
  | .sidecarByte c k o => [rdSide s c (k % 64) (o % 2336)]
  | .slotState c k =>
    leBytes 32 ((slotClaimed s c (k % 64)).toNat + (extOf s c (k % 64)).1 % 128 * 2 ^ 8 + (extOf s c (k % 64)).2 % 512 * 2 ^ 16)
  | .acc c row col => leBytes 4 (rdAcc s c (row % 2048) (col % 64))
  | .accFlags c k => leBytes 64 (rdAccFlg s c (k % 32)).toNat
  | .instrByte c bank o => [tget 0xFF#8 s.imem (imemKey c (bank % 2 == 1) (o % 65536))]
  | .memTag b => leBytes 2 (rdTag s .mem b).toNat
  | .cacheTag d l => leBytes 1 (tget 0 s.dcache (cacheKey d l))
  | .cacheByte d l o => if cached s d l then [rdByte s .mem (l * 256 + o % 256)] else [0]
  | .queueByte c o => imageByte (queueImages s c) o
  | .copyByte id o => ((copyOf s id).map fun c => [nthByte (residualBytes c) o]).getD []
  | .barrierByte c o => imageByte (barImages s c) o

/-- A write to a stored unit. -/
def unitWrite (s : State) (u : ReadbackUnit) (x : Rec) : State :=
  let n := x.toNat
  match u with
  | .vreg id r t => modSquad s id fun q => { q with v := tset 0 q.v (r % 256 * 32 + t % 32) (BitVec.ofNat 32 n) }
  | .sreg id r => modSquad s id fun q => { q with s := tset 0 q.s (r % 64) (BitVec.ofNat 64 n) }
  | .pred id r => modSquad s id fun q => if r % 32 = 0 then q else { q with p := tset 0 q.p (r % 32) (BitVec.ofNat 32 n) }
  | .brec id r => modSquad s id fun q => { q with b := tset 0 q.b (r % 16) x }
  | .squadByte id o => modSquad s id fun q =>
      squadFrom (leVal ((squadImage s q).set o (BitVec.ofNat 8 n))) (trOf s q).regs q
  | .scratch c a => if a < Config.scratchBytes then wrByte s (.scr c) a (BitVec.ofNat 8 n) else s
  | .scratchTag c b => if b < Config.scratchBytes / 64 then wrTag s (.scr c) b (BitVec.ofNat 16 n) else s
  | .slotByte c k o => wrSlot s c (k % 64) (o % 8192) (BitVec.ofNat 8 n)
  | .sidecarByte c k o => wrSide s c (k % 64) (o % 2336) (BitVec.ofNat 8 n)
  | .slotState c k => slotStatePut s c (k % 64) n
  | .acc c row col => wrAcc s c (row % 2048) (col % 64) n
  | .accFlags c k => { s with accFlg := tset 0 s.accFlg (c * 32 + k % 32) (BitVec.ofNat 5 n) }
  | .instrByte c bank o => { s with imem := tset 0xFF#8 s.imem (imemKey c (bank % 2 == 1) (o % 65536)) (BitVec.ofNat 8 n) }
  | .memTag b => if populated (b * 64) then wrTag s .mem b (BitVec.ofNat 16 n) else s
  | .cacheTag d l => { s with dcache := tset 0 s.dcache (cacheKey d l) (min 2 (n % 4)) }
  | .cacheByte d l o => if cached s d l then wrByte s .mem (l * 256 + o % 256) (BitVec.ofNat 8 n) else s
  | .queueByte c o => queuePut s c o (BitVec.ofNat 8 n)
  | .copyByte id o => { s with copies := s.copies.map fun c =>
      if c.id = id then residualFrom (leVal ((residualBytes c).set o (BitVec.ofNat 8 n))) c else c }
  | .barrierByte c o => barrierPut s c o (BitVec.ofNat 8 n)

/-- Only while the selected core is stopped; otherwise refused. -/
def readbackPut (s : State) (u : ReadbackUnit) (x : Rec) : State :=
  if selected s u && halted s (selectCore s) then unitWrite s u x else s

def execReadbackWrite (u : Via ReadbackUnit) (x : Rec) (s : State) : Out :=
  .next (mgmt s u.link fun s => readbackPut s u.arg x)

/-! ### Management writes (R400, R401, R405-R412) -/

/-- A graph of the context has not ended (R401). -/
def ctxLive (s : State) (ctx : Nat) : Bool := s.graphs.any fun e => e.2.ctx == ctx && !e.2.ended

/-- CFLAGS: bit 0 stays while a graph runs; enabling a context fixes %dev. -/
def writeFlags (s : State) (ctx : Nat) (x : W64) : State :=
  let old := (ctxOf s ctx).cflags
  let x := x &&& 0x3F
  let x := if ctxLive s ctx then (x &&& 0x3E) ||| (old &&& 1) else x
  let s := modCtx s ctx fun c => { c with cflags := x }
  if x.getLsbD 0 then { s with devFixed := true } else s

/-- The register of an access exists. -/
def mgmtThere (w : MgmtOp) : Bool :=
  match w with
  | .wbase l _ | .bar2 l _ => decide (l < 2)
  | .ctxPtroot c _ | .ctxFlags c _ | .ctxFbctl c _ | .ctxSqbase c _ | .ctxSqlog2 c _ | .ctxTrapovl c _ | .ctxEqbase c _
  | .ctxEqlog2 c _ | .ctxEqread c _ | .rmapBit c .. | .epochBump c => decide (c < 64)
  | .peerWindow n _ => decide (n < 224)
  | .accessHost t l _ => decide (t ≤ 8) && decide (l < 2)
  | .accessPeer t d _ => decide (t ≤ 8) && decide (d < 2048)
  | .debugClear c | .debugPath c .. => decide (c < 1024)
  | _ => true

/-- Who acts for a master: its link, or the device for the management controller. -/
def whoMaster (s : State) (m : Option Nat) : Who := (m.map whoLink).getD (whoDev s)

/-- A residency bit, set or cleared by the host as `rmap.set` and `rmap.clr` do it (R210, R215). DESIGN CHOICE: the host names the
map's byte by its virtual address, and the bit in it, as R400 lays out no register for this; where the byte has no translation or
may not be written, nothing happens and nothing is told. -/
def hostBit (s : State) (m : Option Nat) (ctx va bit : Nat) (v : Bool) : State :=
  match translate s ctx va true with
  | .ok (sp, a) => rmapOne s (whoMaster s m) sp a (bit % 8) v
  | .error _ => s

/-- The host advances a context's LOD epoch as `rmap.bump` does (R210). DESIGN CHOICE: by an access that names the context; R400 lays
out no register for it. -/
def hostBump (s : State) (m : Option Nat) (ctx : Nat) : State :=
  let e := (ctxOf s ctx).epoch + 1
  logEv (modCtx s ctx fun k => { k with epoch := e }) (.release (whoMaster s m) 127 .sys (.lodep ctx e))

def managementPut (s : State) (m : Option Nat) (w : MgmtOp) : State :=
  match w with
  | .dev x => if s.devFixed then s else { s with dev := x % 2048 }
  | .wbase link x => { s with wbase := tset 0 s.wbase link x }
  | .bar2 link z => if 30 ≤ z ∧ z ≤ 40 then { s with bar2 := tset 30 s.bar2 link z } else s
  | .ctxPtroot c x => if ctxLive s c then s else modCtx s c fun k => { k with ptroot := x &&& 0xFFFFFF0001 }
  | .ctxFlags c x => writeFlags s c x
  | .ctxFbctl c x => modCtx s c fun k => { k with fbctl := x }
  | .ctxSqbase c x => if ctxLive s c then s else modCtx s c fun k => { k with sqbase := x }
  | .ctxSqlog2 c x => if x ≤ 16 then modCtx s c fun k => { k with sqlog2 := x } else s
  | .ctxTrapovl c x => modCtx s c fun k => { k with trapovl := x }
  | .ctxEqbase c x => modCtx s c fun k => { k with eqbase := x }
  | .ctxEqlog2 c x => if 4 ≤ x ∧ x ≤ 16 then modCtx s c fun k => { k with eqlog2 := x } else s
  | .ctxEqread c x => modCtx s c fun k => { k with eqread := x % 2 ^ 32 }
  | .frameTeams x => { s with teams := BitVec.ofNat 8 x }
  | .peerWindow n x => { s with windows := tset 0 s.windows n (x &&& (0xFFF80000000007FF : W64)) }
  | .accessHost t l a => { s with hostAcc := tset 3 s.hostAcc (t * 2 + l) (if a % 4 = 2 then 0 else a % 4) }
  | .accessPeer t d a => { s with peerAcc := tset 0 s.peerAcc (t * 2048 + d) (if a % 4 = 2 then 0 else a % 4) }
  | .tbroot x => { s with timebase := { s.timebase with root := x } }
  | .tbport x => { s with timebase := { s.timebase with port := x } }
  | .readbackSelect x => { s with readback := BitVec.ofNat 16 x }
  | .debugClear core => debugResume s core
  | .debugPath core v p => setDebug (setDebug s core 47 47 v.toNat) core 42 40 p
  | .debugAttach on => { s with debugger := on }
  | .rmapBit c va b v => hostBit s m c va b v
  | .epochBump c => hostBump s m c
  | .counterReset => countersZero s
  | .read _ | .readAt .. | .writeAt .. | .bar4 .. => s

/-! ### Management reads (R400, R401, R404-R420) -/

/-- A firmware slot; slot 0 holds the factory image until it is written. -/
def firmwareOf (s : State) (k : Nat) : Firmware :=
  (aget s.firmware k).getD
    (if k = 0 then ⟨Config.factoryImage, Config.factoryKey, Config.factorySig, 0, true, false⟩ else ⟨[], [], [], 0, false, false⟩)

/-- A context entry as its 256 bytes (R401). -/
def ctxBytes (c : Ctx) : List Byte :=
  leBytes 8 c.ptroot.toNat ++ leBytes 8 c.cflags.toNat ++ leBytes 8 c.fbctl.toNat ++ leBytes 8 c.sqbase.toNat ++
    leBytes 4 c.sqlog2 ++ leBytes 4 c.sqhead ++ leBytes 8 c.sqtail ++ leBytes 8 c.trapovl.toNat ++ leBytes 8 c.eqbase.toNat ++
    leBytes 4 c.eqlog2 ++ leBytes 4 c.eqwrite ++ leBytes 8 c.eqread ++ leBytes 8 0 ++
    leBytes 8 (c.invBusy.toNat * 2 ^ 63 + c.invCount * 2 ^ 36 + c.invVpn) ++ leBytes 160 0

/-- An access table as its 1,024 bytes (R407). -/
def tableBytes (s : State) (t : Nat) : List Byte :=
  if t > 8 then leBytes 1024 0
  else
    leBytes 64 (hostRight s t 0 + 4 * hostRight s t 1) ++
      ((List.range 512).map fun b => BitVec.ofNat 8
        ((List.range 4).foldl (fun n i => n + peerRight s t (4 * b + i) * 4 ^ i) 0)) ++ leBytes 448 0

/-- An ageing entry; all ones of EOLH at reset. -/
def ageingOf (s : State) (i : Nat) : BitVec 64 := tget 0xFFFFFFFF s.ageing i

/-- The debug control register of a core as it reads: STOPPED follows the squads. -/
def debugRead (s : State) (core : Nat) : Nat := setBits (debugOf s core).toNat 1 1 (halted s core).toNat

/-- What a register reads as, as its bytes. DESIGN CHOICE: TBSTAT shows LOCKED in bit 0 and LOST in bit 1; the power and thermal block,
of which R417 gives no register, reads as free values. -/
def regBytes (s : State) (r : MgmtReg) : List Byte :=
  match r with
  | .ids => leBytes 4 (Config.openValue 6 0)
  | .dev => leBytes 8 s.dev
  | .version => leBytes 8 (firmwareOf s s.running).version
  | .ready => leBytes 8 s.ready.toNat
  | .wbase l => leBytes 8 (wbaseOf s l)
  | .ctxEntry c => ctxBytes (ctxOf s c)
  | .pacer d c =>
    let b := budgetOf s d c
    leBytes 4 b.refill ++ leBytes 4 b.cap ++ leBytes 4 b.rcap ++ leBytes 4 0
  | .channel k => leBytes 64 (channelOf s k).reg.toNat
  | .frameTeams => leBytes 8 s.teams.toNat
  | .peerWindow n => leBytes 8 (tget 0 s.windows n).toNat
  | .accessTable t => tableBytes s t
  | .tbroot => leBytes 8 s.timebase.root
  | .tbport => leBytes 8 s.timebase.port
  | .tbstat => leBytes 8 (s.timebase.locked.toNat + 2 * s.timebase.lost.toNat)
  | .corrected i => leBytes 8 (tget 0 s.corrected i)
  | .ageing i => leBytes 8 (ageingOf s i).toNat
  | .power i => leBytes 8 (Config.openValue (16 + i) s.ctr)
  | .report => s.report
  | .debug c => leBytes 8 (debugRead s c)
  | .readbackSelect => leBytes 8 s.readback.toNat
  | .readback u => if selected s u then unitBytes s u else []
  | .epoch c => leBytes 4 (ctxOf s c).epoch
  | .done c => leBytes 4 (ctxOf s c).done

/-- The identity block: any link may read it, and it answers before firmware has started the dies (R400, R419). -/
def identityReg : MgmtReg → Bool
  | .ids | .dev | .version | .ready | .wbase _ => true
  | _ => false
def identityWrite (s : State) (w : MgmtOp) : Bool := s.powered && (w matches .dev _ | .wbase ..)

/-- Replies to the management controller go by number 2050. -/
def masterNo (m : Option Nat) : Nat := m.getD 2050

/-- What a read acquires: EQWRITE, in the context's entry, the events before it (R403); DONE, the walks that have finished (R210). -/
def sawReg (s : State) (m : Option Nat) (r : MgmtReg) : State :=
  match r with
  | .ctxEntry c => logEv s (.acquire (whoMaster s m) 127 .sys [.events c])
  | .done c => logEv s (.acquire (whoMaster s m) 127 .sys [.lodep c (ctxOf s c).done])
  | _ => s

/-- A read of a register. -/
def mgmtRead (s : State) (m : Option Nat) (r : MgmtReg) : State :=
  if !s.powered || (!s.ready && !identityReg r) then s
  else if identityReg r || mayManage s m false then
    let s := sawReg s m r
    reply s (masterNo m) (some (regBytes s r))
  else reply s (masterNo m) none

/-! ### Onaler ports (R409, R415) -/

def modPort (s : State) (n : Nat) (f : Port → Port) : State := { s with ports := aput s.ports n (f (portOf s n)) }

/-- A port after 8 consecutive failures takes no flit until it has retrained. -/
def mustRetrain (p : Port) : Bool := decide (8 ≤ p.fails)

/-- A good flit counts as traffic, and as a heartbeat when it is one; a bad one is resent. DESIGN CHOICE: a neighbour declared
lost stays so until its port trains again. -/
def flitReceive (s : State) (n : Nat) (crcOk beat : Bool) : State :=
  let p := portOf s n
  if !p.up || mustRetrain p then s
  else if crcOk then
    modPort s n fun p => { p with fails := 0, lastFlit := s.time, lastBeat := if beat then s.time else p.lastBeat }
  else modPort s n fun p => { p with fails := p.fails + 1 }

def execFlitReceive (port : Nat) (crcOk beat : Bool) (s : State) : Out := .next (flitReceive s port crcOk beat)

def execPortRetrain (port : Nat) (laneFailed : Bool) (s : State) : Out :=
  .next (if (portOf s port).up ∧ mustRetrain (portOf s port) = true then
      modPort s port fun p => { p with fails := 0, lanes := if laneFailed then 4 else p.lanes }
    else s)

/-- No flit for 1 ms. -/
def portDown (s : State) (n : Nat) : State :=
  if (portOf s n).up ∧ (portOf s n).lastFlit + 1000000 ≤ s.time then
    deviceEvent (modPort s n fun p => { p with up := false }) 3 n
  else s

def execPortDown (port : Nat) (s : State) : Out := .next (portDown s port)

def execHeartbeatSend (port : Nat) (s : State) : Out :=
  .next (if (portOf s port).up ∧ (portOf s port).sentBeat + 50000 ≤ s.time then
      modPort s port fun p => { p with sentBeat := s.time }
    else s)

/-- No heartbeat for 200 us: the neighbour is lost. -/
def heartbeatLoss (s : State) (n : Nat) : State :=
  if (portOf s n).up ∧ !(portOf s n).lost ∧ (portOf s n).lastBeat + 200000 ≤ s.time then
    deviceEvent (modPort s n fun p => { p with lost := true }) 3 n
  else s

def execHeartbeatLoss (port : Nat) (s : State) : Out := .next (heartbeatLoss s port)

/-- A port trains; an engine's access that has not yet waited 20 us gets its answer again (R410). -/
def trainPort (s : State) (n : Nat) : State :=
  modPort { s with engWaits := s.engWaits.filter fun e => waitedOut s e.1 } n fun _ => ⟨true, 8, 0, s.time, s.time, s.time, false⟩

/-- A replacement device joins through its port; what the host then gives it is the host's (R415). -/
def execHotPlugJoin (dev : Nat) (s : State) : Out := .next (trainPort s (Config.routeOf dev))

/-! ### Timebase (R412) -/

/-- A present channel is enabled. -/
def presenting (s : State) : Bool := s.channels.any fun e => chEn e.2

/-- The device has a port to the root, and a sync flit can come (R412). -/
def follows (s : State) : Bool := s.timebase.root != s.dev && (portOf s s.timebase.port).up

/-- A squad's wait, its moments moved by `d`. -/
def shiftWait (d : Nat) : Wait → Wait
  | .peer t => .peer (t + d)
  | .parked tok t => .parked tok (t + d)
  | w => w

/-- Moments of nodes and tasks from which time is counted, moved by `d`. -/
def shiftNode (d : Nat) (n : Node) : Node :=
  { n with
    entry := n.entry + d, oldest := n.oldest + d, misfit := n.misfit.map (· + d)
    again := n.again.map fun p => { p with entry := p.entry + d } }
def shiftTask (d : Nat) (t : Task) : Task := { t with runFrom := t.runFrom + d, entry := t.entry + d }

/-- `%time` steps forward by `d` ns. DEDUCED: what is counted from a moment (a quiet port, a heartbeat, a wait of 20 us, time in a pool,
run time) is time that passes, so the step is no part of it; what `%time` itself names (a deadline, a WAITC, a refill) comes nearer. -/
def stepTime (s : State) (d : Nat) : State :=
  { s with
    time := s.time + d
    ports := s.ports.map fun (e : Nat × Port) =>
      (e.1, { e.2 with lastFlit := e.2.lastFlit + d, lastBeat := e.2.lastBeat + d, sentBeat := e.2.sentBeat + d })
    squads := s.squads.map fun (e : Nat × Squad) => (e.1, { e.2 with wait := e.2.wait.map (shiftWait d) })
    engWaits := s.engWaits.map fun e => (e.1, e.2 + d)
    hostHeld := s.hostHeld.map fun (r : HostReq) => { r with since := r.since + d }
    forwards := s.forwards.map fun (f : Forward) => { f with expiry := f.expiry + d }
    nodes := s.nodes.map fun e => (e.1, shiftNode d e.2)
    tasks := s.tasks.map fun e => (e.1, shiftTask d e.2)
    ctxs := s.ctxs.map fun (e : Nat × Ctx) =>
      (e.1, { e.2 with awaiting := e.2.awaiting.map fun (a : Await) => { a with since := a.since + d } })
    refresh := s.refresh.map fun e => (e.1, e.2 + d)
    active := s.active.map fun e => (e.1, e.2 + d) }

/-- A sync that finds the device `offset` ns behind: the time steps forward while no channel is enabled, else slews. DEDUCED:
LOCKED shows while at most 30 ns remain, the smaller bound of R412. -/
def timebaseSync (s : State) (offset : Int) : State :=
  if !follows s then s
  else
    let step := if presenting s then 0 else offset.toNat
    let left := offset - step
    let s := if step = 0 then s else stepTime s step
    { s with timebase := { s.timebase with
        locked := decide (left.natAbs ≤ 30), lost := false, lastSync := s.time, slew := left } }

def execTimebaseSync (offset : Int) (s : State) : Out := .next (timebaseSync s offset)

/-- Without sync for 100 us. -/
def holdover (s : State) : State :=
  if s.timebase.root ≠ s.dev ∧ !s.timebase.lost ∧ s.timebase.lastSync + 100000 ≤ s.time then
    deviceEvent { s with timebase := { s.timebase with lost := true, locked := false } } 4 0
  else s

def execTimebaseHoldover (s : State) : Out := .next (holdover s)

/-! ### Ageing, power (R416, R417) -/

/-- An entry for a die or an HBM stack is updated. -/
def ageingUpdate (s : State) (i conf wear eolh : Nat) : State :=
  if 24 ≤ i then s
  else
    let x := BitVec.ofNat 64 (conf % 256 * 2 ^ 40 + wear % 256 * 2 ^ 32 + eolh % 2 ^ 32)
    let s := { s with ageing := tset 0xFFFFFFFF s.ageing i x }
    if eolh % 2 ^ 32 < 2000 ∧ !s.aged.contains i then deviceEvent { s with aged := s.aged ++ [i] } 5 0 else s

def execAgeingUpdate (idx : Nat) (conf wear eolh : Nat) (s : State) : Out := .next (ageingUpdate s idx conf wear eolh)

/-- The arithmetic clock in steps of 100 MHz, from 1.8 to 3.6 GHz. -/
def execThermalThrottle (lower : Bool) (s : State) : Out :=
  .next { s with mhz := if lower then max 1800 (s.mhz - 100) else min 3600 (s.mhz + 100) }

/-- What outlives a loss of power: firmware slots and fuses; and, outside the device, the replies and messages that have left
it, and the agenda. -/
def lostState (s : State) : State :=
  { State.reset with
    firmware := s.firmware, running := s.running, fusedVersion := s.fusedVersion
    replies := s.replies, msix := s.msix, agenda := s.agenda, ctr := s.ctr }

def execThermalShutdown (s : State) : Out := .next { lostState s with powered := false }

/-! ### Boot, firmware, attestation (R419, R420) -/

/-- The boot ROM's check of an image (R419): the key is the fused one, the signature is good, the security version is not
below the fuses. PRESUMED: a key is its modulus in 384 bytes and its exponent, most significant byte first, and the signature
covers the image with its version after it. -/
def verifies (s : State) (f : Firmware) : Bool :=
  sha256 f.key == Config.fusedKeyHash && decide (s.fusedVersion ≤ f.version) &&
    pssVerify (beVal (f.key.take 384)) (beVal (f.key.drop 384)) (f.image ++ leBytes 8 f.version) f.sig

/-- The boot ROM accepts a slot. -/
def bootable (s : State) (k : Nat) : Bool := (firmwareOf s k).valid && verifies s (firmwareOf s k)

/-- The slot that boots: an update that waits, else the running one, else the other. -/
def bootSlot (s : State) : Option Nat :=
  let o := 1 - s.running
  if (firmwareOf s o).staged && bootable s o then some o
  else if bootable s s.running then some s.running
  else if bootable s o then some o
  else none

/-- Reset, and boot when a slot is valid: dies, HBM and links start, READY is set. -/
def resetBoot (s : State) : State :=
  let r := lostState s
  match bootSlot s with
  | none => r
  | some k =>
    let r := (List.range 16).foldl trainPort r
    { r with running := k, ready := true, firmware := aput s.firmware k { firmwareOf s k with staged := false } }

def execDeviceResetBoot (s : State) : Out := .next (resetBoot s)

/-- An update is verified and written to the inactive slot; it waits for the next reset. -/
def firmwareUpdate (s : State) (k : Nat) (f : Firmware) : State :=
  if k < 2 ∧ k ≠ s.running ∧ verifies s f = true then { s with firmware := aput s.firmware k f } else s

def execFirmwareUpdate (slot : Nat) (version : Nat) (image : SignedImage) (s : State) : Out :=
  .next (firmwareUpdate s slot ⟨image.image, image.key, image.sig, version, true, true⟩)

/-- The context table and the access tables. -/
def tablesBytes (s : State) : List Byte :=
  ((List.range 64).flatMap fun c => ctxBytes (ctxOf s c)) ++ (List.range 16).flatMap (tableBytes s)

/-- Bytes 0-159 of a report. -/
def reportBody (s : State) (nonce : Rec) : List Byte :=
  let f := firmwareOf s s.running
  leBytes 4 0x53545441 ++ leBytes 4 1 ++ leBytes 32 nonce.toNat ++ leBytes 32 Config.identityDigest.toNat ++ sha256 f.image ++
    sha256 (tablesBytes s) ++ leBytes 8 f.version ++ leBytes 8 s.dev ++ leBytes 8 s.time

/-- The report of a nonce: 160 bytes and their signature in 384. -/
def reportOf (s : State) (nonce : Rec) : List Byte :=
  let b := reportBody s nonce
  b ++ pssSign Config.attestKey.1 Config.attestKey.2 ((Config.attestSalt s.ctr ++ leBytes 32 0).take 32) b

def execAttestationRequest (nonce : Via Rec) (s : State) : Out :=
  .next (mgmt s nonce.link fun s => { s with nonce := nonce.arg, report := reportOf s nonce.arg })

end Sys2Proof.Machine
end

