-- ==== Sys2Proof/Machine/Layout.lean ====
section
/-! DEFINITION. The management space by its offsets in BAR 0, and the doorbells of BAR 4 (R400, R401, R403-R420). -/

namespace Sys2Proof.Machine

/-! ### Where the registers stand (R400)

The manual gives the place of every block, and within most of them of every register. DESIGN CHOICE, of the places that it does not
give: in the identity block the ids stand at 0, `%dev` at 8, the firmware version at 16, READY at 24 and WBASE of link k at 32 + 8k; at
0xF000 the counter of corrected errors i at 8i, the power and thermal words from 0xF200 on, the attestation nonce at 0xF400 and the
report at 0xF600. What has no register reads as zero. -/

/-- The register that a byte of BAR 0 belongs to, and which of its bytes it is; the readback aperture apart. -/
def regAt (o : Nat) : Option (MgmtReg × Nat) :=
  if o < 0x1000 then
    if o < 8 then some (.ids, o) else if o < 16 then some (.dev, o % 8) else if o < 24 then some (.version, o % 8)
    else if o < 32 then some (.ready, o % 8) else if o < 48 then some (.wbase (o / 8 - 4), o % 8) else none
  else if o < 0x5000 then some (.ctxEntry ((o - 0x1000) / 256), o % 256)
  else if o < 0x7000 then some (.pacer ((o - 0x5000) / 1024) ((o - 0x5000) / 16 % 64), o % 16)
  else if o < 0x8000 then some (.channel ((o - 0x7000) / 64), o % 64)
  else if o < 0x8008 then some (.frameTeams, o % 8)
  else if o < 0x9000 then none
  else if o < 0x9700 then some (.peerWindow ((o - 0x9000) / 8), o % 8)
  else if o < 0xA000 then none
  else if o < 0xE000 then some (.accessTable ((o - 0xA000) / 1024), o % 1024)
  else if o < 0xE008 then some (.tbroot, o % 8)
  else if o < 0xE010 then some (.tbport, o % 8)
  else if o < 0xE018 then some (.tbstat, o % 8)
  else if o < 0xF000 then none
  else if o < 0xF0C0 then some (.corrected ((o - 0xF000) / 8), o % 8)
  else if o < 0xF100 then none
  else if o < 0xF1C0 then some (.ageing ((o - 0xF100) / 8), o % 8)
  else if o < 0xF200 then none
  else if o < 0xF300 then some (.power ((o - 0xF200) / 8), o % 8)
  else if o < 0xF600 then none
  else if o < 0xF820 then some (.report, o - 0xF600)
  else if o < 0x10000 then none
  else if o < 0x12000 then some (.debug ((o - 0x10000) / 8), o % 8)
  else if o < 0x12008 then some (.readbackSelect, o % 8)
  else none

/-- The unit that a byte of the readback aperture shows, and which of its bytes (R408). DESIGN CHOICE, of the numbers of the units: 0 the
squads, 64 KiB each; 1 the scratchpad; 2 its descriptors; 3 the slots; 4 the tiles; 5 and 6 the banks A and B; 7 the queues; 8 the barrier
objects; 9 the tags of the die cache and 10 its data; 11 the descriptors of HBM; 12 the core's copy commands. -/
def apertureAt (s : State) (o : Nat) : Option (ReadbackUnit × Nat) :=
  let c := selectCore s
  match bits s.readback.toNat 15 10 with
  | 0 => (slotSquad s c (o / 65536)).map fun e => (.squadByte e.1 (o % 65536), 0)
  | 1 => some (.scratch c o, 0)
  | 2 => some (.scratchTag c (o / 2), o % 2)
  | 3 =>
    let i := o % 10560
    if 64 ≤ o / 10560 then none
    else if i < 8192 then some (.slotByte c (o / 10560) i, 0)
    else if i < 10528 then some (.sidecarByte c (o / 10560) (i - 8192), 0)
    else some (.slotState c (o / 10560), i - 10528)
  | 4 =>
    let i := o % 16448
    if 32 ≤ o / 16448 then none
    else if i < 16384 then some (.acc c (64 * (o / 16448) + i / 256) (i / 4 % 64), i % 4)
    else some (.accFlags c (o / 16448), i - 16384)
  | 5 => if o < 65536 then some (.instrByte c 0 o, 0) else none
  | 6 => if o < 65536 then some (.instrByte c 1 o, 0) else none
  | 7 => some (.queueByte c o, 0)
  | 8 => some (.barrierByte c o, 0)
  | 9 => some (.cacheTag (c / 128) o, 0)
  | 10 => some (.cacheByte (c / 128) (o / 256) (o % 256), 0)
  | 11 => some (.memTag (o / 2), o % 2)
  | 12 => ((s.copies.filter fun k => k.core == c)[o / 128]?).map fun k => (.copyByte k.id (o % 128), 0)
  | _ => none

/-- A byte of BAR 0. -/
def bar0Byte (s : State) (o : Nat) : Byte :=
  if 0x1000000 ≤ o ∧ o < 0x2000000 then
    ((apertureAt s (o - 0x1000000)).map fun e => nthByte (unitBytes s e.1) e.2).getD 0
  else if 0xF400 ≤ o ∧ o < 0xF420 then nthByte (leBytes 32 s.nonce.toNat) (o - 0xF400)
  else ((regAt o).map fun e => nthByte (regBytes s e.1) e.2).getD 0

/-- The identity block, which any link reads. -/
def identityAt (o n : Nat) : Bool := decide (o + n ≤ 0x1000)

/-- A read of at most 4 KiB of BAR 0; what it acquires is as for the registers it touches. -/
def bar0Read (s : State) (m : Option Nat) (o n : Nat) : State :=
  if !s.powered || (!s.ready && !identityAt o n) then s
  else if (identityAt o n || mayManage s m false) && decide (n ≤ 4096) && decide (o + n ≤ 2 ^ 26) then
    let rs := (((List.range n).filterMap fun i => regAt (o + i)).map (·.1)).eraseDups
    reply (rs.foldl (fun s r => sawReg s m r) s) (masterNo m) (some ((List.range n).map fun i => bar0Byte s (o + i)))
  else reply s (masterNo m) none

/-! ### Writes -/

/-- FRESP (R403): ACTION 1 replays or completes, 2 is fatal or ends. -/
def frespPut (s : State) (m : Option Nat) (ctx x : Nat) : State :=
  let tok := x % 2 ^ 32
  match x / 2 ^ 32 % 4, awaitNode s ctx tok with
  | 1, some id => completeHostNode (takeAwait s ctx tok) m id
  | 2, some id => endHostNode (takeAwait s ctx tok) id
  | 1, none => frespReplay s ctx tok
  | 2, none => frespFatal s ctx tok
  | _, _ => s

/-- A word of a context entry (R401). -/
def ctxWord (s : State) (m : Option Nat) (c o x : Nat) : State :=
  let w := BitVec.ofNat 64 x
  match o with
  | 0 => managementPut s m (.ctxPtroot c w)
  | 8 => managementPut s m (.ctxFlags c w)
  | 16 => managementPut s m (.ctxFbctl c w)
  | 24 => managementPut s m (.ctxSqbase c w)
  | 32 => managementPut s m (.ctxSqlog2 c (x % 256))
  | 48 => managementPut s m (.ctxTrapovl c w)
  | 56 => managementPut s m (.ctxEqbase c w)
  | 64 => managementPut s m (.ctxEqlog2 c (x % 256))
  | 72 => managementPut s m (.ctxEqread c x)
  | 80 => frespPut s m c x
  | 88 => invalStart s c (bits x 62 36) (bits x 35 0)
  | _ => s

/-- A word of the access table of a target (R407). -/
def tableWord (s : State) (m : Option Nat) (t o x : Nat) : State :=
  if o = 0 then managementPut (managementPut s m (.accessHost t 0 (x % 4))) m (.accessHost t 1 (x / 4 % 4))
  else if 64 ≤ o ∧ o < 576 then
    (List.range 32).foldl (fun s i => managementPut s m (.accessPeer t (4 * (o - 64) + i) (x / 4 ^ i % 4))) s
  else s

/-- The debug control register of a core (R408): the path, STOP, then the step. -/
def debugWord (s : State) (m : Option Nat) (core x : Nat) : State :=
  let s := managementPut s m (.debugPath core (x.testBit 47) (bits x 42 40))
  let s := if x.testBit 0 then setDebug s core 0 0 1 else if stopped s core then debugResume s core else s
  let s := setDebug s core 38 32 (bits x 38 32)
  if x.testBit 2 then debugStep s core (bits x 38 32) else s

/-- A byte of the aperture, on a stopped core. -/
def aperturePut (s : State) (o : Nat) (x : Byte) : State :=
  match apertureAt s o with
  | some (u, i) => readbackPut s u (BitVec.ofNat 256 (leVal ((unitBytes s u).set i x)))
  | none => s

/-- The word of 8 bytes at `o` is written. A pacer register and a channel are two words. DESIGN CHOICE: the last word of the nonce asks
for the report. -/
def bar0Word (s : State) (m : Option Nat) (o x : Nat) : State :=
  let w := BitVec.ofNat 64 x
  if o ≥ 0x1000000 ∧ o < 0x2000000 then
    (List.range 8).foldl (fun s i => aperturePut s (o - 0x1000000 + i) (BitVec.ofNat 8 (x / 256 ^ i))) s
  else if o = 0x8008 then (if x % 2 = 1 then countersZero s else s)
  else if 0xF400 ≤ o ∧ o < 0xF420 then
    let n := BitVec.ofNat 256 (setBits s.nonce.toNat (8 * (o - 0xF400) + 63) (8 * (o - 0xF400)) x)
    { s with nonce := n, report := if o = 0xF418 then reportOf s n else s.report }
  else
    match regAt o with
    | some (.dev, _) => managementPut s m (.dev x)
    | some (.wbase l, _) => managementPut s m (.wbase l x)
    | some (.ctxEntry c, i) => ctxWord s m c i x
    | some (.pacer d c, i) =>
      let b := budgetOf s d c
      if i = 0 then pacerWrite s d c x (x / 2 ^ 32) b.rcap else pacerWrite s d c b.refill b.cap x
    | some (.channel k, i) =>
      let r := (channelOf s k).reg.toNat
      if i = 0 then channelWrite s k (BitVec.ofNat 128 (setBits r 63 0 x))
      else if i = 8 then channelWrite s k (BitVec.ofNat 128 (setBits r 127 64 x)) else s
    | some (.frameTeams, _) => managementPut s m (.frameTeams x)
    | some (.peerWindow n, _) => managementPut s m (.peerWindow n w)
    | some (.accessTable t, i) => if t ≤ 8 then tableWord s m t i x else s
    | some (.tbroot, _) => managementPut s m (.tbroot x)
    | some (.tbport, _) => managementPut s m (.tbport x)
    | some (.debug c, _) => debugWord s m c x
    | some (.readbackSelect, _) => managementPut s m (.readbackSelect x)
    | _ => s

/-- A write of 4 or 8 aligned bytes of BAR 0; a half keeps the other half of its word. DESIGN CHOICE: one of another size or place
changes nothing. -/
def bar0Write (s : State) (m : Option Nat) (o n x : Nat) : State :=
  if !s.powered || !(s.ready || identityAt o n) || !mayManage s m true || decide (2 ^ 26 < o + n) then s
  else if n = 8 ∧ o % 8 = 0 then bar0Word s m o x
  else if n = 4 ∧ o % 4 = 0 then
    let a := o / 8 * 8
    let old := leVal ((List.range 8).map fun i => bar0Byte s (a + i))
    bar0Word s m a (setBits old (8 * (o - a) + 31) (8 * (o - a)) (x % 2 ^ 32))
  else s

/-- The context whose doorbell stands at an offset of BAR 4 (R400). -/
def doorbellAt (o : Nat) : Option Nat := if o % 4096 = 0 ∧ o / 4096 < 64 then some (o / 4096) else none
def bar4Write (s : State) (m : Option Nat) (o n : Nat) : State :=
  match doorbellAt o with
  | some c => bell s m c n
  | none => s

def execManagementWrite (w : Via MgmtOp) (s : State) : Out :=
  .next (match w.arg with
    | .read r => mgmtRead s w.link r
    | .readAt o n => bar0Read s w.link o n
    | .writeAt o n x => bar0Write s w.link o n x.toNat
    | .bar4 o x => ifReady s fun s => bar4Write s w.link o x.toNat
    | o => if (s.ready || identityWrite s o) && mayManage s w.link true && mgmtThere o then managementPut s w.link o else s)

end Sys2Proof.Machine
end

