-- ==== Sys2Proof/Machine/Memory.lean ====
section
/-! DEFINITION. Loads, stores, buffer records, tile memory, descriptors, prefetch and write-back (R157-R193). -/

namespace Sys2Proof.Machine

/-! ### Loads and stores (R182-R187) -/

def loadForm (h : Hdr) (cls : Nat) (sz : MemSize) (ord : Bool) (sc : Scope) (vd ba : Nat) (b : Opnd) (kinds : List Nat) (sp : Nat)
    (core : Squad → Rec → Nat) (s : State) : Out :=
  issue h cls (.per 1) s fun x s =>
    let r := rdB x.q ba
    if x.act = 0 then .ok s
    else loadThrough s x r ⟨kinds, [sp], sizeBytes sz, false, core x.q r, false⟩ (if recKind r = 2 then .V else .T)
      (ordScope ord sc) (recAddrs x r (sizeBytes sz) b) (loadRegs sz vd)

def storeForm (h : Hdr) (cls : Nat) (sz : MemSize) (ord : Bool) (sc : Scope) (vd ba : Nat) (b : Opnd) (sp : Nat) (fwd : Bool)
    (core : Squad → Rec → Nat) (s : State) : Out :=
  issue h cls (.per 1) s fun x s =>
    let r := rdB x.q ba
    if x.act = 0 then .ok s
    else storeThrough s x r ⟨[0], [sp], sizeBytes sz, true, core x.q r, fwd⟩ .T
      (ordScope ord sc) (recAddrs x r (sizeBytes sz) b) (storeData x.q sz vd)

/-- The issuing core, or core TARGET (R160, R171). -/
def ownCore (q : Squad) (_ : Rec) : Nat := q.core
def farCore (q : Squad) (r : Rec) : Nat := targetCore q r

def execLd (h : Hdr) (sz : MemSize) (ord : Bool) (sc : Scope) (vd ba : Nat) (b : Opnd) (s : State) : Out :=
  loadForm h 3 sz ord sc vd ba b [0, 2] 0 ownCore s
def execSt (h : Hdr) (sz : MemSize) (ord : Bool) (sc : Scope) (vd ba : Nat) (b : Opnd) (s : State) : Out :=
  storeForm h 3 sz ord sc vd ba b 0 false ownCore s
def execLds (h : Hdr) (sz : MemSize) (ord : Bool) (sc : Scope) (vd ba : Nat) (b : Opnd) (s : State) : Out :=
  loadForm h 2 sz ord sc vd ba b [0] 1 ownCore s
def execSts (h : Hdr) (sz : MemSize) (ord : Bool) (sc : Scope) (vd ba : Nat) (b : Opnd) (s : State) : Out :=
  storeForm h 2 sz ord sc vd ba b 1 false ownCore s
def execLdr (h : Hdr) (sz : MemSize) (ord : Bool) (sc : Scope) (vd ba : Nat) (b : Opnd) (s : State) : Out :=
  loadForm h 3 sz ord sc vd ba b [0] 1 farCore s
def execStr (h : Hdr) (sz : MemSize) (ord : Bool) (sc : Scope) (vd ba : Nat) (b : Opnd) (s : State) : Out :=
  storeForm h 3 sz ord sc vd ba b 1 true farCore s

/-- The uniform issue of an instruction that executes once for the lowest active thread. -/
def single (x : Iss) : Iss := { x with act := maskOf fun t => lowest x.act == some t }

/-- The value of LDU extended to 64 bits (R184). -/
def lduVal (sz : MemSize) (v : Nat) : Nat :=
  match sz with
  | .sx8 => cutN 64 (sextN 8 v)
  | .sx16 => cutN 64 (sextN 16 v)
  | _ => v

def execLdu (h : Hdr) (sz : MemSize) (ord : Bool) (sc : Scope) (sd ba : Nat) (b : Opnd) (s : State) : Out :=
  issue h 2 (.once 1) s fun x s =>
    let r := rdB x.q ba
    if x.act = 0 then .ok s
    else loadThrough s (single x) r ⟨[0], [0], sizeBytes sz, false, x.q.core, false⟩ .T (ordScope ord sc)
      (recAddrs x r (sizeBytes sz) b) fun _ v => [.s sd (BitVec.ofNat 64 (lduVal sz (v.getD 0)))]

/-! ### RECLD (R188) -/

def execRecld (h : Hdr) (bd ba : Nat) (b : Opnd) (s : State) : Out :=
  issue h 2 (.once 1) s fun x s =>
    let r := rdB x.q ba
    if x.act = 0 then .ok s
    else if (recCheck r [0] [0, 1]).isNone && recSwz r != 0 && rec2d r then failE s x (eACCESS 5)
    else loadThrough s (single x) r ⟨[0], [0, 1], 32, false, x.q.core, false⟩ .T none (recAddrs x r 32 b)
      fun _ v => [.b bd (BitVec.ofNat 256 (v.getD 0))]

/-- The record of declared range `n`, window `w`; none where R188 raises ACCESS 0x09. DESIGN CHOICE: here and in the selectors of
RECSET a BASE past 52 bits, of which the rules say nothing, keeps its low 52 bits. -/
def rangeRec (tr : TRec) (n w : Nat) : Option Rec :=
  let e := rangeOf tr n
  let m := 2 ^ 32 - 1
  if n ≥ tr.nrange ∨ w * 2 ^ 31 ≥ e.len ∨ (e.lod ∧ w ≠ 0) then none
  else if e.lod then some (recSet (recSet (recSet 0 255 252 1) 143 112 (min e.len m)) 51 0 e.base)
  else some (recSet (recSet (recSet 0 249 249 (if e.acc = 3 then 1 else 0)) 143 112 (min (e.len - w * 2 ^ 31) m)) 51 0
    (e.base + w * 2 ^ 31))

def execRecldRange (h : Hdr) (bd n w : Nat) (s : State) : Out :=
  issue h 2 (.once 1) s fun x s =>
    if x.act = 0 then .ok s
    else
      match rangeRec (trOf s x.q) n w with
      | none => failE s x (eACCESS 9)
      | some r => .ok (putLater s x [.b bd r])

def execRecldScr (h : Hdr) (bd : Nat) (s : State) : Out :=
  issue h 2 (.once 1) s fun x s =>
    if x.act = 0 then .ok s
    else
      let base := ((taskOf s x.q.task).map (·.base)).getD 0
      .ok (putLater s x [.b bd (scrRec (x.q.core % 128) base (trOf s x.q).scratch)])

def execRecldTile (h : Hdr) (bd : Nat) (s : State) : Out :=
  issue h 2 (.once 1) s fun x s =>
    if x.act = 0 then .ok s
    else
      let tr := trOf s x.q
      let base := ((taskOf s x.q.task).map (·.base)).getD 0
      .ok (putLater s x [.b bd (recSet (scrRec (x.q.core % 128) (base + tr.tileoff) tr.ntile) 255 252 3)])

/-! ### RECSET (R189) -/

/-- The outcome of a selector: a new record or a fault. -/
abbrev RecRes := Except Err Rec

def recNeed (ok : Bool) (e : Err) (r : RecRes) : RecRes := if ok then r else .error e
def bWiden : Err := (0x04, 0x02)

/-- Kind and shape of a selector; `two` is the shape it needs, if any. -/
def recShape (r : Rec) (two : Option Bool) (k : RecRes) : RecRes :=
  if recKind r = 1 ∨ recKind r = 3 then .error (eACCESS 3)
  else match two with
    | some t => if rec2d r = t then k else .error (eACCESS 3)
    | none => k

def recOff (r : Rec) (k : Nat) : RecRes :=
  let e := recE r
  recShape r (some false) (recNeed (decide (k ≤ recExt0 r * e)) bWiden (recNeed (k % e == 0) (eACCESS 4)
    (.ok (recSet (recSet r 143 112 (recExt0 r - k / e)) 51 0 (recBase r + k)))))

def recExt0Set (r : Rec) (n : Nat) : RecRes := recShape r none (.ok (recSet r 143 112 (min (recExt0 r) n)))
def recExt1Set (r : Rec) (n : Nat) : RecRes := recShape r (some true) (.ok (recSet r 175 144 (min (recExt1 r) n)))

def recRow (r : Rec) (n : Nat) : RecRes :=
  recShape r (some true) (recNeed (decide (n ≤ recExt1 r)) bWiden
    (.ok (recSet (recSet r 175 144 (recExt1 r - n)) 51 0 (recBase r + n * recStride r))))

def recShapeSet (r : Rec) (x : Nat) : RecRes :=
  let e0 := x % 65536
  let e1 := x / 65536 % 65536
  let t := x / 2 ^ 32 % 2 ^ 32
  let e := recE r
  recShape r (some false) (recNeed (decide (1 ≤ e0) && decide (1 ≤ e1) && decide (e0 * e ≤ t)) (eACCESS 4)
    (recNeed (decide ((e1 - 1) * t + e0 * e ≤ recExt0 r * e)) bWiden
      (.ok (recSet (recSet (recSet r 143 112 e0) 175 144 e1) 207 176 t))))

/-- EXT0 in elements of the new size; the manual states no EXT0 beyond its 32 bits, where the value is `free`. -/
def recEsizeSet (r : Rec) (n free : Nat) : RecRes :=
  let x := recExt0 r * recE r / 2 ^ n
  recShape r (some false) (recNeed (decide (n ≤ 4)) (eACCESS 4)
    (.ok (recSet (recSet r 143 112 (if x < 2 ^ 32 then x else free)) 238 235 n)))

def recBmodeSet (r : Rec) (n : Nat) : RecRes := .ok (recSet r 250 250 (n % 2))
def recSwzSet (r : Rec) (n : Nat) : RecRes :=
  recShape r (some true) (recNeed (decide (n ≤ 4)) (eACCESS 4) (.ok (recSet r 248 246 n)))
def recXvSet (r : Rec) (n : Nat) : RecRes := recShape r none (.ok (recSet r 223 208 n))
def recRo (r : Rec) : RecRes := .ok (recSet r 249 249 0)
def recTgt (r : Rec) (n : Nat) : RecRes :=
  recShape r none (recNeed (recSpace r == 1) (eACCESS 3) (recNeed (decide (n < 128)) (eACCESS 4) (.ok (recSet r 245 239 n))))

/-- The transposed alias of a plain 2-D record. -/
def recAliasSet (r : Rec) : RecRes :=
  let a := recSet (recSet (recSet r 255 252 2) 249 249 0) 51 0 (recBase r + 2 ^ 51)
  recShape r (some true) (recNeed (recKind r == 0 && recSpace r == 0 && decide (recBase r < 2 ^ 51) && aliasOk a) (eACCESS 5) (.ok a))

/-- One RECSET: read and write bD once. -/
def recsetForm (h : Hdr) (bd : Nat) (b : Opnd) (f : Rec → Nat → RecRes) (s : State) : Out :=
  issue h 1 (.once 1) s fun x s =>
    if x.act = 0 then .ok s
    else
      match f (rdB x.q bd) (rdScal x.q b) with
      | .error e => failE s x e
      | .ok r => .ok (putFixed s x [.b bd r])

def execRecsetOff (h : Hdr) (bd : Nat) (b : Opnd) (s : State) : Out := recsetForm h bd b recOff s
def execRecsetExt0 (h : Hdr) (bd : Nat) (b : Opnd) (s : State) : Out := recsetForm h bd b recExt0Set s
def execRecsetExt1 (h : Hdr) (bd : Nat) (b : Opnd) (s : State) : Out := recsetForm h bd b recExt1Set s
def execRecsetRow (h : Hdr) (bd : Nat) (b : Opnd) (s : State) : Out := recsetForm h bd b recRow s
def execRecsetShape (h : Hdr) (bd : Nat) (b : Opnd) (s : State) : Out := recsetForm h bd b recShapeSet s
def execRecsetEsize (h : Hdr) (bd : Nat) (b : Opnd) (s : State) : Out :=
  recsetForm h bd b (fun r n => recEsizeSet r n (Config.openValue 0 s.ctr)) s
def execRecsetBmode (h : Hdr) (bd : Nat) (b : Opnd) (s : State) : Out := recsetForm h bd b recBmodeSet s
def execRecsetSwz (h : Hdr) (bd : Nat) (b : Opnd) (s : State) : Out := recsetForm h bd b recSwzSet s
def execRecsetXv (h : Hdr) (bd : Nat) (b : Opnd) (s : State) : Out := recsetForm h bd b recXvSet s
def execRecsetRo (h : Hdr) (bd : Nat) (s : State) : Out := recsetForm h bd (.imm 0) (fun r _ => recRo r) s
def execRecsetTgt (h : Hdr) (bd : Nat) (b : Opnd) (s : State) : Out := recsetForm h bd b recTgt s
def execRecsetAlias (h : Hdr) (bd : Nat) (b : Opnd) (s : State) : Out := recsetForm h bd b (fun r _ => recAliasSet r) s

/-! ### Tile memory (R190) -/

def planeNo : Plane → Nat
  | .colour => 0 | .depth => 1 | .vis => 2 | .motion => 3

/-- Address and bound of a plane word. -/
def tileAddr (r : Rec) (plane b : Nat) : Nat × Bool :=
  let px := b % 8
  let py := b / 8 % 8
  let v := b / 64 % 64
  let tile := b / 4096 % 8
  (recBase r + tile * 65536 + ((v * 8 + py) * 8 + px) * 16 + plane * 4, decide (tile < recExt0 r))

def tileAddrs (x : Iss) (r : Rec) (p : Plane) (b : Opnd) (t : Nat) : Nat × Bool := tileAddr r (planeNo p) (rdInt x.q 32 b t)

def execTld (h : Hdr) (plane : Plane) (vd ba : Nat) (b : Opnd) (s : State) : Out :=
  issue h 2 (.per 1) s fun x s =>
    let r := rdB x.q ba
    if x.act = 0 then .ok s
    else loadThrough s x r ⟨[3], [1], 4, false, x.q.core, false⟩ .G none (tileAddrs x r plane b) (loadRegs .b32 vd)

def execTst (h : Hdr) (plane : Plane) (vd ba : Nat) (b : Opnd) (s : State) : Out :=
  issue h 2 (.per 1) s fun x s =>
    let r := rdB x.q ba
    if x.act = 0 then .ok s
    else storeThrough s x r ⟨[3], [1], 4, true, x.q.core, false⟩ .G none (tileAddrs x r plane b) (storeData x.q .b32 vd)

/-! ### Descriptors, prefetch, write-back (R191-R193) -/

/-- A thread's access to the descriptor of its block, a location of its own (R173). -/
def tagEv (s : State) (x : Iss) (wr : Bool) (g : Tgt) : HEv :=
  let w := whoSquad s x.id x.q g.t
  .access (if wr then accWr w .T (.desc g.sp (g.a / 64) 1) else accRd w .T (.desc g.sp (g.a / 64) 1))

def execDescrd (h : Hdr) (vd ba : Nat) (b : Opnd) (s : State) : Out :=
  issue h 2 (.per 1) s fun x s =>
    let r := rdB x.q ba
    if x.act = 0 then .ok s
    else
      match plan s x r ⟨[0], [0, 1], 1, false, x.q.core, false⟩ (recAddrs x r 1 b) with
      | .error f => .fault s f
      | .ok ts =>
        if peerDown s ts then peerWait s x (downThreads s ts)
        else
          let s := cacheAll s x r ts
          match poisonFault s ts 1 with
          | some f => .fault s f
          | none => .ok (putLater (logEvs s (ts.map (tagEv s x false))) x ((threadsOf x.act).map fun t =>
              .v vd t (match ts.find? fun g => g.t == t with
                | some g => (rdTag s g.sp (g.a / 64)).setWidth 32
                | none => 0)))

def execDescwr (h : Hdr) (d : Opnd) (ba : Nat) (b : Opnd) (s : State) : Out :=
  issue h 2 (.per 1) s fun x s =>
    let r := rdB x.q ba
    if x.act = 0 then .ok s
    else
      match plan s x r ⟨[0], [0, 1], 1, true, x.q.core, false⟩ (recAddrs x r 1 b) with
      | .error f => .fault s f
      | .ok ts =>
        if peerDown s ts then peerWait s x (downThreads s ts)
        else
          let s := ts.foldl (fun s g => wrTag s g.sp (g.a / 64) (BitVec.ofNat 16 (rdInt x.q 32 d g.t))) (cacheAll s x r ts)
          .ok (logEvs s (ts.map (tagEv s x true)))

/-- A line holds a POISON block. -/
def linePoisoned (s : State) (p : Space × Nat) : Bool := poisoned s p.1 (p.2 / 256 * 256) 256

/-- The record check alone faults; `f` gets the lines of the threads whose access is in bounds, leased, mapped and clear of
POISON: virtual address and place (R192, R193). -/
def hintForm (h : Hdr) (cls : Nat) (ba : Nat) (b : Opnd) (kinds : List Nat) (f : Squad → Nat → Space × Nat → State → State)
    (s : State) : Out :=
  issue h cls (.per 1) s fun x s =>
    let r := rdB x.q ba
    if x.act = 0 then .ok s
    else
      match recCheck r kinds [0] with
      | some e => failE s x e
      | none => .ok ((threadsOf x.act).foldl (fun s t =>
          let a := recAddrs x r 1 b t
          match placeRec s x.q r x.q.core false a.1 1 false with
          | .ok p => if a.2 && !linePoisoned s p then f x.q (if recKind r = 2 then a.1 - 2 ^ 51 else a.1) p s else s
          | .error _ => s) s)

/-- What the hints do to a line: keep its translation; bring it into the die cache; write a guest copy back; drop it. -/
def keepXl (q : Squad) (va : Nat) (_ : Space × Nat) (s : State) : State := cachePage s (ctxId s q) va
def fillDc (q : Squad) (va : Nat) (p : Space × Nat) (s : State) : State :=
  let s := keepXl q va p s
  if p.1 = .mem then
    { s with dcache := cacheFill s.ctr (dieOf q) false s.dcache (p.2 / 256), active := fetchRow s s.active (p.2 / 256) }
  else s
def backDc (q : Squad) (_ : Nat) (p : Space × Nat) (s : State) : State :=
  if p.1 = .mem then { s with dcache := cacheClean (dieOf q) (p.2 / 256) s.dcache } else s
def dropDc (q : Squad) (va : Nat) (p : Space × Nat) (s : State) : State :=
  let s := backDc q va p s
  if p.1 = .mem then { s with dcache := cacheDrop (dieOf q) (p.2 / 256) s.dcache } else s

def execPrefDc (h : Hdr) (ba : Nat) (b : Opnd) (s : State) : Out := hintForm h 2 ba b [0, 2] fillDc s
def execPrefXl (h : Hdr) (ba : Nat) (b : Opnd) (s : State) : Out := hintForm h 2 ba b [0, 2] keepXl s
def execCwbWb (h : Hdr) (ba : Nat) (b : Opnd) (s : State) : Out := hintForm h 3 ba b [0] backDc s
def execCwbWbi (h : Hdr) (ba : Nat) (b : Opnd) (s : State) : Out := hintForm h 3 ba b [0] dropDc s

end Sys2Proof.Machine
end

