-- ==== Sys2Proof/Machine/System.lean ====
section
/-! DEFINITION. The system instructions: graphs, signals, deposits, migration, energy waits, counters, CSRs, TRET and HALT
(R384-R396). -/

namespace Sys2Proof.Machine

/-! ### Record operands (R385) -/

/-- BASE of a record operand of `n` bytes that is aligned to `al`: record checks, alignment, reach, lease, translation. -/
def sysRecord (s : State) (x : Iss) (r : Rec) (n al : Nat) (wr : Bool) : Except FaultInfo Nat :=
  let va := recBase r
  let bad (e : Err) : Except FaultInfo Nat := .error { mkFault e.1 e.2 x.act x.path with addr := va }
  match recCheck r [0] [0] with
  | some e => .error (mkFault e.1 e.2 x.act x.path)
  | none =>
    if va % al ≠ 0 then bad (0x03, 0x01)
    else if regionSize r < n then bad (eACCESS 0x13)
    else
      match placeRec s x.q r 0 false va n wr, placeRec s x.q r 0 false (va + n - 1) 1 wr with
      | .ok _, .ok _ => .ok va
      | .error e, _ | _, .error e => .error { mkFault e.1 e.2 x.act x.path with addr := va, park := e.1 == 0x06 && e.2 != 4 }

def taskPriv (s : State) (q : Squad) : Bool := trPriv (trOf s q)

/-- Graphs that a die's spawn queue holds. -/
def spawnsOf (s : State) (die : Nat) : Nat := (s.spawns.filter fun p => p.die == die).length

/-- What `task.spawn` leaves and answers; it releases the path's accesses on T, C, M and G towards the graph's nodes (R386). -/
def spawnGraph (s : State) (x : Iss) (va : Nat) : State × Nat :=
  let ctx := ctxId s x.q
  let die := dieOf x.q
  let desc := (devReadN s ctx va 32).getD 0
  if spawnsOf s die ≥ 256 then (s, 2 + fieldAt desc 12 4 * 2 ^ 32)
  else
    let s := logRel s x 15 .pkg (.graph s.nextId)
    match submitGraph s ctx ((ctxOf s ctx).cflags.getLsbD 1 || taskPriv s x.q) (some die) desc with
    | .error (i, gid) => (s, 1 + i % 2 ^ 24 * 2 ^ 8 + gid * 2 ^ 32)
    | .ok (s, g, gid) => ({ s with spawns := s.spawns ++ [⟨die, g⟩] }, gid * 2 ^ 32)

def execTaskSpawn (h : Hdr) (sd ba : Nat) (s : State) : Out :=
  issue h 2 (.once 1) s fun x s =>
    if x.act = 0 then .ok s
    else
      match sysRecord s x (rdB x.q ba) 32 32 false with
      | .error f => .fault s f
      | .ok va =>
        let r := spawnGraph s x va
        .ok (putLater r.1 x [.s sd (BitVec.ofNat 64 r.2)])

def execTaskSignal (h : Hdr) (ba : Nat) (s : State) : Out :=
  issue h 1 (.once 1) s fun x s =>
    if x.act = 0 then .ok s
    else
      match sysRecord s x (rdB x.q ba) 256 64 true with
      | .error f => .fault s f
      | .ok va =>
        let ctx := ctxId s x.q
        let readies := (devReadN s ctx (va + 36) 4).getD 0 == 1
        let s' := match nodeAt s ctx va with
          | some m => if readies then logRel s x 127 .sys (.towards m) else s
          | none => s
        .ok (if (devReadN s ctx (va + 224) 1).getD 0 = 1 then decPreds s' ctx va else s)

/-- The collector that a record belongs to and that collects now. -/
def collectorAt (s : State) (ctx va : Nat) : Option (Nat × Node) :=
  match readTRec s ctx va, (nodeAt s ctx va).bind fun id => (nodeOf s id).map fun n => (id, n) with
  | some tr, some (id, n) =>
    if tr.cthresh ≠ 0 ∧ (devReadN s ctx (va + 224) 1).getD 0 < 5 then some (id, n) else none
  | _, _ => none

def execTaskCollect (h : Hdr) (ba : Nat) (b : Opnd) (s : State) : Out :=
  issue h 1 (.once 1) s fun x s =>
    if x.act = 0 then .ok s
    else
      match sysRecord s x (rdB x.q ba) 256 64 false with
      | .error f => .fault s f
      | .ok va =>
        match collectorAt s (ctxId s x.q) va with
        | none => failE s x (eACCESS 0x12)
        | some (id, n) =>
          if ringSize n.tr ≤ n.wr - n.rd then .wait s .collect
          else
            let s := logRel s x 15 .pkg (.record id n.wr)
            let s := devWriteN s n.ctx (ringBase n.tr + 8 * (n.wr % ringSize n.tr)) 8 (rdScal x.q b)
            .ok (modNode s id fun n => { n with
              wr := n.wr + 1, oldest := if n.wr = n.rd + n.consume then s.time else n.oldest })

def execTaskCheck (h : Hdr) (sd ba : Nat) (s : State) : Out :=
  issue h 1 (.once 1) s fun x s =>
    if x.act = 0 then .ok s
    else
      match sysRecord s x (rdB x.q ba) 256 64 false with
      | .error f => .fault s f
      | .ok va =>
        let v := (devReadN s (ctxId s x.q) (va + 224) 8).getD 0
        let s := if v % 256 = 5 then logAcq s x 127 .sys [.done (ctxId s x.q) va] else s
        .ok (putLater s x [.s sd (BitVec.ofNat 64 v)])

/-! ### Migration (R390) -/

/-- The core that a request names, or the lowest with room; a task of priority 7 stays where it is (R375). -/
def migrateTo (s : State) (q : Squad) (b : Nat) : Option Nat :=
  match taskOf s q.task with
  | none => none
  | some t =>
    if t.stopping != .no || deadlineRec s t.tr t.ctx then none
    else if b.testBit 7 then ((List.range Config.coresPerDie).map fun i => dieOf q * 128 + i).find? (migrates s q.task t)
    else
      let c := dieOf q * 128 + b % 128
      if migrates s q.task t c then some c else none

def execTaskMigrate (h : Hdr) (b : Opnd) (s : State) : Out :=
  issue h 4 (.once 1) s fun x s =>
    if x.act = 0 then .ok s
    else
      let v := rdScal x.q b
      if v ≥ 256 then failE s x (eACCESS 4)
      else
        match migrateTo s x.q v with
        | some c => .ok (askPreempt s x.q.task (some c))
        | none => .ok s

/-! ### Energy and counters (R391, R392) -/

/-- EBUD.WAIT. A grant counts for it once it waits with its own cost B; one before that was for the cost of the issue (R28). -/
def execEbudWait (h : Hdr) (b : Opnd) (s : State) : Out :=
  issue h 0 (.once 1) s fun x s =>
    if x.act = 0 then .ok s
    else
      let n := rdScal x.q b
      let k := budgetOf s (dieOf x.q) (ctxId s x.q)
      let prio := deadline s x.q
      let list := if prio then k.prio else k.gen
      if n > (if prio then k.cap + k.rcap else k.cap) then failE s x (eACCESS 4)
      else if x.q.granted && (x.wait matches some (.ebud _)) then .ok (modSquad s x.id fun q => { q with granted := false, taken := (0, 0) })
      else if n ≤ spendable k prio ∧ list.isEmpty then .ok s
      else .wait (joinList s x.id x.q n false) (.ebud n)

def execEbudCap (h : Hdr) (b : Opnd) (s : State) : Out :=
  issue h 0 (.once 1) s fun x s =>
    if x.act = 0 then .ok s
    else .ok (modSquad s x.id fun q => { q with ebudCap := rdScal x.q b % 2 ^ 32 })

def execPerfRd (h : Hdr) (sd n : Nat) (s : State) : Out :=
  issue h 0 (.once 1) s fun x s =>
    if x.act = 0 then .ok s else .ok (putFixed s x [.s sd (tget 0 x.q.perf n)])

def execPerfClr (h : Hdr) (s : State) : Out :=
  issue h 0 (.once 1) s fun x s =>
    if x.act = 0 then .ok s else .ok (modSquad s x.id fun q => { q with perf := [] })

/-! ### Privileged instructions (R40, R382, R393-R395) -/

/-- The squad runs a handler, or its task is privileged. -/
def privileged (s : State) (q : Squad) : Bool := q.trap.isSome || taskPriv s q

/-- A privileged instruction: PRIV where it may not be issued. -/
def privForm (h : Hdr) (cls : Nat) (s : State) (body : Iss → State → Res) : Out :=
  issue h cls (.once 1) s fun x s =>
    if !privileged s x.q then failI s x 0x02 0 else if x.act = 0 then .ok s else body x s

/-- A CSR as read; the trap CSRs read zero outside a handler. -/
def csrVal (s : State) (q : Squad) (id : Nat) : Nat :=
  let t := taskOf s q.task
  match id, q.trap with
  | 0, some r => r.cause.toNat
  | 1, some r => r.pc.index % 2 ^ 13 + r.pc.bank.toNat * 2 ^ 13
  | 2, some r => r.addr.toNat
  | 3, some r => r.mask.toNat
  | 0x10, _ => ((t.bind fun t => nodeOf s t.node).map (·.va)).getD 0
  | 0x11, _ => (t.map (·.rbudget)).getD 0
  | _, _ => 0

def execCsrRd (h : Hdr) (sd id : Nat) (s : State) : Out :=
  privForm h 1 s fun x s => .ok (putLater s x [.s sd (BitVec.ofNat 64 (csrVal s x.q id))])

def execCsrWr (h : Hdr) (id : Nat) (a : Opnd) (s : State) : Out :=
  privForm h 1 s fun x s =>
    let v := rdScal x.q a
    if id = 1 then
      .ok (modSquad s x.id fun q => { q with trap := q.trap.map fun t => { t with pc := ⟨v.testBit 13, v % 2 ^ 13⟩ } })
    else if id = 0x11 then .ok (modTask s x.q.task fun t => { t with rbudget := v % 256 })
    else .ok s

def execTret (h : Hdr) (s : State) : Out :=
  privForm h 1 s fun x s =>
    match x.q.trap with
    | none => failI s x 0x02 1
    | some t => .jump (modSquad s x.id (trapReturn t))

/-- Every squad of a task ends as if it had exited. -/
def endSquads (s : State) (task : Nat) : State :=
  (((taskOf s task).map (·.squads)).getD []).foldl (fun s id => endSquad s id) s

/-- The record of a HALT that is not zero. -/
def haltRec (s : State) (x : Iss) (n : Nat) : FaultRec :=
  ⟨0x10, n, x.q.core, x.q.idx, lowestD (faultSet x.act x.path), pcCode x.path.pc, 0, s.time, false⟩

def execHalt (h : Hdr) (b : Opnd) (s : State) : Out :=
  privForm h 0 s fun x s =>
    let n := rdScal x.q b % 256
    if n = 0 then .jump (endSquads s x.q.task) else .ok (requestKill s x.q.task (haltRec s x n))

end Sys2Proof.Machine
end

