-- ==== Sys2Proof/Machine/Dispatch.lean ====
section
/-! DEFINITION. The meaning of every instruction and event, by constructor. -/

namespace Sys2Proof.Machine

def exec (i : Instr) (s : State) : Host.Outcome State Fault Refusal :=
  match i with
  | .nop h => Sys2Proof.Machine.execNop h s
  | .mov h ty d a => Sys2Proof.Machine.execMov h ty d a s
  | .movw h ty d w => Sys2Proof.Machine.execMovw h ty d w s
  | .sel h ty ps neg d a b => Sys2Proof.Machine.execSel h ty ps neg d a b s
  | .iadd h ty sat ci co cp d a b => Sys2Proof.Machine.execIadd h ty sat ci co cp d a b s
  | .isub h ty sat ci co cp d a b => Sys2Proof.Machine.execIsub h ty sat ci co cp d a b s
  | .imul h ty d a b => Sys2Proof.Machine.execImul h ty d a b s
  | .imulh h ty d a b => Sys2Proof.Machine.execImulh h ty d a b s
  | .imad h ty d a b => Sys2Proof.Machine.execImad h ty d a b s
  | .idiv h ty d a b => Sys2Proof.Machine.execIdiv h ty d a b s
  | .idivRem h ty d a b => Sys2Proof.Machine.execIdivRem h ty d a b s
  | .imin h ty d a b => Sys2Proof.Machine.execImin h ty d a b s
  | .imax h ty d a b => Sys2Proof.Machine.execImax h ty d a b s
  | .iabs h ty d a => Sys2Proof.Machine.execIabs h ty d a s
  | .ineg h ty d a => Sys2Proof.Machine.execIneg h ty d a s
  | .and h ty d a b => Sys2Proof.Machine.execAnd h ty d a b s
  | .or h ty d a b => Sys2Proof.Machine.execOr h ty d a b s
  | .xor h ty d a b => Sys2Proof.Machine.execXor h ty d a b s
  | .not h ty d a => Sys2Proof.Machine.execNot h ty d a s
  | .shl h ty d a b => Sys2Proof.Machine.execShl h ty d a b s
  | .shr h ty d a b => Sys2Proof.Machine.execShr h ty d a b s
  | .rot h ty d a b => Sys2Proof.Machine.execRot h ty d a b s
  | .bfx h ty d a b => Sys2Proof.Machine.execBfx h ty d a b s
  | .bfi h ty d a b => Sys2Proof.Machine.execBfi h ty d a b s
  | .popc h ty d a => Sys2Proof.Machine.execPopc h ty d a s
  | .clz h ty d a => Sys2Proof.Machine.execClz h ty d a s
  | .brev h ty d a => Sys2Proof.Machine.execBrev h ty d a s
  | .icmp h ty c pd a b => Sys2Proof.Machine.execIcmp h ty c pd a b s
  | .lea h ty sh d a b => Sys2Proof.Machine.execLea h ty sh d a b s
  | .movs h d id => Sys2Proof.Machine.execMovs h d id s
  | .movx h id a => Sys2Proof.Machine.execMovx h id a s
  | .shfl h ty mode vd va b => Sys2Proof.Machine.execShfl h ty mode vd va b s
  | .ired h ty op sd va => Sys2Proof.Machine.execIred h ty op sd va s
  | .fadd h ft rm d a b => Sys2Proof.Machine.execFadd h ft rm d a b s
  | .fsub h ft rm d a b => Sys2Proof.Machine.execFsub h ft rm d a b s
  | .fmul h ft rm d a b => Sys2Proof.Machine.execFmul h ft rm d a b s
  | .ffma h ft rm d a b => Sys2Proof.Machine.execFfma h ft rm d a b s
  | .fmin h ft d a b => Sys2Proof.Machine.execFmin h ft d a b s
  | .fmax h ft d a b => Sys2Proof.Machine.execFmax h ft d a b s
  | .fcmp h ft c pd a b => Sys2Proof.Machine.execFcmp h ft c pd a b s
  | .frnd h ft rm d a => Sys2Proof.Machine.execFrnd h ft rm d a s
  | .fdiv h d a b => Sys2Proof.Machine.execFdiv h d a b s
  | .fsqrt h d a => Sys2Proof.Machine.execFsqrt h d a s
  | .frcp h d a => Sys2Proof.Machine.execFrcp h d a s
  | .frsq h d a => Sys2Proof.Machine.execFrsq h d a s
  | .fex2 h d a => Sys2Proof.Machine.execFex2 h d a s
  | .flg2 h d a => Sys2Proof.Machine.execFlg2 h d a s
  | .fsin h d a => Sys2Proof.Machine.execFsin h d a s
  | .fcos h d a => Sys2Proof.Machine.execFcos h d a s
  | .hfma2 h ft rm d a b => Sys2Proof.Machine.execHfma2 h ft rm d a b s
  | .hadd2 h ft rm d a b => Sys2Proof.Machine.execHadd2 h ft rm d a b s
  | .hmul2 h ft rm d a b => Sys2Proof.Machine.execHmul2 h ft rm d a b s
  | .f2i h ity ft rm d a => Sys2Proof.Machine.execF2i h ity ft rm d a s
  | .i2f h ft ity rm d a => Sys2Proof.Machine.execI2f h ft ity rm d a s
  | .fcvt h dst src rm d a => Sys2Proof.Machine.execFcvt h dst src rm d a s
  | .dxpk h w g rm vd va sb => Sys2Proof.Machine.execDxpk h w g rm vd va sb s
  | .dxunpk h w vd va b => Sys2Proof.Machine.execDxunpk h w vd va b s
  | .fclass h ft d a => Sys2Proof.Machine.execFclass h ft d a s
  | .fscale h ft rm d a b => Sys2Proof.Machine.execFscale h ft rm d a b s
  | .fred h ft op sd a => Sys2Proof.Machine.execFred h ft op sd a s
  | .plop h lut pd pa pb => Sys2Proof.Machine.execPlop h lut pd pa pb s
  | .voteAny h pd pa => Sys2Proof.Machine.execVoteAny h pd pa s
  | .voteAll h pd pa => Sys2Proof.Machine.execVoteAll h pd pa s
  | .voteUni h pd pa => Sys2Proof.Machine.execVoteUni h pd pa s
  | .voteBallot h sd pa => Sys2Proof.Machine.execVoteBallot h sd pa s
  | .pmaskGet h sd pa => Sys2Proof.Machine.execPmaskGet h sd pa s
  | .pmaskSet h pd a => Sys2Proof.Machine.execPmaskSet h pd a s
  | .flagsTest h pd mask => Sys2Proof.Machine.execFlagsTest h pd mask s
  | .flagsClr h mask => Sys2Proof.Machine.execFlagsClr h mask s
  | .bra h target jn => Sys2Proof.Machine.execBra h target jn s
  | .brx h sd jn => Sys2Proof.Machine.execBrx h sd jn s
  | .call h target jn => Sys2Proof.Machine.execCall h target jn s
  | .ret h => Sys2Proof.Machine.execRet h s
  | .join h => Sys2Proof.Machine.execJoin h s
  | .yield h => Sys2Proof.Machine.execYield h s
  | .setpri h b => Sys2Proof.Machine.execSetpri h b s
  | .exit h => Sys2Proof.Machine.execExit h s
  | .brdec h sd target => Sys2Proof.Machine.execBrdec h sd target s
  | .ovlj h call bank target => Sys2Proof.Machine.execOvlj h call bank target s
  | .bkpt h n => Sys2Proof.Machine.execBkpt h n s
  | .trap h n => Sys2Proof.Machine.execTrap h n s
  | .waitc h b => Sys2Proof.Machine.execWaitc h b s
  | .waitcRel h b => Sys2Proof.Machine.execWaitcRel h b s
  | .ld h size ord sc vd ba b => Sys2Proof.Machine.execLd h size ord sc vd ba b s
  | .st h size ord sc vd ba b => Sys2Proof.Machine.execSt h size ord sc vd ba b s
  | .lds h size ord sc vd ba b => Sys2Proof.Machine.execLds h size ord sc vd ba b s
  | .sts h size ord sc vd ba b => Sys2Proof.Machine.execSts h size ord sc vd ba b s
  | .ldr h size ord sc vd ba b => Sys2Proof.Machine.execLdr h size ord sc vd ba b s
  | .str h size ord sc vd ba b => Sys2Proof.Machine.execStr h size ord sc vd ba b s
  | .ldu h size ord sc sd ba b => Sys2Proof.Machine.execLdu h size ord sc sd ba b s
  | .recld h bd ba b => Sys2Proof.Machine.execRecld h bd ba b s
  | .recldRange h bd n w => Sys2Proof.Machine.execRecldRange h bd n w s
  | .recldScr h bd => Sys2Proof.Machine.execRecldScr h bd s
  | .recldTile h bd => Sys2Proof.Machine.execRecldTile h bd s
  | .recsetOff h bd b => Sys2Proof.Machine.execRecsetOff h bd b s
  | .recsetExt0 h bd b => Sys2Proof.Machine.execRecsetExt0 h bd b s
  | .recsetExt1 h bd b => Sys2Proof.Machine.execRecsetExt1 h bd b s
  | .recsetRow h bd b => Sys2Proof.Machine.execRecsetRow h bd b s
  | .recsetShape h bd b => Sys2Proof.Machine.execRecsetShape h bd b s
  | .recsetEsize h bd b => Sys2Proof.Machine.execRecsetEsize h bd b s
  | .recsetBmode h bd b => Sys2Proof.Machine.execRecsetBmode h bd b s
  | .recsetSwz h bd b => Sys2Proof.Machine.execRecsetSwz h bd b s
  | .recsetXv h bd b => Sys2Proof.Machine.execRecsetXv h bd b s
  | .recsetRo h bd => Sys2Proof.Machine.execRecsetRo h bd s
  | .recsetTgt h bd b => Sys2Proof.Machine.execRecsetTgt h bd b s
  | .recsetAlias h bd b => Sys2Proof.Machine.execRecsetAlias h bd b s
  | .lld h size lvl vd ba b => Sys2Proof.Machine.execLld h size lvl vd ba b s
  | .lodq h lvl vd ba b => Sys2Proof.Machine.execLodq h lvl vd ba b s
  | .fbput h a b => Sys2Proof.Machine.execFbput h a b s
  | .tld h plane vd ba b => Sys2Proof.Machine.execTld h plane vd ba b s
  | .tst h plane vd ba b => Sys2Proof.Machine.execTst h plane vd ba b s
  | .descrd h vd ba b => Sys2Proof.Machine.execDescrd h vd ba b s
  | .descwr h d ba b => Sys2Proof.Machine.execDescwr h d ba b s
  | .prefDc h ba b => Sys2Proof.Machine.execPrefDc h ba b s
  | .prefXl h ba b => Sys2Proof.Machine.execPrefXl h ba b s
  | .cwbWb h ba b => Sys2Proof.Machine.execCwbWb h ba b s
  | .cwbWbi h ba b => Sys2Proof.Machine.execCwbWbi h ba b s
  | .atom h so op vd ba b => Sys2Proof.Machine.execAtom h so op vd ba b s
  | .red h so op vd ba b => Sys2Proof.Machine.execRed h so op vd ba b s
  | .cas h so vd ba b => Sys2Proof.Machine.execCas h so vd ba b s
  | .fence h ord sc => Sys2Proof.Machine.execFence h ord sc s
  | .fencex h sc m1 m2 => Sys2Proof.Machine.execFencex h sc m1 m2 s
  | .barArm h sc ba sd b => Sys2Proof.Machine.execBarArm h sc ba sd b s
  | .barArv h sd ba b => Sys2Proof.Machine.execBarArv h sd ba b s
  | .barWait h ba b => Sys2Proof.Machine.execBarWait h ba b s
  | .barSync h ba b => Sys2Proof.Machine.execBarSync h ba b s
  | .awSet h ba b => Sys2Proof.Machine.execAwSet h ba b s
  | .awWait h sc ba b => Sys2Proof.Machine.execAwWait h sc ba b s
  | .qInit h sc ba b => Sys2Proof.Machine.execQInit h sc ba b s
  | .qPush h ba b => Sys2Proof.Machine.execQPush h ba b s
  | .qPop h px d ba => Sys2Proof.Machine.execQPop h px d ba s
  | .qClose h ba => Sys2Proof.Machine.execQClose h ba s
  | .cpy h bd ba b => Sys2Proof.Machine.execCpy h bd ba b s
  | .cpyg h d ba b => Sys2Proof.Machine.execCpyg h d ba b s
  | .cpyp h d ba b => Sys2Proof.Machine.execCpyp h d ba b s
  | .cpys h od ba b => Sys2Proof.Machine.execCpys h od ba b s
  | .cpysCb h od ba b => Sys2Proof.Machine.execCpysCb h od ba b s
  | .cpysZb h od ba b => Sys2Proof.Machine.execCpysZb h od ba b s
  | .cpyl h d ba sb => Sys2Proof.Machine.execCpyl h d ba sb s
  | .ovlLd h bank ba b => Sys2Proof.Machine.execOvlLd h bank ba b s
  | .cpyStat h sd b => Sys2Proof.Machine.execCpyStat h sd b s
  | .cpyCancel h b => Sys2Proof.Machine.execCpyCancel h b s
  | .slotClaim h sd b => Sys2Proof.Machine.execSlotClaim h sd b s
  | .slotClaimAt h sd b => Sys2Proof.Machine.execSlotClaimAt h sd b s
  | .slotFree h b => Sys2Proof.Machine.execSlotFree h b s
  | .slotInfoGet h sd oa => Sys2Proof.Machine.execSlotInfoGet h sd oa s
  | .slotInfoExt h od b => Sys2Proof.Machine.execSlotInfoExt h od b s
  | .slotInfoAcc h sd aa => Sys2Proof.Machine.execSlotInfoAcc h sd aa s
  | .mma h z ad oa ob => Sys2Proof.Machine.execMma h z ad oa ob s
  | .mmStage h n t2 z ad oa ob => Sys2Proof.Machine.execMmStage h n t2 z ad oa ob s
  | .accZero h ad => Sys2Proof.Machine.execAccZero h ad s
  | .accZeroFlg h ad => Sys2Proof.Machine.execAccZeroFlg h ad s
  | .drain h rm add clr bd aa b => Sys2Proof.Machine.execDrain h rm add clr bd aa b s
  | .accLd h ad ba => Sys2Proof.Machine.execAccLd h ad ba s
  | .accSt h bd aa => Sys2Proof.Machine.execAccSt h bd aa s
  | .gmv h bi bd ba sb => Sys2Proof.Machine.execGmv h bi bd ba sb s
  | .mmWait h b => Sys2Proof.Machine.execMmWait h b s
  | .lfSetup h bd ba b => Sys2Proof.Machine.execLfSetup h bd ba b s
  | .lfSpan h redo pm k vd ba sb => Sys2Proof.Machine.execLfSpan h redo pm k vd ba sb s
  | .lfZtest h ge w imk vb => Sys2Proof.Machine.execLfZtest h ge w imk vb s
  | .lfVsplit h gap pp vid via => Sys2Proof.Machine.execLfVsplit h gap pp vid via s
  | .lfInterp h k vd va vb => Sys2Proof.Machine.execLfInterp h k vd va vb s
  | .lfWrite h imk a vb => Sys2Proof.Machine.execLfWrite h imk a vb s
  | .lfWriteInc h imk va vb => Sys2Proof.Machine.execLfWriteInc h imk va vb s
  | .lfVis h imk a vb => Sys2Proof.Machine.execLfVis h imk a vb s
  | .lfRate h b => Sys2Proof.Machine.execLfRate h b s
  | .lfViews h sd => Sys2Proof.Machine.execLfViews h sd s
  | .lfViewsV h d band => Sys2Proof.Machine.execLfViewsV h d band s
  | .lfRepro h bd ba sb => Sys2Proof.Machine.execLfRepro h bd ba sb s
  | .lfResolve h bd ba sb => Sys2Proof.Machine.execLfResolve h bd ba sb s
  | .lfPresentArm h sb => Sys2Proof.Machine.execLfPresentArm h sb s
  | .lfPresentCommit h ba sb => Sys2Proof.Machine.execLfPresentCommit h ba sb s
  | .lfPresentSub h ba sb => Sys2Proof.Machine.execLfPresentSub h ba sb s
  | .lfStat h pkg sd b => Sys2Proof.Machine.execLfStat h pkg sd b s
  | .taskSpawn h sd ba => Sys2Proof.Machine.execTaskSpawn h sd ba s
  | .taskSignal h ba => Sys2Proof.Machine.execTaskSignal h ba s
  | .taskCollect h ba b => Sys2Proof.Machine.execTaskCollect h ba b s
  | .taskCheck h sd ba => Sys2Proof.Machine.execTaskCheck h sd ba s
  | .taskMigrate h b => Sys2Proof.Machine.execTaskMigrate h b s
  | .ebudWait h b => Sys2Proof.Machine.execEbudWait h b s
  | .ebudCap h b => Sys2Proof.Machine.execEbudCap h b s
  | .perfRd h sd n => Sys2Proof.Machine.execPerfRd h sd n s
  | .perfClr h => Sys2Proof.Machine.execPerfClr h s
  | .rmapSet h ba b => Sys2Proof.Machine.execRmapSet h ba b s
  | .rmapClr h ba b => Sys2Proof.Machine.execRmapClr h ba b s
  | .rmapBump h => Sys2Proof.Machine.execRmapBump h s
  | .csrRd h sd id => Sys2Proof.Machine.execCsrRd h sd id s
  | .csrWr h id a => Sys2Proof.Machine.execCsrWr h id a s
  | .tret h => Sys2Proof.Machine.execTret h s
  | .halt h b => Sys2Proof.Machine.execHalt h b s
  | .variableLatencyResult squad k => Sys2Proof.Machine.execVariableLatencyResult squad k s
  | .copyCommandAccept die eng => Sys2Proof.Machine.execCopyCommandAccept die eng s
  | .copyCommandStart die eng => Sys2Proof.Machine.execCopyCommandStart die eng s
  | .copyChunkLanded cmd chunk => Sys2Proof.Machine.execCopyChunkLanded cmd chunk s
  | .copyRuntimeFault cmd => Sys2Proof.Machine.execCopyRuntimeFault cmd s
  | .streamChunkDecoded cmd k => Sys2Proof.Machine.execStreamChunkDecoded cmd k s
  | .streamChunkCommit cmd => Sys2Proof.Machine.execStreamChunkCommit cmd s
  | .fillHoldRelease cmd => Sys2Proof.Machine.execFillHoldRelease cmd s
  | .stagedCommandFire core n => Sys2Proof.Machine.execStagedCommandFire core n s
  | .overlayLoadEnd cmd => Sys2Proof.Machine.execOverlayLoadEnd cmd s
  | .matrixQueueAccept core => Sys2Proof.Machine.execMatrixQueueAccept core s
  | .mmaOperandFetch core => Sys2Proof.Machine.execMmaOperandFetch core s
  | .mmaExecute core => Sys2Proof.Machine.execMmaExecute core s
  | .accZeroExecute core => Sys2Proof.Machine.execAccZeroExecute core s
  | .drainExecute core => Sys2Proof.Machine.execDrainExecute core s
  | .addOnStore core home => Sys2Proof.Machine.execAddOnStore core home s
  | .accLdExecute core => Sys2Proof.Machine.execAccLdExecute core s
  | .accStExecute core => Sys2Proof.Machine.execAccStExecute core s
  | .gmvEvaluate core => Sys2Proof.Machine.execGmvEvaluate core s
  | .matrixCommandComplete core => Sys2Proof.Machine.execMatrixCommandComplete core s
  | .slotFreeEffect core slot => Sys2Proof.Machine.execSlotFreeEffect core slot s
  | .slotExtentEffect core slot => Sys2Proof.Machine.execSlotExtentEffect core slot s
  | .barrierArrival k => Sys2Proof.Machine.execBarrierArrival k s
  | .feedbackAppend ctx => Sys2Proof.Machine.execFeedbackAppend ctx s
  | .lodEpochDoneAdvance ctx => Sys2Proof.Machine.execLodEpochDoneAdvance ctx s
  | .spanRequestAccept quad => Sys2Proof.Machine.execSpanRequestAccept quad s
  | .reproExecute die => Sys2Proof.Machine.execReproExecute die s
  | .resolveExecute die => Sys2Proof.Machine.execResolveExecute die s
  | .presentCommitEffect ch => Sys2Proof.Machine.execPresentCommitEffect ch s
  | .scanOutStart ch => Sys2Proof.Machine.execScanOutStart ch s
  | .leaseRequest node => Sys2Proof.Machine.execLeaseRequest node s
  | .taskPlace node => Sys2Proof.Machine.execTaskPlace node s
  | .placementSpillTimeout node => Sys2Proof.Machine.execPlacementSpillTimeout node s
  | .gangDrainTimeout node => Sys2Proof.Machine.execGangDrainTimeout node s
  | .nodeComplete node => Sys2Proof.Machine.execNodeComplete node s
  | .collectorDeadlineExpiry node => Sys2Proof.Machine.execCollectorDeadlineExpiry node s
  | .collectorInstanceReady node => Sys2Proof.Machine.execCollectorInstanceReady node s
  | .taskKill task code sub => Sys2Proof.Machine.execTaskKill task code sub s
  | .taskScrub task => Sys2Proof.Machine.execTaskScrub task s
  | .preemptRequest task why => Sys2Proof.Machine.execPreemptRequest task why s
  | .preemptSave task => Sys2Proof.Machine.execPreemptSave task s
  | .preemptReplay task => Sys2Proof.Machine.execPreemptReplay task s
  | .taskResume task => Sys2Proof.Machine.execTaskResume task s
  | .migration task => Sys2Proof.Machine.execMigration task s
  | .migrationForwardExpiry k => Sys2Proof.Machine.execMigrationForwardExpiry k s
  | .wdogExpiry task => Sys2Proof.Machine.execWdogExpiry task s
  | .waitcExpiry squad => Sys2Proof.Machine.execWaitcExpiry squad s
  | .peerAccessTimeout squad => Sys2Proof.Machine.execPeerAccessTimeout squad s
  | .eventAppend ctx => Sys2Proof.Machine.execEventAppend ctx s
  | .invalidationComplete ctx => Sys2Proof.Machine.execInvalidationComplete ctx s
  | .portDown port => Sys2Proof.Machine.execPortDown port s
  | .heartbeatSend port => Sys2Proof.Machine.execHeartbeatSend port s
  | .heartbeatLoss port => Sys2Proof.Machine.execHeartbeatLoss port s
  | .nodeLeased node => Sys2Proof.Machine.execNodeLeased node s
  | .presentDeadline ch => Sys2Proof.Machine.execPresentDeadline ch s
  | .illegalWord sub => Sys2Proof.Machine.execIllegalWord sub s
  | .congestionBroadcast die occ => Sys2Proof.Machine.execCongestionBroadcast die occ s
  | .hbmRefresh die group => Sys2Proof.Machine.execHbmRefresh die group s
  | .patrolScrub die => Sys2Proof.Machine.execPatrolScrub die s
  | .uncorrectableError site => Sys2Proof.Machine.execUncorrectableError site s
  | .pacerRefill => Sys2Proof.Machine.execPacerRefill s
  | .pacerControlWrite die ctx refill cap rcap => Sys2Proof.Machine.execPacerControlWrite die ctx refill cap rcap s
  | .doorbell ctx n => Sys2Proof.Machine.execDoorbell ctx n s
  | .hostBar2Access link off write relaxed data => Sys2Proof.Machine.execHostBar2Access link off write relaxed data s
  | .peerAccessArrival dev pa op data => Sys2Proof.Machine.execPeerAccessArrival dev pa op data s
  | .frespReplay ctx token => Sys2Proof.Machine.execFrespReplay ctx token s
  | .frespFatal ctx token => Sys2Proof.Machine.execFrespFatal ctx token s
  | .frespCompleteNode ctx token => Sys2Proof.Machine.execFrespCompleteNode ctx token s
  | .frespEndNode ctx token => Sys2Proof.Machine.execFrespEndNode ctx token s
  | .inval ctx count vpn => Sys2Proof.Machine.execInval ctx count vpn s
  | .presentChannelWrite ch x => Sys2Proof.Machine.execPresentChannelWrite ch x s
  | .counterReset => Sys2Proof.Machine.execCounterReset s
  | .debugStop core => Sys2Proof.Machine.execDebugStop core s
  | .debugStep core slot => Sys2Proof.Machine.execDebugStep core slot s
  | .readbackWrite u x => Sys2Proof.Machine.execReadbackWrite u x s
  | .attestationRequest nonce => Sys2Proof.Machine.execAttestationRequest nonce s
  | .managementWrite w => Sys2Proof.Machine.execManagementWrite w s
  | .flitReceive port crcOk beat => Sys2Proof.Machine.execFlitReceive port crcOk beat s
  | .portRetrain port laneFailed => Sys2Proof.Machine.execPortRetrain port laneFailed s
  | .timebaseSync offset => Sys2Proof.Machine.execTimebaseSync offset s
  | .timebaseHoldover => Sys2Proof.Machine.execTimebaseHoldover s
  | .ageingUpdate idx conf wear eolh => Sys2Proof.Machine.execAgeingUpdate idx conf wear eolh s
  | .thermalThrottle lower => Sys2Proof.Machine.execThermalThrottle lower s
  | .thermalShutdown => Sys2Proof.Machine.execThermalShutdown s
  | .deviceResetBoot => Sys2Proof.Machine.execDeviceResetBoot s
  | .firmwareUpdate slot version image => Sys2Proof.Machine.execFirmwareUpdate slot version image s
  | .hotPlugJoin dev => Sys2Proof.Machine.execHotPlugJoin dev s

end Sys2Proof.Machine
end

