-- ==== Sys2Proof/Machine/Sched.lean ====
section
/-! DEFINITION. Which agent of the device moves next: the lanes' issue (R123, R124), the events that can occur, the passing
of time. -/

namespace Sys2Proof.Machine

/-! ### Eligibility (R42, R123, R155) -/

/-- The issue of what the fetch found; a word that is no instruction is the event ILLEGAL_WORD. -/
def issueWord (d : Decoded) (s : State) : Out :=
  match d with
  | .ok i => exec i s
  | .ill n => Sys2Proof.Machine.execIllegalWord n s

/-- A waiting instruction can go on: issued again, it waits no more. -/
def retryEnds (s : State) (id : Nat) (q : Squad) (p : Path) : Bool :=
  match issueWord (fetch s q p) { s with cur := some id } with
  | .next s' => !((squadOf s' id).map (·.wait) == some q.wait)
  | _ => false

/-- The squad's wait lets it issue. -/
def waitLets (s : State) (id : Nat) (q : Squad) (p : Path) : Bool :=
  match q.wait with
  | none | some .peerLost => true
  | some (.bar _) | some .aw | some .qPush | some .qPop | some (.mmWait _) | some (.ebud _) | some .collect
  | some (.peer _) => retryEnds s id q p
  | _ => false

/-- The squad's task is on its core and is not being stopped. -/
def taskRuns (s : State) (q : Squad) : Bool :=
  match taskOf s q.task with
  | some t => !t.saved && t.stopping == .no
  | none => false

/-- What keeps a squad from issuing, energy and its core's STOP apart. -/
def mayIssue (s : State) (id : Nat) : Bool :=
  match squadOf s id with
  | none => false
  | some q =>
    match runningPath q with
    | none => false
    | some p =>
      s.ready && taskRuns s q && q.fault.isNone && (!q.settling || q.pend.isEmpty) &&
        (bankOf s q.core p.pc.bank).loading.isEmpty && waitLets s id q p

/-- What a squad issues next. -/
def nextWord (s : State) (id : Nat) : Option Decoded :=
  (squadOf s id).bind fun q => (runningPath q).map fun p => fetch s q p

/-- Issued now, the squad would wait for energy: the state in which it waits (R305, R391). -/
def unpaid (s : State) (id : Nat) : Option State :=
  match (nextWord s id).map fun d => issueWord d { s with cur := some id } with
  | some (.next t) =>
    if (squadOf t id).any fun q => q.wait matches some (.budget _) | some .capped then some { t with cur := s.cur } else none
  | _ => none

def canIssue (s : State) (id : Nat) : Bool := mayIssue s id && (unpaid s id).isNone

def coreOf (s : State) (id : Nat) : Nat := ((squadOf s id).map (·.core)).getD 0
def eligible (s : State) (id : Nat) : Bool := !stopped s (coreOf s id) && canIssue s id

/-- A squad whose next instruction costs more than it may spend joins its waiting list, without a turn (R305). -/
def joinOne (s : State) (id : Nat) : State :=
  if !stopped s (coreOf s id) && mayIssue s id then (unpaid s id).getD s else s
def joinLists (s : State) : State := s.squads.foldl (fun s e => joinOne s e.1) s

/-! ### Lanes (R123) -/

def laneKey (q : Squad) : Nat := q.core * 32 + q.lane

/-- Squads in order of residence, oldest first. -/
def addByAge (s : State) (l : List Nat) (id : Nat) : List Nat :=
  let age (i : Nat) : Nat := ((squadOf s i).map (·.since)).getD 0
  (l.takeWhile fun i => decide (age i ≤ age id)) ++ id :: l.dropWhile fun i => decide (age i ≤ age id)

/-- The active set of a lane: who stays, cut to the cap from those that entered last; then priority 7, then the oldest. -/
def activeSet (s : State) (k : Nat) (old : List Nat) : List Nat :=
  let mine := ((s.squads.filter fun e => laneKey e.2 == k && eligible s e.1).map (·.1)).foldl (addByAge s) []
  let cap := 4 - tget 0 s.cong (k / 32)
  let stay := (old.filter fun id => mine.contains id).take cap
  let rest := mine.filter fun id => !stay.contains id
  let first := rest.filter fun id => (squadOf s id).any fun q => deadline s q
  let last := rest.filter fun id => !first.contains id
  (stay ++ first ++ last).take cap

/-- Lanes with resident squads. -/
def laneKeys (s : State) : List Nat := (s.squads.map fun e => laneKey e.2).eraseDups

/-- Every lane's active set as it now is. -/
def refreshLanes (s : State) : State :=
  { s with lanes := (laneKeys s).foldl (fun m k =>
      let old := (aget s.lanes k).getD ([], 0)
      aput m k (activeSet s k old.1, old.2)) [] }

/-- Round robin: the squad after the last one that issued, in the set's order of ids. -/
def laneNext (set : List Nat) (last : Nat) : Option Nat :=
  let least (l : List Nat) : Option Nat := l.foldl (fun b i => match b with
    | none => some i
    | some c => some (min c i)) none
  (least (set.filter fun i => last ≤ i)).orElse fun _ => least set

/-- An instruction occupies the lane until the queue of its engine accepts its command (R247, R279). -/
def laneBusy (s : State) (k : Nat) : Bool := s.squads.any fun e => laneKey e.2 == k && (e.2.wait matches some (.accept _))

/-- The squad that its lane issues next. -/
def laneTurn (s : State) (id : Nat) : Bool :=
  match squadOf s id with
  | none => false
  | some q =>
    !laneBusy s (laneKey q) &&
      match aget s.lanes (laneKey q) with
      | some l => laneNext l.1 l.2 == some id
      | none => false

/-! ### Issue -/

/-- One issue of a squad: its next instruction. -/
def issueSquad (s : State) (id : Nat) : Out :=
  match nextWord s id with
  | none => .next s
  | some d => issueWord d { modSquad s id (fun q => { q with settling := false }) with cur := some id }

/-- The lane has issued the squad. -/
def rotate (q : Squad) (id : Nat) (s : State) : State :=
  { s with lanes := amod s.lanes (laneKey q) fun l => (l.1, id + 1) }

/-- A debug step settles, and its selection ends (R155). -/
def endStep (id : Nat) (s : State) : State := modSquad s id fun q => { q with settling := true, select := none }

/-- An outcome with its next state changed. -/
def onNext (o : Out) (f : State → State) : Out :=
  match o with
  | .next s => .next (f s)
  | .fault r => .fault r
  | .refused r => .refused r

/-- The turn of a squad, or its debug step on a stopped core; a squad that may not issue is passed over. DESIGN CHOICE: the debug step
of a squad that may not issue now, since it waits or lacks the energy, is dropped, and its selection ends; R155 does not say. -/
def turn (s : State) (id : Nat) : Out :=
  match squadOf s id with
  | none => .next s
  | some q =>
    if stopped s q.core then
      if q.select.isSome && mayIssue s id then onNext (issueSquad s id) (endStep id)
      else .next (modSquad s id fun q => { q with select := none })
    else if laneTurn s id && canIssue s id then onNext (issueSquad s id) (rotate q id)
    else .next s

/-! ### Time -/

/-- What falls due at a fixed moment: a refill (R304), deadlines and scan-outs (R355), a peer that does not answer (R410), a
quiet port, heartbeats (R409, R415), the loss of the timebase (R412). -/
inductive Due where
  | refill
  | deadline (ch : Nat)
  | scanOut (ch : Nat)
  | peer (squad : Nat)
  | quiet (port : Nat)
  | beat (port : Nat)
  | lost (port : Nat)
  | holdover
  /-- the oldest access of a link that waits for a peer device: it answers again, or 20 us have passed (R410) -/
  | host (link : Nat)
  deriving DecidableEq, Repr

/-- Its event. -/
def fallDue (d : Due) (s : State) : Out :=
  match d with
  | .refill => Sys2Proof.Machine.execPacerRefill s
  | .deadline ch => Sys2Proof.Machine.execPresentDeadline ch s
  | .scanOut ch => Sys2Proof.Machine.execScanOutStart ch s
  | .peer id => Sys2Proof.Machine.execPeerAccessTimeout id s
  | .quiet n => Sys2Proof.Machine.execPortDown n s
  | .beat n => Sys2Proof.Machine.execHeartbeatSend n s
  | .lost n => Sys2Proof.Machine.execHeartbeatLoss n s
  | .holdover => Sys2Proof.Machine.execTimebaseHoldover s
  | .host l => .next (hostResume s l)

def channelDue (e : Nat × Channel) : List (Nat × Due) :=
  (e.2.armed.map fun f => (f.deadline, Due.deadline e.1)) ++ e.2.due.map fun d => (d.1, Due.scanOut e.1)
def portDue (e : Nat × Port) : List (Nat × Due) :=
  if e.2.up then
    [(e.2.lastFlit + 1000000, .quiet e.1), (e.2.sentBeat + 50000, .beat e.1)] ++
      if e.2.lost then [] else [(e.2.lastBeat + 200000, .lost e.1)]
  else []
def squadDue (e : Nat × Squad) : List (Nat × Due) :=
  match e.2.wait with
  | some (.peer t) => [(t + 20000, .peer e.1)]
  | _ => []
/-- The oldest access of each link that waits. -/
def hostDue (s : State) : List (Nat × Due) :=
  [0, 1].filterMap fun l => (s.hostHeld.find? fun r => r.link == l).map fun r =>
    (if r.bell.isNone && hostDown s l r.off r.data.length r.write then r.since + 20000 else 0, Due.host l)
/-- All but the refill, each with its moment. -/
def dues (s : State) : List (Nat × Due) :=
  s.channels.flatMap channelDue ++ s.ports.flatMap portDue ++ s.squads.flatMap squadDue ++ hostDue s ++
    if s.timebase.root ≠ s.dev ∧ !s.timebase.lost then [(s.timebase.lastSync + 100000, .holdover)] else []

/-- What has come due; the refill comes first. -/
def dueNow (s : State) : Option Due :=
  if s.refills < s.time / 1000 then some .refill
  else ((dues s).find? fun d => decide (d.1 ≤ s.time)).map (·.2)

/-- The next moment at which something falls due. -/
def nextDue (s : State) : Nat :=
  ((dues s).filterMap fun d => if s.time < d.1 then some d.1 else none).foldl min ((s.time / 1000 + 1) * 1000)

/-- What slewing adds to `real` ns: at most one ns in 10,000 (R412). -/
def slewBy (tb : Timebase) (real : Nat) : Int :=
  let n := min tb.slew.natAbs ((tb.credit + real) / 10000)
  if tb.slew < 0 then -(n : Int) else n

/-- The timebase after `real` ns, of which it has gained or lost `adj`. -/
def slewed (tb : Timebase) (real : Nat) (adj : Int) : Timebase :=
  { tb with slew := tb.slew - adj, credit := if tb.slew = 0 then 0 else (tb.credit + real) % 10000 }

/-- Counters 1 to 4 of a squad over some cycles; waiting for room in an engine's queue occupies the lane (R279, R317, R392). -/
def countWait (n : Nat) (q : Squad) : Squad :=
  let add (k : Nat) : Squad := { q with perf := tset 0 q.perf k (tget 0 q.perf k + BitVec.ofNat 64 n) }
  match q.wait with
  | some (.accept _) => add 1
  | some (.budget _) | some .capped | some (.ebud _) => add 2
  | some (.bar _) | some (.barArrive _) | some .aw | some .qPush | some .qPop | some .collect | some (.waitc _)
  | some (.waitcRel _) => add 4
  | _ => if q.settling && !q.pend.isEmpty then add 3 else q

/-- Time passes, not beyond what falls due next: `%time` follows the timebase, `%clock` counts the cycles run at the clock's
frequency (R417). -/
def passTime (s : State) (ns : Nat) : State :=
  let s := markMisfits s
  let room := nextDue s - s.time
  let real := min ns room
  let go := min (real + slewBy s.timebase real).toNat room
  let c := s.clockRem + real * s.mhz
  { s with
    time := s.time + go
    timebase := slewed s.timebase real (go - real)
    clock := s.clock + c / 1000
    clockRem := c % 1000
    squads := s.squads.map fun (e : Nat × Squad) =>
      (e.1, if ((taskOf s e.2.task).map fun t => !t.saved).getD false then countWait (c / 1000) e.2 else e.2) }

/-! ### Events that the device itself can bring about -/

/-- Events by squad, arrival and quad. -/
def squadEvents (s : State) : List Instr :=
  (s.squads.flatMap fun e =>
    (e.2.pend.map fun p => .variableLatencyResult e.1 p.id) ++ [.waitcExpiry e.1]) ++
  ((List.range s.arrivals.length).map .barrierArrival) ++
  ((s.spans.filterMap fun r => squadOf s r.squad).map fun q => .spanRequestAccept (q.core / 4))

/-- Events of copy engines. -/
def copyEvents (s : State) : List Instr :=
  s.copies.flatMap fun c =>
    [.copyCommandAccept c.die c.eng, .copyCommandStart c.die c.eng, .copyRuntimeFault c.id, .streamChunkCommit c.id,
      .fillHoldRelease c.id, .overlayLoadEnd c.id] ++
    ((remaining c).map fun j => .copyChunkLanded c.id j) ++ ((List.range 16).map fun k => .streamChunkDecoded c.id k)

/-- Events of matrix engines and operand memories. -/
def matrixEvents (s : State) : List Instr :=
  (s.matInbox.map fun e => .matrixQueueAccept e.1) ++
  (s.matQueue.flatMap fun e =>
    [.mmaOperandFetch e.1, .mmaExecute e.1, .accZeroExecute e.1, .drainExecute e.1, .accLdExecute e.1, .accStExecute e.1,
      .gmvEvaluate e.1, .matrixCommandComplete e.1] ++
    ((e.2.head?.map (·.homes)).getD []).map fun h => .addOnStore e.1 h) ++
  (s.staged.map fun e => .stagedCommandFire (e.1 / 8) (e.1 % 8)) ++
  (s.slotWaits.flatMap fun w => [.slotFreeEffect w.core w.slot, .slotExtentEffect w.core w.slot])

/-- Events of frame units, present channels and contexts. -/
def frameEvents (s : State) : List Instr :=
  (s.lfCmds.flatMap fun c => [.reproExecute c.die, .resolveExecute c.die]) ++
  (s.channels.map fun e => .presentCommitEffect e.1) ++
  (s.ctxs.flatMap fun e => [.feedbackAppend e.1, .lodEpochDoneAdvance e.1, .eventAppend e.1, .invalidationComplete e.1])

/-- Events of the dispatcher. -/
def dispatchEvents (s : State) : List Instr :=
  (s.nodes.flatMap fun e =>
    [.leaseRequest e.1, .nodeLeased e.1, .taskPlace e.1, .placementSpillTimeout e.1, .gangDrainTimeout e.1, .nodeComplete e.1,
      .collectorDeadlineExpiry e.1, .collectorInstanceReady e.1]) ++
  (s.tasks.flatMap fun e =>
    [.taskScrub e.1, .preemptRequest e.1 .priority, .preemptRequest e.1 .drain, .preemptSave e.1, .preemptReplay e.1,
      .taskResume e.1, .migration e.1, .wdogExpiry e.1] ++
    (match e.2.stopping with | .kill r => [.taskKill e.1 r.code r.sub] | _ => [])) ++
  ((List.range s.forwards.length).map .migrationForwardExpiry)

/-- Until firmware has started the dies, a boot. -/
def bootEvents (s : State) : List Instr := if s.ready then [] else [.deviceResetBoot]

/-- The event changes the state: its condition holds. -/
def occurs (s : State) (i : Instr) : Bool :=
  match exec i s with
  | .next s' => s' != s
  | _ => false

/-- What may move next. -/
def moves (s : State) : List Agendum :=
  (((squadEvents s ++ copyEvents s ++ matrixEvents s ++ frameEvents s ++ dispatchEvents s ++ bootEvents s).eraseDups.filter
    (occurs s)).map .event) ++
  (s.lanes.filterMap fun e => (laneNext e.2.1 e.2.2).map .issue) ++
  [.tick (Config.elapse s.ctr)]

/-- The choice among them. -/
def chosen (s : State) : Agendum :=
  let ms := moves s
  match ms with
  | [a] => a
  | _ => (ms[Config.pick s.ctr ms.length % ms.length]?).getD (.tick 0)

/-- What the agenda may ask for as an event: not a word's meaning. -/
def isEvent (i : Instr) : Bool :=
  match i with
  | .illegalWord _ => false
  | _ => i.hdr.isNone

/-- One move. -/
def perform (s : State) (a : Agendum) : Out :=
  match a with
  | .issue id => turn s id
  | .event i => if isEvent i then exec i s else .next s
  | .tick ns => .next (passTime s ns)

/-- A step of a device with power: what falls due, else the agenda, else a free choice. -/
def moveOn (s : State) : Out :=
  match dueNow s with
  | some d => fallDue d s
  | none =>
    match s.agenda with
    | a :: r => perform { s with agenda := r } a
    | [] => perform s (chosen s)

/-- A step; without power only a reset can come (R417). -/
def machineStep (s : State) : Out :=
  if s.powered then onNext (moveOn (tickCtr s)) fun s => refreshLanes (joinLists s)
  else
    match s.agenda with
    | .event .deviceResetBoot :: r => exec .deviceResetBoot { s with agenda := r }
    | _ => .fault .noPower

end Sys2Proof.Machine
end

