-- ==== Sys2Proof/Machine/Step.lean ====
section
/-! DEFINITION. One step of the device, and a device that is about to issue a given instruction. -/

namespace Sys2Proof.Machine

def step (s : State) : Host.Outcome State Fault Refusal := Sys2Proof.Machine.machineStep s

/-- The task that carries a placed word, with every register and tile that a task can have. -/
def wordTask (s : State) : Task :=
  { node := s.nextId + 2, ctx := 0, part := 0, size := 0,
    tr := { trReset with nsquad := 1, regs := 32, slots := 32, acc := 32, scratch := 65536 },
    core := 0, base := 0, slots := List.range 32, claimed := [], tile0 := 0, banks := [false], squads := [s.nextId],
    saved := false, stopping := .no, rbudget := 0, runFrom := s.time, idle := 0, entry := 0, bin := [], kept := none, born := 0 }

/-- A device whose next step issues the word: one squad on lane 0 of core 0, the word at index 0 of bank A, and what lets
the lane issue it now. -/
def State.withFetchWord (s : State) (nbits w : Nat) : State :=
  { s with
    powered := true
    ready := true
    refills := s.time / 1000
    channels := s.channels.map fun (e : Nat × Channel) =>
      (e.1, { e.2 with
        armed := e.2.armed.filter fun f => decide (s.time < f.deadline)
        due := e.2.due.filter fun d => decide (s.time < d.1) })
    ports := s.ports.map fun (e : Nat × Port) => (e.1, { e.2 with lastFlit := s.time, lastBeat := s.time, sentBeat := s.time })
    timebase := { s.timebase with lastSync := s.time }
    debug := tset 0 s.debug 0 0
    squads := aput (s.squads.map fun (e : Nat × Squad) =>
      (e.1, { e.2 with wait := if (squadDue e).isEmpty then e.2.wait else some (.peer s.time) })) s.nextId
      (newSquad (s.nextId + 1) 0 0 0 0 s.nextId)
    tasks := aput s.tasks (s.nextId + 1) (wordTask s)
    nextId := s.nextId + 3
    hostHeld := []
    banks := aput s.banks 0 ⟨true, 1, 1, [], [s.nextId + 1], 0⟩
    imem := (putImem s 0 false (List.replicate 64 0 ++ wordBytes (w % 2 ^ nbits))).imem
    budgets := aput s.budgets 0 ⟨4096, 0, 4096, 4096, 0, [], []⟩
    lanes := aput s.lanes 0 ([s.nextId], 0)
    agenda := [.issue s.nextId] }

end Sys2Proof.Machine
end

