-- ==== Sys2Proof/Safety.lean ====
section
/-! DEFINITION. What claims are stated with: a safe run; an instruction that issues now; what an issue leaves. -/

namespace Sys2Proof.Machine

/-- The step answers a next state. -/
def Moves (s : State) : Prop := ∃ t, step s = .next t

/-- States that `n` steps reach. -/
inductive Reach : State → State → Prop where
  | refl (s : State) : Reach s s
  | step (s t u : State) : Reach s t → Machine.step t = .next u → Reach s u

/-- A run from a state never stops. -/
def SafeFrom (s : State) : Prop := ∀ t, Reach s t → Moves t

/-! ### An instruction that issues now -/

/-- The threads that execute: EXM and the guard (R26). -/
def runs (p : Path) (h : Hdr) (q : Squad) : Mask := p.exm &&& guardMask h q

/-- A cost can be debited now (R301, R305): it is zero, or granted already, or the squad stands under its own cap, nobody
waits on its list, and the units are there. -/
def Funded (s : State) (q : Squad) (cost : Nat) : Prop :=
  cost = 0 ∨ q.granted = true ∨
    (underCap q = true ∧ cost ≤ spendable (budgetOf s (dieOf q) (ctxId s q)) (deadline s q) ∧
      (if deadline s q then (budgetOf s (dieOf q) (ctxId s q)).prio else (budgetOf s (dieOf q) (ctxId s q)).gen) = [])

/-- It is squad `id`'s turn; its path `p` issues an instruction with header `h` and minimum class `cls`, for which the
energy is there. The squad waits for nothing, holds no fault and has no result outstanding. -/
structure Issues (s : State) (id : Nat) (q : Squad) (p : Path) (h : Hdr) (cls : Nat) : Prop where
  turn : s.cur = some id
  squad : squadOf s id = some q
  path : runningPath q = some p
  idle : q.wait = none
  whole : q.fault = none
  settled : q.pend = []
  funds : Funded s q (classUnits (max h.ec cls))

/-- The state that a meaning's own effect starts from: the cost debited, the issue counted. -/
def issued (s : State) (id : Nat) (q : Squad) (p : Path) (h : Hdr) (cls : Nat) (occ : Occ) : State :=
  let t := match pay s id q (classUnits (max h.ec cls)) with | .paid t => t | _ => s
  tickCtr (modSquad t id (countIssue occ (runs p h q)))

/-- What the meaning sees. -/
def seen (id : Nat) (q : Squad) (p : Path) (h : Hdr) : Iss := ⟨id, q, runs p h q, p, none⟩

/-! ### What an issue leaves -/

/-- The path has gone on to the next index, and the squad may go on: no wait, no fault; a settle point has been noted. -/
structure Went (s t : State) (id : Nat) (q q' : Squad) (p : Path) (h : Hdr) : Prop where
  squad : squadOf t id = some q'
  others : ∀ j, j ≠ id → squadOf t j = squadOf s j
  paths : q'.paths = q.paths.map fun a => if a.entry = p.entry then { a with pc := nextPc a.pc } else a
  wait : q'.wait = none
  fault : q'.fault = none
  settling : q'.settling = (q.settling || h.s)

/-- The meaning has set the paths itself; the squad may go on. -/
structure Turned (s t : State) (id : Nat) (q q' : Squad) (h : Hdr) : Prop where
  squad : squadOf t id = some q'
  others : ∀ j, j ≠ id → squadOf t j = squadOf s j
  wait : q'.wait = none
  fault : q'.fault = none
  settling : q'.settling = (q.settling || h.s)

/-- The path has gone on, and the squad is held until a wait ends. -/
structure Held (s t : State) (id : Nat) (q q' : Squad) (p : Path) (h : Hdr) (w : Wait) : Prop where
  squad : squadOf t id = some q'
  others : ∀ j, j ≠ id → squadOf t j = squadOf s j
  paths : q'.paths = q.paths.map fun a => if a.entry = p.entry then { a with pc := nextPc a.pc } else a
  wait : q'.wait = some w
  fault : q'.fault = none
  settling : q'.settling = (q.settling || h.s)

/-- Nothing of the device has changed but squads, energy and the model's own counters. -/
def OnlySquads (s t : State) : Prop :=
  t = { s with squads := t.squads, budgets := t.budgets, ctr := t.ctr, nextId := t.nextId }

/-- The same, and the caches, of translations and of lines, with the ordering record. -/
def OnlyHere (s t : State) : Prop :=
  t = { s with squads := t.squads, budgets := t.budgets, ctr := t.ctr, nextId := t.nextId, tlb := t.tlb, hist := t.hist,
               dcache := t.dcache, active := t.active }

/-- The same, and the memories. -/
def OnlyStores (s t : State) : Prop :=
  t = { s with squads := t.squads, budgets := t.budgets, ctr := t.ctr, nextId := t.nextId, tlb := t.tlb, hist := t.hist,
               dcache := t.dcache, active := t.active,
               mem := t.mem, scr := t.scr, peer := t.peer, zown := t.zown,
               tags := t.tags, scrTag := t.scrTag, peerTag := t.peerTag }

/-! ### Memory -/

/-- Two byte places are the same byte of the device. -/
def samePlace (sp : Space) (a : Nat) (sq : Space) (b : Nat) : Prop :=
  match sp, sq with
  | .mem, .mem => a = b
  | .scr c, .scr d => scrKey c a = scrKey d b
  | .peer c, .peer d => peerKey c a = peerKey d b
  | _, _ => False

/-- No byte of memory, scratchpad or peer memory has changed. -/
def SameBytes (s t : State) : Prop := t.mem = s.mem ∧ t.scr = s.scr ∧ t.peer = s.peer
/-- No descriptor has changed. -/
def SameTags (s t : State) : Prop := t.tags = s.tags ∧ t.scrTag = s.scrTag ∧ t.peerTag = s.peerTag

/-- Every byte outside the `n` bytes at a place reads as before. -/
def BytesBut (s t : State) (sp : Space) (a n : Nat) : Prop :=
  ∀ sq b, (∀ i, i < n → ¬ samePlace sp (a + i) sq b) → rdByte t sq b = rdByte s sq b

/-! ### The squad -/

/-- Nothing of the squad has changed but its registers, paths and issue state: join records, raster state, cap, handler
state, lane and task stand. -/
def SameSquad (q q' : Squad) : Prop :=
  q' = { q with
    v := q'.v, s := q'.s, p := q'.p, b := q'.b, vi := q'.vi, im := q'.im, flg := q'.flg, pend := q'.pend,
    paths := q'.paths, wait := q'.wait, settling := q'.settling, select := q'.select, granted := q'.granted,
    taken := q'.taken, atomDone := q'.atomDone, perf := q'.perf, ebudDeb := q'.ebudDeb }

/-- The registers of a squad. -/
def SameRegs (q q' : Squad) : Prop :=
  q'.v = q.v ∧ q'.s = q.s ∧ q'.p = q.p ∧ q'.b = q.b ∧ q'.vi = q.vi ∧ q'.im = q.im ∧ q'.flg = q.flg

/-- The squad once its outstanding results have been written, in the order of their issue. -/
def landed (q : Squad) : Squad := q.pend.foldl (fun a e => applyWs e.ws a) { q with pend := [] }

/-- The instruction completes with its results in the registers. -/
def Writes (i : Instr) (s : State) (id : Nat) (q : Squad) (p : Path) (h : Hdr) (E : Squad → Prop) : Prop :=
  ∃ t q', exec i s = .next t ∧ Went s t id q q' p h ∧ OnlySquads s t ∧ SameSquad q q' ∧ q'.pend = [] ∧ E q'

/-- The instruction completes and owes its results: they are outstanding, one entry, none when no thread is active, and `E`
holds of the squad once they have been written. `only` bounds what else has changed. -/
def Owes (i : Instr) (s : State) (id : Nat) (q : Squad) (p : Path) (h : Hdr) (only : State → State → Prop)
    (E : Squad → Prop) : Prop :=
  ∃ t q', exec i s = .next t ∧ Went s t id q q' p h ∧ only s t ∧ SameSquad q q' ∧ SameRegs q q' ∧
    q'.pend.length = (if runs p h q = 0 then 0 else 1) ∧ E (landed q')

/-- The instruction completes without a result in a register. -/
def Does (i : Instr) (s : State) (id : Nat) (q : Squad) (p : Path) (h : Hdr) (E : State → Prop) : Prop :=
  ∃ t q', exec i s = .next t ∧ Went s t id q q' p h ∧ SameSquad q q' ∧ SameRegs q q' ∧ q'.pend = [] ∧ E t

/-- The instruction completes, and the meaning sets the paths. -/
def Turns (i : Instr) (s : State) (id : Nat) (q : Squad) (h : Hdr) (E : Squad → Prop) : Prop :=
  ∃ t q', exec i s = .next t ∧ Turned s t id q q' h ∧ OnlySquads s t ∧ SameRegs q q' ∧ q'.pend = [] ∧ E q'

/-- A 32-bit or 64-bit value as an s-register holds it (R25). -/
def wide (ty : IType) (x : Int) : W64 :=
  match ty with
  | .u32 => (BitVec.ofInt 32 x).setWidth 64
  | .s32 => (BitVec.ofInt 32 x).signExtend 64
  | _ => BitVec.ofInt 64 x

/-- The destination `d` of a type has received the value `f u` of each active thread `u` (R25, R26), modulo its width: a
v-register or pair in the active threads, an s-register once from the lowest; every other v, s, vi and im register is
unchanged. Of an interval register bits 31-23 are reserved and read as zero (R33). -/
def Gets (ty : IType) (d : Opnd) (act : Mask) (q q' : Squad) (f : Nat → Int) : Prop :=
  match d with
  | .v n .. => q'.s = q.s ∧ q'.vi = q.vi ∧ q'.im = q.im ∧ ∀ r u, u < 32 → rdV q' r u =
      if bitM act u ∧ r = n then BitVec.ofInt 32 (f u)
      else if bitM act u ∧ tyW ty = 64 ∧ r = n + 1 then BitVec.ofInt 32 (f u / 2 ^ 32)
      else rdV q r u
  | .s n .. => q'.v = q.v ∧ q'.vi = q.vi ∧ q'.im = q.im ∧ ∀ r, rdS q' r =
      match lowest act with
      | some u => if r = n then wide ty (f u) else rdS q r
      | none => rdS q r
  | .vi n => q'.v = q.v ∧ q'.s = q.s ∧ q'.im = q.im ∧ ∀ r u, u < 32 → rdVi q' r u =
      if bitM act u ∧ r = n then BitVec.ofInt 32 (f u) &&& 0x7FFFFF else rdVi q r u
  | .im n => q'.v = q.v ∧ q'.s = q.s ∧ q'.vi = q.vi ∧ ∀ r u, u < 32 → rdIm q' r u =
      if bitM act u ∧ r = n then BitVec.ofInt 64 (f u) else rdIm q r u
  | _ => False

/-- The predicate `n` has received `f u` in each active thread `u`; p0 and every other predicate stand. -/
def GetsP (n : Nat) (act : Mask) (q q' : Squad) (f : Nat → Bool) : Prop :=
  ∀ r u, u < 32 → rdP q' r u = if bitM act u ∧ r = n ∧ r ≠ 0 then f u else rdP q r u

/-- The values of `k` registers from `n`, and no others: each active thread's, 32 bits a register, low bits first. -/
def GetsV (n k : Nat) (act : Mask) (q q' : Squad) (f : Nat → Int) : Prop :=
  ∀ r u, u < 32 → rdV q' r u =
    if bitM act u ∧ n ≤ r ∧ r < n + k then BitVec.ofInt 32 (f u / 2 ^ (32 * (r - n))) else rdV q r u

/-- The s-register `n` has received `x`, and no other has changed. -/
def GetsS (n : Nat) (q q' : Squad) (x : W64) : Prop := ∀ r, rdS q' r = if r = n then x else rdS q r
/-- The record register `n` has received `x`, and no other has changed. -/
def GetsB (n : Nat) (q q' : Squad) (x : Rec) : Prop := ∀ r, rdB q' r = if r = n then x else rdB q r

/-! ### Faults -/

/-- Delivery of an instruction fault of a settled squad (R381, R382): to the debugger, to the handler in bank B, past a BKPT,
or as a kill of the task with its fault record. -/
def Delivered (s t : State) (id : Nat) (q : Squad) (p : Path) (f : FaultInfo) : Prop :=
  SameBytes s t ∧ SameTags s t ∧ (∀ j, j ≠ id → squadOf t j = squadOf s j) ∧
  ∃ q', squadOf t id = some q' ∧ SameRegs q q' ∧ q'.joins = q.joins ∧
    if s.debugger = true ∧ f.code = 0x11 then
      q'.wait = some .debugger ∧ q'.paths = (advance p.entry q).paths ∧ q'.trap = q.trap ∧ t.tasks = s.tasks
    else if q.trap = none ∧ f.code ≠ 0x05 ∧ trapHeld s q = true then
      q'.wait = none ∧ t.tasks = s.tasks ∧
      q'.paths = q.paths.map (fun a => if a.entry = p.entry then { a with pc := ⟨true, 0⟩ } else a) ∧
      q'.trap = some ⟨BitVec.ofNat 32 (f.code + 256 * f.sub + 65536 * f.thread),
        if f.advance then nextPc p.pc else p.pc, BitVec.ofNat 64 f.addr, f.mask, p.entry⟩
    else if f.code = 0x11 then
      q'.wait = none ∧ q'.paths = (advance p.entry q).paths ∧ q'.trap = q.trap ∧ t.tasks = s.tasks
    else
      let r : FaultRec := ⟨f.code, f.sub, q.core, q.idx, f.thread, pcCode p.pc, f.addr, s.time, f.code != 0x05⟩
      q'.paths = q.paths ∧ q'.trap = q.trap ∧
      ∀ tk, taskOf s q.task = some tk → (∀ r, tk.stopping ≠ .kill r ∧ tk.stopping ≠ .scrub r) →
        taskOf t q.task = some { tk with stopping := .kill r }

/-- The instruction raises a fault. -/
def Raises (i : Instr) (s : State) (id : Nat) (q : Squad) (p : Path) (f : FaultInfo) : Prop :=
  ∃ t, exec i s = .next t ∧ Delivered s t id q p f

end Sys2Proof.Machine
end

