-- ==== Sys2Proof/Certificates/Slice0/Obligations.lean ====
section
/-! DEFINITION. The statements for the provers, and the values that they name, written from the rules of spec/. -/

namespace Sys2Proof.Machine

/-! ### Formats and rounding, from R49 to R57 and R63 to R65 alone -/

/-- A floating-point format: fraction bits, exponent bits, the code of its largest finite magnitude, and whether it saturates and
has no infinity (R49, R51-R53). -/
structure Fields where
  frac : Nat
  expo : Nat
  top : Nat
  sat : Bool

def fieldsOf : FType → Fields
  | .f32 => ⟨23, 8, 0x7F7FFFFF, false⟩ | .f16 => ⟨10, 5, 0x7BFF, false⟩ | .bf16 => ⟨7, 8, 0x7F7F, false⟩
def f8e4Fields : Fields := ⟨3, 4, 0x7E, true⟩
def f8e5Fields : Fields := ⟨2, 5, 0x7B, false⟩
def f4Fields : Fields := ⟨1, 2, 7, true⟩

def biasOf (l : Fields) : Int := 2 ^ (l.expo - 1) - 1
/-- Sign, exponent field, fraction and magnitude of a code; the sign as a number. -/
def signOf (l : Fields) (c : Nat) : Bool := c.testBit (l.expo + l.frac)
def expOf (l : Fields) (c : Nat) : Nat := c / 2 ^ l.frac % 2 ^ l.expo
def fractionOf (l : Fields) (c : Nat) : Nat := c % 2 ^ l.frac
def magOf (l : Fields) (c : Nat) : Nat := c % 2 ^ (l.expo + l.frac)
def signCode (l : Fields) (neg : Bool) : Nat := if neg then 2 ^ (l.expo + l.frac) else 0

/-- The number that a finite code stands for (R49, R51-R53). -/
def valueOf (l : Fields) (c : Nat) : ℚ :=
  (if signOf l c then -1 else 1) *
    (if expOf l c = 0 then (fractionOf l c : ℚ) / 2 ^ l.frac * 2 ^ (1 - biasOf l)
     else (1 + (fractionOf l c : ℚ) / 2 ^ l.frac) * 2 ^ ((expOf l c : Int) - biasOf l))
/-- A code of the format, and one that is finite, infinite or NaN. -/
abbrev CodeOf (l : Fields) (c : Nat) : Prop := c < 2 ^ (1 + l.expo + l.frac)
abbrev Finite (l : Fields) (c : Nat) : Prop := CodeOf l c ∧ magOf l c ≤ l.top
abbrev Infinite (l : Fields) (c : Nat) : Prop := CodeOf l c ∧ l.sat = false ∧ magOf l c = l.top + 1
abbrev NotANumber (l : Fields) (c : Nat) : Prop := CodeOf l c ∧ (if l.sat then l.top else l.top + 1) < magOf l c
/-- The canonical NaN: the sign 0 and the highest fraction bit alone; all ones in F8E4 (R49, R51, R52). -/
def canonical (l : Fields) : Nat := if l.sat then l.top + 1 else l.top + 1 + 2 ^ (l.frac - 1)

/-- Numbers of `p` binary digits, with a last digit of weight 2^j; j not below `lo` when there is one. -/
def digits (p : Nat) (lo : Option Int) (y : ℝ) : Prop :=
  ∃ k j : Int, y = k * 2 ^ j ∧ |k| < 2 ^ p ∧ ∀ l, lo = some l → l ≤ j
/-- The last of the `p` digits is even. -/
def lastEven (p : Nat) (lo : Option Int) (y : ℝ) : Prop :=
  ∃ k j : Int, y = (2 * k : Int) * 2 ^ j ∧ |2 * k| < 2 ^ p ∧ (∀ l, lo = some l → l ≤ j) ∧ (2 ^ (p - 1) ≤ |2 * k| ∨ lo = some j)
/-- The integers, and the even ones. -/
def integral (y : ℝ) : Prop := ∃ i : Int, y = i
def evenInt (y : ℝ) : Prop := ∃ i : Int, y = (2 * i : Int)

/-- `y` is what a mode selects for `x` among the numbers of a set (R63). -/
def Selects (rm : Rm) (among even : ℝ → Prop) (x y : ℝ) : Prop :=
  among y ∧
    match rm with
    | .rne => ∀ z, among z → |x - y| ≤ |x - z| ∧ (z ≠ y → |x - z| = |x - y| → even y)
    | .rna => ∀ z, among z → |x - y| ≤ |x - z| ∧ (|x - z| = |x - y| → |z| ≤ |y|)
    | .rdn => y ≤ x ∧ ∀ z, among z → z ≤ x → z ≤ y
    | .rup => x ≤ y ∧ ∀ z, among z → x ≤ z → y ≤ z
    | .rtz => 0 ≤ x * y ∧ |y| ≤ |x| ∧ ∀ z, among z → 0 ≤ x * z → |z| ≤ |x| → |z| ≤ |y|

/-- Least normal exponent (R49, R65). -/
def leastExp (l : Fields) : Int := 1 - biasOf l

/-- The code of an infinity without sign, and what an overflowing result becomes (R64). -/
def infinity (l : Fields) : Nat := l.top + 1
def overflowCode (l : Fields) (rm : Rm) (neg : Bool) : Nat :=
  signCode l neg +
    if l.sat then l.top
    else
      match rm with
      | .rne | .rna => infinity l
      | .rtz => l.top
      | .rup => if neg then l.top else infinity l
      | .rdn => if neg then infinity l else l.top

/-- `c` is the code, and `f` the flags, of a nonzero exact result `x` (R63-R65): overflow and tininess are judged on the value
rounded with unbounded exponent range; flags OF 2, UF 4, NX 8. F4 writes a zero as code 0 (R53). -/
def RoundsTo (l : Fields) (rm : Rm) (x : ℝ) (c f : Nat) : Prop :=
  let p := l.frac + 1
  let lo := some (leastExp l - l.frac)
  ∃ u, Selects rm (digits p none) (lastEven p none) x u ∧
    ((valueOf l l.top < |u| ∧ c = overflowCode l rm (decide (x < 0)) ∧ f = 2 + 8) ∨
     (|u| ≤ valueOf l l.top ∧ Finite l c ∧ (if l.expo = 2 ∧ valueOf l c = 0 then c = 0 else signOf l c = decide (x < 0)) ∧
       Selects rm (digits p lo) (lastEven p lo) x (valueOf l c) ∧
       f = (if |u| < 2 ^ leastExp l ∧ valueOf l c ≠ x then 4 else 0) + (if valueOf l c ≠ x then 8 else 0)))

/-- The FP32 code nearest to a number, ties to even; +0 for zero (R321). -/
def Nearest32 (x : ℝ) (c : Nat) : Prop := if x = 0 then c = 0 else ∃ f, RoundsTo (fieldsOf .f32) .rne x c f

/-- The number that a finite exact value is, and its sign. -/
def numberOf : FV → ℚ
  | .fin n m e => (if n then -1 else 1) * m * 2 ^ e
  | _ => 0
/-- An exact value is the number that a code stands for, with its sign, an infinity of its sign, or NaN. -/
def StandsFor (l : Fields) (c : Nat) (v : FV) : Prop :=
  (Finite l c → ∃ m e, v = .fin (signOf l c) m e ∧ numberOf v = valueOf l c) ∧ (Infinite l c → v = .inf (signOf l c)) ∧
    (NotANumber l c → v = .nan)

/-- The number of a DX element of code `code` under scale S (R56). -/
def dxNumber (code sc c : Nat) : ℚ :=
  let w := if code < 0x50 then 16 else if code < 0x58 then 8 else 4
  (if c.testBit (w - 2) then -1 else 1) * (c % 2 ^ (w - 2) : Nat) *
    2 ^ ((sc : Int) - 127 - ((w - 2 : Nat) : Int) - if c.testBit (w - 1) then ((code % 8 + 1 : Nat) : Int) else 0)

/-! ### Values that the integer rules give -/

/-- The bits of an operand of a type, the integer they stand for under the type, and as two's complement. -/
def raw (ty : IType) (q : Squad) (o : Opnd) (u : Nat) : Nat := rdInt q (tyW ty) o u
def val (ty : IType) (q : Squad) (o : Opnd) (u : Nat) : Int :=
  if tySigned ty then (BitVec.ofNat (tyW ty) (raw ty q o u)).toInt else (raw ty q o u : Int)
def sval (ty : IType) (q : Squad) (o : Opnd) (u : Nat) : Int := (BitVec.ofNat (tyW ty) (raw ty q o u)).toInt

/-- The field length of R87. -/
def fieldUsed (w b : Nat) : Nat := min (b / 256 % 256) (w - b % 256)

/-- A destination of MOV for which the manual does not state the whole result (R90): a predicate, and an `im` register under a
32-bit type. -/
def movOpen (ty : IType) (d : Opnd) : Bool := match d with | .p _ => true | .im _ => tyW ty == 32 | _ => false

/-- What an integer instruction with a fixed-latency result writes: its header, minimum class, type, destination and the
exact value for each thread, taken modulo the type's width by the write (R82-R94). A uniform `sel` reads pS of the lowest active
thread (log 109). Sums with a carry or a clamp, and the open destinations of MOV, have statements of their own. -/
def intRule : Instr → Option (Hdr × Nat × IType × Opnd × (Squad → Nat → Int))
  | .mov h ty d a => if movOpen ty d then none else some (h, 1, ty, d, fun q u => raw ty q a u)
  | .movw h ty d w => some (h, 1, ty, d, fun _ _ => if ty = .s64 then (BitVec.ofNat 44 w).toInt else (w : Int))
  | .sel h ty ps ng d a b => some (h, 1, ty, d, fun q u => if rdP q ps u ≠ ng then raw ty q a u else raw ty q b u)
  | .iadd h ty false false false _ d a b => some (h, 1, ty, d, fun q u => val ty q a u + val ty q b u)
  | .isub h ty false false false _ d a b => some (h, 1, ty, d, fun q u => val ty q a u - val ty q b u)
  | .imul h ty d a b => some (h, 2, ty, d, fun q u => val ty q a u * val ty q b u)
  | .imulh h ty d a b => some (h, 2, ty, d, fun q u => val ty q a u * val ty q b u / 2 ^ tyW ty)
  | .imad h ty d a b => some (h, 2, ty, d, fun q u => val ty q d u + val ty q a u * val ty q b u)
  | .idiv h ty d a b => some (h, 3, ty, d, fun q u =>
      if val ty q b u = 0 then (if val ty q a u < 0 then 1 else -1) else (val ty q a u).tdiv (val ty q b u))
  | .idivRem h ty d a b => some (h, 3, ty, d, fun q u =>
      if val ty q b u = 0 then val ty q a u else (val ty q a u).tmod (val ty q b u))
  | .imin h ty d a b => some (h, 1, ty, d, fun q u => min (val ty q a u) (val ty q b u))
  | .imax h ty d a b => some (h, 1, ty, d, fun q u => max (val ty q a u) (val ty q b u))
  | .iabs h ty d a => some (h, 1, ty, d, fun q u => |sval ty q a u|)
  | .ineg h ty d a => some (h, 1, ty, d, fun q u => -sval ty q a u)
  | .and h ty d a b => some (h, 1, ty, d, fun q u => (raw ty q a u &&& raw ty q b u : Nat))
  | .or h ty d a b => some (h, 1, ty, d, fun q u => (raw ty q a u ||| raw ty q b u : Nat))
  | .xor h ty d a b => some (h, 1, ty, d, fun q u => (raw ty q a u ^^^ raw ty q b u : Nat))
  | .not h ty d a => some (h, 1, ty, d, fun q u => -(raw ty q a u : Int) - 1)
  | .shl h ty d a b => some (h, 1, ty, d, fun q u =>
      if raw ty q b u % 2 ^ 32 ≥ tyW ty then 0 else raw ty q a u * 2 ^ (raw ty q b u % 2 ^ 32))
  | .shr h ty d a b => some (h, 1, ty, d, fun q u => val ty q a u / 2 ^ min (raw ty q b u % 2 ^ 32) (tyW ty))
  | .rot h ty d a b => some (h, 1, ty, d, fun q u =>
      ((BitVec.ofNat (tyW ty) (raw ty q a u)).rotateLeft (raw ty q b u % 2 ^ 32 % tyW ty)).toNat)
  | .bfx h ty d a b => some (h, 1, ty, d, fun q u =>
      let n := fieldUsed (tyW ty) (raw ty q b u)
      let f := BitVec.ofNat n (raw ty q a u / 2 ^ (raw ty q b u % 256))
      if tySigned ty then f.toInt else (f.toNat : Int))
  | .bfi h ty d a b => some (h, 1, ty, d, fun q u =>
      let n := fieldUsed (tyW ty) (raw ty q b u)
      let p := raw ty q b u % 256
      raw ty q d u - raw ty q d u / 2 ^ p % 2 ^ n * 2 ^ p + raw ty q a u % 2 ^ n * 2 ^ p)
  | .popc h ty d a => some (h, 1, ty, d, fun q u => (((List.range (tyW ty)).filter fun i => (raw ty q a u).testBit i).length : Nat))
  | .clz h ty d a => some (h, 1, ty, d, fun q u => (tyW ty - (raw ty q a u).size : Nat))
  | .brev h ty d a => some (h, 1, ty, d, fun q u => ((BitVec.ofNat (tyW ty) (raw ty q a u)).reverse.toNat : Nat))
  | .lea h ty sh d a b => some (h, 1, ty, d, fun q u => val ty q a u + val ty q b u * 2 ^ sh)
  | _ => none

/-- What an instruction that sets a predicate of the active threads writes (R93, R99, R101, R102, R110). -/
def predRule : Instr → Option (Hdr × Nat × (Squad → Nat → Bool))
  | .icmp h ty c pd a b => some (h, pd, fun q u =>
      match c with
      | .eq => decide (val ty q a u = val ty q b u) | .ne => decide (val ty q a u ≠ val ty q b u)
      | .lt => decide (val ty q a u < val ty q b u) | .le => decide (val ty q a u ≤ val ty q b u)
      | .gt => decide (val ty q a u > val ty q b u) | .ge => decide (val ty q a u ≥ val ty q b u)
      | _ => false)
  | .fcmp h ft c pd a b => some (h, pd, fun q u =>
      condF c (cmpV (decodeIeee (fmtOf ft) (rdF q ft a u)) (decodeIeee (fmtOf ft) (rdF q ft b u))))
  | .plop h lut pd pa pb => some (h, pd, fun q u => lut.testBit (2 * (rdP q pa u).toNat + (rdP q pb u).toNat))
  | .pmaskSet h pd a => some (h, pd, fun q u => (rdScal q a).testBit u)
  | .flagsTest h pd m => some (h, pd, fun q _ => decide (q.flg &&& BitVec.ofNat 5 m ≠ 0))
  | _ => none

/-! ### Values and flags of the floating-point rules -/

/-- What a floating-point or conversion instruction writes: header, minimum class, destination, and the code and raised flags
of each thread (R107-R117). -/
def floatRule : Instr → Option (Hdr × Nat × IType × Opnd × (Squad → Nat → Nat × Nat))
  | .fadd h ft rm d a b => some (h, 1, .u32, d, fun q u => addF (fmtOf ft) rm (rdF q ft a u) (rdF q ft b u))
  | .fsub h ft rm d a b => some (h, 1, .u32, d, fun q u => subF (fmtOf ft) rm (rdF q ft a u) (rdF q ft b u))
  | .fmul h ft rm d a b => some (h, 1, .u32, d, fun q u => mulF (fmtOf ft) rm (rdF q ft a u) (rdF q ft b u))
  | .ffma h ft rm d a b => some (h, 2, .u32, d, fun q u =>
      fmaF (fmtOf ft) rm (rdF q ft a u) (rdF q ft b u) (rdF q ft d u))
  | .fmin h ft d a b => some (h, 1, .u32, d, fun q u => (minmaxF (fmtOf ft) false (rdF q ft a u) (rdF q ft b u), 0))
  | .fmax h ft d a b => some (h, 1, .u32, d, fun q u => (minmaxF (fmtOf ft) true (rdF q ft a u) (rdF q ft b u), 0))
  | .frnd h ft rm d a => some (h, 1, .u32, d, fun q u => (rndF (fmtOf ft) rm (rdF q ft a u), 0))
  | .hfma2 h ft rm d a b => some (h, 2, .u32, d, fun q u => halves
      (fmaF (fmtOf ft) rm (rdPacked q a u).1 (rdPacked q b u).1 (rdPacked q d u).1)
      (fmaF (fmtOf ft) rm (rdPacked q a u).2 (rdPacked q b u).2 (rdPacked q d u).2))
  | .hadd2 h ft rm d a b => some (h, 1, .u32, d, fun q u => halves
      (addF (fmtOf ft) rm (rdPacked q a u).1 (rdPacked q b u).1) (addF (fmtOf ft) rm (rdPacked q a u).2 (rdPacked q b u).2))
  | .hmul2 h ft rm d a b => some (h, 1, .u32, d, fun q u => halves
      (mulF (fmtOf ft) rm (rdPacked q a u).1 (rdPacked q b u).1) (mulF (fmtOf ft) rm (rdPacked q a u).2 (rdPacked q b u).2))
  | .f2i h ity ft rm d a => some (h, 1, ity, d, fun q u => f2iVal ity ft rm (rdF q ft a u))
  | .i2f h ft ity rm d a => some (h, 1, .u32, d, fun q u => i2fVal ft ity rm (rdInt q (tyW ity) a u))
  | .fclass h ft d a => some (h, 1, .u32, d, fun q u => (classF (fmtOf ft) (rdF q ft a u), 0))
  | .fscale h ft rm d a b => some (h, 1, .u32, d, fun q u =>
      scaleF (fmtOf ft) rm (rdF q ft a u) (BitVec.ofNat 32 (rdInt q 32 b u)).toInt)
  | .fcvt h dst src rm d a =>
      if isDx dst then none
      else some (h, 1, .u32, d, fun q u => encodeElem dst rm (fcvtSource src (fcvtImage q src a u)))
  | _ => none
where
  halves (lo hi : Nat × Nat) : Nat × Nat := (lo.1 + 65536 * hi.1, lo.2 ||| hi.2)

/-- The same of the variable-latency operations (R112). -/
def slowRule : Instr → Option (Hdr × Nat × Opnd × (Squad → Nat → Nat × Nat))
  | .fdiv h d a b => some (h, 3, d, fun q u => divF .rne (rdF q .f32 a u) (rdF q .f32 b u))
  | .fsqrt h d a => some (h, 3, d, fun q u => sqrtF (rdF q .f32 a u))
  | .frcp h d a => some (h, 2, d, fun q u => rcpF (rdF q .f32 a u))
  | .frsq h d a => some (h, 3, d, fun q u => rsqF (rdF q .f32 a u))
  | .fex2 h d a => some (h, 3, d, fun q u => ex2F (rdF q .f32 a u))
  | .flg2 h d a => some (h, 3, d, fun q u => lg2F (rdF q .f32 a u))
  | .fsin h d a => some (h, 3, d, fun q u => sinF (rdF q .f32 a u))
  | .fcos h d a => some (h, 3, d, fun q u => cosF (rdF q .f32 a u))
  | _ => none

/-- Flags of the executed threads, ORed into the sticky ones (R74, R76). -/
def stuck (d : Opnd) (act : Mask) (old : BitVec 5) (f : Nat → Nat) : BitVec 5 :=
  (execThreads d act).foldl (fun x u => x ||| BitVec.ofNat 5 (f u)) old

/-! ### Sums with carry, and values across the squad -/

/-- The operands of a sum or difference: header, difference or not, type, SAT, CI, CO, carry predicate, D, A, B. -/
def sumOf : Instr → Option (Hdr × Bool × IType × Bool × Bool × Bool × Nat × Opnd × Opnd × Opnd)
  | .iadd h ty sat ci co cp d a b => some (h, false, ty, sat, ci, co, 24 + cp, d, a, b)
  | .isub h ty sat ci co cp d a b => some (h, true, ty, sat, ci, co, 24 + cp, d, a, b)
  | _ => none

/-- Clamping to the type's range. -/
def clamp (ty : IType) (x : Int) : Int :=
  match ty with
  | .u32 => max 0 (min (2 ^ 32 - 1) x)
  | .s32 => max (-2 ^ 31) (min (2 ^ 31 - 1) x)
  | .u64 => max 0 (min (2 ^ 64 - 1) x)
  | .s64 => max (-2 ^ 63) (min (2 ^ 63 - 1) x)

/-- The source thread of SHFL, and what it gives (R97). -/
def shflFromThread (m : ShflMode) (u k : Nat) : Int :=
  match m with
  | .idx => k | .up => (u : Int) - k | .down => u + k | .xor => (u ^^^ k : Nat)
def shflGives (q : Squad) (ty : IType) (m : ShflMode) (act : Mask) (va : Opnd) (b : Opnd) (u : Nat) : Nat :=
  let src := shflFromThread m u (raw ty q b u % 2 ^ 32)
  if 0 ≤ src ∧ src ≤ 31 ∧ bitM act src.toNat then raw ty q va src.toNat else raw ty q va u

/-- What IRED makes of the active threads' values (R98). -/
def iredGives (ty : IType) (op : IredOp) (xs : List Nat) (vs : List Int) : Int :=
  match op with
  | .add => vs.sum
  | .min => vs.min?.getD 0
  | .max => vs.max?.getD 0
  | .and => (xs.foldl (· &&& ·) (2 ^ tyW ty - 1) : Nat)
  | .or => (xs.foldl (· ||| ·) 0 : Nat)
  | .xor => (xs.foldl (· ^^^ ·) 0 : Nat)

/-- The votes (R100). -/
def voteRule : Instr → Option (Hdr × Nat × Nat × (List Bool → Prop))
  | .voteAny h pd pa => some (h, pd, pa, fun l => true ∈ l)
  | .voteAll h pd pa => some (h, pd, pa, fun l => false ∉ l)
  | .voteUni h pd pa => some (h, pd, pa, fun l => false ∉ l ∨ true ∉ l)
  | _ => none

/-- A word whose low 32 bits are those of a mask given thread by thread. -/
def maskWord (f : Nat → Bool) (x : W64) : Prop := ∀ u, u < 64 → x.getLsbD u = (decide (u < 32) && f u)

/-! ### Blocks (R118-R120) -/

/-- The elements of a block that DXPK packs: element `i` from thread `i mod 32` of register A + `i / 32`. -/
def packElems (q : Squad) (w : DxWidth) (va : Nat) (act : Mask) : List FV :=
  (List.range (512 / dxBits w)).map fun i =>
    if bitM act (i % 32) then decodeIeee fp32 (rdV q (va + i / 32) (i % 32)).toNat else .fin false 0 0
/-- The FP32 code of element `e` of the block in register A of threads 0 to 15, under a descriptor. -/
def blockElem (q : Squad) (w : DxWidth) (va desc e : Nat) : Nat :=
  let bit := dxBits w * e
  let word := (rdV q va (bit / 32)).toNat / 2 ^ (bit % 32) % 2 ^ dxBits w
  (encodeF fp32 .rne (elemVal (fun _ => 0) (desc % 256) (desc / 256) word)).1

/-! ### Energy (R28, R37, R300) -/

/-- The minimum class of R37. -/
def minClass : Instr → Nat
  | .nop .. | .yield .. | .exit .. | .bkpt .. | .trap .. | .waitc .. | .waitcRel .. | .barWait .. | .awWait .. | .mmWait ..
  | .ebudWait .. | .ebudCap .. | .perfRd .. | .perfClr .. | .halt .. => 0
  | .imul .. | .imulh .. | .imad .. | .shfl .. | .ired .. | .ffma .. | .frcp .. | .hfma2 .. | .dxpk .. | .dxunpk .. | .fred ..
  | .ovlj .. | .lds .. | .sts .. | .ldu .. | .recld .. | .recldRange .. | .recldScr .. | .recldTile .. | .lodq .. | .fbput ..
  | .tld .. | .tst .. | .descrd .. | .descwr .. | .prefDc .. | .prefXl .. | .qPush .. | .qPop .. | .accZero .. | .accZeroFlg ..
  | .lfVsplit .. | .lfInterp .. | .lfVis .. | .lfPresentArm .. | .lfPresentCommit .. | .lfPresentSub .. | .taskSpawn ..
  | .rmapSet .. | .rmapClr .. | .rmapBump .. => 2
  | .idiv .. | .idivRem .. | .fdiv .. | .fsqrt .. | .frsq .. | .fex2 .. | .flg2 .. | .fsin .. | .fcos .. | .ld .. | .st ..
  | .ldr .. | .str .. | .lld .. | .cwbWb .. | .cwbWbi .. | .atom .. | .red .. | .cas .. | .lfSetup .. | .lfSpan .. | .lfZtest ..
  | .lfWrite .. | .lfWriteInc .. => 3
  | .cpy .. | .cpyg .. | .cpys .. | .cpysCb .. | .cpysZb .. | .cpyl .. | .ovlLd .. | .drain .. | .accLd .. | .accSt ..
  | .lfRepro .. | .taskMigrate .. => 4
  | .cpyp .. | .lfResolve .. => 5
  | .gmv .. => 6
  | .mma .. | .mmStage .. => 7
  | _ => 1

/-- The units of a class (R300). -/
def unitsOf (c : Nat) : Nat :=
  match c with
  | 0 => 0 | 1 => 1 | 2 => 2 | 3 => 4 | 4 => 8 | 5 => 16 | 6 => 32 | _ => 64

/-- The amounts of a budget beside its waiting lists. -/
def amounts (b : Budget) : Nat × Nat × Nat × Nat × Nat := (b.bud, b.res, b.refill, b.cap, b.rcap)

/-- The debit of `u` units (R28, R300-R302): from the squad's context on its die and from no other budget, RES first at
deadline priority; a squad that has been granted its units takes none again. -/
def Debited (s t : State) (q : Squad) (u : Nat) : Prop :=
  let b := budgetOf s (dieOf q) (ctxId s q)
  let b' := budgetOf t (dieOf q) (ctxId s q)
  (if q.granted = true ∨ u = 0 then amounts b' = amounts b
   else b'.bud + b'.res + u = b.bud + b.res ∧ b'.res = (if deadline s q then b.res - u else b.res) ∧ b'.refill = b.refill ∧
     b'.cap = b.cap ∧ b'.rcap = b.rcap) ∧
    ∀ d c, d < 8 → c < 64 → dieOf q < 8 → ctxId s q < 64 → (d, c) ≠ (dieOf q, ctxId s q) →
      amounts (budgetOf t d c) = amounts (budgetOf s d c)

/-! ### Control flow (R126-R137) -/

/-- The record `n` steps outwards on a chain of join records; the sixteen records bound it (R127, R132). -/
inductive OnChain (q : Squad) : Nat → Option Nat → JoinRec → Prop where
  | here (j : Nat) (r : JoinRec) : aget q.joins j = some r → OnChain q 0 (some j) r
  | outer (n j : Nat) (o r : JoinRec) : aget q.joins j = some o → OnChain q n o.outer r → OnChain q (n + 1) (some j) r

/-- Depth below which a path may not pop (R137), and whether its task holds a bank (R43). -/
def floorOf (q : Squad) (p : Path) : Nat := ((p.jrec.bind (aget q.joins)).map (·.rdepth)).getD 0
def bankHeld (s : State) (q : Squad) (bank : Bool) : Bool := (taskOf s q.task).any fun k => k.banks.contains bank

/-- The place a whole path goes to, and its return stack there. -/
def transfer (s : State) (q : Squad) (p : Path) : Instr → Option (Hdr × Nat × Pc × List Pc)
  | .bra h t _ => some (h, 1, ⟨p.pc.bank, t⟩, p.ret)
  | .brx h n _ => some (h, 1, ⟨p.pc.bank, (rdS q n).toNat % 8192⟩, p.ret)
  | .call h t _ => if p.ret.length < 16 then some (h, 1, ⟨p.pc.bank, t⟩, nextPc p.pc :: p.ret) else none
  | .ret h =>
    match p.ret with
    | pc :: r => if floorOf q p ≤ r.length then some (h, 1, pc, r) else none
    | [] => none
  | .ovlj h call bank t =>
    if !bankHeld s q bank then none
    else if !call then some (h, 2, ⟨bank, t⟩, p.ret)
    else if p.ret.length < 16 then some (h, 2, ⟨bank, t⟩, nextPc p.pc :: p.ret) else none
  | _ => none

/-- A diverging instruction that names a join: where the threads that take it go, their return stack, the join (R130). -/
def diverges (q : Squad) (p : Path) : Instr → Option (Hdr × Pc × List Pc × Nat)
  | .bra h t (some j) => some (h, ⟨p.pc.bank, t⟩, p.ret, j)
  | .brx h n (some j) => some (h, ⟨p.pc.bank, (rdS q n).toNat % 8192⟩, p.ret, j)
  | .call h t (some j) => if p.ret.length < 16 then some (h, ⟨p.pc.bank, t⟩, nextPc p.pc :: p.ret, j) else none
  | _ => none

/-- The record of a split of a path. -/
def splitRec (p : Path) (j : Nat) : JoinRec := ⟨p.members, 0, ⟨p.pc.bank, j⟩, p.ppri, p.ret.length, p.jrec, none, []⟩

/-- The halves of a split. -/
def takenHalf (p : Path) (t : Mask) (pc : Pc) (ret : List Pc) (rid : Nat) : Path :=
  { p with members := t, exm := t, pc := pc, jrec := some rid, ret := ret }
def fallHalf (p : Path) (t : Mask) (e rid : Nat) : Path :=
  { p with entry := e, members := p.members &&& ~~~t, exm := p.exm &&& ~~~t, pc := nextPc p.pc, jrec := some rid }

/-- The ready list is ordered by priority, highest first. -/
def ordered (ps : List Path) : Prop := ps.Pairwise fun a b => b.ppri ≤ a.ppri

/-- A list re-sorted by priority, the order among equals kept (R129). -/
def resorted (old new : List Path) : Prop :=
  ordered new ∧ ∀ n, (new.filter fun a => a.ppri = n) = old.filter fun a => a.ppri = n

/-- The path's place in the table changed by `f`, in its place in the list. -/
def inPlace (p : Path) (f : Path → Path) (ps : List Path) : List Path := ps.map fun a => if a.entry = p.entry then f a else a

/-- The ready list after a split: the halves stand, in this order, in the parent's place (R129). -/
def splitList (p taken fall : Path) (ps : List Path) : List Path :=
  ps.flatMap fun a => if a.entry = p.entry then [taken, fall] else [a]

/-- What exited threads leave of a record (R134). -/
def without (act : Mask) (r : JoinRec) : JoinRec :=
  { r with
    expected := r.expected &&& ~~~act, arrived := r.arrived &&& ~~~act
    deferred := r.deferred.map fun d => { d with exm := d.exm &&& ~~~act, members := d.members &&& ~~~act } }

/-- The path that continues after a merged record (R131). -/
def continued (e : Nat) (r : JoinRec) (ret : List Pc) : Path :=
  ⟨e, nextPc r.join, r.expected, r.expected, r.spri, r.outer, ret⟩

/-- Path `p` has parked, with its members `m`, at record number `rid`, which stands as `r` and the others as `recs` (R131, R135): the
record has merged, or it waits for others, or its deferred path goes on. -/
def Parked (q q' : Squad) (p : Path) (m : Mask) (rid : Nat) (r : JoinRec) (recs : Nat → Option JoinRec) : Prop :=
  let now (d : Option Deferred) : JoinRec := { r with arrived := r.arrived ||| m, lastRet := p.ret, deferred := d }
  (r.deferred = none → r.arrived ||| m = r.expected →
    (∀ k, aget q'.joins k = if k = rid then none else recs k) ∧ resorted (inPlace p (fun _ => continued p.entry r p.ret) q.paths) q'.paths) ∧
  (r.deferred = none → r.arrived ||| m ≠ r.expected →
    (∀ k, aget q'.joins k = if k = rid then some (now none) else recs k) ∧ resorted (q.paths.filter fun a => a.entry ≠ p.entry) q'.paths) ∧
  (∀ d, r.deferred = some d →
    (∀ k, aget q'.joins k = if k = rid then some (now none) else recs k) ∧
    resorted (inPlace p (fun _ => ⟨p.entry, d.pc, d.members, d.exm, d.ppri, some rid, d.ret⟩) q.paths) q'.paths)
/-- A squad that parks a path still has one. -/
def leavesOne (q : Squad) (p : Path) (m : Mask) (r : JoinRec) : Prop :=
  r.deferred = none → r.arrived ||| m ≠ r.expected → ∃ a ∈ q.paths, a.entry ≠ p.entry

/-- The squad has ended and left its task; no other squad and no memory has changed (R133, R134). -/
def Ended (i : Instr) (s : State) (id : Nat) (q : Squad) : Prop :=
  ∃ t, exec i s = .next t ∧ squadOf t id = none ∧ (∀ j, j ≠ id → squadOf t j = squadOf s j) ∧ SameBytes s t ∧ SameTags s t ∧
    ∀ k, taskOf s q.task = some k → taskOf t q.task = some { k with squads := k.squads.filter (· ≠ id) }

/-- A path that a full table may defer (R135): its innermost record holds no deferred path and has another ready path. -/
def MayDefer (recs : Nat → Option JoinRec) (ps : List Path) (a : Path) : Prop :=
  ∃ n r, a.jrec = some n ∧ recs n = some r ∧ r.deferred = none ∧ ∃ b ∈ ps, b.entry ≠ a.entry ∧ b.jrec = some n

/-- Which control instruction faults, with what subcode of STACK or ACCESS (R43, R130-R132, R137, R138). -/
def controlFault (s : State) (q : Squad) (p : Path) (act : Mask) (i : Instr) : Option (Hdr × Nat × Nat × Nat) :=
  let part : Bool := act != 0 && act != p.exm
  let full : Bool := act != 0 && decide (16 ≤ p.ret.length)
  let noRec : Bool := decide ((List.range 16).all fun n => (aget q.joins n).isSome)
  match i with
  | .bra h _ none | .brx h _ none => if part then some (h, 1, 0x12, 4) else none
  | .bra h _ (some _) | .brx h _ (some _) => if part && noRec then some (h, 1, 0x12, 3) else none
  | .call h _ none => if part then some (h, 1, 0x12, 4) else if full then some (h, 1, 0x12, 1) else none
  | .call h _ (some _) => if full then some (h, 1, 0x12, 1) else if part && noRec then some (h, 1, 0x12, 3) else none
  | .ret h =>
    if part then some (h, 1, 0x12, 4)
    else if act = 0 then none
    else if p.ret = [] then some (h, 1, 0x12, 2)
    else if p.ret.length ≤ floorOf q p then some (h, 1, 0x12, 7) else none
  | .ovlj h call bank _ =>
    if part then some (h, 2, 0x12, 4)
    else if act = 0 then none
    else if !bankHeld s q bank then some (h, 2, 0x07, 1)
    else if call && full then some (h, 2, 0x12, 1) else none
  | .join h =>
    match p.jrec.bind (aget q.joins) with
    | none => none
    | some r =>
      if r.join = p.pc then (if p.ret.length ≠ r.rdepth then some (h, 1, 0x12, 5) else none)
      else
        match r.outer.bind (aget q.joins) with
        | some o => if o.join = p.pc then some (h, 1, 0x12, 6) else none
        | none => none
  | _ => none

/-! ### Privilege and CSRs (R40, R382) -/

/-- The squad may issue a privileged instruction: it runs a handler, or its task is privileged. -/
def mayPriv (s : State) (q : Squad) : Bool := q.trap.isSome || (trOf s q).flags.testBit 2

/-- What a CSR holds for a squad. -/
def csrHolds (s : State) (q : Squad) (n : Nat) : W64 :=
  match n, q.trap with
  | 0, some r => r.cause.setWidth 64
  | 1, some r => BitVec.ofNat 64 (r.pc.index % 8192 + if r.pc.bank then 8192 else 0)
  | 2, some r => r.addr
  | 3, some r => r.mask.setWidth 64
  | 0x10, _ => BitVec.ofNat 64 (((taskOf s q.task).bind fun k => (nodeOf s k.node).map (·.va)).getD 0)
  | 0x11, _ => BitVec.ofNat 64 (((taskOf s q.task).map (·.rbudget)).getD 0)
  | _, _ => 0

/-! ### Loads and stores (R157-R191) -/

/-- A per-thread load: header, class, record register, what it asks of the record, the thread's address and bound, size,
first register. -/
def loadOf (q : Squad) : Instr → Option (Hdr × Nat × Nat × Want × (Nat → Nat × Bool) × MemSize × Nat)
  | .ld h sz _ _ vd ba b =>
    some (h, 3, ba, ⟨[0, 2], [0], sizeBytes sz, false, q.core, false⟩, fun u => recAddr (rdB q ba) (sizeBytes sz) (raw .u32 q b u), sz, vd)
  | .lds h sz _ _ vd ba b =>
    some (h, 2, ba, ⟨[0], [1], sizeBytes sz, false, q.core, false⟩, fun u => recAddr (rdB q ba) (sizeBytes sz) (raw .u32 q b u), sz, vd)
  | .ldr h sz _ _ vd ba b =>
    some (h, 3, ba, ⟨[0], [1], sizeBytes sz, false, targetCore q (rdB q ba), false⟩,
      fun u => recAddr (rdB q ba) (sizeBytes sz) (raw .u32 q b u), sz, vd)
  | .tld h pl vd ba b =>
    some (h, 2, ba, ⟨[3], [1], 4, false, q.core, false⟩, fun u => tileAddr (rdB q ba) (planeNo pl) (raw .u32 q b u), .b32, vd)
  | _ => none

/-- A per-thread store: the same, with the number of bytes and each thread's data (R185, R190). -/
def storeOf (q : Squad) : Instr → Option (Hdr × Nat × Nat × Want × (Nat → Nat × Bool) × (Nat → Nat))
  | .st h sz _ _ vd ba b =>
    some (h, 3, ba, ⟨[0], [0], sizeBytes sz, true, q.core, false⟩, fun u => recAddr (rdB q ba) (sizeBytes sz) (raw .u32 q b u), data sz vd)
  | .sts h sz _ _ vd ba b =>
    some (h, 2, ba, ⟨[0], [1], sizeBytes sz, true, q.core, false⟩, fun u => recAddr (rdB q ba) (sizeBytes sz) (raw .u32 q b u), data sz vd)
  | .str h sz _ _ vd ba b =>
    some (h, 3, ba, ⟨[0], [1], sizeBytes sz, true, targetCore q (rdB q ba), true⟩,
      fun u => recAddr (rdB q ba) (sizeBytes sz) (raw .u32 q b u), data sz vd)
  | .tst h pl vd ba b =>
    some (h, 2, ba, ⟨[3], [1], 4, true, q.core, false⟩, fun u => tileAddr (rdB q ba) (planeNo pl) (raw .u32 q b u), data .b32 vd)
  | _ => none
where
  /-- The registers of D, low bytes first. -/
  data (sz : MemSize) (vd u : Nat) : Nat :=
    match sz with
    | .b64 => rdPair q vd u
    | .b128 => rdPair q vd u + 2 ^ 64 * rdPair q (vd + 2) u
    | _ => (rdV q vd u).toNat

/-- A field of a buffer record (R157). -/
def fld (r : Rec) (hi lo : Nat) : Nat := (r.extractLsb' lo (hi - lo + 1)).toNat

/-- The path of a per-thread load (R175, R187, R190). -/
def loadPath (q : Squad) : Instr → APath
  | .ld _ _ _ _ _ ba _ => if fld (rdB q ba) 255 252 = 2 then .V else .T
  | .tld .. => .G
  | _ => .T

/-- A read by `w` on path `p` may see a place as it stood when the record had `m` entries (R176, R178, R181): every store that
happens before the read is among them, the thread's own stores to it, and every store that an earlier load of the thread saw. -/
def Sees (s : State) (w : Who) (p : APath) (l : HLoc) (m : Nat) : Prop :=
  let h := s.hist
  m ≤ lastStore h h.length l ∧
    (∀ (i : Nat) (c : Acc), accAt h i = some c → c.wr = true → meets c.loc l = true →
      HappensBefore (h ++ [.access (accRd w p l)]) i h.length ∨ coherent w p c = true → i < m) ∧
    ∀ (i : Nat) (c : Acc), accAt h i = some c → c.rd = true → coherent w p c = true →
      ∀ u ∈ locUnits c.loc, meets l u = true → lastStore h (seenAt c i u) u ≤ m

/-- The `n` bytes at a place as `w` may read them on path `p`: each granule of 8 bytes as of a moment (R178); `m` names them. -/
def Reads (s : State) (w : Who) (p : APath) (sp : Space) (a n : Nat) (m : Nat → Nat → Nat) (bs : List Byte) : Prop :=
  bs = (granules a n).flatMap (fun e => bytesAsOf s sp e.1 e.2 (m e.1 e.2)) ∧
    ∀ e ∈ granules a n, Sees s w p (.bytes sp e.1 e.2) (m e.1 e.2)
/-- Some bytes that `w` may read. -/
def MayRead (s : State) (w : Who) (p : APath) (sp : Space) (a n : Nat) (bs : List Byte) : Prop := ∃ m, Reads s w p sp a n m bs

/-- What a thread's load of `n` bytes may return (R178, R181, R442). The threads of one load share the read of a place (R165): `m`
names for each granule the moment that all of them see. -/
def MayLoad (s : State) (id : Nat) (q : Squad) (path : APath) (n : Nat) (m : Space → Nat → Nat → Nat) (g : Tgt) (x : Nat) : Prop :=
  ∃ bs, x = leVal bs ∧ Reads s (whoSquad s id q g.t) path g.sp g.a n (m g.sp) bs

/-- A loaded value as its registers take it (R184). -/
def extended (sz : MemSize) (x : Nat) : Int :=
  match sz with
  | .sx8 => (BitVec.ofNat 8 x).toInt
  | .sx16 => (BitVec.ofNat 16 x).toInt
  | _ => x

/-- The accesses reach devices that answer, and no block with POISON. -/
def reachable (s : State) (ts : List Tgt) : Prop := ∀ g ∈ ts, spaceDown s g.sp = false
def unpoisoned (s : State) (ts : List Tgt) (n : Nat) : Prop := ∀ g ∈ ts, poisoned s g.sp g.a n = false

/-- Bytes of two accesses of `n` bytes do not meet. -/
def apart (n : Nat) (g k : Tgt) : Prop := ∀ i j, i < n → j < n → ¬ samePlace g.sp (g.a + i) k.sp (k.a + j)

/-- Two blocks are the same block of the device. -/
def sameBlock (sp : Space) (b : Nat) (sq : Space) (c : Nat) : Prop :=
  match sp, sq with
  | .mem, .mem => b = c
  | .scr x, .scr y => x * 2 ^ 14 + b = y * 2 ^ 14 + c
  | .peer x, .peer y => x * 2 ^ 34 + b = y * 2 ^ 34 + c
  | _, _ => False

/-! ### Buffer records as fields (R157) -/

def put (r : Rec) (hi lo x : Nat) : Rec :=
  let n := hi - lo + 1
  (r &&& ~~~((BitVec.allOnes n).setWidth 256 <<< lo)) ||| ((BitVec.ofNat n x).setWidth 256 <<< lo)

/-- The record that a RECSET makes of bD where its selector's requirements hold (R189). -/
def recsetNew (q : Squad) : Instr → Option (Hdr × Nat × Rec)
  | .recsetOff h bd b =>
    let r := rdB q bd; let k := rdScal q b; let e := 2 ^ fld r 238 235
    if soft r && flat r && decide (k ≤ fld r 143 112 * e ∧ k % e = 0) then
      some (h, bd, put (put r 143 112 (fld r 143 112 - k / e)) 51 0 (fld r 51 0 + k)) else none
  | .recsetExt0 h bd b =>
    let r := rdB q bd
    if soft r then some (h, bd, put r 143 112 (min (fld r 143 112) (rdScal q b))) else none
  | .recsetExt1 h bd b =>
    let r := rdB q bd
    if soft r && !flat r then some (h, bd, put r 175 144 (min (fld r 175 144) (rdScal q b))) else none
  | .recsetRow h bd b =>
    let r := rdB q bd; let n := rdScal q b
    if soft r && !flat r && decide (n ≤ fld r 175 144) then
      some (h, bd, put (put r 175 144 (fld r 175 144 - n)) 51 0 (fld r 51 0 + n * fld r 207 176)) else none
  | .recsetShape h bd b =>
    let r := rdB q bd; let x := rdScal q b; let e := 2 ^ fld r 238 235
    let e0 := x % 65536; let e1 := x / 65536 % 65536; let t := x / 2 ^ 32
    if soft r && flat r && decide (1 ≤ e0 ∧ 1 ≤ e1 ∧ e0 * e ≤ t ∧ (e1 - 1) * t + e0 * e ≤ fld r 143 112 * e) then
      some (h, bd, put (put (put r 143 112 e0) 175 144 e1) 207 176 t) else none
  | .recsetEsize h bd b =>
    let r := rdB q bd; let n := rdScal q b; let x := fld r 143 112 * 2 ^ fld r 238 235 / 2 ^ n
    if soft r && flat r && decide (n ≤ 4 ∧ x < 2 ^ 32) then some (h, bd, put (put r 143 112 x) 238 235 n) else none
  | .recsetBmode h bd b => some (h, bd, put (rdB q bd) 250 250 (rdScal q b % 2))
  | .recsetSwz h bd b =>
    let r := rdB q bd; let n := rdScal q b
    if soft r && !flat r && decide (n ≤ 4) then some (h, bd, put r 248 246 n) else none
  | .recsetXv h bd b =>
    let r := rdB q bd
    if soft r then some (h, bd, put r 223 208 (rdScal q b % 65536)) else none
  | .recsetRo h bd => some (h, bd, put (rdB q bd) 249 249 0)
  | .recsetTgt h bd b =>
    let r := rdB q bd; let n := rdScal q b
    if soft r && decide (fld r 251 251 = 1 ∧ n < 128) then some (h, bd, put r 245 239 n) else none
  | .recsetAlias h bd _ =>
    let r := rdB q bd
    let e := fld r 238 235; let base := fld r 51 0
    if fld r 255 252 = 0 ∧ fld r 251 251 = 0 ∧ !flat r ∧ (e = 1 ∨ e = 2) ∧ base % 256 = 0 ∧ fld r 207 176 % 256 = 0 ∧
        fld r 143 112 % 64 = 0 ∧ fld r 175 144 % 64 = 0 ∧
        base + (fld r 175 144 - 1) * fld r 207 176 + fld r 143 112 * 2 ^ e < 2 ^ 51 then
      some (h, bd, put (put (put r 255 252 2) 249 249 0) 51 0 (base + 2 ^ 51)) else none
  | _ => none
where
  /-- Not of kind 1 or 3; 1-D. -/
  soft (r : Rec) : Bool := fld r 255 252 != 1 && fld r 255 252 != 3
  flat (r : Rec) : Bool := fld r 207 176 == 0

/-! ### Atomics (R217-R220) -/

/-- The new value of an operation. -/
def rmwRule (op : AtomOp) (w old v : Nat) : Nat :=
  let si (x : Nat) : Int := (BitVec.ofNat w x).toInt
  match op with
  | .add => (BitVec.ofNat w (old + v)).toNat
  | .minU => min old v
  | .maxU => max old v
  | .minS => if si old ≤ si v then old else v
  | .maxS => if si old ≥ si v then old else v
  | .and => old &&& v
  | .or => old ||| v
  | .xor => old ^^^ v
  | .exch => v
  | .inc => if old < v then old + 1 else 0
  | .faddF32 => (addF fp32 .rne old v).1
  | .faddBf16x2 => (addF bf16 .rne (old % 2 ^ 16) (v % 2 ^ 16)).1 + 2 ^ 16 * (addF bf16 .rne (old / 2 ^ 16) (v / 2 ^ 16)).1

/-- An atomic: header, adds floats, registers of D in units of the element, result, record register, index, first register,
and the new value of an element of `w` bits from the old one, none where it stays. -/
def rmwOf (q : Squad) : Instr → Option (Hdr × Bool × Nat × Bool × Nat × Opnd × Nat × (Nat → Nat → Nat → Option Nat))
  | .atom h _ op vd ba b => some (h, floats op, 1, true, ba, b, vd, fun w u old => some (rmwRule op w old (reg w vd u)))
  | .red h _ op vd ba b => some (h, floats op, 1, false, ba, b, vd, fun w u old => some (rmwRule op w old (reg w vd u)))
  | .cas h _ vd ba b =>
    some (h, false, 2, true, ba, b, vd, fun w u old => if old = reg w vd u then some (reg w (vd + w / 32) u) else none)
  | _ => none
where
  floats (op : AtomOp) : Bool := op == .faddF32 || op == .faddBf16x2
  reg (w n u : Nat) : Nat := if w = 64 then rdPair q n u else (rdV q n u).toNat

/-- D of an atomic lies on its multiple and below the task's registers, where the checks before that one pass, or no thread
executes (R39, R218, R220). -/
def obeysRegs (s : State) (q : Squad) (act : Mask) (i : Instr) : Prop :=
  ∀ h fp k gives ba b vd f, rmwOf q i = some (h, fp, k, gives, ba, b, vd, f) →
    act = 0 ∨ (recCheck (rdB q ba) [0] [0, 1] = none ∧ (recEsize (rdB q ba) = 2 ∨ fp = false)) →
    recEsize (rdB q ba) = 2 ∨ recEsize (rdB q ba) = 3 →
    vd % (k * (recE (rdB q ba) / 4)) = 0 ∧ vd + k * (recE (rdB q ba) / 4) ≤ 8 * (trOf s q).regs

/-- What the threads of this atomic found that performed it before its fault was parked (R162, R383, R414). -/
def performed (q : Squad) (p : Path) : List (Nat × Nat) :=
  match q.atomDone with
  | some d => if d.1 = p.entry ∧ d.2.1 = p.pc then d.2.2 else []
  | none => []

/-- One read-modify-write after another: the memories, and what each thread found. -/
def rmwStep (n : Nat) (f : Nat → Nat → Option Nat) (a : State × List (Nat × Nat)) (g : Tgt) : State × List (Nat × Nat) :=
  let old := rdN a.1 g.sp g.a n
  (match f g.t old with | some x => wrN a.1 g.sp g.a n x | none => a.1, a.2 ++ [(g.t, old)])

/-! ### An instruction that resumes after a wait -/

/-- It is squad `id`'s turn again; its instruction waited with `w` and has been paid for. -/
structure Resumes (s : State) (id : Nat) (q : Squad) (p : Path) (w : Wait) : Prop where
  turn : s.cur = some id
  squad : squadOf s id = some q
  path : runningPath q = some p
  waits : q.wait = some w
  paid : retrying q.wait = true
  whole : q.fault = none
  settled : q.pend = []

/-- What the meaning sees then. -/
def seenAgain (id : Nat) (q : Squad) (p : Path) (h : Hdr) (w : Wait) : Iss := ⟨id, q, runs p h q, p, some w⟩

/-- The instruction waits: nothing of the squad has changed but its wait and its issue counts. -/
def Waits (i : Instr) (s : State) (id : Nat) (q : Squad) (w : Wait) (E : State → Prop) : Prop :=
  ∃ t q', exec i s = .next t ∧ squadOf t id = some q' ∧ q'.wait = some w ∧ q'.paths = q.paths ∧ q'.joins = q.joins ∧
    SameRegs q q' ∧ (∀ j, j ≠ id → squadOf t j = squadOf s j) ∧ E t

/-- Nothing has changed but squads, energy, the record and what barriers and queues hold beside the memories. -/
def OnlySync (s t : State) : Prop :=
  t = { s with squads := t.squads, budgets := t.budgets, ctr := t.ctr, nextId := t.nextId, hist := t.hist,
               dcache := t.dcache, active := t.active,
               mem := t.mem, scr := t.scr, peer := t.peer, zown := t.zown,
               bars := t.bars, barsScr := t.barsScr, arrivals := t.arrivals, queues := t.queues, qWaits := t.qWaits }

/-- The level that R228 allows for an object's place. -/
def levelFits (q : Squad) (l : AwLoc) (n : Nat) : Prop :=
  match l.sp with
  | .scr c => n ≤ 3 ∧ (2 ≤ n ∨ c = q.core)
  | _ => 2 ≤ n

/-- Every byte outside the header and the element of a queue reads as before. -/
def QueueBut (s t : State) (l : AwLoc) (a : Nat) : Prop :=
  ∀ sq b, (∀ i, i < 64 → ¬ samePlace l.sp (l.addr + i) sq b) → (∀ i, i < 4 → ¬ samePlace l.sp (a + i) sq b) →
    rdByte t sq b = rdByte s sq b

/-! ### Copy and matrix commands (R247-R263, R279) -/

/-- A copy instruction: header, class, and what it asks for. -/
def copyOfInstr (q : Squad) : Instr → Option (Hdr × Nat × CopyReq)
  | .cpy h bd ba b => some (h, 4, ⟨0x90, 0, rdB q bd, none, rdB q ba, 0, word b, 0⟩)
  | .cpyg h d ba b => some (h, 4, ⟨0x91, 0, dstRec d, dstSlot d, rdB q ba, rdB q (rdScal q b / 2 ^ 24 % 16), word b, 0⟩)
  | .cpyp h d ba b => some (h, 5, ⟨0x92, 0, dstRec d, dstSlot d, rdB q ba, 0, word b, 0⟩)
  | .cpys h od ba b => some (h, 4, ⟨0x93, 0, 0, some od, rdB q ba, 0, word b, 0⟩)
  | .cpysCb h od ba b => some (h, 4, ⟨0x93, 1, 0, some od, rdB q ba, 0, word b, 0⟩)
  | .cpysZb h od ba b => some (h, 4, ⟨0x93, 2, 0, some od, rdB q ba, 0, word b, 0⟩)
  | .cpyl h d ba sb => some (h, 4, ⟨0x94, 0, dstRec d, dstSlot d, rdB q ba, 0, rdS q sb, rdS q (sb + 1)⟩)
  | .ovlLd h bank ba b => some (h, 4, ⟨0x95, bank.toNat, 0, none, rdB q ba, 0, word b, 0⟩)
  | _ => none
where
  word (b : Opnd) : W64 := BitVec.ofNat 64 (rdScal q b)
  dstRec (d : Opnd) : Rec := match d with | .b n => rdB q n | _ => 0
  dstSlot (d : Opnd) : Option Nat := match d with | .o n => some n | _ => none

/-- What a cancel makes of a command of the task at the word (R263): gone when nothing of it has started or all that has
started has landed, else cut to what has started. -/
def afterCancel (c : Copy) : Option Copy :=
  let k := { c with cancelled := true }
  let done : Bool :=
    if c.major = 0x92 then c.decoded.isEmpty && c.committed == 0
    else c.major != 0x95 && (List.range (c.landed.foldl (fun m j => max m (j + 1)) 0)).all c.landed.contains
  if c.phase ≠ .running ∨ done then none else some k

/-- The answer of a list of checks in order: the fault of the first that fails, none where all pass. -/
def firstFailing : List (Prop × Err) → Option Err → Prop
  | [], r => r = none
  | (bad, e) :: l, r => (bad → r = some e) ∧ (¬ bad → firstFailing l r)

/-- Bytes of a row, rows, bytes of a region (R249); a record whose region is empty passes what R250 asks of regions. -/
def rowSize (r : Rec) : Nat := fld r 143 112 * 2 ^ fld r 238 235
def rowsOf (r : Rec) : Nat := if fld r 207 176 = 0 then 1 else fld r 175 144
def onBlocks (n : Nat) (r : Rec) : Prop := rowsOf r * rowSize r = 0 ∨ (fld r 51 0 % n = 0 ∧ rowSize r % n = 0 ∧ fld r 207 176 % n = 0)
/-- A reserved value of a record (R157, R160, R197). -/
def reservedIn (r : Rec) : Prop :=
  if fld r 255 252 = 1 then fld r 251 251 ≠ 0 ∨ fld r 248 224 ≠ 0 ∨ fld r 219 144 ≠ 0 ∨ fld r 111 52 ≠ 0 ∨ fld r 51 0 % 128 ≠ 0
  else 4 < fld r 248 246 ∨ 4 < fld r 238 235 ∨ fld r 234 224 ≠ 0 ∨ fld r 111 52 ≠ 0 ∨ (fld r 245 239 ≠ 0 ∧ fld r 251 251 = 0)

/-- The rows of R250 up to the arrival word's record, for the registers that a copy names; `es` is the element size of the LOD
resource of CPYL, `aw` the arrival word's record. -/
def copyTable (r : CopyReq) (es : Nat) (aw : Rec) : List (Prop × Err) :=
  let w := r.cword.toNat
  let lod : Prop := r.major = 0x94
  let gather : Prop := r.major = 0x91
  let toRec : Prop := r.dslot = none ∧ r.major ≠ 0x95
  let size (a : Rec) : Nat := rowsOf a * rowSize a
  let got := fld r.irec 143 112 * rowSize r.srec
  let wrongSize : Prop :=
    match r.major with
    | 0x90 => size r.srec ≠ size r.drec
    | 0x91 => fld r.srec 207 176 = 0 ∨ (if r.dslot = none then got ≠ size r.drec ∨ 2 ^ 32 ≤ got else got % 64 ≠ 0 ∨ 8192 < got)
    | 0x93 => (match r.xf with
      | 1 => size r.srec ≠ 32
      | 2 => size r.srec ≠ 2048
      | _ => size r.srec % 64 ≠ 0 ∨ 8192 < size r.srec)
    | 0x94 => (if r.dslot = none then rowSize r.drec else 128) % 2 ^ es ≠ 0
    | _ => False
  [(if lod then fld r.srec 255 252 ≠ 1 else fld r.srec 255 252 ≠ 0 ∨ (r.major = 0x95 ∧ fld r.srec 251 251 ≠ 0), (7, 2)),
   (gather ∧ (fld r.irec 255 252 ≠ 0 ∨ fld r.irec 207 176 ≠ 0 ∨ fld r.irec 238 235 ≠ 2), (7, 2)),
   (toRec ∧ fld r.drec 255 252 ≠ 0, (7, 2)), (toRec ∧ fld r.drec 249 249 = 0, (7, 6)),
   (reservedIn r.srec ∨ (toRec ∧ reservedIn r.drec) ∨ (gather ∧ reservedIn r.irec) ∨ (fld aw 255 252 = 0 ∧ reservedIn aw), (7, 4)),
   (2 ^ 44 ≤ w ∨ (r.major ≠ 0x92 ∧ w / 2 ^ 28 % 2 ^ 16 ≠ 0) ∨ (¬ gather ∧ w / 2 ^ 24 % 2 ^ 4 ≠ 0) ∨
     (w.testBit 20 = true ∧ (r.major = 0x90 ∨ r.major = 0x95)) ∨ 2 ^ 36 ≤ r.param.toNat, (7, 4)),
   ((¬ lod ∧ fld r.srec 248 246 ≠ 0) ∨ (toRec ∧ fld r.drec 248 246 ≠ 0) ∨ (gather ∧ fld r.irec 248 246 ≠ 0), (7, 5)),
   (wrongSize, (7, 5)), ((¬ lod ∧ 2 ^ 32 ≤ size r.srec) ∨ (toRec ∧ 2 ^ 32 ≤ size r.drec), (7, 5)),
   (¬ lod ∧ ¬ (if r.major = 0x93 ∧ r.xf = 1 then fld r.srec 51 0 % 32 = 0 else onBlocks 64 r.srec), (3, 2)),
   (toRec ∧ ¬ onBlocks 64 r.drec, (3, 2)),
   (fld aw 255 252 ≠ 0, (7, 2)), (fld aw 249 249 = 0, (7, 6)), (size aw < 16 * (w / 2 ^ 4 % 2 ^ 16) + 16, (4, 1)), (fld aw 51 0 % 16 ≠ 0, (3, 1))]

/-- The last rows of R250: footprints, where a destination may be one that a forwarding entry sends on (R379), the slot, the staged
command. -/
def copyLastRows (s : State) (q : Squad) (r : CopyReq) : List (Prop × Err) :=
  let w := r.cword.toNat
  let outside (fwd : Bool) (a : Rec) : Prop := fld a 251 251 = 1 ∧ rowsOf a * rowSize a ≠ 0 ∧ ∃ i, i < rowsOf a ∧
    let core := q.core / 128 * 128 + fld a 245 239
    let at' := fld a 51 0 + i * fld a 207 176
    if fwd then ∀ c, scrPlace s (ctxId s q) core at' (rowSize a) ≠ .ok c else footprintOk s (ctxId s q) core at' (rowSize a) = false
  [((r.major ≠ 0x94 ∧ outside false r.srec) ∨ (r.major = 0x91 ∧ outside false r.irec) ∨
      (r.dslot = none ∧ r.major ≠ 0x95 ∧ outside true r.drec), (7, 8)),
   ((∃ n, r.dslot = some n ∧ ∀ k, taskOf s q.task = some k → n ∉ k.claimed), (0x0C, 1)),
   (w.testBit 20 = true ∧ r.dslot = none, (7, 4)),
   (w.testBit 20 = true ∧ ∀ g, aget s.staged (q.core * 8 + w / 2 ^ 21 % 8) = some g → g.cmd.task ≠ q.task, (0x0C, 5))]

/-- A transfer's record obeys R291 or R292: plain, writable for a store, no reserved bit, no swizzle, of the size, its rows on
64-byte blocks, in a footprint. -/
def transferFits (s : State) (q : Squad) (r : Rec) (wr : Bool) (size : Nat) : Prop :=
  recKind r = 0 ∧ (wr = true → recWr r = true) ∧ recReserved r = false ∧ recSwz r = 0 ∧ regionSize r = size ∧
    aligned64 r = true ∧ regionIn s (ctxId s q) (targetCore q r) false r = true

/-- A queued matrix instruction: header, class, what the command does, and when it is accepted. -/
def matrixOfInstr (s : State) (q : Squad) : Instr → Option (Hdr × Nat × MKind × Prop)
  | .mma h z ad oa ob => some (h, 7, .mma z ad oa ob, claimedBy s q oa = true ∧ claimedBy s q ob = true)
  | .accZero h ad => some (h, 2, .zero false ad, True)
  | .accZeroFlg h ad => some (h, 2, .zero true ad, True)
  | .drain h rm add clr bd aa b =>
    let code := rdScal q b
    some (h, 4, .drain code rm add clr (rdB q bd) aa,
      transferFits s q (rdB q bd) true (512 * elemBits code) ∧
        (code ∈ [0x08, 0x10, 0x18, 0x20, 0x28, 0x30, 0x38, 0x39, 0x40] ∨ isDx code = true) ∧ (add = true → code = 0x08))
  | .accLd h ad ba => some (h, 4, .accLd ad (rdB q ba), transferFits s q (rdB q ba) false 16384)
  | .accSt h bd aa => some (h, 4, .accSt (rdB q bd) aa, transferFits s q (rdB q bd) true 16384)
  | .gmv h bi bd ba sb =>
    let d := rdB q bd; let a := rdB q ba; let i := rdB q bi; let w := (rdS q sb).toNat
    let nb := w / 2 ^ 24 % 128; let cap := w / 2 ^ 12 % 4096; let base := w % 2 ^ 11
    some (h, 6, .gmv d a i (rdS q sb),
      (∀ r ∈ [d, a, i], recKind r = 0 ∧ recReserved r = false ∧ rec2d r = false ∧ recSwz r = 0 ∧ recBase r % 64 = 0 ∧
        regionIn s (ctxId s q) (targetCore q r) false r = true) ∧
      recSpace i = 1 ∧ targetCore q i = q.core ∧ recWr d = true ∧ w < 2 ^ 31 ∧ w / 2 ^ 11 % 2 = 0 ∧ 1 ≤ nb ∧ nb ≤ 64 ∧
        1 ≤ cap ∧ cap ≤ 2048 ∧ base + cap ≤ 64 * (trOf s q).acc)
  | _ => none

/-- Nothing has changed but squads, energy, the model's counters, the ordering record with the caches that follow it, and
`f`'s part, which `f` takes from the new state. -/
def OnlyAnd (f : State → State → State) (s t : State) : Prop :=
  t = f { s with squads := t.squads, budgets := t.budgets, ctr := t.ctr, nextId := t.nextId, hist := t.hist,
                 dcache := t.dcache, active := t.active } t

/-- The slot status word of R284. -/
def slotWord (s : State) (q : Squad) (tk : Task) (n : Nat) : Nat :=
  let p := tk.slots.getD n 0
  let e := extOf s q.core p
  let flag (b : Bool) (k : Nat) : Nat := if b then 2 ^ k else 0
  e.1 + 256 * e.2 + flag (tk.claimed.contains n) 21 +
    flag ((queueOf s q.core).any fun c => c.task == q.task && (match c.kind with | .mma _ _ a b => a == n || b == n | _ => false)) 22 +
    flag (s.copies.any fun c => c.task == q.task && c.node.isNone && c.dslot == some n) 23 +
    2 ^ 32 * (rdSide s q.core p 0).toNat

/-! ### The light field (R318-R340) -/

/-- Nearest integer to num / 32, ties to even. -/
def near32 (num : Int) : Int :=
  let k := num / 32
  let r := num % 32
  if r > 16 ∨ (r = 16 ∧ k % 2 = 1) then k + 1 else k

/-- One channel of LF.WRITE.INC at view v of a hull lo..hi (R338). -/
def incChannel (ac ic v lo hi : Nat) : Nat :=
  (max 0 (min 255 (near32 (32 * ac + (BitVec.ofNat 8 ic).toInt * (2 * v - lo - hi))))).toNat
def incValue (a i v lo hi : Nat) : Nat :=
  let ch (k : Nat) : Nat := incChannel (a / 256 ^ k % 256) (i / 256 ^ k % 256) v lo hi
  ch 0 + 256 * ch 1 + 65536 * ch 2 + 16777216 * ch 3

/-- The samples that a thread's cell writes: cell pixel, view, address of the sample's word in a plane (R328-R331, R338). -/
def cellSamples (s : State) (q : Squad) (k vb plane u : Nat) : List (Nat × Nat × Nat) :=
  let o := posOf q vb u
  (List.range (cellN q)).flatMap fun j =>
    ((List.range (primViews (latchOf q))).filter fun v => (rdIm q (cellBase q k + j) u).getLsbD v).map fun v =>
      (j, v, planeAddr (tileBase s q) o.tile (o.px + j % (q.rasterRx + 1)) (o.py + j / (q.rasterRx + 1)) v plane)

/-- A plane store: header, class, plane, mask, position pair, whether it is counted, and the value of thread u at view v. -/
def planeStore (q : Squad) : Instr → Option (Hdr × Nat × Nat × Nat × Nat × Bool × (Nat → Nat → Nat))
  | .lfWrite h k a vb => some (h, 3, 0, k, vb, true, fun u _ => raw .u32 q a u)
  | .lfVis h k a vb => some (h, 2, 2, k, vb, false, fun u _ => raw .u32 q a u)
  | .lfWriteInc h k va vb => some (h, 3, 0, k, vb, true, fun u v =>
      incValue (rdV q va u).toNat (rdV q (va + 1) u).toNat v (botBit (unionMask q k u)) (topBit (unionMask q k u)))
  | _ => none

/-- The position checks pass: a latch, and for each thread whose cell has a sample a tile below the count and a cell inside it
(R334, R341). -/
def positionsFit (s : State) (q : Squad) (act : Mask) (k vb : Nat) : Prop :=
  q.rasterLv = true ∧ ∀ u, u < 32 → bitM act u = true → unionMask q k u ≠ 0 →
    (posOf q vb u).tile < (trOf s q).ntile ∧ (posOf q vb u).px + q.rasterRx < 8 ∧ (posOf q vb u).py + q.rasterRy < 8

/-- A depth test (R327): NaN fails. -/
def deeper (ge : Bool) (d old : Nat) : Bool :=
  match cmpV (decodeIeee fp32 d) (decodeIeee fp32 old) with | some .gt => true | some .eq => ge | _ => false

/-- One depth test after another: the state, and the samples that passed. -/
def depthStep (ge w : Bool) (q : Squad) (a : State × List (Nat × Nat × Nat)) (g : Nat × Nat × Nat × Nat × Nat) :
    State × List (Nat × Nat × Nat) :=
  let (u, j, v, addr, d) := g
  if deeper ge d (rdN a.1 (.scr q.core) addr 4) then
    (if w then wrN a.1 (.scr q.core) addr 4 d else a.1, a.2 ++ [(u, j, v)]) else a

/-- A piece's or remainder's interval register (R336). -/
def intervalOf (old mask : Nat) : Nat :=
  if mask = 0 then 0
  else
    let lo := botBit mask
    let hi := topBit mask
    lo + 256 * hi + old / 2 ^ 16 % 16 * 2 ^ 16 + (if old % 256 = lo then old / 2 ^ 20 % 2 else 0) * 2 ^ 20 +
      (if old / 256 % 256 = hi then old / 2 ^ 21 % 2 else 0) * 2 ^ 21 + old / 2 ^ 22 % 2 * 2 ^ 22

/-- Last view of the first piece of a union mask (R336). -/
def pieceEnd (q : Squad) (gap : Bool) (u : Nat) : Nat :=
  let lo := botBit u
  let rv := [1, 2, 4, 8, 16, 64].getD q.rasterRvc 0
  let e := min (topBit u) (lo / rv * rv + rv - 1)
  let clear := ((List.range 65).find? fun i => decide (lo < i) && !u.testBit i).getD 64
  if gap then min e (clear - 1) else e

/-- Value, gradient and raised flags of LF.INTERP for a thread (R74, R337): every rounding of R337 by RNE, with its flags; the
disparity and its denominator raise none (R326). -/
def interpolated (q : Squad) (k va vb u : Nat) : Nat × Nat × Nat :=
  let m := unionMask q k u
  if m = 0 then (0, 0, 0)
  else
    let p := latchOf q
    let o := posOf q vb u
    let ec2 : Int := botBit m + topBit m - (primViews p : Nat) + 1
    let x2 : Int := 2 * o.x + q.rasterRx + 1
    let y2 : Int := 2 * o.y + q.rasterRy + 1
    let a (i : Nat) : Nat := (rdV q (va + i) u).toNat
    let a1 := if p.ctrl.testBit 2 then a 2 else a 1
    let a2 := if p.ctrl.testBit 2 then a 1 else a 2
    let d := disparity p x2 y2 ec2
    let mul (x y : Nat) : Nat × Nat := mulF fp32 .rne x y
    let sum (x y : Nat) : Nat × Nat := addF fp32 .rne x y
    let diff (x y : Nat) : Nat × Nat := subF fp32 .rne x y
    let de := mul d (f32Int ec2 (-1))
    let xc := diff (f32Int x2 (-1)) de.1
    let l (x y c : Nat) : Nat × Nat :=
      let t := mul x xc.1
      let w := mul y (f32Int y2 (-1))
      let n := sum t.1 w.1
      ((sum n.1 c).1, t.2 ||| w.2 ||| n.2 ||| (sum n.1 c).2)
    let l1 := l p.l1x p.l1y p.l10
    let l2 := l p.l2x p.l2y p.l20
    let g1 := diff a1 (a 0)
    let g2 := diff a2 (a 0)
    let t1 := mul g1.1 l1.1
    let t2 := mul g2.1 l2.1
    let h := sum (a 0) t1.1
    let val := sum h.1 t2.1
    let b1 := mul g1.1 p.l1x
    let b2 := mul g2.1 p.l2x
    let ax := sum b1.1 b2.1
    let n := mul ax.1 d
    let r := divF .rne n.1 (denAt p ec2)
    (val.1, (encodeF fp32 .rne (negV (decodeIeee fp32 r.1))).1,
      de.2 ||| xc.2 ||| l1.2 ||| l2.2 ||| g1.2 ||| g2.2 ||| t1.2 ||| t2.2 ||| h.2 ||| val.2 ||| b1.2 ||| b2.2 ||| ax.2 ||| n.2 ||| r.2)

/-- A plain scratchpad record of the issuing core that reaches `n` bytes and may be written (R333, R334). -/
def rasterRecord (s : State) (q : Squad) (r : Rec) (n al : Nat) (wr : Bool) : Prop :=
  recCheck r [0] [1] = none ∧ recTarget r = q.core % 128 ∧
    n ≤ (if rec2d r then recExt1 r * (recExt0 r * recE r) else recExt0 r * recE r) ∧ recBase r % al = 0 ∧ (wr = true → recWr r = true) ∧
    footprintOk s (ctxId s q) q.core (recBase r) n = true

/-- Setup's reason to cull, from the vertices as (x, y, d) (R321). -/
def cullReason (a b c : Int × Int × Int) (cull : Nat) : Nat :=
  let fits (v : Int × Int × Int) : Prop := -2 ^ 23 ≤ v.1 ∧ v.1 < 2 ^ 23 ∧ -2 ^ 23 ≤ v.2.1 ∧ v.2.1 < 2 ^ 23 ∧ -2 ^ 20 ≤ v.2.2 ∧ v.2.2 < 2 ^ 20
  let area := (b.1 - a.1) * (c.2.1 - a.2.1) - (c.1 - a.1) * (b.2.1 - a.2.1)
  if ¬ (fits a ∧ fits b ∧ fits c) then 3
  else if area = 0 then 1
  else if (cull = 1 ∧ area < 0) ∨ (cull = 2 ∧ 0 < area) then 2 else 0

/-! ### Events -/


/-- The task of an id is asked to end with a record, unless it is being ended already (R298). -/
def asked (s t : State) (task : Nat) (r : FaultRec) : Prop :=
  ∀ k, taskOf s task = some k → (∀ r, k.stopping ≠ .kill r ∧ k.stopping ≠ .scrub r) → taskOf t task = some { k with stopping := .kill r }

/-- The event answers the state `t`. -/
def Leads (i : Instr) (s t : State) : Prop := exec i s = .next t

/-- A squad changed by `f`, every other one as before. -/
def SquadsBut (s t : State) (id : Nat) (f : Squad → Squad) : Prop :=
  ∀ j, squadOf t j = if j = id then (squadOf s j).map f else squadOf s j

/-- A squad that waits for a command's acceptance goes on. -/
def accepted (cmd : Nat) (q : Squad) : Squad := if q.wait = some (.accept cmd) then { q with wait := none } else q

/-- A context changed by `f`. -/
def CtxBut (s t : State) (ctx : Nat) (f : Ctx → Ctx) : Prop := t = { s with ctxs := aput s.ctxs ctx (f (ctxOf s ctx)) }
/-- A channel changed by `f`. -/
def ChannelBut (s t : State) (ch : Nat) (f : Channel → Channel) : Prop :=
  t = { s with channels := aput s.channels ch (f (channelOf s ch)) }
/-- A node changed by `f`. -/
def NodeBut (s t : State) (id : Nat) (f : Node → Node) : Prop := t = { s with nodes := amod s.nodes id f }

/-- A squad at launch (R36): every register zero, `%flg` clear, one path with all threads at the entry index, no join record,
counters and cap zero, no latch, full rate. -/
def launched (task k lane core entry : Nat) (q : Squad) : Prop :=
  (∀ r u, u < 32 → rdV q r u = 0 ∧ rdVi q r u = 0 ∧ rdIm q r u = 0 ∧ rdP q r u = decide (r = 0)) ∧ (∀ r, rdS q r = 0 ∧ rdB q r = 0) ∧
    q.flg = 0 ∧ q.task = task ∧ q.idx = k ∧ q.lane = lane ∧ q.core = core ∧
    q.paths = [⟨0, ⟨false, entry⟩, 0xFFFFFFFF, 0xFFFFFFFF, 0, none, []⟩] ∧ q.joins = [] ∧ q.pend = [] ∧ q.wait = none ∧
    q.fault = none ∧ q.trap = none ∧ q.rasterLv = false ∧ q.rasterRx = 0 ∧ q.rasterRy = 0 ∧ q.rasterRvc = 0 ∧
    q.ebudCap = 0 ∧ q.ebudDeb = 0 ∧ ∀ n, tget 0 q.perf n = 0

/-- An event for every context that receives device events. -/
def Told (s t : State) (type code : Nat) : Prop :=
  t = { s with ctxs := t.ctxs } ∧ ((s.ctxs.map (·.1)).Nodup → ∀ c, c ∈ s.ctxs.map (·.1) → ctxOf t c =
    if (ctxOf s c).cflags.getLsbD 5 then { ctxOf s c with
      events := (ctxOf s c).events ++ [⟨(ctxOf s c).nextToken, type, code, 0, 0, 0, s.time⟩], nextToken := (ctxOf s c).nextToken + 1 }
    else ctxOf s c)

/-- A port changed by `f`. -/
def PortBut (s : State) (n : Nat) (f : Port → Port) : State := { s with ports := aput s.ports n (f (portOf s n)) }

/-- What one refill makes of the counters: REFILL to RES up to RCAP, the rest to BUD up to CAP (R303). -/
def refilled (b : Budget) : Budget :=
  { b with res := b.res + min b.refill (b.rcap - b.res), bud := min b.cap (b.bud + (b.refill - min b.refill (b.rcap - b.res))) }

/-- What a write to a management register of a context leaves, while no graph of the context runs (R401). -/
def ctxWritten (k : Ctx) : MgmtOp → Option (Nat × Ctx)
  | .ctxPtroot c x => some (c, { k with ptroot := x &&& 0xFFFFFF0001 })
  | .ctxFlags c x => some (c, { k with cflags := x &&& 0x3F })
  | .ctxFbctl c x => some (c, { k with fbctl := x })
  | .ctxSqbase c x => some (c, { k with sqbase := x })
  | .ctxTrapovl c x => some (c, { k with trapovl := x })
  | .ctxEqbase c x => some (c, { k with eqbase := x })
  | .ctxEqread c x => some (c, { k with eqread := x % 2 ^ 32 })
  | _ => none
end Sys2Proof.Machine

open Sys2Proof Sys2Proof.Machine

/-! ### Integer, floating-point and predicate instructions -/

/-- Integer arithmetic, logic, shifts, bit fields, moves and offsets complete and write the exact value modulo the width
(R82-R88, R90-R92, R94). -/
def Sys2Proof.Machine.IntegerValuesRule : Prop :=
  ∀ (i : Instr) (h : Hdr) (cls : Nat) (ty : IType) (d : Opnd) (f : Squad → Nat → Int) (s : State) (id : Nat) (q : Squad)
    (p : Path), intRule i = some (h, cls, ty, d, f) → i.wf = true → Issues s id q p h cls →
    Writes i s id q p h fun q' => Gets ty d (runs p h q) q q' (f q) ∧ q'.p = q.p ∧ q'.b = q.b ∧ q'.flg = q.flg

/-- MOV of an s-register to a predicate gives every active thread one value that the manual does not state; to an `im` register under
a 32-bit type it gives the low 32 bits (R90). -/
def Sys2Proof.Machine.BroadcastMovesRule : Prop :=
  ∀ (h : Hdr) (ty : IType) (a : Opnd) (n : Nat) (s : State) (id : Nat) (q : Squad) (p : Path), Issues s id q p h 1 →
    let act := runs p h q
    ((Instr.mov h ty (.p n) a).wf = true → Writes (.mov h ty (.p n) a) s id q p h fun q' =>
      (∃ v : Bool, GetsP n act q q' fun _ => v) ∧ SameRegs { q with p := q'.p } q') ∧
    (tyW ty = 32 → (Instr.mov h ty (.im n) a).wf = true → Writes (.mov h ty (.im n) a) s id q p h fun q' =>
      (∀ r u, u < 32 → if bitM act u ∧ r = n then (rdIm q' r u).setWidth 32 = BitVec.ofNat 32 (raw ty q a u) else rdIm q' r u = rdIm q r u) ∧
      SameRegs { q with im := q'.im } q')

/-- Integer results, and the moves whose result the manual leaves open. A uniform `sel` reads the predicate of the lowest active
thread, as R81 says of the carry predicate (log 109, DEDUCED). -/
def Obligations.IntegerResults : Prop := IntegerValuesRule ∧ BroadcastMovesRule

/-- Sums and differences complete with carry in and out and saturation (R81): the carry goes to the predicate of each active
thread, or of all of them when the instruction is uniform. -/
def Obligations.CarryAndClamp : Prop :=
  ∀ (i : Instr) (h : Hdr) (sub : Bool) (ty : IType) (sat ci co : Bool) (pc : Nat) (d a b : Opnd) (s : State) (id : Nat)
    (q : Squad) (p : Path), sumOf i = some (h, sub, ty, sat, ci, co, pc, d, a, b) → i.wf = true → Issues s id q p h 1 →
    let act := runs p h q
    let c (u : Nat) : Int := if ci = true ∧ rdP q pc u = true then 1 else 0
    let exact (u : Nat) : Int := if sub then val ty q a u - val ty q b u - c u else val ty q a u + val ty q b u + c u
    let carry (u : Nat) : Bool := if sub then decide ((raw ty q a u : Int) < raw ty q b u + c u)
      else decide ((2 : Int) ^ tyW ty ≤ raw ty q a u + raw ty q b u + c u)
    Writes i s id q p h fun q' =>
      Gets ty d act q q' (fun u => if sat then clamp ty (exact u) else exact u) ∧
      (if co then GetsP pc act q q' (fun u => if isUniform d then carry (lowestD act) else carry u) else q'.p = q.p) ∧
      q'.b = q.b ∧ q'.flg = q.flg

/-- Compares and predicate logic complete; p0 discards its write (R32, R93, R99, R101, R102, R110). -/
def Obligations.PredicateResults : Prop :=
  ∀ (i : Instr) (h : Hdr) (n : Nat) (f : Squad → Nat → Bool) (s : State) (id : Nat) (q : Squad) (p : Path),
    predRule i = some (h, n, f) → i.wf = true → Issues s id q p h 1 →
    Writes i s id q p h fun q' => GetsP n (runs p h q) q q' (f q) ∧ q'.v = q.v ∧ q'.s = q.s ∧ q'.b = q.b ∧ q'.vi = q.vi ∧
      q'.im = q.im ∧ q'.flg = q.flg

/-- Fixed-latency floating-point arithmetic and conversion complete and OR their flags into the sticky ones. -/
def Sys2Proof.Machine.FloatResultsRule : Prop :=
  ∀ (i : Instr) (h : Hdr) (cls : Nat) (ty : IType) (d : Opnd) (f : Squad → Nat → Nat × Nat) (s : State) (id : Nat) (q : Squad)
    (p : Path), floatRule i = some (h, cls, ty, d, f) → i.wf = true → Issues s id q p h cls →
    Writes i s id q p h fun q' => Gets ty d (runs p h q) q q' (fun u => (f q u).1) ∧ q'.p = q.p ∧ q'.b = q.b ∧
      q'.flg = stuck d (runs p h q) q.flg fun u => (f q u).2

/-- Variable-latency floating-point operations complete; their results are outstanding and land together. -/
def Sys2Proof.Machine.SlowFloatResultsRule : Prop :=
  ∀ (i : Instr) (h : Hdr) (cls : Nat) (d : Opnd) (f : Squad → Nat → Nat × Nat) (s : State) (id : Nat) (q : Squad) (p : Path),
    slowRule i = some (h, cls, d, f) → i.wf = true → Issues s id q p h cls →
    Owes i s id q p h OnlySquads fun q' => Gets .u32 d (runs p h q) q q' (fun u => (f q u).1) ∧ q'.p = q.p ∧ q'.b = q.b ∧
      q'.flg = stuck d (runs p h q) q.flg fun u => (f q u).2

/-- Floating-point arithmetic and conversion: fixed latency, and variable latency. -/
def Obligations.FloatResults : Prop := FloatResultsRule ∧ SlowFloatResultsRule

/-- Sums, differences, products, fused multiply-adds and FP32 quotients and square roots of finite operands round their exact result
once, as R63 to R65 say of any result, with the flags of R65 and R74 (R49, R70, R107, R112); `frcp` rounds toward zero, and beyond
range gives an infinity (R71). An exact zero is -0 as R50 says. -/
def Sys2Proof.Machine.ArithmeticRoundsRule : Prop :=
  ∀ (ft : FType) (rm : Rm) (a b c : Nat),
    let l := fieldsOf ft
    Finite l a → Finite l b → Finite l c →
    let x : ℝ := valueOf l a; let y : ℝ := valueOf l b; let z : ℝ := valueOf l c
    let both (m n : Bool) : Bool := if m = n then m else rm == .rdn
    let round (v : ℝ) (r : Nat × Nat) (neg : Bool) : Prop := if v = 0 then r = (signCode l neg, 0) else RoundsTo l rm v r.1 r.2
    round (x + y) (addF (fmtOf ft) rm a b) (if x = 0 then both (signOf l a) (signOf l b) else rm == .rdn) ∧
    round (x - y) (subF (fmtOf ft) rm a b) (if x = 0 then both (signOf l a) (!signOf l b) else rm == .rdn) ∧
    round (x * y) (mulF (fmtOf ft) rm a b) (signOf l a != signOf l b) ∧
    round (x * y + z) (fmaF (fmtOf ft) rm a b c)
      (if x * y = 0 then both (signOf l a != signOf l b) (signOf l c) else rm == .rdn) ∧
    (ft = .f32 → rm = .rne →
      (y ≠ 0 → round (x / y) (divF .rne a b) (signOf l a != signOf l b)) ∧
      (0 < x → RoundsTo l .rne (Real.sqrt x) (sqrtF a).1 (sqrtF a).2)) ∧
    (ft = .f32 → rm = .rtz → x ≠ 0 → ∃ n f, RoundsTo l .rtz (1 / x) n f ∧
      rcpF a = (if f = 2 + 8 then infinity l + signCode l (decide (x < 0)) else n, f))

/-- Operations on infinities and NaNs (R50, R107, R112): a NaN operand gives the canonical NaN and no flag; the invalid operations
give it with NV; 0 x infinity is invalid whatever the addend of a fused multiply-add. -/
def Sys2Proof.Machine.SpecialOperandsRule : Prop :=
  ∀ (ft : FType) (rm : Rm) (a b c : Nat),
    let l := fieldsOf ft
    CodeOf l a → CodeOf l b → CodeOf l c →
    let zero (x : Nat) : Prop := magOf l x = 0
    let invalid : Nat × Nat := (canonical l, 1)
    let inf (neg : Bool) : Nat × Nat := (infinity l + signCode l neg, 0)
    let sign := signOf l a != signOf l b
    let noMul : Prop := (zero a ∧ Infinite l b) ∨ (Infinite l a ∧ zero b)
    (NotANumber l a ∨ NotANumber l b →
      addF (fmtOf ft) rm a b = (canonical l, 0) ∧ subF (fmtOf ft) rm a b = (canonical l, 0) ∧ mulF (fmtOf ft) rm a b = (canonical l, 0) ∧
      fmaF (fmtOf ft) rm a b c = (canonical l, 0) ∧ (ft = .f32 → divF rm a b = (canonical l, 0))) ∧
    (Infinite l a → ¬ NotANumber l b →
      addF (fmtOf ft) rm a b = (if Infinite l b ∧ signOf l a ≠ signOf l b then invalid else inf (signOf l a)) ∧
      subF (fmtOf ft) rm a b = (if Infinite l b ∧ signOf l a = signOf l b then invalid else inf (signOf l a)) ∧
      mulF (fmtOf ft) rm a b = (if zero b then invalid else inf sign) ∧
      (ft = .f32 → divF rm a b = (if Infinite l b then invalid else inf sign))) ∧
    (Finite l a → Infinite l b →
      addF (fmtOf ft) rm a b = inf (signOf l b) ∧ subF (fmtOf ft) rm a b = inf (!signOf l b) ∧
      mulF (fmtOf ft) rm a b = (if zero a then invalid else inf sign) ∧ (ft = .f32 → divF rm a b = (signCode l sign, 0))) ∧
    (ft = .f32 → Finite l a → zero b → divF rm a b = if zero a then invalid else inf sign) ∧
    (noMul → fmaF (fmtOf ft) rm a b c = invalid) ∧
    (¬ noMul → ¬ NotANumber l a → ¬ NotANumber l b → NotANumber l c → fmaF (fmtOf ft) rm a b c = (canonical l, 0)) ∧
    (¬ noMul → ¬ NotANumber l a → ¬ NotANumber l b → Infinite l a ∨ Infinite l b → ¬ NotANumber l c →
      fmaF (fmtOf ft) rm a b c = (if Infinite l c ∧ signOf l c ≠ sign then invalid else inf sign)) ∧
    (Finite l a → Finite l b → Infinite l c → fmaF (fmtOf ft) rm a b c = inf (signOf l c)) ∧
    (ft = .f32 →
      (NotANumber l a → sqrtF a = (canonical l, 0) ∧ rcpF a = (canonical l, 0)) ∧
      (zero a → sqrtF a = (a, 0) ∧ rcpF a = inf (signOf l a)) ∧
      (¬ NotANumber l a → ¬ zero a → signOf l a = true → sqrtF a = invalid) ∧
      (Infinite l a → rcpF a = (signCode l (signOf l a), 0) ∧ (signOf l a = false → sqrtF a = (a, 0))))

/-- Minimum and maximum (R109), rounding to an integral value (R111), scaling (R113) and the class word (R114). -/
def Sys2Proof.Machine.OneOperandLawsRule : Prop :=
  ∀ (ft : FType) (rm : Rm) (a b : Nat),
    let l := fieldsOf ft
    CodeOf l a → CodeOf l b →
    let x : ℝ := valueOf l a
    let nan := NotANumber l
    let atMost (a b : Nat) : Prop := (Infinite l a ∧ signOf l a = true) ∨ (Infinite l b ∧ signOf l b = false) ∨
      (Finite l a ∧ Finite l b ∧ valueOf l a ≤ valueOf l b)
    let zero (c : Nat) : Prop := magOf l c = 0
    (∀ big, let r := minmaxF (fmtOf ft) big a b
      (nan a → nan b → r = canonical l) ∧ (nan a → ¬ nan b → r = b) ∧ (¬ nan a → nan b → r = a) ∧
      (¬ nan a → ¬ nan b → (r = a ∨ r = b) ∧ (if big then atMost a r ∧ atMost b r else atMost r a ∧ atMost r b) ∧
        (zero a → zero b → signOf l r = if big then signOf l a && signOf l b else signOf l a || signOf l b))) ∧
    (nan a → rndF (fmtOf ft) rm a = canonical l) ∧ (Infinite l a ∨ zero a → rndF (fmtOf ft) rm a = a) ∧
    (Finite l a → let r := rndF (fmtOf ft) rm a
      Finite l r ∧ signOf l r = signOf l a ∧ Selects rm integral evenInt x (valueOf l r)) ∧
    (∀ n : Int, (nan a → scaleF (fmtOf ft) rm a n = (canonical l, 0)) ∧ (Infinite l a ∨ zero a → scaleF (fmtOf ft) rm a n = (a, 0)) ∧
      (Finite l a → ¬ zero a → RoundsTo l rm (x * 2 ^ n) (scaleF (fmtOf ft) rm a n).1 (scaleF (fmtOf ft) rm a n).2)) ∧
    classF (fmtOf ft) a = 2 ^ (
      if nan a then 8 else if Infinite l a then (if signOf l a then 0 else 7) else if zero a then (if signOf l a then 3 else 4)
      else if expOf l a = 0 then (if signOf l a then 2 else 5) else if signOf l a then 1 else 6)

/-- `r` is what a value becomes in an integer format of the range `lo` to `hi` and `w` bits: rounded to an integer, clamped, with NV 1,
NX 8 and SAT 16 (R55, R64, R115). -/
def BecomesInt (w : Nat) (lo hi : Int) (rm : Rm) (v : FV) (r : Nat × Nat) : Prop :=
  let code (x : Int) : Nat := (x % 2 ^ w).toNat
  match v with
  | .nan => r = (0, 1)
  | .inf n => r = (code (if n then lo else hi), 16)
  | .fin .. => ∃ i : Int, Selects rm integral evenInt (numberOf v) i ∧
      r = (code (max lo (min hi i)), if i < lo ∨ hi < i then 16 + 8 else if (i : ℝ) ≠ numberOf v then 8 else 0)

/-- `r` is what a value becomes in a floating-point format (R50-R53, R63-R65). -/
def BecomesFloat (l : Fields) (rm : Rm) (v : FV) (r : Nat × Nat) : Prop :=
  match v with
  | .nan => r = if l.expo = 2 then (0, 1) else (canonical l, 0)
  | .inf n => r = (signCode l n + if l.sat then l.top else infinity l, if l.sat then 2 + 8 else 0)
  | .fin n m _ => if m = 0 then r = (if l.expo = 2 then 0 else signCode l n, 0) else RoundsTo l rm (numberOf v) r.1 r.2

/-- Conversions (R51-R57, R115, R116, R118): between the integers and the floating-point types, into each element format, and out of
each. An F4 code 8 is XV; a DX element is sign x m x 2^(S - 127 - (w - 2) - sel g), all +0 under S = 0 and NaN under S = 255. -/
def Sys2Proof.Machine.ConversionLawsRule : Prop :=
  (∀ ft ity rm a, CodeOf (fieldsOf ft) a → ∃ v, StandsFor (fieldsOf ft) a v ∧
    let w := tyW ity
    BecomesInt w (if tySigned ity then -2 ^ (w - 1) else 0) (if tySigned ity then 2 ^ (w - 1) - 1 else 2 ^ w - 1) rm v (f2iVal ity ft rm a)) ∧
  (∀ ft ity rm x, x < 2 ^ tyW ity →
    let n : Int := if tySigned ity then (BitVec.ofNat (tyW ity) x).toInt else x
    if n = 0 then i2fVal ft ity rm x = (0, 0) else RoundsTo (fieldsOf ft) rm n (i2fVal ft ity rm x).1 (i2fVal ft ity rm x).2) ∧
  (∀ rm v,
    BecomesFloat (fieldsOf .f32) rm v (encodeElem 0x08 rm v) ∧ BecomesFloat (fieldsOf .f16) rm v (encodeElem 0x10 rm v) ∧
    BecomesFloat (fieldsOf .bf16) rm v (encodeElem 0x18 rm v) ∧ BecomesFloat f8e4Fields rm v (encodeElem 0x20 rm v) ∧
    BecomesFloat f8e5Fields rm v (encodeElem 0x28 rm v) ∧ BecomesFloat f4Fields rm v (encodeElem 0x30 rm v) ∧
    BecomesInt 8 (-128) 127 rm v (encodeElem 0x38 rm v) ∧ BecomesInt 8 0 255 rm v (encodeElem 0x39 rm v) ∧
    BecomesInt 4 (-8) 7 rm v (encodeElem 0x40 rm v)) ∧
  (∀ x : Nat, x < 2 ^ 32 →
    StandsFor (fieldsOf .f32) x (fcvtSource 0x08 x) ∧ StandsFor (fieldsOf .f16) (x % 2 ^ 16) (fcvtSource 0x10 x) ∧
    StandsFor (fieldsOf .bf16) (x % 2 ^ 16) (fcvtSource 0x18 x) ∧ StandsFor f8e4Fields (x % 256) (fcvtSource 0x20 x) ∧
    StandsFor f8e5Fields (x % 256) (fcvtSource 0x28 x) ∧
    (if x % 16 = 8 then StandsFor (fieldsOf .f16) (x / 2 ^ 16) (fcvtSource 0x30 x) else StandsFor f4Fields (x % 16) (fcvtSource 0x30 x)) ∧
    (∀ code w signed, (code, w, signed) ∈ [(0x38, 8, true), (0x39, 8, false), (0x40, 4, true)] → ∃ n m e, fcvtSource code x = .fin n m e ∧
      numberOf (fcvtSource code x) = if signed then ((BitVec.ofNat w x).toInt : ℝ) else ((x % 2 ^ w : Nat) : ℝ)) ∧
    ∀ code, isDx code = true →
      let sc := x / 2 ^ 24
      let v := fcvtSource code x
      (sc = 255 → v = .nan) ∧ (sc = 0 → v = .fin false 0 0) ∧
      (sc ≠ 255 → sc ≠ 0 → ∃ n m e, v = .fin n m e ∧ (m = 0 → n = false) ∧ numberOf v = dxNumber code sc x))

/-- Values of floating-point instructions: exact results are rounded once, special operands follow R50, and the other operations
and conversions their own rules. -/
def Obligations.RoundsExactly : Prop := ArithmeticRoundsRule ∧ SpecialOperandsRule ∧ OneOperandLawsRule ∧ ConversionLawsRule

/-- The block conversion of R66 against exact arithmetic, for a block of finite FP32 values: S follows the largest magnitude; each
element's magnitude is the selected rounding of its exact quotient, or M with SAT; NX, UF and SAT are set by exactly the elements
that R66 names, and nothing else is. -/
def Sys2Proof.Machine.BlockRoundingRule : Prop :=
  ∀ (w g : Nat) (rm : Rm) (cs : List Nat) (top : Int), w = 4 ∨ w = 8 ∨ w = 16 → 1 ≤ g → g ≤ 8 → (∀ c ∈ cs, Finite (fieldsOf .f32) c) →
    let r := dxBlock w g rm (cs.map (decodeIeee fp32))
    ((∀ c ∈ cs, valueOf (fieldsOf .f32) c = 0) → r = (0, cs.map fun _ => 0, 0)) ∧
    ((∃ c ∈ cs, (2 : ℚ) ^ top ≤ |valueOf (fieldsOf .f32) c|) → (∀ c ∈ cs, |valueOf (fieldsOf .f32) c| < 2 ^ (top + 1)) →
      (r.1 : Int) = min (max (top + 1 + 127) 1) 254 ∧ r.2.1.length = cs.length ∧
      let eh : Int := (r.1 : Int) - 127
      let sel (x : ℝ) : Prop := |x| < 2 ^ (eh - g)
      let q (x : ℝ) : ℝ := x / 2 ^ (eh - (w - 2 : Int) - if sel x then (g : Int) else 0)
      let most : Nat := 2 ^ (w - 2) - 1
      ∃ ms : List Int, ms.length = cs.length ∧
        (∀ (k c : Nat) (m : Int), cs[k]? = some c → ms[k]? = some m →
          Selects rm integral evenInt (q (valueOf (fieldsOf .f32) c)) m ∧
          r.2.1[k]? = some (if m = 0 then 0 else
            (if sel (valueOf (fieldsOf .f32) c) then 2 ^ (w - 1) else 0) + (if valueOf (fieldsOf .f32) c < 0 then 2 ^ (w - 2) else 0) + min m.natAbs most)) ∧
        let met (P : ℝ → Int → Prop) : Prop := ∃ (k c : Nat) (m : Int), cs[k]? = some c ∧ ms[k]? = some m ∧ P (valueOf (fieldsOf .f32) c) m
        r.2.2 < 32 ∧ r.2.2 % 4 = 0 ∧ (r.2.2.testBit 2 = true ↔ met fun x m => x ≠ 0 ∧ m = 0) ∧
          (r.2.2.testBit 3 = true ↔ met fun x m => ((min m.natAbs most : Nat) : ℝ) ≠ |q x|) ∧
          (r.2.2.testBit 4 = true ↔ met fun _ m => most < m.natAbs))

/-- Conversion into blocks and out of them (R118-R120): DXPK writes the codes of its block as 16 words and the descriptor,
DXUNPK the FP32 values of a block's elements, FCVT to a DX format each thread's image with the shared exponent. -/
def Sys2Proof.Machine.BlockInstructionsRule : Prop :=
  ∀ (h : Hdr) (w : DxWidth) (rm : Rm) (s : State) (id : Nat) (q : Squad) (p : Path),
    (∀ g vd va sb, (Instr.dxpk h w g rm vd va sb).wf = true → Issues s id q p h 2 → runs p h q ≠ 0 →
      let b := dxBlock (dxBits w) g rm (packElems q w va (runs p h q))
      Writes (.dxpk h w g rm vd va sb) s id q p h fun q' =>
        GetsV vd 1 (runs p h q) q q' (fun u => if u < 16 then
          (packBits (dxBits w) ((b.2.1.drop (32 / dxBits w * u)).take (32 / dxBits w)) : Nat) else 0) ∧
        GetsS sb q q' (BitVec.ofNat 64 (dxCode w g + 256 * b.1)) ∧
        q'.p = q.p ∧ q'.b = q.b ∧ q'.vi = q.vi ∧ q'.im = q.im ∧ q'.flg = q.flg ||| BitVec.ofNat 5 b.2.2) ∧
    (∀ vd va b, (Instr.dxunpk h w vd va b).wf = true → Issues s id q p h 2 →
      let desc := rdScal q b % 65536
      isDx (desc % 256) = true → elemBits (desc % 256) = dxBits w →
      Writes (.dxunpk h w vd va b) s id q p h fun q' =>
        (∀ r u, u < 32 → rdV q' r u =
          if bitM (runs p h q) u ∧ vd ≤ r ∧ 32 * (r - vd) + u < 512 / dxBits w then
            BitVec.ofNat 32 (blockElem q w va desc (32 * (r - vd) + u)) else rdV q r u) ∧
        q'.s = q.s ∧ q'.p = q.p ∧ q'.b = q.b ∧ q'.vi = q.vi ∧ q'.im = q.im ∧ q'.flg = q.flg) ∧
    (∀ dst src d a, (Instr.fcvt h dst src rm d a).wf = true → isDx dst = true → Issues s id q p h 1 → runs p h q ≠ 0 →
      let b := fcvtBlock src dst rm a (runs p h q) q
      Writes (.fcvt h dst src rm d a) s id q p h fun q' =>
        Gets .u32 d (runs p h q) q q' (fun u => (nthN b.2.1 u + 2 ^ 16 * dst + 2 ^ 24 * b.1 : Nat)) ∧
        q'.p = q.p ∧ q'.b = q.b ∧ q'.flg = q.flg ||| BitVec.ofNat 5 b.2.2)

/-- The block instructions, and the rounding of a block. -/
def Obligations.BlockConversions : Prop := BlockInstructionsRule ∧ BlockRoundingRule

/-- SHFL, IRED, FRED and VOTE complete across the active threads (R68, R97, R98, R100, R121). That a NaN which FRED passes through leaves
canonical is the model's reading (log 110, DEDUCED). -/
def Obligations.CrossThreadResults : Prop :=
  ∀ (h : Hdr) (s : State) (id : Nat) (q : Squad) (p : Path),
    let act := runs p h q
    (∀ ty m vd va b, (Instr.shfl h ty m vd va b).wf = true → Issues s id q p h 2 →
      Owes (.shfl h ty m vd va b) s id q p h OnlySquads fun q' =>
        Gets ty (.v vd false false) act q q' (fun u => shflGives q ty m act (.v va false false) b u) ∧
        q'.p = q.p ∧ q'.b = q.b ∧ q'.flg = q.flg) ∧
    (∀ ty op sd va, (Instr.ired h ty op sd va).wf = true → Issues s id q p h 2 →
      Owes (.ired h ty op sd va) s id q p h OnlySquads fun q' =>
        (if act = 0 then q'.s = q.s else GetsS sd q q' (wide ty (iredGives ty op
          ((threadsOf act).map (raw ty q (.v va false false))) ((threadsOf act).map (val ty q (.v va false false)))))) ∧
        q'.v = q.v ∧ q'.p = q.p ∧ q'.b = q.b ∧ q'.vi = q.vi ∧ q'.im = q.im ∧ q'.flg = q.flg) ∧
    (∀ ft op sd a, (Instr.fred h ft op sd a).wf = true → Issues s id q p h 2 →
      Owes (.fred h ft op sd a) s id q p h OnlySquads fun q' =>
        (match treeReduce (fredOp ft op) ((List.range 32).map fun u => if bitM act u then some (rdF q ft a u) else none) with
         | none => q'.s = q.s ∧ q'.flg = q.flg
         | some r => GetsS sd q q' (BitVec.ofNat 64 (if decodeIeee (fmtOf ft) r.1 = .nan then (fmtOf ft).nanCode else r.1)) ∧
             q'.flg = q.flg ||| BitVec.ofNat 5 r.2) ∧
        q'.v = q.v ∧ q'.p = q.p ∧ q'.b = q.b ∧ q'.vi = q.vi ∧ q'.im = q.im) ∧
    (∀ i pd pa f, voteRule i = some (h, pd, pa, f) → i.wf = true → Issues s id q p h 1 →
      Owes i s id q p h OnlySquads fun q' =>
        (∃ r : Bool, (r = true ↔ f ((threadsOf act).map (rdP q pa))) ∧ GetsP pd act q q' fun _ => r) ∧
        q'.v = q.v ∧ q'.s = q.s ∧ q'.b = q.b ∧ q'.vi = q.vi ∧ q'.im = q.im ∧ q'.flg = q.flg) ∧
    (∀ sd pa, (Instr.voteBallot h sd pa).wf = true → Issues s id q p h 1 →
      Owes (.voteBallot h sd pa) s id q p h OnlySquads fun q' =>
        (if act = 0 then q'.s = q.s else ∃ x, maskWord (fun u => bitM act u && rdP q pa u) x ∧ GetsS sd q q' x) ∧
        q'.v = q.v ∧ q'.p = q.p ∧ q'.b = q.b ∧ q'.vi = q.vi ∧ q'.im = q.im ∧ q'.flg = q.flg)

/-- Special registers (R34, R95, R96, R76): MOVS gives each its content, broadcast or once, a V special as at issue (log 12, DEDUCED: at or
after issue); MOVX writes EXM within the path's members, the path priority or the flags. A path left with an empty EXM parks at its
record, or ends its squad (R133). PMASK.GET gathers a predicate, FLAGS.CLR clears flags, NOP does nothing. -/
def Obligations.SpecialRegisters : Prop :=
  ∀ (h : Hdr) (s : State) (id : Nat) (q : Squad) (p : Path),
    let act := runs p h q
    (∀ d x, (Instr.movs h d x).wf = true → Issues s id q p h 1 →
      let f (u : Nat) : Int := specVal (issued s id q p h 1 (occOf d 1)) (seen id q p h) x u
      let ty := if isUniform d then IType.u64 else .u32
      if specIsV x then Owes (.movs h d x) s id q p h (if x = 0x022 then OnlyHere else OnlySquads) fun q' =>
        Gets ty d act q q' f ∧ q'.p = q.p ∧ q'.b = q.b ∧ q'.flg = q.flg
      else Writes (.movs h d x) s id q p h fun q' => Gets ty d act q q' f ∧ q'.p = q.p ∧ q'.b = q.b ∧ q'.flg = q.flg) ∧
    (∀ a, Issues s id q p h 1 → act ≠ 0 → (BitVec.ofNat 32 (rdScal q a) &&& p.members) ≠ 0 →
      Turns (.movx h 0x010 a) s id q h fun q' => SameSquad q q' ∧
        q'.paths = inPlace p (fun b => { b with pc := nextPc b.pc, exm := BitVec.ofNat 32 (rdScal q a) &&& p.members }) q.paths) ∧
    (∀ a, Issues s id q p h 1 → act ≠ 0 → (BitVec.ofNat 32 (rdScal q a) &&& p.members) = 0 →
      (p.jrec = none → Ended (.movx h 0x010 a) s id q) ∧
      (∀ rid r, p.jrec = some rid → aget q.joins rid = some r →
        (p.ret.length ≠ r.rdepth → Raises (.movx h 0x010 a) s id q p (mkFault 0x12 5 act p)) ∧
        (p.ret.length = r.rdepth → leavesOne q p p.members r →
          Turns (.movx h 0x010 a) s id q h fun q' => Parked q q' p p.members rid r (aget q.joins)))) ∧
    (∀ i b, i = .movx h 0x011 b ∨ i = .setpri h b → Issues s id q p h 1 → act ≠ 0 →
      Turns i s id q h fun q' => SameSquad q q' ∧
        resorted (inPlace p (fun a => { a with pc := nextPc a.pc, ppri := rdScal q b % 256 }) q.paths) q'.paths) ∧
    (∀ a, Issues s id q p h 1 → act ≠ 0 → Writes (.movx h 0x012 a) s id q p h fun q' =>
      q'.flg = BitVec.ofNat 5 (rdScal q a) ∧ SameRegs { q with flg := q'.flg } q') ∧
    (∀ m, Issues s id q p h 1 → act ≠ 0 → Writes (.flagsClr h m) s id q p h fun q' =>
      q'.flg = q.flg &&& ~~~(BitVec.ofNat 5 m) ∧ SameRegs { q with flg := q'.flg } q') ∧
    (∀ sd pa, Issues s id q p h 1 → act ≠ 0 → Writes (.pmaskGet h sd pa) s id q p h fun q' =>
      (∃ x, maskWord (rdP q pa) x ∧ GetsS sd q q' x) ∧ SameRegs { q with s := q'.s } q') ∧
    (Issues s id q p h 0 → Does (.nop h) s id q p h (OnlySquads s))

/-! ### Energy -/

/-- Every instruction under a guard that is false in all threads, or on an empty mask, does nothing but count its issue and
debit its energy, the units of the larger of EC and the minimum class of R37 (R26, R28); `join` parks whatever the guard, the
privileged instructions are checked first, and an atomic whose D breaks its register rule is ILL (R39). -/
def Obligations.GuardedOffDoesNothing : Prop :=
  ∀ (i : Instr) (h : Hdr) (s : State) (id : Nat) (q : Squad) (p : Path),
    i.hdr = some h → i.wf = true → i ≠ .join h →
    (∀ sd x, i ≠ .csrRd h sd x) → (∀ x a, i ≠ .csrWr h x a) → i ≠ .tret h → (∀ b, i ≠ .halt h b) →
    obeysRegs s q 0 i → Issues s id q p h (minClass i) → runs p h q = 0 →
    Does i s id q p h fun t => OnlySquads s t ∧ Debited s t q (unitsOf (max h.ec (minClass i))) ∧
      (budgetOf t (dieOf q) (ctxId s q)).prio = (budgetOf s (dieOf q) (ctxId s q)).prio ∧
      (budgetOf t (dieOf q) (ctxId s q)).gen = (budgetOf s (dieOf q) (ctxId s q)).gen

/-- The debit (R28, R39, R300-R302): every instruction that issues takes the units of the larger of EC and its minimum class from
its context's budget on its die, RES first at deadline priority, and from no other budget, whether it completes, waits or
faults. The one ILL that a word finds at issue, the register rule of ATOM, RED and CAS, leaves every amount as it was. -/
def Sys2Proof.Machine.DebitIsExactRule : Prop :=
  ∀ (i : Instr) (h : Hdr) (s : State) (id : Nat) (q : Squad) (p : Path),
    i.hdr = some h → i.wf = true → Issues s id q p h (minClass i) → q.granted = false →
    (obeysRegs s q (runs p h q) i → ∃ t, exec i s = .next t ∧ Debited s t q (unitsOf (max h.ec (minClass i)))) ∧
    (¬ obeysRegs s q (runs p h q) i → ∃ t, exec i s = .next t ∧ Debited s t q 0)

/-- Without the units (R301, R305, R391): the instruction does not execute. The squad joins its context's waiting list at the
end, or waits for the next refill when it has reached its own cap; no register and no byte changes. -/
def Sys2Proof.Machine.UnfundedWaitsRule : Prop :=
  ∀ (i : Instr) (h : Hdr) (s : State) (id : Nat) (q : Squad) (p : Path),
    i.hdr = some h → i.wf = true → s.cur = some id → squadOf s id = some q → runningPath q = some p → q.wait = none →
    q.granted = false → q.pend = [] → 0 < unitsOf (max h.ec (minClass i)) →
    let u := unitsOf (max h.ec (minClass i))
    let b := budgetOf s (dieOf q) (ctxId s q)
    let l := if deadline s q then b.prio else b.gen
    (q.ebudCap ≠ 0 ∧ q.ebudCap ≤ q.ebudDeb →
      ∃ t, exec i s = .next t ∧ squadOf t id = some { q with wait := some .capped } ∧ OnlySquads s t ∧ t.budgets = s.budgets) ∧
    (q.ebudCap = 0 ∨ q.ebudDeb < q.ebudCap →
      l ≠ [] ∨ (if deadline s q then b.res + b.bud else b.bud) < u → (∀ e ∈ b.prio ++ b.gen, e.1 ≠ id) →
      ∃ t, exec i s = .next t ∧ squadOf t id = some { q with wait := some (.budget u) } ∧ OnlySquads s t ∧
        budgetOf t (dieOf q) (ctxId s q) =
          (if deadline s q then { b with prio := b.prio ++ [(id, u, true)] } else { b with gen := b.gen ++ [(id, u, true)] }))

/-- An issue debits its class, or waits without effect when the budget does not allow it. -/
def Obligations.EnergyDebits : Prop := DebitIsExactRule ∧ UnfundedWaitsRule

/-! ### Control flow -/

/-- A branch, call, return or overlay jump that the whole path takes (R130, R137, R144): the path continues at its target
with its return stack pushed or popped, and nothing else changes. -/
def Sys2Proof.Machine.WholePathTransfersRule : Prop :=
  ∀ (i : Instr) (h : Hdr) (cls : Nat) (pc : Pc) (ret : List Pc) (s : State) (id : Nat) (q : Squad) (p : Path),
    transfer s q p i = some (h, cls, pc, ret) → Issues s id q p h cls → p.exm ≠ 0 → runs p h q = p.exm →
    Turns i s id q h fun q' => SameSquad q q' ∧ q'.paths = inPlace p (fun a => { a with pc := pc, ret := ret }) q.paths

/-- BRDEC counts its s-register down and branches with the whole path until the count is zero (R149). -/
def Sys2Proof.Machine.BranchOnCountRule : Prop :=
  ∀ (h : Hdr) (sd t : Nat) (s : State) (id : Nat) (q : Squad) (p : Path),
    Issues s id q p h 1 → runs p h q ≠ 0 →
    ∃ u q', exec (.brdec h sd t) s = .next u ∧ Turned s u id q q' h ∧ OnlySquads s u ∧ SameSquad q q' ∧ q'.pend = [] ∧
      GetsS sd q q' (rdS q sd - 1) ∧ SameRegs { q with s := q'.s } q' ∧
      q'.paths = inPlace p (fun a => { a with pc := if rdS q sd = 1 then nextPc a.pc else ⟨p.pc.bank, t⟩ }) q.paths

/-- Control transfers of a whole path: jumps, calls, returns, overlay jumps, counted branches. -/
def Obligations.PathTransfers : Prop := WholePathTransfersRule ∧ BranchOnCountRule

/-- A split (R129, R130): with a join record and a path entry free, the threads that take the branch become one path and the
others another, in this order in the parent's place, under a new join record that expects them all. -/
def Sys2Proof.Machine.SplitsPathRule : Prop :=
  ∀ (i : Instr) (h : Hdr) (pc : Pc) (ret : List Pc) (j : Nat) (s : State) (id : Nat) (q : Squad) (p : Path),
    diverges q p i = some (h, pc, ret, j) → Issues s id q p h 1 →
    let act := runs p h q
    act ≠ 0 → act ≠ p.exm → (∃ n, n < 16 ∧ aget q.joins n = none) → (∃ n, n < 8 ∧ n ∉ q.paths.map (·.entry)) →
    (q.paths.map (·.entry)).Nodup →
    Turns i s id q h fun q' => ∃ rid e, rid < 16 ∧ aget q.joins rid = none ∧ e < 8 ∧ e ∉ q.paths.map (·.entry) ∧
      (∀ k, aget q'.joins k = if k = rid then some (splitRec p j) else aget q.joins k) ∧
      resorted (splitList p (takenHalf p act pc ret rid) (fallHalf p act e rid) q.paths) q'.paths

/-- A split with all eight path entries in use defers a path (R135): of the nine, the candidate of lowest priority that stands
latest moves into its join record, and its entry goes to the path that has none; every other path and record stands. -/
def Sys2Proof.Machine.FullTableDefersRule : Prop :=
  ∀ (i : Instr) (h : Hdr) (pc : Pc) (ret : List Pc) (j : Nat) (s : State) (id : Nat) (q : Squad) (p : Path),
    diverges q p i = some (h, pc, ret, j) → Issues s id q p h 1 →
    let act := runs p h q
    act ≠ 0 → act ≠ p.exm → (∃ n, n < 16 ∧ aget q.joins n = none) →
    q.paths.length = 8 → (q.paths.map (·.entry)).Nodup → (∀ a ∈ q.paths, a.entry < 8) →
    Turns i s id q h fun q' => ∃ rid, rid < 16 ∧ aget q.joins rid = none ∧
      let recs (k : Nat) : Option JoinRec := if k = rid then some (splitRec p j) else aget q.joins k
      ∃ pre c post n, resorted (splitList p (takenHalf p act pc ret rid) (fallHalf p act 8 rid) q.paths) (pre ++ c :: post) ∧
        MayDefer recs (pre ++ c :: post) c ∧ c.jrec = some n ∧
        (∀ a ∈ pre ++ c :: post, MayDefer recs (pre ++ c :: post) a → c.ppri ≤ a.ppri) ∧
        (∀ a ∈ post, MayDefer recs (pre ++ c :: post) a → c.ppri < a.ppri) ∧
        q'.paths = (pre ++ post).map (fun a => if a.entry = 8 then { a with entry := c.entry } else a) ∧
        ∀ k, aget q'.joins k =
          if k = n then (recs k).map fun r => { r with deferred := some ⟨c.pc, c.exm, c.members, c.ppri, c.ret⟩ } else recs k

/-- Branches that split a path, with a free entry and without. -/
def Obligations.PathSplits : Prop := SplitsPathRule ∧ FullTableDefersRule

/-- The faults of the control stack and of an overlay jump (R43, R131, R132, R137, R138): no register, path or memory
changes, and the fault is delivered. The order of the faults of CALL is log 17 and of OVLJ.CALL log 114 (both DESIGN CHOICE). -/
def Obligations.ControlFaults : Prop :=
  ∀ (i : Instr) (h : Hdr) (cls code sub : Nat) (s : State) (id : Nat) (q : Squad) (p : Path),
    controlFault s q p (runs p h q) i = some (h, cls, code, sub) → Issues s id q p h cls →
    Raises i s id q p (mkFault code sub (runs p h q) p)

/-- JOIN (R131, R135): at the index of its innermost record a path parks. When all members have arrived the record merges;
a deferred path is reinstated first; otherwise the path leaves the table and its members are counted as arrived. At an index
that an outer record of its chain names but not the innermost, JOIN raises STACK 6; at one that no record of the chain names,
it does nothing (R132). -/
def Obligations.JoinParksAndMerges : Prop :=
  ∀ (h : Hdr) (s : State) (id : Nat) (q : Squad) (p : Path), Issues s id q p h 1 →
    (∀ rid r, p.jrec = some rid → aget q.joins rid = some r → r.join = p.pc → p.ret.length = r.rdepth → leavesOne q p p.members r →
      Turns (.join h) s id q h fun q' => Parked q q' p p.members rid r (aget q.joins)) ∧
    ((∀ r, OnChain q 0 p.jrec r → r.join ≠ p.pc) → (∃ n r, 0 < n ∧ n < 16 ∧ OnChain q n p.jrec r ∧ r.join = p.pc) →
      Raises (.join h) s id q p (mkFault 0x12 6 (runs p h q) p)) ∧
    ((∀ n r, OnChain q n p.jrec r → r.join ≠ p.pc) → Does (.join h) s id q p h (OnlySquads s))

/-- EXIT (R133, R134, R148): the active threads leave their path, which goes on with the others, and every join record. A path left with
members and an empty EXM parks at its record, or, at the top, ends the squad; a path left with no member is freed, and a record that has
all its members merges in its place; when no member of the only path remains, the squad ends and leaves its task. -/
def Obligations.ExitRemovesThreads : Prop :=
  ∀ (h : Hdr) (s : State) (id : Nat) (q : Squad) (p : Path), Issues s id q p h 0 →
    let act := runs p h q
    let rest := p.members &&& ~~~act
    let recs (k : Nat) : Option JoinRec := (aget q.joins k).map (without act)
    (act ≠ 0 → p.exm &&& ~~~act ≠ 0 → p.members &&& p.exm = p.exm →
      Turns (.exit h) s id q h fun q' =>
        resorted (inPlace p (fun _ => { p with pc := nextPc p.pc, members := rest, exm := p.exm &&& ~~~act }) q.paths) q'.paths ∧
        ∀ k, aget q'.joins k = recs k) ∧
    (act ≠ 0 → act = p.exm → rest ≠ 0 →
      (p.jrec = none → Ended (.exit h) s id q) ∧
      (∀ rid r, p.jrec = some rid → aget q.joins rid = some r →
        (p.ret.length ≠ r.rdepth → Raises (.exit h) s id q p (mkFault 0x12 5 act p)) ∧
        (p.ret.length = r.rdepth → leavesOne q p rest (without act r) →
          Turns (.exit h) s id q h fun q' => Parked q q' p rest rid (without act r) recs))) ∧
    (act ≠ 0 → act = p.members → (q.joins.map (·.1)).Nodup → (∀ k r, aget q.joins k = some r → r.deferred = none) →
      let full (k : Nat) : Prop := ∃ r, recs k = some r ∧ r.expected ≠ 0 ∧ r.arrived = r.expected
      let left (k : Nat) : Option JoinRec := (recs k).filter fun r => r.expected != 0
      ((∀ k, ¬ full k) → (∃ a ∈ q.paths, a.entry ≠ p.entry) → Turns (.exit h) s id q h fun q' =>
        (∀ k, aget q'.joins k = left k) ∧ resorted (q.paths.filter fun a => a.entry ≠ p.entry) q'.paths) ∧
      (∀ rid r, recs rid = some r → (∀ k, full k ↔ k = rid) → Turns (.exit h) s id q h fun q' =>
        (∀ k, aget q'.joins k = if k = rid then none else left k) ∧
        resorted (inPlace p (fun _ => continued p.entry r r.lastRet) q.paths) q'.paths)) ∧
    (act ≠ 0 → q.paths = [p] → q.joins = [] → p.jrec = none → act = p.members → Ended (.exit h) s id q)

/-- YIELD moves the running path just behind the last ready path whose priority is at least its own (R129, R146). -/
def Obligations.YieldMovesBehind : Prop :=
  ∀ (h : Hdr) (s : State) (id : Nat) (q : Squad) (p : Path), Issues s id q p h 0 → runs p h q ≠ 0 →
    (q.paths.map (·.entry)).Nodup → p ∈ q.paths →
    Turns (.yield h) s id q h fun q' => SameSquad q q' ∧ ∃ pre post,
      pre ++ post = q.paths.filter (fun a => a.entry ≠ p.entry) ∧
      q'.paths = pre ++ [{ p with pc := nextPc p.pc }] ++ post ∧
      (∀ a ∈ post, a.ppri < p.ppri) ∧ (∀ a, pre.getLast? = some a → p.ppri ≤ a.ppri)

/-- WAITC holds the squad until a time, WAITC.REL for a count of cycles from issue; a time that has come, or a count that is
not positive, does not wait (R153). -/
def Obligations.TimedWaits : Prop :=
  ∀ (h : Hdr) (b : Opnd) (s : State) (id : Nat) (q : Squad) (p : Path), Issues s id q p h 0 → runs p h q ≠ 0 →
    let n := rdScal q b
    (if n ≤ s.time then Does (.waitc h b) s id q p h (OnlySquads s)
     else ∃ t q', exec (.waitc h b) s = .next t ∧ Held s t id q q' p h (.waitc n) ∧ OnlySquads s t ∧ SameSquad q q' ∧
       SameRegs q q') ∧
    (if (BitVec.ofNat 64 n).toInt ≤ 0 then Does (.waitcRel h b) s id q p h (OnlySquads s)
     else ∃ t q', exec (.waitcRel h b) s = .next t ∧ Held s t id q q' p h (.waitcRel (s.clock + n)) ∧ OnlySquads s t ∧
       SameSquad q q' ∧ SameRegs q q')

/-! ### Traps, handlers and privilege -/

/-- TRAP and BKPT raise their faults with the active threads and leave the path at the next index (R151, R152, R381, R382). -/
def Obligations.TrapAndBreakpoint : Prop :=
  ∀ (h : Hdr) (n : Nat) (s : State) (id : Nat) (q : Squad) (p : Path), Issues s id q p h 0 → runs p h q ≠ 0 →
    Raises (.trap h n) s id q p ⟨0x10, n, lowestD (runs p h q), runs p h q, 0, true, false, none⟩ ∧
    Raises (.bkpt h n) s id q p ⟨0x11, n, lowestD (runs p h q), runs p h q, 0, true, false, none⟩

/-- CSR.RD and CSR.WR where the squad may issue them (R382, R393): the trap CSRs in a handler, zero and without effect outside
one; the task record's address; the watchdog's budget. -/
def Sys2Proof.Machine.CsrAccessRule : Prop :=
  ∀ (h : Hdr) (s : State) (id : Nat) (q : Squad) (p : Path), Issues s id q p h 1 → mayPriv s q = true → runs p h q ≠ 0 →
    (∀ sd n, (Instr.csrRd h sd n).wf = true → Owes (.csrRd h sd n) s id q p h OnlySquads fun q' =>
      GetsS sd q q' (csrHolds s q n) ∧ SameRegs { q with s := q'.s } q') ∧
    (∀ a, ∃ t q', exec (.csrWr h 1 a) s = .next t ∧ Went s t id q q' p h ∧ OnlySquads s t ∧ SameRegs q q' ∧
      q'.trap = q.trap.map fun r => { r with pc := ⟨(rdScal q a).testBit 13, rdScal q a % 8192⟩ }) ∧
    (∀ a, ∃ t q', exec (.csrWr h 0x11 a) s = .next t ∧ Went s t id q q' p h ∧ SameSquad q q' ∧ SameRegs q q' ∧
      SameBytes s t ∧ ∀ k, taskOf s q.task = some k → taskOf t q.task = some { k with rbudget := rdScal q a % 256 })

/-- TRET leaves the handler (R394): the trapped path continues at TRPC, no register changes. -/
def Sys2Proof.Machine.TretResumesRule : Prop :=
  ∀ (h : Hdr) (s : State) (id : Nat) (q : Squad) (p : Path) (r : TrapState), Issues s id q p h 1 → q.trap = some r →
    runs p h q ≠ 0 →
    Turns (.tret h) s id q h fun q' => q'.trap = none ∧ q'.joins = q.joins ∧
      q'.paths = q.paths.map fun a => if a.entry = r.entry then { a with pc := r.pc } else a

/-- The handler reads and writes its CSRs and returns. -/
def Obligations.HandlerAccess : Prop := CsrAccessRule ∧ TretResumesRule

/-- A privileged word outside a handler and outside a privileged task raises PRIV 0 (R40); TRET of a privileged task outside a handler
raises PRIV 1 (R394). That the guard does not matter for PRIV 0, and that TRET needs an active thread, is log 21 (DEDUCED). -/
def Obligations.PrivilegeIsChecked : Prop :=
  ∀ (i : Instr) (h : Hdr) (s : State) (id : Nat) (q : Squad) (p : Path),
    ((∃ sd n, i = .csrRd h sd n) ∨ (∃ n a, i = .csrWr h n a) ∨ i = .tret h ∨ (∃ b, i = .halt h b)) →
    Issues s id q p h (minClass i) →
    (mayPriv s q = false → Raises i s id q p (mkFault 0x02 0 (runs p h q) p)) ∧
    (mayPriv s q = true → q.trap = none → runs p h q ≠ 0 → i = .tret h → Raises i s id q p (mkFault 0x02 1 (runs p h q) p))

/-- HALT (R395): with zero every squad of the task ends; otherwise the task is to end with CODE TRAP, without relaunch. -/
def Obligations.HaltEndsTask : Prop :=
  ∀ (h : Hdr) (b : Opnd) (s : State) (id : Nat) (q : Squad) (p : Path) (k : Task), Issues s id q p h 0 → mayPriv s q = true →
    runs p h q ≠ 0 → taskOf s q.task = some k → id ∈ k.squads → k.squads.Nodup →
    (∀ j ∈ k.squads, ∃ o, squadOf s j = some o ∧ o.task = q.task) →
    let n := rdScal q b % 256
    ∃ t, exec (.halt h b) s = .next t ∧ SameBytes s t ∧ SameTags s t ∧
      (n = 0 → (∀ j ∈ k.squads, squadOf t j = none) ∧ (∀ j, j ∉ k.squads → squadOf t j = squadOf s j) ∧
        taskOf t q.task = some { k with squads := [] }) ∧
      (n ≠ 0 → (∀ r, k.stopping ≠ .kill r ∧ k.stopping ≠ .scrub r) →
        let r : FaultRec := ⟨0x10, n, q.core, q.idx, lowestD (runs p h q), pcCode p.pc, 0, s.time, false⟩
        taskOf t q.task = some { k with stopping := .kill r })

/-! ### Words, the step, reset, memory -/

/-- Words of the spec's examples decode to the instruction written beside them (R37, R38 and the encoding rule of each chapter);
ill-formed words are refused: an unknown major, a minor opcode of `nop`, bit 74, an immediate as destination, a special register that
R34 does not list, a v-register beyond eight declared ones, a negation that a logic source does not accept (R38). -/
def Obligations.DecodeExamples : Prop :=
  let word (bs : List Byte) : Decoded := decode .max (bytesWord bs)
  let h (ec : Nat) : Hdr := ⟨false, 0, false, ec, 0⟩
  let v (n : Nat) : Opnd := .v n false false
  let s (n : Nat) : Opnd := .s n false false
  word [0xFF, 0xFF, 0x7F, 0x01, 0x00, 0x50, 0x00, 0x00, 0x00, 0x80, 0x8E, 0x04] =
    .ok (.iadd ⟨true, 3, true, 2, 0⟩ .u32 false false false 0 (v 5) (v 5) (.imm 0xFFFFF)) ∧
  word [0x02, 0x00, 0x60, 0x00, 0x00, 0x38, 0x00, 0x00, 0x22, 0x40, 0x00, 0x40] = .ok (.plop (h 1) 8 3 1 2) ∧
  word [0x03, 0x00, 0x80, 0x00, 0x00, 0x10, 0x00, 0x00, 0x82, 0x40, 0x00, 0x26] =
    .ok (.fcmp (h 1) .f32 .ltu 1 (v 2) (v 3)) ∧
  word [0x14, 0xE0, 0x03, 0x04, 0x00, 0x00, 0x00, 0x00, 0x00, 0x40, 0x08, 0x50] =
    .ok (.bra ⟨false, 2, false, 1, 0⟩ 20 (some 31)) ∧
  word [0x07, 0x00, 0x80, 0x00, 0x40, 0x58, 0x00, 0x00, 0xB0, 0xC1, 0x00, 0x60] = .ok (.ld (h 3) .b32 true .die 5 2 (v 7)) ∧
  word [0x02, 0x00, 0xC0, 0x00, 0x40, 0x88, 0x00, 0x00, 0x48, 0xC0, 0x00, 0x69] = .ok (.lld (h 3) .b32 (some 1) 8 3 (v 2)) ∧
  word [0x07, 0x00, 0x80, 0x00, 0x40, 0x48, 0x00, 0x00, 0x40, 0xC3, 0x00, 0x80] = .ok (.atom (h 3) (.ar .die) .add 4 2 (v 7)) ∧
  word [0x05, 0x00, 0x90, 0x00, 0x40, 0x38, 0x00, 0x50, 0x02, 0x00, 0x01, 0x93] = .ok (.cpys (h 4) 3 2 (s 5)) ∧
  word [0x53, 0x00, 0xB0, 0x00, 0x00, 0x49, 0x00, 0x10, 0x02, 0x00, 0x01, 0xA5] =
    .ok (.drain (h 4) .rne false false 4 2 (.imm 0x53)) ∧
  word [0x06, 0x00, 0x90, 0x00, 0x40, 0x58, 0x00, 0x10, 0x0E, 0x80, 0x01, 0xA8] = .ok (.gmv (h 6) 3 5 2 6) ∧
  word [0x06, 0x00, 0xD0, 0x00, 0x40, 0x08, 0x01, 0x00, 0x40, 0xC0, 0x00, 0xC1] = .ok (.lfSpan (h 3) false 2 0 16 3 6) ∧
  word [0x01, 0x00, 0x30, 0x00, 0x00, 0x40, 0x00, 0x00, 0x01, 0x40, 0x00, 0xD8] = .ok (.csrRd (h 1) 4 0x001) ∧
  decode .max (0x3B * 2 ^ 88) = .ill 1 ∧ decode .max (2 ^ 66) = .ill 2 ∧ decode .max (2 ^ 74) = .ill 3 ∧
  word [0xFF, 0xFF, 0x7F, 0x01, 0x00, 0x50, 0x00, 0x00, 0x03, 0x80, 0x8E, 0x04] = .ill 4 ∧
  decode .max (0x1C * 2 ^ 88 + 0x2603FF * 2 ^ 22) = .ill 5 ∧ decode ⟨8, 0, 0⟩ (0x0E * 2 ^ 88 + 8 * 2 ^ 44) = .ill 6 ∧
  decode .max (0x10 * 2 ^ 88 + 2 ^ 8) = .ill 8

/-- Every well-formed instruction has a word, and the word decodes to it; what a word decodes to is well-formed (R21-R25,
R30, R31, R37, R38). -/
def Obligations.EncodeDecode : Prop :=
  (∀ (i : Instr) (h : Hdr), i.hdr = some h → i.wf = true →
    ∃ w, w < 2 ^ 96 ∧ encode i = some w ∧ decode .max w = .ok i) ∧
  (∀ (w : Nat) (i : Instr), w < 2 ^ 96 → decode .max w = .ok i → i.wf = true ∧ ∃ h, i.hdr = some h)

/-- A step of a device with power, when the agenda (the model's own, log 3) gives the turn of a lane to a squad that may
issue and nothing falls due, runs the instruction that the bytes at the squad's program counter decode to: exec of it, then
the lane's pointer moves on, the squads that cannot pay their next instruction join their lists, and the active sets follow
(the order in the active set and the moment of joining a list are the model's: logs 25, DEDUCED, and 26, DESIGN CHOICE).
Bytes that are no instruction run as ILL with their subcode. -/
def Obligations.StepRunsDecoded : Prop :=
  ∀ (s : State) (id : Nat) (r : List Agendum) (q : Squad) (p : Path),
    let s1 : State := { s with ctr := s.ctr + 1, agenda := r }
    let s2 : State := { modSquad s1 id (fun q => { q with settling := false }) with cur := some id }
    let after (t : State) : State :=
      refreshLanes (joinLists { t with lanes := amod t.lanes (laneKey q) fun l => (l.1, id + 1) })
    s.powered = true → dueNow s = none →
    (s.agenda = .issue id :: r ∨ (s.agenda = [] ∧ r = [] ∧ chosen s1 = .issue id)) →
    squadOf s id = some q → runningPath q = some p → stopped s q.core = false → laneTurn s id = true →
    (canIssue s1 id = true ∨
      (s.ready = true ∧ taskRuns s q = true ∧ q.fault = none ∧ (q.settling = false ∨ q.pend = []) ∧
        (bankOf s q.core p.pc.bank).loading = [] ∧ q.wait = none ∧ unpaid s1 id = none)) →
    (∀ i, fetch s q p = .ok i → step s = onNext (exec i s2) after) ∧
    (∀ n, fetch s q p = .ill n → step s = onNext (execIllegalWord n s2) after)

/-- Reset: no task or squad runs, the device is not yet ready, memory lists nothing, no bank holds an overlay and each reads as
all-ones words, the frame teams, the access tables and the counters stand at their reset values (R42, R358, R407, R419), and
memory is in its canonical form. That an unwritten byte reads as zero is the model's choice (log 1), as is every register's
value for which the spec gives none (log 2). -/
def Obligations.ResetValues : Prop :=
  let s := State.reset
  s.squads = [] ∧ s.tasks = [] ∧ s.ready = false ∧ Memory.wf s.mem = true ∧ (∀ sp a, rdByte s sp a = 0) ∧
  s.teams = 0xF0 ∧ (∀ t l, hostRight s t l = 3) ∧ (∀ t d, peerRight s t d = 0) ∧ (∀ k, tget 0 s.stats k = 0) ∧
  (∀ core bank, (bankOf s core bank).valid = false) ∧
  (∀ core pc, pc.index < 8192 → wordAt s core pc = 2 ^ 96 - 1 ∧ overrun s core pc = true)

/-- Every store of the device has its canonical form: memory, scratchpads, peer memory, their descriptors, operand slots,
sidecars and extents, accumulators and their flags, instruction memories. -/
def Sys2Proof.Machine.StoresCanonical (s : State) : Prop :=
  Memory.wf s.mem = true ∧ Tbl.wf 0 s.scr = true ∧ Tbl.wf 0 s.peer = true ∧ Tbl.wf 0 s.tags = true ∧ Tbl.wf 0 s.scrTag = true ∧
    Tbl.wf 0 s.peerTag = true ∧ Tbl.wf 0 s.slotMem = true ∧ Tbl.wf 0 s.sidecar = true ∧ Tbl.wf (64, 256) s.ext = true ∧
    Tbl.wf 0 s.acc = true ∧ Tbl.wf 0 s.accFlg = true ∧ Tbl.wf 0xFF#8 s.imem = true

/-- Memory and every other store of bytes, words and descriptors keep their one canonical form (the model's own, log 1) through
every step. -/
def Obligations.StepKeepsMemory : Prop :=
  (∀ (s t : State), Memory.wf s.mem = true → step s = .next t → Memory.wf t.mem = true) ∧
  (∀ (s t : State), StoresCanonical s → step s = .next t → StoresCanonical t)

/-! ### Memory -/

/-- The checks of a per-thread access, in order (R160, R162): the record, each thread's bound, alignment and write permission,
then lease, translation and access by line, the lowest line first. A fault names the lowest failing thread and all that fail;
an access that passes is performed for exactly the active threads in bounds. That a check goes through all threads before the next
check, BOUND of any before ALIGN of any, is log 117 (DESIGN CHOICE). -/
def Obligations.AccessChecksInOrder : Prop :=
  ∀ (s : State) (x : Iss) (r : Rec) (w : Want) (addr : Nat → Nat × Bool),
    let inb (u : Nat) : Prop := bitM x.act u = true ∧ (addr u).2 = true
    let fails (code sub : Nat) (bad : Nat → Prop) : Prop := ∃ f, plan s x r w addr = .error f ∧ f.code = code ∧ f.sub = sub ∧
      (∀ u, u < 32 → (bitM f.mask u = true ↔ bad u)) ∧ bad f.thread ∧ (∀ u, bad u → f.thread ≤ u) ∧ f.addr = (addr f.thread).1
    (∀ e, recCheck r w.kinds w.spaces = some e → plan s x r w addr = .error (mkFault e.1 e.2 x.act x.path)) ∧
    (recCheck r w.kinds w.spaces = none → recKind r = 2 → w.size ≠ recE r →
      plan s x r w addr = .error (mkFault 0x07 0x05 x.act x.path)) ∧
    (recCheck r w.kinds w.spaces = none → recKind r ≠ 2 ∨ w.size = recE r →
      let oob (u : Nat) : Prop := u < 32 ∧ bitM x.act u = true ∧ (addr u).2 = false
      let mis (u : Nat) : Prop := u < 32 ∧ inb u ∧ (addr u).1 % w.size ≠ 0
      (recBmode r = false → (∃ u, oob u) → fails 0x04 0x01 oob) ∧
      (recBmode r = true ∨ (¬ ∃ u, oob u) →
        ((∃ u, mis u) → fails 0x03 0x01 mis) ∧
        ((¬ ∃ u, mis u) →
          (w.wr = true → recWr r = false → (∃ u, u < 32 ∧ inb u) → fails 0x07 0x06 fun u => u < 32 ∧ inb u) ∧
          (w.wr = false ∨ recWr r = true →
            let at' (u : Nat) : Except Err (Space × Nat) := placeRec s x.q r w.core w.fwd (addr u).1 w.size w.wr
            let rank (e : Err) : Nat := if e.1 = 0x05 then 0 else if e.1 = 0x06 then 1 else 2
            let line (u : Nat) : Nat := (addr u).1 / 256
            ((∃ u e, u < 32 ∧ inb u ∧ at' u = .error e) → ∃ u e, u < 32 ∧ inb u ∧ at' u = .error e ∧
              (∀ k e', k < 32 → inb k → at' k = .error e' → line u ≤ line k ∧ (line k = line u → rank e ≤ rank e')) ∧
              fails e.1 e.2 fun k => k < 32 ∧ inb k ∧ line k = line u ∧ at' k = .error e) ∧
            ((∀ u, u < 32 → inb u → ∃ p, at' u = .ok p) → ∃ ts, plan s x r w addr = .ok ts ∧
              (ts.map (·.t)).Pairwise (· < ·) ∧ (∀ u, (∃ g ∈ ts, g.t = u) ↔ u < 32 ∧ inb u) ∧
              ∀ g ∈ ts, g.va = (addr g.t).1 ∧ at' g.t = .ok (g.sp, g.a))))))

/-- A fault of these checks, unless it is parked for the host, is delivered; no byte is stored and no register written. -/
def Obligations.AccessFaultSuppresses : Prop :=
  ∀ (i : Instr) (h : Hdr) (cls ba : Nat) (w : Want) (addr : Nat → Nat × Bool) (f : FaultInfo) (s : State) (id : Nat) (q : Squad)
    (p : Path),
    ((∃ sz vd, loadOf q i = some (h, cls, ba, w, addr, sz, vd)) ∨ (∃ data, storeOf q i = some (h, cls, ba, w, addr, data))) →
    Issues s id q p h cls → runs p h q ≠ 0 →
    plan (issued s id q p h cls (.per 1)) (seen id q p h) (rdB q ba) w addr = .error f → f.park = false →
    Raises i s id q p f

/-- Loads (R165, R178, R181, R184, R190): each active thread's registers receive the bytes at its address, low bytes first, extended:
each granule of 8 bytes as of one moment, the same for all threads that load it, with every store that happens before the load; a
thread out of bounds under ZERO mode receives zeros. No memory changes. -/
def Obligations.LoadResults : Prop :=
  ∀ (i : Instr) (h : Hdr) (cls ba : Nat) (w : Want) (addr : Nat → Nat × Bool) (sz : MemSize) (vd : Nat) (ts : List Tgt)
    (s : State) (id : Nat) (q : Squad) (p : Path),
    loadOf q i = some (h, cls, ba, w, addr, sz, vd) → Issues s id q p h cls → runs p h q ≠ 0 →
    plan (issued s id q p h cls (.per 1)) (seen id q p h) (rdB q ba) w addr = .ok ts →
    reachable s ts → unpoisoned s ts w.size →
    Owes i s id q p h OnlyHere fun q' => ∃ (m : Space → Nat → Nat → Nat) (got : Nat → Nat),
      (∀ g ∈ ts, MayLoad s id q (loadPath q i) w.size m g (got g.t)) ∧
      GetsV vd (sizeRegs sz) (runs p h q) q q' (fun u => if ts.any fun g => g.t == u then extended sz (got u) else 0) ∧
      q'.s = q.s ∧ q'.p = q.p ∧ q'.b = q.b ∧ q'.vi = q.vi ∧ q'.im = q.im ∧ q'.flg = q.flg

/-- LDU and RECLD execute once for the lowest active thread (R184, R188): the s-register receives the value extended to 64
bits, the record register the 32 bytes, as a load may find them; out of bounds under ZERO mode, zero. -/
def Sys2Proof.Machine.UniformLoadsRule : Prop :=
  ∀ (h : Hdr) (ba : Nat) (b : Opnd) (ts : List Tgt) (s : State) (id : Nat) (q : Squad) (p : Path),
    let r := rdB q ba
    let one (n : Nat) (u : Nat) : Nat × Bool := recAddr r n (raw .u32 q b u)
    let got (n x : Nat) : Prop := match ts.head? with | some g => ∃ m, MayLoad s id q .T n m g x | none => x = 0
    (∀ sz ord sc sd, Issues s id q p h 2 → runs p h q ≠ 0 →
      plan (issued s id q p h 2 (.once 1)) (single (seen id q p h)) r ⟨[0], [0], sizeBytes sz, false, q.core, false⟩
        (one (sizeBytes sz)) = .ok ts → reachable s ts → unpoisoned s ts (sizeBytes sz) →
      Owes (.ldu h sz ord sc sd ba b) s id q p h OnlyHere fun q' =>
        (∃ x, got (sizeBytes sz) x ∧ GetsS sd q q' (BitVec.ofInt 64 (extended sz x))) ∧ SameRegs { q with s := q'.s } q') ∧
    (∀ bd, Issues s id q p h 2 → runs p h q ≠ 0 → ¬ (recSwz r ≠ 0 ∧ rec2d r = true) →
      plan (issued s id q p h 2 (.once 1)) (single (seen id q p h)) r ⟨[0], [0, 1], 32, false, q.core, false⟩ (one 32) = .ok ts →
      reachable s ts → unpoisoned s ts 32 →
      Owes (.recld h bd ba b) s id q p h OnlyHere fun q' =>
        (∃ x, got 32 x ∧ GetsB bd q q' (BitVec.ofNat 256 x)) ∧ SameRegs { q with b := q'.b } q')

/-- Stores (R185, R190): each thread's bytes hold its data, the highest thread's where they meet; every other byte, every
descriptor and every register is as before. -/
def Obligations.StoreResults : Prop :=
  ∀ (i : Instr) (h : Hdr) (cls ba : Nat) (w : Want) (addr : Nat → Nat × Bool) (data : Nat → Nat) (ts : List Tgt)
    (s : State) (id : Nat) (q : Squad) (p : Path),
    storeOf q i = some (h, cls, ba, w, addr, data) → Issues s id q p h cls → runs p h q ≠ 0 →
    plan (issued s id q p h cls (.per 1)) (seen id q p h) (rdB q ba) w addr = .ok ts → reachable s ts →
    Does i s id q p h fun t => OnlyStores s t ∧ SameTags s t ∧
      (∀ g ∈ ts, (∀ k ∈ ts, g.t < k.t → apart w.size g k) → rdN t g.sp g.a w.size = data g.t % 2 ^ (8 * w.size)) ∧
      ∀ sq b, (∀ g ∈ ts, ∀ j, j < w.size → ¬ samePlace g.sp (g.a + j) sq b) → rdByte t sq b = rdByte s sq b

/-- DESCRD reads the descriptors of blocks, DESCWR writes them; no byte changes (R191). -/
def Sys2Proof.Machine.DescriptorAccessRule : Prop :=
  ∀ (h : Hdr) (ba : Nat) (b : Opnd) (ts : List Tgt) (s : State) (id : Nat) (q : Squad) (p : Path),
    let addr (u : Nat) : Nat × Bool := recAddr (rdB q ba) 1 (raw .u32 q b u)
    let s1 := issued s id q p h 2 (.per 1)
    Issues s id q p h 2 → runs p h q ≠ 0 → reachable s ts →
    (∀ vd, plan s1 (seen id q p h) (rdB q ba) ⟨[0], [0, 1], 1, false, q.core, false⟩ addr = .ok ts → unpoisoned s ts 1 →
      Owes (.descrd h vd ba b) s id q p h OnlyHere fun q' =>
        GetsV vd 1 (runs p h q) q q' (fun u =>
          match ts.find? fun g => g.t == u with | some g => ((rdTag s g.sp (g.a / 64)).toNat : Int) | none => 0) ∧
        SameRegs { q with v := q'.v } q') ∧
    (∀ d, plan s1 (seen id q p h) (rdB q ba) ⟨[0], [0, 1], 1, true, q.core, false⟩ addr = .ok ts →
      Does (.descwr h d ba b) s id q p h fun t => OnlyStores s t ∧ SameBytes s t ∧
        (∀ g ∈ ts, (∀ k ∈ ts, g.t < k.t → ¬ sameBlock g.sp (g.a / 64) k.sp (k.a / 64)) →
          rdTag t g.sp (g.a / 64) = BitVec.ofNat 16 (raw .u32 q d g.t)) ∧
        ∀ sq c, (∀ g ∈ ts, ¬ sameBlock g.sp (g.a / 64) sq c) → rdTag t sq c = rdTag s sq c)

/-- Uniform loads; reads and writes of tile words and of descriptors. -/
def Obligations.UniformAndDescriptorAccess : Prop := UniformLoadsRule ∧ DescriptorAccessRule

/-- PREF and CWB change no byte, no descriptor and no register (R192, R193); the record check alone can fault. -/
def Sys2Proof.Machine.HintsChangeNothingRule : Prop :=
  ∀ (i : Instr) (h : Hdr) (ba : Nat) (kinds : List Nat) (s : State) (id : Nat) (q : Squad) (p : Path),
    ((∃ b, i = .prefDc h ba b) ∨ (∃ b, i = .prefXl h ba b)) ∧ kinds = [0, 2] ∨
      ((∃ b, i = .cwbWb h ba b) ∨ (∃ b, i = .cwbWbi h ba b)) ∧ kinds = [0] →
    Issues s id q p h (minClass i) → runs p h q ≠ 0 →
    (recCheck (rdB q ba) kinds [0] = none → Does i s id q p h fun t => OnlyHere s t) ∧
    (∀ e, e.1 ≠ 1 → recCheck (rdB q ba) kinds [0] = some e → Raises i s id q p (mkFault e.1 e.2 (runs p h q) p))

/-- RECLD.RANGE, .SCR and .TILE build their records from the task record and the task's place (R188). -/
def Sys2Proof.Machine.RecordMakersRule : Prop :=
  ∀ (h : Hdr) (bd : Nat) (s : State) (id : Nat) (q : Squad) (p : Path) (k : Task), Issues s id q p h 2 → runs p h q ≠ 0 →
    taskOf s q.task = some k →
    (∀ n w, n < k.tr.nrange → w * 2 ^ 31 < (rangeOf k.tr n).len → ((rangeOf k.tr n).lod = true → w = 0) →
      (rangeOf k.tr n).base + w * 2 ^ 31 < 2 ^ 52 →
      let e := rangeOf k.tr n
      let r := put (put 0 143 112 (min (e.len - w * 2 ^ 31) (2 ^ 32 - 1))) 51 0 (e.base + w * 2 ^ 31)
      Owes (.recldRange h bd n w) s id q p h OnlySquads fun q' => SameRegs { q with b := q'.b } q' ∧
        GetsB bd q q' (if e.lod then put r 255 252 1 else put r 249 249 (if e.acc = 3 then 1 else 0))) ∧
    (let r (size base : Nat) : Rec := put (put (put (put (put 0 251 251 1) 249 249 1) 245 239 (q.core % 128)) 143 112 size) 51 0 base
     Owes (.recldScr h bd) s id q p h OnlySquads (fun q' => SameRegs { q with b := q'.b } q' ∧
        GetsB bd q q' (r k.tr.scratch k.base)) ∧
     Owes (.recldTile h bd) s id q p h OnlySquads fun q' => SameRegs { q with b := q'.b } q' ∧
        GetsB bd q q' (put (r k.tr.ntile (k.base + k.tr.tileoff)) 255 252 3))

/-- RECSET changes one field of bD where the selector's requirements hold; a request that would widen the record raises
BOUND 2 (R189). -/
def Sys2Proof.Machine.RecordSelectorsRule : Prop :=
  ∀ (s : State) (id : Nat) (q : Squad) (p : Path) (h : Hdr), Issues s id q p h 1 → runs p h q ≠ 0 →
    (∀ i bd r, recsetNew q i = some (h, bd, r) →
      Writes i s id q p h fun q' => GetsB bd q q' r ∧ SameRegs { q with b := q'.b } q') ∧
    (∀ bd b, fld (rdB q bd) 255 252 = 0 → fld (rdB q bd) 207 176 = 0 → fld (rdB q bd) 143 112 * 2 ^ fld (rdB q bd) 238 235 < rdScal q b →
      Raises (.recsetOff h bd b) s id q p (mkFault 0x04 0x02 (runs p h q) p)) ∧
    (∀ bd b, fld (rdB q bd) 255 252 = 0 → fld (rdB q bd) 207 176 ≠ 0 → fld (rdB q bd) 175 144 < rdScal q b →
      Raises (.recsetRow h bd b) s id q p (mkFault 0x04 0x02 (runs p h q) p)) ∧
    (∀ bd b, let r := rdB q bd; let v := rdScal q b
      let size := fld r 143 112 * 2 ^ fld r 238 235
      let row := v % 2 ^ 16 * 2 ^ fld r 238 235
      let rows := v / 2 ^ 16 % 2 ^ 16
      let step := v / 2 ^ 32 % 2 ^ 32
      fld r 255 252 = 0 ∨ fld r 255 252 = 2 → fld r 207 176 = 0 → 1 ≤ v % 2 ^ 16 → 1 ≤ rows → row ≤ step →
      size < (rows - 1) * step + row → Raises (.recsetShape h bd b) s id q p (mkFault 0x04 0x02 (runs p h q) p))

/-- Instructions that make records and change their fields. -/
def Obligations.RecordRegisters : Prop := RecordMakersRule ∧ RecordSelectorsRule

/-! ### Level-of-detail resources -/

/-- The fallback walk (R196, R199): the level served is the first one from the wanted level on whose page is resident, the floor
at the latest; the status counts the steps, 15 where even the floor is not resident. The descriptor is the one that stands;
of one that has changed under the task's lease a thread's walk sees each field as of some moment since the task's launch. -/
def Obligations.FallbackWalk : Prop :=
  ∀ (s : State) (ctx task t : Nat) (r : Rec) (lvl x y : Nat),
    let d := descFor s ctx task t (recBase r)
    let w := walkLod s ctx task t r lvl x y
    let now := descAt s ctx (recBase r)
    let changed (k : Task) (sp : Space) (a : Nat) : Prop := taskOf s task = some k ∧ translate s ctx (recBase r) false = .ok (sp, a) ∧
      leasesLod k.tr (recBase r) = true ∧ k.born < lastStore s.hist s.hist.length (.bytes sp a 128)
    let res (l : Nat) : Bool :=
      let c := atLevel d (min lvl (descFloor d)) l x y
      mapBit s ctx d (levelOf d l) (pageIn d (levelOf d l) c.1 c.2)
    w.want = max (min lvl (descFloor d)) (min (recLclamp r) (descFloor d)) ∧ w.want ≤ w.level ∧ w.level ≤ descFloor d ∧
    (∀ l, w.want ≤ l → l < w.level → res l = false) ∧ (w.level < descFloor d → res w.level = true) ∧
    w.status = (if res w.level then min (w.level - w.want) 14 else 15) ∧
    (w.x, w.y) = atLevel d (min lvl (descFloor d)) w.level x y ∧ w.addr = elemAddr d (levelOf d w.level) w.x w.y ∧
    ((¬ ∃ k sp a, changed k sp a) → d = now) ∧
    (∀ k sp a, changed k sp a → ∀ f ∈ descFields, ∃ m, k.born ≤ m ∧ m ≤ s.hist.length ∧
      bits d f.1 f.2 = bits (leVal (bytesAsOf s sp a 128 m)) f.1 f.2)

/-- LLD and LODQ complete for every record that passes the record check (R211-R213): each active thread receives the served
element, zero where nothing is resident or the block is poisoned, and the walk's status word; a fallback leaves a feedback
entry while the ring is enabled (R202). That a resident page which is not mapped reads as zero is the model's choice (log 40). -/
def Obligations.LodReads : Prop :=
  ∀ (h : Hdr) (lvl : Option Nat) (vd ba : Nat) (b : Opnd) (s : State) (id : Nat) (q : Squad) (p : Path),
    recCheck (rdB q ba) [1] [0] = none → runs p h q ≠ 0 →
    (∀ sz, Issues s id q p h 3 →
      let s1 := issued s id q p h 3 (.per 1)
      let ctx := ctxId s q
      let w (u : Nat) : Walk := threadWalk s1 (seen id q p h) (rdB q ba) lvl b u
      let pois (u : Nat) : Bool := (w u).status != 15 && lodPoison s1 ctx (w u).addr
      let evs := (threadsOf (runs p h q)).flatMap fun u => walkEvs s1 ctx (whoSquad s id q u) (rdB q ba) (w u)
      let walked : State := { s with hist := s.hist ++ evs }
      let may (m : Space → Nat → Nat → Nat) (u x : Nat) : Prop :=
        if (w u).status = 15 ∨ pois u = true then x = 0
        else match translate s1 ctx (w u).addr false with
          | .ok pl => MayLoad walked id q .L (lodBytesOf sz) m ⟨u, (w u).addr, pl.1, pl.2⟩ x
          | .error _ => x = 0
      (∀ u, u < 32 → bitM (runs p h q) u = true → 2 ^ (w u).esize = lodBytesOf sz) →
      Owes (.lld h sz lvl vd ba b) s id q p h
        (fun s t => OnlyHere { s with ctxs := t.ctxs } t ∧
          let fb := if fbRing s ctx = none then []
            else combineFb ((threadsOf (runs p h q)).flatMap fun u => walkFb s1 (w u) 0)
          ctxOf t ctx = { ctxOf s ctx with feedback := (ctxOf s ctx).feedback ++ fb })
        fun q' => (∃ (m : Space → Nat → Nat → Nat) (elem : Nat → Nat),
            (∀ u, u < 32 → bitM (runs p h q) u = true → may m u (elem u)) ∧
            GetsV vd (lodRegs sz + 1) (runs p h q) q q'
              (fun u => ((elem u + 2 ^ (32 * lodRegs sz) * walkWord (w u) (pois u) : Nat) : Int))) ∧
          SameRegs { q with v := q'.v } q') ∧
    (Issues s id q p h 2 →
      Owes (.lodq h lvl vd ba b) s id q p h OnlyHere fun q' =>
        GetsV vd 1 (runs p h q) q q'
          (fun u => walkWord (threadWalk (issued s id q p h 2 (.per 1)) (seen id q p h) (rdB q ba) lvl b u) false) ∧
        SameRegs { q with v := q'.v } q')

/-- FBPUT leaves one feedback entry for each distinct request while the ring is enabled (R202), RMAP.BUMP counts the context's epoch, RMAP.SET and .CLR set
or clear exactly the residency bits that the active threads name (R204, R210, R214-R216). -/
def Obligations.ResidencyAndFeedback : Prop :=
  ∀ (h : Hdr) (s : State) (id : Nat) (q : Squad) (p : Path), Issues s id q p h 2 → runs p h q ≠ 0 →
    let ctx := ctxId s q
    let only (s t : State) : Prop := OnlyAnd (fun a t => { a with ctxs := t.ctxs }) s t
    (∀ a b,
      let fb := if fbRing s ctx = none then [] else combineFb ((threadsOf (runs p h q)).map fun u =>
        let k := raw .u32 q a u
        ⟨raw .u32 q b u % 2 ^ 24, k % 65536, k / 65536 % 16, k / 65536 % 16, 2, s.time⟩)
      Does (.fbput h a b) s id q p h fun t => only s t ∧
        ctxOf t ctx = { ctxOf s ctx with feedback := (ctxOf s ctx).feedback ++ fb }) ∧
    (Does (.rmapBump h) s id q p h fun t => only s t ∧ ctxOf t ctx = { ctxOf s ctx with epoch := (ctxOf s ctx).epoch + 1 }) ∧
    (∀ (i : Instr) (v : Bool) (ba : Nat) (b : Opnd) (pl : Nat → Space × Nat),
      (i = .rmapSet h ba b ∧ v = true) ∨ (i = .rmapClr h ba b ∧ v = false) → recCheck (rdB q ba) [1] [0] = none →
      let s1 := issued s id q p h 2 (.per 1)
      let d := descAt s1 ctx (recBase (rdB q ba))
      let lv (u : Nat) : Nat := raw .u32 q b u / 2 ^ 24 % 16
      let bit (u : Nat) : Nat := (levelOf d (lv u)).pgoff + raw .u32 q b u % 2 ^ 24
      (∀ u, u < 32 → bitM (runs p h q) u = true → lv u ≤ descFloor d ∧ raw .u32 q b u % 2 ^ 24 < levelPn d (levelOf d (lv u)) ∧
        translate s1 ctx (mapByteVa d (bit u)) true = .ok (pl u) ∧ spaceDown s (pl u).1 = false) →
      Does i s id q p h fun t => OnlyStores s t ∧ SameTags s t ∧
        (∀ u, u < 32 → bitM (runs p h q) u = true → (rdByte t (pl u).1 (pl u).2).getLsbD (bit u % 8) = v) ∧
        ∀ sq a j, j < 8 → (∀ u, u < 32 → bitM (runs p h q) u = true → ¬ (samePlace (pl u).1 (pl u).2 sq a ∧ bit u % 8 = j)) →
          (rdByte t sq a).getLsbD j = (rdByte s sq a).getLsbD j)

/-! ### Synchronisation -/

/-- Atomics (R217-R220): the threads' read-modify-writes happen one after another in ascending order, each on the element as
the ones before left it; ATOM and CAS return what each found. On the replay of a parked fault (R383, R414) the threads that
performed theirs before it do not perform it again, and return what they found then. -/
def Sys2Proof.Machine.AtomicUpdatesRule : Prop :=
  ∀ (i : Instr) (h : Hdr) (fp : Bool) (k : Nat) (gives : Bool) (ba : Nat) (b : Opnd) (vd : Nat) (f : Nat → Nat → Nat → Option Nat)
    (ts : List Tgt) (s : State) (id : Nat) (q : Squad) (p : Path),
    rmwOf q i = some (h, fp, k, gives, ba, b, vd, f) → Issues s id q p h 3 → runs p h q ≠ 0 →
    let r := rdB q ba
    let e := recE r
    recCheck r [0] [0, 1] = none → recEsize r = 2 ∨ (recEsize r = 3 ∧ fp = false) → vd % (k * (e / 4)) = 0 →
    vd + k * (e / 4) ≤ 8 * (trOf s q).regs →
    plan (issued s id q p h 3 (.per 1)) (seen id q p h) r ⟨[0], [0, 1], e, true, targetCore q r, true⟩
      (fun u => recAddr r e (raw .u32 q b u)) = .ok ts → reachable s ts → unpoisoned s ts e →
    let done := performed q p
    let after' := (ts.filter fun g => !done.any fun d => d.1 == g.t).foldl (rmwStep e (f (8 * e))) (s, done)
    ∃ t q', exec i s = .next t ∧ Went s t id q q' p h ∧ OnlyStores s t ∧ SameTags s t ∧ SameSquad q q' ∧ SameRegs q q' ∧
      (∀ sp a, rdByte t sp a = rdByte after'.1 sp a) ∧
      (if gives then
        GetsV vd (e / 4) (runs p h q) q (landed q')
          (fun u => match after'.2.find? fun x => x.1 == u with | some x => (x.2 : Int) | none => 0) ∧
        SameRegs { q with v := (landed q').v } (landed q')
       else q'.pend = [])

/-- The register rule of D that no word shows (R39, R218, R220): an atomic that breaks it is ILL 5 or 6, with threads or without. -/
def Sys2Proof.Machine.AtomicRegistersRule : Prop :=
  ∀ (i : Instr) (h : Hdr) (fp : Bool) (k : Nat) (gives : Bool) (ba : Nat) (b : Opnd) (vd : Nat) (f : Nat → Nat → Nat → Option Nat)
    (s : State) (id : Nat) (q : Squad) (p : Path),
    rmwOf q i = some (h, fp, k, gives, ba, b, vd, f) → Issues s id q p h 3 →
    let w := recE (rdB q ba) / 4
    runs p h q = 0 ∨ (recCheck (rdB q ba) [0] [0, 1] = none ∧ (recEsize (rdB q ba) = 2 ∨ fp = false)) →
    recEsize (rdB q ba) = 2 ∨ recEsize (rdB q ba) = 3 →
    (vd % (k * w) ≠ 0 → Raises i s id q p (mkFault 1 5 (runs p h q) p)) ∧
    (vd % (k * w) = 0 → 8 * (trOf s q).regs < vd + k * w → Raises i s id q p (mkFault 1 6 (runs p h q) p))

/-- What atomics do, and the one ILL that they find at issue. -/
def Obligations.AtomicResults : Prop := AtomicUpdatesRule ∧ AtomicRegistersRule

/-- Fences change no byte and no register; the ordering record takes one entry for each active thread (R223-R225). -/
def Sys2Proof.Machine.FencesOnlyOrderRule : Prop :=
  ∀ (h : Hdr) (s : State) (id : Nat) (q : Squad) (p : Path), Issues s id q p h 1 →
    let only (e : Nat → HEv) (t : State) : Prop :=
      t = { s with squads := t.squads, budgets := t.budgets, ctr := t.ctr, nextId := t.nextId,
                   hist := s.hist ++ (threadsOf (runs p h q)).map e, dcache := t.dcache, active := t.active }
    (∀ ord sc, Does (.fence h ord sc) s id q p h (only fun u => .fence (whoSquad s id q u) ord sc)) ∧
    (∀ sc m1 m2, Does (.fencex h sc m1 m2) s id q p h (only fun u => .fencex (whoSquad s id q u) sc m1 m2))

/-- What the record orders (R176-R178, R224, R239, R447); `hbBefore` computes happens-before: a store before a release that another thread's acquire reads from
happens before what that thread loads and stores later; FENCEX takes its thread's earlier accesses on M1, and those of an engine
command whose count its thread has acquired, to the accesses on M2 that follow it, the thread's own and those of engine commands
that its path issues later. -/
def Sys2Proof.Machine.RecordOrdersRule : Prop :=
  (∀ (h : List HEv) (i j : Nat), i ∈ hbBefore h j ↔ HappensBefore h i j) ∧
  ∀ (h : List HEv) (i j : Nat) (a b : Acc), accAt h i = some a → accAt h j = some b →
    (∀ r q x y sc sc', accAt h r = some x → accAt h q = some y → i < r → q < j →
      isThread a.who = true → isThread b.who = true → x.who.agent = a.who.agent → y.who.agent = b.who.agent →
      a.path = .T → x.path = .T → y.path = .T → b.path = .T → x.wr = true → x.rel = some sc → y.acq = some sc' →
      together sc x.who y.who = true → together sc' x.who y.who = true → readsFrom h r q = true → HappensBefore h i j) ∧
    (∀ f w sc m1 m2, h[f]? = some (.fencex w sc m1 m2) → f < j → sc = .pkg ∨ sc = .pod ∨ sc = .sys →
      m1.testBit (pathBit a.path) = true → m2.testBit (pathBit b.path) = true →
      b.who.agent = w.agent ∨ issuedAfter h f j w b.who.cmd = true →
      (a.who.agent = w.agent → i < f → HappensBefore h i j) ∧
      (∀ r q u m sc' ks, relCovers h i r = true → keySync h r q = true → h[q]? = some (.acquire u m sc' ks) → q < f →
        u.agent = w.agent → HappensBefore h i j))

/-- Hints, write-backs and fences change no value; what fences, releases and acquires order. -/
def Obligations.HintsAndFences : Prop := HintsChangeNothingRule ∧ FencesOnlyOrderRule ∧ RecordOrdersRule

/-- BAR.ARM (R227, R228): an object that is not armed, with good parameters and no parent, takes COUNT and LEVEL, no arrival
and the arming squad's instance, and keeps its phase; armed alike already, nothing happens; armed otherwise is BAR 2, bad
parameters are BAR 5. -/
def Sys2Proof.Machine.BarrierArmsRule : Prop :=
  ∀ (h : Hdr) (sc : Scope) (ba sd n : Nat) (l : AwLoc) (s : State) (id : Nat) (q : Squad) (p : Path),
    Issues s id q p h 1 → runs p h q ≠ 0 →
    locate (issued s id q p h 1 (.once 1)) (seen id q p h) (rdB q ba) 32 [0, 1] true true false = .ok l → spaceDown s l.sp = false →
    areaOf s l = none →
    let i := Instr.barArm h sc ba sd (.imm n)
    let c := (rdS q sd).toNat % 65536
    let pc := (rdS q sd).toNat / 65536 % 65536
    let old := barWord s l
    (1 ≤ c → pc = 0 → levelFits q l (scopeNo sc) →
      (barState old ≠ 1 → barState old ≠ 2 → Does i s id q p h fun t => OnlySync s t ∧ BytesBut s t l.sp l.addr 32 ∧
        let w := barWord t l
        barCount w = c ∧ barPcount w = 0 ∧ barPvalid w = false ∧ barArrived w = 0 ∧ barPhase w = barPhase old ∧
        barLevel w = scopeNo sc ∧ barState w = 1 ∧ barDev t l = ⟨instOf q (scopeNo sc), none, [], [], []⟩) ∧
      (barState old = 1 → barPvalid old = false → bits old 254 247 = 0 → bits old 243 192 = 0 → barCount old = c →
        barPcount old = 0 → barLevel old = scopeNo sc → Does i s id q p h (OnlySquads s)) ∧
      (barState old = 1 ∨ barState old = 2 → barCount old ≠ c ∨ barLevel old ≠ scopeNo sc ∨ barState old = 2 →
        Raises i s id q p (mkFault 0x0D 2 (runs p h q) p))) ∧
    (c = 0 ∨ pc ≠ 0 ∨ ¬ levelFits q l (scopeNo sc) → Raises i s id q p (mkFault 0x0D 5 (runs p h q) p))

/-- BAR.ARV (R230): the arrival is under way with its count, and the token is outstanding, a release of the path's accesses. -/
def Sys2Proof.Machine.BarrierArrivalIsSentRule : Prop :=
  ∀ (h : Hdr) (ba sd : Nat) (b : Opnd) (l : AwLoc) (s : State) (id : Nat) (q : Squad) (p : Path),
    runs p h q ≠ 0 → spaceDown s l.sp = false →
    (Issues s id q p h 1 →
      locate (issued s id q p h 1 (.once 1)) (seen id q p h) (rdB q ba) 32 [0, 1] true true true = .ok l →
      ∃ t q' n, exec (.barArv h sd ba b) s = .next t ∧ Went s t id q q' p h ∧ OnlySync s t ∧ SameBytes s t ∧ SameSquad q q' ∧
        SameRegs q q' ∧ q'.pend = [⟨n, false, [.s sd 0], none⟩] ∧
        ∃ a, t.arrivals = s.arrivals ++ [⟨a, id, q.core, q.lane, q.idx, q.task, p.entry, p.pc, runs p h q, some n, l, rdScal q b, none⟩]) ∧
    (Issues s id q p h 1 →
      locate (issued s id q p h 1 (.once 1)) (seen id q p h) (rdB q ba) 32 [0, 1] true true true = .ok l →
      Waits (.barSync h ba b) s id q (.barArrive 0) fun t => OnlySync s t ∧ SameBytes s t ∧
        ∃ a, t.arrivals = s.arrivals ++ [⟨a, id, q.core, q.lane, q.idx, q.task, p.entry, p.pc, runs p h q, none, l, rdScal q b, none⟩])

/-- A barrier is armed; an arrival is sent. -/
def Obligations.BarrierArmsAndArrivals : Prop := BarrierArmsRule ∧ BarrierArrivalIsSentRule

/-- BAR.WAIT answers a next state with the path gone on once the phase has passed its token, waits before that, and raises
BAR 3 for a token ahead of the phase and BAR 7 for a broken object; BAR.SYNC that has its token does the same (R230, R233). -/
def Obligations.BarrierWaitsForPhase : Prop :=
  ∀ (h : Hdr) (ba : Nat) (b : Opnd) (l : AwLoc) (s : State) (id : Nat) (q : Squad) (p : Path),
    runs p h q ≠ 0 → spaceDown s l.sp = false →
    let w := barWord s l
    let ahead (a c : Nat) : Prop := 1 ≤ (BitVec.ofNat 32 a - BitVec.ofNat 32 c).toNat ∧ (BitVec.ofNat 32 a - BitVec.ofNat 32 c).toNat < 2 ^ 31
    (Issues s id q p h 0 →
      locate (issued s id q p h 0 (.once 1)) (seen id q p h) (rdB q ba) 32 [0, 1] false false false = .ok l →
      let tok := rdScal q b
      (barState w = 3 → Raises (.barWait h ba b) s id q p (mkFault 0x0D 7 (runs p h q) p)) ∧
      (barState w ≠ 3 → ahead tok (barPhase w) → Raises (.barWait h ba b) s id q p (mkFault 0x0D 3 (runs p h q) p)) ∧
      (barState w ≠ 3 → ahead (barPhase w) tok → ∃ t q', Sys2Proof.Machine.exec (.barWait h ba b) s = Host.Outcome.next t ∧
        Went s t id q q' p h ∧ SameSquad q q' ∧ SameRegs q q' ∧ q'.pend = [] ∧ OnlyHere s t) ∧
      (barState w ≠ 3 → ¬ ahead tok (barPhase w) → ¬ ahead (barPhase w) tok →
        Waits (.barWait h ba b) s id q (.bar (BitVec.ofNat 32 tok)) (OnlySquads s))) ∧
    (∀ tok : W32, Resumes s id q p (.bar tok) →
      locate (tickCtr s) (seenAgain id q p h (.bar tok)) (rdB q ba) 32 [0, 1] true true true = .ok l →
      (barState w = 3 → Raises (.barSync h ba b) s id q p (mkFault 0x0D 7 (runs p h q) p)) ∧
      (barState w ≠ 3 → ahead tok.toNat (barPhase w) → Raises (.barSync h ba b) s id q p (mkFault 0x0D 3 (runs p h q) p)) ∧
      (barState w ≠ 3 → ahead (barPhase w) tok.toNat → Does (.barSync h ba b) s id q p h fun t => OnlyHere s t) ∧
      (barState w ≠ 3 → ¬ ahead tok.toNat (barPhase w) → ¬ ahead (barPhase w) tok.toNat →
        Waits (.barSync h ba b) s id q (.bar tok) (OnlySquads s)))

/-- AW.SET writes target and zero counts; AW.WAIT goes on when the word has a fault or its generation has passed the operand
(R235, R237, R238). -/
def Obligations.ArrivalWords : Prop :=
  ∀ (h : Hdr) (sc : Scope) (ba : Nat) (b : Opnd) (l : AwLoc) (s : State) (id : Nat) (q : Squad) (p : Path),
    runs p h q ≠ 0 → spaceDown s l.sp = false → areaOf s l = none →
    (Issues s id q p h 1 →
      locate (issued s id q p h 1 (.once 1)) (seen id q p h) (rdB q ba) 16 [0, 1] true true false = .ok l →
      Does (.awSet h ba b) s id q p h fun t => OnlyStores s t ∧ SameTags s t ∧ BytesBut s t l.sp l.addr 16 ∧
        let w := awWord t l
        bits w 31 0 = rdScal q b % 2 ^ 32 ∧ bits w 63 32 = 0 ∧ awGen w = rdScal q b / 2 ^ 32 % 2 ^ 32 ∧ bits w 127 96 = 0) ∧
    (Issues s id q p h 0 →
      locate (issued s id q p h 0 (.once 1)) (seen id q p h) (rdB q ba) 16 [0, 1] false false false = .ok l →
      let gone : Prop := awFault (awWord s l) ≠ 0 ∨ passed (awGen (awWord s l)) (rdScal q b) = true
      (gone → Does (.awWait h sc ba b) s id q p h fun t => OnlyHere s t) ∧
      (¬ gone → Waits (.awWait h sc ba b) s id q .aw (OnlySquads s)))

/-- Q.INIT writes a header with its credits, no element, its owner and zeros in every other field, and the device holds the
queue; Q.CLOSE sets CLOSED alone (R240-R245). -/
def Sys2Proof.Machine.QueueHeadersRule : Prop :=
  ∀ (h : Hdr) (sc : Scope) (ba : Nat) (b : Opnd) (l : AwLoc) (s : State) (id : Nat) (q : Squad) (p : Path),
    Issues s id q p h 1 → runs p h q ≠ 0 → spaceDown s l.sp = false →
    let s1 := issued s id q p h 1 (.once 1)
    let v := rdScal q b
    let n := v % 16
    let cr := if v / 16 % 2048 = 0 then 2 ^ n else v / 16 % 2048
    let fits : Prop := footprintOk s (ctxId s q) (targetCore q (rdB q ba)) l.addr (64 + 4 * 2 ^ n) = true
    let i := Instr.qInit h sc ba b
    (locateQ s1 (seen id q p h) ba false = .ok l →
      (n > 10 ∨ cr > 2 ^ n → Raises i s id q p (mkFault 0x0E 4 (runs p h q) p)) ∧
      (n ≤ 10 → cr ≤ 2 ^ n → fits →
        (targetCore q (rdB q ba) ≠ q.core → Raises i s id q p (mkFault 0x0E 2 (runs p h q) p)) ∧
        (targetCore q (rdB q ba) = q.core → qLists s l ≠ ([], []) → Raises i s id q p (mkFault 0x0E 5 (runs p h q) p)) ∧
        (targetCore q (rdB q ba) = q.core → qLists s l = ([], []) →
          Does i s id q p h fun t => OnlySync s t ∧ BytesBut s t l.sp l.addr 64 ∧ queueAt t l = some ⟨n, q.core, sc, false⟩ ∧
            let w := qWord t l
            bits w 511 320 = 0 ∧ bits w 319 288 = cr ∧ bits w 287 256 = 0 ∧ bits w 255 224 = 0 ∧ bits w 223 213 = cr ∧
            bits w 212 41 = 0 ∧ bits w 40 40 = 0 ∧ bits w 39 32 = 0x51 ∧ bits w 31 24 = 0 ∧ bits w 23 21 = scopeNo sc ∧
            bits w 20 14 = q.core % 128 ∧ bits w 13 4 = 0 ∧ bits w 3 0 = n))) ∧
    (locateQ s1 (seen id q p h) ba true = .ok l →
      (queueAt s l = none → Raises (.qClose h ba) s id q p (mkFault 0x0E 1 (runs p h q) p)) ∧
      (∀ k, queueAt s l = some k → Does (.qClose h ba) s id q p h fun t => OnlySync s t ∧ BytesBut s t l.sp l.addr 64 ∧
        queueAt t l = some { k with closed := true } ∧
        let w := qWord t l
        let o := qWord s l
        bits w 40 40 = 1 ∧ bits w 511 41 = bits o 511 41 ∧ bits w 39 0 = bits o 39 0))

/-- Q.PUSH takes a credit and stores its element behind the last one, or blocks; Q.POP gives the oldest element and returns a
credit, answers false on an empty closed queue, or blocks (R241-R244). An object that is no queue is QUEUE 1, a push to a closed
queue QUEUE 3, a pop from another core QUEUE 2, an element outside the footprint ACCESS 8 (R171). -/
def Sys2Proof.Machine.QueueTransfersRule : Prop :=
  ∀ (h : Hdr) (ba : Nat) (l : AwLoc) (s : State) (id : Nat) (q : Squad) (p : Path),
    Issues s id q p h 2 → runs p h q ≠ 0 → spaceDown s l.sp = false →
    let s1 := issued s id q p h 2 (.once 1)
    let o := qWord s l
    let fails (i : Instr) (code sub : Nat) : Prop := Raises i s id q p (mkFault code sub (runs p h q) p)
    let elem (k : QueueDev) (n : Nat) : Nat := l.addr + 64 + 4 * (n % 2 ^ k.log2n)
    let there (k : QueueDev) (n : Nat) : Prop := footprintOk s (ctxId s q) k.owner (elem k n) 4 = true
    (queueAt s l = none →
      (locateQ s1 (seen id q p h) ba true = .ok l → ∀ b, fails (.qPush h ba b) 0x0E 1) ∧
      (locateQ s1 (seen id q p h) ba false = .ok l → ∀ px d, fails (.qPop h px d ba) 0x0E 1)) ∧
    ∀ k, queueAt s l = some k →
    (locateQ s1 (seen id q p h) ba true = .ok l → ∀ b,
      (k.closed = true → fails (.qPush h ba b) 0x0E 3) ∧
      (k.closed = false → qAllow o ≠ 0 → (qLists s l).1 = [] →
        (¬ there k (qPushed o) → fails (.qPush h ba b) 0x07 8) ∧
        (there k (qPushed o) → Does (.qPush h ba b) s id q p h fun t => OnlySync s t ∧ QueueBut s t l (elem k (qPushed o)) ∧
          queueAt t l = some k ∧ rdN t l.sp (elem k (qPushed o)) 4 = raw .u32 q b (lowestD (runs p h q)) % 2 ^ 32 ∧
          let w := qWord t l
          qPushed w = (qPushed o + 1) % 2 ^ 32 ∧ qAllow w = qAllow o - 1 ∧ bits w 511 320 = bits o 511 320 ∧
            bits w 255 0 = bits o 255 0)) ∧
      (k.closed = false → qAllow o = 0 → (qLists s l).1 = [] →
        Waits (.qPush h ba b) s id q .qPush fun t => OnlySync s t ∧ SameBytes s t ∧ qLists t l = ([id], (qLists s l).2))) ∧
    (locateQ s1 (seen id q p h) ba false = .ok l → ∀ px d,
      (k.owner ≠ q.core → fails (.qPop h px d ba) 0x0E 2) ∧
      (k.owner = q.core → (qLists s l).2 = [] →
        (qPushed o ≠ qPopped o → ¬ there k (qPopped o) → fails (.qPop h px d ba) 0x07 8) ∧
        (qPushed o ≠ qPopped o → there k (qPopped o) → ∃ t q', exec (.qPop h px d ba) s = .next t ∧ Went s t id q q' p h ∧
          OnlySync s t ∧ SameRegs q q' ∧
          (let v := rdN s l.sp (elem k (qPopped o)) 4
           Gets .u32 d (runs p h q) q (landed q') (fun _ => v)) ∧ GetsP px (runs p h q) q (landed q') (fun _ => true) ∧
          BytesBut s t l.sp l.addr 64 ∧ queueAt t l = some k ∧
          let w := qWord t l
          qPopped w = (qPopped o + 1) % 2 ^ 32 ∧ qAllow w = (qAllow o + 1) % 2 ^ 32 ∧ bits w 511 320 = bits o 511 320 ∧
            bits w 287 256 = bits o 287 256 ∧ bits w 223 0 = bits o 223 0) ∧
        (qPushed o = qPopped o → k.closed = true → ∃ t q', exec (.qPop h px d ba) s = .next t ∧ Went s t id q q' p h ∧
          OnlySync s t ∧ SameBytes s t ∧ SameRegs q q' ∧ GetsP px (runs p h q) q (landed q') (fun _ => false) ∧
          SameRegs { q with p := (landed q').p } (landed q')) ∧
        (qPushed o = qPopped o → k.closed = false → Waits (.qPop h px d ba) s id q .qPop fun t => OnlySync s t ∧ SameBytes s t ∧
          qLists t l = ((qLists s l).1, [id]))))

/-- Queues: their header, a push, a pop. -/
def Obligations.QueueOperations : Prop := QueueHeadersRule ∧ QueueTransfersRule

/-! ### Engines -/

/-- Copy instructions (R247-R262): the checks in order, each fault delivered; a command that passes joins its engine's inbox as
asked, and the squad is held until it is accepted; an empty one completes and counts nothing. OVL.LD first needs its bank. -/
def Sys2Proof.Machine.CopyCommandsQueueRule : Prop :=
  ∀ (i : Instr) (h : Hdr) (cls : Nat) (r : CopyReq) (s : State) (id : Nat) (q : Squad) (p : Path),
    copyOfInstr q i = some (h, cls, r) → Issues s id q p h cls → runs p h q ≠ 0 →
    let s1 := issued s id q p h cls (.once 1)
    let x := seen id q p h
    let held : Prop := r.major = 0x95 → (bankOf s q.core (r.xf == 1)).holders = [q.task]
    let fails (e : Err) : Prop := Raises i s id q p (mkFault e.1 e.2 (runs p h q) p)
    (¬ held → fails (0x07, 0x01)) ∧
    (held → ∀ e, copyRows s1 x r = some e → fails e) ∧
    (held → copyRows s1 x r = none → ∀ f, copyAw s1 x r.cword.toNat = .error f → f.park = false → Raises i s id q p f) ∧
    (held → copyRows s1 x r = none → ∀ aw, copyAw s1 x r.cword.toNat = .ok aw →
      (∀ e, copyLate s1 x r = some e → fails e) ∧
      (copyLate s1 x r = none → spaceDown s aw.sp = false →
        (copyEmpty r = false → ∃ t q' c, exec i s = .next t ∧ Held s t id q q' p h (.accept c.id) ∧ SameSquad q q' ∧ SameRegs q q' ∧
          OnlyAnd (fun a t => { a with copies := s.copies ++ [c], banks := t.banks }) s t ∧
          t.banks = (if r.major = 0x95 then aput s.banks (q.core * 2 + r.xf)
            { bankOf s q.core (r.xf == 1) with loading := (bankOf s q.core (r.xf == 1)).loading ++ [c.id] } else s.banks) ∧
          c.phase = .inbox ∧ c.die = q.core / 128 ∧ c.eng = q.core % 2 ∧ c.core = q.core ∧ c.task = q.task ∧ c.node = none ∧
          c.ctx = ctxId s q ∧ c.squad = id ∧ c.pc = p.pc ∧
          (c.major, c.xf, c.drec, c.srec, c.irec, c.dslot, c.cword, c.param) =
            (r.major, r.xf, r.drec, r.srec, r.irec, r.dslot, r.cword, r.param) ∧
          c.aw = aw ∧ c.landed = [] ∧ c.cancelled = false ∧
          (∀ n, c.hold.contains n = true ↔ ∃ o k, r.dslot = some o ∧ k ∈ queueOf s q.core ∧ k.serial = n ∧ k.task = q.task ∧
            k.fetched = false ∧ ∃ z d a b, k.kind = .mma z d a b ∧ (a = o ∨ b = o))) ∧
        (copyEmpty r = true → Does i s id q p h fun t =>
          OnlyAnd (fun a t => { a with staged := t.staged }) s t ∧
          ∀ n, (aget t.staged n).map (·.cmd) = (aget s.staged n).map (·.cmd))))

/-- cpy.stat gives the bytes not yet counted and the commands at a word; cpy.cancel takes away what has not started, releases
the squads that wait for a queue, and writes nothing (R263); a bank whose load it takes away holds no overlay (R42). -/
def Sys2Proof.Machine.CopyStatusAndCancelRule : Prop :=
  ∀ (h : Hdr) (b : Opnd) (s : State) (id : Nat) (q : Squad) (p : Path), Issues s id q p h 1 → runs p h q ≠ 0 →
    let s1 := issued s id q p h 1 (.once 1)
    let word := rdScal q b
    let r := rdB q (word % 16)
    let name := (if recSpace r = 1 then q.core / 128 * 128 + recTarget r + 1 else 0, recBase r + 16 * (word / 16 % 65536))
    let hit (c : Copy) : Bool := c.task == q.task && c.node.isNone && c.awName == name
    (∀ sd, Owes (.cpyStat h sd b) s id q p h OnlySquads fun q' =>
      GetsS sd q q' (BitVec.ofNat 64
        (min (((s.copies.filter hit).map (uncounted s1)).sum) (2 ^ 32 - 1) + (s.copies.filter hit).length % 65536 * 2 ^ 32)) ∧
      SameRegs { q with s := q'.s } q') ∧
    ((s.copies.map (·.id)).Nodup → ∃ t q', exec (.cpyCancel h b) s = .next t ∧ squadOf t id = some q' ∧ q'.wait = none ∧
      q'.paths = (advance p.entry q).paths ∧ SameSquad q q' ∧ SameRegs q q' ∧
      OnlyAnd (fun a t => { a with copies := t.copies, banks := t.banks, imem := t.imem }) s t ∧
      t.copies = s.copies.filterMap (fun c => if hit c then afterCancel c else some c) ∧
      (let lost (c : Copy) : Prop := c ∈ s.copies ∧ hit c = true ∧ c.major = 0x95 ∧ c.phase ≠ .running ∧
         c.id ∈ (bankOf s c.core (c.xf % 2 == 1)).loading
       (∀ c, lost c → (bankOf t c.core (c.xf % 2 == 1)).valid = false ∧ c.id ∉ (bankOf t c.core (c.xf % 2 == 1)).loading) ∧
       ((¬ ∃ c, lost c) → t.banks = s.banks ∧ t.imem = s.imem)) ∧
      ∀ j k, j ≠ id → squadOf s j = some k → squadOf t j = some
        (if ∃ c ∈ s.copies, hit c = true ∧ c.phase ≠ .running ∧ c.squad = j ∧ k.wait = some (.accept c.id) then { k with wait := none }
         else k))

/-- The checks of R250 in table order (R248, R250, R253, R257-R260): the first row that fails gives the fault. -/
def Sys2Proof.Machine.CopyChecksRule : Prop :=
  ∀ (s : State) (x : Iss) (r : CopyReq),
    firstFailing (copyTable r (descAt s (ctxId s x.q) (fld r.srec 51 0) / 2 ^ 117 % 8) (rdB x.q (r.cword.toNat % 16))) (copyRows s x r) ∧
    firstFailing (copyLastRows s x.q r) (copyLate s x r)

/-- Copy and overlay commands, their checks, their status and their cancelling. That OVL.LD looks at its bank before the rows of R250
is the model's reading (log 47, DEDUCED). -/
def Obligations.CopyCommands : Prop := CopyCommandsQueueRule ∧ CopyChecksRule ∧ CopyStatusAndCancelRule

/-- Slots (R276, R282-R284): a claim takes the lowest free names, or exactly the mask, or nothing, and resets sidecar and
extents of what it takes; a free and new extents are noted with the readers queued at issue, a bad name or extent is a SLOT fault; the status
words. -/
def Obligations.SlotNames : Prop :=
  ∀ (h : Hdr) (s : State) (id : Nat) (q : Squad) (p : Path) (tk : Task), Issues s id q p h 1 → runs p h q ≠ 0 →
    taskOf s q.task = some tk →
    let free := (List.range tk.tr.slots).filter fun k => !tk.claimed.contains k
    let bit (m k : Nat) : Bool := m.testBit k
    let names (m : Nat) : List Nat := (List.range 64).filter (bit m)
    let key (c k : Nat) : Nat := c * 64 + k
    let claims (i : Instr) (sd : Nat) (ns : List Nat) : Prop :=
      Owes i s id q p h (fun s t =>
          OnlyAnd (fun a t => { a with tasks := t.tasks, sidecar := t.sidecar, ext := t.ext, slotWaits := t.slotWaits }) s t ∧
          (∀ j, taskOf t j = if j = q.task then some { tk with claimed := tk.claimed ++ ns } else taskOf s j) ∧
          ∀ c k, k < 64 → if ∃ n ∈ ns, key c k = key q.core (tk.slots.getD n 0)
            then extOf t c k = (64, 256) ∧ ∀ off, off < 2336 → rdSide t c k off = 0
            else extOf t c k = extOf s c k ∧ ∀ off, off < 2336 → rdSide t c k off = rdSide s c k off)
        fun q' => GetsS sd q q' (BitVec.ofNat 64 (ns.map (2 ^ ·)).sum) ∧ SameRegs { q with s := q'.s } q'
    let notes (i : Instr) (ws : List SlotWait) : Prop :=
      Does i s id q p h (OnlyAnd (fun a _ => { a with slotWaits := s.slotWaits ++ ws }) s)
    let readers (n : Nat) : List Nat := ((queueOf s q.core).filter fun c => !c.fetched && c.task == q.task &&
      (match c.kind with | .mma _ _ a b => a == n || b == n | _ => false)).map (·.serial)
    let fails (i : Instr) (sub : Nat) : Prop := Raises i s id q p (mkFault 0x0C sub (runs p h q) p)
    (∀ sd b, let k := rdScal q b
      claims (.slotClaim h sd b) sd (if 1 ≤ k ∧ k ≤ 64 ∧ k ≤ free.length then free.take k else [])) ∧
    (∀ sd b, let m := rdScal q b
      claims (.slotClaimAt h sd b) sd (if m ≠ 0 ∧ (names m).all free.contains = true then names m else [])) ∧
    (∀ b, let m := rdScal q b
      ((∀ n ∈ names m, n ∈ tk.claimed) → notes (.slotFree h b) ((names m).map fun n =>
        ⟨q.core, tk.slots.getD n 0, q.task, n, readers n, none⟩)) ∧
      (¬ (∀ n ∈ names m, n ∈ tk.claimed) → fails (.slotFree h b) 2)) ∧
    (∀ od b, let v := rdScal q b; let rows := v % 128; let kel := v / 256 % 512
      let good : Prop := 1 ≤ rows ∧ rows ≤ 64 ∧ 1 ≤ kel ∧ kel ≤ 256 ∧ v = rows + 256 * kel
      (od ∈ tk.claimed → good → notes (.slotInfoExt h od b) [⟨q.core, tk.slots.getD od 0, q.task, od, readers od, some (rows, kel)⟩]) ∧
      (od ∈ tk.claimed → ¬ good → fails (.slotInfoExt h od b) 7) ∧ (od ∉ tk.claimed → fails (.slotInfoExt h od b) 1)) ∧
    (∀ sd oa, Owes (.slotInfoGet h sd oa) s id q p h OnlySquads fun q' =>
      GetsS sd q q' (BitVec.ofNat 64 (slotWord s q tk oa)) ∧ SameRegs { q with s := q'.s } q') ∧
    (∀ sd aa,
      let writes (c : MCmd) : Bool := c.task == q.task && writesTile c.kind aa
      let busy : Bool := (queueOf s q.core ++ inboxOf s q.core).any writes || s.staged.any fun e => e.1 / 8 == q.core && writes e.2.cmd
      Owes (.slotInfoAcc h sd aa) s id q p h OnlySquads fun q' =>
        GetsS sd q q' (BitVec.ofNat 64 ((rdAccFlg s q.core (tk.tile0 + aa)).toNat + if busy then 32 else 0)) ∧
        SameRegs { q with s := q'.s } q')

/-- Matrix instructions (R279, R281-R294, R310): a command that is accepted stands in its core's inbox and holds the squad until
the queue has room; mm.stage leaves a staged command under its number; mm.wait goes on once no more than its number of the
squad's commands are incomplete. -/
def Obligations.MatrixCommandsQueue : Prop :=
  (∀ (i : Instr) (h : Hdr) (cls : Nat) (k : MKind) (good : Prop) (s : State) (id : Nat) (q : Squad) (p : Path),
    matrixOfInstr s q i = some (h, cls, k, good) → good → Issues s id q p h cls → runs p h q ≠ 0 →
    ∃ t q' c, exec i s = .next t ∧ Held s t id q q' p h (.accept c.serial) ∧ SameSquad q q' ∧ SameRegs q q' ∧
      OnlyAnd (fun a t => { a with matInbox := t.matInbox }) s t ∧ c.kind = k ∧ c.task = q.task ∧ c.ctx = ctxId s q ∧ c.squad = id ∧
      c.pc = p.pc ∧ c.fetched = false ∧ c.executed = false ∧ c.homes = [] ∧
      ∀ core, inboxOf t core = if core = q.core then inboxOf s core ++ [c] else inboxOf s core) ∧
  (∀ (h : Hdr) (n : Nat) (t2 z : Bool) (ad oa ob : Nat) (s : State) (id : Nat) (q : Squad) (p : Path), Issues s id q p h 7 →
    runs p h q ≠ 0 →
    let i := Instr.mmStage h n t2 z ad oa ob
    let claimed : Prop := claimedBy s q oa = true ∧ claimedBy s q ob = true
    ((aget s.staged (q.core * 8 + n)).isSome = true → Raises i s id q p (mkFault 0x0C 6 (runs p h q) p)) ∧
    ((aget s.staged (q.core * 8 + n)).isSome = false → ¬ claimed → Raises i s id q p (mkFault 0x0C 3 (runs p h q) p)) ∧
    ((aget s.staged (q.core * 8 + n)).isSome = false → claimed → Does i s id q p h fun t =>
      OnlyAnd (fun a t => { a with staged := t.staged }) s t ∧
      (∀ m, m ≠ q.core * 8 + n → aget t.staged m = aget s.staged m) ∧
      ∃ c, aget t.staged (q.core * 8 + n) = some ⟨c, if t2 then 2 else 1⟩ ∧ c.kind = .mma z ad oa ob ∧ c.task = q.task ∧
        c.squad = id ∧ c.fetched = false ∧ c.executed = false)) ∧
  (∀ (h : Hdr) (z : Bool) (ad oa ob : Nat) (s : State) (id : Nat) (q : Squad) (p : Path), Issues s id q p h 7 → runs p h q ≠ 0 →
    ¬ (claimedBy s q oa = true ∧ claimedBy s q ob = true) →
    Raises (.mma h z ad oa ob) s id q p (mkFault 0x0C 3 (runs p h q) p)) ∧
  (∀ (h : Hdr) (b : Opnd) (s : State) (id : Nat) (q : Squad) (p : Path), Issues s id q p h 0 → runs p h q ≠ 0 →
    let mine (c : MCmd) : Bool := c.squad == id
    let open' := ((queueOf s q.core ++ inboxOf s q.core).filter mine).length +
      (s.staged.filter fun e => e.1 / 8 == q.core && mine e.2.cmd).length
    (open' ≤ rdScal q b → Does (.mmWait h b) s id q p h (OnlyHere s)) ∧
    (rdScal q b < open' → Waits (.mmWait h b) s id q (.mmWait (rdScal q b)) (OnlySquads s)))

/-! ### The light field and frames -/

/-- LF.SETUP (R321, R322, R333): the record holds the vertices, exchanged where the area is negative, the control word with its
reason, and for a drawn primitive the rows and the nine coefficients, each the exact quotient rounded once; a culled one is zero
beyond. LF.SPAN (R334): the request is on its way and the squad
is held, as at a settle point, until the rasteriser takes it. -/
def Obligations.SetupAndSpan : Prop :=
  ∀ (h : Hdr) (s : State) (id : Nat) (q : Squad) (p : Path), Issues s id q p h 3 → runs p h q ≠ 0 →
    (∀ bd ba b,
      let w := rdScal q b
      let views := bandViews (trOf s q).band (w % 4)
      let cull := w / 4 % 4
      rasterRecord s q (rdB q ba) 48 16 false → rasterRecord s q (rdB q bd) 128 64 true → w < 16 → cull ≠ 3 → views ≠ 0 →
      Does (.lfSetup h bd ba b) s id q p h fun t =>
        let at' (k : Nat) : Nat := rdN s (.scr q.core) (recBase (rdB q ba) + 4 * k) 4
        let out (k : Nat) : Nat := rdN t (.scr q.core) (recBase (rdB q bd) + 4 * k) 4
        let int (x : Nat) : Int := (BitVec.ofNat 32 x).toInt
        let v (k : Nat) : Int × Int × Int := (int (at' (4 * k)), int (at' (4 * k + 1)), int (at' (4 * k + 2)))
        let reason := cullReason (v 0) (v 1) (v 2) cull
        let area := ((v 1).1 - (v 0).1) * ((v 2).2.1 - (v 0).2.1) - ((v 2).1 - (v 0).1) * ((v 1).2.1 - (v 0).2.1)
        let swap := reason = 0 ∧ area < 0
        let ylo := min (v 0).2.1 (min (v 1).2.1 (v 2).2.1)
        let yhi := max (v 0).2.1 (max (v 1).2.1 (v 2).2.1)
        let sw (a b : Int) : Int := if swap then b else a
        let x0 := (v 0).1; let y0 := (v 0).2.1; let d0 := (v 0).2.2
        let dx1 := sw (v 1).1 (v 2).1 - x0; let dy1 := sw (v 1).2.1 (v 2).2.1 - y0; let dd1 := sw (v 1).2.2 (v 2).2.2 - d0
        let dx2 := sw (v 2).1 (v 1).1 - x0; let dy2 := sw (v 2).2.1 (v 1).2.1 - y0; let dd2 := sw (v 2).2.2 (v 1).2.2 - d0
        let na := dd1 * dy2 - dd2 * dy1
        let nb := dx1 * dd2 - dx2 * dd1
        let coef (k : Nat) (num den : Int) : Prop := Nearest32 ((num : ℝ) / (den * |area| : Int)) (out k)
        OnlyAnd (fun a t => { a with scr := t.scr, zown := t.zown, tasks := t.tasks }) s t ∧
        BytesBut s t (.scr q.core) (recBase (rdB q bd)) 128 ∧
        (∀ k, k < 3 → out k = at' k ∧ out (3 + k) = at' (if swap then 8 + k else 4 + k) ∧
          out (6 + k) = at' (if swap then 4 + k else 8 + k)) ∧
        out 9 = (views - 1) * 256 + reason * 16 + (if swap then 4 else 0) + w % 4 ∧
        (reason ≠ 0 → ∀ k, 10 ≤ k → k < 32 → out k = 0) ∧
        (reason = 0 → int (out 10) = -((128 - ylo) / 256) ∧ int (out 11) = (yhi - 128) / 256 ∧
          coef 12 (2 * na) 1 ∧ coef 13 (2 * nb) 1 ∧ coef 14 (2 * d0 * |area| - 2 * na * x0 - 2 * nb * y0) 256 ∧
          coef 15 (256 * dy2) 1 ∧ coef 16 (-256 * dx2) 1 ∧ coef 17 (dx2 * y0 - dy2 * x0) 1 ∧
          coef 18 (-256 * dy1) 1 ∧ coef 19 (256 * dx1) 1 ∧ coef 20 (dy1 * x0 - dx1 * y0) 1 ∧
          ∀ k, 21 ≤ k → k < 32 → out k = 0) ∧
        ∀ k, taskOf t k = if k = q.task then (taskOf s k).map fun (a : Task) =>
          let n := if reason = 0 then 0 else 1
          { a with bin := tset 0 a.bin n (tget 0 a.bin n + 1) } else taskOf s k) ∧
    (∀ redo pm k vd ba sb,
      let w := (rdS q sb).toNat
      rasterRecord s q (rdB q ba) 128 64 true → w < 2 ^ 37 → w % 8 = 0 → (q.rasterRy = 1 → w / 2 ^ 16 % 2 = 0) →
      w / 2 ^ 32 % 8 + w / 2 ^ 35 % 4 + 1 ≤ (trOf s q).ntile →
      ∃ t q', exec (.lfSpan h redo pm k vd ba sb) s = .next t ∧ squadOf t id = some q' ∧ q'.wait = some .span ∧
        q'.settling = true ∧ q'.paths = (advance p.entry q).paths ∧ SameSquad q q' ∧ SameRegs q q' ∧
        (∀ j, j ≠ id → squadOf t j = squadOf s j) ∧
        ∃ n, OnlyAnd (fun a _ => { a with
          spans := s.spans ++ [⟨n, id, p.entry, p.pc, runs p h q, redo, pm, k, vd, recBase (rdB q ba), w⟩] }) s t)

/-- LF.ZTEST tests the samples of the threads' cells one after another, keeps the mask bits that pass and writes their depths
under .w (R327, R335). LF.WRITE and LF.VIS store a plane word into every sample of a cell, in thread order (R338). -/
def Obligations.SamplesAreTestedAndWritten : Prop :=
  ∀ (h : Hdr) (s : State) (id : Nat) (q : Squad) (p : Path), runs p h q ≠ 0 →
    let act := runs p h q
    let only (s t : State) : Prop := OnlyAnd (fun a t => { a with scr := t.scr, zown := t.zown, tasks := t.tasks }) s t
    let counted (k n : Nat) (t : State) : Prop := ∀ j, taskOf t j = if j = q.task then (taskOf s j).map fun (a : Task) =>
      { a with bin := tset 0 a.bin k (tget 0 a.bin k + n) } else taskOf s j
    (∀ ge w k vb, Issues s id q p h 3 → positionsFit s q act k vb →
      let tests := (threadsOf act).flatMap fun u => (cellSamples s q k vb 1 u).map fun g =>
        let o := posOf q vb u
        let x : Int := 2 * (o.x + g.1 % (q.rasterRx + 1) : Nat) + 1
        let y : Int := 2 * (o.y + g.1 / (q.rasterRx + 1) : Nat) + 1
        (u, g.1, g.2.1, g.2.2, disparity (latchOf q) x y (2 * (g.2.1 : Int) - ((primViews (latchOf q) : Int) - 1)))
      let after' := tests.foldl (depthStep ge w q) (s, [])
      ∃ t q', exec (.lfZtest h ge w k vb) s = .next t ∧ Went s t id q q' p h ∧ only s t ∧ SameSquad q q' ∧ SameRegs q q' ∧
        (∀ sp a, rdByte t sp a = rdByte after'.1 sp a) ∧ counted 4 after'.2.length t ∧
        (∀ r u, u < 32 → rdIm (landed q') r u =
          if bitM act u ∧ cellBase q k ≤ r ∧ r < cellBase q k + cellN q then
            BitVec.ofNat 64 (((after'.2.filter fun g => g.1 == u && g.2.1 == r - cellBase q k).map fun g => 2 ^ g.2.2).sum)
          else rdIm q r u) ∧
        SameRegs { q with im := (landed q').im } (landed q')) ∧
    (∀ i h' cls plane k vb count f, planeStore q i = some (h', cls, plane, k, vb, count, f) → h' = h → Issues s id q p h cls →
      positionsFit s q act k vb →
      let stores := (threadsOf act).flatMap fun u => (cellSamples s q k vb plane u).map fun g => (g.2.2, f u g.2.1)
      Does i s id q p h fun t => only s t ∧
        (∀ sp a, rdByte t sp a = rdByte (stores.foldl (fun a g => wrN a (.scr q.core) g.1 4 g.2) s) sp a) ∧
        if count then counted 6 stores.length t else t.tasks = s.tasks)

/-- LF.VSPLIT cuts the first piece out of a cell (R336), LF.INTERP interpolates an attribute (R337), LF.RATE sets the rates
(R339), LF.VIEWS reads the band word or a band's views (R340). -/
def Obligations.CellsAndRates : Prop :=
  ∀ (h : Hdr) (s : State) (id : Nat) (q : Squad) (p : Path), runs p h q ≠ 0 →
    let act := runs p h q
    (∀ gap pp vid via, Issues s id q p h 2 → q.rasterLv = true →
      let m (j u : Nat) : Nat := (rdIm q (cellBase q via + j) u).toNat
      let all (u : Nat) : Nat := unionMask q via u
      let last (u : Nat) : Nat := pieceEnd q gap (all u)
      let piece (j u : Nat) : Nat := if all u = 0 then 0 else m j u &&& (2 ^ (last u + 1) - 2 ^ botBit (all u))
      let rest (j u : Nat) : Nat := if all u = 0 then m j u else m j u &&& (2 ^ 64 - 2 ^ (last u + 1))
      Writes (.lfVsplit h gap pp vid via) s id q p h fun q' =>
        (∀ r u, u < 32 → rdIm q' r u =
          if bitM act u ∧ cellBase q vid ≤ r ∧ r < cellBase q vid + cellN q then BitVec.ofNat 64 (piece (r - cellBase q vid) u)
          else if bitM act u ∧ cellBase q via ≤ r ∧ r < cellBase q via + cellN q then BitVec.ofNat 64 (rest (r - cellBase q via) u)
          else rdIm q r u) ∧
        (∀ r u, u < 32 → rdVi q' r u =
          if bitM act u ∧ cellBase q vid ≤ r ∧ r < cellBase q vid + cellN q then
            BitVec.ofNat 32 (intervalOf (rdVi q (cellBase q via + (r - cellBase q vid)) u).toNat (piece (r - cellBase q vid) u))
          else if bitM act u ∧ cellBase q via ≤ r ∧ r < cellBase q via + cellN q ∧ all u ≠ 0 then
            BitVec.ofNat 32 (intervalOf (rdVi q r u).toNat (rest (r - cellBase q via) u))
          else rdVi q r u) ∧
        GetsP pp act q q' (fun u => decide (all u ≠ 0 ∧ all u &&& (2 ^ 64 - 2 ^ (last u + 1)) ≠ 0)) ∧
        q'.v = q.v ∧ q'.s = q.s ∧ q'.b = q.b ∧ q'.flg = q.flg) ∧
    (∀ k vd va vb, Issues s id q p h 2 → positionsFit s q act k vb →
      Owes (.lfInterp h k vd va vb) s id q p h OnlySquads fun q' =>
        GetsV vd 2 act q q' (fun u => ((interpolated q k va vb u).1 + 2 ^ 32 * (interpolated q k va vb u).2.1 : Nat)) ∧
        q'.flg = stuck (.v vd false false) act q.flg (fun u => (interpolated q k va vb u).2.2) ∧ SameRegs { q with v := q'.v, flg := q'.flg } q') ∧
    (∀ b, Issues s id q p h 1 → rdScal q b < 24 →
      ∃ t q', exec (.lfRate h b) s = .next t ∧ Went s t id q q' p h ∧ OnlySquads s t ∧ SameRegs q q' ∧
        SameSquad { q with rasterRx := rdScal q b % 2, rasterRy := rdScal q b / 2 % 2, rasterRvc := rdScal q b / 4 } q') ∧
    (∀ sd, Issues s id q p h 1 → Owes (.lfViews h sd) s id q p h OnlySquads fun q' =>
      GetsS sd q q' (trOf s q).band ∧ SameRegs { q with s := q'.s } q') ∧
    (∀ d band, (Instr.lfViewsV h d band).wf = true → Issues s id q p h 1 →
      Owes (.lfViewsV h d band) s id q p h OnlySquads fun q' =>
        Gets .u32 d act q q' (fun _ => bandViews (trOf s q).band band) ∧ q'.p = q.p ∧ q'.b = q.b ∧ q'.flg = q.flg)

/-- LF.REPRO and LF.RESOLVE queue a command once their records and words pass the checks of R347; the squad goes on, or is held
while the reprojection queue of its die holds 16 (R360). LF.PRESENT.ARM arms a frame
of a bound channel, .COMMIT and .SUB send an image, LF.STAT reads a count (R352-R354, R359). -/
def Obligations.FrameInstructions : Prop :=
  ∀ (h : Hdr) (s : State) (id : Nat) (q : Squad) (p : Path), runs p h q ≠ 0 →
    (∀ i cls repro sb tile other,
      (∃ bd ba, i = .lfRepro h bd ba sb ∧ cls = 4 ∧ repro = true ∧ tile = rdB q bd ∧ other = rdB q ba) ∨
        (∃ bd ba, i = .lfResolve h bd ba sb ∧ cls = 5 ∧ repro = false ∧ tile = rdB q ba ∧ other = rdB q bd) →
      Issues s id q p h cls →
      let w := (rdS q sb).toNat
      let c := (rdS q (sb + 1)).toNat
      let views := bandViews (trOf s q).band (w / 2 ^ 35 % 4)
      ∀ aw, firstErr (frameRecRows q.core repro tile other w c views ++ awRows (seen id q p h) (c % 2 ^ 20)) = none →
      copyAw (issued s id q p h cls (.once 1)) (seen id q p h) (c % 2 ^ 20) = .ok aw → spaceDown s aw.sp = false →
      let full : Prop := repro = true ∧ 16 ≤ (s.lfCmds.filter fun k => k.die == q.core / 128 && k.repro).length
      ∃ k : LfCmd,
        let queued (t : State) : Prop := OnlyAnd (fun a _ => { a with lfCmds := s.lfCmds ++ [k] }) s t
        (¬ full → Does i s id q p h queued) ∧
        (full → ∃ t q', exec i s = .next t ∧ Held s t id q q' p h (.accept k.id) ∧ SameSquad q q' ∧ SameRegs q q' ∧ queued t) ∧
        (k.squad = id ∧ k.sidx = q.idx ∧ k.pc = p.pc ∧ k.parked = none) ∧
        k.repro = repro ∧ k.die = q.core / 128 ∧ k.core = q.core ∧ k.task = q.task ∧ k.node = none ∧ k.ctx = ctxId s q ∧
        k.tileRec = tile ∧ k.other = other ∧ k.panel = rdB q (c / 2 ^ 20 % 16) ∧ k.word = rdS q sb ∧ k.views = views ∧ k.aw = aw) ∧
    (∀ sb, Issues s id q p h 2 →
      let c := (rdS q (sb + 1)).toNat
      let k := channelOf s (c % 64)
      let bnd : Prop := chEn k = true ∧ chCtx k = ctxId s q
      let only (f : Channel → Channel) (s t : State) : Prop :=
        OnlyAnd (fun a _ => { a with channels := aput s.channels (c % 64) (f k) }) s t
      (¬ bnd → Raises (.lfPresentArm h sb) s id q p (mkFault 0x07 0x10 (runs p h q) p)) ∧
      (bnd → c / 2 ^ 6 % 2 ^ 26 = 0 → (∀ l, k.lastArmed = some l → l < (rdS q sb).toNat) → k.armed.length < 4 →
        Does (.lfPresentArm h sb) s id q p h (only (fun k =>
          { k with armed := k.armed ++ [⟨c / 2 ^ 32, (rdS q sb).toNat, graphOf s q, none⟩], lastArmed := some (rdS q sb).toNat }) s)) ∧
      (∀ i isSub ba, (i = .lfPresentCommit h ba sb ∧ isSub = false) ∨ (i = .lfPresentSub h ba sb ∧ isSub = true) →
        let r := rdB q ba
        bnd → c / 2 ^ 6 % 2 ^ 26 = 0 → recKind r = 0 → recSpace r = 0 → rec2d r = true → recEsize r = 2 → recReserved r = false →
        recGeomBad r = false → chWidth k ≤ recExt0 r → chHeight k ≤ recExt1 r →
        ∃ n, Does i s id q p h (only (fun k => { k with commits := k.commits ++ [⟨n, c % 64, c / 2 ^ 32, r, isSub⟩] }) s))) ∧
    (∀ pkg sd b, Issues s id q p h 1 →
      let v := rdScal q b
      let k := channelOf s (v / 256 % 64)
      let ctx := ctxId s q
      let count (d : Nat) : Nat := tget 0 s.stats ((d * 64 + ctx) * 8 + v % 16)
      v < 2 ^ 14 → v / 16 % 16 = 0 → v % 16 ≤ 10 → (8 ≤ v % 16 → chEn k = true ∧ chCtx k = ctx) →
      Owes (.lfStat h pkg sd b) s id q p h OnlySquads fun q' =>
        GetsS sd q q' (BitVec.ofNat 64
          (if v % 16 < 8 then (if pkg then ((List.range 8).map count).sum else count (q.core / 128))
           else if v % 16 = 8 then k.frames else if v % 16 = 9 then k.miss else k.late)) ∧
        SameRegs { q with s := q'.s } q')

/-! ### System instructions -/

/-- TASK.SPAWN answers what the submission of its graph finds, or a full queue (R386). TASK.SIGNAL takes one from a waiting
record's predecessors (R387). TASK.COLLECT deposits, or waits for room (R388). TASK.CHECK reads a record's state word (R389).
TASK.MIGRATE asks for a migration where one is possible, of a task of priority 7 never (R375, R390). The lowest core with room under
bit 7 of its operand is log 72 (DEDUCED; R390 lets the dispatcher choose). -/
def Obligations.TaskInstructions : Prop :=
  ∀ (h : Hdr) (s : State) (id : Nat) (q : Squad) (p : Path), runs p h q ≠ 0 →
    let x := seen id q p h
    let s1 := issued s id q p h 1 (.once 1)
    let ctx := ctxId s q
    (∀ sd ba va, Issues s id q p h 2 →
      let s2 := issued s id q p h 2 (.once 1)
      sysRecord s2 x (rdB q ba) 32 32 false = .ok va →
      let s3 := logRel s2 x 15 .pkg (.graph s.nextId)
      let d := (devReadN s2 ctx va 32).getD 0
      let full := 256 ≤ (s.spawns.filter fun a => a.die == q.core / 128).length
      let sub := submitGraph s3 ctx ((ctxOf s ctx).cflags.getLsbD 1 || (trOf s q).flags.testBit 2) (some (q.core / 128)) d
      let gives (y : Nat) (q' : Squad) : Prop := GetsS sd q q' (BitVec.ofNat 64 y) ∧ SameRegs { q with s := q'.s } q'
      (full → Owes (.taskSpawn h sd ba) s id q p h OnlySquads (gives (2 + d / 2 ^ 96 % 2 ^ 32 * 2 ^ 32))) ∧
      (¬ full → ∀ k gid, sub = .error (k, gid) →
        Owes (.taskSpawn h sd ba) s id q p h OnlyHere (gives (1 + k % 2 ^ 24 * 2 ^ 8 + gid * 2 ^ 32))) ∧
      (¬ full → ∀ u g gid, sub = .ok (u, g, gid) → ∃ t q', exec (.taskSpawn h sd ba) s = .next t ∧
        Went s t id q q' p h ∧ SameRegs q q' ∧ gives (gid * 2 ^ 32) (landed q') ∧
        t = { u with squads := t.squads, nextId := t.nextId, spawns := u.spawns ++ [⟨q.core / 128, g⟩] })) ∧
    (∀ ba va, Issues s id q p h 1 → sysRecord s1 x (rdB q ba) 256 64 true = .ok va →
      let s2 := match nodeAt s1 ctx va with
        | some m => if devReadN s1 ctx (va + 36) 4 = some 1 then logRel s1 x 127 .sys (.towards m) else s1
        | none => s1
      (devReadN s1 ctx (va + 224) 1 ≠ some 1 → Does (.taskSignal h ba) s id q p h (OnlySquads s)) ∧
      (devReadN s1 ctx (va + 224) 1 = some 1 →
        Does (.taskSignal h ba) s id q p h fun t => t = { decPreds s2 ctx va with squads := t.squads })) ∧
    (∀ ba b va n k, Issues s id q p h 1 → sysRecord s1 x (rdB q ba) 256 64 false = .ok va → collectorAt s1 ctx va = some (n, k) →
      (ringSize k.tr ≤ k.wr - k.rd → Waits (.taskCollect h ba b) s id q .collect (OnlySquads s)) ∧
      (k.wr - k.rd < ringSize k.tr → Does (.taskCollect h ba b) s id q p h fun t =>
        t = { devWriteN (logRel s1 x 15 .pkg (.record n k.wr)) k.ctx ((rangeOf k.tr 0).base + 8 * (k.wr % ringSize k.tr)) 8 (rdScal q b) with
              squads := t.squads, nodes := t.nodes } ∧
        ∀ m, nodeOf t m = if m = n then some { k with
          wr := k.wr + 1, oldest := if k.wr = k.rd + k.consume then s.time else k.oldest } else nodeOf s m)) ∧
    (∀ ba b va, Issues s id q p h 1 → sysRecord s1 x (rdB q ba) 256 64 false = .ok va → collectorAt s1 ctx va = none →
      Raises (.taskCollect h ba b) s id q p (mkFault 0x07 0x12 (runs p h q) p)) ∧
    (∀ sd ba va, Issues s id q p h 1 → sysRecord s1 x (rdB q ba) 256 64 false = .ok va →
      Owes (.taskCheck h sd ba) s id q p h OnlyHere fun q' =>
        GetsS sd q q' (BitVec.ofNat 64 ((devReadN s1 ctx (va + 224) 8).getD 0)) ∧ SameRegs { q with s := q'.s } q') ∧
    (∀ b tk, Issues s id q p h 4 → taskOf s q.task = some tk →
      let v := rdScal q b
      let s4 := issued s id q p h 4 (.once 1)
      let could (c : Nat) : Bool := tk.stopping == .no && !deadlineRec s4 tk.tr tk.ctx && migrates s4 q.task tk c
      let goal := if v < 128 then (if could (q.core / 128 * 128 + v) then some (q.core / 128 * 128 + v) else none)
        else ((List.range Config.coresPerDie).map fun k => q.core / 128 * 128 + k).find? could
      (256 ≤ v → Raises (.taskMigrate h b) s id q p (mkFault 0x07 0x04 (runs p h q) p)) ∧
      (v < 256 → Does (.taskMigrate h b) s id q p h fun t => OnlyAnd (fun a t => { a with tasks := t.tasks }) s t ∧
        ∀ j, taskOf t j = match goal with
          | some c => if j = q.task then some { tk with stopping := .preempt (some c) } else taskOf s j
          | none => taskOf s j))

/-- EBUD.WAIT goes on when its units could be spent and nobody waits, else it joins the list, and goes on once granted; it takes
nothing. EBUD.CAP sets the squad's cap. PERF.RD reads a counter, PERF.CLR clears them (R391, R392). That a wait whose units are there
goes on at once is log 27 (DEDUCED). -/
def Obligations.EnergyWaitsAndCounters : Prop :=
  ∀ (h : Hdr) (s : State) (id : Nat) (q : Squad) (p : Path), runs p h q ≠ 0 →
    (∀ b, Issues s id q p h 0 → q.granted = false →
      let n := rdScal q b
      let k := budgetOf (issued s id q p h 0 (.once 1)) (dieOf q) (ctxId s q)
      let l := if deadline s q then k.prio else k.gen
      let most := if deadline s q then k.cap + k.rcap else k.cap
      let there := if deadline s q then k.res + k.bud else k.bud
      (most < n → Raises (.ebudWait h b) s id q p (mkFault 0x07 0x04 (runs p h q) p)) ∧
      (n ≤ most → n ≤ there ∧ l = [] → Does (.ebudWait h b) s id q p h (OnlySquads s)) ∧
      (n ≤ most → ¬ (n ≤ there ∧ l = []) → (∀ e ∈ k.prio ++ k.gen, e.1 ≠ id) →
        Waits (.ebudWait h b) s id q (.ebud n) fun t => OnlySquads s t ∧ budgetOf t (dieOf q) (ctxId s q) =
          (if deadline s q then { k with prio := k.prio ++ [(id, n, false)] } else { k with gen := k.gen ++ [(id, n, false)] }))) ∧
    (∀ b, Resumes s id q p (.ebud (rdScal q b)) → q.granted = true →
      let k := budgetOf s (dieOf q) (ctxId s q)
      rdScal q b ≤ (if deadline s q then k.cap + k.rcap else k.cap) →
      Does (.ebudWait h b) s id q p h fun t => OnlySquads s t ∧ t.budgets = s.budgets) ∧
    (∀ b, Issues s id q p h 0 → ∃ t q', exec (.ebudCap h b) s = .next t ∧ Went s t id q q' p h ∧ OnlySquads s t ∧ SameRegs q q' ∧
      SameSquad { q with ebudCap := rdScal q b % 2 ^ 32 } q') ∧
    (∀ sd n, Issues s id q p h 0 → Writes (.perfRd h sd n) s id q p h fun q' =>
      GetsS sd q q' (tget 0 q.perf n) ∧ SameRegs { q with s := q'.s } q') ∧
    (Issues s id q p h 0 → ∃ t q', exec (.perfClr h) s = .next t ∧ Went s t id q q' p h ∧ OnlySquads s t ∧ SameSquad q q' ∧
      SameRegs q q' ∧ ∀ n, tget 0 q'.perf n = 0)

/-! ### Events of squads and engines -/

/-- An outstanding result that is ready is written and is outstanding no more (R27, R125). Timed waits end at their time, one in
cycles only while the squad is on its core (R153), a
peer's silence is noted after 20 us (R410). An arrival at an armed object is counted, its token handed over, and the last one flips
the phase of a root (R229). -/
def Obligations.SquadEvents : Prop :=
  ∀ (s : State) (id : Nat) (q : Squad), squadOf s id = some q →
    (∀ d, q.wait = some (.waitcRel d) → (∀ k, taskOf s q.task = some k → k.saved = true) → Leads (.waitcExpiry id) s s) ∧
    (∀ k e, q.fault = none → (q.pend.find? fun a => a.id == k && a.ready) = some e →
      ∃ t, Leads (.variableLatencyResult id k) s t ∧ t = { s with squads := t.squads } ∧
        SquadsBut s t id fun q => { applyWs e.ws q with pend := q.pend.filter fun a => a.id != k }) ∧
    (∀ d, q.wait = some (.waitc d) ∧ d ≤ s.time ∨
        q.wait = some (.waitcRel d) ∧ d ≤ s.clock ∧ (∃ k, taskOf s q.task = some k ∧ k.saved = false) →
      ∃ t, Leads (.waitcExpiry id) s t ∧ t = { s with squads := t.squads } ∧ SquadsBut s t id fun q => { q with wait := none }) ∧
    (∀ d, q.wait = some (.peer d) → d + 20000 ≤ s.time →
      ∃ t, Leads (.peerAccessTimeout id) s t ∧ t = { s with squads := t.squads } ∧ SquadsBut s t id fun q => { q with wait := some .peerLost }) ∧
    (∀ k a, s.arrivals[k]? = some a → a.squad = id → a.child = none → objThere s a.obj = true → areaOf s a.obj = none →
      let w := barWord s a.obj
      barState w = 1 → a.count = barCount w → instOf q (barLevel w) = (barDev s a.obj).inst → (barDev s a.obj).kids = [] →
      let tok := barPhase w
      ∃ t, Leads (.barrierArrival k) s t ∧ t.arrivals = s.arrivals.eraseIdx k ∧ BytesBut s t a.obj.sp a.obj.addr 32 ∧
        SquadsBut s t id (fun q => match a.pend with
          | some n => { q with pend := q.pend.map fun e => if e.id = n then { e with ready := true, ws := e.ws.map fun w => match w with
              | .s r _ => .s r (BitVec.ofNat 64 tok)
              | w => w } else e }
          | none => { q with wait := some (.bar (BitVec.ofNat 32 tok)) }) ∧
        let w' := barWord t a.obj
        barCount w' = barCount w ∧ barLevel w' = barLevel w ∧
        (barArrived w + 1 < barCount w → barArrived w' = barArrived w + 1 ∧ barPhase w' = tok ∧ barState w' = 1) ∧
        (barArrived w + 1 = barCount w → barPvalid w = false → barArrived w' = 0 ∧ barPhase w' = (tok + 1) % 2 ^ 32 ∧ barState w' = 1))

/-- Copy engines (R247, R251-R255, R261, R267, R269): acceptance and start in order; a chunk lands whole, with bytes that its reads
may see (R181), is counted at its word, and the last one ends the command; a packed block's chunks are decoded, then committed in order; a held fill goes on once its
slot's readers have fetched; a fault ends the command, cancels its task's others and ends the task. -/
def Obligations.CopyEngineEvents : Prop :=
  ∀ (s : State), (s.copies.map (·.id)).Nodup →
    let at' (die eng : Nat) (p : CopyPhase) : List Copy := s.copies.filter fun c => c.die == die && c.eng == eng && c.phase == p
    let but (id : Nat) (f : Copy → Copy) : List Copy := s.copies.map fun c => if c.id = id then f c else c
    (∀ die eng c r, at' die eng .inbox = c :: r → (at' die eng .queued).length < 64 →
      ∃ t, Leads (.copyCommandAccept die eng) s t ∧
        t = { s with squads := t.squads, copies := but c.id fun c => { c with phase := .queued } } ∧
        SquadsBut s t c.squad (accepted c.id)) ∧
    (∀ die eng c r, at' die eng .queued = c :: r → (at' die eng .running).length < 4 →
      ∃ t, Leads (.copyCommandStart die eng) s t ∧
        t = { s with copies := t.copies, ctxs := t.ctxs, hist := t.hist, dcache := t.dcache, active := t.active } ∧
        t.copies = but c.id (fun k => { k with
          phase := .running, walk := if c.major = 0x94 then some ((rectWalk s c).1, (rectWalk s c).2.1) else k.walk })) ∧
    (∀ c, c ∈ s.copies →
      (∀ j u, c.phase = .running → c.major ≠ 0x92 → c.major ≠ 0x95 → c.hold = [] → c.parked = none → j ∈ remaining c →
        chunkEffect s c j = .ok u →
        let n := min 4096 (c.total - 4096 * j)
        ∃ t, Leads (.copyChunkLanded c.id j) s t ∧
          SameBytes (copyCount u c n ((c.walk.map (·.2)).getD 0)) t ∧ t.slotMem = u.slotMem ∧ t.sidecar = u.sidecar ∧
          (if ∀ k ∈ remaining c, k = j then copyOf t c.id = none else copyOf t c.id = some { c with landed := c.landed ++ [j] }) ∧
          (c.major = 0x93 → c.xf = 0 → c.total ≤ 8192 → c.total % 64 = 0 → ∀ sl, copySlot s c = some sl → ∀ b, 64 * b < n →
            ∃ p bs, engPlace s c c.srec (regionAddr c.srec (4096 * j + 64 * b)) 64 false = .ok p ∧
              MayRead s (copyWho s c) .C p.1 p.2 64 bs ∧ ∀ k, k < 64 → rdSlot t c.core sl (4096 * j + 64 * b + k) = bs.getD k 0)) ∧
      (∀ e a, copyFaultNow s c = some (e, a) → parks e c.node = false → c.node = none →
        ∃ t, Leads (.copyRuntimeFault c.id) s t ∧ copyOf t c.id = none ∧
          (∀ k ∈ t.copies, k.task = c.task → k.node = none → k.phase = .running ∧ k.cancelled = true) ∧
          asked s t c.task ⟨e.1, e.2, c.core, c.sidx, 0xFF, pcCode c.pc, a, s.time, e.1 != 0x05⟩) ∧
      (∀ e a, copyFaultNow s c = some (e, a) → parks e c.node = true →
        ∃ t k, Leads (.copyRuntimeFault c.id) s t ∧ SameBytes s t ∧ copyOf t c.id = some { c with parked := some k } ∧
          (ctxOf t c.ctx).awaiting = (ctxOf s c.ctx).awaiting ++ [⟨k, .copy c.id, e.1, e.2, a, s.time⟩]) ∧
      (∀ k b pay, packState s c = .block b → c.phase = .running → c.major = 0x92 → c.parked = none → k < b.nch →
        c.committed ≤ k → k ∉ c.decoded → chunkPay s c b k = .ok pay →
        ∃ t, Leads (.streamChunkDecoded c.id k) s t ∧
          t = { s with copies := but c.id fun c => { c with decoded := c.decoded ++ [k] }, engWaits := t.engWaits }) ∧
      (∀ b bs u, packState s c = .block b → c.phase = .running → c.major = 0x92 → c.hold = [] → c.parked = none →
        c.committed ∈ c.decoded → nextCommit s c b = .ok bs →
        putPieces c (splitPieces (copyDesc c) 1025 (c.out + c.committed * packQ b) bs) s = .ok u →
        ∃ t, Leads (.streamChunkCommit c.id) s t ∧ SameBytes (copyCount u c bs.length 0) t ∧ t.slotMem = u.slotMem ∧
          (c.committed + 1 < b.nch → c.out < c.total → c.soff < regionSize c.srec →
            copyOf t c.id = some { c with committed := c.committed + 1 })) ∧
      (c.hold ≠ [] → (∀ m ∈ queueOf s c.core, m.fetched = true ∨ m.serial ∉ c.hold) →
        ∃ t, Leads (.fillHoldRelease c.id) s t ∧
          t = { s with copies := but c.id fun c => { c with hold := [] }, hist := t.hist, dcache := t.dcache, active := t.active }) ∧
      (∀ img, c.phase = .running → c.major = 0x95 → waitedOut s c.id = false → ovlImage s c.ctx (regionAddr c.srec) (regionSize c.srec) = .ok img →
        ∃ t, Leads (.overlayLoadEnd c.id) s t ∧ copyOf t c.id = none ∧
          let b := bankOf t c.core (c.xf % 2 == 1)
          b.valid = true ∧ b.ninst = leVal ((img.drop 8).take 2) ∧ b.ovlid = leVal ((img.drop 12).take 4) ∧
            b.loading = (bankOf s c.core (c.xf % 2 == 1)).loading.filter (· ≠ c.id) ∧
          ∀ k, k < img.length → k < 65536 → tget 0xFF#8 t.imem ((c.core * 2 + c.xf % 2) * 65536 + k) = img.getD k 0))

/-- `v` is the value `v0` times 2^k: the sign, an infinity and a NaN stay. -/
def Scaled (k : Int) (v0 v : FV) : Prop :=
  match v0 with
  | .nan => v = .nan
  | .inf n => v = .inf n
  | .fin n _ _ => ∃ m e, v = .fin n m e ∧ numberOf v = numberOf v0 * 2 ^ k

/-- The value of an element of a block (R53-R61): +0 under S = 0 and NaN under S = 255; the code's value times 2^(S - 127), codebook
entries and zero-bitmap bases too; an F4 code 8 is codebook entry 0 as it stands; DX as R56 says. -/
def Sys2Proof.Machine.ElementValuesRule : Prop :=
  ∀ (book : Nat → Nat) (sc c : Nat), sc < 256 → (∀ i, book i < 2 ^ 16) → c < 2 ^ 32 →
    let val (code : Nat) : FV := elemVal book code sc c
    let scaled (l : Fields) (x : Nat) (v : FV) : Prop := ∃ v0, StandsFor l x v0 ∧ Scaled ((sc : Int) - 127) v0 v
    (∀ code, (sc = 0 → val code = .fin false 0 0) ∧ (sc = 255 → val code = .nan)) ∧
    (sc ≠ 0 → sc ≠ 255 →
      scaled (fieldsOf .f32) c (val 0x08) ∧
      (∀ code ∈ [0x10, 0x68], scaled (fieldsOf .f16) (c % 2 ^ 16) (val code)) ∧
      (∀ code ∈ [0x18, 0x69], scaled (fieldsOf .bf16) (c % 2 ^ 16) (val code)) ∧
      (∀ code ∈ [0x20, 0x6A], scaled f8e4Fields (c % 256) (val code)) ∧
      (∀ code ∈ [0x28, 0x6B], scaled f8e5Fields (c % 256) (val code)) ∧
      (if c % 16 = 8 then StandsFor (fieldsOf .f16) (book 0) (val 0x30) else scaled f4Fields (c % 16) (val 0x30)) ∧
      scaled (fieldsOf .f16) (book (c % 16)) (val 0x60) ∧
      (∀ e ∈ [(0x38, 8, true), (0x39, 8, false), (0x40, 4, true), (0x6C, 8, true)], ∃ n m k, val e.1 = .fin n m k ∧
        numberOf (val e.1) = (if e.2.2 then (BitVec.ofNat e.2.1 c).toInt else ((c % 2 ^ e.2.1 : Nat) : Int)) * (2 : ℚ) ^ ((sc : Int) - 127)) ∧
      ∀ code, isDx code = true → ∃ n m k, val code = .fin n m k ∧ (m = 0 → n = false) ∧ numberOf (val code) = dxNumber code sc c)

/-- The products of group `j` of a row and a column, where both hold an element (R67, R286). -/
def groupProducts (a b : List (Option FV)) (j : Nat) : List (FV × Nat) :=
  (List.range 32).filterMap fun k => match a[32 * j + k]?, b[32 * j + k]? with
    | some (some x), some (some y) => some (mulV x y)
    | _, _ => none
/-- The code of `w` bits at bit `at'` of a slot, and present elements of a zero-bitmap slot before position (r, k) (R273, R285). -/
def slotCode (s : State) (o : Operand) (w at' : Nat) : Nat :=
  ((rdSlot s o.core o.slot (at' / 8)).toNat + 256 * (rdSlot s o.core o.slot (at' / 8 + 1)).toNat) / 2 ^ (at' % 8) % 2 ^ w
def presentBefore (s : State) (o : Operand) (k0 r k : Nat) : Nat :=
  ((List.range (r * k0 + k)).filter fun n => slotBit s o.core o.slot (n / k0) (n % k0)).length

/-- The product (R67, R286): each product is exact; a group of 32 is summed exactly, with the special values of R67, an exact zero being -0
only where every product is; it is rounded once to FP32 and added to the accumulator element, group after group. Element k of row r
of a slot stands at its place in the row, or at its rank among the present ones, and is read under its block's descriptor. -/
def Sys2Proof.Machine.ProductRule : Prop :=
  (∀ x y : FV,
    let inf (v : FV) : Prop := ∃ n, v = .inf n
    let zero (v : FV) : Prop := ∃ n e, v = .fin n 0 e
    let neg := signV x != signV y
    (x = .nan ∨ y = .nan → mulV x y = (.nan, 0)) ∧
    (inf x ∧ zero y ∨ zero x ∧ inf y → mulV x y = (.nan, 1)) ∧
    (inf x ∧ y ≠ .nan ∧ ¬ zero y ∨ x ≠ .nan ∧ ¬ zero x ∧ inf y → mulV x y = (.inf neg, 0)) ∧
    ((∃ n m e, x = .fin n m e) → (∃ n m e, y = .fin n m e) →
      ∃ m e, mulV x y = (.fin neg m e, 0) ∧ numberOf (.fin neg m e) = numberOf x * numberOf y)) ∧
  (∀ ps : List (FV × Nat), (∀ p ∈ ps, p.2 = 0 ∨ p.2 = 1) →
    let has (v : FV) : Prop := ∃ p ∈ ps, p.1 = v
    let both : Prop := has (.inf false) ∧ has (.inf true)
    let r := groupSum ps
    (r.2 = 1 ↔ both ∨ ∃ p ∈ ps, p.2 = 1) ∧ r.2 < 2 ∧
    (has .nan ∨ both → r.1 = .nan) ∧
    (¬ has .nan → ¬ both → ∀ n, has (.inf n) → r.1 = .inf n) ∧
    (¬ has .nan → (∀ n, ¬ has (.inf n)) → ∃ n m e, r.1 = .fin n m e ∧ numberOf r.1 = (ps.map fun p => numberOf p.1).sum ∧
      (m = 0 → (n = true ↔ ps ≠ [] ∧ ∀ p ∈ ps, ∃ e, p.1 = .fin true 0 e)))) ∧
  (∀ (acc : Nat) (g : FV × Nat), ∃ r, BecomesFloat (fieldsOf .f32) .rne g.1 r ∧
    accAdd acc g = ((addF fp32 .rne acc r.1).1, (addF fp32 .rne acc r.1).2 ||| r.2 ||| g.2)) ∧
  (∀ (a b : List (Option FV)) (acc : Nat × Nat), a.length = b.length → a.length ≤ 256 →
    addGroups 8 a b acc = (List.range ((a.length + 31) / 32)).foldl (fun acc j =>
      let r := accAdd acc.1 (groupSum (groupProducts a b j))
      (r.1, acc.2 ||| r.2)) acc) ∧
  (∀ (s : State) (o : Operand) (kk r k : Nat), k < kk →
    let first := slotTag s o.core o.slot 0 % 256
    let w := if elemBits first = 0 ∨ first = 8 then 8 else elemBits first
    let k0 := 1024 / w
    let element (at' : Nat) : FV :=
      let t := slotTag s o.core o.slot (at' / 512)
      elemVal (slotBook s o.core o.slot) (t % 256) (t / 256) (slotCode s o w at')
    (opRow s o kk r).length = kk ∧
    (¬ (0x68 ≤ first ∧ first ≤ 0x6C) → (opRow s o kk r)[k]? = some (some (element (1024 * r + w * k)))) ∧
    (0x68 ≤ first → first ≤ 0x6C → k < k0 → (opRow s o kk r)[k]? =
      some (if slotBit s o.core o.slot r k then some (element (w * presentBefore s o k0 r k)) else none)))

/-- What a symbol word of a rule gives column `b`, with its flags; none where its input faults (R311). -/
def contribution (s : State) (g : Gmv) (w b : Nat) : Option (Nat × Nat) :=
  if w < 2 ^ 31 then
    match gmvInput s g (w / 2 ^ 16) b with
    | .ok x =>
      let m := mulV (fcvtSource 0x18 w) x
      let r := encodeElem 0x08 .rne m.1
      some (r.1, r.2 ||| m.2)
    | .error _ => none
  else some (rdAcc s g.core (64 * g.tile0 + g.base + w % 2 ^ 11) b, 0)
/-- The fault of a symbol word of rule `i` (R311). -/
def symbolFault (s : State) (g : Gmv) (i w : Nat) : Option GFail :=
  if w < 2 ^ 31 then
    if g.cols ≤ w / 2 ^ 16 then some (gram 6)
    else (List.range g.nb).findSome? fun b => match gmvInput s g (w / 2 ^ 16) b with
      | .error e => some e
      | .ok _ => none
  else if w / 2 ^ 11 % 2 ^ 20 ≠ 0 then some (gram 6)
  else if i ≤ w % 2 ^ 11 then some (gram 2) else none
/-- FP32 values added one after another, with the flags (R69, R311); +0 for none. -/
def summed : List (Nat × Nat) → Nat × Nat
  | [] => (0, 0)
  | c :: cs => cs.foldl (fun a c => let x := addF fp32 .rne a.1 c.1; (x.1, a.2 ||| x.2 ||| c.2)) c

/-- The evaluation of a grammar stream (R306, R307, R311-R315): the header's checks, then rule after rule in stream order. A rule's first
failing check is its fault, and it writes nothing; otherwise its row holds the sums, its tile their flags, an output rule's four
blocks the row, and the next rule follows. -/
def Sys2Proof.Machine.GrammarRule : Prop :=
  ∀ (s : State) (g : Gmv),
    let stops (r : State × Option GFail × Nat × Nat) (e : GFail) : Prop := r.1 = s ∧ r.2.1 = some e
    let word (p : Nat) : Except GFail Nat := gmvWord s g p
    (∀ p, (g.fin < p + 4 → word p = .error (gram 8)) ∧ (p + 4 ≤ g.fin → word p = gmvRead s g p)) ∧
    (∀ p, match matPlace s g.core g.cmd g.src (fld g.src 51 0 + p) 4 false with
      | .error e => gmvRead s g p = .error e
      | .ok q => if poisoned s q.1 q.2 4 then gmvRead s g p = .error ((0x08, 1), fld g.src 51 0 + p)
        else ∃ bs, MayRead s (matWho s g.core g.cmd) .M q.1 q.2 4 bs ∧ gmvRead s g p = .ok (leVal bs)) ∧
    (∀ c b, let va := fld g.inp 51 0 + 4 * (c * g.nb + b)
      match matPlace s g.core g.cmd g.inp va 4 false with
      | .error e => gmvInput s g c b = .error e
      | .ok q =>
        let t := (rdTag s q.1 (q.2 / 64)).toNat
        let code := t % 256
        if code = 0xF8 then gmvInput s g c b = .error ((0x08, 1), va)
        else if code = 0 then gmvInput s g c b = .error ((0x09, 2), va)
        else if elemBits code = 0 then gmvInput s g c b = .error ((0x09, 1), va)
        else if code ≠ 8 then gmvInput s g c b = .error ((0x09, 3), va)
        else ∃ bs, MayRead s (matWho s g.core g.cmd) .M q.1 q.2 4 bs ∧
          gmvInput s g c b = .ok (elemVal (fun _ => 0) 0x08 (t / 256) (leVal bs))) ∧
    (regionSize g.src < 64 → stops (gmvRun s g) (gram 9)) ∧
    (64 ≤ regionSize g.src → ∀ k e, k < 16 → gmvRead s g (4 * k) = .error e → (∀ j, j < k → ∃ w, gmvRead s g (4 * j) = .ok w) →
      stops (gmvRun s g) e) ∧
    (64 ≤ regionSize g.src → ∀ hw : List Nat, hw.length = 16 → (∀ k w, hw[k]? = some w → gmvRead s g (4 * k) = .ok w) →
      let at' (k : Nat) : Nat := hw.getD k 0
      let rows := at' 1 % 2 ^ 16
      let cols := at' 1 / 2 ^ 16
      let rules := at' 2 % 2 ^ 16
      let dlim := at' 2 / 2 ^ 24
      let fin := 64 + 4 * at' 3
      let valid : Prop := at' 0 = 0x314D5247 ∧ 1 ≤ rows ∧ rows ≤ 16384 ∧ 1 ≤ cols ∧ cols ≤ 32768 ∧ 1 ≤ rules ∧ rules ≤ 2048 ∧
        at' 2 / 2 ^ 16 % 256 = 0x18 ∧ 1 ≤ dlim ∧ dlim ≤ 31 ∧ ∀ k, 4 ≤ k → at' k = 0
      let small : Prop := regionSize g.src < fin ∨ regionSize g.inp < 4 * cols * g.nb ∨ regionSize g.dst < 256 * rows
      (¬ valid → stops (gmvRun s g) (gram 1)) ∧ (valid → g.cap < rules → stops (gmvRun s g) (gram 5)) ∧
      (valid → rules ≤ g.cap → small → stops (gmvRun s g) (gram 9)) ∧
      (valid → rules ≤ g.cap → ¬ small →
        gmvRun s g = gmvRules { g with rows := rows, cols := cols, dlim := dlim, fin := fin } rules 0 64 [] s)) ∧
    (∀ i p depth, (gmvRules g 0 i p depth s).1 = s ∧ (gmvRules g 0 i p depth s).2.1 = if p = g.fin then none else some (gram 8)) ∧
    (∀ n i p depth,
      let r := gmvRules g (n + 1) i p depth s
      let symbol (q : Nat) : Except GFail Nat := word (p + 4 + 4 * q)
      (∀ e, word p = .error e → stops r e) ∧
      (∀ h, word p = .ok h →
        let out : Prop := h / 2 ^ 17 % 2 = 1
        let orow := h / 2 ^ 18
        let d := h / 2 ^ 12 % 32
        let cnt := h % 2 ^ 12
        (¬ out → orow ≠ 0 → stops r (gram 6)) ∧
        (out ∨ orow = 0 →
          (∀ q, q < cnt → (∀ j, j < q → ∃ w, symbol j = .ok w ∧ symbolFault s g i w = none) →
            (∀ e, symbol q = .error e → stops r e) ∧ ∀ w e, symbol q = .ok w → symbolFault s g i w = some e → stops r e) ∧
          (∀ ws : List Nat, ws.length = cnt → (∀ (q : Nat) (w : Nat), ws[q]? = some w → symbol q = .ok w ∧ symbolFault s g i w = none) →
            let deepest := ((ws.filter fun w => decide (2 ^ 31 ≤ w)).map fun w => depth.getD (w % 2 ^ 11) 0).foldl max 0
            let row := 64 * g.tile0 + g.base + i
            let sum (b : Nat) : Nat × Nat := summed (ws.filterMap fun w => contribution s g w b)
            let value (b : Nat) : Nat := if b < g.nb then (sum b).1 else 0
            let place (k : Nat) : Except GFail (Space × Nat) := matPlace s g.core g.cmd g.dst (fld g.dst 51 0 + 256 * orow + 64 * k) 64 true
            (d ≠ deepest + 1 → stops r (gram 3)) ∧
            (d = deepest + 1 → g.dlim < d → stops r (gram 4)) ∧
            (d = deepest + 1 → d ≤ g.dlim → out → g.rows ≤ orow → stops r (gram 7)) ∧
            (d = deepest + 1 → d ≤ g.dlim → out → orow < g.rows → ∀ k e, k < 4 → place k = .error e →
              (∀ j, j < k → ∃ q, place j = .ok q) → stops r e) ∧
            (d = deepest + 1 → d ≤ g.dlim → ∀ ps : List (Space × Nat), (¬ out → ps = []) →
              (out → orow < g.rows ∧ ps.length = 4 ∧ ∀ (k : Nat) (q : Space × Nat), ps[k]? = some q → place k = .ok q) →
              let image := imageBlocks ((List.range 64).map value)
              ∃ u, r = gmvRules g n (i + 1) (p + 4 + 4 * cnt) (depth ++ [d]) u ∧
                (∀ k b, b < 64 → rdAcc u g.core k b = if k = row then value b else rdAcc s g.core k b) ∧
                (∀ k, rdAccFlg u g.core k = if k = row / 64 then
                  rdAccFlg s g.core k ||| BitVec.ofNat 5 ((List.range g.nb).foldl (fun f b => f ||| (sum b).2) 0) else rdAccFlg s g.core k) ∧
                (∀ sp a, rdByte u sp a = rdByte (putBlocks s ps image) sp a) ∧ SameTags (putBlocks s ps image) u)))))

/-- Matrix engines (R279-R294): acceptance, operand fetch, which waits for new extents ahead of it (R284), the products' tile, a cleared
tile, a drained image, transfers, a grammar evaluation, completion, staged commands. Only the head command moves; that of a task being
killed does not (log 56, DEDUCED). -/
def Sys2Proof.Machine.MatrixStepsRule : Prop :=
  ∀ (s : State) (core : Nat),
    (∀ i ∈ [Instr.mmaOperandFetch core, .mmaExecute core, .accZeroExecute core, .drainExecute core, .accLdExecute core,
        .accStExecute core, .gmvEvaluate core],
      (queueOf s core = [] → Leads i s s) ∧
      (∀ c r, queueOf s core = c :: r →
        (taskOf s c.task = none → Leads i s s) ∧
        (∀ tk f, taskOf s c.task = some tk → tk.stopping = .kill f ∨ tk.stopping = .scrub f → Leads i s s) ∧
        ∃ t c', Leads i s t ∧ queueOf t core = c' :: r ∧ c'.serial = c.serial)) ∧
    (∀ c r, inboxOf s core = c :: r → (queueOf s core).length < 8 →
      ∃ t, Leads (.matrixQueueAccept core) s t ∧ t = { s with squads := t.squads, matQueue := t.matQueue, matInbox := t.matInbox } ∧
        queueOf t core = queueOf s core ++ [c] ∧ inboxOf t core = r ∧ SquadsBut s t c.squad (accepted c.serial)) ∧
    (∀ n g, n < 8 → aget s.staged (core * 8 + n) = some g → g.trig = 0 → (queueOf s core).length < 8 →
      ∃ t, Leads (.stagedCommandFire core n) s t ∧
        t = { s with staged := adel s.staged (core * 8 + n), matQueue := t.matQueue, hist := t.hist, dcache := t.dcache,
                     active := t.active } ∧
        queueOf t core = queueOf s core ++ [g.cmd]) ∧
    (∀ c r, queueOf s core = c :: r → c.executed = true → c.homes = [] →
      ∃ t, Leads (.matrixCommandComplete core) s t ∧ queueOf t core = r ∧
        t = { s with matQueue := t.matQueue, engWaits := t.engWaits, hist := t.hist, dcache := t.dcache, active := t.active }) ∧
    (∀ c tk r, queueOf s core = c :: r → taskOf s c.task = some tk → (∀ r, tk.stopping ≠ .kill r ∧ tk.stopping ≠ .scrub r) →
      let tile (n : Nat) : Nat := tk.tile0 + n
      let words (n : Nat) : List Nat := (List.range 4096).map fun i => rdAcc s core (64 * tile n + i / 64) (i % 64)
      let head (t : State) (c : MCmd) : Prop := queueOf t core = c :: r
      (∀ z d a b, c.kind = .mma z d a b → c.fetched = false →
        let oa : Operand := ⟨core, tk.slots.getD a 0⟩
        let ob : Operand := ⟨core, tk.slots.getD b 0⟩
        let later (n : Nat) : Prop := ∃ w ∈ s.slotWaits, w.core = core ∧ w.slot = n ∧ w.ext ≠ none ∧ c.serial ∉ w.readers
        (later oa.slot ∨ later ob.slot → Leads (.mmaOperandFetch core) s s) ∧
        (¬ later oa.slot → ¬ later ob.slot → fetchErr s core tk a b = none → ∃ t img, Leads (.mmaOperandFetch core) s t ∧
          t = { s with matQueue := t.matQueue, hist := t.hist, dcache := t.dcache, active := t.active } ∧
          head t { c with fetched := true, image := img } ∧
          ∀ i j, i < 64 → j < 64 →
            let old := if z then 0 else rdAcc s core (64 * tile d + i) j
            let k := min (opExt s oa).2 (opExt s ob).2
            (img.getD (64 * i + j) 0).toNat % 2 ^ 32 = (if i < (opExt s oa).1 ∧ j < (opExt s ob).1
              then (addGroups 8 (opRow s oa k i) (opRow s ob k j) (old, 0)).1 else old) % 2 ^ 32) ∧
        (¬ later oa.slot → ¬ later ob.slot → ∀ e, fetchErr s core tk a b = some e → ∃ t, Leads (.mmaOperandFetch core) s t ∧
          asked s t c.task ⟨e.1, e.2, core, c.sidx, 0xFF, pcCode c.pc, 0, s.time, e.1 != 0x05⟩ ∧ t.acc = s.acc)) ∧
      (∀ z d a b, c.kind = .mma z d a b → c.fetched = true → c.executed = false → 4097 ≤ c.image.length →
        ∃ t, Leads (.mmaExecute core) s t ∧
          t = { s with matQueue := t.matQueue, acc := t.acc, accFlg := t.accFlg, hist := t.hist, dcache := t.dcache,
                       active := t.active } ∧
          head t { c with executed := true } ∧
          (∀ i j, i < 64 → j < 64 → rdAcc t core (64 * tile d + i) j = (c.image.getD (64 * i + j) 0).toNat) ∧
          (∀ n, rdAccFlg t core n = if n = tile d then rdAccFlg s core n ||| (c.image.getD 4096 0).setWidth 5 else rdAccFlg s core n)) ∧
      (∀ only d, c.kind = .zero only d → c.executed = false →
        ∃ t, Leads (.accZeroExecute core) s t ∧
          t = { s with matQueue := t.matQueue, acc := t.acc, accFlg := t.accFlg, hist := t.hist, dcache := t.dcache,
                       active := t.active } ∧
          head t { c with executed := true } ∧ rdAccFlg t core (tile d) = 0 ∧ (∀ n, n ≠ tile d → rdAccFlg t core n = rdAccFlg s core n) ∧
          (only = true → t.acc = s.acc) ∧ (only = false → ∀ i j, i < 64 → j < 64 → rdAcc t core (64 * tile d + i) j = 0)) ∧
      (matParked s core = false → c.executed = false →
        (∀ code rm clr dst a ps, c.kind = .drain code rm false clr dst a → regionBlocks s core c dst true = .ok ps →
          let img := drainImage code rm (words a)
          ∃ t, Leads (.drainExecute core) s t ∧ head t { c with executed := true } ∧
            (∀ sp b, rdByte t sp b = rdByte (putBlocks s ps (img.map fun b => (b.1, b.2.1))) sp b) ∧
            SameTags (putBlocks s ps (img.map fun b => (b.1, b.2.1))) t ∧
            rdAccFlg t core (tile a) = (if clr then 0 else rdAccFlg s core (tile a)) |||
              BitVec.ofNat 5 (img.foldl (fun f b => f ||| b.2.2) 0) ∧
            (clr = false → t.acc = s.acc) ∧ (clr = true → ∀ i j, i < 64 → j < 64 → rdAcc t core (64 * tile a + i) j = 0)) ∧
        (∀ code rm clr dst a ps, c.kind = .drain code rm true clr dst a → regionBlocks s core c dst true = .ok ps →
          ∃ t hs, Leads (.drainExecute core) s t ∧ SameBytes s t ∧ SameTags s t ∧
            head t { c with executed := true, image := (words a).map (BitVec.ofNat 32), homes := hs } ∧
            ∀ n, n ∈ hs ↔ ∃ p ∈ ps, homeOf p = n) ∧
        (∀ d src ps, c.kind = .accLd d src → regionBlocks s core c src false = .ok ps → ps.length = 256 →
          (∀ p ∈ ps, rdTag s p.1 (p.2 / 64) &&& 0xFF ≠ 0xF8) →
          ∃ t, Leads (.accLdExecute core) s t ∧ SameBytes s t ∧ SameTags s t ∧ head t { c with executed := true } ∧
            rdAccFlg t core (tile d) = 0 ∧
            ∃ bs : Nat → List Byte, (∀ k p, ps[k]? = some p → MayRead s (matWho s core c) .M p.1 p.2 64 (bs k)) ∧
              ∀ i j, i < 64 → j < 64 →
                rdAcc t core (64 * tile d + i) j = leVal (((bs ((64 * i + j) / 16)).drop (4 * (j % 16))).take 4)) ∧
        (∀ dst a ps, c.kind = .accSt dst a → regionBlocks s core c dst true = .ok ps →
          ∃ t, Leads (.accStExecute core) s t ∧ head t { c with executed := true } ∧ t.acc = s.acc ∧ t.accFlg = s.accFlg ∧
            (∀ sp b, rdByte t sp b = rdByte (putBlocks s ps (imageBlocks (words a))) sp b) ∧
            SameTags (putBlocks s ps (imageBlocks (words a))) t) ∧
        (∀ dst src inp w, c.kind = .gmv dst src inp w →
          let g : Gmv := ⟨core, tk.tile0, c, dst, src, inp, w.toNat / 2 ^ 24 % 128, w.toNat / 2 ^ 12 % 4096, w.toNat % 2 ^ 11, 0, 0, 0, 0⟩
          ((gmvRun s g).2.1 = none → ∃ t, Leads (.gmvEvaluate core) s t ∧ SameBytes (gmvRun s g).1 t ∧ t.acc = (gmvRun s g).1.acc ∧
            t.accFlg = (gmvRun s g).1.accFlg) ∧
          (∀ e, (gmvRun s g).2.1 = some e → e.1 ≠ eAgain → parks e.1 none = false → ∃ t, Leads (.gmvEvaluate core) s t ∧
              asked s t c.task ⟨e.1.1, e.1.2, core, c.sidx, 0xFF, pcCode c.pc, e.2, s.time, e.1.1 != 0x05⟩)))) ∧
    (∀ c r home code rm clr dst a ps, queueOf s core = c :: r → c.kind = .drain code rm true clr dst a → home ∈ c.homes →
      regionBlocks s core c dst true = .ok ps →
      let mine := ps.zipIdx.filter fun p => homeOf p.1 == home
      let same : Prop := ∀ p ∈ mine, rdTag s p.1.1 (p.1.2 / 64) = 0x7F08
      let left : MCmd := { c with homes := c.homes.filter (· ≠ home) }
      (same → ∃ t, Leads (.addOnStore core home) s t ∧ queueOf t core = left :: r ∧
        ∀ sp b, rdByte t sp b = rdByte (mine.foldl (fun a p => (List.range 16).foldl (fun a i =>
          let at' := p.1.2 + 4 * i
          wrN a p.1.1 at' 4 (addF fp32 .rne (rdN a p.1.1 at' 4) (c.image.getD (16 * p.2 + i) 0).toNat).1) a) s) sp b) ∧
      (¬ same → ∃ t, Leads (.addOnStore core home) s t ∧ SameBytes s t ∧ queueOf t core = left :: r ∧
        asked s t c.task ⟨9, 7, core, c.sidx, 0xFF, pcCode c.pc, 0, s.time, true⟩)) ∧
    (∀ slot w, (s.slotWaits.find? fun w => w.core == core && w.slot == slot && w.ext.isNone && slotReady s w) = some w →
      ∃ t, Leads (.slotFreeEffect core slot) s t ∧ t = { s with tasks := t.tasks, slotWaits := s.slotWaits.filter (· ≠ w) } ∧
        ∀ j, taskOf t j = if j = w.task then (taskOf s j).map fun k => { k with claimed := k.claimed.filter (· ≠ w.name) } else taskOf s j) ∧
    (∀ slot w e, (s.slotWaits.find? fun w => w.core == core && w.slot == slot && w.ext.isSome && slotReady s w) = some w →
      w.ext = some e →
      ∃ t, Leads (.slotExtentEffect core slot) s t ∧ t = { s with ext := t.ext, slotWaits := s.slotWaits.filter (· ≠ w) } ∧
        extOf t core slot = e)

/-- Matrix engines: the values of elements, the product, the grammar's evaluation, and the events that run them. -/
def Obligations.MatrixEngineEvents : Prop := ElementValuesRule ∧ ProductRule ∧ GrammarRule ∧ MatrixStepsRule

/-! ### Events of the light field, contexts and frames -/

/-- The edges of a primitive, and the edge function of R323 in the middle of a pixel. -/
def primEdges (p : Prim) : List (Vtx × Vtx) := [(p.v0, p.v1), (p.v1, p.v2), (p.v2, p.v0)]
def edgeA (k : Vtx × Vtx) : Int := -(k.2.y - k.1.y)
def edgeB (k : Vtx × Vtx) (py : Nat) : Int := (k.2.d - k.1.d) * (256 * py + 128 - k.1.y) + (k.2.y - k.1.y) * k.1.d
def edgeE (k : Vtx × Vtx) (px py : Nat) (e2 : Int) : Int :=
  edgeA k * (256 * px + 128) + edgeB k py * e2 + ((k.2.x - k.1.x) * (256 * py + 128 - k.1.y) + (k.2.y - k.1.y) * k.1.x)
/-- The edge and G conditions of R324. -/
def EdgesMet (p : Prim) (px py : Nat) (e2 : Int) : Prop :=
  (∀ k ∈ primEdges p, 0 < edgeE k px py e2 ∨
    (edgeE k px py e2 = 0 ∧ (0 < edgeA k ∨ (edgeA k = 0 ∧ 0 < edgeB k py)))) ∧
  0 < ((primEdges p).map fun k => edgeE k px py e2).sum
/-- The views of a primitive, and the doubled offset of a view (R319, R322). -/
def viewsIn (p : Prim) : Nat := p.ctrl / 256 % 64 + 1
def offset2 (p : Prim) (v : Int) : Int := 2 * v - (viewsIn p - 1)

/-- Which samples are covered (R322-R324), where the edge values fit in 64 bits; a record's fields stand in its words. -/
def Sys2Proof.Machine.CoverageRule : Prop :=
  (∀ (p : Prim) (free : Bool) (px py v : Nat),
    let e2 := offset2 p v
    (∀ k ∈ primEdges p, -2 ^ 63 ≤ edgeE k px py e2 ∧ edgeE k px py e2 < 2 ^ 63) →
    ∃ e, Nearest32 ((e2 : ℝ) / 2) e ∧
      let den := (addF fp32 .rne 0x3F800000 (mulF fp32 .rne p.alpha e).1).1
      let l := fieldsOf .f32
      (covered p free px py v = true ↔ p.ctrl / 16 % 8 = 0 ∧ p.ymin ≤ py ∧ py ≤ p.ymax ∧ EdgesMet p px py e2 ∧
        ((Infinite l den ∧ signOf l den = false) ∨ (Finite l den ∧ 1 / 2 ^ 20 < valueOf l den)))) ∧
  (∀ n : Nat,
    let word (k : Nat) : Nat := n / 2 ^ (32 * k) % 2 ^ 32
    let signed (k : Nat) : Int := (BitVec.ofNat 32 (word k)).toInt
    let vtx (k : Nat) : Vtx := ⟨signed k, signed (k + 1), signed (k + 2)⟩
    primOf n = ⟨vtx 0, vtx 3, vtx 6, word 9, signed 10, signed 11, word 12, word 13, word 14, word 15, word 16, word 17, word 18,
      word 19, word 20⟩)

/-- Word `k` of bytes; the address of element (x, y) of a 2-D record (R158, R159). -/
def wordIn (bs : List Byte) (k : Nat) : Nat := leVal ((bs.drop (4 * k)).take 4)
def elementVa (r : Rec) (x y : Nat) : Nat :=
  let col := x * 2 ^ fld r 238 235
  fld r 51 0 + (y * fld r 207 176 + if fld r 248 246 = 0 then col else col ^^^ (y % 2 ^ fld r 248 246 * 16))

/-- A reprojected sample (R348). Where the destination's old sample is not read, the manual states no source position: the colour is
left open. -/
def Sys2Proof.Machine.ReprojectionRule : Prop :=
  ∀ (s : State) (c : LfCmd),
    (∀ x y v : Int,
      let ex := x.toNat
      let ey := y.toNat * c.views + v.toNat
      let out : Prop := x < 0 ∨ y < 0 ∨ v < 0 ∨ c.views ≤ v ∨ fld c.other 143 112 ≤ ex ∨ fld c.other 175 144 ≤ ey
      (out → histPlace s c x y v = none) ∧
      (¬ out → histPlace s c x y v = match framePlace s c c.other (elementVa c.other ex ey) 16 false with
        | .error _ => none
        | .ok p => if poisoned s p.1 p.2 16 then none else some p)) ∧
    (∀ px py v : Nat,
      let w := c.word.toNat
      let x : Int := (w % 2 ^ 16 + px : Nat)
      let y : Int := (w / 2 ^ 16 % 2 ^ 16 + py : Nat)
      let ninf := 0xFF800000
      let l := fieldsOf .f32
      let r := reproSample s c px py v
      (histPlace s c x y v = none → r.depth = ninf ∧ r.vis = 0 ∧ r.motion = 2 ^ 31) ∧
      (∀ p, histPlace s c x y v = some p → ∃ gs, MayRead s (frameWho s c) .G p.1 p.2 16 gs ∧
        let g := wordIn gs
        ∃ mx my : Int, Selects .rne integral evenInt (((BitVec.ofNat 16 (g 3)).toInt : ℝ) / 256) mx ∧
          Selects .rne integral evenInt (((BitVec.ofNat 15 (g 3 / 2 ^ 16)).toInt : ℝ) / 256) my ∧
          let source := histPlace s c (x - mx) (y - my) ((v : Int) - (BitVec.ofNat 8 (w / 2 ^ 40)).toInt)
          (source = none → r = ⟨0, ninf, 0, g 3 % 2 ^ 31 + 2 ^ 31⟩) ∧
          (∀ q, source = some q → ∃ hs, MayRead s (frameWho s c) .G q.1 q.2 16 hs ∧
            let h := wordIn hs
            let d := (subF fp32 .rne (h 1) (g 1)).1
            let tol := w / 2 ^ 48 * 2 ^ 16
            let within : Prop := (Infinite l tol ∧ signOf l tol = false) ∨ (Finite l d ∧ Finite l tol ∧ |valueOf l d| ≤ valueOf l tol)
            let ok : Prop := (g 1 = ninf ∧ h 1 = ninf) ∨ (Finite l (g 1) ∧ Finite l (h 1) ∧ within)
            (ok → r = ⟨h 0, h 1, h 2, h 3 % 2 ^ 31⟩) ∧ (¬ ok → r = ⟨h 0, ninf, 0, g 3 % 2 ^ 31 + 2 ^ 31⟩))))

/-- A resolve (R349, R350): the panel descriptor, then the pixels of the tile in order. A pixel outside the panel is left out; one outside
the record is dropped under ZERO, or stops the command with BOUND 1; a place that cannot be written stops it; any other becomes a word
of three channels, each of the colour of its view, and alpha 255. -/
def Sys2Proof.Machine.ResolveRule : Prop :=
  ∀ (s : State) (c : LfCmd),
    (match framePlace s c c.panel (fld c.panel 51 0) 32 false with
      | .error e => panelDesc s c = .error e
      | .ok p => ∃ bs, MayRead s (frameWho s c) .G p.1 p.2 32 bs ∧
          panelDesc s c = if wordIn bs 1 = 0 ∨ leVal bs / 2 ^ 128 ≠ 0 then .error (7, 4) else .ok (leVal bs)) ∧
    ∀ d : Nat,
      resolvePixels c d [] s = (s, none) ∧
      ∀ (px py : Nat) (rest : List (Nat × Nat)),
        let w := c.word.toNat
        let x := w % 2 ^ 16 + px
        let y := w / 2 ^ 16 % 2 ^ 16 + py
        let run := resolvePixels c d ((py, px) :: rest) s
        let va := elementVa c.other x y
        let shown : Prop := x < d / 2 ^ 96 % 2 ^ 16 ∧ y < d / 2 ^ 112 % 2 ^ 16
        let inside : Prop := x < fld c.other 143 112 ∧ y < fld c.other 175 144
        let signed (k : Nat) : Int := (BitVec.ofNat 32 (d / 2 ^ (32 * k))).toInt
        let pitch : Nat := d / 2 ^ 32 % 2 ^ 32
        let n (ch : Nat) : Int := 65536 * (3 * (x : Int) + ch) + 3 * y * signed 0 + signed 2
        let view (ch : Nat) : Nat := (n ch % pitch).toNat * c.views / pitch
        (¬ shown → run = resolvePixels c d rest s) ∧
        (shown → ¬ inside → run = if fld c.other 250 250 = 1 then resolvePixels c d rest s else (s, some ((4, 1), va))) ∧
        (shown → inside → match framePlace s c c.other va 4 true with
          | .error e => run = (s, some (e, va))
          | .ok p => ∃ u word, run = resolvePixels c d rest u ∧ word / 2 ^ 24 = 255 ∧
              (∀ ch, ch < 3 → ∃ bs, MayRead s (frameWho s c) .G (.scr c.core)
                (fld c.tileRec 51 0 + w / 2 ^ 32 % 8 * 65536 + ((view ch * 8 + py) * 8 + px) * 16) 4 bs ∧
                word / 2 ^ (8 * ch) % 256 = (bs.getD ch 0).toNat) ∧
              ∀ sp a, rdByte u sp a = rdByte (wrN s p.1 p.2 4 word) sp a)

/-- The 16 bytes of a feedback entry (R203). -/
def entryWord (ctx : Nat) (f : Feedback) : Nat :=
  2 ^ 80 * (f.time % 2 ^ 48) + 2 ^ 56 * (f.page % 2 ^ 24) + 2 ^ 40 * (f.rid % 2 ^ 16) + 2 ^ 34 * (ctx % 64) + 2 ^ 30 * (f.want % 16) +
    2 ^ 26 * (f.served % 16) + 2 ^ 24 * (f.src % 4)

/-- Feedback entries go to their ring or are dropped (R202, R203, R205), DONE follows the oldest walk (R210), a rasteriser hands its
fragments over (R334, R342), the frame units run the oldest command (R348-R350), channels take commits, decide at deadlines, scan
out the image that falls due first and are written (R354, R355, R405), counters are cleared (R358). -/
def Sys2Proof.Machine.FieldStepsRule : Prop :=
  ∀ (s : State) (ctx : Nat),
    (∀ f r, (ctxOf s ctx).feedback = f :: r →
      let s1 := modCtx s ctx fun c => { c with feedback := r }
      (fbRing s1 ctx = none → Leads (.feedbackAppend ctx) s s1) ∧
      (∀ va h, fbRing s1 ctx = some (va, h) →
        let n := 2 ^ fieldAt h 8 1
        let w := fieldAt h 16 4
        let used := (w + 2 ^ 32 - fieldAt h 20 4) % 2 ^ 32
        let place := fieldAt h 0 8 + 16 * (w % n)
        (used < n → fbWritable s1 ctx place = true → ∃ t, Leads (.feedbackAppend ctx) s t ∧
          t = { devWriteN (devWriteN s1 ctx place 16 (entryWord ctx f)) ctx (va + 16) 4 ((w + 1) % 2 ^ 32) with
                hist := t.hist, dcache := t.dcache, active := t.active }) ∧
        (n ≤ used ∨ fbWritable s1 ctx place = false → ∃ t, Leads (.feedbackAppend ctx) s t ∧
          t = { devWriteN (devWriteN s1 ctx (va + 24) 4 (min (fieldAt h 24 4 + 1) (2 ^ 32 - 1))) ctx (va + 28) 1
                  (fieldAt h 28 1 ||| 1) with hist := t.hist, dcache := t.dcache, active := t.active }))) ∧
    (let d := (walksOf s ctx).foldl min (ctxOf s ctx).epoch
     ((ctxOf s ctx).done < d → ∃ t, Leads (.lodEpochDoneAdvance ctx) s t ∧ CtxBut s t ctx fun c => { c with done := d }) ∧
     (d ≤ (ctxOf s ctx).done → Leads (.lodEpochDoneAdvance ctx) s s)) ∧
    (∀ quad r q, nextSpan s quad = some (r, q) → squadOf s r.squad = some q → q.pend = [] → r.act ≠ 0 →
      let w : Who := { whoSquad s r.squad q (lowestD r.act) with cmd := some r.id }
      let s1 := logEv s (.acquire w 8 .core [.setup r.squad])
      let s2 := logEv s1 (gRead s1 w q.core r.addr 128)
      let x0 := r.word % 2 ^ 16
      let y := r.word / 2 ^ 16 % 2 ^ 16
      let tile := r.word / 2 ^ 32 % 8
      let width := 8 * (r.word / 2 ^ 35 % 4 + 1)
      let rx := q.rasterRx + 1
      ∃ bs, MayRead s1 w .G (.scr q.core) r.addr 128 bs ∧
      let p := primOf (leVal bs)
      (p.ctrl / 2 ^ 14 = 0 ∧ p.ctrl.testBit 7 = false ∧ p.ctrl.testBit 3 = false ∧ p.ctrl / 16 % 8 ≤ 3 →
        ∃ redo : Nat → Nat → Nat → Bool,
        (∀ u j v, ∃ ws, MayRead s2 w .G (.scr q.core) (planeAddr (tileBase s q) (tile + u / 8) (u % 8 + j % rx) (y % 8 + j / rx) v 3) 4 ws ∧
          redo u j v = (leVal ws).testBit 31) ∧
        let seen' (u j v : Nat) : Bool := bitM r.act u && decide (u < width) && decide (u % rx = 0) &&
          covered p ((Config.openValue 2 s.ctr).testBit (64 * (x0 + u + j % rx) + v)) (x0 + u + j % rx) (y + j / rx) v &&
          (!r.redo || redo u j v)
        let got (u : Nat) : Bool := (List.range (cellN q)).any fun j => (List.range (viewsIn p)).any (seen' u j)
        let start := x0 + width
        ∃ t q', Leads (.spanRequestAccept quad) s t ∧ squadOf t r.squad = some q' ∧ (∀ j, j ≠ r.squad → squadOf t j = squadOf s j) ∧
          t.spans = s.spans.filter (· ≠ r) ∧ q'.wait = none ∧ q'.rasterLv = true ∧ q'.latch = BitVec.ofNat 1024 (leVal bs) ∧ SameRegs q q' ∧
          SameBytes s t ∧
          (∀ u, u < 32 → bitM r.act u = true →
            (got u = true → rdV (landed q') r.vd u = BitVec.ofNat 32 (2 ^ 12 * (tile + u / 8) + 8 * (y % 8) + u % 8) ∧
              rdV (landed q') (r.vd + 1) u = BitVec.ofNat 32 (y * 2 ^ 16 ||| (x0 + u))) ∧
            ∀ j, j < cellN q →
              (∀ v, v < 64 → (rdIm (landed q') (cellBase q r.k + j) u).getLsbD v = (decide (v < viewsIn p) && seen' u j v)) ∧
              ((∀ v, v < viewsIn p → seen' u j v = false) → rdVi (landed q') (cellBase q r.k + j) u = 0) ∧
              ∀ lo hi, lo < viewsIn p → hi < viewsIn p → seen' u j lo = true → seen' u j hi = true → (∀ v, v < lo → seen' u j v = false) →
                (∀ v, hi < v → v < viewsIn p → seen' u j v = false) →
                ∃ low high : Bool, (low = true ↔ lo = 0 ∧ EdgesMet p (x0 + u + j % rx) (y + j / rx) (offset2 p (-1))) ∧
                  (high = true ↔ hi + 1 = viewsIn p ∧ EdgesMet p (x0 + u + j % rx) (y + j / rx) (offset2 p (viewsIn p))) ∧
                  rdVi (landed q') (cellBase q r.k + j) u = BitVec.ofNat 32 (lo + 2 ^ 8 * hi + 2 ^ 16 * (p.ctrl % 4) +
                    2 ^ 20 * low.toNat + 2 ^ 21 * high.toNat + 2 ^ 22 * r.redo.toNat)) ∧
          (let e := maskOf fun u => bitM r.act u && got u
           q'.paths = q.paths.map fun b => if b.entry = r.entry ∧ e ≠ 0 then { b with exm := e } else b) ∧
          (r.pm ≠ 0 → (∀ px j v, start ≤ px → px < 2 ^ 16 → j ≤ q.rasterRy → v < viewsIn p → ∀ k ∈ primEdges p,
              -2 ^ 63 ≤ edgeE k px (y + j) (offset2 p v) ∧ edgeE k px (y + j) (offset2 p v) < 2 ^ 63) →
            ∀ u, u < 32 → bitM r.act u = true → (rdP (landed q') r.pm u = true ↔
              ∃ px j v, start ≤ px ∧ px < 2 ^ 16 ∧ j ≤ q.rasterRy ∧ v < viewsIn p ∧ covered p false px (y + j) v = true)))) ∧
    (∀ die c, (s.lfCmds.find? fun k => k.die == die && k.repro == true) = some c → tileIn s c = true →
      (∀ v py px, v < c.views → py < 8 → px < 8 → sampleAgain s c px py v = false) →
      ∃ t, Leads (.reproExecute die) s t ∧ t.lfCmds = s.lfCmds.filter (fun o => o.id ≠ c.id) ∧
        SameBytes (frameCount ((samplesOf c.views).foldl (fun a e =>
          putSample a c e.1 e.2.1 e.2.2 (reproSample s c e.2.2 e.2.1 e.1)) s) c (1024 * c.views)) t ∧
        ∀ k, c.node = none → taskOf s c.task = some k → ∃ k', taskOf t c.task = some k' ∧ tget 0 k'.bin 7 = tget 0 k.bin 7 +
          ((samplesOf c.views).filter fun e => (reproSample s c e.2.2 e.2.1 e.1).motion.testBit 31).length) ∧
    (∀ die c d p, (s.lfCmds.find? fun k => k.die == die && k.repro == false) = some c → tileIn s c = true → c.parked = none →
      framePlace s c c.panel (fld c.panel 51 0) 32 false = .ok p → panelDesc s c = .ok d →
      ∀ u, resolvePixels c d tilePixels (logEvs s [frameEv s c false p.1 p.2 32]) = (u, none) →
      ∃ t, Leads (.resolveExecute die) s t ∧ t.lfCmds = s.lfCmds.filter (fun o => o.id ≠ c.id) ∧ SameBytes (frameCount u c 256) t) ∧
    (∀ ch c r, (channelOf s ch).commits = c :: r →
      let k := channelOf s ch
      let due := ∃ f ∈ k.armed, f.frame = c.frame ∧ s.time < f.deadline ∧ frameFaulted s f = false
      (c.isSub = true → ∃ t, Leads (.presentCommitEffect ch) s t ∧
        ChannelBut s t ch fun k => { k with commits := r, substitute := some ⟨c.id, c.image⟩ }) ∧
      (c.isSub = false → due → ∃ t, Leads (.presentCommitEffect ch) s t ∧ ChannelBut s t ch fun k =>
        { k with commits := r, armed := k.armed.map fun f => if f.frame = c.frame then { f with image := some ⟨c.id, c.image⟩ } else f }) ∧
      (c.isSub = false → ¬ due → ∃ t, Leads (.presentCommitEffect ch) s t ∧
        ChannelBut s t ch fun k => { k with commits := r, late := (k.late + 1) % 2 ^ 64 })) ∧
    (∀ ch f, ((channelOf s ch).armed.find? fun f => decide (f.deadline ≤ s.time)) = some f →
      let good : Prop := f.image ≠ none ∧ frameFaulted s f = false
      ∃ t, Leads (.presentDeadline ch) s t ∧ ChannelBut s t ch fun k =>
        let img := if good then f.image else match k.substitute with | some i => some i | none => k.last
        { k with armed := k.armed.filter (· ≠ f), last := img, frames := (k.frames + 1) % 2 ^ 64,
                 miss := if good then k.miss else (k.miss + 1) % 2 ^ 64, due := k.due ++ [(f.deadline + chScanlat k, img)] }) ∧
    (∀ ch d before after, (channelOf s ch).due = before ++ d :: after → (∀ e ∈ before, d.1 < e.1) → (∀ e ∈ after, d.1 ≤ e.1) →
      (s.time < d.1 → Leads (.scanOutStart ch) s s) ∧
      (d.1 ≤ s.time → ∃ t, Leads (.scanOutStart ch) s t ∧
        ChannelBut { s with hist := t.hist, dcache := t.dcache, active := t.active } t ch fun k =>
          { k with due := before ++ after, shown := k.shown ++ [(s.time, d.2)] })) ∧
    (∀ m ch x, s.ready = true → mayManage s m true = true → ch < 64 → ∃ t, Leads (.presentChannelWrite ⟨m, ch⟩ x) s t ∧ t = { s with channels := t.channels } ∧
      let k := channelOf s ch
      let k' := channelOf t ch
      chEn k' = x.getLsbD 0 ∧ chCtx k' = x.toNat / 4 % 64 ∧ chWidth k' = x.toNat / 2 ^ 64 % 2 ^ 16 ∧
        chHeight k' = x.toNat / 2 ^ 80 % 2 ^ 16 ∧ chScanlat k' = x.toNat / 2 ^ 96 ∧ k'.frames = k.frames ∧ k'.miss = k.miss ∧
        k'.late = k.late ∧ (∀ n, n ≠ ch → channelOf t n = channelOf s n) ∧
        (chEn k' ≠ chEn k ∨ chCtx k' ≠ chCtx k → k'.armed = [] ∧ k'.substitute = none) ∧
        (chEn k' = chEn k → chCtx k' = chCtx k → k'.armed = k.armed ∧ k'.substitute = k.substitute)) ∧
    (∀ m i, s.ready = true → mayManage s m true = true → i = .counterReset ∨ i = .managementWrite ⟨m, .counterReset⟩ →
      ∃ t, Leads i s t ∧ t = { s with stats := [], channels := t.channels } ∧
      ∀ ch, channelOf t ch = { channelOf s ch with frames := 0, miss := 0, late := 0 })

/-- The light field and the frames: coverage, reprojection, resolving, and the events that run them. -/
def Obligations.FieldEvents : Prop := CoverageRule ∧ ReprojectionRule ∧ ResolveRule ∧ FieldStepsRule

/-! ### Events of the dispatcher and of contexts -/

/-- A waiting node asks for every page that its lease lacks, gets the lease, is placed (R368, R369): a task appears on the core with its place, its squads in the
launch state of R36; one whose floor bits are no longer all set is not placed and waits for its lease again (R198). Timers open other dies and drain cores (R368, R374). Collectors start an instance (R373). A finished instance
or command completes its node (R366). -/
def Obligations.NodeEvents : Prop :=
  ∀ (s : State) (id : Nat) (n : Node), nodeOf s id = some n →
    (placing n = true → nodeKind n = 0 → n.leased = false → n.asked = false ∨ unasked s id n ≠ [] → leaseThere s n.ctx n.tr = false →
      ∃ t, Leads (.leaseRequest id) s t ∧ NodeBut { s with ctxs := t.ctxs } t id (fun n => { n with asked := true }) ∧
        (∀ c, c ≠ n.ctx → ctxOf t c = ctxOf s c) ∧ ctxOf t n.ctx = { ctxOf s n.ctx with asks := (ctxOf t n.ctx).asks } ∧
        ∀ a, a ∈ (ctxOf t n.ctx).asks ↔ a ∈ (ctxOf s n.ctx).asks ∨ (a.1 = id ∧ a.2 ∈ missingPages s n.ctx n.tr)) ∧
    (placing n = true → nodeKind n = 0 → n.leased = false → leaseThere s n.ctx n.tr = true →
      ∃ t, Leads (.nodeLeased id) s t ∧ NodeBut { s with ctxs := t.ctxs } t id (fun n => { n with leased := true, asked := false }) ∧
        (∀ c, c ≠ n.ctx → ctxOf t c = ctxOf s c) ∧
        ctxOf t n.ctx = { ctxOf s n.ctx with asks := (ctxOf s n.ctx).asks.filter fun a => a.1 ≠ id }) ∧
    (∀ m part w core sp, poolTakes s id = true →
      let u := rereadFor s id
      nodeOf u id = some m → nodeKind m = 0 → placeTry u id = some [((id, part, w), core, sp)] → lodValid u m.ctx w.tr = true →
      ∃ t tid tk, Leads (.taskPlace id) s t ∧ taskOf t tid = some tk ∧ tk.node = id ∧ tk.ctx = m.ctx ∧ tk.part = part.part ∧ tk.core = core ∧
        tk.base = sp.base ∧ tk.slots = sp.slots ∧ tk.tile0 = sp.tile0 ∧ tk.claimed = [] ∧ tk.saved = false ∧ tk.stopping = .no ∧
        (∀ m', nodeOf t id = some m' → m'.spill = false ∧ m'.misfit = none) ∧ tk.runFrom = s.time ∧ tk.squads.length = w.tr.nsquad ∧
        (∀ k j, tk.squads[k]? = some j → ∃ l q, squadOf t j = some q ∧ launched tid k l core (w.tr.ovla / 2 ^ 32 % 2 ^ 13) q) ∧
        (∀ k ∈ sp.slots, k < 64 → extOf t core k = (64, 256) ∧ ∀ off, off < 8192 → rdSlot t core k off = 0) ∧
        (∀ j, j < s.nextId → squadOf t j = squadOf s j)) ∧
    (poolTakes s id = true → nodeKind n = 0 → placedAlone s n = true → reread s n = n.tr → lodThere s n.ctx n.tr = false →
      ∃ t, Leads (.taskPlace id) s t ∧ nodeOf t id = some { n with leased := false } ∧ t = { s with nodes := t.nodes }) ∧
    (n.spill = false → misfits s id n = true → (∃ x, n.misfit = some x ∧ x + 100000 ≤ s.time) →
      ∃ t, Leads (.placementSpillTimeout id) s t ∧ NodeBut s t id fun n => { n with spill := true }) ∧
    (n.tr.gang ≠ 0 → n.drain = [] → placedAlone s n = true → misfits s id n = true → (∃ x, n.misfit = some x ∧ x + 2000000 ≤ s.time) →
      ∃ t, Leads (.gangDrainTimeout id) s t ∧ NodeBut s t id fun m => { m with drain := emptySpots s id n }) ∧
    (collectIdle n = true →
      let c := n.wr - n.rd
      let begun (t : State) : Prop := ∃ m, nodeOf t id = some m ∧ m.st = 2 ∧ m.consume = c ∧ m.parts = n.parts + 1 ∧ m.entry = s.time ∧
        m.csize = BitVec.ofNat 64 (c % 2 ^ 32 + n.rd % ringSize n.tr * 2 ^ 32)
      (n.tr.cthresh ≤ c ∨ predsOf s n = 0 → ∃ t, Leads (.collectorInstanceReady id) s t ∧ begun t) ∧
      (n.oldest + (if n.tr.cdead = 0 then 50 else n.tr.cdead) * 1000 ≤ s.time →
        ∃ t, Leads (.collectorDeadlineExpiry id) s t ∧ begun t)) ∧
    (∀ tid, nodeKind n = 0 → n.insts = [tid] → taskFinished s tid = true → pending n = false → n.st = 3 → collector n = false →
      Leads (.nodeComplete id) s (nodeDone (endInstance s id tid) id)) ∧
    (nodeKind n = 1 ∨ nodeKind n = 2 → n.st = 3 → n.fault = none → (∀ c ∈ s.copies, c.node ≠ some id) → (∀ c ∈ s.lfCmds, c.node ≠ some id) →
      Leads (.nodeComplete id) s (nodeDone s id))

/-- Killing a task removes its squads and what they have not started, then its record tells the fault; the scrub clears its slots and
either runs it again or ends its node (R298, R363). Requests to pre-empt, saving, replaying, resuming and migrating (R375-R379), the
watchdog (R380), the end of a forwarding entry (R379). -/
def Obligations.TaskEvents : Prop :=
  ∀ (s : State) (tid : Nat) (tk : Task), taskOf s tid = some tk →
    (∀ r, tk.stopping = .kill r → ∃ t, Leads (.taskKill tid r.code r.sub) s t ∧
      (∀ j q, squadOf t j = some q → q.task ≠ tid) ∧
      (∃ k, taskOf t tid = some k ∧ k.stopping = .scrub r ∧ k.squads = []) ∧
      (∀ c ∈ t.copies, c.task = tid → c.node = none → c.phase = .running ∧ c.cancelled = true) ∧
      (∀ e ∈ t.staged, e.2.cmd.task ≠ tid) ∧ ∀ c ∈ queueOf t tk.core, c.task = tid → c.executed = true) ∧
    (∀ r, tk.stopping = .scrub r → quiet s tid tk = true → tk.saved = false → r.relaunch = true → trIdem tk.tr = true → 0 < tk.rbudget →
      ∃ t, Leads (.taskScrub tid) s t ∧ taskOf t tid = none ∧
        (∀ k ∈ tk.slots, k < 64 → extOf t tk.core k = (64, 256) ∧ ∀ off, off < 8192 → rdSlot t tk.core k off = 0) ∧
        ∀ n, nodeOf s tk.node = some n → ∃ m, nodeOf t tk.node = some m ∧ m.insts = n.insts.filter (· ≠ tid) ∧
          m.again = n.again ++ [⟨tk.part, tk.rbudget - 1, s.time⟩]) ∧
    (∀ r, tk.stopping = .scrub r → quiet s tid tk = true → ¬ (r.relaunch = true ∧ trIdem tk.tr = true ∧ 0 < tk.rbudget) →
      ∃ t, Leads (.taskScrub tid) s t ∧ t = nodeFail (modNode (dropTask (if tk.saved then s else scrubTask s tk) tid) tk.node
        fun n => { n with insts := n.insts.filter (· ≠ tid) }) tk.node r.code r.sub r.time) ∧
    (tk.saved = false → tk.stopping = .no →
      let asks (m : Option Nat) (t : State) : Prop := t = { s with tasks := amod s.tasks tid fun t => { t with stopping := .preempt m } }
      (∃ t, Leads (.preemptRequest tid .host) s t ∧ asks none t) ∧
      (deadlineRec s tk.tr tk.ctx = false →
        (priorityVictim s tid = true → ∃ t, Leads (.preemptRequest tid .priority) s t ∧ asks none t) ∧
        (drainVictim s tk = true → ∃ t, Leads (.preemptRequest tid .drain) s t ∧ asks none t) ∧
        (∀ c, migrates s tid tk c = true → ∃ t, Leads (.preemptRequest tid (.migration c)) s t ∧ asks (some c) t)) ∧
      (deadlineRec s tk.tr tk.ctx = true → Leads (.preemptRequest tid .priority) s s ∧ Leads (.preemptRequest tid .drain) s s)) ∧
    (∀ m, tk.stopping = .preempt m → tk.saved = false →
      (saves tk m = true → saveReady s tid tk = true → ∃ t k, Leads (.preemptSave tid) s t ∧ taskOf t tid = some k ∧ k.saved = true ∧
        k.stopping = (match m with | some c => .preempt (some c) | none => .no) ∧
        (∀ c ∈ t.copies, c.task = tid → c.node ≠ none) ∧ (∀ e ∈ t.banks, tid ∉ e.2.holders) ∧
        ∀ j q, squadOf s j = some q → ∃ q', squadOf t j = some q' ∧ SameRegs q q' ∧ q'.paths = q.paths ∧ q'.joins = q.joins) ∧
      (saves tk m = false → ∃ t k, Leads (.preemptReplay tid) s t ∧ taskOf t tid = some k ∧ k.stopping = .replaying ∧ k.squads = [] ∧
        ∀ j q, squadOf t j = some q → q.task ≠ tid)) ∧
    (tk.stopping = .replaying → quiet s tid tk = true → ∃ t, Leads (.preemptReplay tid) s t ∧ taskOf t tid = none ∧
      ∀ n, nodeOf s tk.node = some n → ∃ m, nodeOf t tk.node = some m ∧ m.again = n.again ++ [⟨tk.part, tk.rbudget, tk.entry⟩]) ∧
    (∀ k, tk.kept = some k →
      (resumeFits s tk = true → (∃ e, poolBest s (tk.core / 128) = some e ∧ e.task = true ∧ e.id = tid) →
        ∃ t k', Leads (.taskResume tid) s t ∧ taskOf t tid = some k' ∧ k'.saved = false ∧ k'.core = tk.core ∧ k'.base = tk.base ∧
          k'.runFrom = s.time ∧ k'.kept = none) ∧
      (∀ core sp, tk.stopping = .preempt (some core) → tk.saved = true → stagedFree s core k = true → undrained s tk core = true →
        fitIn (useOf s [] core) tk.ctx tk.tr (some tk.base) (keptNeed tk false) (keptNeed tk true) = some sp →
        ∃ t k', Leads (.migration tid) s t ∧ taskOf t tid = some k' ∧ k'.saved = false ∧ k'.core = core ∧ k'.base = tk.base ∧
          k'.slots = sp.slots ∧ k'.tile0 = sp.tile0 ∧
          let toTask (f : Forward) : Prop := f.dest = tk.core ∧ f.lo = tk.base ∧ f.hi = tk.base + tk.tr.scratch
          (∀ f, f ∈ t.forwards ↔ f = ⟨tk.core, tk.base, tk.base + tk.tr.scratch, core, s.time + 64000⟩ ∨
            (f ∈ s.forwards ∧ ¬ toTask f ∧ f.core ≠ f.dest) ∨
            ∃ g ∈ s.forwards, toTask g ∧ g.core ≠ core ∧ f = { g with dest := core })) ∧
      (∀ core, tk.stopping = .preempt (some core) → tk.saved = true → stagedFree s core k = false ∨ undrained s tk core = false →
        ∃ t, Leads (.migration tid) s t ∧ t = { s with tasks := amod s.tasks tid fun t => { t with stopping := .no } })) ∧
    (wdogDue s tk = true → ∃ t, Leads (.wdogExpiry tid) s t ∧
      asked s t tid ⟨0x0F, 1, tk.core, 0xFF, 0xFF, 0, 0, s.time, true⟩ ∧ t = { s with tasks := t.tasks }) ∧
    (∀ k f, s.forwards[k]? = some f → f.expiry ≤ s.time →
      Leads (.migrationForwardExpiry k) s { s with forwards := s.forwards.eraseIdx k })

/-- Doorbells, events and answers of the host (R383, R402, R403): a bad doorbell value is an event of TYPE 7, a new descriptor is
taken, submitted, or refused by an event of TYPE 6; an event goes to the ring when there is room; an answer ends what awaits it. That a doorbell's release takes both links is log 106, that a
fatal answer is told to a frame command's word log 108 (both DEDUCED); that it follows every access that waits is log 84 (DESIGN CHOICE). -/
def Obligations.HostQueueEvents : Prop :=
  ∀ (s : State) (ctx : Nat), s.ready = true →
    let c := ctxOf s ctx
    (∀ db r, s.hostHeld.getLast? = some r → Leads (.doorbell ctx db) s
      { s with hostHeld := s.hostHeld ++ [⟨r.link, 0, true, false, [], s.time, some (ctx, db)⟩] }) ∧
    (∀ db, s.hostHeld = [] → c.cflags.getLsbD 0 = true →
      let n := db % 2 ^ 32
      let ahead := (n + 2 ^ 32 - c.sqhead) % 2 ^ 32
      let bad := 2 ^ c.sqlog2 < ahead ∨ ahead < (c.sqtail + 2 ^ 32 - c.sqhead) % 2 ^ 32
      (bad → ∃ t, Leads (.doorbell ctx db) s t ∧ CtxBut s t ctx fun c =>
        { c with events := c.events ++ [⟨c.nextToken, 7, 0, 0, 0, n, s.time⟩], nextToken := c.nextToken + 1 }) ∧
      (¬ bad → n = c.sqtail → Leads (.doorbell ctx db) s s) ∧
      (¬ bad → n ≠ c.sqtail → ahead = 1 →
        let va := c.sqbase.toNat + 32 * (c.sqhead % 2 ^ c.sqlog2)
        let s0 := modCtx (modCtx s ctx fun c => { c with sqtail := n }) ctx fun c => { c with sqhead := (c.sqhead + 1) % 2 ^ 32 }
        let s1 := ringEv (logEvs s0 ([0, 1].map fun l => .release (whoLink l) 64 .sys (.graph s.nextId))) ctx va 32 (some .sys)
        ∀ d, devReadN s1 ctx va 32 = some d →
        (∀ u g gid, submitGraph s1 ctx (c.cflags.getLsbD 1) none d = .ok (u, g, gid) → Leads (.doorbell ctx db) s u) ∧
        (∀ k gid, submitGraph s1 ctx (c.cflags.getLsbD 1) none d = .error (k, gid) → ∃ t, Leads (.doorbell ctx db) s t ∧
          CtxBut s1 t ctx fun c =>
            { c with events := c.events ++ [⟨c.nextToken, 6, 0, 0, va, 0, s.time⟩], nextToken := c.nextToken + 1 }))) ∧
    (∀ e r, c.events = e :: r →
      let used := (c.eqwrite + 2 ^ 32 - c.eqread) % 2 ^ 32
      let va := c.eqbase.toNat + 32 * (c.eqwrite % 2 ^ c.eqlog2)
      (used < 2 ^ c.eqlog2 → ∃ t, Leads (.eventAppend ctx) s t ∧ SameBytes (devWrite s ctx va (eventBytes e)) t ∧
        ctxOf t ctx = { c with events := r, eqwrite := (c.eqwrite + 1) % 2 ^ 32 } ∧
        (∃ before, t.hist = before ++ [.release (whoRing s ctx true) 127 .sys (.events ctx)]) ∧
        t.msix = s.msix ++ [ctx + 64 * (c.cflags.getLsbD 4).toNat]) ∧
      (2 ^ c.eqlog2 ≤ used → Leads (.eventAppend ctx) s s)) ∧
    (∀ m tok, mayManage s m true = false → Leads (.frespReplay ⟨m, ctx⟩ tok) s s ∧ Leads (.frespFatal ⟨m, ctx⟩ tok) s s ∧
      Leads (.frespCompleteNode ⟨m, ctx⟩ tok) s s ∧ Leads (.frespEndNode ⟨m, ctx⟩ tok) s s) ∧
    (∀ m tok a, mayManage s m true = true → awaitOf s ctx tok = some a →
      let gone (t : State) : Prop := ctxOf t ctx = { c with awaiting := c.awaiting.filter fun a => a.token != tok }
      (∀ id q, a.who = .squad id → squadOf s id = some q → ∃ t, Leads (.frespReplay ⟨m, ctx⟩ tok) s t ∧ gone t ∧
        SquadsBut s t id fun q => { q with wait := none, fault := none }) ∧
      (∀ id, a.who = .copy id → ∃ t, Leads (.frespReplay ⟨m, ctx⟩ tok) s t ∧ gone t ∧
        t.copies = s.copies.map fun c => if c.id = id then { c with parked := none } else c) ∧
      (∀ id, a.who = .frame id → ∃ t, Leads (.frespReplay ⟨m, ctx⟩ tok) s t ∧ gone t ∧
        t.lfCmds = s.lfCmds.map fun c => if c.id = id then { c with parked := none } else c) ∧
      (∀ id k, a.who = .frame id → (s.lfCmds.find? fun c => c.id == id) = some k → k.node = none → ∃ t,
        Leads (.frespFatal ⟨m, ctx⟩ tok) s t ∧ t.lfCmds = s.lfCmds.filter (fun c => c.id ≠ id) ∧ SameBytes (awPutFault s k.aw a.code a.sub) t) ∧
      (∀ id k, a.who = .copy id → copyOf s id = some k → k.node = none → ∃ t, Leads (.frespFatal ⟨m, ctx⟩ tok) s t ∧
        copyOf t id = none ∧ asked s t k.task ⟨a.code, a.sub, k.core, k.sidx, 0xFF, pcCode k.pc, a.addr, s.time, a.code != 0x05⟩) ∧
      (∀ core k r, a.who = .matrix core → queueOf s core = k :: r → ∃ t, Leads (.frespFatal ⟨m, ctx⟩ tok) s t ∧ gone t ∧
        asked s t k.task ⟨a.code, a.sub, core, k.sidx, 0xFF, pcCode k.pc, a.addr, s.time, true⟩) ∧
      (∀ id, a.who = .node id →
        let u := takeAwait s ctx tok
        Leads (.frespCompleteNode ⟨m, ctx⟩ tok) s (nodeDone (match m with
          | some l => logEvs u [.release (whoLink l) 64 .sys (.towards id), .acquire (whoNode u id) 127 .sys [.towards id]]
          | none => u) id)) ∧
      (∀ id n, a.who = .node id → nodeOf s id = some n → Leads (.frespEndNode ⟨m, ctx⟩ tok) s
        (nodeFail (writeFrec (takeAwait s ctx tok) n.ctx n.va ⟨0x10, 0xFF, n.die * 128, 0xFF, 0xFF, 0, 0, s.time, false⟩ false) id 0x10 0xFF s.time)))

/-! ### Events of the device -/

/-- Memory, budgets, soft errors and undefined words: an illegal word is ILL with its subcode (R38), congestion levels (R169), refresh
(R168), scrubbing and errors (R413), the pacer's writes and refills (R303, R304), host and peer accesses (R398, R411), the stale
translations that an invalidation ends (R404). The counter numbers of a die are log 94 (DEDUCED), the empty reply of a write and of a
POISON block to a peer log 103 (DESIGN CHOICE), an access that waits for a device log 84 (DESIGN CHOICE). -/
def Obligations.MemoryEvents : Prop :=
  ∀ (s : State),
    (∀ sub id q p h, Issues s id q p h 0 → h.gp = (splitWord (wordAt s q.core p.pc)).gp →
      (h.gn = ((splitWord (wordAt s q.core p.pc)).gn == 1)) → Raises (.illegalWord sub) s id q p (mkFault 1 sub (runs p h q) p)) ∧
    (∀ die occ, ∃ t, Leads (.congestionBroadcast die occ) s t ∧ t = { s with cong := t.cong } ∧ ∀ c, tget 0 t.cong c =
      if c / 128 = die then (if occ < 50 then 0 else if occ < 75 then 1 else if occ < 90 then 2 else 3) else tget 0 s.cong c) ∧
    (∀ die g,
      let fresh : Prop := ∃ e ∈ s.active, e.1 * 256 / 2 ^ 37 = die ∧ Config.rowGroup e.1 = g ∧ s.time < e.2 + Config.refreshWindow
      (fresh → Leads (.hbmRefresh die g) s s) ∧
      (¬ fresh → ∃ t, Leads (.hbmRefresh die g) s t ∧ t = { s with refresh := t.refresh } ∧ ∀ k,
        tget 0 t.refresh k = if k = die * 2 ^ 32 + g then s.time else tget 0 s.refresh k)) ∧
    (∀ die, ∃ t, Leads (.patrolScrub die) s t ∧ t = { s with corrected := t.corrected, ctr := t.ctr } ∧
      ∀ d, tget 0 s.corrected d ≤ tget 0 t.corrected d ∧
        (d ≠ die ∧ d ≠ 8 + 2 * die ∧ d ≠ 9 + 2 * die → tget 0 t.corrected d = tget 0 s.corrected d)) ∧
    (∀ sp b, ∃ t, Leads (.uncorrectableError (.block sp b)) s t ∧ SameBytes s t ∧ rdTag t sp b = 0x00F8 ∧
      ∀ sq c, ¬ sameBlock sp b sq c → rdTag t sq c = rdTag s sq c) ∧
    (∀ core task k, taskOf s task = some k → k.core = core → k.saved = false →
      (∃ t, Leads (.uncorrectableError (.coreStore core task)) s t ∧ asked s t task ⟨8, 4, core, 0xFF, 0xFF, 0, 0, s.time, true⟩) ∧
      ∃ t, Leads (.uncorrectableError (.instrMem core task)) s t ∧ asked s t task ⟨8, 4, core, 0xFF, 0xFF, 0, 0, s.time, true⟩) ∧
    (∀ id q p, squadOf s id = some q → runningPath q = some p → ∃ t, Leads (.uncorrectableError (.squadState id)) s t ∧
      asked s t q.task ⟨8, 4, q.core, q.idx, 0xFF, pcCode p.pc, 0, s.time, true⟩) ∧
    (s.ready = true → ∀ m die ctx r c rc,
      let event := Instr.pacerControlWrite ⟨m, die⟩ ctx r c rc
      let there : Prop := mayManage s m true = true ∧ die < 8 ∧ ctx < 64
      let refused : Prop := r % 2 ^ 32 ≠ 0 ∧ c % 2 ^ 32 < 64
      let now : Prop := s.time % 1000 = 0 ∧ s.refills = s.time / 1000
      let b := budgetOf s die ctx
      let b' : Budget := { b with bud := 0, res := 0, refill := r % 2 ^ 32, cap := c % 2 ^ 32, rcap := rc % 2 ^ 32 }
      (¬ there ∨ refused → Leads event s s) ∧
      (there → ¬ refused → ¬ now → ∃ t, Leads event s t ∧ t = { s with budgets := t.budgets } ∧ budgetOf t die ctx = b') ∧
      (there → ¬ refused → now → b.prio = [] → b.gen = [] → ∃ t, Leads event s t ∧ t = { s with budgets := t.budgets } ∧
        budgetOf t die ctx = refilled b')) ∧
    (s.refills < s.time / 1000 → (s.budgets.map (·.1)).Nodup → ∃ t, Leads .pacerRefill s t ∧ t.refills = s.refills + 1 ∧
      t = { s with refills := t.refills, squads := t.squads, budgets := t.budgets } ∧
      (∀ k b, aget s.budgets k = some b → b.prio = [] → b.gen = [] → aget t.budgets k = some (refilled b)) ∧
      (∀ id q, squadOf s id = some q → (∀ e ∈ s.budgets, ∀ g ∈ e.2.prio ++ e.2.gen, g.1 ≠ id) →
        squadOf t id = some { q with ebudDeb := 0, wait := if q.wait = some .capped then none else q.wait }) ∧
      (∀ k b id u r q, aget s.budgets k = some b → b.prio = [] → b.gen = (id, u, true) :: r → u ≤ (refilled b).bud →
        squadOf s id = some q → (∀ e ∈ s.budgets, e.1 ≠ k → ∀ g ∈ e.2.prio ++ e.2.gen, g.1 ≠ id) → (∀ g ∈ r, g.1 ≠ id) →
        ∃ q', squadOf t id = some q' ∧ q'.wait = none ∧ q'.granted = true)) ∧
    (s.ready = true → ∀ link off data relaxed, data ≠ [] →
      let pa := wbaseOf s link + off
      let n := data.length
      let within : Prop := link < 2 ∧ off + n ≤ 2 ^ bar2Log s link
      let right (x : Nat) : Prop := ∀ k, k < n → populated (pa + k) = true ∧ hostRight s ((pa + k) / 2 ^ 37) link = x
      let behind : Prop := ∃ r ∈ s.hostHeld, r.link = link
      (∀ wr, behind ∨ hostDown s link off n wr = true → Leads (.hostBar2Access link off wr relaxed data) s
        { s with hostHeld := s.hostHeld ++ [⟨link, off, wr, relaxed, data, s.time, none⟩] }) ∧
      (¬ behind → within → right 3 → ∃ t, Leads (.hostBar2Access link off true relaxed data) s t ∧
        t = { s with mem := t.mem, tags := t.tags, hist := t.hist, dcache := t.dcache, active := t.active } ∧ BytesBut s t .mem pa n ∧
        ∀ k, k < n → rdByte t .mem (pa + k) = data.getD k 0) ∧
      (¬ behind → within → right 1 ∨ right 3 → ∃ (t : State) (m : Nat → Nat → Nat), Leads (.hostBar2Access link off false relaxed data) s t ∧
        (let bs := (granules pa n).flatMap fun e => bytesAsOf s .mem e.1 e.2 (m e.1 e.2)
        t = { s with hist := t.hist, dcache := t.dcache, active := t.active, replies := s.replies ++ [(link, some bs)] }) ∧
        (pa / 4096 = (pa + n - 1) / 4096 → ∀ e ∈ granules pa n, Sees s (whoLink link) .H (.bytes .mem e.1 e.2) (m e.1 e.2))) ∧
      (¬ behind → ¬ within ∨ right 0 → Leads (.hostBar2Access link off true relaxed data) s s ∧
        Leads (.hostBar2Access link off false relaxed data) s { s with replies := s.replies ++ [(link, none)] })) ∧
    (s.ready = true → ∀ dev pa,
      let right (n x : Nat) : Prop := populated pa = true ∧ populated (pa + n - 1) = true ∧ peerRight s (pa / 2 ^ 37) dev = x ∧
        peerRight s ((pa + n - 1) / 2 ^ 37) dev = x
      let told (op : PeerOp) (d : List Byte) (r : Option (List Byte)) (f : State → State → Prop) : Prop :=
        ∃ t, Leads (.peerAccessArrival dev pa op d) s t ∧ t.replies = s.replies ++ [(2 + dev, r)] ∧ f s t
      (∀ op d, right (peerSize d op) 0 → told op d none fun s t => t = { s with replies := t.replies }) ∧
      (∀ n acq, right n 1 ∨ right n 3 →
        (poisoned s .mem pa n = true → told (.read n acq) [] (some []) fun s t => t = { s with replies := t.replies }) ∧
        (poisoned s .mem pa n = false → ∃ bs, MayRead s (whoPeer dev) .H .mem pa n bs ∧ told (.read n acq) [] (some bs) fun s t =>
          t = { s with hist := t.hist, dcache := t.dcache, active := t.active, replies := t.replies })) ∧
      (∀ d rel, right d.length 1 → told (.write rel) d none fun s t => t = { s with replies := t.replies }) ∧
      (∀ d rel, right d.length 3 → told (.write rel) d (some []) fun s t => BytesBut s t .mem pa d.length ∧
        ∀ k, k < d.length → rdByte t .mem (pa + k) = d.getD k 0) ∧
      (∀ op wide so x, let n := if wide then 8 else 4
        right n 3 → poisoned s .mem pa n = false → told (.atomic op wide so x) [] (some (rdBytes s .mem pa n)) fun s t =>
          BytesBut s t .mem pa n ∧ rdN t .mem pa n = rmwRule op (8 * n) (rdN s .mem pa n) (x.toNat % 2 ^ (8 * n)) % 2 ^ (8 * n)) ∧
      (∀ wide so c x, let n := if wide then 8 else 4
        right n 3 → poisoned s .mem pa n = false → told (.cas wide so c x) [] (some (rdBytes s .mem pa n)) fun s t =>
          BytesBut s t .mem pa n ∧ rdN t .mem pa n =
            if rdN s .mem pa n = c.toNat % 2 ^ (8 * n) then x.toNat % 2 ^ (8 * n) else rdN s .mem pa n) ∧
      (right 64 1 ∨ right 64 3 → told .descRead [] (some (leBytes 2 (rdTag s .mem (pa / 64)).toNat)) fun s t =>
        t = { s with hist := t.hist, dcache := t.dcache, active := t.active, replies := t.replies }) ∧
      (∀ x, right 64 3 → told (.descWrite x) [] (some []) fun s t => SameBytes s t ∧ ∀ b, rdTag t .mem b =
        if b = pa / 64 then x else rdTag s .mem b)) ∧
    (s.ready = true → ∀ m ctx count vpn,
      (mayManage s m true = false ∨ (ctxOf s ctx).invBusy = true → Leads (.inval ⟨m, ctx⟩ count vpn) s s) ∧
      (mayManage s m true = true → (ctxOf s ctx).invBusy = false → ∃ t, Leads (.inval ⟨m, ctx⟩ count vpn) s t ∧
        CtxBut s t ctx fun c => { c with invBusy := true, invCount := count % 2 ^ 27, invVpn := vpn % 2 ^ 36 })) ∧
    (∀ ctx, (ctxOf s ctx).invBusy = true → ∃ t, Leads (.invalidationComplete ctx) s t ∧ (ctxOf t ctx).invBusy = false ∧
      ∀ e, e ∈ t.tlb ↔ e ∈ s.tlb ∧ ¬ (e.ctx = ctx ∧ ((ctxOf s ctx).invCount = 0 ∨
        ((ctxOf s ctx).invVpn ≤ e.page ∧ e.page < (ctxOf s ctx).invVpn + (ctxOf s ctx).invCount))))

/-- Where the registers of BAR 0 stand (R400, R401, R405-R412, R416), and the doorbells of BAR 4: an access by offset is the access to the
register there. -/
def Sys2Proof.Machine.LayoutRule (s : State) (m : Option Nat) : Prop :=
  (∀ c o, c < 64 → o < 256 → regAt (0x1000 + 256 * c + o) = some (.ctxEntry c, o)) ∧
  (∀ d c o, d < 8 → c < 64 → o < 16 → regAt (0x5000 + 16 * (64 * d + c) + o) = some (.pacer d c, o)) ∧
  (∀ k o, k < 64 → o < 64 → regAt (0x7000 + 64 * k + o) = some (.channel k, o)) ∧
  (∀ o, o < 8 → regAt (0x8000 + o) = some (.frameTeams, o)) ∧
  (∀ n o, n < 224 → o < 8 → regAt (0x9000 + 8 * n + o) = some (.peerWindow n, o)) ∧
  (∀ g o, g < 16 → o < 1024 → regAt (0xA000 + 1024 * g + o) = some (.accessTable g, o)) ∧
  (∀ c o, c < 1024 → o < 8 → regAt (0x10000 + 8 * c + o) = some (.debug c, o)) ∧
  (∀ o, o < 8 → regAt (0x12000 + o) = some (.readbackSelect, o)) ∧
  (∀ c, c < 64 → doorbellAt (4096 * c) = some c) ∧
  (∀ o n, s.powered = true → mayManage s m false = true → n ≤ 4096 → o + n ≤ 2 ^ 26 → ∃ t bs,
    Leads (.managementWrite ⟨m, .readAt o n⟩) s t ∧
    t = { s with hist := t.hist, dcache := t.dcache, active := t.active, replies := s.replies ++ [(m.getD 2050, some bs)] } ∧ bs.length = n ∧
    ∀ k r i, k < n → ¬ (0xF400 ≤ o + k ∧ o + k < 0xF420) → o + k < 0x1000000 → regAt (o + k) = some (r, i) →
      bs.getD k 0 = (regBytes s r).getD i 0) ∧
  (∀ c x, s.powered = true → mayManage s m true = true → c < 64 →
    ∀ e ∈ [(0, MgmtOp.ctxPtroot c x), (8, .ctxFlags c x), (16, .ctxFbctl c x), (24, .ctxSqbase c x), (48, .ctxTrapovl c x),
      (56, .ctxEqbase c x)],
    ∃ t, Leads (.managementWrite ⟨m, .writeAt (0x1000 + 256 * c + e.1) 8 x⟩) s t ∧ Leads (.managementWrite ⟨m, e.2⟩) s t) ∧
  ∀ c x, c < 64 → s.hostHeld = [] → ∃ t, Leads (.managementWrite ⟨m, .bar4 (4096 * c) x⟩) s t ∧ Leads (.doorbell c x.toNat) s t

/-- The management space (R400, R401, R405-R412): a master without the right changes nothing and gets an unsupported request; the
registers that are written and read, the debugger (R151, R155, R408) and the attestation report (R420). That a BAR 2 size outside 1 GiB
to 1 TiB, or an EQLOG2 or SQLOG2 out of range, leaves its register is log 77 (DEDUCED); the host's accesses for residency bits and
the epoch are log 124 (DESIGN CHOICE). -/
def Obligations.ManagementEvents : Prop :=
  ∀ (s : State) (m : Option Nat), s.ready = true →
    (mayManage s m true = false → ∀ w, (∀ r, w ≠ .read r) → (∀ o n, w ≠ .readAt o n) → (∀ o x, w ≠ .bar4 o x) →
      Leads (.managementWrite ⟨m, w⟩) s s) ∧
    (∀ r, s.powered = true → mayManage s m false = false → identityReg r = false →
      Leads (.managementWrite ⟨m, .read r⟩) s { s with replies := s.replies ++ [(m.getD 2050, none)] }) ∧
    (∀ r, s.powered = true → mayManage s m false = true ∨ identityReg r = true → ∃ t, Leads (.managementWrite ⟨m, .read r⟩) s t ∧
      t = { s with hist := t.hist, dcache := t.dcache, active := t.active, replies := s.replies ++ [(m.getD 2050, some (regBytes s r))] }) ∧
    LayoutRule s m ∧
    (regBytes s .ready = leBytes 8 1 ∧ regBytes s .dev = leBytes 8 s.dev ∧ regBytes s .frameTeams = leBytes 8 s.teams.toNat ∧
      (∀ k, regBytes s (.epoch k) = leBytes 4 (ctxOf s k).epoch ∧ regBytes s (.done k) = leBytes 4 (ctxOf s k).done) ∧
      ∀ k, leVal (regBytes s (.debug k)) / 2 % 2 = if halted s k then 1 else 0) ∧
    (mayManage s m true = true →
      (∀ w ctx k, ctxWritten (ctxOf s ctx) w = some (ctx, k) → ctx < 64 → ctxLive s ctx = false → ∃ t,
        Leads (.managementWrite ⟨m, w⟩) s t ∧ ctxOf t ctx = k ∧ (∀ c, c ≠ ctx → ctxOf t c = ctxOf s c) ∧
        t = { s with ctxs := t.ctxs, devFixed := t.devFixed }) ∧
      (∀ ctx x, ctx < 64 → ctxLive s ctx = true → ∃ t, Leads (.managementWrite ⟨m, .ctxFlags ctx x⟩) s t ∧
        (ctxOf t ctx).cflags.getLsbD 0 = (ctxOf s ctx).cflags.getLsbD 0 ∧
        Leads (.managementWrite ⟨m, .ctxPtroot ctx x⟩) s s ∧ Leads (.managementWrite ⟨m, .ctxSqbase ctx x⟩) s s) ∧
      (∀ ctx x, ctx < 64 →
        (x ≤ 16 → ∃ t, Leads (.managementWrite ⟨m, .ctxSqlog2 ctx x⟩) s t ∧ CtxBut s t ctx fun k => { k with sqlog2 := x }) ∧
        (4 ≤ x → x ≤ 16 → ∃ t, Leads (.managementWrite ⟨m, .ctxEqlog2 ctx x⟩) s t ∧ CtxBut s t ctx fun k => { k with eqlog2 := x }) ∧
        ∃ t, Leads (.managementWrite ⟨m, .epochBump ctx⟩) s t ∧
          CtxBut { s with hist := t.hist, dcache := t.dcache, active := t.active } t ctx fun k => { k with epoch := k.epoch + 1 }) ∧
      (∀ ctx va bit v sp a, ctx < 64 → translate s ctx va true = .ok (sp, a) →
        ∃ t, Leads (.managementWrite ⟨m, .rmapBit ctx va bit v⟩) s t ∧ BytesBut s t sp a 1 ∧
          (rdByte t sp a).getLsbD (bit % 8) = v ∧ ∀ k, k < 8 → k ≠ bit % 8 → (rdByte t sp a).getLsbD k = (rdByte s sp a).getLsbD k) ∧
      (∀ x, Leads (.managementWrite ⟨m, .dev x⟩) s (if s.devFixed then s else { s with dev := x % 2048 })) ∧
      (∀ l x, l < 2 → ∃ t, Leads (.managementWrite ⟨m, .wbase l x⟩) s t ∧ t = { s with wbase := t.wbase } ∧
        ∀ k, wbaseOf t k = if k = l then (if bar2Log s l = 40 then 0 else x / 2 ^ bar2Log s l * 2 ^ bar2Log s l) else wbaseOf s k) ∧
      (∀ l z, l < 2 → ∃ t, Leads (.managementWrite ⟨m, .bar2 l z⟩) s t ∧ t = { s with bar2 := t.bar2 } ∧
        ∀ k, bar2Log t k = if k = l ∧ 30 ≤ z ∧ z ≤ 40 then z else bar2Log s k) ∧
      (∀ g l a, g ≤ 8 → l < 2 → ∃ t, Leads (.managementWrite ⟨m, .accessHost g l a⟩) s t ∧ t = { s with hostAcc := t.hostAcc } ∧
        hostRight t g l = if a % 4 = 2 then 0 else a % 4) ∧
      (∀ g d a, g ≤ 8 → d < 2048 → ∃ t, Leads (.managementWrite ⟨m, .accessPeer g d a⟩) s t ∧ t = { s with peerAcc := t.peerAcc } ∧
        peerRight t g d = if a % 4 = 2 then 0 else a % 4) ∧
      (∀ core, ∃ t, Leads (.debugStop ⟨m, core⟩) s t ∧ t = { s with debug := t.debug } ∧ stopped t core = true ∧
        ∀ c, c ≠ core → debugOf t c = debugOf s c) ∧
      (∀ core, core < 1024 → ∃ t, Leads (.managementWrite ⟨m, .debugClear core⟩) s t ∧ stopped t core = false ∧
        ∀ id q, squadOf s id = some q → squadOf t id = some
          (if q.core = core ∧ q.wait = some .debugger then { q with wait := none } else q)) ∧
      (∀ core slot id q p, slotSquad s core slot = some (id, q) → squadOf s id = some q → slot < 128 →
        (debugOf s core).getLsbD 47 = false → runningPath q = some p →
        (halted s core = true → ∃ t, Leads (.debugStep ⟨m, core⟩ slot) s t ∧ t.agenda = .issue id :: s.agenda ∧
          SquadsBut s t id fun q => { q with wait := if q.wait = some .debugger then none else q.wait, select := some p.entry }) ∧
        (halted s core = false → ∃ t, Leads (.debugStep ⟨m, core⟩ slot) s t ∧ t = { s with debug := t.debug })) ∧
      (∀ u x, selected s u = false ∨ halted s (selectCore s) = false → Leads (.readbackWrite ⟨m, u⟩ x) s s) ∧
      (∀ id q r u x, squadOf s id = some q → selectCore s = q.core → halted s q.core = true → r < 256 → u < 32 → ∃ t,
        Leads (.readbackWrite ⟨m, .vreg id r u⟩ x) s t ∧
        t = { s with squads := t.squads } ∧ ∃ q', squadOf t id = some q' ∧ ∀ r' u', u' < 32 →
          rdV q' r' u' = if r' = r ∧ u' = u then BitVec.ofNat 32 x.toNat else rdV q r' u') ∧
      (∀ nonce, ∃ t, Leads (.attestationRequest ⟨m, nonce⟩) s t ∧ t = { s with nonce := nonce, report := t.report } ∧
        t.report.length = 544 ∧
        let part (a n : Nat) : Nat := leVal ((t.report.drop a).take n)
        part 0 4 = 0x53545441 ∧ part 4 4 = 1 ∧ part 8 32 = nonce.toNat ∧ part 40 32 = Config.identityDigest.toNat ∧
          part 136 8 = (firmwareOf s s.running).version % 2 ^ 64 ∧ part 144 8 = s.dev % 2 ^ 64 ∧ part 152 8 = s.time % 2 ^ 64))

/-- Ports (R403, R409, R410, R415), timebase (R412), ageing, heat and boot (R416-R419). That a step of `%time` takes the whole offset, and
moves the moments from which a time is counted, is log 82 (DEDUCED); what survives a shutdown log 80 (DEDUCED); that a neighbour
is lost once log 95 (DESIGN CHOICE); the ports up at boot and the form of a key log 79 (PRESUMED); LOCKED at 30 ns log 100 (DEDUCED). -/
def Obligations.DeviceEvents : Prop :=
  ∀ (s : State) (n : Nat),
    let p := portOf s n
    (p.up = true →
      (p.fails < 8 →
        (∀ beat, Leads (.flitReceive n true beat) s
          (PortBut s n fun p => { p with fails := 0, lastFlit := s.time, lastBeat := if beat then s.time else p.lastBeat })) ∧
        (∀ beat, Leads (.flitReceive n false beat) s (PortBut s n fun p => { p with fails := p.fails + 1 }))) ∧
      (8 ≤ p.fails → ∀ ok beat bad, Leads (.flitReceive n ok beat) s s ∧
        Leads (.portRetrain n bad) s (PortBut s n fun p => { p with fails := 0, lanes := if bad then 4 else p.lanes })) ∧
      (p.lastFlit + 1000000 ≤ s.time → ∃ t, Leads (.portDown n) s t ∧ Told (PortBut s n fun p => { p with up := false }) t 3 n) ∧
      (p.sentBeat + 50000 ≤ s.time → Leads (.heartbeatSend n) s (PortBut s n fun p => { p with sentBeat := s.time })) ∧
      (p.lost = false → p.lastBeat + 200000 ≤ s.time → ∃ t, Leads (.heartbeatLoss n) s t ∧
        Told (PortBut s n fun p => { p with lost := true }) t 3 n)) ∧
    (p.up = false → ∀ ok beat, Leads (.flitReceive n ok beat) s s) ∧
    (∀ dev, ∃ t, Leads (.hotPlugJoin dev) s t ∧
      t = PortBut { s with engWaits := t.engWaits } (Config.routeOf dev) (fun _ => ⟨true, 8, 0, s.time, s.time, s.time, false⟩) ∧
      ∀ e, e ∈ t.engWaits ↔ e ∈ s.engWaits ∧ waitedOut s e.1 = true) ∧
    (∀ off,
      let follows' : Prop := s.timebase.root ≠ s.dev ∧ (portOf s s.timebase.port).up = true
      (¬ follows' → Leads (.timebaseSync off) s s) ∧
      (follows' → ∃ t, Leads (.timebaseSync off) s t ∧
        let jump := t.time - s.time
        t.time = s.time + jump ∧
        t = { s with
          time := t.time
          timebase := { s.timebase with
            locked := decide ((off - jump).natAbs ≤ 30), lost := false, lastSync := t.time, slew := off - jump }
          ports := t.ports, squads := t.squads, engWaits := t.engWaits, hostHeld := t.hostHeld, forwards := t.forwards
          nodes := t.nodes, tasks := t.tasks, ctxs := t.ctxs, refresh := t.refresh, active := t.active } ∧
        (∀ k p, aget s.ports k = some p → aget t.ports k = some
          { p with lastFlit := p.lastFlit + jump, lastBeat := p.lastBeat + jump, sentBeat := p.sentBeat + jump }) ∧
        (∀ id q, squadOf s id = some q → ∃ w, squadOf t id = some { q with wait := w }) ∧
        ((∀ e ∈ s.channels, chEn e.2 = false) → jump = off.toNat) ∧ ((∃ e ∈ s.channels, chEn e.2 = true) → jump = 0))) ∧
    (s.timebase.root ≠ s.dev → s.timebase.lost = false → s.timebase.lastSync + 100000 ≤ s.time → ∃ t, Leads .timebaseHoldover s t ∧
      Told { s with timebase := { s.timebase with lost := true, locked := false } } t 4 0) ∧
    (∀ k c w e,
      let x : BitVec 64 := BitVec.ofNat 64 (c % 256 * 2 ^ 40 + w % 256 * 2 ^ 32 + e % 2 ^ 32)
      let s1 := { s with ageing := tset 0xFFFFFFFF s.ageing k x }
      (24 ≤ k → Leads (.ageingUpdate k c w e) s s) ∧
      (k < 24 → 2000 ≤ e % 2 ^ 32 ∨ k ∈ s.aged → Leads (.ageingUpdate k c w e) s s1) ∧
      (k < 24 → e % 2 ^ 32 < 2000 → k ∉ s.aged →
        ∃ t, Leads (.ageingUpdate k c w e) s t ∧ Told { s1 with aged := s.aged ++ [k] } t 5 0)) ∧
    Leads (.thermalThrottle true) s { s with mhz := max 1800 (s.mhz - 100) } ∧
    Leads (.thermalThrottle false) s { s with mhz := min 3600 (s.mhz + 100) } ∧
    (∃ t, Leads .thermalShutdown s t ∧ t.powered = false ∧ t.ready = false ∧ t.squads = [] ∧ t.tasks = [] ∧ t.mem = [] ∧
      t.ageing = [] ∧ t.firmware = s.firmware ∧ t.fusedVersion = s.fusedVersion) ∧
    (∀ k, bootSlot s = some k → ∃ t, Leads .deviceResetBoot s t ∧ t.ready = true ∧ t.powered = true ∧ t.running = k ∧ t.squads = [] ∧
      t.tasks = [] ∧ t.graphs = [] ∧ t.budgets = [] ∧ t.ctxs = [] ∧ t.channels = [] ∧ t.time = 0 ∧ t.mem = [] ∧
      t.ageing = [] ∧ (∀ i, ageingOf t i = 0xFFFFFFFF) ∧ ∀ m, m < 16 → portOf t m = ⟨true, 8, 0, 0, 0, 0, false⟩) ∧
    (bootSlot s = none → ∃ t, Leads .deviceResetBoot s t ∧ t.ready = false) ∧
    (∀ k v img key sig,
      let f : Firmware := ⟨img, key, sig, v, true, true⟩
      let good : Prop := k < 2 ∧ k ≠ s.running ∧ s.fusedVersion ≤ v ∧ sha256 key = Config.fusedKeyHash ∧
        pssVerify (beVal (key.take 384)) (beVal (key.drop 384)) (img ++ leBytes 8 v) sig = true
      (good → Leads (.firmwareUpdate k v ⟨img, key, sig⟩) s { s with firmware := aput s.firmware k f }) ∧
      (¬ good → Leads (.firmwareUpdate k v ⟨img, key, sig⟩) s s))
end

