-- ==== Sys2Proof/Laws/Tbl.lean ====
section
/-! SUPPORT. The sparse stores: a read after a write, and the canonical form that every write keeps. -/

namespace Sys2Proof.Machine

variable {α : Type}

@[simp] theorem aget_nil (i : Nat) : aget ([] : Assoc α) i = none := rfl

theorem aget_aput (m : Assoc α) (i j : Nat) (v : α) : aget (aput m i v) j = if i = j then some v else aget m j := by
  induction m with
  | nil => simp [aput, aget]
  | cons e r ih =>
    obtain ⟨k, w⟩ := e
    simp only [aput]
    split
    · simp [aget]
    · split
      · subst k; simp only [aget]; split <;> simp_all
      · simp only [aget, ih]; split <;> split <;> simp_all

@[simp] theorem aget_aput_same (m : Assoc α) (i : Nat) (v : α) : aget (aput m i v) i = some v := by simp [aget_aput]
@[simp] theorem aget_aput_ne (m : Assoc α) {i j : Nat} (v : α) (h : j ≠ i) : aget (aput m i v) j = aget m j := by
  simp [aget_aput, Ne.symm h]

theorem aget_adel (m : Assoc α) (i j : Nat) : aget (adel m i) j = if i = j then none else aget m j := by
  induction m with
  | nil => simp [adel]
  | cons e r ih =>
    obtain ⟨k, w⟩ := e
    simp only [adel, aget]
    split
    · subst k; rw [ih]; split <;> simp_all
    · simp only [aget, ih]; split <;> split <;> simp_all

@[simp] theorem aget_adel_same (m : Assoc α) (i : Nat) : aget (adel m i) i = none := by simp [aget_adel]
@[simp] theorem aget_adel_ne (m : Assoc α) {i j : Nat} (h : j ≠ i) : aget (adel m i) j = aget m j := by
  simp [aget_adel, Ne.symm h]

theorem aget_amod (m : Assoc α) (i j : Nat) (f : α → α) :
    aget (amod m i f) j = if i = j then (aget m j).map f else aget m j := by
  unfold amod
  split
  · rename_i v hv
    rw [aget_aput]; split
    · subst j; simp [hv]
    · rfl
  · rename_i hv; split
    · subst j; simp [hv]
    · rfl

@[simp] theorem aget_amod_same (m : Assoc α) (i : Nat) (f : α → α) : aget (amod m i f) i = (aget m i).map f := by
  simp [aget_amod]
@[simp] theorem aget_amod_ne (m : Assoc α) {i j : Nat} (f : α → α) (h : j ≠ i) : aget (amod m i f) j = aget m j := by
  simp [aget_amod, Ne.symm h]

/-- A table reads back what was written, and elsewhere what it held. -/
theorem tget_tset [DecidableEq α] (d : α) (m : Tbl α) (i j : Nat) (v : α) :
    tget d (tset d m i v) j = if i = j then v else tget d m j := by
  unfold tget tset
  split
  · rw [aget_adel]; split <;> simp_all
  · rw [aget_aput]; split <;> simp_all

@[simp] theorem tget_tset_same [DecidableEq α] (d : α) (m : Tbl α) (i : Nat) (v : α) :
    tget d (tset d m i v) i = v := by simp [tget_tset]
@[simp] theorem tget_tset_ne [DecidableEq α] (d : α) (m : Tbl α) {i j : Nat} (v : α) (h : j ≠ i) :
    tget d (tset d m i v) j = tget d m j := by simp [tget_tset, Ne.symm h]

/-! ### The canonical form -/

/-- Every key of a list whose keys rise from a first one lies above it. -/
theorem keysRise_cons (k : Nat) (w : α) (r : Assoc α) :
    keysRise ((k, w) :: r) = true ↔ (∀ e ∈ r, k < e.1) ∧ keysRise r = true := by
  induction r generalizing k w with
  | nil => simp [keysRise]
  | cons e r ih =>
    obtain ⟨k', w'⟩ := e
    simp only [keysRise, Bool.and_eq_true, decide_eq_true_eq, List.mem_cons, forall_eq_or_imp]
    constructor
    · rintro ⟨h, hr⟩
      refine ⟨⟨h, fun e he => Nat.lt_trans h (((ih k' w').1 hr).1 e he)⟩, hr⟩
    · rintro ⟨⟨h, _⟩, hr⟩
      exact ⟨h, hr⟩

theorem mem_aput {m : Assoc α} {i : Nat} {v : α} {e : Nat × α} (h : e ∈ aput m i v) : e = (i, v) ∨ e ∈ m := by
  induction m with
  | nil => simpa [aput] using h
  | cons a r ih =>
    obtain ⟨k, w⟩ := a
    simp only [aput] at h
    split at h
    · simpa using h
    · split at h
      · simp only [List.mem_cons] at h ⊢; tauto
      · simp only [List.mem_cons] at h ⊢
        rcases h with h | h
        · tauto
        · rcases ih h with h | h <;> tauto

theorem mem_adel {m : Assoc α} {i : Nat} {e : Nat × α} (h : e ∈ adel m i) : e ∈ m := by
  induction m with
  | nil => simp [adel] at h
  | cons a r ih =>
    obtain ⟨k, w⟩ := a
    simp only [adel] at h
    split at h
    · exact List.mem_cons_of_mem _ (ih h)
    · simp only [List.mem_cons] at h ⊢
      rcases h with h | h
      · exact .inl h
      · exact .inr (ih h)

theorem keysRise_aput (m : Assoc α) (i : Nat) (v : α) (h : keysRise m = true) : keysRise (aput m i v) = true := by
  induction m with
  | nil => simp [aput, keysRise]
  | cons a r ih =>
    obtain ⟨k, w⟩ := a
    have hr := (keysRise_cons k w r).1 h
    simp only [aput]
    split
    · rename_i hik
      refine (keysRise_cons i v _).2 ⟨fun e he => ?_, h⟩
      rcases List.mem_cons.1 he with rfl | he
      · exact hik
      · exact Nat.lt_trans hik (hr.1 e he)
    · split
      · rename_i hk; subst hk
        exact (keysRise_cons _ _ _).2 hr
      · rename_i h1 h2
        refine (keysRise_cons k w _).2 ⟨fun e he => ?_, ih hr.2⟩
        rcases mem_aput he with rfl | he
        · show k < i; omega
        · exact hr.1 e he

theorem keysRise_adel (m : Assoc α) (i : Nat) (h : keysRise m = true) : keysRise (adel m i) = true := by
  induction m with
  | nil => simp [adel, keysRise]
  | cons a r ih =>
    obtain ⟨k, w⟩ := a
    have hr := (keysRise_cons k w r).1 h
    simp only [adel]
    split
    · exact ih hr.2
    · exact (keysRise_cons k w _).2 ⟨fun e he => hr.1 e (mem_adel he), ih hr.2⟩

/-- Every write to a table keeps its canonical form. -/
theorem Tbl.wf_tset [DecidableEq α] (d : α) (m : Tbl α) (i : Nat) (v : α) (h : Tbl.wf d m = true) :
    Tbl.wf d (tset d m i v) = true := by
  simp only [Tbl.wf, Bool.and_eq_true, List.all_eq_true, decide_eq_true_eq] at h ⊢
  unfold tset
  split
  · exact ⟨keysRise_adel m i h.1, fun e he => h.2 e (mem_adel he)⟩
  · rename_i hv
    refine ⟨keysRise_aput m i v h.1, fun e he => ?_⟩
    rcases mem_aput he with rfl | he
    · exact hv
    · exact h.2 e he

end Sys2Proof.Machine
end

