-- ==== Sys2Proof/Laws/State.lean ====
section
/-! SUPPORT. What the shared updates of the state change, field by field. -/

namespace Sys2Proof.Machine

variable (s : State)

/-! ### `modSquad` -/

@[simp] theorem modSquad_squads (i : Nat) (f : Squad → Squad) : (modSquad s i f).squads = amod s.squads i f := rfl
@[simp] theorem modSquad_tasks (i : Nat) (f : Squad → Squad) : (modSquad s i f).tasks = s.tasks := rfl
@[simp] theorem modSquad_nodes (i : Nat) (f : Squad → Squad) : (modSquad s i f).nodes = s.nodes := rfl
@[simp] theorem modSquad_graphs (i : Nat) (f : Squad → Squad) : (modSquad s i f).graphs = s.graphs := rfl
@[simp] theorem modSquad_spawns (i : Nat) (f : Squad → Squad) : (modSquad s i f).spawns = s.spawns := rfl
@[simp] theorem modSquad_scr (i : Nat) (f : Squad → Squad) : (modSquad s i f).scr = s.scr := rfl
@[simp] theorem modSquad_scrTag (i : Nat) (f : Squad → Squad) : (modSquad s i f).scrTag = s.scrTag := rfl
@[simp] theorem modSquad_slotMem (i : Nat) (f : Squad → Squad) : (modSquad s i f).slotMem = s.slotMem := rfl
@[simp] theorem modSquad_sidecar (i : Nat) (f : Squad → Squad) : (modSquad s i f).sidecar = s.sidecar := rfl
@[simp] theorem modSquad_ext (i : Nat) (f : Squad → Squad) : (modSquad s i f).ext = s.ext := rfl
@[simp] theorem modSquad_slotWaits (i : Nat) (f : Squad → Squad) : (modSquad s i f).slotWaits = s.slotWaits := rfl
@[simp] theorem modSquad_acc (i : Nat) (f : Squad → Squad) : (modSquad s i f).acc = s.acc := rfl
@[simp] theorem modSquad_accFlg (i : Nat) (f : Squad → Squad) : (modSquad s i f).accFlg = s.accFlg := rfl
@[simp] theorem modSquad_imem (i : Nat) (f : Squad → Squad) : (modSquad s i f).imem = s.imem := rfl
@[simp] theorem modSquad_banks (i : Nat) (f : Squad → Squad) : (modSquad s i f).banks = s.banks := rfl
@[simp] theorem modSquad_matQueue (i : Nat) (f : Squad → Squad) : (modSquad s i f).matQueue = s.matQueue := rfl
@[simp] theorem modSquad_matInbox (i : Nat) (f : Squad → Squad) : (modSquad s i f).matInbox = s.matInbox := rfl
@[simp] theorem modSquad_staged (i : Nat) (f : Squad → Squad) : (modSquad s i f).staged = s.staged := rfl
@[simp] theorem modSquad_cong (i : Nat) (f : Squad → Squad) : (modSquad s i f).cong = s.cong := rfl
@[simp] theorem modSquad_debug (i : Nat) (f : Squad → Squad) : (modSquad s i f).debug = s.debug := rfl
@[simp] theorem modSquad_zown (i : Nat) (f : Squad → Squad) : (modSquad s i f).zown = s.zown := rfl
@[simp] theorem modSquad_spans (i : Nat) (f : Squad → Squad) : (modSquad s i f).spans = s.spans := rfl
@[simp] theorem modSquad_spanLast (i : Nat) (f : Squad → Squad) : (modSquad s i f).spanLast = s.spanLast := rfl
@[simp] theorem modSquad_lanes (i : Nat) (f : Squad → Squad) : (modSquad s i f).lanes = s.lanes := rfl
@[simp] theorem modSquad_copies (i : Nat) (f : Squad → Squad) : (modSquad s i f).copies = s.copies := rfl
@[simp] theorem modSquad_lfCmds (i : Nat) (f : Squad → Squad) : (modSquad s i f).lfCmds = s.lfCmds := rfl
@[simp] theorem modSquad_budgets (i : Nat) (f : Squad → Squad) : (modSquad s i f).budgets = s.budgets := rfl
@[simp] theorem modSquad_stats (i : Nat) (f : Squad → Squad) : (modSquad s i f).stats = s.stats := rfl
@[simp] theorem modSquad_refresh (i : Nat) (f : Squad → Squad) : (modSquad s i f).refresh = s.refresh := rfl
@[simp] theorem modSquad_active (i : Nat) (f : Squad → Squad) : (modSquad s i f).active = s.active := rfl
@[simp] theorem modSquad_corrected (i : Nat) (f : Squad → Squad) : (modSquad s i f).corrected = s.corrected := rfl
@[simp] theorem modSquad_dcache (i : Nat) (f : Squad → Squad) : (modSquad s i f).dcache = s.dcache := rfl
@[simp] theorem modSquad_mem (i : Nat) (f : Squad → Squad) : (modSquad s i f).mem = s.mem := rfl
@[simp] theorem modSquad_tags (i : Nat) (f : Squad → Squad) : (modSquad s i f).tags = s.tags := rfl
@[simp] theorem modSquad_peer (i : Nat) (f : Squad → Squad) : (modSquad s i f).peer = s.peer := rfl
@[simp] theorem modSquad_peerTag (i : Nat) (f : Squad → Squad) : (modSquad s i f).peerTag = s.peerTag := rfl
@[simp] theorem modSquad_tlb (i : Nat) (f : Squad → Squad) : (modSquad s i f).tlb = s.tlb := rfl
@[simp] theorem modSquad_bars (i : Nat) (f : Squad → Squad) : (modSquad s i f).bars = s.bars := rfl
@[simp] theorem modSquad_barsScr (i : Nat) (f : Squad → Squad) : (modSquad s i f).barsScr = s.barsScr := rfl
@[simp] theorem modSquad_arrivals (i : Nat) (f : Squad → Squad) : (modSquad s i f).arrivals = s.arrivals := rfl
@[simp] theorem modSquad_qWaits (i : Nat) (f : Squad → Squad) : (modSquad s i f).qWaits = s.qWaits := rfl
@[simp] theorem modSquad_queues (i : Nat) (f : Squad → Squad) : (modSquad s i f).queues = s.queues := rfl
@[simp] theorem modSquad_forwards (i : Nat) (f : Squad → Squad) : (modSquad s i f).forwards = s.forwards := rfl
@[simp] theorem modSquad_engWaits (i : Nat) (f : Squad → Squad) : (modSquad s i f).engWaits = s.engWaits := rfl
@[simp] theorem modSquad_hostHeld (i : Nat) (f : Squad → Squad) : (modSquad s i f).hostHeld = s.hostHeld := rfl
@[simp] theorem modSquad_ctxs (i : Nat) (f : Squad → Squad) : (modSquad s i f).ctxs = s.ctxs := rfl
@[simp] theorem modSquad_channels (i : Nat) (f : Squad → Squad) : (modSquad s i f).channels = s.channels := rfl
@[simp] theorem modSquad_ports (i : Nat) (f : Squad → Squad) : (modSquad s i f).ports = s.ports := rfl
@[simp] theorem modSquad_timebase (i : Nat) (f : Squad → Squad) : (modSquad s i f).timebase = s.timebase := rfl
@[simp] theorem modSquad_time (i : Nat) (f : Squad → Squad) : (modSquad s i f).time = s.time := rfl
@[simp] theorem modSquad_clock (i : Nat) (f : Squad → Squad) : (modSquad s i f).clock = s.clock := rfl
@[simp] theorem modSquad_clockRem (i : Nat) (f : Squad → Squad) : (modSquad s i f).clockRem = s.clockRem := rfl
@[simp] theorem modSquad_mhz (i : Nat) (f : Squad → Squad) : (modSquad s i f).mhz = s.mhz := rfl
@[simp] theorem modSquad_dev (i : Nat) (f : Squad → Squad) : (modSquad s i f).dev = s.dev := rfl
@[simp] theorem modSquad_devFixed (i : Nat) (f : Squad → Squad) : (modSquad s i f).devFixed = s.devFixed := rfl
@[simp] theorem modSquad_wbase (i : Nat) (f : Squad → Squad) : (modSquad s i f).wbase = s.wbase := rfl
@[simp] theorem modSquad_bar2 (i : Nat) (f : Squad → Squad) : (modSquad s i f).bar2 = s.bar2 := rfl
@[simp] theorem modSquad_teams (i : Nat) (f : Squad → Squad) : (modSquad s i f).teams = s.teams := rfl
@[simp] theorem modSquad_windows (i : Nat) (f : Squad → Squad) : (modSquad s i f).windows = s.windows := rfl
@[simp] theorem modSquad_hostAcc (i : Nat) (f : Squad → Squad) : (modSquad s i f).hostAcc = s.hostAcc := rfl
@[simp] theorem modSquad_peerAcc (i : Nat) (f : Squad → Squad) : (modSquad s i f).peerAcc = s.peerAcc := rfl
@[simp] theorem modSquad_readback (i : Nat) (f : Squad → Squad) : (modSquad s i f).readback = s.readback := rfl
@[simp] theorem modSquad_ageing (i : Nat) (f : Squad → Squad) : (modSquad s i f).ageing = s.ageing := rfl
@[simp] theorem modSquad_aged (i : Nat) (f : Squad → Squad) : (modSquad s i f).aged = s.aged := rfl
@[simp] theorem modSquad_firmware (i : Nat) (f : Squad → Squad) : (modSquad s i f).firmware = s.firmware := rfl
@[simp] theorem modSquad_running (i : Nat) (f : Squad → Squad) : (modSquad s i f).running = s.running := rfl
@[simp] theorem modSquad_fusedVersion (i : Nat) (f : Squad → Squad) : (modSquad s i f).fusedVersion = s.fusedVersion := rfl
@[simp] theorem modSquad_ready (i : Nat) (f : Squad → Squad) : (modSquad s i f).ready = s.ready := rfl
@[simp] theorem modSquad_powered (i : Nat) (f : Squad → Squad) : (modSquad s i f).powered = s.powered := rfl
@[simp] theorem modSquad_nonce (i : Nat) (f : Squad → Squad) : (modSquad s i f).nonce = s.nonce := rfl
@[simp] theorem modSquad_report (i : Nat) (f : Squad → Squad) : (modSquad s i f).report = s.report := rfl
@[simp] theorem modSquad_refills (i : Nat) (f : Squad → Squad) : (modSquad s i f).refills = s.refills := rfl
@[simp] theorem modSquad_debugger (i : Nat) (f : Squad → Squad) : (modSquad s i f).debugger = s.debugger := rfl
@[simp] theorem modSquad_replies (i : Nat) (f : Squad → Squad) : (modSquad s i f).replies = s.replies := rfl
@[simp] theorem modSquad_msix (i : Nat) (f : Squad → Squad) : (modSquad s i f).msix = s.msix := rfl
@[simp] theorem modSquad_cur (i : Nat) (f : Squad → Squad) : (modSquad s i f).cur = s.cur := rfl
@[simp] theorem modSquad_agenda (i : Nat) (f : Squad → Squad) : (modSquad s i f).agenda = s.agenda := rfl
@[simp] theorem modSquad_ctr (i : Nat) (f : Squad → Squad) : (modSquad s i f).ctr = s.ctr := rfl
@[simp] theorem modSquad_nextId (i : Nat) (f : Squad → Squad) : (modSquad s i f).nextId = s.nextId := rfl
@[simp] theorem modSquad_hist (i : Nat) (f : Squad → Squad) : (modSquad s i f).hist = s.hist := rfl

/-! ### `modTask` -/

@[simp] theorem modTask_squads (i : Nat) (f : Task → Task) : (modTask s i f).squads = s.squads := rfl
@[simp] theorem modTask_tasks (i : Nat) (f : Task → Task) : (modTask s i f).tasks = amod s.tasks i f := rfl
@[simp] theorem modTask_nodes (i : Nat) (f : Task → Task) : (modTask s i f).nodes = s.nodes := rfl
@[simp] theorem modTask_graphs (i : Nat) (f : Task → Task) : (modTask s i f).graphs = s.graphs := rfl
@[simp] theorem modTask_spawns (i : Nat) (f : Task → Task) : (modTask s i f).spawns = s.spawns := rfl
@[simp] theorem modTask_scr (i : Nat) (f : Task → Task) : (modTask s i f).scr = s.scr := rfl
@[simp] theorem modTask_scrTag (i : Nat) (f : Task → Task) : (modTask s i f).scrTag = s.scrTag := rfl
@[simp] theorem modTask_slotMem (i : Nat) (f : Task → Task) : (modTask s i f).slotMem = s.slotMem := rfl
@[simp] theorem modTask_sidecar (i : Nat) (f : Task → Task) : (modTask s i f).sidecar = s.sidecar := rfl
@[simp] theorem modTask_ext (i : Nat) (f : Task → Task) : (modTask s i f).ext = s.ext := rfl
@[simp] theorem modTask_slotWaits (i : Nat) (f : Task → Task) : (modTask s i f).slotWaits = s.slotWaits := rfl
@[simp] theorem modTask_acc (i : Nat) (f : Task → Task) : (modTask s i f).acc = s.acc := rfl
@[simp] theorem modTask_accFlg (i : Nat) (f : Task → Task) : (modTask s i f).accFlg = s.accFlg := rfl
@[simp] theorem modTask_imem (i : Nat) (f : Task → Task) : (modTask s i f).imem = s.imem := rfl
@[simp] theorem modTask_banks (i : Nat) (f : Task → Task) : (modTask s i f).banks = s.banks := rfl
@[simp] theorem modTask_matQueue (i : Nat) (f : Task → Task) : (modTask s i f).matQueue = s.matQueue := rfl
@[simp] theorem modTask_matInbox (i : Nat) (f : Task → Task) : (modTask s i f).matInbox = s.matInbox := rfl
@[simp] theorem modTask_staged (i : Nat) (f : Task → Task) : (modTask s i f).staged = s.staged := rfl
@[simp] theorem modTask_cong (i : Nat) (f : Task → Task) : (modTask s i f).cong = s.cong := rfl
@[simp] theorem modTask_debug (i : Nat) (f : Task → Task) : (modTask s i f).debug = s.debug := rfl
@[simp] theorem modTask_zown (i : Nat) (f : Task → Task) : (modTask s i f).zown = s.zown := rfl
@[simp] theorem modTask_spans (i : Nat) (f : Task → Task) : (modTask s i f).spans = s.spans := rfl
@[simp] theorem modTask_spanLast (i : Nat) (f : Task → Task) : (modTask s i f).spanLast = s.spanLast := rfl
@[simp] theorem modTask_lanes (i : Nat) (f : Task → Task) : (modTask s i f).lanes = s.lanes := rfl
@[simp] theorem modTask_copies (i : Nat) (f : Task → Task) : (modTask s i f).copies = s.copies := rfl
@[simp] theorem modTask_lfCmds (i : Nat) (f : Task → Task) : (modTask s i f).lfCmds = s.lfCmds := rfl
@[simp] theorem modTask_budgets (i : Nat) (f : Task → Task) : (modTask s i f).budgets = s.budgets := rfl
@[simp] theorem modTask_stats (i : Nat) (f : Task → Task) : (modTask s i f).stats = s.stats := rfl
@[simp] theorem modTask_refresh (i : Nat) (f : Task → Task) : (modTask s i f).refresh = s.refresh := rfl
@[simp] theorem modTask_active (i : Nat) (f : Task → Task) : (modTask s i f).active = s.active := rfl
@[simp] theorem modTask_corrected (i : Nat) (f : Task → Task) : (modTask s i f).corrected = s.corrected := rfl
@[simp] theorem modTask_dcache (i : Nat) (f : Task → Task) : (modTask s i f).dcache = s.dcache := rfl
@[simp] theorem modTask_mem (i : Nat) (f : Task → Task) : (modTask s i f).mem = s.mem := rfl
@[simp] theorem modTask_tags (i : Nat) (f : Task → Task) : (modTask s i f).tags = s.tags := rfl
@[simp] theorem modTask_peer (i : Nat) (f : Task → Task) : (modTask s i f).peer = s.peer := rfl
@[simp] theorem modTask_peerTag (i : Nat) (f : Task → Task) : (modTask s i f).peerTag = s.peerTag := rfl
@[simp] theorem modTask_tlb (i : Nat) (f : Task → Task) : (modTask s i f).tlb = s.tlb := rfl
@[simp] theorem modTask_bars (i : Nat) (f : Task → Task) : (modTask s i f).bars = s.bars := rfl
@[simp] theorem modTask_barsScr (i : Nat) (f : Task → Task) : (modTask s i f).barsScr = s.barsScr := rfl
@[simp] theorem modTask_arrivals (i : Nat) (f : Task → Task) : (modTask s i f).arrivals = s.arrivals := rfl
@[simp] theorem modTask_qWaits (i : Nat) (f : Task → Task) : (modTask s i f).qWaits = s.qWaits := rfl
@[simp] theorem modTask_queues (i : Nat) (f : Task → Task) : (modTask s i f).queues = s.queues := rfl
@[simp] theorem modTask_forwards (i : Nat) (f : Task → Task) : (modTask s i f).forwards = s.forwards := rfl
@[simp] theorem modTask_engWaits (i : Nat) (f : Task → Task) : (modTask s i f).engWaits = s.engWaits := rfl
@[simp] theorem modTask_hostHeld (i : Nat) (f : Task → Task) : (modTask s i f).hostHeld = s.hostHeld := rfl
@[simp] theorem modTask_ctxs (i : Nat) (f : Task → Task) : (modTask s i f).ctxs = s.ctxs := rfl
@[simp] theorem modTask_channels (i : Nat) (f : Task → Task) : (modTask s i f).channels = s.channels := rfl
@[simp] theorem modTask_ports (i : Nat) (f : Task → Task) : (modTask s i f).ports = s.ports := rfl
@[simp] theorem modTask_timebase (i : Nat) (f : Task → Task) : (modTask s i f).timebase = s.timebase := rfl
@[simp] theorem modTask_time (i : Nat) (f : Task → Task) : (modTask s i f).time = s.time := rfl
@[simp] theorem modTask_clock (i : Nat) (f : Task → Task) : (modTask s i f).clock = s.clock := rfl
@[simp] theorem modTask_clockRem (i : Nat) (f : Task → Task) : (modTask s i f).clockRem = s.clockRem := rfl
@[simp] theorem modTask_mhz (i : Nat) (f : Task → Task) : (modTask s i f).mhz = s.mhz := rfl
@[simp] theorem modTask_dev (i : Nat) (f : Task → Task) : (modTask s i f).dev = s.dev := rfl
@[simp] theorem modTask_devFixed (i : Nat) (f : Task → Task) : (modTask s i f).devFixed = s.devFixed := rfl
@[simp] theorem modTask_wbase (i : Nat) (f : Task → Task) : (modTask s i f).wbase = s.wbase := rfl
@[simp] theorem modTask_bar2 (i : Nat) (f : Task → Task) : (modTask s i f).bar2 = s.bar2 := rfl
@[simp] theorem modTask_teams (i : Nat) (f : Task → Task) : (modTask s i f).teams = s.teams := rfl
@[simp] theorem modTask_windows (i : Nat) (f : Task → Task) : (modTask s i f).windows = s.windows := rfl
@[simp] theorem modTask_hostAcc (i : Nat) (f : Task → Task) : (modTask s i f).hostAcc = s.hostAcc := rfl
@[simp] theorem modTask_peerAcc (i : Nat) (f : Task → Task) : (modTask s i f).peerAcc = s.peerAcc := rfl
@[simp] theorem modTask_readback (i : Nat) (f : Task → Task) : (modTask s i f).readback = s.readback := rfl
@[simp] theorem modTask_ageing (i : Nat) (f : Task → Task) : (modTask s i f).ageing = s.ageing := rfl
@[simp] theorem modTask_aged (i : Nat) (f : Task → Task) : (modTask s i f).aged = s.aged := rfl
@[simp] theorem modTask_firmware (i : Nat) (f : Task → Task) : (modTask s i f).firmware = s.firmware := rfl
@[simp] theorem modTask_running (i : Nat) (f : Task → Task) : (modTask s i f).running = s.running := rfl
@[simp] theorem modTask_fusedVersion (i : Nat) (f : Task → Task) : (modTask s i f).fusedVersion = s.fusedVersion := rfl
@[simp] theorem modTask_ready (i : Nat) (f : Task → Task) : (modTask s i f).ready = s.ready := rfl
@[simp] theorem modTask_powered (i : Nat) (f : Task → Task) : (modTask s i f).powered = s.powered := rfl
@[simp] theorem modTask_nonce (i : Nat) (f : Task → Task) : (modTask s i f).nonce = s.nonce := rfl
@[simp] theorem modTask_report (i : Nat) (f : Task → Task) : (modTask s i f).report = s.report := rfl
@[simp] theorem modTask_refills (i : Nat) (f : Task → Task) : (modTask s i f).refills = s.refills := rfl
@[simp] theorem modTask_debugger (i : Nat) (f : Task → Task) : (modTask s i f).debugger = s.debugger := rfl
@[simp] theorem modTask_replies (i : Nat) (f : Task → Task) : (modTask s i f).replies = s.replies := rfl
@[simp] theorem modTask_msix (i : Nat) (f : Task → Task) : (modTask s i f).msix = s.msix := rfl
@[simp] theorem modTask_cur (i : Nat) (f : Task → Task) : (modTask s i f).cur = s.cur := rfl
@[simp] theorem modTask_agenda (i : Nat) (f : Task → Task) : (modTask s i f).agenda = s.agenda := rfl
@[simp] theorem modTask_ctr (i : Nat) (f : Task → Task) : (modTask s i f).ctr = s.ctr := rfl
@[simp] theorem modTask_nextId (i : Nat) (f : Task → Task) : (modTask s i f).nextId = s.nextId := rfl
@[simp] theorem modTask_hist (i : Nat) (f : Task → Task) : (modTask s i f).hist = s.hist := rfl

/-! ### `modNode` -/

@[simp] theorem modNode_squads (i : Nat) (f : Node → Node) : (modNode s i f).squads = s.squads := rfl
@[simp] theorem modNode_tasks (i : Nat) (f : Node → Node) : (modNode s i f).tasks = s.tasks := rfl
@[simp] theorem modNode_nodes (i : Nat) (f : Node → Node) : (modNode s i f).nodes = amod s.nodes i f := rfl
@[simp] theorem modNode_graphs (i : Nat) (f : Node → Node) : (modNode s i f).graphs = s.graphs := rfl
@[simp] theorem modNode_spawns (i : Nat) (f : Node → Node) : (modNode s i f).spawns = s.spawns := rfl
@[simp] theorem modNode_scr (i : Nat) (f : Node → Node) : (modNode s i f).scr = s.scr := rfl
@[simp] theorem modNode_scrTag (i : Nat) (f : Node → Node) : (modNode s i f).scrTag = s.scrTag := rfl
@[simp] theorem modNode_slotMem (i : Nat) (f : Node → Node) : (modNode s i f).slotMem = s.slotMem := rfl
@[simp] theorem modNode_sidecar (i : Nat) (f : Node → Node) : (modNode s i f).sidecar = s.sidecar := rfl
@[simp] theorem modNode_ext (i : Nat) (f : Node → Node) : (modNode s i f).ext = s.ext := rfl
@[simp] theorem modNode_slotWaits (i : Nat) (f : Node → Node) : (modNode s i f).slotWaits = s.slotWaits := rfl
@[simp] theorem modNode_acc (i : Nat) (f : Node → Node) : (modNode s i f).acc = s.acc := rfl
@[simp] theorem modNode_accFlg (i : Nat) (f : Node → Node) : (modNode s i f).accFlg = s.accFlg := rfl
@[simp] theorem modNode_imem (i : Nat) (f : Node → Node) : (modNode s i f).imem = s.imem := rfl
@[simp] theorem modNode_banks (i : Nat) (f : Node → Node) : (modNode s i f).banks = s.banks := rfl
@[simp] theorem modNode_matQueue (i : Nat) (f : Node → Node) : (modNode s i f).matQueue = s.matQueue := rfl
@[simp] theorem modNode_matInbox (i : Nat) (f : Node → Node) : (modNode s i f).matInbox = s.matInbox := rfl
@[simp] theorem modNode_staged (i : Nat) (f : Node → Node) : (modNode s i f).staged = s.staged := rfl
@[simp] theorem modNode_cong (i : Nat) (f : Node → Node) : (modNode s i f).cong = s.cong := rfl
@[simp] theorem modNode_debug (i : Nat) (f : Node → Node) : (modNode s i f).debug = s.debug := rfl
@[simp] theorem modNode_zown (i : Nat) (f : Node → Node) : (modNode s i f).zown = s.zown := rfl
@[simp] theorem modNode_spans (i : Nat) (f : Node → Node) : (modNode s i f).spans = s.spans := rfl
@[simp] theorem modNode_spanLast (i : Nat) (f : Node → Node) : (modNode s i f).spanLast = s.spanLast := rfl
@[simp] theorem modNode_lanes (i : Nat) (f : Node → Node) : (modNode s i f).lanes = s.lanes := rfl
@[simp] theorem modNode_copies (i : Nat) (f : Node → Node) : (modNode s i f).copies = s.copies := rfl
@[simp] theorem modNode_lfCmds (i : Nat) (f : Node → Node) : (modNode s i f).lfCmds = s.lfCmds := rfl
@[simp] theorem modNode_budgets (i : Nat) (f : Node → Node) : (modNode s i f).budgets = s.budgets := rfl
@[simp] theorem modNode_stats (i : Nat) (f : Node → Node) : (modNode s i f).stats = s.stats := rfl
@[simp] theorem modNode_refresh (i : Nat) (f : Node → Node) : (modNode s i f).refresh = s.refresh := rfl
@[simp] theorem modNode_active (i : Nat) (f : Node → Node) : (modNode s i f).active = s.active := rfl
@[simp] theorem modNode_corrected (i : Nat) (f : Node → Node) : (modNode s i f).corrected = s.corrected := rfl
@[simp] theorem modNode_dcache (i : Nat) (f : Node → Node) : (modNode s i f).dcache = s.dcache := rfl
@[simp] theorem modNode_mem (i : Nat) (f : Node → Node) : (modNode s i f).mem = s.mem := rfl
@[simp] theorem modNode_tags (i : Nat) (f : Node → Node) : (modNode s i f).tags = s.tags := rfl
@[simp] theorem modNode_peer (i : Nat) (f : Node → Node) : (modNode s i f).peer = s.peer := rfl
@[simp] theorem modNode_peerTag (i : Nat) (f : Node → Node) : (modNode s i f).peerTag = s.peerTag := rfl
@[simp] theorem modNode_tlb (i : Nat) (f : Node → Node) : (modNode s i f).tlb = s.tlb := rfl
@[simp] theorem modNode_bars (i : Nat) (f : Node → Node) : (modNode s i f).bars = s.bars := rfl
@[simp] theorem modNode_barsScr (i : Nat) (f : Node → Node) : (modNode s i f).barsScr = s.barsScr := rfl
@[simp] theorem modNode_arrivals (i : Nat) (f : Node → Node) : (modNode s i f).arrivals = s.arrivals := rfl
@[simp] theorem modNode_qWaits (i : Nat) (f : Node → Node) : (modNode s i f).qWaits = s.qWaits := rfl
@[simp] theorem modNode_queues (i : Nat) (f : Node → Node) : (modNode s i f).queues = s.queues := rfl
@[simp] theorem modNode_forwards (i : Nat) (f : Node → Node) : (modNode s i f).forwards = s.forwards := rfl
@[simp] theorem modNode_engWaits (i : Nat) (f : Node → Node) : (modNode s i f).engWaits = s.engWaits := rfl
@[simp] theorem modNode_hostHeld (i : Nat) (f : Node → Node) : (modNode s i f).hostHeld = s.hostHeld := rfl
@[simp] theorem modNode_ctxs (i : Nat) (f : Node → Node) : (modNode s i f).ctxs = s.ctxs := rfl
@[simp] theorem modNode_channels (i : Nat) (f : Node → Node) : (modNode s i f).channels = s.channels := rfl
@[simp] theorem modNode_ports (i : Nat) (f : Node → Node) : (modNode s i f).ports = s.ports := rfl
@[simp] theorem modNode_timebase (i : Nat) (f : Node → Node) : (modNode s i f).timebase = s.timebase := rfl
@[simp] theorem modNode_time (i : Nat) (f : Node → Node) : (modNode s i f).time = s.time := rfl
@[simp] theorem modNode_clock (i : Nat) (f : Node → Node) : (modNode s i f).clock = s.clock := rfl
@[simp] theorem modNode_clockRem (i : Nat) (f : Node → Node) : (modNode s i f).clockRem = s.clockRem := rfl
@[simp] theorem modNode_mhz (i : Nat) (f : Node → Node) : (modNode s i f).mhz = s.mhz := rfl
@[simp] theorem modNode_dev (i : Nat) (f : Node → Node) : (modNode s i f).dev = s.dev := rfl
@[simp] theorem modNode_devFixed (i : Nat) (f : Node → Node) : (modNode s i f).devFixed = s.devFixed := rfl
@[simp] theorem modNode_wbase (i : Nat) (f : Node → Node) : (modNode s i f).wbase = s.wbase := rfl
@[simp] theorem modNode_bar2 (i : Nat) (f : Node → Node) : (modNode s i f).bar2 = s.bar2 := rfl
@[simp] theorem modNode_teams (i : Nat) (f : Node → Node) : (modNode s i f).teams = s.teams := rfl
@[simp] theorem modNode_windows (i : Nat) (f : Node → Node) : (modNode s i f).windows = s.windows := rfl
@[simp] theorem modNode_hostAcc (i : Nat) (f : Node → Node) : (modNode s i f).hostAcc = s.hostAcc := rfl
@[simp] theorem modNode_peerAcc (i : Nat) (f : Node → Node) : (modNode s i f).peerAcc = s.peerAcc := rfl
@[simp] theorem modNode_readback (i : Nat) (f : Node → Node) : (modNode s i f).readback = s.readback := rfl
@[simp] theorem modNode_ageing (i : Nat) (f : Node → Node) : (modNode s i f).ageing = s.ageing := rfl
@[simp] theorem modNode_aged (i : Nat) (f : Node → Node) : (modNode s i f).aged = s.aged := rfl
@[simp] theorem modNode_firmware (i : Nat) (f : Node → Node) : (modNode s i f).firmware = s.firmware := rfl
@[simp] theorem modNode_running (i : Nat) (f : Node → Node) : (modNode s i f).running = s.running := rfl
@[simp] theorem modNode_fusedVersion (i : Nat) (f : Node → Node) : (modNode s i f).fusedVersion = s.fusedVersion := rfl
@[simp] theorem modNode_ready (i : Nat) (f : Node → Node) : (modNode s i f).ready = s.ready := rfl
@[simp] theorem modNode_powered (i : Nat) (f : Node → Node) : (modNode s i f).powered = s.powered := rfl
@[simp] theorem modNode_nonce (i : Nat) (f : Node → Node) : (modNode s i f).nonce = s.nonce := rfl
@[simp] theorem modNode_report (i : Nat) (f : Node → Node) : (modNode s i f).report = s.report := rfl
@[simp] theorem modNode_refills (i : Nat) (f : Node → Node) : (modNode s i f).refills = s.refills := rfl
@[simp] theorem modNode_debugger (i : Nat) (f : Node → Node) : (modNode s i f).debugger = s.debugger := rfl
@[simp] theorem modNode_replies (i : Nat) (f : Node → Node) : (modNode s i f).replies = s.replies := rfl
@[simp] theorem modNode_msix (i : Nat) (f : Node → Node) : (modNode s i f).msix = s.msix := rfl
@[simp] theorem modNode_cur (i : Nat) (f : Node → Node) : (modNode s i f).cur = s.cur := rfl
@[simp] theorem modNode_agenda (i : Nat) (f : Node → Node) : (modNode s i f).agenda = s.agenda := rfl
@[simp] theorem modNode_ctr (i : Nat) (f : Node → Node) : (modNode s i f).ctr = s.ctr := rfl
@[simp] theorem modNode_nextId (i : Nat) (f : Node → Node) : (modNode s i f).nextId = s.nextId := rfl
@[simp] theorem modNode_hist (i : Nat) (f : Node → Node) : (modNode s i f).hist = s.hist := rfl

/-! ### `modCtx` -/

@[simp] theorem modCtx_squads (i : Nat) (f : Ctx → Ctx) : (modCtx s i f).squads = s.squads := rfl
@[simp] theorem modCtx_tasks (i : Nat) (f : Ctx → Ctx) : (modCtx s i f).tasks = s.tasks := rfl
@[simp] theorem modCtx_nodes (i : Nat) (f : Ctx → Ctx) : (modCtx s i f).nodes = s.nodes := rfl
@[simp] theorem modCtx_graphs (i : Nat) (f : Ctx → Ctx) : (modCtx s i f).graphs = s.graphs := rfl
@[simp] theorem modCtx_spawns (i : Nat) (f : Ctx → Ctx) : (modCtx s i f).spawns = s.spawns := rfl
@[simp] theorem modCtx_scr (i : Nat) (f : Ctx → Ctx) : (modCtx s i f).scr = s.scr := rfl
@[simp] theorem modCtx_scrTag (i : Nat) (f : Ctx → Ctx) : (modCtx s i f).scrTag = s.scrTag := rfl
@[simp] theorem modCtx_slotMem (i : Nat) (f : Ctx → Ctx) : (modCtx s i f).slotMem = s.slotMem := rfl
@[simp] theorem modCtx_sidecar (i : Nat) (f : Ctx → Ctx) : (modCtx s i f).sidecar = s.sidecar := rfl
@[simp] theorem modCtx_ext (i : Nat) (f : Ctx → Ctx) : (modCtx s i f).ext = s.ext := rfl
@[simp] theorem modCtx_slotWaits (i : Nat) (f : Ctx → Ctx) : (modCtx s i f).slotWaits = s.slotWaits := rfl
@[simp] theorem modCtx_acc (i : Nat) (f : Ctx → Ctx) : (modCtx s i f).acc = s.acc := rfl
@[simp] theorem modCtx_accFlg (i : Nat) (f : Ctx → Ctx) : (modCtx s i f).accFlg = s.accFlg := rfl
@[simp] theorem modCtx_imem (i : Nat) (f : Ctx → Ctx) : (modCtx s i f).imem = s.imem := rfl
@[simp] theorem modCtx_banks (i : Nat) (f : Ctx → Ctx) : (modCtx s i f).banks = s.banks := rfl
@[simp] theorem modCtx_matQueue (i : Nat) (f : Ctx → Ctx) : (modCtx s i f).matQueue = s.matQueue := rfl
@[simp] theorem modCtx_matInbox (i : Nat) (f : Ctx → Ctx) : (modCtx s i f).matInbox = s.matInbox := rfl
@[simp] theorem modCtx_staged (i : Nat) (f : Ctx → Ctx) : (modCtx s i f).staged = s.staged := rfl
@[simp] theorem modCtx_cong (i : Nat) (f : Ctx → Ctx) : (modCtx s i f).cong = s.cong := rfl
@[simp] theorem modCtx_debug (i : Nat) (f : Ctx → Ctx) : (modCtx s i f).debug = s.debug := rfl
@[simp] theorem modCtx_zown (i : Nat) (f : Ctx → Ctx) : (modCtx s i f).zown = s.zown := rfl
@[simp] theorem modCtx_spans (i : Nat) (f : Ctx → Ctx) : (modCtx s i f).spans = s.spans := rfl
@[simp] theorem modCtx_spanLast (i : Nat) (f : Ctx → Ctx) : (modCtx s i f).spanLast = s.spanLast := rfl
@[simp] theorem modCtx_lanes (i : Nat) (f : Ctx → Ctx) : (modCtx s i f).lanes = s.lanes := rfl
@[simp] theorem modCtx_copies (i : Nat) (f : Ctx → Ctx) : (modCtx s i f).copies = s.copies := rfl
@[simp] theorem modCtx_lfCmds (i : Nat) (f : Ctx → Ctx) : (modCtx s i f).lfCmds = s.lfCmds := rfl
@[simp] theorem modCtx_budgets (i : Nat) (f : Ctx → Ctx) : (modCtx s i f).budgets = s.budgets := rfl
@[simp] theorem modCtx_stats (i : Nat) (f : Ctx → Ctx) : (modCtx s i f).stats = s.stats := rfl
@[simp] theorem modCtx_refresh (i : Nat) (f : Ctx → Ctx) : (modCtx s i f).refresh = s.refresh := rfl
@[simp] theorem modCtx_active (i : Nat) (f : Ctx → Ctx) : (modCtx s i f).active = s.active := rfl
@[simp] theorem modCtx_corrected (i : Nat) (f : Ctx → Ctx) : (modCtx s i f).corrected = s.corrected := rfl
@[simp] theorem modCtx_dcache (i : Nat) (f : Ctx → Ctx) : (modCtx s i f).dcache = s.dcache := rfl
@[simp] theorem modCtx_mem (i : Nat) (f : Ctx → Ctx) : (modCtx s i f).mem = s.mem := rfl
@[simp] theorem modCtx_tags (i : Nat) (f : Ctx → Ctx) : (modCtx s i f).tags = s.tags := rfl
@[simp] theorem modCtx_peer (i : Nat) (f : Ctx → Ctx) : (modCtx s i f).peer = s.peer := rfl
@[simp] theorem modCtx_peerTag (i : Nat) (f : Ctx → Ctx) : (modCtx s i f).peerTag = s.peerTag := rfl
@[simp] theorem modCtx_tlb (i : Nat) (f : Ctx → Ctx) : (modCtx s i f).tlb = s.tlb := rfl
@[simp] theorem modCtx_bars (i : Nat) (f : Ctx → Ctx) : (modCtx s i f).bars = s.bars := rfl
@[simp] theorem modCtx_barsScr (i : Nat) (f : Ctx → Ctx) : (modCtx s i f).barsScr = s.barsScr := rfl
@[simp] theorem modCtx_arrivals (i : Nat) (f : Ctx → Ctx) : (modCtx s i f).arrivals = s.arrivals := rfl
@[simp] theorem modCtx_qWaits (i : Nat) (f : Ctx → Ctx) : (modCtx s i f).qWaits = s.qWaits := rfl
@[simp] theorem modCtx_queues (i : Nat) (f : Ctx → Ctx) : (modCtx s i f).queues = s.queues := rfl
@[simp] theorem modCtx_forwards (i : Nat) (f : Ctx → Ctx) : (modCtx s i f).forwards = s.forwards := rfl
@[simp] theorem modCtx_engWaits (i : Nat) (f : Ctx → Ctx) : (modCtx s i f).engWaits = s.engWaits := rfl
@[simp] theorem modCtx_hostHeld (i : Nat) (f : Ctx → Ctx) : (modCtx s i f).hostHeld = s.hostHeld := rfl
@[simp] theorem modCtx_ctxs (i : Nat) (f : Ctx → Ctx) : (modCtx s i f).ctxs = aput s.ctxs i (f (ctxOf s i)) := rfl
@[simp] theorem modCtx_channels (i : Nat) (f : Ctx → Ctx) : (modCtx s i f).channels = s.channels := rfl
@[simp] theorem modCtx_ports (i : Nat) (f : Ctx → Ctx) : (modCtx s i f).ports = s.ports := rfl
@[simp] theorem modCtx_timebase (i : Nat) (f : Ctx → Ctx) : (modCtx s i f).timebase = s.timebase := rfl
@[simp] theorem modCtx_time (i : Nat) (f : Ctx → Ctx) : (modCtx s i f).time = s.time := rfl
@[simp] theorem modCtx_clock (i : Nat) (f : Ctx → Ctx) : (modCtx s i f).clock = s.clock := rfl
@[simp] theorem modCtx_clockRem (i : Nat) (f : Ctx → Ctx) : (modCtx s i f).clockRem = s.clockRem := rfl
@[simp] theorem modCtx_mhz (i : Nat) (f : Ctx → Ctx) : (modCtx s i f).mhz = s.mhz := rfl
@[simp] theorem modCtx_dev (i : Nat) (f : Ctx → Ctx) : (modCtx s i f).dev = s.dev := rfl
@[simp] theorem modCtx_devFixed (i : Nat) (f : Ctx → Ctx) : (modCtx s i f).devFixed = s.devFixed := rfl
@[simp] theorem modCtx_wbase (i : Nat) (f : Ctx → Ctx) : (modCtx s i f).wbase = s.wbase := rfl
@[simp] theorem modCtx_bar2 (i : Nat) (f : Ctx → Ctx) : (modCtx s i f).bar2 = s.bar2 := rfl
@[simp] theorem modCtx_teams (i : Nat) (f : Ctx → Ctx) : (modCtx s i f).teams = s.teams := rfl
@[simp] theorem modCtx_windows (i : Nat) (f : Ctx → Ctx) : (modCtx s i f).windows = s.windows := rfl
@[simp] theorem modCtx_hostAcc (i : Nat) (f : Ctx → Ctx) : (modCtx s i f).hostAcc = s.hostAcc := rfl
@[simp] theorem modCtx_peerAcc (i : Nat) (f : Ctx → Ctx) : (modCtx s i f).peerAcc = s.peerAcc := rfl
@[simp] theorem modCtx_readback (i : Nat) (f : Ctx → Ctx) : (modCtx s i f).readback = s.readback := rfl
@[simp] theorem modCtx_ageing (i : Nat) (f : Ctx → Ctx) : (modCtx s i f).ageing = s.ageing := rfl
@[simp] theorem modCtx_aged (i : Nat) (f : Ctx → Ctx) : (modCtx s i f).aged = s.aged := rfl
@[simp] theorem modCtx_firmware (i : Nat) (f : Ctx → Ctx) : (modCtx s i f).firmware = s.firmware := rfl
@[simp] theorem modCtx_running (i : Nat) (f : Ctx → Ctx) : (modCtx s i f).running = s.running := rfl
@[simp] theorem modCtx_fusedVersion (i : Nat) (f : Ctx → Ctx) : (modCtx s i f).fusedVersion = s.fusedVersion := rfl
@[simp] theorem modCtx_ready (i : Nat) (f : Ctx → Ctx) : (modCtx s i f).ready = s.ready := rfl
@[simp] theorem modCtx_powered (i : Nat) (f : Ctx → Ctx) : (modCtx s i f).powered = s.powered := rfl
@[simp] theorem modCtx_nonce (i : Nat) (f : Ctx → Ctx) : (modCtx s i f).nonce = s.nonce := rfl
@[simp] theorem modCtx_report (i : Nat) (f : Ctx → Ctx) : (modCtx s i f).report = s.report := rfl
@[simp] theorem modCtx_refills (i : Nat) (f : Ctx → Ctx) : (modCtx s i f).refills = s.refills := rfl
@[simp] theorem modCtx_debugger (i : Nat) (f : Ctx → Ctx) : (modCtx s i f).debugger = s.debugger := rfl
@[simp] theorem modCtx_replies (i : Nat) (f : Ctx → Ctx) : (modCtx s i f).replies = s.replies := rfl
@[simp] theorem modCtx_msix (i : Nat) (f : Ctx → Ctx) : (modCtx s i f).msix = s.msix := rfl
@[simp] theorem modCtx_cur (i : Nat) (f : Ctx → Ctx) : (modCtx s i f).cur = s.cur := rfl
@[simp] theorem modCtx_agenda (i : Nat) (f : Ctx → Ctx) : (modCtx s i f).agenda = s.agenda := rfl
@[simp] theorem modCtx_ctr (i : Nat) (f : Ctx → Ctx) : (modCtx s i f).ctr = s.ctr := rfl
@[simp] theorem modCtx_nextId (i : Nat) (f : Ctx → Ctx) : (modCtx s i f).nextId = s.nextId := rfl
@[simp] theorem modCtx_hist (i : Nat) (f : Ctx → Ctx) : (modCtx s i f).hist = s.hist := rfl

/-! ### `setBudget` -/

@[simp] theorem setBudget_squads (d c : Nat) (b : Budget) : (setBudget s d c b).squads = s.squads := rfl
@[simp] theorem setBudget_tasks (d c : Nat) (b : Budget) : (setBudget s d c b).tasks = s.tasks := rfl
@[simp] theorem setBudget_nodes (d c : Nat) (b : Budget) : (setBudget s d c b).nodes = s.nodes := rfl
@[simp] theorem setBudget_graphs (d c : Nat) (b : Budget) : (setBudget s d c b).graphs = s.graphs := rfl
@[simp] theorem setBudget_spawns (d c : Nat) (b : Budget) : (setBudget s d c b).spawns = s.spawns := rfl
@[simp] theorem setBudget_scr (d c : Nat) (b : Budget) : (setBudget s d c b).scr = s.scr := rfl
@[simp] theorem setBudget_scrTag (d c : Nat) (b : Budget) : (setBudget s d c b).scrTag = s.scrTag := rfl
@[simp] theorem setBudget_slotMem (d c : Nat) (b : Budget) : (setBudget s d c b).slotMem = s.slotMem := rfl
@[simp] theorem setBudget_sidecar (d c : Nat) (b : Budget) : (setBudget s d c b).sidecar = s.sidecar := rfl
@[simp] theorem setBudget_ext (d c : Nat) (b : Budget) : (setBudget s d c b).ext = s.ext := rfl
@[simp] theorem setBudget_slotWaits (d c : Nat) (b : Budget) : (setBudget s d c b).slotWaits = s.slotWaits := rfl
@[simp] theorem setBudget_acc (d c : Nat) (b : Budget) : (setBudget s d c b).acc = s.acc := rfl
@[simp] theorem setBudget_accFlg (d c : Nat) (b : Budget) : (setBudget s d c b).accFlg = s.accFlg := rfl
@[simp] theorem setBudget_imem (d c : Nat) (b : Budget) : (setBudget s d c b).imem = s.imem := rfl
@[simp] theorem setBudget_banks (d c : Nat) (b : Budget) : (setBudget s d c b).banks = s.banks := rfl
@[simp] theorem setBudget_matQueue (d c : Nat) (b : Budget) : (setBudget s d c b).matQueue = s.matQueue := rfl
@[simp] theorem setBudget_matInbox (d c : Nat) (b : Budget) : (setBudget s d c b).matInbox = s.matInbox := rfl
@[simp] theorem setBudget_staged (d c : Nat) (b : Budget) : (setBudget s d c b).staged = s.staged := rfl
@[simp] theorem setBudget_cong (d c : Nat) (b : Budget) : (setBudget s d c b).cong = s.cong := rfl
@[simp] theorem setBudget_debug (d c : Nat) (b : Budget) : (setBudget s d c b).debug = s.debug := rfl
@[simp] theorem setBudget_zown (d c : Nat) (b : Budget) : (setBudget s d c b).zown = s.zown := rfl
@[simp] theorem setBudget_spans (d c : Nat) (b : Budget) : (setBudget s d c b).spans = s.spans := rfl
@[simp] theorem setBudget_spanLast (d c : Nat) (b : Budget) : (setBudget s d c b).spanLast = s.spanLast := rfl
@[simp] theorem setBudget_lanes (d c : Nat) (b : Budget) : (setBudget s d c b).lanes = s.lanes := rfl
@[simp] theorem setBudget_copies (d c : Nat) (b : Budget) : (setBudget s d c b).copies = s.copies := rfl
@[simp] theorem setBudget_lfCmds (d c : Nat) (b : Budget) : (setBudget s d c b).lfCmds = s.lfCmds := rfl
@[simp] theorem setBudget_budgets (d c : Nat) (b : Budget) : (setBudget s d c b).budgets = aput s.budgets (budKey d c) b := rfl
@[simp] theorem setBudget_stats (d c : Nat) (b : Budget) : (setBudget s d c b).stats = s.stats := rfl
@[simp] theorem setBudget_refresh (d c : Nat) (b : Budget) : (setBudget s d c b).refresh = s.refresh := rfl
@[simp] theorem setBudget_active (d c : Nat) (b : Budget) : (setBudget s d c b).active = s.active := rfl
@[simp] theorem setBudget_corrected (d c : Nat) (b : Budget) : (setBudget s d c b).corrected = s.corrected := rfl
@[simp] theorem setBudget_dcache (d c : Nat) (b : Budget) : (setBudget s d c b).dcache = s.dcache := rfl
@[simp] theorem setBudget_mem (d c : Nat) (b : Budget) : (setBudget s d c b).mem = s.mem := rfl
@[simp] theorem setBudget_tags (d c : Nat) (b : Budget) : (setBudget s d c b).tags = s.tags := rfl
@[simp] theorem setBudget_peer (d c : Nat) (b : Budget) : (setBudget s d c b).peer = s.peer := rfl
@[simp] theorem setBudget_peerTag (d c : Nat) (b : Budget) : (setBudget s d c b).peerTag = s.peerTag := rfl
@[simp] theorem setBudget_tlb (d c : Nat) (b : Budget) : (setBudget s d c b).tlb = s.tlb := rfl
@[simp] theorem setBudget_bars (d c : Nat) (b : Budget) : (setBudget s d c b).bars = s.bars := rfl
@[simp] theorem setBudget_barsScr (d c : Nat) (b : Budget) : (setBudget s d c b).barsScr = s.barsScr := rfl
@[simp] theorem setBudget_arrivals (d c : Nat) (b : Budget) : (setBudget s d c b).arrivals = s.arrivals := rfl
@[simp] theorem setBudget_qWaits (d c : Nat) (b : Budget) : (setBudget s d c b).qWaits = s.qWaits := rfl
@[simp] theorem setBudget_queues (d c : Nat) (b : Budget) : (setBudget s d c b).queues = s.queues := rfl
@[simp] theorem setBudget_forwards (d c : Nat) (b : Budget) : (setBudget s d c b).forwards = s.forwards := rfl
@[simp] theorem setBudget_engWaits (d c : Nat) (b : Budget) : (setBudget s d c b).engWaits = s.engWaits := rfl
@[simp] theorem setBudget_hostHeld (d c : Nat) (b : Budget) : (setBudget s d c b).hostHeld = s.hostHeld := rfl
@[simp] theorem setBudget_ctxs (d c : Nat) (b : Budget) : (setBudget s d c b).ctxs = s.ctxs := rfl
@[simp] theorem setBudget_channels (d c : Nat) (b : Budget) : (setBudget s d c b).channels = s.channels := rfl
@[simp] theorem setBudget_ports (d c : Nat) (b : Budget) : (setBudget s d c b).ports = s.ports := rfl
@[simp] theorem setBudget_timebase (d c : Nat) (b : Budget) : (setBudget s d c b).timebase = s.timebase := rfl
@[simp] theorem setBudget_time (d c : Nat) (b : Budget) : (setBudget s d c b).time = s.time := rfl
@[simp] theorem setBudget_clock (d c : Nat) (b : Budget) : (setBudget s d c b).clock = s.clock := rfl
@[simp] theorem setBudget_clockRem (d c : Nat) (b : Budget) : (setBudget s d c b).clockRem = s.clockRem := rfl
@[simp] theorem setBudget_mhz (d c : Nat) (b : Budget) : (setBudget s d c b).mhz = s.mhz := rfl
@[simp] theorem setBudget_dev (d c : Nat) (b : Budget) : (setBudget s d c b).dev = s.dev := rfl
@[simp] theorem setBudget_devFixed (d c : Nat) (b : Budget) : (setBudget s d c b).devFixed = s.devFixed := rfl
@[simp] theorem setBudget_wbase (d c : Nat) (b : Budget) : (setBudget s d c b).wbase = s.wbase := rfl
@[simp] theorem setBudget_bar2 (d c : Nat) (b : Budget) : (setBudget s d c b).bar2 = s.bar2 := rfl
@[simp] theorem setBudget_teams (d c : Nat) (b : Budget) : (setBudget s d c b).teams = s.teams := rfl
@[simp] theorem setBudget_windows (d c : Nat) (b : Budget) : (setBudget s d c b).windows = s.windows := rfl
@[simp] theorem setBudget_hostAcc (d c : Nat) (b : Budget) : (setBudget s d c b).hostAcc = s.hostAcc := rfl
@[simp] theorem setBudget_peerAcc (d c : Nat) (b : Budget) : (setBudget s d c b).peerAcc = s.peerAcc := rfl
@[simp] theorem setBudget_readback (d c : Nat) (b : Budget) : (setBudget s d c b).readback = s.readback := rfl
@[simp] theorem setBudget_ageing (d c : Nat) (b : Budget) : (setBudget s d c b).ageing = s.ageing := rfl
@[simp] theorem setBudget_aged (d c : Nat) (b : Budget) : (setBudget s d c b).aged = s.aged := rfl
@[simp] theorem setBudget_firmware (d c : Nat) (b : Budget) : (setBudget s d c b).firmware = s.firmware := rfl
@[simp] theorem setBudget_running (d c : Nat) (b : Budget) : (setBudget s d c b).running = s.running := rfl
@[simp] theorem setBudget_fusedVersion (d c : Nat) (b : Budget) : (setBudget s d c b).fusedVersion = s.fusedVersion := rfl
@[simp] theorem setBudget_ready (d c : Nat) (b : Budget) : (setBudget s d c b).ready = s.ready := rfl
@[simp] theorem setBudget_powered (d c : Nat) (b : Budget) : (setBudget s d c b).powered = s.powered := rfl
@[simp] theorem setBudget_nonce (d c : Nat) (b : Budget) : (setBudget s d c b).nonce = s.nonce := rfl
@[simp] theorem setBudget_report (d c : Nat) (b : Budget) : (setBudget s d c b).report = s.report := rfl
@[simp] theorem setBudget_refills (d c : Nat) (b : Budget) : (setBudget s d c b).refills = s.refills := rfl
@[simp] theorem setBudget_debugger (d c : Nat) (b : Budget) : (setBudget s d c b).debugger = s.debugger := rfl
@[simp] theorem setBudget_replies (d c : Nat) (b : Budget) : (setBudget s d c b).replies = s.replies := rfl
@[simp] theorem setBudget_msix (d c : Nat) (b : Budget) : (setBudget s d c b).msix = s.msix := rfl
@[simp] theorem setBudget_cur (d c : Nat) (b : Budget) : (setBudget s d c b).cur = s.cur := rfl
@[simp] theorem setBudget_agenda (d c : Nat) (b : Budget) : (setBudget s d c b).agenda = s.agenda := rfl
@[simp] theorem setBudget_ctr (d c : Nat) (b : Budget) : (setBudget s d c b).ctr = s.ctr := rfl
@[simp] theorem setBudget_nextId (d c : Nat) (b : Budget) : (setBudget s d c b).nextId = s.nextId := rfl
@[simp] theorem setBudget_hist (d c : Nat) (b : Budget) : (setBudget s d c b).hist = s.hist := rfl

/-! ### `tickCtr` -/

@[simp] theorem tickCtr_squads : (tickCtr s).squads = s.squads := rfl
@[simp] theorem tickCtr_tasks : (tickCtr s).tasks = s.tasks := rfl
@[simp] theorem tickCtr_nodes : (tickCtr s).nodes = s.nodes := rfl
@[simp] theorem tickCtr_graphs : (tickCtr s).graphs = s.graphs := rfl
@[simp] theorem tickCtr_spawns : (tickCtr s).spawns = s.spawns := rfl
@[simp] theorem tickCtr_scr : (tickCtr s).scr = s.scr := rfl
@[simp] theorem tickCtr_scrTag : (tickCtr s).scrTag = s.scrTag := rfl
@[simp] theorem tickCtr_slotMem : (tickCtr s).slotMem = s.slotMem := rfl
@[simp] theorem tickCtr_sidecar : (tickCtr s).sidecar = s.sidecar := rfl
@[simp] theorem tickCtr_ext : (tickCtr s).ext = s.ext := rfl
@[simp] theorem tickCtr_slotWaits : (tickCtr s).slotWaits = s.slotWaits := rfl
@[simp] theorem tickCtr_acc : (tickCtr s).acc = s.acc := rfl
@[simp] theorem tickCtr_accFlg : (tickCtr s).accFlg = s.accFlg := rfl
@[simp] theorem tickCtr_imem : (tickCtr s).imem = s.imem := rfl
@[simp] theorem tickCtr_banks : (tickCtr s).banks = s.banks := rfl
@[simp] theorem tickCtr_matQueue : (tickCtr s).matQueue = s.matQueue := rfl
@[simp] theorem tickCtr_matInbox : (tickCtr s).matInbox = s.matInbox := rfl
@[simp] theorem tickCtr_staged : (tickCtr s).staged = s.staged := rfl
@[simp] theorem tickCtr_cong : (tickCtr s).cong = s.cong := rfl
@[simp] theorem tickCtr_debug : (tickCtr s).debug = s.debug := rfl
@[simp] theorem tickCtr_zown : (tickCtr s).zown = s.zown := rfl
@[simp] theorem tickCtr_spans : (tickCtr s).spans = s.spans := rfl
@[simp] theorem tickCtr_spanLast : (tickCtr s).spanLast = s.spanLast := rfl
@[simp] theorem tickCtr_lanes : (tickCtr s).lanes = s.lanes := rfl
@[simp] theorem tickCtr_copies : (tickCtr s).copies = s.copies := rfl
@[simp] theorem tickCtr_lfCmds : (tickCtr s).lfCmds = s.lfCmds := rfl
@[simp] theorem tickCtr_budgets : (tickCtr s).budgets = s.budgets := rfl
@[simp] theorem tickCtr_stats : (tickCtr s).stats = s.stats := rfl
@[simp] theorem tickCtr_refresh : (tickCtr s).refresh = s.refresh := rfl
@[simp] theorem tickCtr_active : (tickCtr s).active = s.active := rfl
@[simp] theorem tickCtr_corrected : (tickCtr s).corrected = s.corrected := rfl
@[simp] theorem tickCtr_dcache : (tickCtr s).dcache = s.dcache := rfl
@[simp] theorem tickCtr_mem : (tickCtr s).mem = s.mem := rfl
@[simp] theorem tickCtr_tags : (tickCtr s).tags = s.tags := rfl
@[simp] theorem tickCtr_peer : (tickCtr s).peer = s.peer := rfl
@[simp] theorem tickCtr_peerTag : (tickCtr s).peerTag = s.peerTag := rfl
@[simp] theorem tickCtr_tlb : (tickCtr s).tlb = s.tlb := rfl
@[simp] theorem tickCtr_bars : (tickCtr s).bars = s.bars := rfl
@[simp] theorem tickCtr_barsScr : (tickCtr s).barsScr = s.barsScr := rfl
@[simp] theorem tickCtr_arrivals : (tickCtr s).arrivals = s.arrivals := rfl
@[simp] theorem tickCtr_qWaits : (tickCtr s).qWaits = s.qWaits := rfl
@[simp] theorem tickCtr_queues : (tickCtr s).queues = s.queues := rfl
@[simp] theorem tickCtr_forwards : (tickCtr s).forwards = s.forwards := rfl
@[simp] theorem tickCtr_engWaits : (tickCtr s).engWaits = s.engWaits := rfl
@[simp] theorem tickCtr_hostHeld : (tickCtr s).hostHeld = s.hostHeld := rfl
@[simp] theorem tickCtr_ctxs : (tickCtr s).ctxs = s.ctxs := rfl
@[simp] theorem tickCtr_channels : (tickCtr s).channels = s.channels := rfl
@[simp] theorem tickCtr_ports : (tickCtr s).ports = s.ports := rfl
@[simp] theorem tickCtr_timebase : (tickCtr s).timebase = s.timebase := rfl
@[simp] theorem tickCtr_time : (tickCtr s).time = s.time := rfl
@[simp] theorem tickCtr_clock : (tickCtr s).clock = s.clock := rfl
@[simp] theorem tickCtr_clockRem : (tickCtr s).clockRem = s.clockRem := rfl
@[simp] theorem tickCtr_mhz : (tickCtr s).mhz = s.mhz := rfl
@[simp] theorem tickCtr_dev : (tickCtr s).dev = s.dev := rfl
@[simp] theorem tickCtr_devFixed : (tickCtr s).devFixed = s.devFixed := rfl
@[simp] theorem tickCtr_wbase : (tickCtr s).wbase = s.wbase := rfl
@[simp] theorem tickCtr_bar2 : (tickCtr s).bar2 = s.bar2 := rfl
@[simp] theorem tickCtr_teams : (tickCtr s).teams = s.teams := rfl
@[simp] theorem tickCtr_windows : (tickCtr s).windows = s.windows := rfl
@[simp] theorem tickCtr_hostAcc : (tickCtr s).hostAcc = s.hostAcc := rfl
@[simp] theorem tickCtr_peerAcc : (tickCtr s).peerAcc = s.peerAcc := rfl
@[simp] theorem tickCtr_readback : (tickCtr s).readback = s.readback := rfl
@[simp] theorem tickCtr_ageing : (tickCtr s).ageing = s.ageing := rfl
@[simp] theorem tickCtr_aged : (tickCtr s).aged = s.aged := rfl
@[simp] theorem tickCtr_firmware : (tickCtr s).firmware = s.firmware := rfl
@[simp] theorem tickCtr_running : (tickCtr s).running = s.running := rfl
@[simp] theorem tickCtr_fusedVersion : (tickCtr s).fusedVersion = s.fusedVersion := rfl
@[simp] theorem tickCtr_ready : (tickCtr s).ready = s.ready := rfl
@[simp] theorem tickCtr_powered : (tickCtr s).powered = s.powered := rfl
@[simp] theorem tickCtr_nonce : (tickCtr s).nonce = s.nonce := rfl
@[simp] theorem tickCtr_report : (tickCtr s).report = s.report := rfl
@[simp] theorem tickCtr_refills : (tickCtr s).refills = s.refills := rfl
@[simp] theorem tickCtr_debugger : (tickCtr s).debugger = s.debugger := rfl
@[simp] theorem tickCtr_replies : (tickCtr s).replies = s.replies := rfl
@[simp] theorem tickCtr_msix : (tickCtr s).msix = s.msix := rfl
@[simp] theorem tickCtr_cur : (tickCtr s).cur = s.cur := rfl
@[simp] theorem tickCtr_agenda : (tickCtr s).agenda = s.agenda := rfl
@[simp] theorem tickCtr_ctr : (tickCtr s).ctr = s.ctr + 1 := rfl
@[simp] theorem tickCtr_nextId : (tickCtr s).nextId = s.nextId := rfl
@[simp] theorem tickCtr_hist : (tickCtr s).hist = s.hist := rfl

/-! ### `logEv` -/

@[simp] theorem logEv_squads (e : HEv) : (logEv s e).squads = s.squads := rfl
@[simp] theorem logEv_tasks (e : HEv) : (logEv s e).tasks = s.tasks := rfl
@[simp] theorem logEv_nodes (e : HEv) : (logEv s e).nodes = s.nodes := rfl
@[simp] theorem logEv_graphs (e : HEv) : (logEv s e).graphs = s.graphs := rfl
@[simp] theorem logEv_spawns (e : HEv) : (logEv s e).spawns = s.spawns := rfl
@[simp] theorem logEv_scr (e : HEv) : (logEv s e).scr = s.scr := rfl
@[simp] theorem logEv_scrTag (e : HEv) : (logEv s e).scrTag = s.scrTag := rfl
@[simp] theorem logEv_slotMem (e : HEv) : (logEv s e).slotMem = s.slotMem := rfl
@[simp] theorem logEv_sidecar (e : HEv) : (logEv s e).sidecar = s.sidecar := rfl
@[simp] theorem logEv_ext (e : HEv) : (logEv s e).ext = s.ext := rfl
@[simp] theorem logEv_slotWaits (e : HEv) : (logEv s e).slotWaits = s.slotWaits := rfl
@[simp] theorem logEv_acc (e : HEv) : (logEv s e).acc = s.acc := rfl
@[simp] theorem logEv_accFlg (e : HEv) : (logEv s e).accFlg = s.accFlg := rfl
@[simp] theorem logEv_imem (e : HEv) : (logEv s e).imem = s.imem := rfl
@[simp] theorem logEv_banks (e : HEv) : (logEv s e).banks = s.banks := rfl
@[simp] theorem logEv_matQueue (e : HEv) : (logEv s e).matQueue = s.matQueue := rfl
@[simp] theorem logEv_matInbox (e : HEv) : (logEv s e).matInbox = s.matInbox := rfl
@[simp] theorem logEv_staged (e : HEv) : (logEv s e).staged = s.staged := rfl
@[simp] theorem logEv_cong (e : HEv) : (logEv s e).cong = s.cong := rfl
@[simp] theorem logEv_debug (e : HEv) : (logEv s e).debug = s.debug := rfl
@[simp] theorem logEv_zown (e : HEv) : (logEv s e).zown = s.zown := rfl
@[simp] theorem logEv_spans (e : HEv) : (logEv s e).spans = s.spans := rfl
@[simp] theorem logEv_spanLast (e : HEv) : (logEv s e).spanLast = s.spanLast := rfl
@[simp] theorem logEv_lanes (e : HEv) : (logEv s e).lanes = s.lanes := rfl
@[simp] theorem logEv_copies (e : HEv) : (logEv s e).copies = s.copies := rfl
@[simp] theorem logEv_lfCmds (e : HEv) : (logEv s e).lfCmds = s.lfCmds := rfl
@[simp] theorem logEv_budgets (e : HEv) : (logEv s e).budgets = s.budgets := rfl
@[simp] theorem logEv_stats (e : HEv) : (logEv s e).stats = s.stats := rfl
@[simp] theorem logEv_refresh (e : HEv) : (logEv s e).refresh = s.refresh := rfl
@[simp] theorem logEv_corrected (e : HEv) : (logEv s e).corrected = s.corrected := rfl
@[simp] theorem logEv_mem (e : HEv) : (logEv s e).mem = s.mem := rfl
@[simp] theorem logEv_tags (e : HEv) : (logEv s e).tags = s.tags := rfl
@[simp] theorem logEv_peer (e : HEv) : (logEv s e).peer = s.peer := rfl
@[simp] theorem logEv_peerTag (e : HEv) : (logEv s e).peerTag = s.peerTag := rfl
@[simp] theorem logEv_tlb (e : HEv) : (logEv s e).tlb = s.tlb := rfl
@[simp] theorem logEv_bars (e : HEv) : (logEv s e).bars = s.bars := rfl
@[simp] theorem logEv_barsScr (e : HEv) : (logEv s e).barsScr = s.barsScr := rfl
@[simp] theorem logEv_arrivals (e : HEv) : (logEv s e).arrivals = s.arrivals := rfl
@[simp] theorem logEv_qWaits (e : HEv) : (logEv s e).qWaits = s.qWaits := rfl
@[simp] theorem logEv_queues (e : HEv) : (logEv s e).queues = s.queues := rfl
@[simp] theorem logEv_forwards (e : HEv) : (logEv s e).forwards = s.forwards := rfl
@[simp] theorem logEv_engWaits (e : HEv) : (logEv s e).engWaits = s.engWaits := rfl
@[simp] theorem logEv_hostHeld (e : HEv) : (logEv s e).hostHeld = s.hostHeld := rfl
@[simp] theorem logEv_ctxs (e : HEv) : (logEv s e).ctxs = s.ctxs := rfl
@[simp] theorem logEv_channels (e : HEv) : (logEv s e).channels = s.channels := rfl
@[simp] theorem logEv_ports (e : HEv) : (logEv s e).ports = s.ports := rfl
@[simp] theorem logEv_timebase (e : HEv) : (logEv s e).timebase = s.timebase := rfl
@[simp] theorem logEv_time (e : HEv) : (logEv s e).time = s.time := rfl
@[simp] theorem logEv_clock (e : HEv) : (logEv s e).clock = s.clock := rfl
@[simp] theorem logEv_clockRem (e : HEv) : (logEv s e).clockRem = s.clockRem := rfl
@[simp] theorem logEv_mhz (e : HEv) : (logEv s e).mhz = s.mhz := rfl
@[simp] theorem logEv_dev (e : HEv) : (logEv s e).dev = s.dev := rfl
@[simp] theorem logEv_devFixed (e : HEv) : (logEv s e).devFixed = s.devFixed := rfl
@[simp] theorem logEv_wbase (e : HEv) : (logEv s e).wbase = s.wbase := rfl
@[simp] theorem logEv_bar2 (e : HEv) : (logEv s e).bar2 = s.bar2 := rfl
@[simp] theorem logEv_teams (e : HEv) : (logEv s e).teams = s.teams := rfl
@[simp] theorem logEv_windows (e : HEv) : (logEv s e).windows = s.windows := rfl
@[simp] theorem logEv_hostAcc (e : HEv) : (logEv s e).hostAcc = s.hostAcc := rfl
@[simp] theorem logEv_peerAcc (e : HEv) : (logEv s e).peerAcc = s.peerAcc := rfl
@[simp] theorem logEv_readback (e : HEv) : (logEv s e).readback = s.readback := rfl
@[simp] theorem logEv_ageing (e : HEv) : (logEv s e).ageing = s.ageing := rfl
@[simp] theorem logEv_aged (e : HEv) : (logEv s e).aged = s.aged := rfl
@[simp] theorem logEv_firmware (e : HEv) : (logEv s e).firmware = s.firmware := rfl
@[simp] theorem logEv_running (e : HEv) : (logEv s e).running = s.running := rfl
@[simp] theorem logEv_fusedVersion (e : HEv) : (logEv s e).fusedVersion = s.fusedVersion := rfl
@[simp] theorem logEv_ready (e : HEv) : (logEv s e).ready = s.ready := rfl
@[simp] theorem logEv_powered (e : HEv) : (logEv s e).powered = s.powered := rfl
@[simp] theorem logEv_nonce (e : HEv) : (logEv s e).nonce = s.nonce := rfl
@[simp] theorem logEv_report (e : HEv) : (logEv s e).report = s.report := rfl
@[simp] theorem logEv_refills (e : HEv) : (logEv s e).refills = s.refills := rfl
@[simp] theorem logEv_debugger (e : HEv) : (logEv s e).debugger = s.debugger := rfl
@[simp] theorem logEv_replies (e : HEv) : (logEv s e).replies = s.replies := rfl
@[simp] theorem logEv_msix (e : HEv) : (logEv s e).msix = s.msix := rfl
@[simp] theorem logEv_cur (e : HEv) : (logEv s e).cur = s.cur := rfl
@[simp] theorem logEv_agenda (e : HEv) : (logEv s e).agenda = s.agenda := rfl
@[simp] theorem logEv_ctr (e : HEv) : (logEv s e).ctr = s.ctr := rfl
@[simp] theorem logEv_nextId (e : HEv) : (logEv s e).nextId = s.nextId := rfl
@[simp] theorem logEv_hist (e : HEv) : (logEv s e).hist = s.hist ++ [e] := rfl

/-! ### Squads, tasks and nodes after an update -/

theorem squadOf_modSquad (i j : Nat) (f : Squad → Squad) :
    squadOf (modSquad s i f) j = if i = j then (squadOf s j).map f else squadOf s j := aget_amod _ _ _ _
@[simp] theorem squadOf_modSquad_same (i : Nat) (f : Squad → Squad) :
    squadOf (modSquad s i f) i = (squadOf s i).map f := aget_amod_same _ _ _
@[simp] theorem squadOf_modSquad_ne {i j : Nat} (f : Squad → Squad) (h : j ≠ i) :
    squadOf (modSquad s i f) j = squadOf s j := aget_amod_ne _ _ h
@[simp] theorem taskOf_modTask_same (i : Nat) (f : Task → Task) : taskOf (modTask s i f) i = (taskOf s i).map f :=
  aget_amod_same _ _ _
@[simp] theorem taskOf_modTask_ne {i j : Nat} (f : Task → Task) (h : j ≠ i) : taskOf (modTask s i f) j = taskOf s j :=
  aget_amod_ne _ _ h
@[simp] theorem taskOf_modSquad (i j : Nat) (f : Squad → Squad) : taskOf (modSquad s i f) j = taskOf s j := rfl
@[simp] theorem squadOf_modTask (i j : Nat) (f : Task → Task) : squadOf (modTask s i f) j = squadOf s j := rfl
@[simp] theorem squadOf_modNode (i j : Nat) (f : Node → Node) : squadOf (modNode s i f) j = squadOf s j := rfl
@[simp] theorem squadOf_modCtx (i j : Nat) (f : Ctx → Ctx) : squadOf (modCtx s i f) j = squadOf s j := rfl
@[simp] theorem squadOf_setBudget (d c j : Nat) (b : Budget) : squadOf (setBudget s d c b) j = squadOf s j := rfl
@[simp] theorem squadOf_tickCtr (j : Nat) : squadOf (tickCtr s) j = squadOf s j := rfl
@[simp] theorem nodeOf_modNode_same (i : Nat) (f : Node → Node) : nodeOf (modNode s i f) i = (nodeOf s i).map f :=
  aget_amod_same _ _ _
@[simp] theorem nodeOf_modSquad (i j : Nat) (f : Squad → Squad) : nodeOf (modSquad s i f) j = nodeOf s j := rfl
@[simp] theorem nodeOf_modTask (i j : Nat) (f : Task → Task) : nodeOf (modTask s i f) j = nodeOf s j := rfl
@[simp] theorem ctxOf_modCtx_same (i : Nat) (f : Ctx → Ctx) : ctxOf (modCtx s i f) i = f (ctxOf s i) := by
  simp [ctxOf]
@[simp] theorem ctxOf_modCtx_ne {i j : Nat} (f : Ctx → Ctx) (h : j ≠ i) : ctxOf (modCtx s i f) j = ctxOf s j := by
  simp [ctxOf, h]
@[simp] theorem budgetOf_setBudget_same (d c : Nat) (b : Budget) : budgetOf (setBudget s d c b) d c = b := by
  simp [budgetOf]

end Sys2Proof.Machine
end

