-- ==== Sys2Proof/Laws/Issue.lean ====
section
/-! SUPPORT. The issue of one instruction: what `issue` answers, what it has debited and counted, and what `finish` leaves. -/

namespace Sys2Proof.Machine

/-- With nothing outstanding, an issue reads the registers as they stand. -/
theorem earlyView_settled (n : Nat) (q : Squad) (h : q.pend = []) : earlyView n q = q := by simp [earlyView, h]

theorem landFor_settled (ws : List RegW) (q : Squad) (h : q.pend = []) : landFor ws q = q := by
  cases q; simp_all [landFor]

theorem writeFixed_settled (ws : List RegW) (q : Squad) (h : q.pend = []) : writeFixed ws q = applyWs ws q := by
  simp [writeFixed, landFor_settled ws q h]

/-- A debit that can be paid is paid: the squad's own counters and its budget change, nothing else. -/
theorem pay_paid (s : State) (id : Nat) (q : Squad) (cost : Nat) (hq : squadOf s id = some q) (h : Funded s q cost) :
    ∃ t q1, pay s id q cost = .paid t ∧ squadOf t id = some q1 ∧ (∀ j, j ≠ id → squadOf t j = squadOf s j) ∧
      t = { s with squads := t.squads, budgets := t.budgets } ∧
      q1 = { q with granted := q1.granted, taken := q1.taken, perf := q1.perf, ebudDeb := q1.ebudDeb } := by
  unfold pay
  by_cases hc : cost = 0
  · exact ⟨s, q, by simp [hc], hq, fun _ _ => rfl, rfl, rfl⟩
  by_cases hg : q.granted = true
  · refine ⟨modSquad s id fun q => { q with granted := false, taken := (0, 0) }, { q with granted := false, taken := (0, 0) }, by simp [hc, hg], ?_, ?_, rfl, rfl⟩
    · simp [hq]
    · intro j hj; simp [hj]
  · obtain ⟨hcap, hsp, hl⟩ := (h.resolve_left hc).resolve_left hg
    refine ⟨modSquad (setBudget s (dieOf q) (ctxId s q)
      (takeUnits (budgetOf s (dieOf q) (ctxId s q)) (deadline s q) cost)) id (countDebit cost), countDebit cost q, ?_, ?_, ?_,
      rfl, rfl⟩
    · simp [hc, hg, hcap, hsp, hl]
    · simp [hq]
    · intro j hj; simp [hj]

/-- What an instruction's own effect starts from. -/
theorem issued_squad (s : State) (id : Nat) (q : Squad) (p : Path) (h : Hdr) (cls : Nat) (occ : Occ)
    (hI : Issues s id q p h cls) :
    ∃ q1, squadOf (issued s id q p h cls occ) id = some q1 ∧
      (∀ j, j ≠ id → squadOf (issued s id q p h cls occ) j = squadOf s j) ∧
      issued s id q p h cls occ = { s with
        squads := (issued s id q p h cls occ).squads, budgets := (issued s id q p h cls occ).budgets, ctr := s.ctr + 1 } ∧
      q1 = { q with granted := q1.granted, taken := q1.taken, perf := q1.perf, ebudDeb := q1.ebudDeb } := by
  obtain ⟨t, q1, hp, hq1, ho, ht, he⟩ := pay_paid s id q _ hI.squad hI.funds
  refine ⟨countIssue occ (runs p h q) q1, ?_, ?_, ?_, ?_⟩
  · simp [issued, hp, hq1]
  · intro j hj; simp [issued, hp, ho j hj, hj]
  · simp only [issued, hp]; rw [ht]; rfl
  · rw [he]; rfl

/-- The issue of an instruction that can issue is its meaning, from the state in which the cost has been debited. -/
theorem issue_eq (s : State) (id : Nat) (q : Squad) (p : Path) (h : Hdr) (cls : Nat) (occ : Occ) (body : Iss → State → Res)
    (hI : Issues s id q p h cls) :
    issue h cls occ s body = .next (finish h (seen id q p h)
      (unpaidIll (ungrant s id q) (body (seen id q p h) (issued s id q p h cls occ)))) := by
  obtain ⟨t, q1, hp, -⟩ := pay_paid s id q _ hI.squad hI.funds
  unfold issue
  simp only [hI.turn, Option.bind_some, hI.squad, hI.path, hI.idle, retrying, earlyView_settled _ _ hI.settled, hp,
    Option.getD_some, Bool.false_eq_true, if_false, issued]
  rfl

/-- A meaning that is done leaves the path at the next index. -/
theorem issue_ok (s t : State) (id : Nat) (q q1 : Squad) (p : Path) (h : Hdr) (cls : Nat) (occ : Occ)
    (body : Iss → State → Res) (hI : Issues s id q p h cls)
    (hb : body (seen id q p h) (issued s id q p h cls occ) = .ok t) (hq : squadOf t id = some q1)
    (ho : ∀ j, j ≠ id → squadOf t j = squadOf s j) (hp : q1.paths = q.paths) (hf : q1.fault = none)
    (hs : q1.settling = q.settling) :
    ∃ u q', issue h cls occ s body = .next u ∧ Went s u id q q' p h ∧ u = { t with squads := u.squads } ∧
      q' = { q1 with paths := q'.paths, wait := none, settling := q'.settling, select := none } := by
  refine ⟨modSquad t id fun q => { advance p.entry q with wait := none, settling := q.settling || h.s, select := none },
    { advance p.entry q1 with wait := none, settling := q1.settling || h.s, select := none }, ?_, ?_, rfl, rfl⟩
  · rw [issue_eq s id q p h cls occ body hI, hb]; rfl
  · constructor
    · simp [hq]
    · intro j hj; simp [ho j hj, hj]
    · simp [advance, modPath, hp]
    · rfl
    · simpa [advance, modPath] using hf
    · simp [hs]

end Sys2Proof.Machine
end

