-- ==== Sys2Proof/Laws/Registers.lean ====
section
/-! SUPPORT. Register writes: what they leave alone, and the completion of an instruction whose result is of fixed or of
variable latency. -/

namespace Sys2Proof.Machine

/-- A register write changes register files and flags only. -/
theorem applyW_frame (w : RegW) (q : Squad) :
    applyW w q = { q with
      v := (applyW w q).v, s := (applyW w q).s, p := (applyW w q).p, b := (applyW w q).b, vi := (applyW w q).vi,
      im := (applyW w q).im, flg := (applyW w q).flg } := by
  cases w <;> try rfl
  rename_i r t x
  simp only [applyW]
  split <;> rfl

theorem applyWs_regs (ws : List RegW) (q : Squad) :
    ∃ v s p b vi im flg, applyWs ws q = { q with v := v, s := s, p := p, b := b, vi := vi, im := im, flg := flg } := by
  induction ws generalizing q with
  | nil => exact ⟨_, _, _, _, _, _, _, rfl⟩
  | cons w r ih =>
    obtain ⟨v, s, p, b, vi, im, flg, h⟩ := ih (applyW w q)
    refine ⟨v, s, p, b, vi, im, flg, ?_⟩
    show applyWs r (applyW w q) = _
    rw [h, applyW_frame]

/-- What the issue has counted does not bear on the writes. -/
theorem applyWs_counted (ws : List RegW) (q : Squad) (g : Bool) (k : Nat × Nat) (pf : Tbl W64) (e : Nat) :
    applyWs ws { q with granted := g, taken := k, perf := pf, ebudDeb := e } =
      { applyWs ws q with granted := g, taken := k, perf := pf, ebudDeb := e } := by
  induction ws generalizing q with
  | nil => rfl
  | cons w r ih =>
    show applyWs r (applyW w _) = { applyWs r (applyW w q) with granted := g, taken := k, perf := pf, ebudDeb := e }
    rw [← ih]
    congr 1
    cases w <;> try rfl
    rename_i r' t x
    simp only [applyW]
    split <;> rfl

/-- The writes see registers only. -/
theorem applyWs_sees (ws : List RegW) (a b : Squad) (h : SameRegs a b) :
    SameRegs (applyWs ws a) (applyWs ws b) := by
  induction ws generalizing a b with
  | nil => exact h
  | cons w r ih =>
    apply ih
    obtain ⟨h1, h2, h3, h4, h5, h6, h7⟩ := h
    cases w
    case p r' t x => simp only [applyW]; split <;> simp_all [SameRegs]
    all_goals simp_all [applyW, SameRegs]

/-- An instruction whose meaning is done with the registers' new values in place completes with them. -/
theorem fixed_done {s : State} {id : Nat} {q : Squad} {p : Path} {h : Hdr} {cls : Nat} {occ : Occ} {body : Iss → State → Res}
    {ws : List RegW} (hI : Issues s id q p h cls)
    (hb : body (seen id q p h) (issued s id q p h cls occ) =
      .ok (putFixed (issued s id q p h cls occ) (seen id q p h) ws)) :
    ∃ t q', issue h cls occ s body = .next t ∧ Went s t id q q' p h ∧ OnlySquads s t ∧ SameSquad q q' ∧ q'.pend = [] ∧
      SameRegs (applyWs ws q) q' := by
  obtain ⟨q1, h1, ho, ht, he⟩ := issued_squad s id q p h cls occ hI
  have hp1 : q1.pend = [] := by rw [he]; exact hI.settled
  obtain ⟨v, s', p', b, vi, im, flg, hA⟩ := applyWs_regs ws q
  have hq2 : writeFixed ws q1 = { q with v := v, s := s', p := p', b := b, vi := vi, im := im, flg := flg,
                                         granted := q1.granted, taken := q1.taken, perf := q1.perf, ebudDeb := q1.ebudDeb } := by
    rw [writeFixed_settled _ _ hp1, he, applyWs_counted, hA]
  obtain ⟨u, q', hu, hw, hue, hqe⟩ := issue_ok s (putFixed (issued s id q p h cls occ) (seen id q p h) ws) id q
    (writeFixed ws q1) p h cls occ body hI hb (by simp [putFixed, seen, h1])
    (by intro j hj; simp [putFixed, seen, ho j hj, hj]) (by rw [hq2]) (by rw [hq2]; exact hI.whole) (by rw [hq2])
  refine ⟨u, q', hu, hw, ?_, ?_, ?_, ?_⟩
  · have e1 : putFixed (issued s id q p h cls occ) (seen id q p h) ws =
        { issued s id q p h cls occ with squads := (putFixed (issued s id q p h cls occ) (seen id q p h) ws).squads } := rfl
    unfold OnlySquads
    rw [hue, e1, ht]
  · unfold SameSquad; rw [hqe, hq2]
  · rw [hqe, hq2]; exact hI.settled
  · rw [hqe, hq2, hA]; simp [SameRegs]

/-- An instruction whose meaning leaves the squad's registers and lists alone completes so. -/
theorem plain_done {s t : State} {id : Nat} {q : Squad} {p : Path} {h : Hdr} {cls : Nat} {occ : Occ}
    {body : Iss → State → Res} (hI : Issues s id q p h cls)
    (hb : body (seen id q p h) (issued s id q p h cls occ) = .ok t)
    (ht : t.squads = (issued s id q p h cls occ).squads) :
    ∃ u q', issue h cls occ s body = .next u ∧ Went s u id q q' p h ∧ SameSquad q q' ∧ SameRegs q q' ∧ q'.pend = [] ∧
      u = { t with squads := u.squads } := by
  obtain ⟨q1, h1, ho, -, he⟩ := issued_squad s id q p h cls occ hI
  have hsq : ∀ j, squadOf t j = squadOf (issued s id q p h cls occ) j := by intro j; simp [squadOf, ht]
  obtain ⟨u, q', hu, hw, hue, hqe⟩ := issue_ok s t id q q1 p h cls occ body hI hb (by rw [hsq, h1])
    (by intro j hj; rw [hsq, ho j hj]) (by rw [he]) (by rw [he]; exact hI.whole) (by rw [he])
  refine ⟨u, q', hu, hw, ?_, ?_, ?_, hue⟩
  · unfold SameSquad; rw [hqe, he]
  · rw [hqe, he]; simp [SameRegs]
  · rw [hqe, he]; exact hI.settled

/-- An instruction whose meaning has set the issuing squad itself. -/
theorem turn_done {s : State} {id : Nat} {q : Squad} {p : Path} {h : Hdr} {cls : Nat} {occ : Occ}
    {body : Iss → State → Res} {f : Squad → Squad} (hI : Issues s id q p h cls)
    (hb : body (seen id q p h) (issued s id q p h cls occ) = .jump (modSquad (issued s id q p h cls occ) id f))
    (hp : ∀ q1, q1.pend = [] → (f q1).pend = []) (hf : ∀ q1, q1.fault = none → (f q1).fault = none)
    (hs : ∀ q1, (f q1).settling = q1.settling) :
    ∃ t q' q1, issue h cls occ s body = .next t ∧ Turned s t id q q' h ∧ OnlySquads s t ∧ q'.pend = [] ∧
      squadOf (issued s id q p h cls occ) id = some q1 ∧
      q1 = { q with granted := q1.granted, taken := q1.taken, perf := q1.perf, ebudDeb := q1.ebudDeb } ∧
      q' = { f q1 with wait := none, settling := q'.settling, select := none } := by
  obtain ⟨q1, h1, ho, ht, he⟩ := issued_squad s id q p h cls occ hI
  have hp1 : q1.pend = [] := by rw [he]; exact hI.settled
  have hf1 : q1.fault = none := by rw [he]; exact hI.whole
  refine ⟨modSquad (modSquad (issued s id q p h cls occ) id f) id
      (fun q => { q with wait := none, settling := q.settling || h.s, select := none }),
    { f q1 with wait := none, settling := (f q1).settling || h.s, select := none }, q1, ?_, ?_, ?_, hp q1 hp1, h1, he, rfl⟩
  · rw [issue_eq s id q p h cls occ body hI, hb]; rfl
  · constructor
    · simp [h1]
    · intro j hj; simp [hj, ho j hj]
    · rfl
    · exact hf q1 hf1
    · rw [hs, he]
  · unfold OnlySquads modSquad
    simp only
    rw [ht]

/-- An instruction whose meaning leaves its results outstanding owes them. -/
theorem later_done {s t : State} {id : Nat} {q : Squad} {p : Path} {h : Hdr} {cls : Nat} {occ : Occ}
    {body : Iss → State → Res} {ws : List RegW} {w : Option Nat} (hI : Issues s id q p h cls)
    (hb : body (seen id q p h) (issued s id q p h cls occ) = .ok (putLater t (seen id q p h) ws w))
    (ht : t.squads = (issued s id q p h cls occ).squads) :
    ∃ u q', issue h cls occ s body = .next u ∧ Went s u id q q' p h ∧ SameSquad q q' ∧ SameRegs q q' ∧
      q'.pend.length = (if ws = [] then 0 else 1) ∧ SameRegs (applyWs ws q) (landed q') ∧
      u = { t with squads := u.squads, nextId := u.nextId } := by
  by_cases hw : ws = []
  · subst hw
    obtain ⟨u, q', hu, hw, hs, hr, hp, hue⟩ := plain_done (occ := occ) (body := body) (t := t) hI
      (by rw [hb]; rfl) ht
    refine ⟨u, q', hu, hw, hs, hr, by simp [hp], ?_, by rw [hue]⟩
    simpa [landed, hp, applyWs, SameRegs] using hr
  · obtain ⟨q1, h1, ho, -, he⟩ := issued_squad s id q p h cls occ hI
    have hp1 : q1.pend = [] := by rw [he]; exact hI.settled
    have hsq : ∀ j, squadOf t j = squadOf (issued s id q p h cls occ) j := by intro j; simp [squadOf, ht]
    have hl : putLater t (seen id q p h) ws w =
        modSquad { t with nextId := t.nextId + 1 } id (writeLater t.nextId ws w) := by
      unfold putLater; rw [if_neg (by simpa using hw)]; rfl
    have hwl : writeLater t.nextId ws w q1 = { q1 with pend := [⟨t.nextId, true, ws, w⟩] } := by
      simp [writeLater, landFor_settled ws q1 hp1, hp1]
    obtain ⟨u, q', hu, hw', hue, hqe⟩ := issue_ok s _ id q (writeLater t.nextId ws w q1) p h cls occ body hI hb
      (by rw [hl]; simp; exact ⟨q1, by rw [← h1, ← hsq]; rfl, rfl⟩)
      (by intro j hj; rw [hl]; simp [hj]; rw [← ho j hj, ← hsq]; rfl)
      (by rw [hwl, he]) (by rw [hwl, he]; exact hI.whole) (by rw [hwl, he])
    refine ⟨u, q', hu, hw', ?_, ?_, ?_, ?_, ?_⟩
    · unfold SameSquad; rw [hqe, hwl, he]
    · rw [hqe, hwl, he]; simp [SameRegs]
    · rw [hqe, hwl]; simp [hw]
    · rw [hqe, hwl]
      simp only [landed, List.foldl_cons, List.foldl_nil]
      apply applyWs_sees
      rw [he]; simp [SameRegs]
    · rw [hue, hl]; rfl

end Sys2Proof.Machine
end

