-- ==== Sys2Proof/Laws/Faults.lean ====
section
/-! SUPPORT. Delivery of a fault of a settled squad. -/

namespace Sys2Proof.Machine

/-- Leaving the waiting lists changes budgets and lists only. -/
theorem leaveLists_frame (s : State) (id : Nat) (q : Squad) :
    leaveLists s id q = { s with budgets := (leaveLists s id q).budgets } := by
  simp only [leaveLists]
  split <;> rfl

theorem unlist_frame (s : State) (id : Nat) (q : Squad) :
    ∃ b w, unlist s id q = { s with budgets := b, qWaits := w } := by
  refine ⟨(leaveLists s id q).budgets, (unlist s id q).qWaits, ?_⟩
  simp only [unlist]
  rw [leaveLists_frame]

/-- The changed squad. -/
theorem squadOf_modSquad_some {s : State} {id : Nat} {q : Squad} (f : Squad → Squad) (h : squadOf s id = some q) :
    squadOf (modSquad s id f) id = some (f q) := by simp [h]

/-- Delivery by the first rule of R381 that applies. -/
theorem takeFault_delivered (s : State) (id : Nat) (q : Squad) (p : Path) (f : FaultInfo) (hq : squadOf s id = some q)
    (hpk : f.park = false) : Delivered s (takeFault s id q p f) id q p f := by
  obtain ⟨b, w, hu⟩ := unlist_frame s id q
  have hs : ∀ j, squadOf (unlist s id q) j = squadOf s j := by intro j; rw [hu]; rfl
  have hk : ∀ j, taskOf (unlist s id q) j = taskOf s j := by intro j; rw [hu]; rfl
  have ht : trapHeld (unlist s id q) q = trapHeld s q := by rw [hu]; rfl
  have hd : (unlist s id q).debugger = s.debugger := by rw [hu]
  have htk : (unlist s id q).tasks = s.tasks := by rw [hu]
  have htm : (unlist s id q).time = s.time := by rw [hu]
  have hb : SameBytes s (unlist s id q) := by rw [hu]; exact ⟨rfl, rfl, rfl⟩
  have hg : SameTags s (unlist s id q) := by rw [hu]; exact ⟨rfl, rfl, rfl⟩
  unfold takeFault
  generalize unlist s id q = u at *
  simp only [hpk, Bool.false_eq_true, if_false, Delivered, hd, ht]
  by_cases h1 : s.debugger = true ∧ f.code = 0x11
  · have h1' : (s.debugger && f.code == 0x11) = true := by simpa using h1
    rw [if_pos h1']
    refine ⟨hb, hg, fun j hj => by simp [hj, hs], _, squadOf_modSquad_some _ ((hs id).trans hq), ⟨rfl, rfl, rfl, rfl, rfl, rfl, rfl⟩, rfl, ?_⟩
    rw [if_pos h1]
    exact ⟨rfl, rfl, rfl, htk⟩
  have h1' : ¬ (s.debugger && f.code == 0x11) = true := by simpa using h1
  rw [if_neg h1']
  by_cases h2 : q.trap = none ∧ f.code ≠ 0x05 ∧ trapHeld s q = true
  · have h2' : (q.trap.isNone && f.code != 0x05 && trapHeld s q) = true := by simp [h2]
    rw [if_pos h2']
    refine ⟨hb, hg, fun j hj => by simp [hj, hs], _, squadOf_modSquad_some _ ((hs id).trans hq), ⟨rfl, rfl, rfl, rfl, rfl, rfl, rfl⟩, rfl, ?_⟩
    rw [if_neg h1, if_pos h2]
    exact ⟨rfl, htk, rfl, rfl⟩
  have h2' : ¬ (q.trap.isNone && f.code != 0x05 && trapHeld s q) = true := by simpa [and_assoc] using h2
  rw [if_neg h2']
  by_cases h3 : f.code = 0x11
  · rw [if_pos (by simpa using h3)]
    refine ⟨hb, hg, fun j hj => by simp [hj, hs], _, squadOf_modSquad_some _ ((hs id).trans hq), ⟨rfl, rfl, rfl, rfl, rfl, rfl, rfl⟩, rfl, ?_⟩
    rw [if_neg h1, if_neg h2, if_pos h3]
    exact ⟨rfl, rfl, rfl, htk⟩
  · rw [if_neg (by simpa using h3)]
    refine ⟨hb, hg, fun j hj => by simp [requestKill, hj, hs], _, squadOf_modSquad_some _ ((hs id).trans hq),
      ⟨rfl, rfl, rfl, rfl, rfl, rfl, rfl⟩, rfl, ?_⟩
    rw [if_neg h1, if_neg h2, if_neg h3]
    refine ⟨rfl, rfl, fun tk hk' hn => ?_⟩
    simp only [requestKill, taskOf_modTask_same, taskOf_modSquad, hk, hk', Option.map_some]
    have hne := hn
    cases hst : tk.stopping <;> simp_all [faultRec]

/-- What delivery leaves, said of another state with the same memories, tasks and banks and another squad with the same
registers and paths. -/
theorem Delivered.of_same {s s' t : State} {id : Nat} {q q2 : Squad} {p p' : Path} {f f' : FaultInfo}
    (h : Delivered s' t id q2 p' f') (hb : SameBytes s s') (hg : SameTags s s')
    (ho : ∀ j, j ≠ id → squadOf s' j = squadOf s j) (hr : SameRegs q q2) (hj : q2.joins = q.joins)
    (hpa : q2.paths = q.paths) (htr : q2.trap = q.trap) (hd : s'.debugger = s.debugger) (htk : s'.tasks = s.tasks)
    (hth : trapHeld s' q2 = trapHeld s q) (htm : s'.time = s.time) (hq : q2.task = q.task ∧ q2.core = q.core ∧ q2.idx = q.idx)
    (hp : p'.entry = p.entry ∧ p'.pc = p.pc) (hf : f' = { f with late := f'.late }) : Delivered s t id q p f := by
  obtain ⟨h1, h2, h3, q', h4, h5, h6, h7⟩ := h
  have ht : ∀ j, taskOf s' j = taskOf s j := by intro j; simp [taskOf, htk]
  have hadv : (advance p.entry q2).paths = (advance p.entry q).paths := by simp [advance, modPath, hpa]
  have e1 : f'.code = f.code := by rw [hf]
  have e2 : f'.sub = f.sub := by rw [hf]
  have e3 : f'.thread = f.thread := by rw [hf]
  have e4 : f'.mask = f.mask := by rw [hf]
  have e5 : f'.addr = f.addr := by rw [hf]
  have e6 : f'.advance = f.advance := by rw [hf]
  refine ⟨⟨h1.1.trans hb.1, h1.2.1.trans hb.2.1, h1.2.2.trans hb.2.2⟩,
    ⟨h2.1.trans hg.1, h2.2.1.trans hg.2.1, h2.2.2.trans hg.2.2⟩, fun j hj => (h3 j hj).trans (ho j hj), q', h4, ?_,
    h6.trans hj, ?_⟩
  · obtain ⟨a1, a2, a3, a4, a5, a6, a7⟩ := h5
    obtain ⟨b1, b2, b3, b4, b5, b6, b7⟩ := hr
    exact ⟨a1.trans b1, a2.trans b2, a3.trans b3, a4.trans b4, a5.trans b5, a6.trans b6, a7.trans b7⟩
  · simpa only [hd, e1, e2, e3, e4, e5, e6, htr, hth, hadv, hpa, htk, hp.1, hp.2, hq.1, hq.2.1, hq.2.2, htm, ht] using h7

/-- An instruction whose meaning faults has its fault delivered: no register, no byte and no other squad has changed. -/
theorem fault_done {s : State} {id : Nat} {q : Squad} {p : Path} {h : Hdr} {cls : Nat} {occ : Occ} {body : Iss → State → Res}
    {f : FaultInfo} (hI : Issues s id q p h cls)
    (hb : body (seen id q p h) (issued s id q p h cls occ) = .fault (issued s id q p h cls occ) f)
    (hpk : f.park = false) (hc : f.code ≠ 1) :
    ∃ t, issue h cls occ s body = .next t ∧ Delivered s t id q p f := by
  obtain ⟨q1, h1, ho, ht, he⟩ := issued_squad s id q p h cls occ hI
  rw [issue_eq s id q p h cls occ body hI, hb]
  refine ⟨_, rfl, ?_⟩
  simp only [unpaidIll, if_neg hc, finish, seen, raiseFault, squadOf_modSquad_same, h1, Option.map_some]
  have hfl : q1.fault = none := by rw [he]; exact hI.whole
  have hpe : q1.pend = [] := by rw [he]; exact hI.settled
  rw [if_neg (by simp [hfl]), if_pos (by simp [hpe])]
  have hrp : ∃ p', faultPath { q1 with wait := none, select := none } { f with late := some (p.entry, p.pc) } = some p' ∧
      p'.entry = p.entry ∧ p'.pc = p.pc := by
    have hin : p ∈ q1.paths := by
      rw [he]
      have hr := hI.path
      unfold runningPath at hr
      split at hr
      · exact List.mem_of_find?_eq_some hr
      · split at hr
        · exact List.mem_of_find?_eq_some hr
        · exact List.mem_of_head? hr
    unfold faultPath
    cases hfd : q1.paths.find? fun a => a.entry == p.entry with
    | some a => exact ⟨{ a with pc := p.pc }, by simp [hfd], by simpa using List.find?_some hfd, rfl⟩
    | none => simpa using List.find?_eq_none.1 hfd p hin
  obtain ⟨p', hp', hpe'⟩ := hrp
  rw [hp']
  have hsq : squadOf (modSquad (issued s id q p h cls occ) id fun q => { q with wait := none, select := none }) id =
      some { q1 with wait := none, select := none } := squadOf_modSquad_some _ h1
  refine Delivered.of_same (takeFault_delivered _ id _ p' _ hsq hpk) ?_ ?_ ?_ ?_ ?_ ?_ ?_ ?_ ?_ ?_ ?_ ?_ hpe' rfl
  · rw [ht]; exact ⟨rfl, rfl, rfl⟩
  · rw [ht]; exact ⟨rfl, rfl, rfl⟩
  · intro j hj; simp [hj, ho j hj]
  · rw [he]; exact ⟨rfl, rfl, rfl, rfl, rfl, rfl, rfl⟩
  · rw [he]
  · rw [he]
  · rw [he]
  · rw [ht]; rfl
  · rw [ht]; rfl
  · rw [ht, he]; rfl
  · rw [ht]; rfl
  · rw [he]; exact ⟨rfl, rfl, rfl⟩

end Sys2Proof.Machine
end

