-- ==== Sys2Proof/Laws/Memory.lean ====
section
/-! SUPPORT. Bytes of memory and scratchpad: what a store changes, what a read after it gives, and the canonical form of
memory. -/

namespace Sys2Proof.Machine

/-! ### What a store leaves alone -/

/-- A byte store changes byte memories and the marks of `.w` tests, nothing else. -/
theorem wrByte_frame (s : State) (sp : Space) (a : Nat) (x : Byte) :
    wrByte s sp a x = { s with
      mem := (wrByte s sp a x).mem, scr := (wrByte s sp a x).scr, zown := (wrByte s sp a x).zown,
      peer := (wrByte s sp a x).peer } := by
  cases sp <;> rfl

theorem wrBytes_frame' (s : State) (sp : Space) (a : Nat) (bs : List Byte) :
    ∃ m c z p, wrBytes s sp a bs = { s with mem := m, scr := c, zown := z, peer := p } := by
  induction bs generalizing s a with
  | nil => exact ⟨_, _, _, _, rfl⟩
  | cons b r ih =>
    obtain ⟨m, c, z, p, h⟩ := ih (wrByte s sp a b) (a + 1)
    refine ⟨m, c, z, p, ?_⟩
    rw [wrBytes, h]
    cases sp <;> rfl

theorem wrBytes_frame (s : State) (sp : Space) (a : Nat) (bs : List Byte) :
    wrBytes s sp a bs = { s with
      mem := (wrBytes s sp a bs).mem, scr := (wrBytes s sp a bs).scr, zown := (wrBytes s sp a bs).zown,
      peer := (wrBytes s sp a bs).peer } := by
  obtain ⟨m, c, z, p, h⟩ := wrBytes_frame' s sp a bs
  rw [h]

theorem wrN_frame (s : State) (sp : Space) (a n x : Nat) :
    wrN s sp a n x = { s with
      mem := (wrN s sp a n x).mem, scr := (wrN s sp a n x).scr, zown := (wrN s sp a n x).zown,
      peer := (wrN s sp a n x).peer } := wrBytes_frame s sp a _

/-- A descriptor store changes the tag planes only. -/
theorem wrTag_frame (s : State) (sp : Space) (b : Nat) (x : W16) :
    wrTag s sp b x = { s with
      tags := (wrTag s sp b x).tags, scrTag := (wrTag s sp b x).scrTag, peerTag := (wrTag s sp b x).peerTag } := by
  cases sp <;> rfl

@[simp] theorem wrTag_mem (s : State) (sp : Space) (b : Nat) (x : W16) : (wrTag s sp b x).mem = s.mem := by
  cases sp <;> rfl
@[simp] theorem wrTag_scr (s : State) (sp : Space) (b : Nat) (x : W16) : (wrTag s sp b x).scr = s.scr := by
  cases sp <;> rfl

/-! ### Read after write -/

theorem rdByte_wrByte_same (s : State) (sp : Space) (a : Nat) (x : Byte) : rdByte (wrByte s sp a x) sp a = x := by
  cases sp <;> simp [rdByte, wrByte]

theorem rdByte_wrByte_other (s : State) (sp sq : Space) (a b : Nat) (x : Byte) (h : ¬ samePlace sp a sq b) :
    rdByte (wrByte s sp a x) sq b = rdByte s sq b := by
  cases sp <;> cases sq <;> simp_all [rdByte, wrByte, samePlace, tget_tset]

/-- A byte outside the stored ones reads as before. -/
theorem rdByte_wrBytes_other (s : State) (sp sq : Space) (a b : Nat) (bs : List Byte)
    (h : ∀ i, i < bs.length → ¬ samePlace sp (a + i) sq b) : rdByte (wrBytes s sp a bs) sq b = rdByte s sq b := by
  induction bs generalizing s a with
  | nil => rfl
  | cons y r ih =>
    simp only [wrBytes]
    rw [ih]
    · exact rdByte_wrByte_other _ _ _ _ _ _ (h 0 (by simp))
    · intro i hi
      have := h (i + 1) (by simpa using hi)
      rwa [show a + 1 + i = a + (i + 1) by omega]

/-- Byte `i` of a stored list reads back. -/
theorem rdByte_wrBytes_same (s : State) (sp : Space) (a i : Nat) (bs : List Byte) (hi : i < bs.length) :
    rdByte (wrBytes s sp a bs) sp (a + i) = bs[i] := by
  induction bs generalizing s a i with
  | nil => simp at hi
  | cons y r ih =>
    simp only [wrBytes]
    cases i with
    | zero =>
      rw [rdByte_wrBytes_other]
      · simpa using rdByte_wrByte_same s sp a y
      · intro j _
        cases sp <;> simp [samePlace, scrKey, peerKey] <;> omega
    | succ i =>
      have := ih (wrByte s sp a y) (a + 1) i (by simpa using hi)
      rw [show a + (i + 1) = a + 1 + i by omega, this]
      rfl

theorem rdBytes_length (s : State) (sp : Space) (a n : Nat) : (rdBytes s sp a n).length = n := by
  induction n generalizing a with
  | zero => rfl
  | succ n ih => simp [rdBytes, ih]

/-! ### The canonical form of memory -/

/-- A byte store keeps memory in its canonical form. -/
theorem wf_wrByte (s : State) (sp : Space) (a : Nat) (x : Byte) (h : Memory.wf s.mem = true) :
    Memory.wf (wrByte s sp a x).mem = true := by
  cases sp
  · exact Tbl.wf_tset _ _ _ _ h
  · exact h
  · exact h

theorem wf_wrBytes (s : State) (sp : Space) (a : Nat) (bs : List Byte) (h : Memory.wf s.mem = true) :
    Memory.wf (wrBytes s sp a bs).mem = true := by
  induction bs generalizing s a with
  | nil => exact h
  | cons b r ih => exact ih _ _ (wf_wrByte s sp a b h)

theorem wf_wrN (s : State) (sp : Space) (a n x : Nat) (h : Memory.wf s.mem = true) :
    Memory.wf (wrN s sp a n x).mem = true := wf_wrBytes s sp a _ h

/-! ### Device reads -/

/-- A walk depends on the page number alone. -/
theorem walkFrom_page (s : State) {va vb : Nat} (h : va / 65536 = vb / 65536) (n tbl : Nat) :
    walkFrom s va n tbl = walkFrom s vb n tbl := by
  induction n generalizing tbl with
  | zero => rfl
  | succ n ih =>
    have shift (k m : Nat) : va / 2 ^ (16 + k) % m = vb / 2 ^ (16 + k) % m := by
      rw [Nat.pow_add, ← Nat.div_div_eq_div_mul, ← Nat.div_div_eq_div_mul]; exact congrArg (· / 2 ^ k % m) h
    have low (k : Nat) : va % 2 ^ (16 + k) / 65536 = vb % 2 ^ (16 + k) / 65536 := by
      rw [Nat.pow_add, show (2 : Nat) ^ 16 = 65536 from rfl, Nat.mod_mul_right_div_self, Nat.mod_mul_right_div_self, h]
    unfold walkFrom
    simp only [ih]
    have : 3 - n = 0 ∨ 3 - n = 1 ∨ 3 - n = 2 ∨ 3 - n = 3 := by omega
    obtain e | e | e | e := this <;> simp only [e, levelShift]
    · have a := shift 23; have b := low 23; simp only [Nat.reduceAdd] at a b; simp only [a, b]
    · have a := shift 14; have b := low 14; simp only [Nat.reduceAdd] at a b; simp only [a, b]
    · have a := shift 5; have b := low 5; simp only [Nat.reduceAdd] at a b; simp only [a, b]
    · have a := shift 0; have b := low 0; simp only [Nat.reduceAdd] at a b; simp only [a, b]

/-- The page depends on the page number alone. -/
theorem pageOf_page (s : State) (ctx : Nat) {va vb : Nat} (h : va / 65536 = vb / 65536) : pageOf s ctx va = pageOf s ctx vb := by
  unfold pageOf cachedPage walkPage
  simp only [h, walkFrom_page s h]

/-- A device read inside one page of the device's memory gives the bytes stored there. -/
theorem devRead_page {s : State} {ctx va n : Nat} {p : Page} (hp : pageOf s ctx va = .ok p) (hfit : va % 65536 + n ≤ 65536)
    (hva : va + n ≤ 2 ^ 51) (hm : ∀ k, k < n → populated (p.pa + va % 65536 + k) = true) :
    devRead s ctx va n = some (rdBytes s .mem (p.pa + va % 65536) n) := by
  induction n generalizing va with
  | zero => rfl
  | succ n ih =>
    have ht : translate s ctx va false = .ok (.mem, p.pa + va % 65536) := by
      have := hm 0 (by omega)
      rw [Nat.add_zero] at this
      have hv : ¬ va ≥ 2 ^ 51 := by omega
      simp only [translate, hp, placePa, this, hv, if_false, if_true, Bool.false_and, Bool.false_eq_true]
    simp only [devRead, ht, rdBytes]
    cases n with
    | zero => rfl
    | succ n =>
      have hq : (va + 1) / 65536 = va / 65536 := by omega
      have hr : (va + 1) % 65536 = va % 65536 + 1 := by omega
      rw [ih (by rw [pageOf_page s ctx hq, hp]) (by omega) (by omega) (fun k hk => by
        have := hm (k + 1) (by omega); rw [hr]; convert this using 2; omega), hr]
      rfl

end Sys2Proof.Machine
end

