-- ==== Sys2Proof/Tests/Slice0.lean ====
section
/-! SUPPORT. Tests: ill-formed terms that the check refuses, words of the spec's examples, and for each obligation a state and
operands that meet the hypotheses of each of its clauses. -/

namespace Sys2Proof.Tests

set_option Elab.async false

open Sys2Proof Sys2Proof.Machine

/-! ### A small machine: one squad on lane 0 of core 0 -/

def h0 : Hdr := ⟨false, 0, false, 0, 0⟩
/-- A guard that no thread passes. -/
def hNot : Hdr := ⟨true, 0, false, 0, 0⟩
/-- A guard on p1. -/
def hP1 : Hdr := ⟨false, 1, false, 0, 0⟩
def v (n : Nat) : Opnd := .v n false false
def r (n : Nat) : Opnd := .s n false false

/-- A squad whose next cost is granted. -/
def q0 : Squad := { newSquad 1 0 0 0 0 0 with granted := true }
def p0 : Path := ⟨0, ⟨false, 0⟩, allThreads, allThreads, 0, none, []⟩
def s0 : State := { State.reset.withFetchWord 96 0 with cur := some 0, squads := [(0, q0)] }
/-- The machine with another squad. -/
def on (q : Squad) : State := { s0 with squads := [(0, q)] }

/-- What makes a squad with a granted cost issue. -/
theorem ready {s : State} {id : Nat} {q : Squad} {p : Path} (h : Hdr) (cls : Nat) (h1 : s.cur = some id)
    (h2 : squadOf s id = some q) (h3 : runningPath q = some p) (h4 : q.wait = none) (h5 : q.fault = none) (h6 : q.pend = [])
    (h7 : q.granted = true) : Issues s id q p h cls := ⟨h1, h2, h3, h4, h5, h6, .inr (.inl h7)⟩

theorem issue0 (h : Hdr) (cls : Nat) : Issues s0 0 q0 p0 h cls := ready h cls rfl rfl rfl rfl rfl rfl rfl

/-! ### Ill-formed terms -/

theorem test_wf_header : (Instr.nop ⟨false, 32, false, 0, 0⟩).wf = false ∧ (Instr.nop ⟨false, 0, false, 8, 0⟩).wf = false ∧
    (Instr.nop ⟨false, 0, false, 0, 4⟩).wf = false := by decide +kernel
theorem test_wf_modifiers : (Instr.movw h0 .u64 (v 0) (2 ^ 44)).wf = false ∧ (Instr.sel h0 .u32 32 false (v 0) (v 1) (v 2)).wf = false ∧
    (Instr.iadd h0 .u32 true true false 0 (v 0) (v 1) (v 2)).wf = false ∧ (Instr.imulh h0 .u64 (v 0) (v 2) (v 4)).wf = false ∧
    (Instr.icmp h0 .u32 .num 1 (v 1) (v 2)).wf = false ∧ (Instr.hadd2 h0 .f32 .rne (v 0) (v 1) (v 2)).wf = false ∧
    (Instr.dxpk h0 .dx8 9 .rne 0 4 1).wf = false ∧ (Instr.plop h0 16 1 2 3).wf = false ∧ (Instr.bra h0 8192 none).wf = false ∧
    (Instr.brx h0 1 (some 8192)).wf = false ∧ (Instr.brdec h0 1 8192).wf = false := by decide +kernel
theorem test_wf_modifiers_memory : (Instr.ld h0 .b32 false .die 0 1 (v 1)).wf = false ∧
    (Instr.st h0 .sx8 false .lane 0 1 (v 1)).wf = false ∧ (Instr.ldu h0 .b128 false .lane 0 1 (.imm 0)).wf = false ∧
    (Instr.recldRange h0 1 8 0).wf = false ∧ (Instr.lld h0 .b32 (some 16) 0 1 (v 2)).wf = false ∧
    (Instr.cas h0 (.acq .sys) 0 1 (v 1)).wf = false ∧ (Instr.red h0 .plain .exch 0 1 (v 1)).wf = false ∧
    (Instr.barArm h0 .sys 1 2 (.imm 0)).wf = false ∧ (Instr.awWait h0 .sys 1 (.imm 0)).wf = false ∧
    (Instr.qInit h0 .pod 1 (.imm 0)).wf = false ∧ (Instr.qPop h0 32 (v 0) 1).wf = false ∧
    (Instr.mmStage h0 8 false false 0 0 1).wf = false ∧ (Instr.gmv h0 16 1 2 3).wf = false ∧
    (Instr.lfSpan h0 false 16 0 0 1 2).wf = false ∧ (Instr.lfVsplit h0 false 32 0 1).wf = false ∧
    (Instr.lfInterp h0 8 0 2 4).wf = false := by decide +kernel
/-- A number outside its file, a kind that the position does not take, an odd pair, a modifier where none may stand. -/
theorem test_wf_operands : (Instr.fdiv h0 (v 256) (v 1) (v 2)).wf = false ∧ (Instr.fdiv h0 (.p 1) (v 1) (v 2)).wf = false ∧
    (Instr.fdiv h0 (r 1) (v 1) (v 2)).wf = false ∧ (Instr.imul h0 .u64 (v 1) (v 2) (v 4)).wf = false ∧
    (Instr.and h0 .u32 (v 0) (.v 1 true false) (v 2)).wf = false ∧ (Instr.fadd h0 .f16 .rne (v 0) (v 1) (.imm 65536)).wf = false ∧
    (Instr.lfPresentArm h0 1).wf = false ∧ (Instr.movs h0 (v 0) 0x030).wf = false ∧ (Instr.movx h0 0x000 (r 1)).wf = false ∧
    (Instr.fcvt h0 0x00 0x10 .rne (v 0) (v 1)).wf = false := by decide +kernel
theorem test_wf_extra : (Instr.movw h0 .u32 (v 0) (2 ^ 32)).wf = false ∧ (Instr.join hP1).wf = false ∧
    (Instr.drain h0 .rne true false 1 2 (.imm 0x10)).wf = false ∧ (Instr.slotClaim h0 1 (.imm 0)).wf = false ∧
    (Instr.csrRd h0 1 0x004).wf = false ∧ (Instr.csrWr h0 0x000 (r 1)).wf = false ∧
    (Instr.lld h0 .b64 (some 0) 254 1 (v 2)).wf = false := by decide +kernel
theorem test_wf_good : (Instr.join h0).wf = true ∧ (Instr.iadd h0 .u64 false true true 7 (v 0) (v 2) (.imm 5)).wf = true ∧
    (Instr.fcvt h0 0x38 0x10 .rtz (v 0) (.imm 7)).wf = true := by decide +kernel

/-! ### Words written out in the spec (their bytes in the order of the listing) -/

def hc (ec : Nat) : Hdr := ⟨false, 0, false, ec, 0⟩
def word (bs : List Nat) : Decoded := decode .max (bytesWord (bs.map (BitVec.ofNat 8)))

theorem test_decode_integer :
    word [0x02, 0x00, 0x40, 0x00, 0x00, 0x30, 0x00, 0x00, 0x04, 0x40, 0x00, 0x04] =
      .ok (.iadd (hc 1) .s32 false false false 0 (v 3) (v 1) (v 2)) ∧
    word [0x64, 0x00, 0x70, 0x00, 0x00, 0x20, 0x00, 0x00, 0x26, 0x40, 0x00, 0x1A] = .ok (.icmp (hc 1) .s32 .lt 2 (v 1) (.imm 100)) ∧
    word [0x02, 0x00, 0x30, 0x00, 0x00, 0x20, 0x00, 0x00, 0x00, 0x40, 0x00, 0x12] = .ok (.shl (hc 1) .u32 (v 2) (v 0) (.imm 2)) ∧
    word [0x00, 0x00, 0x00, 0x00, 0x80, 0x09, 0x00, 0x00, 0x00, 0x40, 0x00, 0x1C] = .ok (.movs (hc 1) (v 0) 0x000) := by
  decide +kernel
theorem test_decode_float :
    word [0x00, 0xFC, 0xB3, 0x01, 0x00, 0x60, 0x00, 0x00, 0x00, 0x40, 0x00, 0x20] =
      .ok (.fadd (hc 1) .f32 .rne (v 6) (v 6) (.imm 0x3FC00)) := by decide +kernel
theorem test_decode_control :
    word [0x05, 0x00, 0x00, 0x00, 0x00, 0x40, 0x00, 0x00, 0x01, 0x40, 0x00, 0x58] = .ok (.brdec (hc 1) 4 5) ∧
    word [0x00, 0x00, 0x00, 0x00, 0x00, 0x00, 0x00, 0x00, 0x00, 0x40, 0x00, 0x54] = .ok (.join (hc 1)) ∧
    word [0x00, 0x00, 0x00, 0x00, 0x00, 0x00, 0x00, 0x00, 0x00, 0x00, 0x00, 0x57] = .ok (.exit (hc 0)) := by decide +kernel
theorem test_decode_memory :
    word [0x02, 0x00, 0x10, 0x00, 0x00, 0x40, 0x00, 0x10, 0x06, 0x40, 0x00, 0x68] = .ok (.recsetExt0 (hc 1) 4 (r 2)) ∧
    word [0x06, 0x00, 0x40, 0x01, 0x40, 0x48, 0x00, 0x00, 0x04, 0x80, 0x00, 0x6C] = .ok (.tld (hc 2) .depth 4 5 (v 6)) ∧
    word [0x40, 0x00, 0x70, 0x00, 0x40, 0xA8, 0x00, 0x00, 0x00, 0x80, 0x00, 0x6E] = .ok (.descrd (hc 2) 10 1 (.imm 64)) ∧
    word [0x00, 0x00, 0x00, 0x00, 0x00, 0x10, 0x00, 0x10, 0x0A, 0x80, 0x02, 0x67] = .ok (.recldScr ⟨false, 0, true, 2, 0⟩ 1) ∧
    word [0x02, 0x00, 0x40, 0x00, 0x40, 0x18, 0x00, 0x00, 0x10, 0x80, 0x00, 0x63] = .ok (.sts (hc 2) .b32 false .lane 1 1 (v 2)) ∧
    word [0x00, 0x00, 0x00, 0x00, 0x00, 0x00, 0x00, 0x00, 0x08, 0x80, 0x00, 0xD7] = .ok (.rmapBump (hc 2)) := by decide +kernel
theorem test_decode_sync :
    word [0x20, 0x00, 0x70, 0x00, 0x00, 0x0C, 0x00, 0x00, 0x80, 0x41, 0x00, 0x84] = .ok (.fencex (hc 1) .die 1 32) ∧
    word [0x08, 0x00, 0x70, 0x00, 0x40, 0x58, 0x00, 0x00, 0x01, 0x40, 0x00, 0x86] = .ok (.barArv (hc 1) 5 1 (.imm 8)) ∧
    word [0x04, 0x00, 0xD0, 0x00, 0x40, 0x08, 0x00, 0x00, 0x80, 0x01, 0x00, 0x8A] = .ok (.awWait (hc 0) .die 3 (r 4)) ∧
    word [0x03, 0x00, 0x80, 0x01, 0x40, 0x08, 0x00, 0x00, 0x00, 0x80, 0x00, 0x8C] = .ok (.qPush (hc 2) 6 (v 3)) ∧
    word [0x04, 0x00, 0xE1, 0x00, 0x40, 0x78, 0x00, 0x00, 0x01, 0x41, 0x00, 0x85] = .ok (.barArm (hc 1) .quad 3 7 (.b 4)) ∧
    word [0x00, 0x00, 0x00, 0x00, 0x00, 0x00, 0x00, 0x00, 0xE0, 0x41, 0x18, 0x83] = .ok (.fence ⟨false, 6, false, 1, 0⟩ .sc .die) := by
  decide +kernel
theorem test_decode_copy :
    word [0x02, 0x00, 0xD0, 0x01, 0x40, 0x08, 0x00, 0x00, 0x04, 0x00, 0x01, 0x95] = .ok (.ovlLd (hc 4) true 7 (r 2)) ∧
    word [0x0B, 0x00, 0x90, 0x00, 0x40, 0x08, 0x00, 0x50, 0x02, 0x40, 0x01, 0x92] = .ok (.cpyp (hc 5) (.o 0) 2 (r 11)) := by
  decide +kernel
theorem test_decode_matrix :
    word [0x01, 0x00, 0x25, 0x00, 0x40, 0x29, 0x00, 0x40, 0x02, 0xC0, 0x01, 0xA2] = .ok (.mma (hc 7) false 2 0 1) ∧
    word [0x05, 0x00, 0x25, 0x01, 0x40, 0x19, 0x00, 0x40, 0x2E, 0xC0, 0x01, 0xA3] = .ok (.mmStage (hc 7) 3 true false 1 4 5) ∧
    word [0x00, 0x00, 0x30, 0x00, 0x00, 0x00, 0x00, 0x00, 0x00, 0x00, 0x00, 0xA9] = .ok (.mmWait (hc 0) (.imm 0)) := by decide +kernel
theorem test_decode_light_field :
    word [0x00, 0x00, 0xB0, 0x00, 0x40, 0x48, 0x00, 0x10, 0x02, 0xC0, 0x00, 0xC0] = .ok (.lfSetup (hc 3) 4 2 (.imm 0)) ∧
    word [0x10, 0x00, 0x00, 0x00, 0x00, 0x00, 0x00, 0x30, 0x0E, 0xC0, 0x00, 0xC2] = .ok (.lfZtest (hc 3) true true 0 16) ∧
    word [0x00, 0x00, 0x00, 0x00, 0x80, 0x18, 0x00, 0x20, 0x1E, 0x80, 0x00, 0xC3] = .ok (.lfVsplit (hc 2) true 3 1 0) ∧
    word [0x10, 0x00, 0x00, 0x02, 0x00, 0x80, 0x01, 0x00, 0x00, 0x80, 0x00, 0xC4] = .ok (.lfInterp (hc 2) 0 24 8 16) ∧
    word [0x10, 0x00, 0x00, 0x05, 0x00, 0x00, 0x00, 0x30, 0x06, 0xC0, 0x00, 0xC5] = .ok (.lfWriteInc (hc 3) 0 20 16) ∧
    word [0x10, 0x00, 0x00, 0x01, 0x00, 0x04, 0x00, 0x30, 0x02, 0x80, 0x00, 0xC6] = .ok (.lfVis (hc 2) 0 (r 4) 16) ∧
    word [0x08, 0x00, 0x30, 0x00, 0x00, 0x00, 0x00, 0x00, 0x00, 0x40, 0x00, 0xC7] = .ok (.lfRate (hc 1) (.imm 8)) ∧
    word [0x00, 0x00, 0x00, 0x00, 0x00, 0x20, 0x00, 0x00, 0x01, 0x40, 0x00, 0xCC] = .ok (.lfViews (hc 1) 2) := by decide +kernel
theorem test_decode_frames_and_tasks :
    word [0x06, 0x00, 0x90, 0x00, 0x40, 0x58, 0x00, 0x10, 0x02, 0x00, 0x01, 0xC8] = .ok (.lfRepro (hc 4) 5 2 6) ∧
    word [0x08, 0x00, 0xD0, 0x00, 0x40, 0x78, 0x00, 0x10, 0x02, 0x40, 0x01, 0xC9] = .ok (.lfResolve (hc 5) 7 3 8) ∧
    word [0x0A, 0x00, 0x10, 0x01, 0x40, 0x08, 0x00, 0x00, 0x04, 0x80, 0x00, 0xCA] = .ok (.lfPresentCommit (hc 2) 4 10) ∧
    word [0x04, 0x00, 0x30, 0x00, 0x00, 0x30, 0x00, 0x00, 0x05, 0x40, 0x00, 0xCB] = .ok (.lfStat (hc 1) true 3 (.imm 4)) ∧
    word [0x00, 0x00, 0x80, 0x00, 0x40, 0x38, 0x00, 0x00, 0x01, 0x80, 0x00, 0xD0] = .ok (.taskSpawn (hc 2) 3 2) ∧
    word [0x07, 0x00, 0x50, 0x01, 0x40, 0x08, 0x00, 0x00, 0x00, 0x40, 0x00, 0xD2] = .ok (.taskCollect (hc 1) 5 (r 7)) ∧
    word [0x00, 0x01, 0x30, 0x00, 0x00, 0x00, 0x00, 0x00, 0x00, 0x00, 0x00, 0xD5] = .ok (.ebudWait (hc 0) (.imm 256)) ∧
    word [0x00, 0x00, 0x00, 0x00, 0x00, 0x00, 0x00, 0x00, 0x00, 0x40, 0x00, 0xDA] = .ok (.tret (hc 1)) := by decide +kernel

/-- Reserved words (R38): an undefined major, an undefined X, a bit that must be zero, an absent special register; the lowest
subcode where several apply. -/
theorem test_decode_reserved :
    decode .max (0x3B * 2 ^ 88) = .ill 1 ∧ decode .max (2 ^ 66) = .ill 2 ∧ decode .max (2 ^ 74) = .ill 3 ∧
    decode .max (2 ^ 96 - 1) = .ill 1 ∧ decode ⟨8, 0, 0⟩ (0x0E * 2 ^ 88 + 8 * 2 ^ 44) = .ill 6 := by decide +kernel

/-! ### Hypotheses of the obligations: integer, floating-point, predicates -/

theorem test_witness_IntegerResults :
    (∃ x, intRule (.idiv h0 .s64 (v 4) (v 2) (v 0)) = some x) ∧ (Instr.idiv h0 .s64 (v 4) (v 2) (v 0)).wf = true ∧
      Issues s0 0 q0 p0 h0 3 := ⟨⟨_, rfl⟩, by decide, issue0 ..⟩
theorem test_witness_CarryAndClamp :
    sumOf (.isub h0 .u64 false true true 7 (v 4) (v 2) (v 0)) = some (h0, true, .u64, false, true, true, 31, v 4, v 2, v 0) ∧
      (Instr.isub h0 .u64 false true true 7 (v 4) (v 2) (v 0)).wf = true ∧ Issues s0 0 q0 p0 h0 1 := ⟨rfl, by decide, issue0 ..⟩
theorem test_witness_PredicateResults :
    (∃ x, predRule (.plop h0 15 0 31 1) = some x) ∧ (Instr.plop h0 15 0 31 1).wf = true ∧ Issues s0 0 q0 p0 h0 1 :=
  ⟨⟨_, rfl⟩, by decide, issue0 ..⟩
theorem test_witness_FloatResults :
    ((∃ x, floatRule (.hfma2 h0 .bf16 .rna (v 255) (v 1) (.imm 0xFFFF)) = some x) ∧
      (Instr.hfma2 h0 .bf16 .rna (v 255) (v 1) (.imm 0xFFFF)).wf = true ∧ Issues s0 0 q0 p0 h0 2) ∧
    ((∃ x, slowRule (.frcp h0 (v 255) (v 1)) = some x) ∧ (Instr.frcp h0 (v 255) (v 1)).wf = true ∧ Issues s0 0 q0 p0 h0 2) :=
  ⟨⟨⟨_, rfl⟩, by decide, issue0 ..⟩, ⟨_, rfl⟩, by decide, issue0 ..⟩
/-- Code 0x3F800000 is 1. -/
theorem one_code : Finite (fieldsOf .f32) 0x3F800000 ∧ valueOf (fieldsOf .f32) 0x3F800000 = 1 := by
  refine ⟨by decide, ?_⟩
  have h1 : signOf (fieldsOf .f32) 0x3F800000 = false := by decide
  have h2 : expOf (fieldsOf .f32) 0x3F800000 = 127 := by decide
  have h3 : fractionOf (fieldsOf .f32) 0x3F800000 = 0 := by decide
  have h4 : biasOf (fieldsOf .f32) = 127 := by decide
  norm_num [valueOf, h1, h2, h3, h4]
theorem test_witness_RoundsExactly :
    (Finite (fieldsOf .f16) 0x0001 ∧ Finite (fieldsOf .bf16) 0xFF7F ∧ Finite (fieldsOf .f32) 0x3F800000) ∧
    (0 : ℝ) < valueOf (fieldsOf .f32) 0x3F800000 := by
  refine ⟨by decide, ?_⟩
  rw [one_code.2]; norm_num
/-- Special operands: every kind of code, and the pairs that are invalid. -/
theorem test_witness_RoundsExactly_special :
    (let l := fieldsOf .f32
     NotANumber l 0x7F800001 ∧ Infinite l 0xFF800000 ∧ ¬ NotANumber l 0xFF800000 ∧ Finite l 0 ∧ magOf l 0 = 0 ∧ magOf l 0x80000000 = 0 ∧
      signOf l 0x80000001 = true ∧ magOf l 0x80000001 ≠ 0 ∧ signOf l 0x7F800000 = false ∧ Infinite l 0x7F800000) ∧
    (let l := fieldsOf .f16
     (magOf l 0 = 0 ∧ Infinite l 0x7C00) ∧ ¬ ((magOf l 0x3C00 = 0 ∧ Infinite l 0xFC00) ∨ (Infinite l 0x3C00 ∧ magOf l 0xFC00 = 0)) ∧
      NotANumber l 0x7E00 ∧ ¬ NotANumber l 0xFC00 ∧ Finite l 0x3C00 ∧ CodeOf l 0xFFFF) ∧
    (CodeOf f8e4Fields 0x7F ∧ NotANumber f8e4Fields 0x7F ∧ Finite f8e4Fields 0x7E ∧ Finite f8e5Fields 0x7B ∧ Infinite (fieldsOf .bf16) 0x7F80 ∧
      Finite f4Fields 0xF) := by decide
theorem test_witness_RoundsExactly_conversions :
    (0x80000000 : Nat) < 2 ^ tyW .s32 ∧ (0x38000008 : Nat) < 2 ^ 32 ∧ (0x38000008 : Nat) % 16 = 8 ∧ (7 : Nat) % 16 ≠ 8 ∧
    isDx 0x53 = true ∧ (0x00000001 : Nat) / 2 ^ 24 = 0 ∧ (0xFF000000 : Nat) / 2 ^ 24 = 255 := by decide
theorem test_witness_BlockConversions_rounding :
    (∀ c ∈ [0x3F800000], Finite (fieldsOf .f32) c) ∧ (∃ c ∈ [0x3F800000], (2 : ℚ) ^ (0 : ℤ) ≤ |valueOf (fieldsOf .f32) c|) ∧
      (∀ c ∈ [0x3F800000], |valueOf (fieldsOf .f32) c| < (2 : ℚ) ^ ((0 : ℤ) + 1)) ∧
      (∀ c ∈ ([] : List Nat), valueOf (fieldsOf .f32) c = 0) := by
  refine ⟨fun c h => ?_, by simp [one_code.2], by simp [one_code.2], by simp⟩
  rw [List.mem_singleton.1 h]
  exact one_code.1
theorem test_witness_BlockConversions :
    ((Instr.dxpk h0 .dx4 8 .rne 255 4 63).wf = true ∧ Issues s0 0 q0 p0 h0 2 ∧ runs p0 h0 q0 ≠ 0) ∧
    ((Instr.dxunpk h0 .dx8 254 3 (.imm 0x53)).wf = true ∧ isDx (rdScal q0 (.imm 0x53) % 65536 % 256) = true ∧
      elemBits (rdScal q0 (.imm 0x53) % 65536 % 256) = dxBits .dx8) ∧
    ((Instr.fcvt h0 0x53 0x08 .rne (v 1) (v 2)).wf = true ∧ isDx 0x53 = true ∧ Issues s0 0 q0 p0 h0 1) :=
  ⟨⟨by decide, issue0 .., by decide⟩, by decide, by decide, by decide, issue0 ..⟩
theorem test_witness_CrossThreadResults :
    (Instr.shfl h0 .s64 .up 254 0 (.imm 31)).wf = true ∧ (Instr.ired h0 .u64 .min 63 254).wf = true ∧
    (Instr.fred h0 .f16 .add 63 (.v 255 true true)).wf = true ∧ (∃ x, voteRule (.voteUni h0 0 31) = some x) ∧
    (Instr.voteUni h0 0 31).wf = true ∧ (Instr.voteBallot h0 63 31).wf = true ∧ Issues s0 0 q0 p0 h0 1 ∧
    Issues s0 0 q0 p0 h0 2 := ⟨by decide, by decide, by decide, ⟨_, rfl⟩, by decide, by decide, issue0 .., issue0 ..⟩
theorem test_witness_SpecialRegisters :
    (Instr.movs h0 (v 255) 0x000).wf = true ∧ (Instr.movs h0 (r 63) 0x024).wf = true ∧ Issues s0 0 q0 p0 h0 1 ∧
    Issues s0 0 q0 p0 h0 0 ∧ runs p0 h0 q0 ≠ 0 ∧ (BitVec.ofNat 32 (rdScal q0 (.imm 1)) &&& p0.members) ≠ 0 :=
  ⟨by decide, by decide, issue0 .., issue0 .., by decide, by decide⟩

/-! ### Energy -/

theorem test_witness_GuardedOffDoesNothing :
    (Instr.mma hNot true 31 63 0).hdr = some hNot ∧ (Instr.mma hNot true 31 63 0).wf = true ∧
      Issues s0 0 q0 p0 hNot (minClass (.mma hNot true 31 63 0)) ∧ runs p0 hNot q0 = 0 :=
  ⟨rfl, by decide, issue0 .., by decide⟩
/-- A squad with nothing granted, in a context with 4096 units. -/
def qPay : Squad := newSquad 1 0 0 0 0 0
/-- In a context with 3 units. -/
def sPoor : State := { on qPay with budgets := [(0, ⟨3, 0, 0, 3, 0, [], []⟩)] }
theorem test_witness_EnergyDebits :
    ((Instr.fence hP1 .sc .pod).wf = true ∧ obeysRegs (on qPay) qPay (runs p0 h0 qPay) (.fence hP1 .sc .pod) ∧
      Issues (on qPay) 0 qPay p0 h0 3 ∧ qPay.granted = false) ∧
    (sPoor.cur = some 0 ∧ squadOf sPoor 0 = some qPay ∧ runningPath qPay = some p0 ∧ qPay.wait = none ∧ qPay.granted = false ∧
      qPay.pend = [] ∧ 0 < unitsOf (max h0.ec (minClass (.idiv h0 .u32 (v 1) (v 2) (v 3)))) ∧
      (qPay.ebudCap = 0 ∧ (if deadline sPoor qPay then 3 else 3) < unitsOf 3)) ∧
    (({ qPay with ebudCap := 1, ebudDeb := 1 } : Squad).ebudCap ≠ 0 ∧
      ({ qPay with ebudCap := 1, ebudDeb := 1 } : Squad).ebudCap ≤ ({ qPay with ebudCap := 1, ebudDeb := 1 } : Squad).ebudDeb) :=
  ⟨⟨by decide, nofun, ⟨rfl, rfl, rfl, rfl, rfl, rfl, .inr (.inr ⟨by decide, by decide +kernel, by decide +kernel⟩)⟩, rfl⟩,
    ⟨rfl, rfl, rfl, rfl, rfl, rfl, by decide, by decide, by decide +kernel⟩, by decide, by decide⟩

/-! ### Control flow -/

theorem test_witness_PathTransfers :
    ((transfer s0 q0 p0 (.call h0 8191 none)).isSome = true ∧ Issues s0 0 q0 p0 h0 1 ∧ p0.exm ≠ 0 ∧ runs p0 h0 q0 = p0.exm) ∧
    ((transfer s0 q0 p0 (.ovlj h0 true false 8191)).isSome = true ∧ Issues s0 0 q0 p0 h0 2) ∧
    (transfer s0 q0 { p0 with ret := [⟨false, 3⟩] } (.ret h0)).isSome = true :=
  ⟨⟨by decide, issue0 .., by decide, by decide⟩, ⟨by decide +kernel, issue0 ..⟩, by decide⟩
/-- Half of the threads pass p1. -/
def qHalf : Squad := { q0 with p := [(1, 0x0000FFFF#32)] }
/-- All eight path entries in use. -/
def qFull : Squad :=
  { qHalf with paths := p0 :: (List.range 7).map fun i => ⟨i + 1, ⟨false, 40⟩, 0, 0, 0, none, []⟩ }
theorem test_witness_PathSplits :
    ((diverges qHalf p0 (.bra hP1 20 (some 31))).isSome = true ∧ Issues (on qHalf) 0 qHalf p0 hP1 1 ∧ runs p0 hP1 qHalf ≠ 0 ∧
      runs p0 hP1 qHalf ≠ p0.exm ∧ (∃ n, n < 16 ∧ aget qHalf.joins n = none) ∧
      (∃ n, n < 8 ∧ n ∉ qHalf.paths.map (·.entry)) ∧ (qHalf.paths.map (·.entry)).Nodup) ∧
    ((diverges qFull p0 (.bra hP1 20 (some 31))).isSome = true ∧ Issues (on qFull) 0 qFull p0 hP1 1 ∧ runs p0 hP1 qFull ≠ 0 ∧
      runs p0 hP1 qFull ≠ p0.exm ∧ (∃ n, n < 16 ∧ aget qFull.joins n = none) ∧ qFull.paths.length = 8 ∧
      (qFull.paths.map (·.entry)).Nodup ∧ ∀ a ∈ qFull.paths, a.entry < 8) :=
  ⟨⟨by decide, ready _ _ rfl rfl rfl rfl rfl rfl rfl, by decide, by decide, ⟨0, by decide, rfl⟩, ⟨7, by decide, by decide⟩, by decide⟩,
    by decide, ready _ _ rfl rfl rfl rfl rfl rfl rfl, by decide, by decide, ⟨15, by decide, rfl⟩, by decide, by decide, by decide⟩
theorem test_witness_ControlFaults :
    controlFault (on qHalf) qHalf p0 (runs p0 hP1 qHalf) (.bra hP1 20 none) = some (hP1, 1, 0x12, 4) ∧
    controlFault s0 q0 p0 (runs p0 h0 q0) (.ret h0) = some (h0, 1, 0x12, 2) ∧
    controlFault s0 q0 p0 (runs p0 h0 q0) (.ovlj h0 false true 0) = some (h0, 2, 0x07, 1) ∧
    controlFault s0 q0 { p0 with ret := List.replicate 16 ⟨false, 1⟩ } (runs p0 h0 q0) (.call h0 1 none) = some (h0, 1, 0x12, 1) ∧
    Issues (on qHalf) 0 qHalf p0 hP1 1 ∧ Issues s0 0 q0 p0 h0 2 :=
  ⟨by decide, by decide, by decide +kernel, by decide, ready _ _ rfl rfl rfl rfl rfl rfl rfl, issue0 ..⟩
/-- A path at its join: its record waits for the threads that its sibling or a deferred path holds. -/
def pJoin : Path := ⟨0, ⟨false, 31⟩, 0x0000FFFF, 0x0000FFFF, 0, some 2, []⟩
def rJoin (arrived : Mask) (d : Option Deferred) : JoinRec := ⟨0xFFFFFFFF, arrived, ⟨false, 31⟩, 0, 0, none, d, []⟩
def qJoin (arrived : Mask) (d : Option Deferred) : Squad :=
  { q0 with paths := [pJoin, ⟨1, ⟨false, 5⟩, 0xFFFF0000, 0xFFFF0000, 0, some 2, []⟩], joins := [(2, rJoin arrived d)] }
theorem test_witness_JoinParksAndMerges :
    (aget (qJoin 0xFFFF0000 none).joins 2 = some (rJoin 0xFFFF0000 none) ∧ (rJoin 0xFFFF0000 none).arrived ||| pJoin.members = (rJoin 0 none).expected ∧
      Issues (on (qJoin 0xFFFF0000 none)) 0 (qJoin 0xFFFF0000 none) pJoin h0 1 ∧ (rJoin 0 none).join = pJoin.pc ∧ pJoin.ret.length = (rJoin 0 none).rdepth) ∧
    ((rJoin 0 none).arrived ||| pJoin.members ≠ (rJoin 0 none).expected ∧ (∃ a ∈ (qJoin 0 none).paths, a.entry ≠ pJoin.entry) ∧
      Issues (on (qJoin 0 none)) 0 (qJoin 0 none) pJoin h0 1) ∧
    (aget (qJoin 0 (some ⟨⟨false, 7⟩, 1, 1, 0, []⟩)).joins 2 = some (rJoin 0 (some ⟨⟨false, 7⟩, 1, 1, 0, []⟩)) ∧
      Issues (on (qJoin 0 (some ⟨⟨false, 7⟩, 1, 1, 0, []⟩))) 0 (qJoin 0 (some ⟨⟨false, 7⟩, 1, 1, 0, []⟩)) pJoin h0 1) ∧
    (p0.jrec = none ∧ Issues s0 0 q0 p0 h0 1) :=
  ⟨⟨rfl, by decide, ready _ _ rfl rfl rfl rfl rfl rfl rfl, rfl, rfl⟩,
    ⟨by decide, by decide, ready _ _ rfl rfl rfl rfl rfl rfl rfl⟩, ⟨rfl, ready _ _ rfl rfl rfl rfl rfl rfl rfl⟩, rfl, issue0 ..⟩
/-- A path whose record names index 40, and the record outside it index 31. -/
def qDeep (pc : Nat) : Squad :=
  { q0 with
    paths := [{ pJoin with pc := ⟨false, pc⟩ }]
    joins := [(2, { rJoin 0 none with join := ⟨false, 40⟩, outer := some 3 }), (3, rJoin 0 none)] }
theorem deep_chain {pc n : Nat} {r : JoinRec} (h : OnChain (qDeep pc) n (some 2) r) :
    (n = 0 ∧ r.join = ⟨false, 40⟩) ∨ (n = 1 ∧ r.join = ⟨false, 31⟩) := by
  cases h with
  | here _ _ h => cases h; exact .inl ⟨rfl, rfl⟩
  | outer n _ o _ ho h =>
    cases ho
    cases h with
    | here _ _ h => cases h; exact .inr ⟨rfl, rfl⟩
    | outer _ _ _ _ ho h => cases ho; cases h
theorem test_witness_JoinParksAndMerges_chain :
    (Issues (on (qDeep 31)) 0 (qDeep 31) { pJoin with pc := ⟨false, 31⟩ } h0 1 ∧
      (∀ r, OnChain (qDeep 31) 0 (some 2) r → r.join ≠ ⟨false, 31⟩) ∧
      (∃ n r, 0 < n ∧ n < 16 ∧ OnChain (qDeep 31) n (some 2) r ∧ r.join = ⟨false, 31⟩)) ∧
    (Issues (on (qDeep 7)) 0 (qDeep 7) { pJoin with pc := ⟨false, 7⟩ } h0 1 ∧ ∀ n r, OnChain (qDeep 7) n (some 2) r → r.join ≠ ⟨false, 7⟩) := by
  refine ⟨⟨ready _ _ rfl rfl rfl rfl rfl rfl rfl, fun r h => ?_, 1, _, by decide, by decide, .outer 0 2 _ _ rfl (.here 3 _ rfl), rfl⟩,
    ready _ _ rfl rfl rfl rfl rfl rfl rfl, fun n r h => ?_⟩
  · rcases deep_chain h with ⟨_, h⟩ | ⟨h, _⟩
    · simp [h]
    · simp at h
  · rcases deep_chain h with ⟨_, h⟩ | ⟨_, h⟩ <;> simp [h]
theorem test_witness_ExitRemovesThreads :
    (Issues (on qHalf) 0 qHalf p0 hP1 0 ∧ runs p0 hP1 qHalf ≠ 0 ∧ p0.exm &&& ~~~(runs p0 hP1 qHalf) ≠ 0 ∧ p0.members &&& p0.exm = p0.exm) ∧
    (Issues s0 0 q0 p0 h0 0 ∧ runs p0 h0 q0 ≠ 0 ∧ q0.paths = [p0] ∧ q0.joins = [] ∧ p0.jrec = none ∧ runs p0 h0 q0 = p0.members ∧
      (taskOf s0 q0.task).isSome = true) :=
  ⟨⟨ready _ _ rfl rfl rfl rfl rfl rfl rfl, by decide, by decide, by decide⟩, issue0 .., by decide, rfl, rfl, rfl, by decide,
    by decide +kernel⟩
theorem test_witness_YieldMovesBehind :
    Issues (on (qJoin 0 none)) 0 (qJoin 0 none) pJoin h0 0 ∧ runs pJoin h0 (qJoin 0 none) ≠ 0 ∧
      ((qJoin 0 none).paths.map (·.entry)).Nodup ∧ pJoin ∈ (qJoin 0 none).paths :=
  ⟨ready _ _ rfl rfl rfl rfl rfl rfl rfl, by decide, by decide, by decide⟩
theorem test_witness_TimedWaits :
    Issues s0 0 q0 p0 h0 0 ∧ runs p0 h0 q0 ≠ 0 ∧ rdScal q0 (.imm 0) ≤ s0.time ∧ ¬ rdScal q0 (.imm 1) ≤ s0.time ∧
      (BitVec.ofNat 64 (rdScal q0 (.imm 0))).toInt ≤ 0 ∧ ¬ (BitVec.ofNat 64 (rdScal q0 (.imm 1))).toInt ≤ 0 :=
  ⟨issue0 .., by decide, by decide, by decide, by decide, by decide⟩

/-! ### Traps and privilege -/

theorem test_witness_TrapAndBreakpoint : Issues s0 0 q0 p0 h0 0 ∧ runs p0 h0 q0 ≠ 0 := ⟨issue0 .., by decide⟩
/-- A squad in a handler. -/
def tr0 : TrapState := ⟨0x00010010, ⟨false, 9⟩, 0, 1, 0⟩
def qTrap : Squad := { q0 with trap := some tr0, paths := [{ p0 with pc := ⟨true, 0⟩ }] }
theorem test_witness_HandlerAccess :
    Issues (on qTrap) 0 qTrap { p0 with pc := ⟨true, 0⟩ } h0 1 ∧ mayPriv (on qTrap) qTrap = true ∧
      runs { p0 with pc := ⟨true, 0⟩ } h0 qTrap ≠ 0 ∧ (Instr.csrRd h0 63 0x011).wf = true ∧ qTrap.trap = some tr0 :=
  ⟨ready _ _ rfl rfl rfl rfl rfl rfl rfl, by decide +kernel, by decide, by decide, rfl⟩
/-- The same machine with a privileged task. -/
def sPriv : State := { s0 with tasks := s0.tasks.map fun e => (e.1, { e.2 with tr := { e.2.tr with flags := 4 } }) }
theorem test_witness_PrivilegeIsChecked :
    (Issues s0 0 q0 p0 h0 (minClass (.tret h0)) ∧ mayPriv s0 q0 = false) ∧
    (Issues sPriv 0 q0 p0 h0 (minClass (.tret h0)) ∧ mayPriv sPriv q0 = true ∧ q0.trap = none ∧ runs p0 h0 q0 ≠ 0) :=
  ⟨⟨issue0 .., by decide +kernel⟩, ready _ _ rfl rfl rfl rfl rfl rfl rfl, by decide +kernel, rfl, by decide⟩
theorem test_witness_HaltEndsTask : ∃ k, taskOf sPriv q0.task = some k ∧ Issues sPriv 0 q0 p0 h0 0 ∧ mayPriv sPriv q0 = true ∧
    runs p0 h0 q0 ≠ 0 ∧ 0 ∈ k.squads ∧ k.squads.Nodup ∧ (∀ j ∈ k.squads, ∃ o, squadOf sPriv j = some o ∧ o.task = q0.task) ∧
    rdScal q0 (.imm 0) % 256 = 0 ∧ rdScal q0 (.imm 1) % 256 ≠ 0 ∧ ∀ x, k.stopping ≠ .kill x ∧ k.stopping ≠ .scrub x :=
  ⟨_, rfl, ready _ _ rfl rfl rfl rfl rfl rfl rfl, by decide +kernel, by decide, by decide +kernel, by decide +kernel,
    fun j hj => ⟨q0, by
      have : j = 0 := by simpa [sPriv, s0, State.withFetchWord, State.reset, aput, wordTask] using hj
      subst this; exact ⟨rfl, rfl⟩⟩, by decide, by decide, fun _ => ⟨nofun, nofun⟩⟩

/-! ### Memory: pages 0 to 31 of context 0 at 0x200000, two ranges, records b1 (memory), b2 (scratchpad), b3 (LOD) -/

def recMem : Rec := BitVec.ofNat 256 (2 ^ 249 + 2 * 2 ^ 235 + 64 * 2 ^ 112 + 0x1000)
def recScr : Rec := BitVec.ofNat 256 (2 ^ 251 + 2 ^ 249 + 2 * 2 ^ 235 + 64 * 2 ^ 112 + 0x1000)
def recLod : Rec := BitVec.ofNat 256 (2 ^ 252)
/-- EXT0 of one element: threads whose index is not 0 are out of bounds. -/
def recOne : Rec := BitVec.ofNat 256 (2 ^ 249 + 2 * 2 ^ 235 + 2 ^ 112 + 0x1000)
/-- v1: the thread number up to 3. -/
def qM : Squad :=
  { q0 with b := [(1, recMem), (2, recScr), (3, recLod), (4, recOne)], v := [(33, 1#32), (34, 2#32), (35, 3#32)], s := [(1, 1#64)] }
def trM : TRec :=
  { (wordTask State.reset).tr with
    nrange := 2, range := BitVec.ofNat 1024 (2 ^ 21 * 2 ^ 64 + 3 * 2 ^ 104 + (2 ^ 51 + 2 ^ 21 * 2 ^ 64 + 3 * 2 ^ 104) * 2 ^ 128) }
def withTask (s : State) : State :=
  { s with
    ctxs := [(0, { ctxReset with ptroot := 0x10001 })]
    tasks := s.tasks.map fun e => (e.1, { e.2 with tr := trM })
    mem := [(0x10000, 1), (0x10002, 2), (0x20000, 1), (0x20002, 3), (0x30000, 7), (0x30002, 0x20)] }
def sM : State := withTask (on qM)
theorem issueM (h : Hdr) (cls : Nat) : Issues sM 0 qM p0 h cls := ready h cls rfl rfl rfl rfl rfl rfl rfl

/-- The accesses that a plan finds. -/
def found (e : Except FaultInfo (List Tgt)) : List Tgt := match e with | .ok ts => ts | .error _ => []
def isOk (e : Except FaultInfo (List Tgt)) : Bool := match e with | .ok _ => true | .error _ => false
theorem ok_found {e : Except FaultInfo (List Tgt)} (h : isOk e = true) : e = .ok (found e) := by cases e <;> simp_all [isOk, found]
def codeOf (e : Except FaultInfo (List Tgt)) : Nat × Nat × Bool := match e with | .ok _ => (0, 0, false) | .error f => (f.code, f.sub, f.park)
/-- The plan of an access of `n` bytes through a record at the indexes in v1. -/
def planM (rec' : Rec) (cls n : Nat) (wr : Bool) : Except FaultInfo (List Tgt) :=
  plan (issued sM 0 qM p0 h0 cls (.per 1)) (seen 0 qM p0 h0) rec' ⟨[0], [0], n, wr, qM.core, false⟩
    fun u => recAddr rec' n (raw .u32 qM (v 1) u)

theorem test_witness_AccessChecksInOrder :
    recCheck 0 [2] [0] = some (0x07, 2) ∧
    codeOf (planM recOne 3 4 false) = (0x04, 0x01, false) ∧
    codeOf (planM (recMem + 1) 3 4 false) = (0x03, 0x01, false) ∧
    codeOf (planM (recMem - BitVec.ofNat 256 (2 ^ 249)) 3 4 true) = (0x07, 0x06, false) ∧
    codeOf (planM (recMem + BitVec.ofNat 256 (2 ^ 40)) 3 4 true) = (0x05, 0x02, false) ∧
    isOk (planM recMem 3 4 true) = true ∧ (found (planM recMem 3 4 true)).length = 32 := by decide +kernel
/-- A record of kind 2, ESIZE 1, whose accesses are of two bytes. -/
def recAlias : Rec := BitVec.ofNat 256 (2 * 2 ^ 252 + 2 ^ 235 + 256 * 2 ^ 176 + 64 * 2 ^ 144 + 64 * 2 ^ 112 + 2 ^ 51)
theorem test_witness_AccessChecksInOrder_alias :
    recCheck recAlias [0, 2] [0] = none ∧ recKind recAlias = 2 ∧ (2 : Nat) = recE recAlias ∧ (4 : Nat) ≠ recE recAlias := by decide +kernel
theorem test_witness_AccessFaultSuppresses :
    (∃ sz vd w addr, loadOf qM (.ld h0 .b32 false .lane 2 4 (v 1)) = some (h0, 3, 4, w, addr, sz, vd)) ∧
    (∃ data w addr, storeOf qM (.st h0 .b32 false .lane 2 4 (v 1)) = some (h0, 3, 4, w, addr, data)) ∧
    rdB qM 4 = recOne ∧ Issues sM 0 qM p0 h0 3 ∧ runs p0 h0 qM ≠ 0 ∧ codeOf (planM recOne 3 4 false) = (0x04, 0x01, false) :=
  ⟨⟨_, _, _, _, rfl⟩, ⟨_, _, _, rfl⟩, rfl, issueM .., by decide, by decide +kernel⟩
theorem near {s : State} {ts : List Tgt} (h : (ts.all fun g => !spaceDown s g.sp) = true) : reachable s ts := by
  simpa [reachable] using h
theorem clean {s : State} {ts : List Tgt} {n : Nat} (h : (ts.all fun g => !poisoned s g.sp g.a n) = true) : unpoisoned s ts n := by
  simpa [unpoisoned] using h

/-- A plan of the squad, once or for each thread. -/
def planOf (cls : Nat) (one : Bool) (k : Rec) (w : Want) (b : Opnd) : Except FaultInfo (List Tgt) :=
  plan (issued sM 0 qM p0 h0 cls (if one then .once 1 else .per 1)) (if one then single (seen 0 qM p0 h0) else seen 0 qM p0 h0) k w
    fun u => recAddr k w.size (raw .u32 qM b u)
theorem test_witness_LoadResults :
    let w : Want := ⟨[0, 2], [0], 4, false, 0, false⟩
    let ts := found (planOf 3 false recMem w (v 1))
    loadOf qM (.ld h0 .b32 false .lane 2 1 (v 1)) = some (h0, 3, 1, w, fun u => recAddr recMem 4 (raw .u32 qM (v 1) u), .b32, 2) ∧
    Issues sM 0 qM p0 h0 3 ∧ runs p0 h0 qM ≠ 0 ∧ planOf 3 false (rdB qM 1) w (v 1) = .ok ts ∧ reachable sM ts ∧ unpoisoned sM ts 4 :=
  ⟨rfl, issueM .., by decide, ok_found (by decide +kernel), near (by decide +kernel), clean (by decide +kernel)⟩
theorem test_witness_StoreResults :
    let w : Want := ⟨[0], [1], 4, true, 0, false⟩
    let ts := found (planOf 2 false recScr w (v 1))
    (∃ data, storeOf qM (.sts h0 .b32 false .lane 2 2 (v 1)) =
      some (h0, 2, 2, w, fun u => recAddr recScr 4 (raw .u32 qM (v 1) u), data)) ∧
    Issues sM 0 qM p0 h0 2 ∧ runs p0 h0 qM ≠ 0 ∧ planOf 2 false (rdB qM 2) w (v 1) = .ok ts ∧ reachable sM ts ∧
    ts.any (fun g => ts.all fun k => k.t ≤ g.t) = true :=
  ⟨⟨_, rfl⟩, issueM .., by decide, ok_found (by decide +kernel), near (by decide +kernel), by decide +kernel⟩
theorem test_witness_UniformAndDescriptorAccess :
    (let w : Want := ⟨[0], [0], 8, false, 0, false⟩
     planOf 2 true (rdB qM 1) w (.imm 62) = .ok (found (planOf 2 true (rdB qM 1) w (.imm 62))) ∧
      reachable sM (found (planOf 2 true (rdB qM 1) w (.imm 62))) ∧ unpoisoned sM (found (planOf 2 true (rdB qM 1) w (.imm 62))) 8) ∧
    (let w : Want := ⟨[0], [0, 1], 32, false, 0, false⟩
     planOf 2 true (rdB qM 2) w (.imm 56) = .ok (found (planOf 2 true (rdB qM 2) w (.imm 56))) ∧
      ¬ (recSwz (rdB qM 2) ≠ 0 ∧ rec2d (rdB qM 2) = true)) ∧
    (let w (wr : Bool) : Want := ⟨[0], [0, 1], 1, wr, 0, false⟩
     planOf 2 false (rdB qM 1) (w false) (v 1) = .ok (found (planOf 2 false (rdB qM 1) (w false) (v 1))) ∧
      planOf 2 false (rdB qM 2) (w true) (v 1) = .ok (found (planOf 2 false (rdB qM 2) (w true) (v 1)))) ∧
    Issues sM 0 qM p0 h0 2 ∧ runs p0 h0 qM ≠ 0 :=
  ⟨⟨ok_found (by decide +kernel), near (by decide +kernel), clean (by decide +kernel)⟩, ⟨ok_found (by decide +kernel), by decide⟩,
    ⟨ok_found (by decide +kernel), ok_found (by decide +kernel)⟩, issueM .., by decide⟩
theorem test_witness_HintsAndFences :
    recCheck (rdB qM 1) [0, 2] [0] = none ∧ recCheck (rdB qM 2) [0] [0] = some (0x07, 2) ∧ Issues sM 0 qM p0 h0 (minClass (.prefDc h0 1 (v 1))) ∧
      Issues sM 0 qM p0 h0 1 ∧ runs p0 h0 qM ≠ 0 := ⟨by decide, by decide, issueM .., issueM .., by decide⟩
/-- Thread 0 of squad 0, of core 0, and of squad 1, of core 1; a command of copy engine 0 that the first has issued. -/
def whoA : Who := ⟨.thread 0 0, none, none, some 0, some 0, some 0, some 0⟩
def whoB : Who := ⟨.thread 1 0, none, none, some 0, some 0, some 1, some 32⟩
def whoC : Who := ⟨.copy 0 0, some 20, none, some 0, some 0, none, none⟩
def bytes0 (a : Nat) : HLoc := .bytes .mem a 4
def recordMp : List HEv :=
  [.access (accWr whoA .T (bytes0 0)), .access { accWr whoA .T (bytes0 64) with rel := some .pkg },
    .access { accRd whoB .T (bytes0 64) with acq := some .pkg }, .access (accRd whoB .T (bytes0 0))]
def recordFencex : List HEv :=
  [.access (accWr whoA .T (bytes0 0)), .fencex whoA .pkg 1 2, .command whoA 20, .access (accWr whoC .C (bytes0 0)),
    .release whoC 2 .pkg (.count ⟨.scr 0, 0x2000⟩ true), .acquire whoA 7 .pkg [.gen ⟨.scr 0, 0x2000⟩], .fencex whoA .pkg 2 8,
    .access (accRd whoA .G (bytes0 0))]
theorem test_witness_HintsAndFences_order :
    (readsFrom recordMp 1 2 = true ∧ together .pkg whoA whoB = true ∧ together .die whoA whoB = true ∧ together .core whoA whoB = false) ∧
    (issuedAfter recordFencex 1 3 whoA (some 20) = true ∧ relCovers recordFencex 3 4 = true ∧ keySync recordFencex 4 5 = true ∧
      (2 : Nat).testBit (pathBit .C) = true ∧ (8 : Nat).testBit (pathBit .G) = true) := by decide +kernel
theorem test_witness_RecordRegisters :
    (∃ k, taskOf sM qM.task = some k ∧ 0 < k.tr.nrange ∧ 0 * 2 ^ 31 < (rangeOf k.tr 0).len ∧ (rangeOf k.tr 0).base + 0 * 2 ^ 31 < 2 ^ 52) ∧
    (recsetNew qM (.recsetOff h0 1 (.imm 256))).isSome = true ∧ (recsetNew qM (.recsetEsize h0 1 (.imm 4))).isSome = true ∧
    (recsetNew { qM with b := [(1, BitVec.ofNat 256 (2 ^ 235 + 64 * 2 ^ 144 + 64 * 2 ^ 112 + 256 * 2 ^ 176))] } (.recsetAlias h0 1 (.imm 0))).isSome = true ∧
    (fld (rdB qM 1) 255 252 = 0 ∧ fld (rdB qM 1) 207 176 = 0 ∧ fld (rdB qM 1) 143 112 * 2 ^ fld (rdB qM 1) 238 235 < rdScal qM (.imm 257)) ∧
    (let q := { qM with b := [(1, BitVec.ofNat 256 (2 ^ 176 + 2 ^ 144))] }
     fld (rdB q 1) 255 252 = 0 ∧ fld (rdB q 1) 207 176 ≠ 0 ∧ fld (rdB q 1) 175 144 < rdScal q (.imm 2)) ∧
    Issues sM 0 qM p0 h0 1 ∧ Issues sM 0 qM p0 h0 2 ∧ runs p0 h0 qM ≠ 0 :=
  ⟨⟨_, rfl, by decide +kernel, by decide +kernel, by decide +kernel⟩, by decide, by decide, by decide +kernel, by decide, by decide,
    issueM .., issueM .., by decide⟩

/-- A LOD resource of one page, its descriptor and map at address 0: all zero. -/
theorem test_witness_LodReads :
    recCheck (rdB qM 3) [1] [0] = none ∧ runs p0 h0 qM ≠ 0 ∧ Issues sM 0 qM p0 h0 3 ∧ Issues sM 0 qM p0 h0 2 ∧
    ((List.range 32).all fun u =>
      2 ^ (threadWalk (issued sM 0 qM p0 h0 3 (.per 1)) (seen 0 qM p0 h0) (rdB qM 3) (some 0) (v 0) u).esize == lodBytesOf .b8) = true :=
  ⟨by decide, by decide, issueM .., issueM .., by decide +kernel⟩
theorem test_witness_ResidencyAndFeedback :
    let s1 := issued sM 0 qM p0 h0 2 (.per 1)
    let d := descAt s1 0 0
    Issues sM 0 qM p0 h0 2 ∧ runs p0 h0 qM ≠ 0 ∧ ctxId sM qM = 0 ∧ recCheck (rdB qM 3) [1] [0] = none ∧ recBase (rdB qM 3) = 0 ∧
    ((List.range 32).all fun u => raw .u32 qM (v 0) u / 2 ^ 24 % 16 == descFloor d &&
      decide (raw .u32 qM (v 0) u % 2 ^ 24 < levelPn d (levelOf d 0))) = true ∧
    (match translate s1 0 (mapByteVa d ((levelOf d 0).pgoff + 0)) true with | .ok pl => !spaceDown sM pl.1 | .error _ => false) = true :=
  ⟨issueM .., by decide, by decide, by decide, by decide, by decide +kernel, by decide +kernel⟩

/-! ### Synchronisation: objects at 0x1000 of the scratchpad (b2) and of memory (b1) -/

def located (e : Except FaultInfo AwLoc) : Bool := match e with | .ok _ => true | .error _ => false
def lScr : AwLoc := ⟨.scr 0, 0x1000⟩
def lMem : AwLoc := ⟨.mem, 0x201000⟩
/-- A barrier object of COUNT 4 at the core, in a state, with a phase. -/
def barObj (st phase : Nat) : Nat := 4 * 2 ^ 176 + phase * 2 ^ 96 + 1 * 2 ^ 93 + st * 2 ^ 86
/-- The machine with 64 bytes at 0x1000 of the scratchpad, and s1. -/
def sObj (w k : Nat) : State :=
  { wrN sM (.scr 0) 0x1000 64 w with squads := [(0, { qM with s := [(1, BitVec.ofNat 64 k)] })] }
def qObj (k : Nat) : Squad := { qM with s := [(1, BitVec.ofNat 64 k)] }
theorem issueObj (w k : Nat) (h : Hdr) (cls : Nat) : Issues (sObj w k) 0 (qObj k) p0 h cls := ready h cls
  (by unfold sObj; rw [wrN_frame]; rfl) rfl rfl rfl rfl rfl rfl
/-- Where an instruction of the squad finds its object. -/
def locateObj (w k cls ba n : Nat) (spaces : List Nat) (x y z : Bool) : Except FaultInfo AwLoc :=
  locate (issued (sObj w k) 0 (qObj k) p0 h0 cls (.once 1)) (seen 0 (qObj k) p0 h0) (rdB (qObj k) ba) n spaces x y z
def foundAt (e : Except FaultInfo AwLoc) (l : AwLoc) : Bool := match e with | .ok k => k == l | .error _ => false
theorem ok_at {e : Except FaultInfo AwLoc} {l : AwLoc} (h : foundAt e l = true) : e = .ok l := by
  cases e <;> simp_all [foundAt]

theorem test_witness_AtomicResults :
    let w : Want := ⟨[0], [0, 1], 4, true, 0, true⟩
    let ts := found (planOf 3 false recScr w (v 1))
    (rmwOf qM (.cas h0 (.ar .pod) 4 2 (v 1))).isSome = true ∧ Issues sM 0 qM p0 h0 3 ∧ runs p0 h0 qM ≠ 0 ∧
    recCheck (rdB qM 2) [0] [0, 1] = none ∧ recEsize (rdB qM 2) = 2 ∧ 4 + 2 * 1 ≤ 8 * (trOf sM qM).regs ∧
    planOf 3 false (rdB qM 2) w (v 1) = .ok ts ∧ reachable sM ts ∧ unpoisoned sM ts 4 :=
  ⟨by decide, issueM .., by decide, by decide, by decide, by decide +kernel, ok_found (by decide +kernel), near (by decide +kernel),
    clean (by decide +kernel)⟩
theorem test_witness_BarrierArmsAndArrivals :
    Issues (sObj 0 4) 0 (qObj 4) p0 h0 1 ∧ runs p0 h0 (qObj 4) ≠ 0 ∧
    locateObj 0 4 1 2 32 [0, 1] true true false = .ok lScr ∧ locateObj 0 4 1 2 32 [0, 1] true true true = .ok lScr ∧
    locateObj 0 4 1 1 32 [0, 1] true true false = .ok lMem ∧
    spaceDown (sObj 0 4) lScr.sp = false ∧ barState (barWord (sObj 0 4) lScr) = 0 ∧
    (barState (barWord (sObj (barObj 1 5) 4) lScr) = 1 ∧ barCount (barWord (sObj (barObj 1 5) 4) lScr) = 4 ∧
      barLevel (barWord (sObj (barObj 1 5) 4) lScr) = 1) ∧ barState (barWord (sObj (barObj 2 5) 4) lScr) = 2 :=
  ⟨issueObj .., by decide, ok_at (by decide +kernel), ok_at (by decide +kernel), ok_at (by decide +kernel), by decide,
    by decide +kernel, by decide +kernel, by decide +kernel⟩
theorem test_witness_BarrierWaitsForPhase :
    Issues (sObj (barObj 1 5) 4) 0 (qObj 4) p0 h0 0 ∧ locateObj (barObj 1 5) 4 0 2 32 [0, 1] false false false = .ok lScr ∧
    barPhase (barWord (sObj (barObj 1 5) 4) lScr) = 5 ∧ barState (barWord (sObj (barObj 3 5) 4) lScr) = 3 ∧
    (let q := { qObj 4 with wait := some (.bar 5) }
     let s := { sObj (barObj 1 5) 4 with squads := [(0, q)] }
     Resumes s 0 q p0 (.bar 5) ∧
      locate (tickCtr s) (seenAgain 0 q p0 h0 (.bar 5)) (rdB q 2) 32 [0, 1] true true true = .ok lScr) ∧
    (BitVec.ofNat 32 (2 ^ 31 + 4) - BitVec.ofNat 32 5 : W32).toNat = 2 ^ 31 - 1 ∧
    (BitVec.ofNat 32 5 - BitVec.ofNat 32 (2 ^ 31 + 5) : W32).toNat = 2 ^ 31 :=
  ⟨issueObj .., ok_at (by decide +kernel), by decide +kernel, by decide +kernel,
    ⟨⟨by unfold sObj; rw [wrN_frame]; rfl, rfl, rfl, rfl, rfl, rfl, rfl⟩, ok_at (by decide +kernel)⟩, by decide, by decide⟩
theorem test_witness_ArrivalWords :
    Issues (sObj 0 4) 0 (qObj 4) p0 h0 1 ∧ Issues (sObj (6 * 2 ^ 64) 4) 0 (qObj 4) p0 h0 0 ∧
    locateObj 0 4 1 2 16 [0, 1] true true false = .ok lScr ∧ locateObj (6 * 2 ^ 64) 4 0 2 16 [0, 1] false false false = .ok lScr ∧
    passed (awGen (awWord (sObj (6 * 2 ^ 64) 4) lScr)) 5 = true ∧ passed (awGen (awWord (sObj (6 * 2 ^ 64) 4) lScr)) 6 = false ∧
    awFault (awWord (sObj (6 * 2 ^ 64) 4) lScr) = 0 :=
  ⟨issueObj .., issueObj .., ok_at (by decide +kernel), ok_at (by decide +kernel), by decide +kernel, by decide +kernel,
    by decide +kernel⟩
/-- A queue header with 16 places: credits, pushed, popped, closed. -/
def qHead (allow pushed popped closed : Nat) : Nat :=
  allow * 2 ^ 288 + pushed * 2 ^ 256 + popped * 2 ^ 224 + closed * 2 ^ 40 + 0x51 * 2 ^ 32 + 4
/-- The queue of 16 places that the device holds there. -/
def sQueue (w : Nat) (closed : Bool) : State := putQueue (sObj w 4) lScr ⟨4, 0, .lane, closed⟩
theorem queue_frame (w : Nat) (b : Bool) (h : Hdr) (cls : Nat) : Issues (sQueue w b) 0 (qObj 4) p0 h cls := ready h cls
  (by unfold sQueue putQueue sObj; rw [wrN_frame]; rfl) rfl rfl rfl rfl rfl rfl
/-- Where its instruction finds it. -/
def queueFound (w cls : Nat) (fwd : Bool) : Bool :=
  foundAt (locateQ (issued (sQueue w false) 0 (qObj 4) p0 h0 cls (.once 1)) (seen 0 (qObj 4) p0 h0) 2 fwd) lScr
def queueThere (w n : Nat) : Bool := footprintOk (sQueue w false) (ctxId (sQueue w false) (qObj 4)) 0 (lScr.addr + 64 + 4 * (n % 2 ^ 4)) 4
theorem test_witness_QueueOperations :
    (Issues (sObj 0 4) 0 (qObj 4) p0 h0 1 ∧ locateQ (issued (sObj 0 4) 0 (qObj 4) p0 h0 1 (.once 1)) (seen 0 (qObj 4) p0 h0) 2 false = .ok lScr ∧
      targetCore (qObj 4) (rdB (qObj 4) 2) = (qObj 4).core ∧
      footprintOk (sObj 0 4) (ctxId (sObj 0 4) (qObj 4)) 0 lScr.addr (64 + 4 * 2 ^ 4) = true ∧ qLists (sObj 0 4) lScr = ([], []) ∧
      qLists { sObj 0 4 with qWaits := [(qKey lScr, ([9], []))] } lScr ≠ ([], []) ∧ queueAt (sObj 0 4) lScr = none) ∧
    (Issues (sQueue (qHead 1 15 0 0) false) 0 (qObj 4) p0 h0 1 ∧ Issues (sQueue (qHead 1 15 0 0) false) 0 (qObj 4) p0 h0 2) ∧
    (queueFound (qHead 1 15 0 0) 1 true = true ∧ queueFound (qHead 1 15 0 0) 2 true = true ∧ queueFound (qHead 1 15 0 0) 2 false = true ∧
      queueAt (sQueue (qHead 1 15 0 0) false) lScr = some ⟨4, 0, .lane, false⟩ ∧ queueAt (sQueue (qHead 16 3 3 1) true) lScr = some ⟨4, 0, .lane, true⟩) ∧
    (qAllow (qWord (sQueue (qHead 1 15 0 0) false) lScr) ≠ 0 ∧ qAllow (qWord (sQueue (qHead 0 16 0 0) false) lScr) = 0 ∧
      qLists (sQueue (qHead 1 15 0 0) false) lScr = ([], []) ∧ queueThere (qHead 1 15 0 0) 15 = true ∧ queueThere (qHead 1 15 0 0) 0 = true ∧
      qPushed (qWord (sQueue (qHead 1 15 0 0) false) lScr) = 15 ∧ qPopped (qWord (sQueue (qHead 1 15 0 0) false) lScr) = 0) ∧
    (qPushed (qWord (sQueue (qHead 16 3 3 1) true) lScr) = qPopped (qWord (sQueue (qHead 16 3 3 1) true) lScr)) :=
  ⟨⟨issueObj .., ok_at (by decide +kernel), by decide, by decide +kernel, by decide +kernel, by decide +kernel, by decide +kernel⟩,
    ⟨queue_frame .., queue_frame ..⟩, by decide +kernel, by decide +kernel, by decide +kernel⟩

/-! ### Engines: copies from memory (b1) to the scratchpad (b2), counted at the word in b6; slots 0 and 1 claimed -/

def recWord : Rec := BitVec.ofNat 256 (2 ^ 251 + 2 ^ 249 + 2 * 2 ^ 235 + 64 * 2 ^ 112 + 0x2000)
/-- An image of 16 KiB in the scratchpad. -/
def recTileImg : Rec := BitVec.ofNat 256 (2 ^ 251 + 2 ^ 249 + 2 * 2 ^ 235 + 4096 * 2 ^ 112 + 0x4000)
def qE : Squad := { qM with b := [(1, recMem), (2, recScr), (6, recWord), (7, recTileImg), (8, recScr)] }
def taskE : Task := { (wordTask State.reset) with tr := trM, claimed := [0, 1], banks := [false] }
def sE : State := { withTask (on qE) with tasks := [(1, taskE)] }
theorem issueE (h : Hdr) (cls : Nat) : Issues sE 0 qE p0 h cls := ready h cls rfl rfl rfl rfl rfl rfl rfl
def reqE : CopyReq := ⟨0x90, 0, recScr, none, recMem, 0, 6, 0⟩
def awE : AwLoc := ⟨.scr 0, 0x2000⟩

theorem test_witness_CopyCommands :
    copyOfInstr qE (.cpy h0 2 1 (.imm 6)) = some (h0, 4, reqE) ∧ Issues sE 0 qE p0 h0 4 ∧ runs p0 h0 qE ≠ 0 ∧ reqE.major ≠ 0x95 ∧
    (let s1 := issued sE 0 qE p0 h0 4 (.once 1)
     copyRows s1 (seen 0 qE p0 h0) reqE = none ∧ (copyRows s1 (seen 0 qE p0 h0) { reqE with drec := recTileImg }).isSome = true ∧
      foundAt (copyAw s1 (seen 0 qE p0 h0) 6) awE = true ∧ located (copyAw s1 (seen 0 qE p0 h0) (6 + 16 * 65535)) = false ∧
      copyLate s1 (seen 0 qE p0 h0) reqE = none ∧ spaceDown sE awE.sp = false ∧ copyEmpty reqE = false ∧
      copyEmpty { reqE with drec := recScr - BitVec.ofNat 256 (64 * 2 ^ 112), srec := recMem - BitVec.ofNat 256 (64 * 2 ^ 112) } = true) ∧
    (bankOf sE qE.core true).holders ≠ [qE.task] ∧ (bankOf sE qE.core false).holders = [qE.task] ∧
    Issues sE 0 qE p0 h0 1 ∧ (sE.copies.map (·.id)).Nodup :=
  ⟨rfl, issueE .., by decide, by decide, by decide +kernel, by decide, by decide +kernel, issueE .., by decide +kernel⟩
theorem test_witness_SlotNames :
    taskOf sE qE.task = some taskE ∧ Issues sE 0 qE p0 h0 1 ∧ runs p0 h0 qE ≠ 0 ∧
    (let free := (List.range taskE.tr.slots).filter fun k => !taskE.claimed.contains k
     free.length = 30 ∧ 31 ∉ taskE.claimed ∧ 1 ∈ taskE.claimed ∧ (64 + 256 * 256 : Nat) % 128 = 64 ∧ (64 + 256 * 256 : Nat) / 256 % 512 = 256) :=
  ⟨rfl, issueE .., by decide, by decide +kernel⟩
theorem test_witness_MatrixCommandsQueue :
    (∃ x, matrixOfInstr sE qE (.mma h0 true 31 0 1) = some (h0, 7, .mma true 31 0 1, x) ∧ x) ∧
    (∃ x, matrixOfInstr sE qE (.accSt h0 7 31) = some (h0, 4, .accSt recTileImg 31, x) ∧ x) ∧
    (claimedBy sE qE 0 = true ∧ claimedBy sE qE 2 = false) ∧ (aget sE.staged (qE.core * 8 + 7)).isSome = false ∧
    Issues sE 0 qE p0 h0 7 ∧ Issues sE 0 qE p0 h0 4 ∧ Issues sE 0 qE p0 h0 0 ∧ runs p0 h0 qE ≠ 0 :=
  ⟨⟨_, rfl, by decide +kernel, by decide +kernel⟩,
    ⟨_, rfl, by
      refine ⟨by decide, fun _ => by decide, by decide, by decide, by decide +kernel, by decide, by decide +kernel⟩⟩,
    by decide +kernel, by decide +kernel, issueE .., issueE .., issueE .., by decide⟩

/-! ### The light field and frames: a latch of one view, one tile, a drawn sample in every thread -/

def recTile : Rec := BitVec.ofNat 256 (3 * 2 ^ 252 + 2 ^ 251 + 2 ^ 249 + 2 ^ 112)
/-- A 2-D image of 16-byte elements, and one of 4-byte elements. -/
def recPanel (esize : Nat) : Rec := BitVec.ofNat 256 (2 ^ 249 + esize * 2 ^ 235 + 1024 * 2 ^ 176 + 64 * 2 ^ 144 + 64 * 2 ^ 112 + 0x8000)
def qL : Squad :=
  { qM with
    b := [(1, recPanel 4), (2, recScr), (5, recTile), (6, recWord), (7, recPanel 2)]
    s := [(3, 6#64), (5, 0x100000000000006#64)]
    rasterLv := true, im := (List.range 32).map fun u => (u, 1#64) }
def trL : TRec := { trM with band := 0x8000, ntile := 1, flags := 4 }
def sL : State :=
  { withTask (on qL) with
    tasks := [(1, { (wordTask State.reset) with tr := trL })]
    channels := [(0, ⟨BitVec.ofNat 128 (1 + 64 * 2 ^ 64 + 64 * 2 ^ 80), [], none, none, none, 0, 0, 0, [], [], [], 0⟩)] }
theorem issueL (h : Hdr) (cls : Nat) : Issues sL 0 qL p0 h cls := ready h cls rfl rfl rfl rfl rfl rfl rfl

theorem test_witness_SetupAndSpan :
    rasterRecord sL qL (rdB qL 2) 48 16 false ∧ rasterRecord sL qL (rdB qL 6) 128 64 true ∧ rdScal qL (.imm 15) < 16 ∧
    rdScal qL (.imm 0) / 4 % 4 ≠ 3 ∧ bandViews (trOf sL qL).band 0 ≠ 0 ∧ Issues sL 0 qL p0 h0 3 ∧ runs p0 h0 qL ≠ 0 ∧
    ((rdS qL 1).toNat < 2 ^ 37 ∧ (rdS qL 1).toNat % 8 = 0 ∧ qL.rasterRy ≠ 1 ∧
      (rdS qL 1).toNat / 2 ^ 32 % 8 + (rdS qL 1).toNat / 2 ^ 35 % 4 + 1 ≤ (trOf sL qL).ntile) :=
  ⟨⟨by decide, by decide, by decide, by decide, nofun, by decide +kernel⟩,
    ⟨by decide, by decide, by decide, by decide, fun _ => by decide, by decide +kernel⟩, by decide, by decide, by decide +kernel,
    issueL .., by decide, by decide, by decide, by decide, by decide +kernel⟩
theorem test_witness_SamplesAreTestedAndWritten :
    positionsFit sL qL (runs p0 h0 qL) 0 40 ∧ Issues sL 0 qL p0 h0 3 ∧ runs p0 h0 qL ≠ 0 ∧
    (planeStore qL (.lfWriteInc h0 7 40 42)).isSome = true ∧ (planeStore qL (.lfVis h0 0 (.imm 3) 40)).isSome = true ∧
    (cellSamples sL qL 0 40 1 31).length = 1 :=
  ⟨⟨rfl, fun u hu _ _ => by
      have : ∀ u, u < 32 → (posOf qL 40 u).tile < (trOf sL qL).ntile ∧ (posOf qL 40 u).px + qL.rasterRx < 8 ∧
        (posOf qL 40 u).py + qL.rasterRy < 8 := by decide +kernel
      exact this u hu⟩, issueL .., by decide, by decide, by decide, by decide +kernel⟩
theorem test_witness_CellsAndRates :
    Issues sL 0 qL p0 h0 2 ∧ qL.rasterLv = true ∧ unionMask qL 0 31 ≠ 0 ∧ Issues sL 0 qL p0 h0 1 ∧ rdScal qL (.imm 23) < 24 ∧
    (Instr.lfViewsV h0 (r 63) 3).wf = true ∧ runs p0 h0 qL ≠ 0 :=
  ⟨issueL .., rfl, by decide +kernel, issueL .., by decide, by decide, by decide⟩
theorem test_witness_FrameInstructions :
    (firstErr (frameRecRows qL.core true recTile (recPanel 4) (rdS qL 4).toNat (rdS qL 5).toNat (bandViews (trOf sL qL).band 0)
      ++ awRows (seen 0 qL p0 h0) ((rdS qL 5).toNat % 2 ^ 20))).isSome = true ∧
    firstErr (frameRecRows qL.core true recTile (recPanel 4) (rdS qL 2).toNat (rdS qL 3).toNat (bandViews (trOf sL qL).band 0)
      ++ awRows (seen 0 qL p0 h0) ((rdS qL 3).toNat % 2 ^ 20)) = none ∧
    foundAt (copyAw (issued sL 0 qL p0 h0 4 (.once 1)) (seen 0 qL p0 h0) ((rdS qL 3).toNat % 2 ^ 20)) awE = true ∧
    firstErr (frameRecRows qL.core false recTile (recPanel 2) (rdS qL 2).toNat (rdS qL 3).toNat (bandViews (trOf sL qL).band 0)
      ++ awRows (seen 0 qL p0 h0) ((rdS qL 3).toNat % 2 ^ 20)) = none ∧
    (chEn (channelOf sL 0) = true ∧ chCtx (channelOf sL 0) = ctxId sL qL ∧ chEn (channelOf sL 6) = false) ∧
    ((rdS qL 1).toNat / 2 ^ 6 % 2 ^ 26 = 0 ∧ (channelOf sL 0).lastArmed = none ∧ (channelOf sL 0).armed.length < 4) ∧
    (recKind (recPanel 2) = 0 ∧ recSpace (recPanel 2) = 0 ∧ rec2d (recPanel 2) = true ∧ recEsize (recPanel 2) = 2 ∧
      recReserved (recPanel 2) = false ∧ recGeomBad (recPanel 2) = false ∧ chWidth (channelOf sL 0) ≤ recExt0 (recPanel 2) ∧
      chHeight (channelOf sL 0) ≤ recExt1 (recPanel 2)) ∧
    (rdScal qL (.imm 10) < 2 ^ 14 ∧ rdScal qL (.imm 10) / 16 % 16 = 0 ∧ rdScal qL (.imm 10) % 16 ≤ 10) ∧ runs p0 h0 qL ≠ 0 := by
  decide +kernel

/-! ### Tasks: a graph descriptor (b9) of one node (b10), a collector's record (b11) with a ring of 16 -/

def recAt (a : Nat) : Rec := BitVec.ofNat 256 (2 ^ 249 + 2 * 2 ^ 235 + 64 * 2 ^ 112 + a)
def qT : Squad := { qM with b := [(9, recAt 0x9000), (10, recAt 0x8000), (11, recAt 0xA000)] }
def nodeT (rd wr : Nat) : Node :=
  { newNode 7 0 0xA000 0 { trReset with cthresh := 1, nrange := 1, range := BitVec.ofNat 1024 (0xB000 + 0x80 * 2 ^ 64 + 3 * 2 ^ 104) } none with
    rd := rd, wr := wr }
def sT (rd wr : Nat) : State :=
  { withTask (on qT) with
    nodes := [(9, nodeT rd wr)]
    mem := [(0x8010, 1), (0x8012, 2), (0x8017, 3), (0x9001, 0x91), (0x9008, 1), (0x900C, 5), (0x9101, 0x80), (0xA0CC, 1), (0xA0E0, 1),
      (0x10000, 1), (0x10002, 2), (0x20000, 7)] }
theorem issueT (rd wr : Nat) (h : Hdr) (cls : Nat) : Issues (sT rd wr) 0 qT p0 h cls := ready h cls rfl rfl rfl rfl rfl rfl rfl
def vaOf (e : Except FaultInfo Nat) : Nat := match e with | .ok a => a | .error _ => 0
def recT (k n al : Nat) (wr : Bool) : Nat :=
  vaOf (sysRecord (issued (sT 0 16) 0 qT p0 h0 1 (.once 1)) (seen 0 qT p0 h0) (rdB qT k) n al wr)
def accepts (e : Except (Nat × Nat) (State × Nat × Nat)) : Bool := match e with | .ok _ => true | .error _ => false

theorem collectorAt_none {s : State} {ctx va : Nat} (h : nodeAt s ctx va = none) : collectorAt s ctx va = none := by
  unfold collectorAt
  rw [h]
  cases readTRec s ctx va <;> rfl
theorem collectorAt_some {s : State} {ctx va x id : Nat} {n : Node} (hx : devReadN s ctx va 256 = some x)
    (hn : nodeAt s ctx va = some id) (ho : nodeOf s id = some n) (hc : (trecOf x).cthresh ≠ 0)
    (hs : (devReadN s ctx (va + 224) 1).getD 0 < 5) : collectorAt s ctx va = some (id, n) := by
  simp [collectorAt, readTRec, hx, hn, ho, hc, hs]
theorem accepts_one {s : State} {ctx desc x : Nat} {d : GDesc} (priv : Bool) (va : Nat) (hd : gdescOf desc = some d)
    (hv : (List.range d.nnode).map (fun i => (devReadN s ctx (d.nodes + 8 * i) 8).getD 1) = [va])
    (hx : devReadN s ctx va 256 = some x)
    (hr : (va % 64 == 0 && fieldAt x 224 1 == 0 && fieldsOk (trecOf x) && (!trPriv (trecOf x) || priv) && schedOk s ctx (trecOf x) &&
      (trecOf x).gang == 0) = true) : accepts (submitGraph s ctx priv (some 0) desc) = true := by
  simp only [Bool.and_eq_true] at hr
  have : firstRefused s ctx 0 priv [va] = none := by
    simp [firstRefused, recordOk, readTRec, gangFits, hx, hr]
  simp [submitGraph, hd, hv, this, accepts]
def pageIs (e : Except Err Page) (p : Page) : Bool := match e with | .ok q => decide (q = p) | .error _ => false
def s1T : State := issued (sT 0 16) 0 qT p0 h0 1 (.once 1)
/-- The 256 bytes at an address in page 0, where context 0 maps it to itself. -/
theorem read_page0 {s : State} (hs : pageIs (pageOf s 0 0) ⟨0, true, false⟩ = true) (va : Nat) (h : va < 0xFF00) :
    devReadN s 0 va 256 = some (rdN s .mem va 256) := by
  have hp : pageOf s 0 va = .ok ⟨0, true, false⟩ := by
    rw [pageOf_page s 0 (va := va) (vb := 0) (by omega)]
    revert hs; cases pageOf s 0 0 <;> simp [pageIs]
  rw [devReadN, devRead_page hp (by omega) (by omega) (fun k hk => by
    simp [populated, Config.dieBytes]; omega)]
  simp [rdN, Nat.mod_eq_of_lt (show va < 65536 by omega)]
theorem readT (va : Nat) (h : va < 0xFF00) : devReadN s1T 0 va 256 = some (rdN s1T .mem va 256) :=
  read_page0 (by decide +kernel) va h
theorem test_witness_TaskInstructions :
    Issues (sT 0 16) 0 qT p0 h0 1 ∧ Issues (sT 0 16) 0 qT p0 h0 2 ∧ Issues (sT 0 16) 0 qT p0 h0 4 ∧ runs p0 h0 qT ≠ 0 ∧
    recT 9 32 32 false = 0x9000 ∧ recT 10 256 64 true = 0x8000 ∧ recT 11 256 64 false = 0xA000 ∧
    (let d (va : Nat) := (devReadN s1T 0 va 32).getD 0
     accepts (submitGraph s1T 0 false (some 0) (d 0x9000)) = true ∧ accepts (submitGraph s1T 0 false (some 0) (d 0x8000)) = false) ∧
    (devReadN s1T 0 (0xA000 + 224) 1 = some 1 ∧ devReadN s1T 0 (0x8000 + 224) 1 ≠ some 1) ∧
    collectorAt s1T 0 0xA000 = some (9, nodeT 0 16) ∧ collectorAt s1T 0 0x8000 = none ∧
    (ringSize (nodeT 0 16).tr ≤ (nodeT 0 16).wr - (nodeT 0 16).rd ∧ (nodeT 0 15).wr - (nodeT 0 15).rd < ringSize (nodeT 0 15).tr) ∧
    (∃ tk, taskOf (sT 0 16) qT.task = some tk) ∧ 256 ≤ rdScal qT (.imm 256) ∧ rdScal qT (.imm 255) < 256 :=
  ⟨issueT .., issueT .., issueT .., by decide, by decide +kernel, by decide +kernel, by decide +kernel,
    ⟨accepts_one (d := ⟨0x9100, 1, 5, 0⟩) false 0x8000 (by decide +kernel) (by decide +kernel) (readT _ (by decide)) (by decide +kernel),
      by decide +kernel⟩, by decide +kernel,
    collectorAt_some (readT _ (by decide)) (by decide) rfl (by decide +kernel) (by decide +kernel), collectorAt_none (by decide),
    by decide +kernel, ⟨_, rfl⟩, by decide, by decide⟩
theorem test_witness_EnergyWaitsAndCounters :
    Issues (on qPay) 0 qPay p0 h0 0 ∧ qPay.granted = false ∧ runs p0 h0 qPay ≠ 0 ∧
    (budgetOf (issued (on qPay) 0 qPay p0 h0 0 (.once 1)) 0 0).cap = 4096 ∧
    (budgetOf (issued (on qPay) 0 qPay p0 h0 0 (.once 1)) 0 0).bud = 4096 ∧ rdScal qPay (.imm 4097) = 4097 ∧ rdScal qPay (.imm 4096) = 4096 ∧
    (budgetOf (issued { on qPay with budgets := [(0, ⟨3, 0, 0, 8, 0, [], []⟩)] } 0 qPay p0 h0 0 (.once 1)) 0 0).bud < rdScal qPay (.imm 4) ∧
    (let q := { q0 with wait := some (.ebud 5) }
     Resumes (on q) 0 q p0 (.ebud (rdScal q (.imm 5))) ∧ q.granted = true ∧ rdScal q (.imm 5) ≤ (budgetOf (on q) 0 0).cap) :=
  ⟨⟨rfl, rfl, rfl, rfl, rfl, rfl, .inl (by decide)⟩, rfl, by decide, by decide +kernel, by decide +kernel, by decide, by decide,
    by decide +kernel, ⟨rfl, rfl, rfl, rfl, rfl, rfl, rfl⟩, rfl, by decide +kernel⟩

/-! ### Events of squads -/

/-- The squad of the machine with another wait, at 20 us. -/
def sWait (w : Wait) : State := { on { q0 with wait := some w } with time := 20000, clock := 3 }
def arr0 : Arrival := ⟨0, 0, 0, 0, 0, 1, 0, ⟨false, 0⟩, allThreads, some 5, lScr, 4, none⟩
theorem test_witness_SquadEvents :
    (let q := { q0 with pend := [⟨5, true, [.s 1 7], none⟩] }
     squadOf (on q) 0 = some q ∧ q.fault = none ∧ (q.pend.find? fun a => a.id == 5 && a.ready) = some ⟨5, true, [.s 1 7], none⟩) ∧
    (squadOf (sWait (.waitc 20000)) 0 = some { q0 with wait := some (.waitc 20000) } ∧ 20000 ≤ (sWait (.waitc 20000)).time ∧
      3 ≤ (sWait (.waitcRel 3)).clock ∧ 0 + 20000 ≤ (sWait (.peer 0)).time ∧
      (∃ k, taskOf (sWait (.waitcRel 3)) q0.task = some k ∧ k.saved = false) ∧
      (∀ k, taskOf { sWait (.waitcRel 3) with tasks := [(1, { wordTask State.reset with saved := true })] } q0.task = some k → k.saved = true)) ∧
    (let s (arrived : Nat) : State := { sObj (barObj 1 5 + arrived * 2 ^ 144) 4 with arrivals := [arr0] }
     (s 0).arrivals[0]? = some arr0 ∧ arr0.child = none ∧ objThere (s 0) arr0.obj = true ∧ barState (barWord (s 3) lScr) = 1 ∧
      arr0.count = barCount (barWord (s 3) lScr) ∧ instOf (qObj 4) (barLevel (barWord (s 3) lScr)) = (barDev (s 3) lScr).inst ∧
      (barDev (s 3) lScr).kids = [] ∧ barArrived (barWord (s 0) lScr) + 1 < barCount (barWord (s 0) lScr) ∧
      barArrived (barWord (s 3) lScr) + 1 = barCount (barWord (s 3) lScr) ∧ barPvalid (barWord (s 3) lScr) = false) :=
  ⟨⟨rfl, rfl, by decide⟩, ⟨rfl, by decide, by decide, by decide, ⟨_, rfl, rfl⟩, fun _ h => by cases h; rfl⟩, by decide +kernel⟩

/-! ### Copy engines -/

/-- A copy command of the squad. -/
def copy0 : Copy :=
  { id := 20, die := 0, eng := 0, core := 0, ctx := 0, task := 1, node := none, squad := 0, sidx := 0, pc := ⟨false, 0⟩,
    major := 0x90, xf := 0, drec := recScr, srec := recMem, irec := 0, dslot := none, cword := 6, param := 0, aw := awE,
    awName := (1, 0x2000), phase := .running, total := 256, landed := [], cancelled := false, hold := [], stv := none,
    walk := none, epoch := none, soff := 0, out := 0, decoded := [], committed := 0, parked := none }
def sCopies (cs : List Copy) : State := { sE with copies := cs }
/-- Bytes written one by one over the pages of `withTask`, which may be executed only. -/
def overlay : List (Nat × Byte) := [(0x201000, 0x4E), (0x201001, 0x59), (0x201002, 0x4F), (0x201003, 0x56), (0x201004, 1), (0x201008, 1)]
/-- A stored packed block of 128 bytes in two chunks. -/
def packed : List (Nat × Byte) :=
  [(0x201000, 0x3C), (0x201001, 0x5A), (0x201003, 0x02), (0x201004, 0x08), (0x201006, 0x10)]
def sBytes (leaf : Byte) (l : List (Nat × Byte)) (cs : List Copy) : State :=
  { sCopies cs with mem := [(0x10000, 1), (0x10002, 2), (0x20000, 1), (0x20002, 3), (0x30000, leaf), (0x30002, 0x20)] ++ l }
def packCopy : Copy := { copy0 with major := 0x92 }
def okOf {α β : Type} (e : Except α β) : Bool := match e with | .ok _ => true | .error _ => false
/-- The number of chunks of the block that a command has come to, and whether the payload of each is read. -/
def blockOf (s : State) (c : Copy) : Option (Nat × Bool) :=
  match packState s c with
  | .block b => some (b.nch, (List.range b.nch).all fun k => okOf (chunkPay s c b k))
  | _ => none
def commitOk (s : State) (c : Copy) : Bool :=
  match packState s c with
  | .block b => match nextCommit s c b with
    | .ok bs => okOf (putPieces c (splitPieces (copyDesc c) 1025 (c.out + c.committed * packQ b) bs) s)
    | .error _ => false
  | _ => false
theorem test_witness_CopyEngineEvents :
    ((sCopies [copy0]).copies.map (·.id)).Nodup ∧
    (let c := { copy0 with phase := .inbox }
     (sCopies [c]).copies.filter (fun k => k.die == 0 && k.eng == 0 && k.phase == .inbox) = [c]) ∧
    (let c := { copy0 with phase := .queued }
     (sCopies [c]).copies.filter (fun k => k.die == 0 && k.eng == 0 && k.phase == .queued) = [c]) ∧
    (0 ∈ remaining copy0 ∧ okOf (chunkEffect (sCopies [copy0]) copy0 0) = true) ∧
    (let c := { copy0 with major := 0x93, drec := 0, dslot := some 1 }
     okOf (chunkEffect (sCopies [c]) c 0) = true ∧ c.total % 64 = 0 ∧ copySlot (sCopies [c]) c = some 1) ∧
    (let c := { copy0 with srec := recAt 0x300000 }
     copyFaultNow (sCopies [c]) c = some ((0x05, 1), 0x300000) ∧ parks (0x05, 1) c.node = false) ∧
    (let c := { copy0 with srec := recAt 0x1000 }
     let s := { sCopies [c] with mem := [] }
     (copyFaultNow s c).map (fun e => parks e.1 c.node) = some true) ∧
    (blockOf (sBytes 7 packed [packCopy]) packCopy = some (2, true) ∧
      commitOk (sBytes 7 packed [{ packCopy with decoded := [0] }]) { packCopy with decoded := [0] } = true ∧
      0 + 1 < 2 ∧ packCopy.out < packCopy.total ∧ packCopy.soff < regionSize packCopy.srec) ∧
    (let c := { copy0 with hold := [3] }
     c.hold ≠ [] ∧ queueOf (sCopies [c]) c.core = []) ∧
    (let c := { copy0 with major := 0x95, xf := 1 }
     okOf (ovlImage (sBytes 15 overlay [c]) c.ctx (regionAddr c.srec) (regionSize c.srec)) = true) := by decide +kernel

/-! ### Matrix engine: the command at the head of core 0, slots 0 and 1 with one row of 32 BF16 elements each -/

def mc (k : MKind) : MCmd := ⟨30, 0, 1, 0, 0, ⟨false, 0⟩, k, false, false, [], []⟩
def sMat (cs : List MCmd) : State :=
  { sE with matQueue := [(0, cs)], sidecar := [(0, 0x18), (1, 0x7F), (2336, 0x18), (2337, 0x7F)], ext := [(0, 1, 32), (1, 1, 32)] }
/-- A scratchpad record of `n` elements of four bytes. -/
def scrRec (n a : Nat) : Rec := BitVec.ofNat 256 (2 ^ 251 + 2 ^ 249 + 2 * 2 ^ 235 + n * 2 ^ 112 + a)
/-- A stream of one output rule without symbols, at 0x9000 of the scratchpad, and its evaluation. -/
def gmvBytes : List (Nat × Byte) :=
  [(0x9000, 0x47), (0x9001, 0x52), (0x9002, 0x4D), (0x9003, 0x31), (0x9004, 1), (0x9006, 1), (0x9008, 1), (0x900A, 0x18), (0x900B, 1),
    (0x900C, 1), (0x9041, 0x10), (0x9042, 2)]
def gmvC : MCmd := mc (.gmv (scrRec 64 0xA000) (scrRec 17 0x9000) (scrRec 16 0xB000) 0x1001000)
def gmvG : Gmv := ⟨0, taskE.tile0, gmvC, scrRec 64 0xA000, scrRec 17 0x9000, scrRec 16 0xB000, 1, 1, 0, 0, 0, 0, 0⟩
def blocksOf (s : State) (c : MCmd) (r : Rec) (wr : Bool) : List (Space × Nat) :=
  match regionBlocks s 0 c r wr with | .ok ps => ps | .error _ => []
def inFull (s : State) (c : MCmd) (r : Rec) (wr : Bool) : Bool := okOf (regionBlocks s 0 c r wr)
def sw (ext : Option (Nat × Nat)) : SlotWait := ⟨0, 3, 1, 3, [], ext⟩

theorem test_witness_MatrixEngineEvents :
    (let c := mc (.zero true 0)
     let s := { sE with matInbox := [(0, [c])] }
     inboxOf s 0 = [c] ∧ (queueOf s 0).length < 8 ∧
       aget ({ sE with staged := [(7, ⟨c, 0⟩)] } : State).staged (0 * 8 + 7) = some ⟨c, 0⟩ ∧
       (queueOf (sMat [{ c with executed := true }]) 0 = [{ c with executed := true }] ∧ c.homes = [])) ∧
    (taskOf (sMat []) 1 = some taskE ∧ taskE.stopping = .no) ∧
    ({ sMat [] with slotWaits := [⟨0, 0, 1, 0, [], some (1, 1)⟩] : State }.slotWaits.any (fun w =>
      w.core == 0 && w.slot == taskE.slots.getD 0 0 && w.ext.isSome && !w.readers.contains 30) = true) ∧
    (fetchErr (sMat []) 0 taskE 0 1 = none ∧ fetchErr sE 0 taskE 0 1 = some (9, 2) ∧ parks (9, 2) none = false ∧
      4097 ≤ (List.replicate 4097 (0 : W32)).length ∧ matParked (sMat []) 0 = false) ∧
    (let s := sMat []
     let c := mc (.zero true 0)
     inFull s c recTileImg true = true ∧ inFull s c recTileImg false = true ∧ (blocksOf s c recTileImg false).length = 256 ∧
       ((blocksOf s c recTileImg false).all fun p => rdTag s p.1 (p.2 / 64) &&& 0xFF != 0xF8) = true) ∧
    ((gmvRun { sMat [gmvC] with scr := gmvBytes } gmvG).2.1 = none ∧ (gmvRun (sMat [gmvC]) gmvG).2.1 = some ((0x0B, 1), 0) ∧ parks (0x0B, 1) none = false ∧
      gmvC.kind = .gmv gmvG.dst gmvG.src gmvG.inp 0x1001000 ∧ gmvG.nb = (0x1001000 : W64).toNat / 2 ^ 24 % 128 ∧
      gmvG.cap = (0x1001000 : W64).toNat / 2 ^ 12 % 4096 ∧ gmvG.base = (0x1001000 : W64).toNat % 2 ^ 11) ∧
    (let c := { mc (.drain 8 .rne true false recScr 0) with homes := [0] }
     let mine (s : State) := (blocksOf s c recScr true).zipIdx.filter fun p => homeOf p.1 == 0
     let same (s : State) := (mine s).all fun p => rdTag s p.1.1 (p.1.2 / 64) == 0x7F08
     let s := { sMat [c] with scrTag := [(64, 0x7F08), (65, 0x7F08), (66, 0x7F08), (67, 0x7F08)] }
     inFull s c recScr true = true ∧ (mine s).length = 4 ∧ same s = true ∧ same (sMat [c]) = false) ∧
    (let s (e : Option (Nat × Nat)) : State := { sE with slotWaits := [sw e] }
     ((s none).slotWaits.find? fun w => w.core == 0 && w.slot == 3 && w.ext.isNone && slotReady (s none) w) = some (sw none) ∧
     ((s (some (1, 1))).slotWaits.find? fun w => w.core == 0 && w.slot == 3 && w.ext.isSome && slotReady (s (some (1, 1))) w) =
       some (sw (some (1, 1)))) := by decide +kernel

/-! ### Light field, contexts and frames -/

/-- Context 0 with identity pages and a feedback ring of 16 whose WRITE is `w`. -/
def sFb (w : Byte) : State :=
  { sE with
    ctxs := [(0, { ctxReset with ptroot := 0x10001, fbctl := 0xC000, epoch := 2, feedback := [⟨0, 0, 1, 2, 1, 0⟩] })]
    mem := [(0xC001, 0xC1), (0xC008, 4), (0xC010, w), (0x10000, 1), (0x10002, 2), (0x20000, 7)] }
def ringOf (s : State) : Option (Nat × Nat) := fbRing (modCtx s 0 fun c => { c with feedback := [] }) 0
/-- Base, LOG2N, WRITE and READ. -/
def ringParts (s : State) : Option (Nat × Nat × Nat × Nat) := (ringOf s).map fun e => (fieldAt e.2 0 8, fieldAt e.2 8 1, fieldAt e.2 16 4, fieldAt e.2 20 4)
def span0 : SpanReq := ⟨50, 0, 0, ⟨false, 0⟩, 1, false, 0, 0, 0, 0x1000, 0⟩
def lf0 (repro : Bool) : LfCmd :=
  { id := 40, repro := repro, die := 0, core := 0, ctx := 0, task := 1, node := none, squad := 0, sidx := 0, pc := ⟨false, 0⟩, tileRec := recTile,
    other := recPanel 4, panel := recAt 0x2000, word := 0, views := 1, aw := awE, parked := none }
def sLf (repro : Bool) : State :=
  { sE with lfCmds := [lf0 repro], mem := [(0x10000, 1), (0x10002, 2), (0x20000, 1), (0x20002, 3), (0x30000, 7), (0x30002, 0x20), (0x202004, 1)] }
def descOf (s : State) (c : LfCmd) : Nat := match panelDesc s c with | .ok d => d | .error _ => 0
def image0 : Image := ⟨60, recPanel 4⟩
def chan (fr : Nat) (img : Option Image) (isSub : Bool) : Channel :=
  ⟨1, [⟨5, fr, 9, img⟩], none, none, none, 0, 0, 0, [(0, img), (101, img)], [], [⟨61, 0, 5, recPanel 4, isSub⟩], 0⟩
def sCh (k : Channel) : State := { sE with channels := [(3, k)], time := 100 }

theorem test_witness_FieldEvents :
    ((sFb 0).ctxs.map (fun e => e.2.feedback.length) = [1] ∧ ringOf sE = none ∧ ringParts (sFb 0) = some (0xC100, 4, 0, 0) ∧
      fbWritable (modCtx (sFb 0) 0 fun c => { c with feedback := [] }) 0 0xC100 = true ∧ ringParts (sFb 16) = some (0xC100, 4, 16, 0)) ∧
    ((ctxOf (sFb 0) 0).done < (walksOf (sFb 0) 0).foldl min (ctxOf (sFb 0) 0).epoch ∧
      (walksOf sE 0).foldl min (ctxOf sE 0).epoch ≤ (ctxOf sE 0).done) ∧
    (nextSpan { sE with spans := [span0] } 0 = some (span0, qE) ∧ squadOf sE 0 = some qE ∧ qE.pend = [] ∧
      ctrlBad (primOf (rdN sE (.scr 0) 0x1000 128)).ctrl = false ∧ span0.act ≠ 0) ∧
    (((sLf true).lfCmds.find? fun k => k.die == 0 && k.repro == true) = some (lf0 true) ∧ tileIn (sLf true) (lf0 true) = true ∧
      ((sLf false).lfCmds.find? fun k => k.die == 0 && k.repro == false) = some (lf0 false) ∧
      okOf (panelDesc (sLf false) (lf0 false)) = true ∧
      (resolvePixels (lf0 false) (descOf (sLf false) (lf0 false)) tilePixels (sLf false)).2 = none ∧ (lf0 false).parked = none) ∧
    (let due (k : Channel) : Bool := k.armed.any fun f => f.frame == 5 && decide ((sCh k).time < f.deadline) && !frameFaulted (sCh k) f
     due (chan 101 none false) = true ∧ due (chan 100 none false) = false ∧ (chan 101 none true).commits = [⟨61, 0, 5, recPanel 4, true⟩]) ∧
    (let late (k : Channel) := (channelOf (sCh k) 3).armed.find? fun f => decide (f.deadline ≤ (sCh k).time)
     late (chan 100 none false) = some ⟨5, 100, 9, none⟩ ∧ late (chan 100 (some image0) false) = some ⟨5, 100, 9, some image0⟩ ∧
      frameFaulted (sCh (chan 100 none false)) ⟨5, 100, 9, none⟩ = false) ∧
    ((chan 100 none false).due = [(0, none), (101, none)] ∧ (sCh (chan 100 none false)).time = 100) ∧ sE.ready = true ∧ mayManage sE none true = true ∧
    mayManage sE (some 1) true = true := by decide +kernel

theorem test_witness_FrameInstructions_full :
    16 ≤ ((List.replicate 16 (lf0 true)).filter fun k => k.die == qL.core / 128 && k.repro).length ∧ lf0 true ∉ sL.lfCmds := by decide
theorem test_witness_TaskInstructions_full :
    let s : State := { sT 0 16 with spawns := List.replicate 256 ⟨0, 9⟩ }
    256 ≤ (s.spawns.filter fun a => a.die == qT.core / 128).length ∧ Issues s 0 qT p0 h0 2 ∧
    vaOf (sysRecord (issued s 0 qT p0 h0 2 (.once 1)) (seen 0 qT p0 h0) (rdB qT 9) 32 32 false) = 0x9000 :=
  ⟨by decide +kernel, ready _ _ rfl rfl rfl rfl rfl rfl rfl, by decide +kernel⟩

/-! ### Nodes: node 5 of context 0, whose pages are not there -/

def trN : TRec := (wordTask State.reset).tr
def nodeN (tr : TRec) : Node := { newNode 4 0 0x5000 0 tr none with st := 2, leased := true, parts := 1 }
def sNode (n : Node) : State := { State.reset with ready := true, nextId := 10, nodes := [(5, n)], time := 3000000 }
/-- One range; more slots than a core has; a gang's member that runs again; a collector with four records. -/
def trRange : TRec := { trN with nrange := 1, range := BitVec.ofNat 1024 (0x10000 + 2 ^ 16 * 2 ^ 64 + 3 * 2 ^ 104) }
def trWide : TRec := { trN with slots := 65 }
def nodeGang : Node := { nodeN { trWide with gang := 3 } with again := [⟨0, 1, 0⟩], misfit := some 0 }
def nodeColl (st : Nat) : Node := { nodeN { trN with cthresh := 4 } with st := st, parts := 0, wr := 4 }
def planPlace (s : State) (id : Nat) : List (Nat × Nat × Nat) := ((placeTry s id).getD []).map fun e => (e.1.1, e.1.2.1.part, e.2.1)
def taskDone : Task := { (wordTask State.reset) with node := 5, squads := [] }

theorem test_witness_NodeEvents :
    (let n := { nodeN trRange with leased := false, asked := true }
     unasked (sNode n) 5 n = [(1, true)] ∧ n.st = 2 ∧ nodeKind n = 0 ∧ leaseThere (sNode n) 0 trRange = false) ∧
    (leaseThere (sNode (nodeN trRange)) 0 trRange = false ∧ leaseThere (sNode (nodeN trN)) 0 trN = true ∧ nodeKind (nodeN trN) = 0) ∧
    (let u := rereadFor (sNode (nodeN trN)) 5
     poolTakes (sNode (nodeN trN)) 5 = true ∧ nodeOf u 5 = some (nodeN trN) ∧ planPlace u 5 = [(5, 0, 0)] ∧ lodValid u 0 trN = true) ∧
    (misfits (sNode (nodeN trWide)) 5 (nodeN trWide) = true ∧ misfits (sNode nodeGang) 5 nodeGang = true ∧ nodeGang.drain = []) ∧
    (collectIdle (nodeColl 1) = true ∧ (nodeColl 1).tr.cthresh ≤ (nodeColl 1).wr - (nodeColl 1).rd ∧ (nodeColl 1).oldest + 50 * 1000 ≤ 3000000) ∧
    (let n := { nodeN trN with st := 3, started := 1, insts := [7] }
     let s := { sNode n with tasks := [(7, taskDone)] }
     taskFinished s 7 = true ∧ pending n = false ∧ collector n = false) ∧
    (nodeKind (nodeN { trN with ctrl := 16 }) = 1 ∧ (nodeN trN).fault = none) := by decide +kernel

/-! ### Tasks: task 1 of node 5 on core 0, with squad 0 -/

def taskN (st : Stopping) (flags : Nat) : Task :=
  { (wordTask State.reset) with node := 5, squads := [0], stopping := st, tr := { trN with flags := flags, runlim := 1 }, rbudget := 1, slots := List.range 32 }
def sTask (t : Task) (ns : List (Nat × Node)) (cflags : W64) (mem : List (Nat × Byte)) : State :=
  { sNode (nodeN trN) with
    nodes := ns, tasks := [(1, t)], squads := [(0, q0)], mem := mem, ctxs := [(0, { ctxReset with ptroot := 0x10001, cflags := cflags })] }
def identityMap : List (Nat × Byte) := [(0x10000, 1), (0x10002, 2), (0x20000, 7)]
def frec : FaultRec := ⟨9, 1, 0, 0, 0, 0, 0, 0, true⟩
/-- A node of deadline priority that needs the whole of core 0, all the other cores being reserved. -/
def urgent : List (Nat × Node) :=
  [(5, nodeN { trN with slots := 64, ctrl := 7 }), (6, { nodeN trN with st := 1, drain := (List.range 127).map (· + 1), tr := { trN with gang := 1 } })]
def reserving : List (Nat × Node) := [(6, { nodeN { trN with gang := 1, ctrl := 5 } with drain := [0] })]
def kept0 : Kept := ⟨[], [], [], [], [], []⟩
def taskSaved (st : Stopping) : Task := { taskN st 8 with saved := true, kept := some kept0 }
def dead0 (t : Task) (cflags : W64) : Bool := deadlineRec (sTask t [] cflags identityMap) t.tr t.ctx

theorem test_witness_TaskEvents :
    (let s := sTask (taskN (.scrub frec) 1) [] 0 []
     quiet s 1 (taskN (.scrub frec) 1) = true ∧ trIdem (taskN (.scrub frec) 1).tr = true ∧ trIdem (taskN (.scrub frec) 0).tr = false ∧ frec.relaunch = true) ∧
    (dead0 (taskN .no 0) 4 = false ∧ priorityVictim (sTask (taskN .no 0) urgent 4 []) 1 = true ∧
      drainVictim (sTask (taskN .no 0) reserving 0 []) (taskN .no 0) = true ∧ migrates (sTask (taskN .no 8) [] 0 []) 1 (taskN .no 8) 1 = true ∧
      dead0 { taskN .no 0 with tr := { trN with ctrl := 7 } } 4 = true) ∧
    (saves (taskN (.preempt none) 0) none = true ∧ saveReady (sTask (taskN (.preempt none) 0) [] 0 identityMap) 1 (taskN (.preempt none) 0) = true ∧
      saves (taskN (.preempt none) 2) none = false ∧ quiet (sTask (taskN .replaying 2) [] 0 []) 1 (taskN .replaying 2) = true) ∧
    (let t := taskSaved .no
     let s := sTask t [] 0 []
     resumeFits s t = true ∧ (poolBest s 0).map (fun e => (e.task, e.id)) = some (true, 1)) ∧
    (let t := taskSaved (.preempt (some 1))
     let s := sTask t [] 0 []
     let c : MCmd := mc (.zero true 0)
     stagedFree s 1 kept0 = true ∧ undrained s t 1 = true ∧ (fitIn (useOf s [] 1) 0 t.tr (some 0) (keptNeed t false) (keptNeed t true)).isSome = true ∧
      stagedFree { s with staged := [(8, ⟨c, 0⟩)] } 1 { kept0 with staged := [(0, ⟨c, 0⟩)] } = false ∧
      undrained (sTask t reserving 0 []) t 0 = false) ∧
    wdogDue (sTask (taskN .no 0) [] 0 []) (taskN .no 0) = true := by decide +kernel

/-! ### Host queues: context 0 with a submission ring at 0x9000, whose first entry is a graph, and an event ring at 0xC000 -/

def ctxQ : Ctx := { ctxReset with ptroot := 0x10001, cflags := 1, sqbase := 0x9000, sqlog2 := 4, eqbase := 0xC000, eqlog2 := 4 }
def graphMem : List (Nat × Byte) :=
  [(0x8010, 1), (0x8012, 2), (0x8017, 3), (0x9001, 0x91), (0x9008, 1), (0x900C, 5), (0x9101, 0x80), (0x10000, 1), (0x10002, 2), (0x20000, 7)]
def sQ (c : Ctx) (mem : List (Nat × Byte)) : State := { sE with ctxs := [(0, c)], mem := mem }
/-- The state in which the first descriptor is read. -/
def taken (s : State) : State :=
  ringEv (logEvs (modCtx s 0 fun c => { c with sqtail := 1, sqhead := 1 })
    ([0, 1].map fun l => .release (whoLink l) 64 .sys (.graph s.nextId))) 0 0x9000 32 (some .sys)
def acceptsHost (e : Except (Nat × Nat) (State × Nat × Nat)) : Bool := match e with | .ok _ => true | .error _ => false
def awaiting0 (who : Awaiter) : Ctx := { ctxQ with awaiting := [⟨7, who, 5, 1, 0x1000, 0⟩] }
def awaitFor (s : State) : Option Awaiter := (awaitOf s 0 7).map (·.who)

theorem accepts_host {s : State} {ctx desc x : Nat} {d : GDesc} (priv : Bool) (va : Nat) (hd : gdescOf desc = some d)
    (hv : (List.range d.nnode).map (fun i => (devReadN s ctx (d.nodes + 8 * i) 8).getD 1) = [va])
    (hx : devReadN s ctx va 256 = some x)
    (hr : (va % 64 == 0 && fieldAt x 224 1 == 0 && fieldsOk (trecOf x) && (!trPriv (trecOf x) || priv) && schedOk s ctx (trecOf x) &&
      (trecOf x).gang == 0) = true) : accepts (submitGraph s ctx priv none desc) = true := by
  simp only [Bool.and_eq_true] at hr
  have : firstRefused s ctx (d.gid % 8) priv [va] = none := by
    simp [firstRefused, recordOk, readTRec, gangFits, hx, hr]
  simp [submitGraph, hd, hv, this, accepts]

theorem test_witness_HostQueueEvents :
    ((sQ ctxQ []).ready = true ∧ ctxQ.cflags.getLsbD 0 = true ∧ 2 ^ ctxQ.sqlog2 < (17 + 2 ^ 32 - ctxQ.sqhead) % 2 ^ 32 ∧
      (0 + 2 ^ 32 - ctxQ.sqhead) % 2 ^ 32 ≤ 2 ^ ctxQ.sqlog2 ∧ 0 = ctxQ.sqtail ∧ (1 + 2 ^ 32 - ctxQ.sqhead) % 2 ^ 32 = 1 ∧ 1 ≠ ctxQ.sqtail) ∧
    (let s1 := taken (sQ ctxQ graphMem)
     accepts (submitGraph s1 0 false none ((devReadN s1 0 0x9000 32).getD 0)) = true ∧ (devReadN s1 0 0x9000 32).isSome = true) ∧
    (let s1 := taken (sQ ctxQ identityMap)
     accepts (submitGraph s1 0 false none ((devReadN s1 0 0x9000 32).getD 0)) = false ∧ (devReadN s1 0 0x9000 32).isSome = true) ∧
    (let e : HostEv := ⟨0, 7, 0, 0, 0, 0, 0⟩
     ({ ctxQ with events := [e] } : Ctx).events = [e] ∧ (ctxQ.eqwrite + 2 ^ 32 - ctxQ.eqread) % 2 ^ 32 < 2 ^ ctxQ.eqlog2 ∧
      2 ^ ctxQ.eqlog2 ≤ (({ ctxQ with eqwrite := 16 } : Ctx).eqwrite + 2 ^ 32 - ctxQ.eqread) % 2 ^ 32) ∧
    (awaitFor (sQ (awaiting0 (.squad 0)) []) = some (.squad 0) ∧ squadOf sE 0 = some qE) ∧
    (awaitFor { sQ (awaiting0 (.copy 20)) [] with copies := [copy0] } = some (.copy 20) ∧ copyOf (sCopies [copy0]) 20 = some copy0 ∧
      copy0.node = none) ∧
    (awaitFor { sQ (awaiting0 (.frame 40)) [] with lfCmds := [lf0 false] } = some (.frame 40) ∧
      ([lf0 false].find? fun c => c.id == 40) = some (lf0 false) ∧ (lf0 false).node = none ∧ mayManage sE (some 2) true = false ∧
      mayManage sE (some 0) true = true) ∧
    (awaitFor (sQ (awaiting0 (.matrix 0)) []) = some (.matrix 0) ∧ queueOf (sMat [mc (.zero true 0)]) 0 = [mc (.zero true 0)]) ∧
    (awaitFor (sQ (awaiting0 (.node 5)) []) = some (.node 5) ∧ nodeOf (sNode (nodeN trN)) 5 = some (nodeN trN)) :=
  ⟨by decide,
    ⟨accepts_host (d := ⟨0x9100, 1, 5, 0⟩) false 0x8000 (by decide +kernel) (by decide +kernel)
      (read_page0 (by decide +kernel) _ (by decide)) (by decide +kernel), by decide +kernel⟩,
    by decide +kernel, by decide, by decide +kernel, by decide +kernel, by decide +kernel, by decide +kernel, by decide +kernel⟩

/-! ### The device -/

/-- The machine whose squad's next word is all ones. -/
def sIll : State := { State.reset.withFetchWord 96 (2 ^ 96 - 1) with cur := some 0, squads := [(0, q0)] }
def budget0 : Budget := ⟨0, 0, 5, 4096, 0, [], [(0, 3, true)]⟩
def sDue : State := { on q0 with time := 1000, refills := 0, budgets := [(0, budget0)] }
def sReady : State := { State.reset with ready := true }

theorem test_witness_MemoryEvents :
    (Issues sIll 0 q0 p0 { h0 with gp := (splitWord (wordAt sIll 0 p0.pc)).gp, gn := (splitWord (wordAt sIll 0 p0.pc)).gn == 1 } 0) ∧
    (taskOf sE 1 = some taskE ∧ taskE.core = 0 ∧ taskE.saved = false ∧ sE.ready = true) ∧
    (sDue.refills < sDue.time / 1000 ∧ (sDue.budgets.map (·.1)).Nodup ∧ aget sDue.budgets 0 = some budget0 ∧ budget0.prio = [] ∧
      budget0.gen = [(0, 3, true)] ∧ 3 ≤ (refilled budget0).bud ∧ squadOf sDue 0 = some q0 ∧
      (∀ e ∈ sDue.budgets, e.1 ≠ 0 → ∀ g ∈ e.2.prio ++ e.2.gen, g.1 ≠ 0) ∧
      (∀ e ∈ ({ sDue with budgets := [(0, { budget0 with gen := [] })] } : State).budgets, ∀ g ∈ e.2.prio ++ e.2.gen, g.1 ≠ 0)) ∧
    (hostRight sReady 0 1 = 3 ∧ hostRight { sReady with hostAcc := [(1, 1)] } 0 1 = 1 ∧ hostRight { sReady with hostAcc := [(1, 0)] } 0 1 = 0 ∧
      populated (wbaseOf sReady 1 + 0x1000) = true ∧ populated (wbaseOf sReady 1 + 0x1000 + 4096 - 1) = true) ∧
    (peerRight sReady 0 7 = 0 ∧ peerRight { sReady with peerAcc := [(7, 3)] } 0 7 = 3 ∧ peerRight { sReady with peerAcc := [(7, 1)] } 0 7 = 1) ∧
    ((ctxOf sReady 0).invBusy = false ∧ (ctxOf { sReady with ctxs := [(0, { ctxReset with invBusy := true })] } 0).invBusy = true) :=
  ⟨⟨rfl, rfl, rfl, rfl, rfl, rfl, .inr (.inl rfl)⟩, by decide +kernel, by decide +kernel, by decide +kernel, by decide +kernel, by decide +kernel⟩

/-- A row group activated at 1 ns, now: 0 ns. Pacer writes at a refill and between two. -/
theorem test_witness_MemoryEvents_times :
    (let s : State := { sReady with active := [(3, 1)] }
     ∃ e ∈ s.active, e.1 * 256 / 2 ^ 37 = 0 ∧ Config.rowGroup e.1 = Config.rowGroup 3 ∧ s.time < e.2 + Config.refreshWindow) ∧
    (¬ ∃ e ∈ sReady.active, e.1 * 256 / 2 ^ 37 = 0 ∧ Config.rowGroup e.1 = 0 ∧ sReady.time < e.2 + Config.refreshWindow) ∧
    (mayManage sReady (some 1) true = true ∧ sReady.time % 1000 = 0 ∧ sReady.refills = sReady.time / 1000 ∧
      (budgetOf sReady 7 63).prio = [] ∧ (budgetOf sReady 7 63).gen = []) ∧
    ({ sReady with time := 1001 } : State).time % 1000 ≠ 0 ∧
    (bar2Log sReady 1 = 30 ∧ 2 ^ 30 - 4096 + 4096 ≤ 2 ^ bar2Log sReady 1 ∧ poisoned sReady .mem 0x1000 64 = false ∧
      populated (Config.dieBytes - 1) = true ∧ populated Config.dieBytes = false) :=
  ⟨⟨(3, 1), by simp, by decide, rfl, by show 0 < 1 + _; omega⟩, by simp [sReady, State.reset], by decide +kernel, by decide, by decide +kernel⟩

def sStop : State := { sE with debug := [(0, 1)], graphs := [(4, ⟨0, 5, [], 0, none, false⟩)] }
theorem test_witness_ManagementEvents :
    (sE.ready = true ∧ ctxWritten (ctxOf sE 0) (.ctxEqread 0 1) = some (0, { ctxOf sE 0 with eqread := 1 }) ∧ ctxLive sE 0 = false ∧
      ctxLive sStop 0 = true) ∧
    (stopped sStop 0 = true ∧ slotSquad sStop 0 0 = some (0, qE) ∧ squadOf sStop 0 = some qE ∧ (debugOf sStop 0).getLsbD 47 = false ∧
      (runningPath qE).isSome = true) ∧
    (unitCore sE (.scratch 1 0) = some 1 ∧ stopped sE 1 = false) ∧
    (mayManage { sE with hostAcc := [(16, 1)] } (some 0) true = false ∧ mayManage { sE with hostAcc := [(16, 1)] } (some 0) false = true ∧
      mayManage { sE with hostAcc := [(17, 0)] } (some 1) false = false ∧ identityReg .ready = true ∧ identityReg .frameTeams = false) ∧
    (halted sStop 0 = true ∧ halted sE 0 = false ∧ selectCore sStop = qE.core ∧ selected sStop (.vreg 0 1 31) = true ∧
      selected sStop (.scratch 1 0) = false) ∧
    (bar2Log { sE with bar2 := [(1, 40)] } 1 = 40) ∧
    (match translate (sTask (taskN .no 0) [] 0 identityMap) 0 0x3000 true with | .ok pl => pl.2 | .error _ => 0) = 0x3000 := by
  decide +kernel

def portUp : Port := ⟨true, 8, 8, 0, 0, 0, false⟩
def sPort : State := { sReady with ports := [(3, portUp)], time := 1000000, dev := 1 }
theorem test_witness_DeviceEvents :
    (portOf sPort 3 = portUp ∧ 8 ≤ portUp.fails ∧ portUp.lastFlit + 1000000 ≤ sPort.time ∧ portUp.sentBeat + 50000 ≤ sPort.time ∧
      portUp.lastBeat + 200000 ≤ sPort.time) ∧
    (sPort.timebase.root ≠ sPort.dev ∧ sPort.timebase.lost = false ∧ sPort.timebase.lastSync + 100000 ≤ sPort.time ∧
      (∀ e ∈ sPort.channels, chEn e.2 = false) ∧ chEn ⟨1, [], none, none, none, 0, 0, 0, [], [], [], 0⟩ = true) ∧
    (1999 % 2 ^ 32 < 2000 ∧ sPort.aged = []) ∧
    bootSlot { sPort with firmware := [(0, ⟨[], [], [], 0, false, false⟩)] } = none ∧
    ((portOf { sPort with ports := [(0, portUp)] } sPort.timebase.port).up = true ∧
      (portOf { sPort with ports := [(0, { portUp with fails := 7 })] } 0).fails < 8 ∧
      (portOf { sPort with ports := [(0, { portUp with up := false })] } 0).up = false) := by decide +kernel
/-- What the device takes for verified is open: if it takes the image, the hypotheses of the booting clauses are met. -/
theorem test_witness_DeviceEvents_boot (h : verifies State.reset (firmwareOf State.reset 0) = true) :
    bootSlot State.reset = some 0 ∧ State.reset.fusedVersion ≤ 0 ∧ (1 : Nat) ≠ State.reset.running := by
  have : bootable State.reset 0 = true := by unfold bootable; rw [h]; rfl
  refine ⟨?_, by decide, by decide⟩
  have h1 : (firmwareOf State.reset 1).staged = false := rfl
  have h2 : State.reset.running = 0 := rfl
  simp [bootSlot, h2, h1, this]

/-! ### Further clauses -/

theorem test_witness_IntegerResults_moves :
    (Instr.mov h0 .u64 (.p 31) (r 1)).wf = true ∧ (Instr.mov h0 .s32 (.im 7) (r 1)).wf = true ∧ tyW .s32 = 32 ∧ Issues s0 0 q0 p0 h0 1 :=
  ⟨by decide, by decide, rfl, issue0 ..⟩

/-- MOVX with a zero mask: at the top, at a record to which the path returned as deep as it came, and at one it did not. -/
theorem test_witness_SpecialRegisters_empty :
    (BitVec.ofNat 32 (rdScal q0 (.imm 0)) &&& p0.members = 0 ∧ p0.jrec = none ∧ Issues s0 0 q0 p0 h0 1 ∧ runs p0 h0 q0 ≠ 0) ∧
    (let q := qJoin 0 none
     BitVec.ofNat 32 (rdScal q (.imm 0)) &&& pJoin.members = 0 ∧ pJoin.jrec = some 2 ∧ aget q.joins 2 = some (rJoin 0 none) ∧
      Issues (on q) 0 q pJoin h0 1 ∧ runs pJoin h0 q ≠ 0 ∧ pJoin.ret.length = (rJoin 0 none).rdepth ∧ leavesOne q pJoin pJoin.members (rJoin 0 none)) ∧
    (({ pJoin with ret := [⟨false, 1⟩] } : Path).ret.length ≠ (rJoin 0 none).rdepth) :=
  ⟨⟨by decide, rfl, issue0 .., by decide⟩, ⟨by decide, rfl, rfl, ready _ _ rfl rfl rfl rfl rfl rfl rfl, by decide, rfl,
    fun _ _ => ⟨⟨1, ⟨false, 5⟩, 0xFFFF0000, 0xFFFF0000, 0, some 2, []⟩, by decide, by decide⟩⟩, by decide⟩

/-- A path half of whose members have parked elsewhere. -/
def pPart (j : Option Nat) (ret : List Pc) : Path := ⟨0, ⟨false, 0⟩, allThreads, 0x0000FFFF, 0, j, ret⟩
def qPart (j : Option Nat) (ret : List Pc) : Squad :=
  { q0 with paths := [pPart j ret, ⟨1, ⟨false, 5⟩, 0xFFFF0000, 0xFFFF0000, 0, some 2, []⟩], joins := [(2, rJoin 0 none)] }
theorem part_issues (j : Option Nat) (ret : List Pc) : Issues (on (qPart j ret)) 0 (qPart j ret) (pPart j ret) h0 0 :=
  ready _ _ rfl rfl rfl rfl rfl rfl rfl
theorem part_runs (j : Option Nat) (ret : List Pc) : runs (pPart j ret) h0 (qPart j ret) = 0x0000FFFF :=
  show runs (pPart none []) h0 (qPart none []) = 0x0000FFFF by decide
/-- Records of a squad whose only record is the one at 2. -/
theorem only_two {q : Squad} {r : JoinRec} (h : q.joins = [(2, r)]) (k : Nat) : aget q.joins k = if k = 2 then some r else none := by
  rw [h]
  by_cases hk : k = 2
  · subst hk; rfl
  · simp [aget, hk, Ne.symm hk]
theorem test_witness_ExitRemovesThreads_empty :
    (∀ j ret, runs (pPart j ret) h0 (qPart j ret) ≠ 0 ∧ runs (pPart j ret) h0 (qPart j ret) = (pPart j ret).exm ∧
      (pPart j ret).members &&& ~~~(runs (pPart j ret) h0 (qPart j ret)) ≠ 0 ∧
      Issues (on (qPart j ret)) 0 (qPart j ret) (pPart j ret) h0 0) ∧
    (pPart none []).jrec = none ∧ (pPart (some 2) []).jrec = some 2 ∧ aget (qPart (some 2) []).joins 2 = some (rJoin 0 none) ∧
    (pPart (some 2) [⟨false, 1⟩]).ret.length ≠ (rJoin 0 none).rdepth ∧ (pPart (some 2) []).ret.length = (rJoin 0 none).rdepth ∧
    leavesOne (qPart (some 2) []) (pPart (some 2) []) 0xFFFF0000 (without 0xFFFF (rJoin 0 none)) :=
  ⟨fun j ret => ⟨by rw [part_runs]; decide, part_runs j ret, by rw [part_runs]; show allThreads &&& ~~~(0x0000FFFF : Mask) ≠ 0; decide, part_issues j ret⟩, rfl, rfl, rfl, by decide, rfl,
    fun _ _ => ⟨⟨1, ⟨false, 5⟩, 0xFFFF0000, 0xFFFF0000, 0, some 2, []⟩, by decide, by decide⟩⟩
theorem test_witness_ExitRemovesThreads_freed :
    let act := runs pJoin h0 (qJoin 0 none)
    let recs (q : Squad) (k : Nat) : Option JoinRec := (aget q.joins k).map (without act)
    (act ≠ 0 ∧ act = pJoin.members ∧ ((qJoin 0 none).joins.map (·.1)).Nodup ∧ Issues (on (qJoin 0 none)) 0 (qJoin 0 none) pJoin h0 0 ∧
      (∃ a ∈ (qJoin 0 none).paths, a.entry ≠ pJoin.entry)) ∧
    (∀ k r, aget (qJoin 0 none).joins k = some r → r.deferred = none) ∧
    (∀ k, ¬ ∃ r, recs (qJoin 0 none) k = some r ∧ r.expected ≠ 0 ∧ r.arrived = r.expected) ∧
    (∀ k, (∃ r, recs (qJoin 0xFFFF0000 none) k = some r ∧ r.expected ≠ 0 ∧ r.arrived = r.expected) ↔ k = 2) := by
  intro act recs
  refine ⟨⟨by decide, by decide, by decide, ready _ _ rfl rfl rfl rfl rfl rfl rfl, by decide⟩, fun k r h => ?_, fun k h => ?_, fun k => ?_⟩
  · rw [only_two rfl] at h; split at h <;> simp_all [rJoin]; subst h; rfl
  · obtain ⟨r, h, -, h2⟩ := h
    simp only [recs, only_two (r := rJoin 0 none) (q := qJoin 0 none) rfl] at h
    split at h <;> simp at h; subst h; exact absurd h2 (by decide)
  · simp only [recs, only_two (r := rJoin 0xFFFF0000 none) (q := qJoin 0xFFFF0000 none) rfl]
    by_cases hk : k = 2 <;> simp [hk]; decide

/-- No atomic: the register rule does not touch it. -/
theorem test_witness_GuardedOffDoesNothing_other : obeysRegs s0 q0 0 (.mma hNot true 31 63 0) ∧ Instr.mma hNot true 31 63 0 ≠ .join hNot ∧
    Instr.mma hNot true 31 63 0 ≠ .tret hNot := ⟨nofun, nofun, nofun⟩

/-- A 1-D record of 64 elements of 4 bytes, asked for two rows of 64 in 256 bytes each. -/
theorem test_witness_RecordRegisters_shape :
    let k := rdB qM 1
    let x := rdScal { qM with s := [(1, BitVec.ofNat 64 (64 + 2 * 2 ^ 16 + 256 * 2 ^ 32))] } (r 1)
    fld k 255 252 = 0 ∧ fld k 207 176 = 0 ∧ 1 ≤ x % 2 ^ 16 ∧ 1 ≤ x / 2 ^ 16 % 2 ^ 16 ∧
      x % 2 ^ 16 * 2 ^ fld k 238 235 ≤ x / 2 ^ 32 % 2 ^ 32 ∧
      fld k 143 112 * 2 ^ fld k 238 235 < (x / 2 ^ 16 % 2 ^ 16 - 1) * (x / 2 ^ 32 % 2 ^ 32) + x % 2 ^ 16 * 2 ^ fld k 238 235 := by decide

def placedAt (e : Except Err (Space × Nat)) (p : Space × Nat) : Bool := match e with | .ok k => k == p | .error _ => false
/-- A task that leases the LOD resource at address 0 and was launched before its descriptor was stored to. -/
def sLod : State :=
  { sM with
    tasks := [(1, { (wordTask State.reset) with tr := { trM with nrange := 1, range := BitVec.ofNat 1024 (2 ^ 106 + 128 * 2 ^ 64 + 2 ^ 104) } })]
    mem := [(0x10000, 1), (0x10002, 2), (0x20000, 7)]
    hist := [.access (accWr ⟨.thread 9 0, none, none, some 0, some 0, some 0, some 0⟩ .T (.bytes .mem 0 128))] }
theorem test_witness_FallbackWalk :
    (∃ k, taskOf sLod 1 = some k ∧ leasesLod k.tr 0 = true ∧ k.born < lastStore sLod.hist sLod.hist.length (.bytes .mem 0 128)) ∧
    placedAt (translate sLod 0 0 false) (.mem, 0) = true ∧
    (∀ k, taskOf sM 1 = some k → leasesLod k.tr (recBase recLod) = false) :=
  ⟨⟨_, rfl, by decide +kernel, by decide +kernel⟩, by decide +kernel, fun k h => by cases h; decide +kernel⟩

/-- Register rules of an atomic on 8-byte elements: an odd D, and a pair beyond the task's registers. -/
theorem test_witness_AtomicResults_registers :
    let q : Squad := { qM with b := [(2, recScr + BitVec.ofNat 256 (2 ^ 235))] }
    (rmwOf q (.cas h0 (.ar .pod) 2 2 (v 1))).isSome = true ∧ recCheck (rdB q 2) [0] [0, 1] = none ∧ recEsize (rdB q 2) = 3 ∧
    (2 : Nat) % (2 * (recE (rdB q 2) / 4)) ≠ 0 ∧ (252 : Nat) % (2 * (recE (rdB q 2) / 4)) = 0 ∧
    8 * (trOf { on q with tasks := [(1, { (wordTask State.reset) with tr := { trM with regs := 31 } })] } q).regs <
      252 + 2 * (recE (rdB q 2) / 4) ∧ runs p0 hNot q = 0 ∧ Issues (withTask (on q)) 0 q p0 h0 3 :=
  ⟨by decide, by decide, by decide, by decide, by decide, by decide +kernel, by decide, ready _ _ rfl rfl rfl rfl rfl rfl rfl⟩

/-- Objects lie outside the areas of saved tasks. -/
theorem test_witness_objects_not_saved : areaOf (sObj 0 4) lScr = none ∧ areaOf (sObj 0 4) lMem = none := by decide +kernel

/-- A load of bank B that has not started. -/
def loadCopy : Copy := { copy0 with major := 0x95, xf := 1, phase := .queued }
theorem test_witness_CopyCommands_cancel :
    let s : State := { sCopies [loadCopy] with banks := [(1, { bankReset with holders := [1], loading := [20] })] }
    loadCopy ∈ s.copies ∧ loadCopy.major = 0x95 ∧ loadCopy.phase ≠ .running ∧
      loadCopy.id ∈ (bankOf s loadCopy.core (loadCopy.xf % 2 == 1)).loading := by decide +kernel

/-- The machine with the stream of one rule, and the constants of its header. -/
def sG : State := { sMat [gmvC] with scr := gmvBytes }
def gmvG1 : Gmv := { gmvG with rows := 1, cols := 1, dlim := 1, fin := 68 }
def headerWords : List Nat := [0x314D5247, 0x00010001, 0x01180001, 1, 0, 0, 0, 0, 0, 0, 0, 0, 0, 0, 0, 0]
def wordIs (e : Except GFail Nat) (w : Nat) : Bool := match e with | .ok x => x == w | .error _ => false
def failsWith {α : Type} (e : Except GFail α) (f : GFail) : Bool := match e with | .ok _ => false | .error x => decide (x = f)
theorem test_witness_MatrixEngineEvents_grammar :
    (64 ≤ regionSize gmvG.src ∧ regionSize (scrRec 15 0x9000) < 64 ∧
      (headerWords.zipIdx.all fun e => wordIs (gmvRead sG gmvG (4 * e.2)) e.1) = true ∧ 1 ≤ gmvG.cap ∧ gmvG1.fin ≤ regionSize gmvG.src ∧
      4 * 1 * gmvG.nb ≤ regionSize gmvG.inp ∧ 256 * 1 ≤ regionSize gmvG.dst) ∧
    (failsWith (gmvRead sG { gmvG with src := scrRec 17 0xFFFF0 } 16) ((0x07, 8), 0x100000) = true ∧
      failsWith (gmvWord sG gmvG1 68) (gram 8) = true) ∧
    (wordIs (gmvWord sG gmvG1 64) 0x21000 = true ∧
      ((List.range 4).all fun k => okOf (matPlace sG 0 gmvC gmvG1.dst (fld gmvG1.dst 51 0 + 256 * 0 + 64 * k) 64 true)) = true) ∧
    (symbolFault sG gmvG1 0 (2 ^ 31) = some (gram 2) ∧ symbolFault sG gmvG1 0 (2 ^ 31 + 2 ^ 11) = some (gram 6) ∧
      symbolFault sG gmvG1 0 (2 ^ 16) = some (gram 6) ∧ symbolFault sG gmvG1 1 (2 ^ 31) = none ∧
      failsWith (gmvInput sG gmvG1 0 0) ((0x09, 2), 0xB000) = true ∧
      okOf (gmvInput { sG with scrTag := [(0x2C0, 0x7F08)] } gmvG1 0 0) = true) := by decide +kernel

theorem test_witness_MatrixEngineEvents_values :
    ((0x7F : Nat) < 256 ∧ (0x7F : Nat) ≠ 0 ∧ (0x7F : Nat) ≠ 255 ∧ (8 : Nat) % 16 = 8 ∧ isDx 0x57 = true) ∧
    (let sz : State := { sMat [] with sidecar := [(0, 0x68), (1, 0x7F), (288, 1)] }
     slotTag sz 0 0 0 % 256 = 0x68 ∧ slotBit sz 0 0 0 0 = true ∧ slotBit sz 0 0 0 1 = false ∧ (0 : Nat) < 1024 / elemBits 0x68 ∧
      ¬ (0x68 ≤ slotTag (sMat []) 0 0 0 % 256 ∧ slotTag (sMat []) 0 0 0 % 256 ≤ 0x6C)) ∧
    ((∀ p ∈ [((.fin true 0 0 : FV), 0), (.fin true 0 3, 0)], p.2 = 0 ∨ p.2 = 1) ∧ (mulV (.inf true) (.fin false 0 0)).2 = 1 ∧
      (∃ p ∈ [((.inf true : FV), 0)], p.1 = .inf true)) := by decide +kernel

theorem test_witness_MatrixEngineEvents_head :
    queueOf (sMat [mc (.zero true 0)]) 0 = [mc (.zero true 0)] ∧
    taskOf { sMat [mc (.zero true 0)] with tasks := [] } 1 = none ∧
    (taskOf { sMat [mc (.zero true 0)] with tasks := [(1, { taskE with stopping := .kill ⟨9, 1, 0, 0, 0, 0, 0, 0, true⟩ })] } 1).map (·.stopping) =
      some (.kill ⟨9, 1, 0, 0, 0, 0, 0, 0, true⟩) := by decide +kernel

/-- A history of 64 elements of 16 bytes a row, and a command that reads it. -/
def recHist : Rec := BitVec.ofNat 256 (2 ^ 249 + 4 * 2 ^ 235 + 1024 * 2 ^ 176 + 64 * 2 ^ 144 + 64 * 2 ^ 112)
def lfR : LfCmd := { lf0 true with other := recHist }
theorem test_witness_FieldEvents_frames :
    (histPlace (sLf true) lfR 0 0 0 = some (.mem, 0x200000) ∧ histPlace (sLf true) lfR (-1) 0 0 = none ∧
      histPlace (sLf true) lfR (0 - 0) (0 - 0) 0 = some (.mem, 0x200000)) ∧
    ((List.range 8).all fun py => (List.range 8).all fun px => !sampleAgain { sLf true with lfCmds := [lfR] } lfR px py 0) = true ∧
    (match framePlace (sLf false) (lf0 false) (lf0 false).panel (fld (lf0 false).panel 51 0) 32 false with
      | .ok p => p == (.mem, 0x202000) && decide ((resolvePixels (lf0 false) (descOf (sLf false) (lf0 false)) tilePixels
          (logEvs (sLf false) [frameEv (sLf false) (lf0 false) false p.1 p.2 32])).2 = none)
      | .error _ => false) = true := by decide +kernel
/-- A panel of 4 x 4 pixels: of the pixels of the tile at 0 some are shown, and lie in a record of 64 x 64, or not in one of 2 x 2. -/
theorem test_witness_FieldEvents_resolve :
    let d := 4 * 2 ^ 96 + 4 * 2 ^ 112 + 1 * 2 ^ 32
    (0 < d / 2 ^ 96 % 2 ^ 16 ∧ 0 < d / 2 ^ 112 % 2 ^ 16 ∧ ¬ 5 < d / 2 ^ 96 % 2 ^ 16) ∧
    (0 < fld (recPanel 4) 143 112 ∧ 0 < fld (recPanel 4) 175 144) ∧
    ¬ 3 < fld (BitVec.ofNat 256 (2 ^ 249 + 4 * 2 ^ 235 + 1024 * 2 ^ 176 + 2 * 2 ^ 144 + 2 * 2 ^ 112) : Rec) 143 112 ∧
    (match framePlace (sLf false) (lf0 false) (recPanel 4) (elementVa (recPanel 4) 0 0) 4 true with
      | .ok p => p == (.mem, 0x208000) | .error _ => false) = true := by decide +kernel

/-- A primitive whose vertices all stand at the origin: its edge values are zero. -/
def prim0 : Prim := primOf 0
theorem test_witness_FieldEvents_coverage :
    (∀ k ∈ primEdges prim0, -2 ^ 63 ≤ edgeE k 65535 4095 (offset2 prim0 0) ∧ edgeE k 65535 4095 (offset2 prim0 0) < 2 ^ 63) ∧
    (let p := primOf (rdN sE (.scr 0) 0x1000 128)
     p.ctrl / 2 ^ 14 = 0 ∧ p.ctrl.testBit 7 = false ∧ p.ctrl.testBit 3 = false ∧ p.ctrl / 16 % 8 ≤ 3) ∧
    ({ span0 with pm := 1 } : SpanReq).pm ≠ 0 := by decide +kernel
/-- Two scan-outs wait; the second falls due first. -/
theorem test_witness_FieldEvents_scanOut :
    let due : List (Nat × Option Image) := [(200, none), (100, some image0), (100, none)]
    due = [(200, none)] ++ (100, some image0) :: [(100, none)] ∧ (∀ e ∈ [((200 : Nat), (none : Option Image))], 100 < e.1) ∧
      (∀ e ∈ [((100 : Nat), (none : Option Image))], 100 ≤ e.1) := by decide

/-- A node that has its lease of the LOD resource at address 0, whose floor bit is clear. -/
def trLod : TRec := { trN with nrange := 1, range := BitVec.ofNat 1024 (2 ^ 106 + 128 * 2 ^ 64 + 2 ^ 104) }
def sNodeLod : State :=
  { sNode (nodeN trLod) with
    ctxs := [(0, { ctxReset with ptroot := 0x10001 })]
    mem := [(0x10000, 1), (0x10002, 2), (0x20000, 7)] }
theorem test_witness_NodeEvents_floor :
    poolTakes sNodeLod 5 = true ∧ nodeKind (nodeN trLod) = 0 ∧ placedAlone sNodeLod (nodeN trLod) = true ∧
      reread sNodeLod (nodeN trLod) = (nodeN trLod).tr ∧ lodThere sNodeLod 0 trLod = false := by decide +kernel
theorem test_witness_NodeEvents_placing :
    placing { nodeN trRange with leased := false, asked := true } = true ∧ placing (nodeN trN) = true ∧
      (let s := { sNode { nodeGang with started := 1 } with nodes := [(5, { nodeGang with started := 1 }), (6, { nodeGang with insts := [9] })] }
       nodeGang.tr.gang ≠ 0 ∧ placedAlone s { nodeGang with started := 1 } = true ∧ misfits s 5 { nodeGang with started := 1 } = true) := by
  decide +kernel

/-- A forwarding entry that leads to the task, and one that does not. -/
theorem test_witness_TaskEvents_forwards :
    let toTask (f : Forward) : Bool := f.dest == 0 && f.lo == 0 && f.hi == 0 + (taskN .no 0).tr.scratch
    toTask ⟨3, 0, (taskN .no 0).tr.scratch, 0, 9⟩ = true ∧ toTask ⟨3, 64, 128, 0, 9⟩ = false := by decide +kernel

/-- A window of link 0 on a port that is down. -/
def heldReq : HostReq := ⟨0, 0x1000, true, false, [1], 0, none⟩
theorem test_witness_HostQueueEvents_held :
    ({ sQ ctxQ [] with hostHeld := [heldReq] } : State).hostHeld.getLast? = some heldReq ∧ (sQ ctxQ []).hostHeld = [] ∧
      (∃ r ∈ [heldReq], r.link = 0) ∧ (¬ ∃ r ∈ sReady.hostHeld, r.link = 0) := by decide +kernel
theorem test_witness_MemoryEvents_pages : (0x1000 : Nat) / 4096 = (0x1000 + 4096 - 1) / 4096 := by decide
theorem test_witness_ManagementEvents_layout :
    sE.powered = true ∧ mayManage sE (some 1) false = true ∧ mayManage { sE with hostAcc := [(17, 0)] } (some 1) false = false ∧
      identityReg .frameTeams = false ∧ identityReg .ready = true ∧ sE.hostHeld = [] ∧ (0x1000 : Nat) + 4096 ≤ 2 ^ 26 ∧
      regAt (0x1000 + 16) = some (.ctxEntry 0, 16) := by decide +kernel
theorem test_witness_DeviceEvents_moved : aget sPort.ports 3 = some portUp ∧ squadOf (on q0) 0 = some q0 := by decide +kernel

/-! ### Steps -/

def sStep (w : Nat) : State := State.reset.withFetchWord 96 w
def wNop : Nat := (encode (.nop h0)).getD 0
def qStep : Squad := newSquad 1 0 0 0 0 0
def fetchIs (s : State) (w : Decoded) : Bool := decide (fetch s qStep p0 = w)
def sFree : State := { sStep wNop with agenda := [], ctr := (sStep wNop).ctr + 1 }
theorem test_witness_StepRunsDecoded :
    ((sStep wNop).powered = true ∧ dueNow (sStep wNop) = none) ∧
    (sStep wNop).agenda = [.issue 0] ∧
    (squadOf (sStep wNop) 0 = some qStep ∧ runningPath qStep = some p0 ∧ stopped (sStep wNop) 0 = false ∧ laneTurn (sStep wNop) 0 = true) ∧
    (canIssue sFree 0 = true ∧ taskRuns (sStep wNop) qStep = true ∧
      (bankOf (sStep wNop) 0 false).loading = []) ∧
    fetchIs (sStep wNop) (.ok (.nop h0)) = true ∧ fetchIs (sStep (2 ^ 96 - 1)) (.ill 1) = true := by decide +kernel
/-- With nothing on the agenda the choice is open: if it falls on the squad, the other form of the hypothesis is met. -/
theorem test_witness_StepRunsDecoded_chosen (h : Config.pick sFree.ctr 2 % 2 = 0) : chosen sFree = .issue 0 := by
  have he : (squadEvents sFree ++ copyEvents sFree ++ matrixEvents sFree ++ frameEvents sFree ++ dispatchEvents sFree ++
      bootEvents sFree).eraseDups.filter (occurs sFree) = [] := by decide +kernel
  have hl : sFree.lanes.filterMap (fun e => (laneNext e.2.1 e.2.2).map Agendum.issue) = [.issue 0] := by decide +kernel
  have hm : moves sFree = [.issue 0, .tick (Config.elapse sFree.ctr)] := by
    rw [moves, he, hl]; rfl
  simp [chosen, hm, h]
theorem test_witness_EncodeDecode : (Instr.bra h0 8191 (some 3)).hdr = some h0 ∧ (Instr.bra h0 8191 (some 3)).wf = true ∧
    decode .max 0 = .ok (.nop h0) ∧ (0 : Nat) < 2 ^ 96 := by decide +kernel
def nextOf (o : Host.Outcome State Fault Refusal) : Option State := match o with | .next t => some t | _ => none
theorem test_witness_StepKeepsMemory : Memory.wf (sStep wNop).mem = true ∧ StoresCanonical (sStep wNop) ∧
    (nextOf (step (sStep wNop))).isSome = true := by
  refine ⟨by decide, ⟨by decide, by decide, by decide, by decide, by decide, by decide, by decide, by decide, by decide, by decide,
    by decide, by decide +kernel⟩, by decide +kernel⟩
/-- A step runs the placed word: MOVW.U32 v1, #5 writes 5 in the last thread, and the path goes on at index 1. -/
theorem test_step_movw :
    (nextOf (step (sStep ((encode (.movw h0 .u32 (v 1) 5)).getD 0)))).bind (fun t => (squadOf t 0).map fun q =>
      (rdV q 1 31, q.paths.map (·.pc.index))) = some (5#32, [1]) := by decide +kernel

end Sys2Proof.Tests
end

section
/-! PROOF. Words and instructions (R21-R25, R38): what the encoder writes, the decoder reads; what it reads is well-formed. -/

namespace Sys2Proof

open Machine

/-! ### Words and their fields -/

/-- The fields of a word lie in their bits (R21). -/
structure Raw.Fits (r : Raw) : Prop where
  op : r.op < 256
  gn : r.gn < 2
  gp : r.gp < 32
  s : r.s < 2
  ec : r.ec < 8
  ru : r.ru < 4
  z : r.z < 4
  x : r.x < 256
  d : r.d < 4194304
  a : r.a < 4194304
  b : r.b < 4194304

theorem splitWord_fits (w : Nat) : (splitWord w).Fits := by
  constructor <;> exact Nat.mod_lt _ (by decide)

theorem joinWord_lt {r : Raw} (h : r.Fits) : joinWord r < 2 ^ 96 := by
  obtain ⟨h1, h2, h3, h4, h5, h6, h7, h8, h9, h10, h11⟩ := h
  unfold joinWord; omega

theorem splitWord_joinWord {r : Raw} (h : r.Fits) : splitWord (joinWord r) = r := by
  obtain ⟨h1, h2, h3, h4, h5, h6, h7, h8, h9, h10, h11⟩ := h
  obtain ⟨op, gn, gp, s, ec, ru, z, x, d, a, b⟩ := r
  simp only [splitWord, joinWord, Raw.mk.injEq] at *
  omega

/-! ### Operand fields (R22, R23) -/

theorem bit_le (b : Bool) : bit b ≤ 1 := by cases b <;> decide

theorem fieldOf_lt {o : Opnd} (h : opInRange o = true) : fieldOf o < 4194304 := by
  cases o with
  | v n g a | s n g a =>
    have hg := bit_le g; have ha := bit_le a
    simp only [opInRange, decide_eq_true_eq, fieldOf] at *; omega
  | p n | b n | vi n | im n | a n | o n | spec n | imm n =>
    simp only [opInRange, decide_eq_true_eq, fieldOf] at *; omega

/-- The kinds in the third quarter of a field's codes: bits 19-16 name the kind. -/
theorem opOf_special {k n : Nat} (hk : k < 7) (hn : n < 4096) : opOf (2097152 + 65536 * k + n) =
    [Opnd.p (n % 32), .b (n % 16), .vi (n % 8), .im (n % 8), .a (n % 32), .o (n % 64), .spec n][k]? := by
  have hq : (2097152 + 65536 * k + n) / 1048576 % 4 = 2 := by omega
  have hs : (2097152 + 65536 * k + n) % 1048576 / 65536 = k := by omega
  have hv (m : Nat) (hm : m ∣ 65536) : (2097152 + 65536 * k + n) % 1048576 % m = n % m := by
    have hd : m ∣ 1048576 := hm.trans (by decide)
    obtain ⟨c, hc⟩ := hm
    rw [Nat.mod_mod_of_dvd _ hd, show 2097152 + 65536 * k + n = n + m * (c * (32 + k)) by rw [← Nat.mul_assoc, ← hc]; ring,
      Nat.add_mul_mod_self_left]
  simp only [opOf, hq, hs, hv 32 (by decide), hv 16 (by decide), hv 8 (by decide), hv 64 (by decide), hv 4096 (by decide),
    Nat.mod_eq_of_lt hn]
  interval_cases k <;> rfl

theorem opOf_fieldOf {o : Opnd} (h : opInRange o = true) : opOf (fieldOf o) = some o := by
  cases o with
  | v n g a =>
    simp only [opInRange, decide_eq_true_eq] at h
    have hq (x : Nat) (hx : x < 1024) : x / 1048576 % 4 = 0 ∧ x % 1048576 = x := by omega
    have hb : n + 256 * bit g + 512 * bit a < 1024 := by have := bit_le g; have := bit_le a; omega
    simp only [fieldOf, opOf, hq _ hb]
    cases g <;> cases a <;> simp [bit] <;> omega
  | s n g a =>
    simp only [opInRange, decide_eq_true_eq] at h
    have hq (x : Nat) (hx : x < 1024) : (1048576 + x) / 1048576 % 4 = 1 ∧ (1048576 + x) % 1048576 = x := by omega
    have hb : n + 256 * bit g + 512 * bit a < 1024 := by have := bit_le g; have := bit_le a; omega
    simp only [fieldOf, opOf, Nat.add_assoc, hq _ (Nat.add_assoc n _ _ ▸ hb)]
    cases g <;> cases a <;> simp [bit] <;> omega
  | imm x =>
    simp only [opInRange, decide_eq_true_eq] at h
    have hq : (3145728 + x) / 1048576 % 4 = 3 ∧ (3145728 + x) % 1048576 = x := by omega
    simp only [fieldOf, opOf, hq]
  | p n =>
    simp only [opInRange, decide_eq_true_eq] at h
    simpa [fieldOf, Nat.mod_eq_of_lt h] using opOf_special (k := 0) (n := n) (by decide) (by omega)
  | b n =>
    simp only [opInRange, decide_eq_true_eq] at h
    simpa [fieldOf, Nat.mod_eq_of_lt h] using opOf_special (k := 1) (n := n) (by decide) (by omega)
  | vi n =>
    simp only [opInRange, decide_eq_true_eq] at h
    simpa [fieldOf, Nat.mod_eq_of_lt h] using opOf_special (k := 2) (n := n) (by decide) (by omega)
  | im n =>
    simp only [opInRange, decide_eq_true_eq] at h
    simpa [fieldOf, Nat.mod_eq_of_lt h] using opOf_special (k := 3) (n := n) (by decide) (by omega)
  | a n =>
    simp only [opInRange, decide_eq_true_eq] at h
    simpa [fieldOf, Nat.mod_eq_of_lt h] using opOf_special (k := 4) (n := n) (by decide) (by omega)
  | o n =>
    simp only [opInRange, decide_eq_true_eq] at h
    simpa [fieldOf, Nat.mod_eq_of_lt h] using opOf_special (k := 5) (n := n) (by decide) (by omega)
  | spec n =>
    simp only [opInRange, decide_eq_true_eq] at h
    simpa [fieldOf] using opOf_special (k := 6) (n := n) (by decide) h

theorem opInRange_opOf {f : Nat} {o : Opnd} (h : opOf f = some o) : opInRange o = true := by
  simp only [opOf] at h
  split at h
  · cases h; simp [opInRange]; omega
  · cases h; simp [opInRange]; omega
  · split at h <;> cases h <;> simp [opInRange] <;> omega
  · cases h; simp [opInRange]; omega

@[simp] theorem opD_fieldOf {o : Opnd} (h : opInRange o = true) : opD (fieldOf o) = o := by
  simp [opD, opOf_fieldOf h]


/-! ### Operand positions -/

theorem slotWf_op {lim : Lim} {o : Opnd} {ks : List Kind} {mods : Bool} {al sal lt : Nat} :
    slotWf lim (.op o ks mods al sal lt) = true ↔ opInRange o = true ∧ opErrs lim o ks mods al sal lt = [] := by
  simp [slotWf]

theorem opOf_lateV {n : Nat} (h : n < 256) : opOf n = some (.v n false false) :=
  opOf_fieldOf (o := .v n false false) (by simpa [opInRange] using h)

/-- The field of a well-formed position lies in its bits and raises nothing. -/
theorem fieldErrs_slotField {s : Slot} (h : slotWf .max s = true) :
    slotField s < 4194304 ∧ fieldErrs .max (slotField s) s = [] := by
  cases s with
  | unused => simp [slotField, fieldErrs]
  | wide => simp [slotField, fieldErrs]
  | lateV n =>
    have hn : n < 256 := by simpa [slotWf] using h
    have hf : fieldOf (.v n false false) = n := by simp [fieldOf, bit]
    refine ⟨by simp only [slotField]; omega, ?_⟩
    simp [fieldErrs, slotField, mbzErrs, opOf_lateV hn, hf, opErrs, opKind, opMods, Lim.max, hn, Nat.mod_one]
  | op o ks mods al sal lt =>
    obtain ⟨hr, he⟩ := slotWf_op.1 h
    exact ⟨fieldOf_lt hr, by simp [fieldErrs, slotField, mbzErrs, opOf_fieldOf hr, he]⟩

/-! ### Codes of modifiers -/

@[simp] theorem ityOf_ityCode (t : IType) : ityOf (ityCode t) = t := by cases t <;> rfl
@[simp] theorem ftOf_ftCode (t : FType) : ftOf (ftCode t) = some t := by cases t <;> rfl
@[simp] theorem rmOf_rmCode (m : Rm) : rmOf (rmCode m) = some m := by cases m <;> rfl
@[simp] theorem condOf_condCode (c : Cond) : condOf (condCode c) = some c := by cases c <;> rfl
@[simp] theorem scopeOf_scopeCode (s : Scope) : scopeOf (scopeCode s) = some s := by cases s <;> rfl
@[simp] theorem sizeOf_sizeCode (s : MemSize) : Sys2Proof.sizeOf (sizeCode s) = some s := by cases s <;> rfl
@[simp] theorem lodSizeOf_lodSizeCode (s : LodSize) : lodSizeOf (lodSizeCode s) = some s := by cases s <;> rfl
@[simp] theorem planeOf_planeCode (p : Plane) : planeOf (planeCode p) = some p := by cases p <;> rfl
@[simp] theorem shflOf_shflCode (m : ShflMode) : shflOf (shflCode m) = m := by cases m <;> rfl
@[simp] theorem iredOf_iredCode (o : IredOp) : iredOf (iredCode o) = some o := by cases o <;> rfl
@[simp] theorem fredOf_fredCode (o : FredOp) : fredOf (fredCode o) = some o := by cases o <;> rfl
@[simp] theorem dxOf_dxCode (w : DxWidth) : dxOf (dxCode w) = some w := by cases w <;> rfl
@[simp] theorem fenceOf_fenceCode (o : FenceOrd) : fenceOf (fenceCode o) = o := by cases o <;> rfl
@[simp] theorem atomOpOf_atomOpCode (o : AtomOp) : atomOpOf (atomOpCode o) = some o := by cases o <;> rfl
theorem soOf_soCode {so : AtomOrd} (h : modsWf.atomOrdWf so = true) : soOf (soCode so) = some so := by
  cases so with
  | plain => rfl
  | acq s | rel s | ar s => revert h; cases s <;> decide

theorem ityCode_lt (t : IType) : ityCode t < 4 := by cases t <;> decide
theorem ftCode_lt (t : FType) : ftCode t < 4 := by cases t <;> decide
theorem rmCode_lt (m : Rm) : rmCode m < 5 := by cases m <;> decide
theorem condCode_lt (c : Cond) : condCode c < 16 := by cases c <;> decide
theorem scopeCode_lt (s : Scope) : scopeCode s < 7 := by cases s <;> decide
theorem sizeCode_lt (s : MemSize) : sizeCode s < 8 := by cases s <;> decide
theorem lodSizeCode_lt (s : LodSize) : lodSizeCode s < 8 := by cases s <;> decide
theorem planeCode_lt (p : Plane) : planeCode p < 4 := by cases p <;> decide
theorem shflCode_lt (m : ShflMode) : shflCode m < 4 := by cases m <;> decide
theorem iredCode_lt (o : IredOp) : iredCode o < 8 := by cases o <;> decide
theorem fredCode_lt (o : FredOp) : fredCode o < 4 := by cases o <;> decide
theorem dxCode_lt (w : DxWidth) : dxCode w < 4 := by cases w <;> decide
theorem fenceCode_lt (o : FenceOrd) : fenceCode o < 4 := by cases o <;> decide
theorem atomOpCode_lt (o : AtomOp) : atomOpCode o < 16 := by cases o <;> decide


theorem wf_iff {i : Instr} {h : Hdr} (hh : i.hdr = some h) : i.wf = true ↔ h.wf = true ∧ modsWf i = true ∧
  slotWf .max (instrForm i).d = true ∧ slotWf .max (instrForm i).a = true ∧ slotWf .max (instrForm i).b = true ∧ extraErrs .max i = [] := by
  simp [Instr.wf, hh, and_assoc]

/-- The number part of a field is the number of an operand. -/
def numIs (f : Nat) : Opnd → Prop
  | .v n .. => num 256 f = n | .s n .. => num 64 f = n | .p n => num 32 f = n | .b n => num 16 f = n | .vi n => num 8 f = n
  | .im n => num 8 f = n | .a n => num 32 f = n | .o n => num 64 f = n | .spec n => num 4096 f = n | .imm x => num 1048576 f = x

/-- A field reads as the operand of a position. -/
def Reads (f : Nat) : Slot → Prop
  | .op o .. => opD f = o ∧ numIs f o
  | .lateV n => num 256 f = n
  | _ => True

theorem numIs_fieldOf {o : Opnd} (h : opInRange o = true) : numIs (fieldOf o) o := by
  cases o with
  | v n g a | s n g a =>
    have hg := bit_le g; have ha := bit_le a
    simp only [opInRange, decide_eq_true_eq, numIs, num, fieldOf] at *; omega
  | p n | b n | vi n | im n | a n | o n | spec n | imm n =>
    simp only [opInRange, decide_eq_true_eq, numIs, num, fieldOf] at *; omega

theorem reads_slotField {s : Slot} (h : slotWf .max s = true) : Reads (slotField s) s := by
  cases s with
  | unused | wide => trivial
  | lateV n => exact Nat.mod_eq_of_lt (by simpa [slotWf] using h : n < 256)
  | op o ks mods al sal lt => exact ⟨opD_fieldOf (slotWf_op.1 h).1, numIs_fieldOf (slotWf_op.1 h).1⟩

/-- The fields of `r` hold the header, major opcode, X, operands and W of instruction `i`. -/
structure Encodes (r : Raw) (i : Instr) (w : Nat) : Prop where
  hdr : i.hdr = some (hdrOf r)
  opx : opx i = some (r.op, r.x, w)
  mods : modsWf i = true
  d : Reads r.d (instrForm i).d
  a : Reads r.a (instrForm i).a
  b : Reads r.b (instrForm i).b
  w : (instrForm i).b = .wide → rawW r = w

@[simp] theorem numIs_v (f n : Nat) (g a : Bool) : numIs f (.v n g a) ↔ num 256 f = n := Iff.rfl
@[simp] theorem numIs_s (f n : Nat) (g a : Bool) : numIs f (.s n g a) ↔ num 64 f = n := Iff.rfl
@[simp] theorem numIs_p (f n : Nat) : numIs f (.p n) ↔ num 32 f = n := Iff.rfl
@[simp] theorem numIs_b (f n : Nat) : numIs f (.b n) ↔ num 16 f = n := Iff.rfl
@[simp] theorem numIs_vi (f n : Nat) : numIs f (.vi n) ↔ num 8 f = n := Iff.rfl
@[simp] theorem numIs_im (f n : Nat) : numIs f (.im n) ↔ num 8 f = n := Iff.rfl
@[simp] theorem numIs_a (f n : Nat) : numIs f (.a n) ↔ num 32 f = n := Iff.rfl
@[simp] theorem numIs_o (f n : Nat) : numIs f (.o n) ↔ num 64 f = n := Iff.rfl
@[simp] theorem numIs_spec (f n : Nat) : numIs f (.spec n) ↔ num 4096 f = n := Iff.rfl
@[simp] theorem numIs_imm (f n : Nat) : numIs f (.imm n) ↔ num 1048576 f = n := Iff.rfl
@[simp] theorem reads_op (f : Nat) (o : Opnd) (ks : List Kind) (mods : Bool) (al sal lt : Nat) :
    Reads f (.op o ks mods al sal lt) ↔ opD f = o ∧ numIs f o := Iff.rfl
@[simp] theorem reads_lateV (f n : Nat) : Reads f (.lateV n) ↔ num 256 f = n := Iff.rfl
@[simp] theorem reads_unused (f : Nat) : Reads f .unused ↔ True := Iff.rfl
@[simp] theorem reads_wide (f : Nat) : Reads f .wide ↔ True := Iff.rfl


/-! ### The shapes of operand positions -/

@[simp] theorem un_eq (d a : Opnd) (ad : Nat) (sa : Slot) : un d a ad sa = ⟨dst d ad (isV a), sa, .unused⟩ := rfl
@[simp] theorem bin_eq (d a b : Opnd) (ad : Nat) (sa sb : Slot) : bin d a b ad sa sb = ⟨dst d ad (isV a || isV b), sa, sb⟩ := rfl
@[simp] theorem memF_eq (d : Slot) (ba : Nat) (b : Opnd) : memF d ba b = ⟨d, only .b (.b ba), idx b⟩ := rfl
@[simp] theorem dst_eq (d : Opnd) (al : Nat) (v : Bool) : dst d al v = .op d (if v then [.v] else [.v, .s]) false al 1 immAll := rfl
@[simp] theorem only_eq (k : Kind) (o : Opnd) : only k o = .op o [k] false 1 1 immAll := rfl
@[simp] theorem onlyV_eq (n al : Nat) : onlyV n al = .op (.v n false false) [.v] false al 1 immAll := rfl
@[simp] theorem onlyS_eq (n : Nat) : onlyS n = .op (.s n false false) [.s] false 1 1 immAll := rfl
@[simp] theorem evenS_eq (n : Nat) : evenS n = .op (.s n false false) [.s] false 1 2 immAll := rfl
@[simp] theorem src_eq (o : Opnd) (mods : Bool) (al : Nat) : src o mods al = .op o [.v, .s, .imm] mods al 1 immAll := rfl
@[simp] theorem srcF_eq (ft : FType) (o : Opnd) (mods : Bool) :
    srcF ft o mods = .op o [.v, .s, .imm] mods 1 1 (if ft = .f32 then immAll else 65536) := rfl
@[simp] theorem scal_eq (o : Opnd) (lt : Nat) : scal o lt = .op o [.s, .imm] false 1 1 lt := rfl
@[simp] theorem idx_eq (o : Opnd) : idx o = .op o [.v, .s, .imm] false 1 1 immAll := rfl
@[simp] theorem immOnly_eq (o lt : Nat) : immOnly o lt = .op (.imm o) [.imm] false 1 1 lt := rfl


theorem joinCode_lt {j : Option Nat} (h : ∀ k, j = some k → k < 8192) : joinCode j < 2 ^ 27 ∧ joinCode j % 8192 = 0 ∧
    joinOf (joinCode j) = j := by
  cases j with
  | none => decide
  | some k => have := h k rfl; simp only [joinCode, joinOf]; simp; omega
theorem joinOf_add {t w : Nat} (ht : t < 8192) (hw : w % 8192 = 0) : joinOf (t + w) = joinOf w ∧ (t + w) % 8192 = t := by
  simp only [joinOf]; constructor
  · rw [show (t + w) / 2 ^ 26 % 2 = w / 2 ^ 26 % 2 by omega, show (t + w) / 2 ^ 13 % 8192 = w / 2 ^ 13 % 8192 by omega]
  · omega
theorem lvlCode_lt {l : Option Nat} (h : ∀ k, l = some k → k < 16) : lvlCode l < 256 ∧ lvlCode l % 8 = 0 := by
  cases l with
  | none => decide
  | some k => have := h k rfl; simp only [lvlCode]; omega
theorem lvlOf_lvlCode {l : Option Nat} (n : Nat) (hn : n < 8) : lvlOf (n + lvlCode l) = some l := by
  cases l with
  | none => show lvlOf (n + 8) = _; rw [lvlOf, if_pos (by omega), if_pos (by omega)]
  | some k => show lvlOf (n + 16 * k) = _; rw [lvlOf, if_neg (by omega), show (n + 16 * k) / 16 = k by omega]
theorem soCode_lt {so : AtomOrd} (h : modsWf.atomOrdWf so = true) : soCode so < 16 := by
  cases so with
  | plain => decide
  | acq s | rel s | ar s => revert h; cases s <;> decide

@[simp] theorem bit_beq (b : Bool) : (bit b == 1) = b := by cases b <;> rfl
theorem eq_of_bit {n : Nat} {b : Bool} (h : n = bit b) : (n == 1) = b := by rw [h, bit_beq]
@[simp] theorem ityOf_ityCode_mod (t : IType) : ityOf (ityCode t % 4) = t := by cases t <;> rfl

/-! ### The parts of X -/

theorem ityX (t : IType) (k : Nat) : (ityCode t + 4 * k) % 4 = ityCode t ∧ (ityCode t + 4 * k) / 4 = k := by
  have := ityCode_lt t; omega
theorem ftX (t : FType) (k : Nat) : ftOf ((ftCode t + 4 * k) % 4) = some t ∧ (ftCode t + 4 * k) / 4 = k := by
  have := ftCode_lt t
  rw [show (ftCode t + 4 * k) % 4 = ftCode t by omega]
  exact ⟨ftOf_ftCode t, by omega⟩
theorem selX (t : IType) {p : Nat} (n : Bool) (h : p < 32) :
    let x := ityCode t + 4 * p + 128 * bit n
    x % 4 = ityCode t ∧ x / 4 % 32 = p ∧ (x / 128 == 1) = n := by
  have := ityCode_lt t; have := bit_le n
  exact ⟨by omega, by omega, eq_of_bit (by omega)⟩
theorem addX_parts (t : IType) (sat ci co : Bool) (cp : Nat) :
    let x := addX t sat ci co cp
    x % 4 = ityCode t ∧ (x / 4 % 2 == 1) = sat ∧ (x / 8 % 2 == 1) = ci ∧ (x / 16 % 2 == 1) = co ∧ x / 32 = cp := by
  have := ityCode_lt t; have := bit_le sat; have := bit_le ci; have := bit_le co
  simp only [addX]
  exact ⟨by omega, eq_of_bit (by omega), eq_of_bit (by omega), eq_of_bit (by omega), by omega⟩
theorem rfX_parts (ft : FType) (rm : Rm) : rfX ft rm < 32 ∧ rfX ft rm % 4 = ftCode ft ∧ rfX ft rm / 4 = rmCode rm := by
  have := ftCode_lt ft; have := rmCode_lt rm
  simp only [rfX]; omega
theorem cvtX (t : IType) (ft : FType) (rm : Rm) :
    let x := ityCode t + 4 * rmCode rm + 32 * ftCode ft
    x < 128 ∧ x % 4 = ityCode t ∧ x / 4 % 8 = rmCode rm ∧ x / 32 = ftCode ft := by
  have := ityCode_lt t; have := rmCode_lt rm; have : ftCode ft < 3 := by cases ft <;> decide
  omega
theorem dxX (w : DxWidth) (rm : Rm) {g : Nat} (h : 1 ≤ g) :
    let x := dxCode w + 4 * rmCode rm + 32 * (g - 1)
    x % 4 = dxCode w ∧ x / 4 % 8 = rmCode rm ∧ x / 32 + 1 = g := by
  have := dxCode_lt w; have := rmCode_lt rm
  omega
theorem ldX_parts (sz : MemSize) (o : Bool) (sc : Scope) :
    let x := ldX sz o sc
    x % 8 = sizeCode sz ∧ x / 32 = scopeCode sc ∧ x / 8 % 4 < 2 ∧ (x / 8 % 4 == 1) = o := by
  have := sizeCode_lt sz; have := bit_le o
  simp only [ldX]
  exact ⟨by omega, by omega, by omega, eq_of_bit (by omega)⟩
theorem atomX (o : AtomOp) (c : Nat) : (atomOpCode o + 16 * c) / 16 = c ∧ atomOpOf ((atomOpCode o + 16 * c) % 16) = some o := by
  have := atomOpCode_lt o
  rw [show (atomOpCode o + 16 * c) % 16 = atomOpCode o by omega]
  exact ⟨by omega, atomOpOf_atomOpCode o⟩
theorem stageX {n : Nat} (t z : Bool) (h : n < 8) :
    let x := n + 8 * bit t + 16 * bit z
    x < 32 ∧ x % 8 = n ∧ (x / 8 % 2 == 1) = t ∧ (x / 16 == 1) = z := by
  have := bit_le t; have := bit_le z
  exact ⟨by omega, by omega, eq_of_bit (by omega), eq_of_bit (by omega)⟩
theorem drainX (rm : Rm) (ad cl : Bool) :
    let x := 4 * rmCode rm + 32 * bit ad + 64 * bit cl
    x % 4 = 0 ∧ x < 128 ∧ x / 4 % 8 = rmCode rm ∧ (x / 32 % 2 == 1) = ad ∧ (x / 64 == 1) = cl := by
  have := rmCode_lt rm; have := bit_le ad; have := bit_le cl
  exact ⟨by omega, by omega, by omega, eq_of_bit (by omega), eq_of_bit (by omega)⟩
theorem spanX {k pm : Nat} (re : Bool) (hk : k < 8) (hp : pm < 16) :
    let x := k + 8 * pm + 128 * bit re
    x % 8 = k ∧ x / 8 % 16 = pm ∧ (x / 128 == 1) = re := by
  have := bit_le re
  exact ⟨by omega, by omega, eq_of_bit (by omega)⟩
theorem bitX (b : Bool) (k : Nat) : ((bit b + 2 * k) % 2 == 1) = b ∧ (bit b + 2 * k) / 2 = k := by
  have := bit_le b
  exact ⟨eq_of_bit (by omega), by omega⟩

theorem opx_fits {i : Instr} {op x w : Nat} (hc : opx i = some (op, x, w)) (hm : modsWf i = true) :
    op < 256 ∧ majorKnown op = true ∧ x < 256 ∧ w < 2 ^ 44 := by
  cases i
  case nop | movs | movx | voteAny | voteAll | voteUni | voteBallot | pmaskGet | pmaskSet | flagsTest | flagsClr |
      fdiv | fsqrt | frcp | frsq | fex2 | flg2 | fsin | fcos | ret | join | yield | setpri | exit | bkpt | trap |
      waitc | waitcRel | recld | recldRange | recldScr | recldTile | recsetOff | recsetExt0 | recsetExt1 |
      recsetRow | recsetShape | recsetEsize | recsetBmode | recsetSwz | recsetXv | recsetRo | recsetTgt |
      recsetAlias | fbput | descrd | descwr | prefDc | prefXl | cwbWb | cwbWbi | barArv | barWait | barSync | awSet |
      qPush | qClose | cpy | cpyg | cpyp | cpys | cpysCb | cpysZb | cpyl | cpyStat | cpyCancel | slotClaim |
      slotClaimAt | slotFree | accZero | accZeroFlg | accLd | accSt | mmWait | slotInfoGet | slotInfoExt |
      slotInfoAcc | lfSetup | lfWrite | lfWriteInc | lfVis | lfRate | lfRepro | lfResolve | lfPresentArm |
      lfPresentCommit | lfPresentSub | lfViews | lfViewsV | taskSpawn | taskSignal | taskCollect | taskCheck |
      taskMigrate | ebudWait | ebudCap | perfRd | perfClr | rmapSet | rmapClr | rmapBump | csrRd | csrWr | tret |
      halt =>
    cases hc; exact ⟨by decide, by decide, by decide, by decide⟩
  case mov | imul | imulh | imad | idiv | imin | imax | iabs | ineg | and | or | xor | not | shl | shr | rot | bfx |
      bfi | popc | clz | brev =>
    cases hc; exact ⟨by decide, by decide, by grind [ityCode_lt], by decide⟩
  all_goals cases hc
  all_goals refine ⟨by decide, by decide, ?_⟩
  case bra t j | call t j =>
    simp [modsWf] at hm
    obtain ⟨ht, hj⟩ := hm
    have := (@joinCode_lt j (by rintro k rfl; simpa using hj))
    omega
  case brx j =>
    simp [modsWf] at hm
    have := (@joinCode_lt j (by rintro k rfl; simpa using hm))
    omega
  case lld | lodq =>
    simp [modsWf] at hm
    grind [lodSizeCode_lt, lvlCode_lt]
  case atom | cas =>
    simp [modsWf] at hm
    grind [soCode_lt, atomOpCode_lt]
  case red =>
    simp [modsWf] at hm
    grind [soCode_lt, atomOpCode_lt]
  all_goals unfold modsWf at hm
  all_goals simp at hm
  all_goals grind [ityCode_lt, ftCode_lt, rmCode_lt, condCode_lt, scopeCode_lt, sizeCode_lt, planeCode_lt, shflCode_lt, iredCode_lt, fredCode_lt, dxCode_lt, fenceCode_lt, bit_le, addX, rfX, ldX]

/-! ### The candidate of an encoded instruction -/

section
variable {r : Raw} {i : Instr} {w : Nat}

/-- Integer, floating-point and predicate majors. -/
theorem candidate_of_arithmetic (e : Encodes r i w) (hf : r.op < 0x50) : candidate r = some i := by
  obtain ⟨op, gn, gp, s, ec, ru, z, x, d, a, b⟩ := r
  obtain ⟨hh, hc, hm, ed, ea, eb, ew⟩ := e
  dsimp only at hc ed ea eb hf
  cases i
  all_goals cases hh
  all_goals cases hc
  all_goals simp at hf
  all_goals unfold instrForm at ed ea eb
  all_goals simp at ed ea eb
  case nop | movs | movx | voteAny | voteAll | voteUni | voteBallot | pmaskGet | pmaskSet | flagsTest | flagsClr |
      mov | imul | imad | idiv | imin | imax | iabs | ineg | and | or | xor | not | shl | shr | rot | bfx | bfi |
      popc | clz | brev =>
    unfold candidate candInt
    dsimp only
    simp [only?, ed, ea, eb, ityCode_lt]
  case movw =>
    unfold candidate candInt
    dsimp only
    simp [only?, ed, ityCode_lt, ew rfl]
  case sel ty ps n _ _ _ =>
    obtain ⟨h1, h2, h3⟩ := selX ty n (by simpa [modsWf] using hm : ps < 32)
    unfold candidate candInt
    dsimp only
    simp [h1, h2, h3, ed, ea, eb]
  case iadd ty sat ci co cp _ _ _ | isub ty sat ci co cp _ _ _ =>
    obtain ⟨h1, h2, h3, h4, h5⟩ := addX_parts ty sat ci co cp
    unfold candidate candInt
    dsimp only
    simp [h1, h2, h3, h4, h5, ed, ea, eb, only?, hm]
  case imulh ty _ _ _ =>
    unfold candidate candInt
    dsimp only
    cases ty <;> simp [modsWf, tyRegs] at hm <;> simp [only?, ed, ea, eb, ityCode, ityOf]
  case idivRem ty _ _ _ =>
    have h1 : ¬ ityCode ty + 4 < 4 ∧ ityCode ty + 4 < 8 ∧ (ityCode ty + 4) % 4 = ityCode ty := by have := ityCode_lt ty; omega
    unfold candidate candInt
    dsimp only
    simp [only?, ed, ea, eb, h1]
  case icmp ty c _ _ _ =>
    have h1 : ityCode ty + 4 * condCode c < 64 := by have := ityCode_lt ty; have := condCode_lt c; omega
    have h2 := hm
    unfold modsWf at hm h2
    unfold candidate candInt
    dsimp only
    simp only [h1, ityX, condOf_condCode, ityOf_ityCode, Option.bind_some, if_true, only?, ed, ea, eb]
    exact if_pos hm
  case lea ty sh _ _ _ =>
    have h1 : ityCode ty + 4 * sh < 32 := by have := ityCode_lt ty; simp [modsWf] at hm; omega
    unfold candidate candInt
    dsimp only
    simp [only?, h1, ityX, ed, ea, eb]
  case shfl ty m _ _ _ =>
    have h1 : ityCode ty + 4 * shflCode m < 16 := by have := ityCode_lt ty; have := shflCode_lt m; omega
    unfold candidate candInt
    dsimp only
    simp [only?, h1, ityX, ed, ea, eb]
  case ired | plop =>
    unfold modsWf at hm
    simp at hm
    unfold candidate candInt
    dsimp only
    simp [only?, ityX, ed, ea, eb, hm]
  case fdiv | fsqrt | frcp | frsq | fex2 | flg2 | fsin | fcos =>
    unfold candidate candFp
    dsimp only
    simp [only?, ed, ea, eb]
  case fadd ft rm _ _ _ | fsub ft rm _ _ _ | fmul ft rm _ _ _ | ffma ft rm _ _ _ | fscale ft rm _ _ _ =>
    obtain ⟨h1, h2, h3⟩ := rfX_parts ft rm
    unfold candidate candFp
    dsimp only
    simp [h1, h2, h3, ed, ea, eb]
  case frnd ft rm _ _ =>
    obtain ⟨h1, h2, h3⟩ := rfX_parts ft rm
    unfold candidate candFp
    dsimp only
    simp [h1, h2, h3, ed, ea]
  case hfma2 ft rm _ _ _ | hadd2 ft rm _ _ _ | hmul2 ft rm _ _ _ =>
    obtain ⟨h1, h2, h3⟩ := rfX_parts ft rm
    have hf : ft ≠ .f32 := by simpa [modsWf] using hm
    unfold candidate candFp
    dsimp only
    simp [h1, h2, h3, ed, ea, eb, hf]
  case fmin | fmax | fclass | dxunpk =>
    unfold candidate candFp
    dsimp only
    simp [ftCode_lt, dxCode_lt, ed, ea, eb]
  case fcmp ft c _ _ _ =>
    have h1 : ftCode ft + 4 * condCode c < 64 := by have := ftCode_lt ft; have := condCode_lt c; omega
    unfold candidate candFp
    dsimp only
    simp only [h1, ftX, ed, ea, eb]
    simp
  case fred ft o _ _ =>
    have h1 : ftCode ft + 4 * fredCode o < 32 := by have := ftCode_lt ft; have := fredCode_lt o; omega
    unfold candidate candFp
    dsimp only
    simp only [h1, ftX, ed, ea]
    simp
  case f2i ity ft rm _ _ | i2f ft ity rm _ _ =>
    obtain ⟨h1, h2, h3, h4⟩ := cvtX ity ft rm
    unfold candidate candFp
    dsimp only
    simp [h1, h2, h3, h4, ed, ea]
  case fcvt dst src rm _ _ =>
    have h1 : 4 * rmCode rm % 4 = 0 ∧ 4 * rmCode rm < 32 := by have := rmCode_lt rm; omega
    have hb : num 1048576 b = dst + 256 * src := eb.2
    have h2 : b % 256 = dst ∧ b / 256 % 256 = src := by
      simp [modsWf] at hm; unfold num at hb; omega
    unfold candidate candFp
    dsimp only
    simp [h1, h2, ed, ea]
  case dxpk w g rm _ _ _ =>
    obtain ⟨h1, h2, h3⟩ := dxX w rm (by simp [modsWf] at hm; exact hm.1 : 1 ≤ g)
    unfold candidate candFp
    dsimp only
    simp [h1, h2, h3, ed, ea, eb]

/-- Control, memory, synchronisation and copy majors. -/
theorem candidate_of_control (e : Encodes r i w) (hf : 0x50 ≤ r.op ∧ r.op < 0xA0) : candidate r = some i := by
  obtain ⟨op, gn, gp, s, ec, ru, z, x, d, a, b⟩ := r
  obtain ⟨hh, hc, hm, ed, ea, eb, ew⟩ := e
  dsimp only at hc ed ea eb hf
  cases i
  all_goals cases hh
  all_goals cases hc
  all_goals simp at hf
  all_goals unfold instrForm at ed ea eb
  all_goals simp at ed ea eb
  case ret | join | yield | setpri | exit | bkpt | trap | waitc | waitcRel =>
    unfold candidate candCtl
    dsimp only
    simp [only?, eb]
  case bra t j | call t j =>
    obtain ⟨ht, hj⟩ : t < 8192 ∧ _ := by simpa [modsWf] using hm
    obtain ⟨-, h1, h2⟩ := @joinCode_lt j (by rintro k rfl; simpa using hj)
    unfold candidate candCtl
    dsimp only
    simp [only?, ew rfl, joinOf_add ht h1, h2]
  case brx j =>
    obtain ⟨-, -, h2⟩ := @joinCode_lt j (by rintro k rfl; simpa [modsWf] using hm)
    unfold candidate candCtl
    dsimp only
    simp [only?, ew rfl, h2, ed]
  case brdec =>
    have ht := Nat.mod_eq_of_lt (by simpa [modsWf] using hm : w < 8192)
    unfold candidate candCtl
    dsimp only
    simp [only?, ew rfl, ed, ht]
  case ovlj c bk t =>
    have ht : t < 8192 := by simpa [modsWf] using hm
    have h1 : (t + 8192 * bit bk) % 8192 = t := by omega
    have h2 : ((t + 8192 * bit bk) / 8192 % 2 == 1) = bk := eq_of_bit (by have := bit_le bk; omega)
    have h3 : bit c < 2 := by have := bit_le c; omega
    unfold candidate candCtl
    dsimp only
    simp [only?, ew rfl, h1, h2, h3]
  case recld | recldScr | recldTile | recsetOff | recsetExt0 | recsetExt1 | recsetRow | recsetShape | recsetEsize |
      recsetBmode | recsetSwz | recsetXv | recsetRo | recsetTgt | recsetAlias | fbput | descrd | descwr | prefDc |
      prefXl | cwbWb | cwbWbi =>
    unfold candidate candMem
    dsimp only
    simp [only?, ed, ea, eb]
  case ld sz o sc _ _ _ | st sz o sc _ _ _ | lds sz o sc _ _ _ | sts sz o sc _ _ _ | ldr sz o sc _ _ _ |
      str sz o sc _ _ _ | ldu sz o sc _ _ _ =>
    obtain ⟨h1, h2, h3, h4⟩ := ldX_parts sz o sc
    unfold candidate candMem
    dsimp only
    simp only [only?, h1, h2, h3, h4, ed, ea, eb, sizeOf_sizeCode, scopeOf_scopeCode, Option.bind_some, if_true]
    exact if_pos hm
  case recldRange _ n w =>
    have h1 : b % 8 = n ∧ b % 1048576 / 8 % 512 = w := by
      have hb := eb.2; simp [modsWf] at hm; unfold num at hb; omega
    unfold candidate candMem
    dsimp only
    simp [ed, h1]
  case lld sz l _ _ _ =>
    have h1 : (lodSizeCode sz + lvlCode l) % 8 = lodSizeCode sz := by
      have := (@lvlCode_lt l (by rintro k rfl; simpa [modsWf] using hm)).2; have := lodSizeCode_lt sz; omega
    unfold candidate candMem
    dsimp only
    simp [h1, lvlOf_lvlCode _ (lodSizeCode_lt sz), ed, ea, eb]
  case lodq l _ _ _ =>
    have h1 := (@lvlCode_lt l (by rintro k rfl; simpa [modsWf] using hm)).2
    have h2 := @lvlOf_lvlCode l 0 (by decide)
    rw [Nat.zero_add] at h2
    unfold candidate candMem
    dsimp only
    simp [h1, h2, ed, ea, eb]
  case tld | tst =>
    unfold candidate candMem
    dsimp only
    simp [ed, ea, eb]
  case barArv | barWait | barSync | awSet | qPush | qClose | cpy | cpyg | cpyp | cpys | cpysCb | cpysZb | cpyl |
      cpyStat | cpyCancel =>
    unfold candidate candSync
    dsimp only
    simp [only?, ed, ea, eb]
  case atom so o _ _ _ =>
    unfold candidate candSync
    dsimp only
    simp only [atomX, soOf_soCode (by simpa [modsWf] using hm : modsWf.atomOrdWf so = true), ed, ea, eb]
    rfl
  case red so o _ _ _ =>
    unfold candidate candSync
    dsimp only
    simp only [atomX, soOf_soCode (by simp [modsWf] at hm; exact hm.1.1 : modsWf.atomOrdWf so = true), ed, ea, eb,
      Option.bind_some, only?]
    exact if_pos hm
  case cas so _ _ _ =>
    unfold candidate candSync
    dsimp only
    simp [soOf_soCode (by simpa [modsWf] using hm : modsWf.atomOrdWf so = true), ed, ea, eb]
  case fence o sc =>
    have h1 : (8 * fenceCode o + 32 * scopeCode sc) % 8 = 0 ∧ (8 * fenceCode o + 32 * scopeCode sc) / 32 = scopeCode sc ∧
        (8 * fenceCode o + 32 * scopeCode sc) / 8 % 4 = fenceCode o := by
      have := fenceCode_lt o; omega
    unfold candidate candSync
    dsimp only
    simp [h1]
  case fencex | barArm | awWait | qInit =>
    unfold modsWf at hm
    simp at hm
    unfold candidate candSync
    dsimp only
    simp [only?, ed, ea, eb, hm, modsWf]
  case qPop | ovlLd =>
    unfold modsWf at hm
    simp at hm
    unfold candidate candSync
    dsimp only
    simp [only?, ed, ea, eb, hm, Nat.lt_succ_of_le (bit_le _)]

/-- Matrix, light-field, frame and system majors. -/
theorem candidate_of_engine (e : Encodes r i w) (hf : 0xA0 ≤ r.op) : candidate r = some i := by
  obtain ⟨op, gn, gp, s, ec, ru, z, x, d, a, b⟩ := r
  obtain ⟨hh, hc, hm, ed, ea, eb, ew⟩ := e
  dsimp only at hc ed ea eb hf
  cases i
  all_goals cases hh
  all_goals cases hc
  all_goals simp at hf
  all_goals unfold instrForm at ed ea eb
  all_goals simp at ed ea eb
  case slotClaim | slotClaimAt | slotFree | accZero | accZeroFlg | accLd | accSt | mmWait | slotInfoGet |
      slotInfoExt | slotInfoAcc =>
    unfold candidate candMat
    dsimp only
    simp [only?, ed, ea, eb]
  case mma z _ _ _ =>
    unfold candidate candMat
    dsimp only
    cases z <;> simp [only?, bit, ed, ea, eb]
  case mmStage n t z _ _ _ =>
    obtain ⟨h1, h2, h3, h4⟩ := stageX t z (by simpa [modsWf] using hm : n < 8)
    unfold candidate candMat
    dsimp only
    simp [only?, h1, h2, h3, h4, ed, ea, eb]
  case drain rm ad cl _ _ _ =>
    obtain ⟨h1, h2, h3, h4, h5⟩ := drainX rm ad cl
    unfold candidate candMat
    dsimp only
    simp [h1, h2, h3, h4, h5, ed, ea, eb]
  case gmv =>
    unfold candidate candMat
    dsimp only
    simp [only?, ed, ea, eb, (by simpa [modsWf] using hm : x < 16)]
  case lfSetup | lfWrite | lfWriteInc | lfVis | lfRate | lfRepro | lfResolve | lfPresentArm | lfPresentCommit |
      lfPresentSub | lfViews | lfViewsV =>
    unfold candidate candLf
    dsimp only
    simp [only?, ed, ea, eb]
  case lfSpan re pm k _ _ _ =>
    obtain ⟨hp, hk⟩ : pm < 16 ∧ k < 8 := by simpa [modsWf] using hm
    obtain ⟨h1, h2, h3⟩ := spanX re hk hp
    unfold candidate candLf
    dsimp only
    simp [h1, h2, h3, ed, ea, eb]
  case lfZtest ge w _ _ =>
    have h1 : bit ge + 2 * bit w < 4 := by have := bit_le ge; have := bit_le w; omega
    unfold candidate candLf
    dsimp only
    simp only [only?, h1, bitX, bit_beq, ed, eb]
    rfl
  case lfVsplit g pp _ _ =>
    have h1 : bit g + 2 * pp < 64 := by have := bit_le g; simp [modsWf] at hm; omega
    unfold candidate candLf
    dsimp only
    simp only [only?, h1, bitX, ed, ea]
    rfl
  case lfInterp =>
    unfold candidate candLf
    dsimp only
    simp [only?, ed, ea, eb, (by simpa [modsWf] using hm : x < 8)]
  case lfStat =>
    unfold candidate candLf
    dsimp only
    simp [only?, ed, eb, Nat.lt_succ_of_le (bit_le _)]
  case taskSpawn | taskSignal | taskCollect | taskCheck | taskMigrate | ebudWait | ebudCap | perfRd | perfClr |
      rmapSet | rmapClr | rmapBump | csrRd | csrWr | tret | halt =>
    unfold candidate candSys
    dsimp only
    simp [only?, ed, ea, eb]

theorem candidate_encodes (e : Encodes r i w) : candidate r = some i := by
  by_cases h1 : r.op < 0x50
  · exact candidate_of_arithmetic e h1
  by_cases h2 : r.op < 0xA0
  · exact candidate_of_control e ⟨by omega, h2⟩
  · exact candidate_of_engine e (by omega)

end

/-- A position's operand is the one that a field names, if the field raises nothing there. -/
def Names (f : Nat) : Slot → Prop
  | .op o ks mods al sal lt => ∀ o', opOf f = some o' → opErrs .max o' ks mods al sal lt = [] → o = o'
  | .lateV n => num 256 f = n
  | _ => True

theorem slotWf_of_names {f : Nat} {s : Slot} (h : Names f s) (he : fieldErrs .max f s = []) : slotWf .max s = true := by
  cases s with
  | unused | wide => rfl
  | lateV n =>
    have : n < 256 := h ▸ Nat.mod_lt _ (by decide)
    simpa [slotWf] using this
  | op o ks mods al sal lt =>
    obtain ⟨-, he⟩ := List.append_eq_nil_iff.1 he
    cases ho : opOf f with
    | none => simp [ho] at he
    | some o' =>
      simp only [ho] at he
      rw [h o' ho he]
      exact slotWf_op.2 ⟨opInRange_opOf ho, he⟩

theorem numIs_of_opOf {f : Nat} {o : Opnd} (h : opOf f = some o) : numIs f o := by
  simp only [opOf] at h
  split at h
  · cases h; simp [num]
  · cases h; simp [num]
  · split at h <;> cases h <;> simp [num]
  · cases h; simp [num]

theorem opErrs_kind {lim : Lim} {o : Opnd} {ks : List Kind} {mods : Bool} {al sal lt : Nat}
    (h : opErrs lim o ks mods al sal lt = []) : opKind o ∈ ks ∧ (mods = false → opMods o = false) := by
  simp [opErrs] at h
  exact ⟨h.1, fun hm => by simpa [hm] using h.2.1⟩

@[simp] theorem names_unused (f : Nat) : Names f .unused := trivial
@[simp] theorem names_wide (f : Nat) : Names f .wide := trivial
@[simp] theorem names_lateV (f : Nat) : Names f (.lateV (num 256 f)) := rfl
@[simp] theorem names_opD (f : Nat) (ks : List Kind) (mods : Bool) (al sal lt : Nat) :
    Names f (.op (opD f) ks mods al sal lt) := fun o' h _ => by simp [opD, h]
@[simp] theorem names_v (f al sal lt : Nat) : Names f (.op (.v (num 256 f) false false) [.v] false al sal lt) := by
  intro o h he
  have hk := opErrs_kind he; have hn := numIs_of_opOf h
  cases o <;> simp_all [opKind, opMods]
@[simp] theorem names_s (f al sal lt : Nat) : Names f (.op (.s (num 64 f) false false) [.s] false al sal lt) := by
  intro o h he
  have hk := opErrs_kind he; have hn := numIs_of_opOf h
  cases o <;> simp_all [opKind, opMods]
/-- The same for the kinds without modifiers. -/
theorem names_plain {f al sal lt : Nat} {o : Opnd} {ks : List Kind} {mods : Bool} (hk : ∀ k ∈ ks, k = opKind o) (hv : opKind o ≠ .v) (hs : opKind o ≠ .s)
    (hn : numIs f o) : Names f (.op o ks mods al sal lt) := by
  intro o' h he
  have hk' := hk _ (opErrs_kind he).1; have hn' := numIs_of_opOf h
  cases o <;> cases o' <;> simp_all [opKind]
@[simp] theorem names_p (f al sal lt : Nat) : Names f (.op (.p (num 32 f)) [.p] false al sal lt) :=
  names_plain (by simp [opKind]) (by simp [opKind]) (by simp [opKind]) rfl
@[simp] theorem names_b (f al sal lt : Nat) : Names f (.op (.b (num 16 f)) [.b] false al sal lt) :=
  names_plain (by simp [opKind]) (by simp [opKind]) (by simp [opKind]) rfl
@[simp] theorem names_vi (f al sal lt : Nat) : Names f (.op (.vi (num 8 f)) [.vi] false al sal lt) :=
  names_plain (by simp [opKind]) (by simp [opKind]) (by simp [opKind]) rfl
@[simp] theorem names_im (f al sal lt : Nat) : Names f (.op (.im (num 8 f)) [.im] false al sal lt) :=
  names_plain (by simp [opKind]) (by simp [opKind]) (by simp [opKind]) rfl
@[simp] theorem names_a (f al sal lt : Nat) : Names f (.op (.a (num 32 f)) [.a] false al sal lt) :=
  names_plain (by simp [opKind]) (by simp [opKind]) (by simp [opKind]) rfl
@[simp] theorem names_o (f al sal lt : Nat) : Names f (.op (.o (num 64 f)) [.o] false al sal lt) :=
  names_plain (by simp [opKind]) (by simp [opKind]) (by simp [opKind]) rfl
@[simp] theorem names_spec (f al sal lt : Nat) : Names f (.op (.spec (num 4096 f)) [.spec] false al sal lt) :=
  names_plain (by simp [opKind]) (by simp [opKind]) (by simp [opKind]) rfl
@[simp] theorem names_imm (f al sal lt : Nat) : Names f (.op (.imm (num 1048576 f)) [.imm] false al sal lt) :=
  names_plain (by simp [opKind]) (by simp [opKind]) (by simp [opKind]) rfl

@[simp] theorem names_movx (f al sal lt : Nat) :
    Names f (.op (.spec (num 4096 f)) (movxKinds (num 4096 f)) false al sal lt) :=
  names_plain (by simp [opKind, movxKinds]) (by simp [opKind]) (by simp [opKind]) rfl
@[simp] theorem names_fencex (f al sal lt : Nat) :
    Names f (.op (.imm (num 1048576 f)) (if num 1048576 f = 0 then [] else [.imm]) false al sal lt) :=
  names_plain (by split <;> simp [opKind]) (by simp [opKind]) (by simp [opKind]) rfl
@[simp] theorem names_zero (f al sal : Nat) : Names f (.op (.imm 0) [.imm] false al sal 1) := by
  intro o h he
  cases o <;> simp_all [opErrs, opKind]
@[simp] theorem names_range (f al sal : Nat) :
    Names f (.op (.imm (f % 8 + 8 * (f % 1048576 / 8 % 512))) [.imm] false al sal 4096) := by
  intro o h he
  have hn := numIs_of_opOf h
  cases o <;> simp_all [opErrs, opKind, num]
  omega

/-- `P` holds of the candidate, if there is one. -/
def Yields (o : Option Instr) (P : Instr → Prop) : Prop := ∀ i, o = some i → P i

section
variable {P : Instr → Prop}
@[simp] theorem yields_none : Yields none P := fun _ h => nomatch h
@[simp] theorem yields_some (i : Instr) : Yields (some i) P ↔ P i := by simp [Yields]
@[simp] theorem yields_only? (c : Bool) (i : Instr) : Yields (only? c i) P ↔ (c = true → P i) := by
  cases c <;> simp [only?]
@[simp] theorem yields_map {α : Type} (o : Option α) (f : α → Instr) : Yields (o.map f) P ↔ ∀ x, o = some x → P (f x) := by
  cases o <;> simp
@[simp] theorem yields_bind {α : Type} (o : Option α) (f : α → Option Instr) :
    Yields (o.bind f) P ↔ ∀ x, o = some x → Yields (f x) P := by
  cases o <;> simp
@[simp] theorem yields_ite (c : Prop) [Decidable c] (a b : Option Instr) :
    Yields (if c then a else b) P ↔ (c → Yields a P) ∧ (¬ c → Yields b P) := by
  split <;> simp [*]

end

/-- What a candidate takes from the fields of its word. -/
structure Candidate (r : Raw) (i : Instr) : Prop where
  hdr : i.hdr = some (hdrOf r)
  mods : modsWf i = true
  d : Names r.d (instrForm i).d
  a : Names r.a (instrForm i).a
  b : Names r.b (instrForm i).b

section
variable {r : Raw}


theorem joinOf_lt {w k : Nat} (h : joinOf w = some k) : k < 8192 := by
  unfold joinOf at h; split at h
  · cases h; exact Nat.mod_lt _ (by decide)
  · cases h
theorem lvlOf_lt {x k : Nat} (hx : x < 256) (h : lvlOf x = some (some k)) : k < 16 := by
  unfold lvlOf at h
  split at h
  · split at h <;> cases h
  · cases h; omega
theorem atomOrdWf_soOf {c : Nat} {so : AtomOrd} (h : soOf c = some so) : modsWf.atomOrdWf so = true := by
  unfold soOf at h
  split at h <;> cases h <;> rfl



@[simp] theorem names_fcvt {f : Nat} (al sal lt : Nat) (ks : List Kind) (hf : f % 1048576 < 65536) (hk : ks = [.imm] ∨ ks = []) :
    Names f (.op (.imm (f % 256 + 256 * (f / 256 % 256))) ks false al sal lt) := by
  refine names_plain (by obtain rfl | rfl := hk <;> simp [opKind]) (by simp [opKind]) (by simp [opKind]) ?_
  simp only [numIs_imm, num]
  omega

theorem modsWf_bra {h : Hdr} {t : Nat} {j : Option Nat} (ht : t < 8192) (hj : ∀ k, j = some k → k < 8192) :
    modsWf (.bra h t j) = true ∧ modsWf (.call h t j) = true ∧ modsWf (.brx h t j) = true := by
  cases j with
  | none => simp [modsWf, ht]
  | some k => simp [modsWf, ht, hj k rfl]


theorem candInt_yields (hr : r.Fits) : Yields (candInt r) (Candidate r) := by
  obtain ⟨op, gn, gp, s, ec, ru, z, x, d, a, b⟩ := r
  have hx := hr.x; dsimp only at hx
  unfold candInt
  dsimp only
  repeat' split
  all_goals simp only [yields_some, yields_none, yields_only?, yields_map, yields_bind]
  all_goals intros
  all_goals refine ⟨rfl, ?_, by unfold instrForm; simp, by unfold instrForm; simp, by unfold instrForm; simp⟩
  any_goals rfl
  any_goals assumption
  all_goals simp_all [modsWf]
  case h_3 => have ha := hr.a; have hb := hr.b; simp only [rawW]; dsimp only at ha hb; omega
  case h_8 => obtain rfl | rfl : x = 0 ∨ x = 1 := by omega
              all_goals rfl
  all_goals omega

theorem candFp_yields (hb : r.op = 0x35 → r.b % 1048576 < 65536) (hr : r.Fits) : Yields (candFp r) (Candidate r) := by
  obtain ⟨op, gn, gp, s, ec, ru, z, x, d, a, b⟩ := r
  have hx := hr.x; dsimp only at hx
  unfold candFp
  dsimp only
  repeat' split
  all_goals simp only [yields_none, yields_only?, yields_map, yields_bind, yields_ite, imp_true_iff, true_and]
  all_goals intros
  case h_22.isTrue =>
    refine ⟨rfl, ?_, by unfold instrForm; simp, by unfold instrForm; simp, ?_⟩
    · simp [modsWf]; omega
    · unfold instrForm; exact names_fcvt _ _ _ _ (hb rfl) (by split <;> simp)
  all_goals refine ⟨rfl, ?_, by unfold instrForm; simp, by unfold instrForm; simp, by unfold instrForm; simp⟩
  any_goals rfl
  all_goals simp_all [modsWf]
  all_goals omega

theorem candCtl_yields  : Yields (candCtl r) (Candidate r) := by
  obtain ⟨op, gn, gp, s, ec, ru, z, x, d, a, b⟩ := r
  unfold candCtl
  dsimp only
  generalize rawW _ = w
  repeat' split
  all_goals simp only [yields_some, yields_none, yields_only?]
  all_goals intros
  all_goals refine ⟨rfl, ?_, by unfold instrForm; simp, by unfold instrForm; simp, by unfold instrForm; simp⟩
  any_goals rfl
  case h_1 | h_3 => simp only [modsWf_bra (Nat.mod_lt _ (by decide)) (fun _ h => joinOf_lt h)]
  case h_2 => exact (modsWf_bra (h := ⟨false, 0, false, 0, 0⟩) (t := 0) (by decide) (fun _ h => joinOf_lt h)).2.2
  case h_9 => simp [modsWf]; omega
  case h_10 => simp [modsWf]; omega

theorem candMem_yields (hr : r.Fits) : Yields (candMem r) (Candidate r) := by
  obtain ⟨op, gn, gp, s, ec, ru, z, x, d, a, b⟩ := r
  have hx := hr.x; dsimp only at hx
  unfold candMem
  dsimp only
  repeat' split
  all_goals simp only [yields_some, yields_none, yields_only?, yields_map, yields_bind, imp_true_iff]
  all_goals intros
  all_goals refine ⟨rfl, ?_, by unfold instrForm; simp, by unfold instrForm; simp, by unfold instrForm; simp⟩
  any_goals rfl
  any_goals assumption
  case h_10 sz _ l h | h_11 sz _ l h =>
    cases l with
    | none => rfl
    | some k => simpa [modsWf] using lvlOf_lt hx h
  all_goals simp [modsWf]; omega

theorem candSync_yields (hr : r.Fits) : Yields (candSync r) (Candidate r) := by
  obtain ⟨op, gn, gp, s, ec, ru, z, x, d, a, b⟩ := r
  have hx := hr.x; dsimp only at hx
  unfold candSync
  dsimp only
  repeat' split
  all_goals simp only [yields_some, yields_none, yields_only?, yields_map, yields_bind]
  all_goals intros
  all_goals refine ⟨rfl, ?_, by unfold instrForm; simp, by unfold instrForm; simp, by unfold instrForm; simp⟩
  any_goals rfl
  any_goals assumption
  all_goals simp_all [modsWf]
  all_goals exact atomOrdWf_soOf ‹_›

theorem candMat_yields (hr : r.Fits) : Yields (candMat r) (Candidate r) := by
  obtain ⟨op, gn, gp, s, ec, ru, z, x, d, a, b⟩ := r
  have hx := hr.x; dsimp only at hx
  unfold candMat
  dsimp only
  repeat' split
  all_goals simp only [yields_some, yields_none, yields_only?, yields_map]
  all_goals intros
  all_goals refine ⟨rfl, ?_, by unfold instrForm; simp, by unfold instrForm; simp, by unfold instrForm; simp⟩
  any_goals rfl
  all_goals simp_all [modsWf]
  all_goals omega

theorem candLf_yields (hr : r.Fits) : Yields (candLf r) (Candidate r) := by
  obtain ⟨op, gn, gp, s, ec, ru, z, x, d, a, b⟩ := r
  have hx := hr.x; dsimp only at hx
  unfold candLf
  dsimp only
  repeat' split
  all_goals simp only [yields_some, yields_none, yields_only?]
  all_goals intros
  all_goals refine ⟨rfl, ?_, by unfold instrForm; simp, by unfold instrForm; simp, by unfold instrForm; simp⟩
  any_goals rfl
  all_goals simp_all [modsWf]
  all_goals omega

theorem candSys_yields  : Yields (candSys r) (Candidate r) := by
  obtain ⟨op, gn, gp, s, ec, ru, z, x, d, a, b⟩ := r
  unfold candSys
  dsimp only
  repeat' split
  all_goals simp only [yields_some, yields_none, yields_only?]
  all_goals intros
  all_goals refine ⟨rfl, ?_, by unfold instrForm; simp, by unfold instrForm; simp, by unfold instrForm; simp⟩
  any_goals rfl

theorem candidate_yields (hb : r.op = 0x35 → r.b % 1048576 < 65536) (hr : r.Fits) : Yields (candidate r) (Candidate r) := by
  unfold candidate
  simp only [yields_ite, candInt_yields hr, candFp_yields hb hr, candCtl_yields, candMem_yields hr, candSync_yields hr,
    candMat_yields hr, candLf_yields hr, candSys_yields, imp_true_iff, true_and]

end

/-! ### Subcodes -/

theorem foldl_lowest_ne_zero {l : List Nat} (h : 0 ∉ l) {m : Nat} (hm : m ≠ 0) :
    l.foldl (fun m k => if m = 0 ∨ k < m then k else m) m ≠ 0 := by
  induction l generalizing m with
  | nil => exact hm
  | cons k l ih =>
    simp only [List.mem_cons, not_or] at h
    exact ih h.2 (by dsimp only; split <;> omega)

theorem lowestSub_eq_zero {l : List Nat} (h : 0 ∉ l) : lowestSub l = 0 ↔ l = [] := by
  cases l with
  | nil => simp [lowestSub]
  | cons k l =>
    simp only [List.mem_cons, not_or] at h
    simpa [lowestSub] using foldl_lowest_ne_zero h.2 (Ne.symm h.1)

theorem zero_notMem_fieldErrs (f : Nat) (s : Slot) : 0 ∉ fieldErrs .max f s := by
  have hm : 0 ∉ mbzErrs f := by unfold mbzErrs; split <;> [split; skip] <;> simp
  have ho (o : Opnd) (ks : List Kind) (mods : Bool) (al sal lt : Nat) : 0 ∉ opErrs .max o ks mods al sal lt := by
    simp only [opErrs, List.mem_append, not_or]
    refine ⟨⟨by split <;> simp, by split <;> simp⟩, ?_⟩
    cases o <;> simp
  cases s with
  | wide => simp [fieldErrs]
  | unused => simp only [fieldErrs]; split <;> simp
  | lateV n | op o ks mods al sal lt =>
    simp only [fieldErrs, List.mem_append, not_or]
    refine ⟨hm, ?_⟩
    cases opOf f <;> simp [ho]

theorem zero_notMem_extraErrs (i : Instr) : 0 ∉ extraErrs .max i := by
  unfold extraErrs
  repeat' split
  all_goals simp

theorem zero_notMem_wordErrs (r : Raw) (i : Instr) : 0 ∉ wordErrs .max r i := by
  have hw : 0 ∉ wideErrs r := by unfold wideErrs; dsimp only; repeat' split
                                 all_goals simp
  have hz : 0 ∉ (if r.z = 0 then [] else [3]) := by split <;> simp
  simp [wordErrs, hz, hw, zero_notMem_fieldErrs, zero_notMem_extraErrs]

/-- A word decodes to its candidate when it raises nothing. -/
theorem decodeRaw_eq_ok {r : Raw} {i : Instr} :
    decodeRaw .max r = .ok i ↔ majorKnown r.op = true ∧ candidate r = some i ∧ wordErrs .max r i = [] := by
  unfold decodeRaw
  cases majorKnown r.op
  · simp
  cases hc : candidate r with
  | none => simp
  | some j =>
    have h0 := lowestSub_eq_zero (zero_notMem_wordErrs r j)
    by_cases hj : wordErrs .max r j = []
    · simp only [if_true, h0.2 hj, Decoded.ok.injEq, Option.some.injEq, true_and]
      exact ⟨fun h => ⟨h, h ▸ hj⟩, And.left⟩
    · simp only [if_true, mt h0.1 hj, if_false, Option.some.injEq, true_and]
      simp
      rintro rfl
      exact hj

theorem wordErrs_eq_nil {r : Raw} {i : Instr} : wordErrs .max r i = [] ↔ r.z = 0 ∧ wideErrs r = [] ∧
    fieldErrs .max r.d (instrForm i).d = [] ∧ fieldErrs .max r.a (instrForm i).a = [] ∧
    fieldErrs .max r.b (instrForm i).b = [] ∧ extraErrs .max i = [] := by
  simp [wordErrs]

/-! ### The two directions -/

/-- What a word decodes to is well-formed. -/
theorem wf_of_decodeRaw {r : Raw} {i : Instr} (hr : r.Fits) (h : decodeRaw .max r = .ok i) :
    i.wf = true ∧ i.hdr = some (hdrOf r) := by
  obtain ⟨-, hc, he⟩ := decodeRaw_eq_ok.1 h
  obtain ⟨-, hw, hd, ha, hb, hx⟩ := wordErrs_eq_nil.1 he
  have hf : r.op = 0x35 → r.b % 1048576 < 65536 := by
    intro ho
    simp only [wideErrs, ho] at hw
    by_contra hn
    simp [hn] at hw
  have c := candidate_yields hf hr i hc
  refine ⟨(wf_iff c.hdr).2 ⟨?_, c.mods, slotWf_of_names c.d hd, slotWf_of_names c.a ha, slotWf_of_names c.b hb, hx⟩, c.hdr⟩
  simp [Hdr.wf, hdrOf, hr.gp, hr.ec, hr.ru]


theorem wideErrs_encodes {i : Instr} {w : Nat} {r : Raw} (e : Encodes r i w) : wideErrs r = [] := by
  obtain ⟨op, gn, gp, s, ec, ru, z, x, d, a, b⟩ := r
  obtain ⟨-, hc, hm, -, -, eb, ew⟩ := e
  dsimp only at hc eb
  cases i
  all_goals cases hc
  case bra t j | call t j =>
    obtain ⟨ht, hj⟩ : t < 8192 ∧ _ := by simpa [modsWf] using hm
    obtain ⟨h1, h2, h3⟩ := @joinCode_lt j (by rintro k rfl; simpa using hj)
    have h4 : 2 ^ 26 ≤ joinCode j ∨ joinCode j = 0 := by cases j <;> simp [joinCode]
    simp only [wideErrs, ew rfl]
    simp; omega
  case brx j =>
    obtain ⟨h1, h2, h3⟩ := @joinCode_lt j (by rintro k rfl; simpa [modsWf] using hm)
    have h4 : 2 ^ 26 ≤ joinCode j ∨ joinCode j = 0 := by cases j <;> simp [joinCode]
    simp only [wideErrs, ew rfl]
    simp; omega
  case brdec =>
    have : w < 8192 := by simpa [modsWf] using hm
    simp only [wideErrs, ew rfl]
    simp; omega
  case ovlj c bk t =>
    have : t < 8192 := by simpa [modsWf] using hm
    have := bit_le bk
    simp only [wideErrs, ew rfl]
    simp; omega
  case fcvt dst src rm _ _ =>
    have hb : num 1048576 b = dst + 256 * src := eb.2
    simp only [wideErrs]
    simp [modsWf] at hm ⊢; unfold num at hb; omega
  all_goals rfl

theorem hdrOf_encoded (h : Hdr) (op z x d a b : Nat) : hdrOf ⟨op, bit h.gn, h.gp, bit h.s, h.ec, h.ru, z, x, d, a, b⟩ = h := by
  simp [hdrOf]

/-- A wide A goes with a wide B. -/
theorem wide_iff (i : Instr) : (instrForm i).a = .wide ↔ (instrForm i).b = .wide := by
  cases i
  all_goals unfold instrForm; simp


theorem opx_of_hdr {i : Instr} {h : Hdr} (hh : i.hdr = some h) : ∃ op x w, opx i = some (op, x, w) := by
  cases i
  all_goals cases hh
  all_goals exact ⟨_, _, _, rfl⟩

/-- The encoder's field in position A or B: part `v` of W when the form takes W, else the operand's. -/
theorem encoded_field {s : Slot} {v : Nat} (hs : slotWf .max s = true) (hv : v < 4194304) :
    ∃ f, (if s = .wide then v else slotField s) = f ∧ f < 4194304 ∧ Reads f s ∧ fieldErrs .max f s = [] ∧ (s = .wide → f = v) := by
  refine ⟨_, rfl, ?_⟩
  by_cases hw : s = .wide
  · subst hw; exact ⟨by simpa using hv, trivial, rfl, fun _ => rfl⟩
  · rw [if_neg hw]
    exact ⟨(fieldErrs_slotField hs).1, reads_slotField hs, (fieldErrs_slotField hs).2, fun h => absurd h hw⟩

theorem decodeRaw_encodeRaw {i : Instr} {h : Hdr} (hh : i.hdr = some h) (hwf : i.wf = true) :
    ∃ r, encodeRaw i = some r ∧ r.Fits ∧ decodeRaw .max r = .ok i := by
  obtain ⟨hhw, hm, hd, ha, hb, hx⟩ := (wf_iff hh).1 hwf
  simp only [Hdr.wf, Bool.and_eq_true, decide_eq_true_eq] at hhw
  obtain ⟨⟨hgp, hec⟩, hru⟩ := hhw
  obtain ⟨op, x, w, hc⟩ := opx_of_hdr hh
  obtain ⟨ho, hk, hxx, hww⟩ := opx_fits hc hm
  obtain ⟨a, hae, la, ra, ea, wa⟩ := encoded_field (v := w / 4194304) ha (by omega)
  obtain ⟨b, hbe, lb, rb, eb, wb⟩ := encoded_field (v := w % 4194304) hb (by omega)
  obtain ⟨ld, ed⟩ := fieldErrs_slotField hd
  have hg (b : Bool) : bit b < 2 := Nat.lt_succ_of_le (bit_le b)
  have hw : (instrForm i).b = .wide → a * 4194304 + b = w := fun hwd => by
    rw [wa ((wide_iff i).2 hwd), wb hwd, Nat.div_add_mod']
  have hr : encodeRaw i = some ⟨op, bit h.gn, h.gp, bit h.s, h.ec, h.ru, 0, x, slotField (instrForm i).d, a, b⟩ := by
    simp only [encodeRaw, hh, hc, hae, hbe]
  have hz : hdrOf ⟨op, bit h.gn, h.gp, bit h.s, h.ec, h.ru, 0, x, slotField (instrForm i).d, a, b⟩ = h := hdrOf_encoded ..
  have e : Encodes ⟨op, bit h.gn, h.gp, bit h.s, h.ec, h.ru, 0, x, slotField (instrForm i).d, a, b⟩ i w :=
    ⟨hh.trans (congrArg some hz.symm), hc, hm, reads_slotField hd, ra, rb, hw⟩
  exact ⟨_, hr, ⟨ho, hg _, hgp, hg _, hec, hru, Nat.succ_pos 3, hxx, ld, la, lb⟩, decodeRaw_eq_ok.2
    ⟨hk, candidate_encodes e, wordErrs_eq_nil.2 ⟨rfl, wideErrs_encodes e, ed, ea, eb, hx⟩⟩⟩

/-- Settles O22: the encoder's fields read back as the instruction, and what passes the checks of a field is well-formed. -/
theorem encodeDecode : Obligations.EncodeDecode := by
  refine ⟨fun i h hh hwf => ?_, fun w i _ hw => ?_⟩
  · obtain ⟨r, hr, hf, hd⟩ := decodeRaw_encodeRaw hh hwf
    exact ⟨joinWord r, joinWord_lt hf, by rw [encode, hr]; rfl, by rw [decode, splitWord_joinWord hf, hd]⟩
  · obtain ⟨hwf, hh⟩ := wf_of_decodeRaw (splitWord_fits w) hw
    exact ⟨hwf, _, hh⟩

end Sys2Proof
end

section

namespace Sys2Proof.Machine

/-! ### Examples of words; reset -/

/-- Settles O21, by evaluating the decoder on each word. -/
theorem decodeExamples : Obligations.DecodeExamples := by
  unfold Obligations.DecodeExamples
  decide

theorem bankOf_reset (core : Nat) (bank : Bool) : bankOf State.reset core bank = bankReset := rfl

/-- With nothing in the instruction memories a word reads as all ones. -/
theorem wordAt_of_imem_nil {s : State} (h : s.imem = []) (core : Nat) (pc : Pc) : wordAt s core pc = 2 ^ 96 - 1 := by
  have hread (k : Nat) : tget 0xFF#8 s.imem k = 0xFF#8 := by
    rw [h]
    rfl
  simp only [wordAt, hread]
  decide

/-- Settles O24: every table is empty after reset, so each reads as its default. -/
theorem resetValues : Obligations.ResetValues := by
  refine ⟨rfl, rfl, rfl, rfl, ?_, rfl, fun _ _ => rfl, fun _ _ => rfl, fun _ => rfl, fun _ _ => rfl, ?_⟩
  · intro sp a
    cases sp <;> rfl
  · intro core pc _
    exact ⟨wordAt_of_imem_nil rfl core pc, by simp [overrun, bankOf_reset, bankReset]⟩

end Sys2Proof.Machine

end

section

namespace Sys2Proof.Machine

/-! ### Instructions whose meaning faults -/

/-- An instruction whose meaning fails on the issuing squad raises that fault. -/
theorem raises_of_fail {i : Instr} {s : State} {id : Nat} {q : Squad} {p : Path} {h : Hdr} {cls : Nat} {occ : Occ}
    {body : Iss → State → Res} {code sub : Nat} (hI : Issues s id q p h cls) (hexec : exec i s = issue h cls occ s body)
    (hbody : body (seen id q p h) (issued s id q p h cls occ) =
      failI (issued s id q p h cls occ) (seen id q p h) code sub) (hcode : code ≠ 1) :
    Raises i s id q p (mkFault code sub (runs p h q) p) := by
  obtain ⟨t, ht, hdel⟩ := fault_done (f := mkFault code sub (runs p h q) p) hI hbody rfl hcode
  exact ⟨t, hexec.trans ht, hdel⟩

/-- A state that differs in squads, budgets and the counter alone holds the same tasks. -/
theorem issued_tasks {s : State} {id : Nat} {q : Squad} {p : Path} {h : Hdr} {cls : Nat} (occ : Occ)
    (hI : Issues s id q p h cls) : (issued s id q p h cls occ).tasks = s.tasks := by
  obtain ⟨-, -, -, heq, -⟩ := issued_squad s id q p h cls occ hI
  rw [heq]

theorem taskOf_issued {s : State} {id : Nat} {q : Squad} {p : Path} {h : Hdr} {cls : Nat} (occ : Occ)
    (hI : Issues s id q p h cls) (k : Nat) : taskOf (issued s id q p h cls occ) k = taskOf s k := by
  rw [taskOf, issued_tasks occ hI, taskOf]

/-- Privilege is the model's own check, on the task as before the issue. -/
theorem privileged_issued {s : State} {id : Nat} {q : Squad} {p : Path} {h : Hdr} {cls : Nat} (occ : Occ)
    (hI : Issues s id q p h cls) : privileged (issued s id q p h cls occ) q = mayPriv s q := by
  simp only [privileged, mayPriv, taskPriv, trPriv, trOf, taskOf_issued occ hI]

/-- Without privilege a privileged instruction fails before its own meaning. -/
theorem privForm_raises {i : Instr} {s : State} {id : Nat} {q : Squad} {p : Path} {h : Hdr} {cls : Nat}
    {body : Iss → State → Res} (hI : Issues s id q p h cls) (hexec : exec i s = privForm h cls s body)
    (hpriv : mayPriv s q = false) : Raises i s id q p (mkFault 0x02 0 (runs p h q) p) :=
  raises_of_fail hI hexec (by simp [seen, privileged_issued (.once 1) hI, hpriv]) (by decide)

/-- With privilege, and an active thread, it fails when its own meaning does. -/
theorem privForm_meaning_raises {i : Instr} {s : State} {id : Nat} {q : Squad} {p : Path} {h : Hdr} {cls code sub : Nat}
    {body : Iss → State → Res} (hI : Issues s id q p h cls) (hexec : exec i s = privForm h cls s body)
    (hpriv : mayPriv s q = true) (hact : runs p h q ≠ 0)
    (hbody : body (seen id q p h) (issued s id q p h cls (.once 1)) =
      failI (issued s id q p h cls (.once 1)) (seen id q p h) code sub) (hcode : code ≠ 1) :
    Raises i s id q p (mkFault code sub (runs p h q) p) := by
  have hact' : (seen id q p h).act ≠ 0 := hact
  have hpriv' : privileged (issued s id q p h cls (.once 1)) (seen id q p h).q = true :=
    (privileged_issued (.once 1) hI).trans hpriv
  refine raises_of_fail hI hexec ?_ hcode
  simp only [hpriv', if_neg hact']
  exact hbody

theorem exec_csrRd (h : Hdr) (sd n : Nat) (s : State) : exec (.csrRd h sd n) s = execCsrRd h sd n s := rfl
theorem exec_csrWr (h : Hdr) (n : Nat) (a : Opnd) (s : State) : exec (.csrWr h n a) s = execCsrWr h n a s := rfl
theorem exec_tret (h : Hdr) (s : State) : exec (.tret h) s = execTret h s := rfl
theorem exec_halt (h : Hdr) (b : Opnd) (s : State) : exec (.halt h b) s = execHalt h b s := rfl
theorem minClass_csrRd (h : Hdr) (sd n : Nat) : minClass (.csrRd h sd n) = 1 := rfl
theorem minClass_csrWr (h : Hdr) (n : Nat) (a : Opnd) : minClass (.csrWr h n a) = 1 := rfl
theorem minClass_tret (h : Hdr) : minClass (.tret h) = 1 := rfl
theorem minClass_halt (h : Hdr) (b : Opnd) : minClass (.halt h b) = 0 := rfl

/-- Settles O19: the check of privilege comes before the guard and before each meaning. -/
theorem privilegeIsChecked : Obligations.PrivilegeIsChecked := by
  intro i h s id q p hi hI
  constructor
  · intro hpriv
    rcases hi with ⟨sd, n, rfl⟩ | ⟨n, a, rfl⟩ | rfl | ⟨b, rfl⟩
    · exact privForm_raises (minClass_csrRd h sd n ▸ hI) (exec_csrRd h sd n s) hpriv
    · exact privForm_raises (minClass_csrWr h n a ▸ hI) (exec_csrWr h n a s) hpriv
    · exact privForm_raises (minClass_tret h ▸ hI) (exec_tret h s) hpriv
    · exact privForm_raises (minClass_halt h b ▸ hI) (exec_halt h b s) hpriv
  · rintro hpriv htrap hact rfl
    refine privForm_meaning_raises (minClass_tret h ▸ hI) (exec_tret h s) hpriv hact ?_ (by decide)
    simp [seen, htrap]

/-! ### The join records of the issuing squad -/

/-- The issuing squad, debited and counted, has its join records as before. -/
theorem squadOf_issued_joins {s : State} {id : Nat} {q : Squad} {p : Path} {h : Hdr} {cls : Nat} (occ : Occ)
    (hI : Issues s id q p h cls) :
    ∃ q1, squadOf (issued s id q p h cls occ) id = some q1 ∧ q1.joins = q.joins := by
  obtain ⟨q1, hq1, -, -, heq⟩ := issued_squad s id q p h cls occ hI
  exact ⟨q1, hq1, by rw [heq]⟩

/-- A key of a list is one that it holds an entry for. -/
theorem aget_isSome {α : Type} (m : Assoc α) (n : Nat) : (aget m n).isSome = (m.map (·.1)).contains n := by
  induction m with
  | nil => rfl
  | cons e r ih =>
    obtain ⟨k, v⟩ := e
    by_cases hk : k = n
    · simp [aget, hk]
    · have hk' : (n == k) = false := beq_eq_false_iff_ne.2 (Ne.symm hk)
      rw [aget, if_neg hk, ih, List.map_cons, List.contains_cons, hk', Bool.false_or]

/-- No join record is free when all sixteen are in use. -/
theorem freeJoin_eq_none {q : Squad} (hall : ((List.range 16).all fun n => (aget q.joins n).isSome) = true) :
    freeJoin q = none := by
  simp only [freeJoin, firstFree, List.find?_eq_none]
  intro n hn
  have hsome := List.all_eq_true.1 hall n hn
  rw [aget_isSome] at hsome
  rw [hsome]
  decide

theorem splitPath_eq_none {q : Squad} (hfree : freeJoin q = none) (p : Path) (t : Mask) (target : Pc) (ret : List Pc)
    (j : Nat) : splitPath p t target ret j q = none := by
  simp [splitPath, hfree]

/-! ### Faults of control instructions -/

section
variable {s : State} {id : Nat} {q : Squad} {p : Path} {h : Hdr} {cls : Nat} {occ : Occ}

/-- A branch of some threads that names no join fails. -/
theorem branch_without_join (target : Pc) (ret : List Pc) (hact : runs p h q ≠ 0) (hpart : runs p h q ≠ p.exm) :
    branch s (seen id q p h) target ret none = failI s (seen id q p h) 0x12 4 := by
  have hact' : (seen id q p h).act ≠ 0 := hact
  have hpart' : (seen id q p h).act ≠ (seen id q p h).path.exm := hpart
  simp only [branch, if_neg hact', if_neg hpart', failE, eSTACK]

/-- A branch of some threads fails when no join record is free. -/
theorem branch_without_record (hI : Issues s id q p h cls) (target : Pc) (ret : List Pc) (j : Nat)
    (hact : runs p h q ≠ 0) (hpart : runs p h q ≠ p.exm)
    (hall : ((List.range 16).all fun n => (aget q.joins n).isSome) = true) :
    branch (issued s id q p h cls occ) (seen id q p h) target ret (some j) =
      failI (issued s id q p h cls occ) (seen id q p h) 0x12 3 := by
  obtain ⟨q1, hq1, hj⟩ := squadOf_issued_joins occ hI
  have hnone : freeJoin q1 = none := freeJoin_eq_none (by rw [hj]; exact hall)
  have hact' : (seen id q p h).act ≠ 0 := hact
  have hpart' : (seen id q p h).act ≠ (seen id q p h).path.exm := hpart
  have hsq : squadOf (issued s id q p h cls occ) (seen id q p h).id = some q1 := hq1
  simp only [branch, if_neg hact', if_neg hpart', hsq, Option.bind_some, splitPath_eq_none hnone, failE, eSTACK]

/-- A full return stack takes no push. -/
theorem pushRet_full (hfull : 16 ≤ p.ret.length) : pushRet (seen id q p h) = none := by
  simp [pushRet, seen, hfull]

theorem depthFloor_issued (hI : Issues s id q p h cls) :
    depthFloor (issued s id q p h cls occ) (seen id q p h) = floorOf q p := by
  obtain ⟨q1, hq1, hj⟩ := squadOf_issued_joins occ hI
  have hsq : squadOf (issued s id q p h cls occ) (seen id q p h).id = some q1 := hq1
  simp only [depthFloor, hsq, Option.bind_some, hj, floorOf]
  have hp : (seen id q p h).path = p := rfl
  rw [hp]
  cases p.jrec.bind (aget q.joins) <;> rfl

theorem holdsBank_issued (hI : Issues s id q p h cls) (bank : Bool) :
    holdsBank (issued s id q p h cls occ) q bank = bankHeld s q bank := by
  simp only [holdsBank, bankHeld, taskOf_issued occ hI]
  cases taskOf s q.task <;> rfl

/-- A transfer of the whole path fails when some of its threads stay. -/
theorem whole_of_part (f : Unit → Res) (hact : runs p h q ≠ 0) (hpart : runs p h q ≠ p.exm) :
    whole s (seen id q p h) f = failI s (seen id q p h) 0x12 4 := by
  have hact' : (seen id q p h).act ≠ 0 := hact
  have hpart' : (seen id q p h).act ≠ (seen id q p h).path.exm := hpart
  simp only [whole, if_neg hact', if_neg hpart', failE, eSTACK]

theorem whole_of_all (f : Unit → Res) (hact : runs p h q ≠ 0) (hall : runs p h q = p.exm) :
    whole s (seen id q p h) f = f () := by
  have hact' : (seen id q p h).act ≠ 0 := hact
  have hall' : (seen id q p h).act = (seen id q p h).path.exm := hall
  simp only [whole, if_neg hact', if_pos hall']

end

theorem exec_bra (h : Hdr) (t : Nat) (jn : Option Nat) (s : State) : exec (.bra h t jn) s = execBra h t jn s := rfl
theorem exec_brx (h : Hdr) (n : Nat) (jn : Option Nat) (s : State) : exec (.brx h n jn) s = execBrx h n jn s := rfl
theorem exec_call (h : Hdr) (t : Nat) (jn : Option Nat) (s : State) : exec (.call h t jn) s = execCall h t jn s := rfl
theorem exec_ret (h : Hdr) (s : State) : exec (.ret h) s = execRet h s := rfl
theorem exec_ovlj (h : Hdr) (call bank : Bool) (t : Nat) (s : State) :
    exec (.ovlj h call bank t) s = execOvlj h call bank t s := rfl
theorem exec_join (h : Hdr) (s : State) : exec (.join h) s = execJoin h s := rfl

section
variable {s : State} {id : Nat} {q : Squad} {p : Path} {h : Hdr}

/-- Of a branch, when some threads go and others stay: no join is named, or no join record is free. -/
theorem branch_raises {i : Instr} {cls sub : Nat} {occ : Occ} {jn : Option Nat} {target : Iss → Pc}
    (hexec : exec i s = issue h cls occ s fun x s => branch s x (target x) x.path.ret jn) (hI : Issues s id q p h cls)
    (hact : runs p h q ≠ 0) (hpart : runs p h q ≠ p.exm)
    (hwhy : (jn = none ∧ sub = 4) ∨
      (jn.isSome = true ∧ sub = 3 ∧ ((List.range 16).all fun n => (aget q.joins n).isSome) = true)) :
    Raises i s id q p (mkFault 0x12 sub (runs p h q) p) := by
  rcases hwhy with ⟨rfl, rfl⟩ | ⟨hj, rfl, hall⟩
  · exact raises_of_fail hI hexec (branch_without_join _ p.ret hact hpart) (by decide)
  · obtain ⟨j, rfl⟩ := Option.isSome_iff_exists.1 hj
    exact raises_of_fail hI hexec (branch_without_record hI _ p.ret j hact hpart hall) (by decide)

/-- Of a call: a split that names no join, then a full return stack, then a split without a free join record. -/
theorem call_raises {t sub : Nat} {jn : Option Nat} (hI : Issues s id q p h 1) (hact : runs p h q ≠ 0)
    (hwhy : (runs p h q ≠ p.exm ∧ jn = none ∧ sub = 4) ∨
      (¬ (runs p h q ≠ p.exm ∧ jn = none) ∧ 16 ≤ p.ret.length ∧ sub = 1) ∨
      (p.ret.length < 16 ∧ runs p h q ≠ p.exm ∧ jn.isSome = true ∧ sub = 3 ∧
        ((List.range 16).all fun n => (aget q.joins n).isSome) = true)) :
    Raises (.call h t jn) s id q p (mkFault 0x12 sub (runs p h q) p) := by
  have hact' : (seen id q p h).act ≠ 0 := hact
  rcases hwhy with ⟨hpart, rfl, rfl⟩ | ⟨hnot, hfull, rfl⟩ | ⟨hroom, hpart, hj, rfl, hall⟩
  · have hpart' : (seen id q p h).act ≠ (seen id q p h).path.exm := hpart
    refine raises_of_fail hI (exec_call h t none s) ?_ (by decide)
    rw [if_neg hact', if_pos ⟨hpart', rfl⟩]
    rfl
  · have hnot' : ¬ ((seen id q p h).act ≠ (seen id q p h).path.exm ∧ jn.isNone = true) := by
      rw [Option.isNone_iff_eq_none]
      exact hnot
    refine raises_of_fail hI (exec_call h t jn s) ?_ (by decide)
    rw [if_neg hact', if_neg hnot', pushRet_full hfull]
    rfl
  · obtain ⟨j, rfl⟩ := Option.isSome_iff_exists.1 hj
    have hpush : pushRet (seen id q p h) = some (nextPc p.pc :: p.ret) := if_neg (Nat.not_le.2 hroom)
    refine raises_of_fail hI (exec_call h t (some j) s) ?_ (by decide)
    rw [if_neg hact', if_neg (by simp), hpush]
    exact branch_without_record hI _ _ j hact hpart hall

/-- Of a return: some threads stay, the stack is empty, or the pop would go below the innermost record's depth. -/
theorem ret_raises {sub : Nat} (hI : Issues s id q p h 1) (hact : runs p h q ≠ 0)
    (hwhy : (runs p h q ≠ p.exm ∧ sub = 4) ∨ (runs p h q = p.exm ∧ p.ret = [] ∧ sub = 2) ∨
      (runs p h q = p.exm ∧ p.ret ≠ [] ∧ p.ret.length ≤ floorOf q p ∧ sub = 7)) :
    Raises (.ret h) s id q p (mkFault 0x12 sub (runs p h q) p) := by
  refine raises_of_fail hI (exec_ret h s) ?_ (by decide)
  rcases hwhy with ⟨hpart, rfl⟩ | ⟨hall, hret, rfl⟩ | ⟨hall, hret, hfloor, rfl⟩
  · exact whole_of_part _ hact hpart
  · have hret' : (seen id q p h).path.ret = [] := hret
    rw [whole_of_all _ hact hall, hret']
    rfl
  · obtain ⟨pc, r, hcons⟩ := List.exists_cons_of_ne_nil hret
    have hret' : (seen id q p h).path.ret = pc :: r := hcons
    have hlow : r.length < floorOf q p := by
      rw [hcons, List.length_cons] at hfloor
      omega
    rw [whole_of_all _ hact hall, hret']
    simp only [depthFloor_issued hI, if_pos hlow]
    rfl

/-- Of an overlay jump: some threads stay, the bank is not the task's, or the return stack of a call is full. -/
theorem ovlj_raises {t code sub : Nat} {call bank : Bool} (hI : Issues s id q p h 2) (hact : runs p h q ≠ 0)
    (hwhy : (runs p h q ≠ p.exm ∧ code = 0x12 ∧ sub = 4) ∨
      (runs p h q = p.exm ∧ bankHeld s q bank = false ∧ code = 0x07 ∧ sub = 1) ∨
      (runs p h q = p.exm ∧ bankHeld s q bank = true ∧ call = true ∧ 16 ≤ p.ret.length ∧ code = 0x12 ∧ sub = 1)) :
    Raises (.ovlj h call bank t) s id q p (mkFault code sub (runs p h q) p) := by
  rcases hwhy with ⟨hpart, rfl, rfl⟩ | ⟨hall, hbank, rfl, rfl⟩ | ⟨hall, hbank, rfl, hfull, rfl, rfl⟩
  · exact raises_of_fail hI (exec_ovlj h call bank t s) (whole_of_part _ hact hpart) (by decide)
  · refine raises_of_fail hI (exec_ovlj h call bank t s) ?_ (by decide)
    have hheld : holdsBank (issued s id q p h 2 (.once 1)) (seen id q p h).q bank = false :=
      (holdsBank_issued hI bank).trans hbank
    rw [whole_of_all _ hact hall, if_pos (by rw [hheld]; rfl)]
    rfl
  · refine raises_of_fail hI (exec_ovlj h true bank t s) ?_ (by decide)
    have hheld : holdsBank (issued s id q p h 2 (.once 1)) (seen id q p h).q bank = true :=
      (holdsBank_issued hI bank).trans hbank
    rw [whole_of_all _ hact hall, pushRet_full hfull, if_neg (by rw [hheld]; decide)]
    rfl

/-- Of a join: the depth is not that of the innermost record, which names the index, or the record around it names the index. -/
theorem join_raises {sub : Nat} {r : JoinRec} (hI : Issues s id q p h 1) (hrec : p.jrec.bind (aget q.joins) = some r)
    (hwhy : (r.join = p.pc ∧ p.ret.length ≠ r.rdepth ∧ sub = 5) ∨
      (r.join ≠ p.pc ∧ (∃ o, r.outer.bind (aget q.joins) = some o ∧ o.join = p.pc) ∧ sub = 6)) :
    Raises (.join h) s id q p (mkFault 0x12 sub (runs p h q) p) := by
  obtain ⟨q1, hq1, hj⟩ := squadOf_issued_joins (.once 1) hI
  have hsq : squadOf (issued s id q p h 1 (.once 1)) (seen id q p h).id = some q1 := hq1
  have hchain : joinChain q1 16 (seen id q p h).path.jrec = r :: joinChain q1 15 r.outer := by
    have hrec' : (seen id q p h).path.jrec.bind (aget q1.joins) = some r := hj ▸ hrec
    rw [joinChain, hrec']
  refine raises_of_fail hI (exec_join h s) ?_ (by decide)
  simp only [joinStep, hsq, hchain]
  rcases hwhy with ⟨hpc, hdepth, rfl⟩ | ⟨hpc, ⟨o, ho, hopc⟩, rfl⟩
  · have hpc' : r.join = (seen id q p h).path.pc := hpc
    have hdepth' : (seen id q p h).path.ret.length ≠ r.rdepth := hdepth
    rw [if_pos hpc', if_pos hdepth']
    rfl
  · have hpc' : ¬ r.join = (seen id q p h).path.pc := hpc
    have hany : ((joinChain q1 15 r.outer).any fun o => o.join = (seen id q p h).path.pc) = true := by
      rw [joinChain, hj, ho, List.any_cons]
      simp [seen, hopc]
    rw [if_neg hpc', if_pos hany]
    rfl

end

/-- Settles O12: each condition of the table is the branch of the meaning that fails. -/
theorem controlFaults : Obligations.ControlFaults := by
  intro i h cls code sub s id q p hf hI
  cases i
  case bra h' t jn =>
    cases jn with
    | none =>
      simp only [controlFault] at hf
      split_ifs at hf with hc
      cases hf
      simp only [Bool.and_eq_true, bne_iff_ne] at hc
      exact branch_raises (exec_bra h t none s) hI hc.1 hc.2 (.inl ⟨rfl, rfl⟩)
    | some j =>
      simp only [controlFault] at hf
      split_ifs at hf with hc
      cases hf
      simp only [Bool.and_eq_true, bne_iff_ne, decide_eq_true_eq] at hc
      obtain ⟨⟨hact, hpart⟩, hall⟩ := hc
      exact branch_raises (exec_bra h t (some j) s) hI hact hpart (.inr ⟨rfl, rfl, hall⟩)
  case brx h' n jn =>
    cases jn with
    | none =>
      simp only [controlFault] at hf
      split_ifs at hf with hc
      cases hf
      simp only [Bool.and_eq_true, bne_iff_ne] at hc
      exact branch_raises (exec_brx h n none s) hI hc.1 hc.2 (.inl ⟨rfl, rfl⟩)
    | some j =>
      simp only [controlFault] at hf
      split_ifs at hf with hc
      cases hf
      simp only [Bool.and_eq_true, bne_iff_ne, decide_eq_true_eq] at hc
      obtain ⟨⟨hact, hpart⟩, hall⟩ := hc
      exact branch_raises (exec_brx h n (some j) s) hI hact hpart (.inr ⟨rfl, rfl, hall⟩)
  case call h' t jn =>
    cases jn with
    | none =>
      simp only [controlFault] at hf
      split_ifs at hf with hpart hfull
      · cases hf
        simp only [Bool.and_eq_true, bne_iff_ne] at hpart
        exact call_raises hI hpart.1 (.inl ⟨hpart.2, rfl, rfl⟩)
      · cases hf
        simp only [Bool.and_eq_true, bne_iff_ne, decide_eq_true_eq, not_and] at hpart hfull
        exact call_raises hI hfull.1 (.inr (.inl ⟨fun hn => hpart hfull.1 hn.1, hfull.2, rfl⟩))
    | some j =>
      simp only [controlFault] at hf
      split_ifs at hf with hfull hsplit
      · cases hf
        simp only [Bool.and_eq_true, bne_iff_ne, decide_eq_true_eq] at hfull
        exact call_raises hI hfull.1 (.inr (.inl ⟨by simp, hfull.2, rfl⟩))
      · cases hf
        simp only [Bool.and_eq_true, bne_iff_ne, decide_eq_true_eq, not_and, not_le] at hfull hsplit
        obtain ⟨⟨hact, hpart⟩, hall⟩ := hsplit
        exact call_raises hI hact (.inr (.inr ⟨hfull hact, hpart, rfl, rfl, hall⟩))
  case ret h' =>
    simp only [controlFault] at hf
    split_ifs at hf with hpart hact hnil hlow
    · cases hf
      simp only [Bool.and_eq_true, bne_iff_ne] at hpart
      exact ret_raises hI hpart.1 (.inl ⟨hpart.2, rfl⟩)
    all_goals
      cases hf
      simp only [Bool.and_eq_true, bne_iff_ne, not_and, not_not] at hpart
    · exact ret_raises hI hact (.inr (.inl ⟨hpart hact, hnil, rfl⟩))
    · exact ret_raises hI hact (.inr (.inr ⟨hpart hact, hnil, hlow, rfl⟩))
  case ovlj h' call bank t =>
    simp only [controlFault] at hf
    split_ifs at hf with hpart hact hbank hfull
    · cases hf
      simp only [Bool.and_eq_true, bne_iff_ne] at hpart
      exact ovlj_raises hI hpart.1 (.inl ⟨hpart.2, rfl, rfl⟩)
    all_goals
      cases hf
      simp only [Bool.and_eq_true, bne_iff_ne, not_and, not_not] at hpart
    · exact ovlj_raises hI hact (.inr (.inl ⟨hpart hact, by simpa using hbank, rfl, rfl⟩))
    · simp only [Bool.and_eq_true, decide_eq_true_eq] at hfull
      obtain ⟨hcall, -, hlen⟩ := hfull
      exact ovlj_raises hI hact (.inr (.inr ⟨hpart hact, by simpa using hbank, hcall, hlen, rfl, rfl⟩))
  case join h' =>
    simp only [controlFault] at hf
    split at hf
    next => cases hf
    next r hrec =>
      split_ifs at hf with hpc hdepth
      · cases hf
        exact join_raises hI hrec (.inl ⟨hpc, hdepth, rfl⟩)
      · split at hf
        next o ho =>
          split_ifs at hf with hopc
          cases hf
          exact join_raises hI hrec (.inr ⟨hpc, ⟨o, ho, hopc⟩, rfl⟩)
        next => cases hf
  all_goals cases hf

end Sys2Proof.Machine

end

section

namespace Sys2Proof.Machine

/-! ### Register writes of the active threads -/

theorem mem_threadsOf {m : Mask} {t : Nat} : t ∈ threadsOf m ↔ t < 32 ∧ bitM m t = true := by
  simp [threadsOf]

theorem bitM_oneBit (t : Nat) {u : Nat} (hu : u < 32) : bitM (1 <<< t : Mask) u = decide (u = t) := by
  show (BitVec.ofNat 32 (1 <<< t)).getLsbD u = _
  rw [BitVec.getLsbD_ofNat, Nat.one_shiftLeft, Nat.testBit_two_pow]
  simp [hu, eq_comm]

theorem bitM_setBit (m : Mask) (t : Nat) {u : Nat} (hu : u < 32) :
    bitM (m ||| (1 <<< t : Mask)) u = if u = t then true else bitM m u := by
  have h := bitM_oneBit t hu
  unfold bitM at h ⊢
  rw [BitVec.getLsbD_or, h]
  by_cases ht : u = t <;> simp [ht]

theorem bitM_clearBit (m : Mask) (t : Nat) {u : Nat} (hu : u < 32) :
    bitM (m &&& ~~~(1 <<< t : Mask)) u = if u = t then false else bitM m u := by
  have h := bitM_oneBit t hu
  unfold bitM at h ⊢
  rw [BitVec.getLsbD_and, BitVec.getLsbD_not, h]
  by_cases ht : u = t <;> simp [ht, hu]

/-- A predicate write is read back in its thread, unless it is one to p0. -/
theorem rdP_applyW_p (q : Squad) (n t r : Nat) {u : Nat} (x : Bool) (hu : u < 32) :
    rdP (applyW (.p n t x) q) r u = if u = t ∧ r = n ∧ r ≠ 0 then x else rdP q r u := by
  by_cases hn : n = 0
  · subst hn
    rw [if_neg (by rintro ⟨-, h0, h1⟩; exact h1 h0)]
    rfl
  by_cases hr : r = n
  · subst hr
    have hr0 : (r == 0) = false := beq_eq_false_iff_ne.2 hn
    rw [applyW, if_neg hn]
    simp only [rdP, hr0, Bool.false_or, tget_tset_same, ne_eq, hn, not_false_eq_true, and_true]
    cases x
    · exact bitM_clearBit (tget 0 q.p r) t hu
    · exact bitM_setBit (tget 0 q.p r) t hu
  · simp [applyW, rdP, hn, hr, tget_tset_ne]

/-- The predicate `n` after a list of threads has written it. -/
theorem rdP_applyWs_p (q : Squad) (n r : Nat) {u : Nat} (ts : List Nat) (f : Nat → Bool) (hu : u < 32) :
    rdP (applyWs (ts.map fun t => .p n t (f t)) q) r u = if u ∈ ts ∧ r = n ∧ r ≠ 0 then f u else rdP q r u := by
  induction ts generalizing q with
  | nil => simp [applyWs]
  | cons t ts ih =>
    rw [List.map_cons, applyWs, List.foldl_cons, ← applyWs, ih, rdP_applyW_p _ _ _ _ _ hu]
    by_cases hr : r = n ∧ r ≠ 0
    · by_cases hts : u ∈ ts
      · rw [if_pos ⟨hts, hr⟩, if_pos ⟨List.mem_cons_of_mem t hts, hr⟩]
      · by_cases ht : u = t
        · rw [if_neg fun h => hts h.1, if_pos ⟨ht, hr⟩, if_pos ⟨ht ▸ List.mem_cons_self, hr⟩, ht]
        · rw [if_neg fun h => hts h.1, if_neg fun h => ht h.1, if_neg]
          exact fun h => (List.mem_cons.1 h.1).elim ht hts
    · rw [if_neg fun h => hr h.2, if_neg fun h => hr h.2, if_neg fun h => hr h.2]

/-! ### Writes of one register file -/

/-- A write changes the file of its register alone. -/
theorem applyW_keeps (w : RegW) (q : Squad) :
    ((regKey w).1 ≠ 0 → (applyW w q).v = q.v) ∧ ((regKey w).1 ≠ 1 → (applyW w q).s = q.s) ∧
    ((regKey w).1 ≠ 2 → (applyW w q).p = q.p) ∧ ((regKey w).1 ≠ 3 → (applyW w q).b = q.b) ∧
    ((regKey w).1 ≠ 4 → (applyW w q).vi = q.vi) ∧ ((regKey w).1 ≠ 5 → (applyW w q).im = q.im) ∧
    ((regKey w).1 ≠ 6 → (applyW w q).flg = q.flg) := by
  cases w with
  | p r t x =>
    simp only [regKey, applyW]
    split <;> simp
  | _ => simp [regKey, applyW]

/-- Writes of one file keep the others. -/
theorem applyWs_keeps {k : Nat} (ws : List RegW) (q : Squad) (hws : ∀ w ∈ ws, (regKey w).1 = k) :
    (k ≠ 0 → (applyWs ws q).v = q.v) ∧ (k ≠ 1 → (applyWs ws q).s = q.s) ∧ (k ≠ 2 → (applyWs ws q).p = q.p) ∧
    (k ≠ 3 → (applyWs ws q).b = q.b) ∧ (k ≠ 4 → (applyWs ws q).vi = q.vi) ∧ (k ≠ 5 → (applyWs ws q).im = q.im) ∧
    (k ≠ 6 → (applyWs ws q).flg = q.flg) := by
  induction ws generalizing q with
  | nil => simp [applyWs]
  | cons w r ih =>
    obtain ⟨hv, hs, hp, hb, hvi, him, hflg⟩ := ih (applyW w q) fun a ha => hws a (List.mem_cons_of_mem w ha)
    have hw := applyW_keeps w q
    rw [hws w List.mem_cons_self] at hw
    obtain ⟨gv, gs, gp, gb, gvi, gim, gflg⟩ := hw
    rw [applyWs, List.foldl_cons, ← applyWs]
    exact ⟨fun h => (hv h).trans (gv h), fun h => (hs h).trans (gs h), fun h => (hp h).trans (gp h),
      fun h => (hb h).trans (gb h), fun h => (hvi h).trans (gvi h), fun h => (him h).trans (gim h),
      fun h => (hflg h).trans (gflg h)⟩

/-- The v-register `n` after a list of threads has written it. -/
theorem rdV_applyWs_v (q : Squad) (n r : Nat) {u : Nat} (ts : List Nat) (f : Nat → W32) (hts : ∀ t ∈ ts, t < 32)
    (hu : u < 32) :
    rdV (applyWs (ts.map fun t => .v n t (f t)) q) r u = if u ∈ ts ∧ r = n then f u else rdV q r u := by
  induction ts generalizing q with
  | nil => simp [applyWs]
  | cons t ts ih =>
    have ht : t < 32 := hts t List.mem_cons_self
    have hone : rdV (applyW (.v n t (f t)) q) r u = if u = t ∧ r = n then f u else rdV q r u := by
      rw [rdV, applyW, tget_tset, rdV]
      by_cases hk : n * 32 + t = r * 32 + u
      · have hkey : u = t ∧ r = n := by omega
        rw [if_pos hk, if_pos hkey, hkey.1]
      · rw [if_neg hk, if_neg]
        rintro ⟨rfl, rfl⟩
        exact hk rfl
    rw [List.map_cons, applyWs, List.foldl_cons, ← applyWs, ih _ fun a ha => hts a (List.mem_cons_of_mem t ha), hone]
    by_cases hmem : u ∈ ts ∧ r = n
    · rw [if_pos hmem, if_pos ⟨List.mem_cons_of_mem t hmem.1, hmem.2⟩]
    · by_cases hnew : u = t ∧ r = n
      · rw [if_neg hmem, if_pos hnew, if_pos ⟨hnew.1 ▸ List.mem_cons_self, hnew.2⟩]
      · rw [if_neg hmem, if_neg hnew, if_neg]
        rintro ⟨hcons, hr⟩
        exact (List.mem_cons.1 hcons).elim (fun ht => hnew ⟨ht, hr⟩) fun ht => hmem ⟨ht, hr⟩

theorem getsP_of_writes {n : Nat} {act : Mask} {q q' : Squad} {f : Nat → Bool}
    (hregs : SameRegs (applyWs ((threadsOf act).map fun t => .p n t (f t)) q) q') : GetsP n act q q' f := by
  intro r u hu
  obtain ⟨-, -, hp, -⟩ := hregs
  have hrd : rdP q' r u = rdP (applyWs ((threadsOf act).map fun t => .p n t (f t)) q) r u := by rw [rdP, hp, rdP]
  rw [hrd, rdP_applyWs_p q n r _ f hu]
  simp only [mem_threadsOf, hu, true_and]

/-- An instruction whose meaning writes one predicate in the active threads. -/
theorem predicate_done {i : Instr} {s : State} {id : Nat} {q : Squad} {p : Path} {h : Hdr} {n : Nat} {f : Squad → Nat → Bool}
    {g : Nat → Bool} (hI : Issues s id q p h 1) (hexec : exec i s = alu h 1 1 (.p n) (fun q t => [.p n t (f q t)]) s)
    (hfg : f q = g) :
    Writes i s id q p h fun q' => GetsP n (runs p h q) q q' g ∧ q'.v = q.v ∧ q'.s = q.s ∧ q'.b = q.b ∧ q'.vi = q.vi ∧
      q'.im = q.im ∧ q'.flg = q.flg := by
  subst hfg
  obtain ⟨t, q', ht, hwent, honly, hsame, hpend, hregs⟩ := fixed_done (occ := occOf (.p n) 1)
    (body := fun x s => .ok (putFixed s x ((execThreads (.p n) x.act).flatMap fun t => [.p n t (f x.q t)])))
    (ws := (threadsOf (runs p h q)).map fun t => .p n t (f q t)) hI (by rw [List.map_eq_flatMap]; rfl)
  obtain ⟨hv, hs, -, hb, hvi, him, hflg⟩ := applyWs_keeps (k := 2) ((threadsOf (runs p h q)).map fun t => .p n t (f q t)) q
    (by simp [regKey])
  refine ⟨t, q', hexec.trans ht, hwent, honly, hsame, hpend, getsP_of_writes hregs, ?_⟩
  obtain ⟨gv, gs, -, gb, gvi, gim, gflg⟩ := hregs
  exact ⟨gv.trans (hv (by decide)), gs.trans (hs (by decide)), gb.trans (hb (by decide)), gvi.trans (hvi (by decide)),
    gim.trans (him (by decide)), gflg.trans (hflg (by decide))⟩

/-! ### Integer comparison -/

theorem sextN_eq_toInt (w x : Nat) (hw : 0 < w) : sextN w x = (BitVec.ofNat w x).toInt := by
  have hpow : 2 ^ w = 2 * 2 ^ (w - 1) := by rw [← Nat.pow_succ', Nat.succ_eq_add_one, Nat.sub_add_cancel hw]
  rw [sextN, BitVec.toInt_eq_toNat_cond, BitVec.toNat_ofNat]
  by_cases hlt : 2 * (x % 2 ^ w) < 2 ^ w
  · rw [if_neg (by omega), if_pos hlt]
  · rw [if_pos (by omega), if_neg hlt]

theorem tyW_pos (ty : IType) : 0 < tyW ty := by cases ty <;> decide

theorem compare_cast (x y : Nat) : compare (x : Int) (y : Int) = compare x y := by
  rcases lt_trichotomy x y with h | h | h
  · rw [compare_lt_iff_lt.2 h, compare_lt_iff_lt.2 (Int.ofNat_lt.2 h)]
  · rw [h, compare_eq_iff_eq.2 rfl, compare_eq_iff_eq.2 rfl]
  · rw [compare_gt_iff_gt.2 h, compare_gt_iff_gt.2 (Int.ofNat_lt.2 h)]

/-- The model compares the integers that the operands stand for. -/
theorem cmpInt_eq_compare_val (ty : IType) (q : Squad) (a b : Opnd) (u : Nat) :
    cmpInt ty (rdInt q (tyW ty) a u) (rdInt q (tyW ty) b u) = compare (val ty q a u) (val ty q b u) := by
  by_cases hs : tySigned ty = true
  · simp only [cmpInt, val, raw, hs, if_true, sextN_eq_toInt _ _ (tyW_pos ty)]
  · rw [Bool.not_eq_true] at hs
    simp only [cmpInt, val, raw, hs, Bool.false_eq_true, if_false]
    exact (compare_cast _ _).symm

/-- The six conditions on integers. -/
theorem condInt_compare (c : Cond) (x y : Int) : c ∈ [Cond.eq, .ne, .lt, .le, .gt, .ge] →
    condInt c (compare x y) = (match c with
      | .eq => decide (x = y) | .ne => decide (x ≠ y) | .lt => decide (x < y) | .le => decide (x ≤ y)
      | .gt => decide (x > y) | .ge => decide (x ≥ y) | _ => false) := by
  intro hc
  rcases lt_trichotomy x y with h | h | h
  · have ho : compare x y = .lt := compare_lt_iff_lt.2 h
    rw [ho]
    fin_cases hc <;> simp [condInt, condF, h, h.le, h.ne, h.le.not_gt, h.not_ge]
  · have ho : compare x y = .eq := compare_eq_iff_eq.2 h
    rw [ho, h]
    fin_cases hc <;> simp [condInt, condF]
  · have ho : compare x y = .gt := compare_gt_iff_gt.2 h
    rw [ho]
    fin_cases hc <;> simp [condInt, condF, h, h.le, h.ne', h.le.not_gt, h.not_ge]

theorem exec_icmp (h : Hdr) (ty : IType) (c : Cond) (pd : Nat) (a b : Opnd) (s : State) :
    exec (.icmp h ty c pd a b) s = execIcmp h ty c pd a b s := rfl
theorem exec_fcmp (h : Hdr) (ft : FType) (c : Cond) (pd : Nat) (a b : Opnd) (s : State) :
    exec (.fcmp h ft c pd a b) s = execFcmp h ft c pd a b s := rfl
theorem exec_plop (h : Hdr) (lut pd pa pb : Nat) (s : State) : exec (.plop h lut pd pa pb) s = execPlop h lut pd pa pb s := rfl
theorem exec_pmaskSet (h : Hdr) (pd : Nat) (a : Opnd) (s : State) : exec (.pmaskSet h pd a) s = execPmaskSet h pd a s := rfl
theorem exec_flagsTest (h : Hdr) (pd m : Nat) (s : State) : exec (.flagsTest h pd m) s = execFlagsTest h pd m s := rfl

/-- Settles O3: each of the five instructions writes one predicate. -/
theorem predicateResults : Obligations.PredicateResults := by
  intro i h n f s id q p hi hwf hI
  cases i
  case icmp h' ty c pd a b =>
    have hc : c ∈ [Cond.eq, .ne, .lt, .le, .gt, .ge] := by
      simp only [Instr.wf, modsWf, Bool.and_eq_true, List.contains_iff_mem] at hwf
      exact hwf.1.1.1.1.2
    cases hi
    refine predicate_done hI (exec_icmp h ty c n a b s) (funext fun u => ?_)
    rw [cmpInt_eq_compare_val]
    exact condInt_compare c (val ty q a u) (val ty q b u) hc
  case fcmp h' ft c pd a b =>
    cases hi
    exact predicate_done hI (exec_fcmp h ft c n a b s) rfl
  case plop h' lut pd pa pb =>
    cases hi
    exact predicate_done hI (exec_plop h lut n pa pb s) rfl
  case pmaskSet h' pd a =>
    cases hi
    exact predicate_done hI (exec_pmaskSet h n a s) rfl
  case flagsTest h' pd m =>
    cases hi
    exact predicate_done hI (exec_flagsTest h n m s) rfl
  all_goals cases hi

end Sys2Proof.Machine

end

section

namespace Sys2Proof.Machine

/-! ### The ready list in the order of priority (R129) -/

theorem insertBehind_filter (p : Path) (n : Nat) (l : List Path) :
    (insertBehind p l).filter (fun a => a.ppri = n) = l.filter (fun a => a.ppri = n) ++ [p].filter fun a => a.ppri = n := by
  induction l with
  | nil => rfl
  | cons a r ih =>
    by_cases hany : ((a :: r).any fun b => decide (p.ppri ≤ b.ppri)) = true
    · have hstep : insertBehind p (a :: r) = [a] ++ insertBehind p r := by rw [insertBehind, if_pos hany, List.singleton_append]
      have hcons : a :: r = [a] ++ r := rfl
      rw [hstep, List.filter_append, ih, hcons, List.filter_append, List.append_assoc]
    · have hstep : insertBehind p (a :: r) = [p] ++ (a :: r) := by rw [insertBehind, if_neg hany, List.singleton_append]
      rw [hstep, List.filter_append]
      by_cases hp : p.ppri = n
      · have hnone : (a :: r).filter (fun a => a.ppri = n) = [] := by
          refine List.filter_eq_nil_iff.2 fun b hb hbn => hany (List.any_eq_true.2 ⟨b, hb, ?_⟩)
          simp only [decide_eq_true_eq] at hbn ⊢
          omega
        rw [hnone, List.append_nil, List.nil_append]
      · have hnone : [p].filter (fun a => a.ppri = n) = [] := by simp [hp]
        rw [hnone, List.append_nil, List.nil_append]

theorem mem_insertBehind {p a : Path} {l : List Path} : a ∈ insertBehind p l ↔ a = p ∨ a ∈ l := by
  induction l with
  | nil => simp [insertBehind]
  | cons b r ih =>
    rw [insertBehind]
    split
    · rw [List.mem_cons, ih, List.mem_cons]
      tauto
    · rw [List.mem_cons]

theorem ordered_insertBehind (p : Path) {l : List Path} (hl : ordered l) : ordered (insertBehind p l) := by
  induction l with
  | nil => exact List.pairwise_singleton _ p
  | cons a r ih =>
    obtain ⟨ha, hr⟩ := List.pairwise_cons.1 hl
    rw [insertBehind]
    split
    next hany =>
      refine List.pairwise_cons.2 ⟨fun b hb => ?_, ih hr⟩
      rcases mem_insertBehind.1 hb with rfl | hb
      · obtain ⟨c, hc, hle⟩ := List.any_eq_true.1 hany
        rw [decide_eq_true_eq] at hle
        rcases List.mem_cons.1 hc with rfl | hc
        · exact hle
        · exact hle.trans (ha c hc)
      · exact ha b hb
    next hany =>
      refine List.pairwise_cons.2 ⟨fun b hb => ?_, hl⟩
      have hb' : ¬ p.ppri ≤ b.ppri := fun hle => hany (List.any_eq_true.2 ⟨b, hb, by simpa using hle⟩)
      omega

/-- Insertion sort, from a list that is ordered already. -/
theorem foldl_insertBehind (ps acc : List Path) (hacc : ordered acc) :
    ordered (ps.foldl (fun acc p => insertBehind p acc) acc) ∧
      ∀ n, (ps.foldl (fun acc p => insertBehind p acc) acc).filter (fun a => a.ppri = n) =
        acc.filter (fun a => a.ppri = n) ++ ps.filter fun a => a.ppri = n := by
  induction ps generalizing acc with
  | nil => exact ⟨hacc, fun n => by simp⟩
  | cons p ps ih =>
    obtain ⟨ho, hf⟩ := ih (insertBehind p acc) (ordered_insertBehind p hacc)
    refine ⟨ho, fun n => ?_⟩
    rw [List.foldl_cons, hf n, insertBehind_filter, List.append_assoc, ← List.filter_append]
    rfl

theorem resorted_sortPaths (ps : List Path) : resorted ps (sortPaths ps) := by
  obtain ⟨ho, hf⟩ := foldl_insertBehind ps [] List.Pairwise.nil
  exact ⟨ho, fun n => by rw [sortPaths, hf n, List.filter_nil, List.nil_append]⟩

theorem mem_of_resorted {old new : List Path} (h : resorted old new) (a : Path) : a ∈ new ↔ a ∈ old := by
  have hmem : a ∈ new.filter (fun b => b.ppri = a.ppri) ↔ a ∈ old.filter (fun b => b.ppri = a.ppri) := by rw [h.2]
  simpa using hmem

/-- A change of the paths that keeps their priorities keeps their order. -/
theorem resorted_map {old new : List Path} (h : resorted old new) (f : Path → Path) (hf : ∀ a, (f a).ppri = a.ppri) :
    resorted (old.map f) (new.map f) := by
  obtain ⟨ho, hfil⟩ := h
  constructor
  · refine List.pairwise_map.2 (ho.imp fun {a b} hab => ?_)
    rwa [hf, hf]
  · intro n
    have hcomp : (fun a : Path => decide (a.ppri = n)) ∘ f = fun a => decide (a.ppri = n) := funext fun a => by simp [hf]
    rw [List.filter_map, List.filter_map, hcomp, hfil n]

/-- One path in the place of another. -/
theorem placePaths_one (p m : Path) (q : Squad) :
    resorted (inPlace p (fun _ => m) q.paths) (placePaths p.entry [m] q).paths := by
  have hmap : inPlace p (fun _ => m) q.paths = q.paths.flatMap fun a => if a.entry = p.entry then [m] else [a] := by
    rw [inPlace, List.map_eq_flatMap]
    congr 1
    funext a
    split <;> rfl
  rw [hmap]
  exact resorted_sortPaths _

/-- A path taken out of the table. -/
theorem placePaths_none (p : Path) (q : Squad) :
    resorted (q.paths.filter fun a => a.entry ≠ p.entry) (placePaths p.entry [] q).paths := by
  have hfil : (q.paths.filter fun a => a.entry ≠ p.entry) = q.paths.flatMap fun a => if a.entry = p.entry then [] else [a] := by
    rw [← List.flatMap_singleton' q.paths, List.filter_flatMap]
    simp only [List.flatMap_singleton']
    congr 1
    funext a
    by_cases ha : a.entry = p.entry <;> simp [ha]
  rw [hfil]
  exact resorted_sortPaths _

/-! ### Parking at a join record (R131, R135) -/

/-- What a park leaves of the records and the ready list, of a squad with the records and paths of `q`. -/
theorem parkAt_parked {q q1 : Squad} (p : Path) (m : Mask) (rid : Nat) (r : JoinRec) (hpaths : q1.paths = q.paths)
    (hjoins : q1.joins = q.joins) :
    Parked q (parkAt { p with exm := m } rid r q1) p p.members rid r (aget q.joins) := by
  refine ⟨fun hdef hall => ?_, fun hdef hpart => ?_, fun d hdef => ?_⟩
  · have hpark : parkAt { p with exm := m } rid r q1 =
        placePaths p.entry [continued p.entry r p.ret] { q1 with joins := adel q1.joins rid } := by
      simp only [parkAt, hdef, hall, if_true, mergedPath, continued]
    rw [hpark, ← hpaths, ← hjoins]
    refine ⟨fun k => ?_, placePaths_one p _ _⟩
    rw [placePaths, aget_adel]
    simp only [eq_comm]
  · have hpark : parkAt { p with exm := m } rid r q1 =
        placePaths p.entry [] { q1 with joins := aput q1.joins rid { r with
          arrived := r.arrived ||| p.members, lastRet := p.ret, deferred := none } } := by
      simp only [parkAt, hdef, hpart, if_false]
    rw [hpark, ← hpaths, ← hjoins]
    refine ⟨fun k => ?_, placePaths_none p _⟩
    rw [placePaths, aget_aput]
    simp only [eq_comm]
  · have hpark : parkAt { p with exm := m } rid r q1 =
        placePaths p.entry [deferredPath p.entry rid d] { q1 with joins := aput q1.joins rid { r with
          arrived := r.arrived ||| p.members, lastRet := p.ret, deferred := none } } := by
      simp only [parkAt, hdef]
    rw [hpark, ← hpaths, ← hjoins]
    refine ⟨fun k => ?_, placePaths_one p _ _⟩
    rw [placePaths, aget_aput]
    simp only [eq_comm]

/-- A park changes the records and the ready list alone. -/
theorem parkAt_frame (p : Path) (rid : Nat) (r : JoinRec) (q : Squad) :
    parkAt p rid r q = { q with paths := (parkAt p rid r q).paths, joins := (parkAt p rid r q).joins } := by
  unfold parkAt placePaths
  dsimp only
  cases r.deferred with
  | some d => rfl
  | none => dsimp only; split <;> rfl

/-- A squad that parks a path and keeps one still has a ready path. -/
theorem parkAt_paths_ne_nil {q q1 : Squad} {p : Path} {m : Mask} {rid : Nat} {r : JoinRec} (hin : p ∈ q.paths)
    (hpaths : q1.paths = q.paths) (hjoins : q1.joins = q.joins) (hleaves : leavesOne q p p.members r) :
    (parkAt { p with exm := m } rid r q1).paths ≠ [] := by
  obtain ⟨hmerge, hwait, hdefer⟩ := parkAt_parked p m rid r hpaths hjoins
  have hone (x : Path) (l : List Path) (h : resorted (inPlace p (fun _ => x) q.paths) l) : l ≠ [] := by
    refine List.ne_nil_of_mem ((mem_of_resorted h x).2 (List.mem_map.2 ⟨p, hin, if_pos rfl⟩))
  cases hdef : r.deferred with
  | some d => exact hone _ _ (hdefer d hdef).2
  | none =>
    by_cases hall : r.arrived ||| p.members = r.expected
    · exact hone _ _ (hmerge hdef hall).2
    · obtain ⟨a, ha, hne⟩ := hleaves hdef hall
      exact List.ne_nil_of_mem ((mem_of_resorted (hwait hdef hall).2 a).2 (List.mem_filter.2 ⟨ha, by simpa using hne⟩))

/-- The running path stands in the table. -/
theorem runningPath_mem {q : Squad} {p : Path} (h : runningPath q = some p) : p ∈ q.paths := by
  unfold runningPath at h
  split at h
  · exact List.mem_of_find?_eq_some h
  · split at h
    · exact List.mem_of_find?_eq_some h
    · exact List.mem_of_head? h

/-! ### The end of a squad (R134) -/

theorem endSquad_eq {s : State} {id : Nat} {q : Squad} (hq : squadOf s id = some q) :
    endSquad s id = { s with
      budgets := (unlist s id q).budgets, qWaits := (unlist s id q).qWaits, squads := adel s.squads id
      tasks := amod s.tasks q.task fun t => { t with squads := t.squads.filter (· ≠ id) }
      lanes := s.lanes.map fun e => (e.1, (e.2.1.filter (· ≠ id), e.2.2)) } := by
  obtain ⟨b, w, heq⟩ := unlist_frame s id q
  simp only [endSquad, hq, heq]

theorem squadOf_endSquad_same {s : State} {id : Nat} {q : Squad} (hq : squadOf s id = some q) :
    squadOf (endSquad s id) id = none := by
  rw [endSquad_eq hq, squadOf, aget_adel_same]

theorem squadOf_endSquad_ne {s : State} {id j : Nat} {q : Squad} (hq : squadOf s id = some q) (hj : j ≠ id) :
    squadOf (endSquad s id) j = squadOf s j := by
  rw [endSquad_eq hq, squadOf, aget_adel_ne _ hj, squadOf]

/-- An instruction whose meaning ends the issuing squad. -/
theorem ended_done {i : Instr} {s : State} {id : Nat} {q : Squad} {p : Path} {h : Hdr} {cls : Nat} {occ : Occ}
    {body : Iss → State → Res} (hI : Issues s id q p h cls) (hexec : exec i s = issue h cls occ s body)
    (hbody : body (seen id q p h) (issued s id q p h cls occ) = .jump (endSquad (issued s id q p h cls occ) id)) :
    Ended i s id q := by
  obtain ⟨q1, hq1, hothers, heq, hq1eq⟩ := issued_squad s id q p h cls occ hI
  have htask : q1.task = q.task := by rw [hq1eq]
  rw [issue_eq s id q p h cls occ body hI, hbody] at hexec
  refine ⟨_, hexec, ?_, fun j hj => ?_, ?_, ?_, fun k hk => ?_⟩
  · show squadOf (modSquad (endSquad _ id) id _) id = none
    rw [squadOf_modSquad_same, squadOf_endSquad_same hq1]
    rfl
  · show squadOf (modSquad (endSquad _ id) id _) j = _
    rw [squadOf_modSquad_ne _ _ hj, squadOf_endSquad_ne hq1 hj, hothers j hj]
  · simp only [unpaidIll, finish, endSquad_eq hq1]
    rw [heq]
    exact ⟨rfl, rfl, rfl⟩
  · simp only [unpaidIll, finish, endSquad_eq hq1]
    rw [heq]
    exact ⟨rfl, rfl, rfl⟩
  · have htasks : (issued s id q p h cls occ).tasks = s.tasks := by rw [heq]
    simp only [unpaidIll, finish, endSquad_eq hq1, htask, taskOf, modSquad_tasks, aget_amod_same, htasks]
    rw [taskOf] at hk
    rw [hk]
    rfl

/-! ### Meanings that set the issuing squad -/

/-- A meaning that changes the issuing squad and is done. -/
theorem squad_done {s : State} {id : Nat} {q : Squad} {p : Path} {h : Hdr} {cls : Nat} {occ : Occ}
    {body : Iss → State → Res} {f : Squad → Squad} (hI : Issues s id q p h cls)
    (hbody : body (seen id q p h) (issued s id q p h cls occ) = .ok (modSquad (issued s id q p h cls occ) id f))
    (hpend : ∀ q1, (f q1).pend = q1.pend) (hfault : ∀ q1, (f q1).fault = q1.fault)
    (hsettling : ∀ q1, (f q1).settling = q1.settling) :
    ∃ t q' q1, issue h cls occ s body = .next t ∧ Turned s t id q q' h ∧ OnlySquads s t ∧ q'.pend = [] ∧
      q1 = { q with granted := q1.granted, taken := q1.taken, perf := q1.perf, ebudDeb := q1.ebudDeb } ∧
      q' = { advance p.entry (f q1) with wait := none, settling := q'.settling, select := none } := by
  obtain ⟨q1, hq1, hothers, heq, hq1eq⟩ := issued_squad s id q p h cls occ hI
  have hwhole : (f q1).fault = none := by rw [hfault, hq1eq]; exact hI.whole
  have hset : (f q1).pend = [] := by rw [hpend, hq1eq]; exact hI.settled
  have hsettle : (f q1).settling = q.settling := by rw [hsettling, hq1eq]
  refine ⟨modSquad (modSquad (issued s id q p h cls occ) id f) id
      (fun q => { advance p.entry q with wait := none, settling := q.settling || h.s, select := none }),
    { advance p.entry (f q1) with wait := none, settling := (f q1).settling || h.s, select := none }, q1, ?_, ?_, ?_, hset,
    hq1eq, rfl⟩
  · rw [issue_eq s id q p h cls occ body hI, hbody]
    rfl
  · refine ⟨by simp [hq1], fun j hj => by simp [hj, hothers j hj], rfl, hwhole, ?_⟩
    rw [← hsettle]
  · unfold OnlySquads
    show modSquad (modSquad _ id _) id _ = _
    simp only [modSquad]
    rw [heq]

/-- The same, when the ready list is as before: the path has gone on, and the results stand in the registers. -/
theorem squad_writes {i : Instr} {s : State} {id : Nat} {q : Squad} {p : Path} {h : Hdr} {cls : Nat} {occ : Occ}
    {body : Iss → State → Res} {f : Squad → Squad} {E : Squad → Prop} (hI : Issues s id q p h cls)
    (hexec : exec i s = issue h cls occ s body)
    (hbody : body (seen id q p h) (issued s id q p h cls occ) = .ok (modSquad (issued s id q p h cls occ) id f))
    (hf : ∀ q1, f q1 = { q1 with
      v := (f q1).v, s := (f q1).s, p := (f q1).p, b := (f q1).b, vi := (f q1).vi, im := (f q1).im, flg := (f q1).flg })
    (hE : ∀ q1, SameRegs q q1 → ∀ q', SameRegs (f q1) q' → E q') : Writes i s id q p h E := by
  obtain ⟨t, q', q1, ht, hturned, honly, hpend, hq1, hq'⟩ := squad_done (f := f) hI hbody
    (fun q1 => by rw [hf]) (fun q1 => by rw [hf]) (fun q1 => by rw [hf])
  obtain ⟨hsquad, hothers, hwait, hfault, hsettling⟩ := hturned
  have hsame : SameRegs q q1 := by rw [hq1]; exact ⟨rfl, rfl, rfl, rfl, rfl, rfl, rfl⟩
  refine ⟨t, q', hexec.trans ht, ⟨hsquad, hothers, ?_, hwait, hfault, hsettling⟩, honly, ?_, hpend, hE q1 hsame q' ?_⟩
  · rw [hq', hf, hq1]
    rfl
  · unfold SameSquad
    rw [hq', hf, hq1]
    rfl
  · rw [hq']
    exact ⟨rfl, rfl, rfl, rfl, rfl, rfl, rfl⟩

end Sys2Proof.Machine

end

section

namespace Sys2Proof.Machine

/-! ### The lowest thread -/

theorem exists_lowest {m : Mask} (h : m ≠ 0) : ∃ u, lowest m = some u := by
  rw [← Option.isSome_iff_exists]
  unfold lowest
  rw [List.find?_isSome]
  by_contra hnone
  refine h (BitVec.eq_of_getLsbD_eq fun i hi => ?_)
  by_contra hbit
  refine hnone ⟨i, List.mem_range.2 hi, ?_⟩
  simpa [bitM] using hbit

/-- A special register's value, or another 32-bit value into a v-register and 64-bit value into an s-register. -/
theorem gets_of_wrInt {d : Opnd} {act : Mask} {q q' : Squad} {f : Nat → Nat}
    (hd : (∃ n a b, d = .v n a b) ∨ ∃ n a b, d = .s n a b)
    (hregs : SameRegs (applyWs ((execThreads d act).flatMap fun t => wrInt (if isUniform d then 64 else 32) false d t (f t)) q) q') :
    Gets (if isUniform d then .u64 else .u32) d act q q' (fun u => (f u : Int)) ∧ q'.p = q.p ∧ q'.b = q.b ∧
      q'.flg = q.flg := by
  obtain ⟨gv, gs, gp, gb, gvi, gim, gflg⟩ := hregs
  rcases hd with ⟨n, a, b, rfl⟩ | ⟨n, a, b, rfl⟩
  · have hws : ((execThreads (.v n a b) act).flatMap fun t => wrInt (if isUniform (.v n a b) then 64 else 32) false (.v n a b) t (f t)) =
        (threadsOf act).map fun t => .v n t (BitVec.ofNat 32 (f t)) := by
      rw [List.map_eq_flatMap]
      rfl
    rw [hws] at gv gs gp gb gvi gim gflg
    obtain ⟨-, hs, hp, hb, hvi, him, hflg⟩ := applyWs_keeps (k := 0) ((threadsOf act).map fun t => .v n t (BitVec.ofNat 32 (f t))) q
      (by simp [regKey])
    refine ⟨⟨gs.trans (hs (by decide)), gvi.trans (hvi (by decide)), gim.trans (him (by decide)), fun r u hu => ?_⟩,
      gp.trans (hp (by decide)), gb.trans (hb (by decide)), gflg.trans (hflg (by decide))⟩
    have hrd := rdV_applyWs_v q n r (threadsOf act) (fun t => BitVec.ofNat 32 (f t)) (fun t ht => (mem_threadsOf.1 ht).1) hu
    rw [rdV, gv, ← rdV, hrd]
    simp [mem_threadsOf, hu, isUniform, opKind, tyW]
  · have hws : ((execThreads (.s n a b) act).flatMap fun t => wrInt (if isUniform (.s n a b) then 64 else 32) false (.s n a b) t (f t)) =
        (lowest act).toList.map fun t => .s n (BitVec.ofNat 64 (f t)) := by
      rw [List.map_eq_flatMap]
      rfl
    rw [hws] at gv gs gp gb gvi gim gflg
    obtain ⟨hv, -, hp, hb, hvi, him, hflg⟩ := applyWs_keeps (k := 1) ((lowest act).toList.map fun t => .s n (BitVec.ofNat 64 (f t))) q
      (by simp [regKey])
    refine ⟨⟨gv.trans (hv (by decide)), gvi.trans (hvi (by decide)), gim.trans (him (by decide)), fun r => ?_⟩,
      gp.trans (hp (by decide)), gb.trans (hb (by decide)), gflg.trans (hflg (by decide))⟩
    rw [rdS, gs]
    cases hl : lowest act with
    | none => rfl
    | some u =>
      show tget 0 (tset 0 q.s n (BitVec.ofNat 64 (f u))) r = _
      rw [tget_tset]
      simp [isUniform, opKind, wide, rdS, eq_comm]

theorem getLsbD_maskOf (f : Nat → Bool) (u : Nat) : (maskOf f).getLsbD u = (decide (u < 32) && f u) := by
  have hfold (l : List Nat) (m : Mask) (hu : u < 32) :
      bitM (l.foldl (fun m t => if f t then m ||| (1 <<< t : Mask) else m) m) u = (bitM m u || (decide (u ∈ l) && f u)) := by
    induction l generalizing m with
    | nil => simp
    | cons t l ih =>
      rw [List.foldl_cons, ih]
      by_cases ht : u = t
      · subst ht
        cases hf : f u
        · simp
        · rw [if_pos rfl, bitM_setBit _ _ hu]
          simp
      · cases hf : f t
        · simp [ht]
        · rw [if_pos rfl, bitM_setBit _ _ hu]
          simp [ht]
  by_cases hu : u < 32
  · have h := hfold (List.range 32) 0 hu
    simpa [bitM, maskOf, hu] using h
  · rw [BitVec.getLsbD_of_ge _ _ (Nat.le_of_not_lt hu)]
    simp [hu]

theorem maskWord_maskOf (f : Nat → Bool) : maskWord f (BitVec.ofNat 64 (maskOf f).toNat) := by
  intro u hu
  rw [BitVec.getLsbD_ofNat, BitVec.testBit_toNat, getLsbD_maskOf]
  simp [hu]

/-! ### Special registers -/

/-- Entries of the ordering record change it, the caches of lines, and the rows in use. -/
theorem logEvs_frame (es : List HEv) (s : State) :
    logEvs s es = { s with
      hist := (logEvs s es).hist, dcache := (logEvs s es).dcache, active := (logEvs s es).active } := by
  induction es generalizing s with
  | nil => rfl
  | cons e es ih =>
    rw [logEvs, List.foldl_cons, ← logEvs, ih]
    rfl

theorem sawDone_frame (s : State) (x : Iss) (n : Nat) :
    sawDone s x n = { s with
      hist := (sawDone s x n).hist, dcache := (sawDone s x n).dcache, active := (sawDone s x n).active } := by
  unfold sawDone
  split
  · exact logEvs_frame _ s
  · rfl

theorem sawDone_of_ne (s : State) (x : Iss) {n : Nat} (hn : n ≠ 0x022) : sawDone s x n = s := if_neg fun h => hn h.1

/-- The acquire of DONE comes before its read, and does not change it. -/
theorem specVal_sawDone (s : State) (x : Iss) (n u : Nat) : specVal (sawDone s x n) x n u = specVal s x n u := by
  by_cases hn : n = 0x022
  · subst hn
    rw [sawDone_frame]
    rfl
  · rw [sawDone_of_ne s x hn]

theorem movsWrites_sawDone (s : State) (x : Iss) (d : Opnd) (n : Nat) :
    movsWrites (sawDone s x n) x d n = movsWrites s x d n := by
  simp only [movsWrites, specVal_sawDone]

/-- MOVS writes a v-register or an s-register (R95). -/
theorem movs_dst {h : Hdr} {d : Opnd} {n : Nat} (hwf : (Instr.movs h d n).wf = true) :
    (∃ n a b, d = .v n a b) ∨ ∃ n a b, d = .s n a b := by
  have hd : slotWf .max (instrForm (.movs h d n)).d = true := by
    simp only [Instr.wf, Bool.and_eq_true] at hwf
    exact hwf.1.1.1.2
  have hkind : (if n = 0 then [Kind.v] else [Kind.v, .s]).contains (opKind d) = true := by
    by_contra hk
    have hform : (instrForm (.movs h d n)).d = .op d (if n = 0 then [.v] else [.v, .s]) false 1 1 immAll := rfl
    rw [hform, slotWf] at hd
    unfold opErrs at hd
    rw [if_neg hk, Bool.and_eq_true, List.isEmpty_iff, List.append_assoc, List.append_eq_nil_iff] at hd
    cases hd.2.1
  cases d with
  | v n a b => exact .inl ⟨n, a, b, rfl⟩
  | s n a b => exact .inr ⟨n, a, b, rfl⟩
  | _ => split at hkind <;> simp [opKind] at hkind

theorem execThreads_eq_nil {d : Opnd} {m : Mask} : execThreads d m = [] ↔ m = 0 := by
  constructor
  · intro h
    by_contra hm
    obtain ⟨u, hu⟩ := exists_lowest hm
    have hmem : u ∈ threadsOf m := by
      refine mem_threadsOf.2 ⟨List.mem_range.1 (List.mem_of_find?_eq_some hu), ?_⟩
      simpa using List.find?_some hu
    unfold execThreads at h
    split at h
    · rw [hu] at h
      cases h
    · rw [h] at hmem
      cases hmem
  · rintro rfl
    unfold execThreads
    split <;> decide

theorem movsWrites_eq_nil {s : State} {x : Iss} {d : Opnd} {n : Nat}
    (hd : (∃ n a b, d = .v n a b) ∨ ∃ n a b, d = .s n a b) : movsWrites s x d n = [] ↔ x.act = 0 := by
  rw [movsWrites, List.flatMap_eq_nil_iff, ← execThreads_eq_nil (d := d), List.eq_nil_iff_forall_not_mem]
  refine forall_congr' fun t => ?_
  have hne : wrInt (if isUniform d then 64 else 32) false d t (specVal s x n t) ≠ [] := by
    rcases hd with ⟨n, a, b, rfl⟩ | ⟨n, a, b, rfl⟩ <;> simp [isUniform, opKind, wrInt]
  simp [hne]

theorem exec_movs (h : Hdr) (d : Opnd) (n : Nat) (s : State) : exec (.movs h d n) s = execMovs h d n s := rfl
theorem exec_movx (h : Hdr) (n : Nat) (a : Opnd) (s : State) : exec (.movx h n a) s = execMovx h n a s := rfl
theorem exec_setpri (h : Hdr) (b : Opnd) (s : State) : exec (.setpri h b) s = execSetpri h b s := rfl
theorem exec_flagsClr (h : Hdr) (m : Nat) (s : State) : exec (.flagsClr h m) s = execFlagsClr h m s := rfl
theorem exec_pmaskGet (h : Hdr) (sd pa : Nat) (s : State) : exec (.pmaskGet h sd pa) s = execPmaskGet h sd pa s := rfl
theorem exec_nop (h : Hdr) (s : State) : exec (.nop h) s = execNop h s := rfl

section
variable {s : State} {id : Nat} {q : Squad} {p : Path} {h : Hdr}

/-- MOVS of a special register that is not held per squad completes at once. -/
theorem movs_writes {d : Opnd} {n : Nat} (hd : (∃ n a b, d = .v n a b) ∨ ∃ n a b, d = .s n a b) (hI : Issues s id q p h 1)
    (hnot : specIsV n = false) :
    Writes (.movs h d n) s id q p h fun q' =>
      Gets (if isUniform d then .u64 else .u32) d (runs p h q) q q'
        (fun u => (specVal (issued s id q p h 1 (occOf d 1)) (seen id q p h) n u : Nat)) ∧
      q'.p = q.p ∧ q'.b = q.b ∧ q'.flg = q.flg := by
  have hn : n ≠ 0x022 := by
    rintro rfl
    cases hnot
  obtain ⟨t, q', ht, hwent, honly, hsame, hpend, hregs⟩ := fixed_done (occ := occOf d 1)
    (body := fun x s => let s := sawDone s x n
      .ok (if specIsV n then putLater s x (movsWrites s x d n) else putFixed s x (movsWrites s x d n)))
    (ws := movsWrites (issued s id q p h 1 (occOf d 1)) (seen id q p h) d n) hI
    (by simp only [sawDone_of_ne _ _ hn, hnot, Bool.false_eq_true, if_false])
  exact ⟨t, q', (exec_movs h d n s).trans ht, hwent, honly, hsame, hpend, gets_of_wrInt hd hregs⟩

/-- MOVS of a special register held per squad is outstanding until it lands. -/
theorem movs_owes {d : Opnd} {n : Nat} (hd : (∃ n a b, d = .v n a b) ∨ ∃ n a b, d = .s n a b) (hI : Issues s id q p h 1)
    (hv : specIsV n = true) :
    Owes (.movs h d n) s id q p h (if n = 0x022 then OnlyHere else OnlySquads) fun q' =>
      Gets (if isUniform d then .u64 else .u32) d (runs p h q) q q'
        (fun u => (specVal (issued s id q p h 1 (occOf d 1)) (seen id q p h) n u : Nat)) ∧
      q'.p = q.p ∧ q'.b = q.b ∧ q'.flg = q.flg := by
  obtain ⟨-, -, -, heq, -⟩ := issued_squad s id q p h 1 (occOf d 1) hI
  obtain ⟨t, q', ht, hwent, hsame, hregs, hlen, hland, hteq⟩ := later_done (occ := occOf d 1)
    (body := fun x s => let s := sawDone s x n
      .ok (if specIsV n then putLater s x (movsWrites s x d n) else putFixed s x (movsWrites s x d n)))
    (t := sawDone (issued s id q p h 1 (occOf d 1)) (seen id q p h) n)
    (ws := movsWrites (issued s id q p h 1 (occOf d 1)) (seen id q p h) d n) (w := none) hI
    (by simp only [hv, if_true, movsWrites_sawDone]) (by rw [sawDone_frame])
  refine ⟨t, q', (exec_movs h d n s).trans ht, hwent, ?_, hsame, hregs, ?_, gets_of_wrInt hd hland⟩
  · split
    · unfold OnlyHere
      rw [hteq, sawDone_frame, heq]
    next hn =>
      unfold OnlySquads
      rw [hteq, sawDone_of_ne _ _ hn, heq]
  · rw [hlen]
    exact if_congr (movsWrites_eq_nil hd) rfl rfl

/-- A meaning that sets paths of the issuing squad and is done. -/
theorem squad_turns {i : Instr} {cls : Nat} {occ : Occ} {body : Iss → State → Res} {f : Squad → Squad} {E : Squad → Prop}
    (hI : Issues s id q p h cls) (hexec : exec i s = issue h cls occ s body)
    (hbody : body (seen id q p h) (issued s id q p h cls occ) = .ok (modSquad (issued s id q p h cls occ) id f))
    (hf : ∀ q1, f q1 = { q1 with paths := (f q1).paths })
    (hE : ∀ q1 q', q1.paths = q.paths → SameSquad q q' → q'.paths = (advance p.entry (f q1)).paths → E q') :
    Turns i s id q h E := by
  obtain ⟨t, q', q1, ht, hturned, honly, hpend, hq1, hq'⟩ := squad_done (f := f) hI hbody
    (fun q1 => by rw [hf]) (fun q1 => by rw [hf]) (fun q1 => by rw [hf])
  refine ⟨t, q', hexec.trans ht, hturned, honly, ?_, hpend, hE q1 q' (by rw [hq1]) ?_ (by rw [hq'])⟩
  · rw [hq', hf, hq1]
    exact ⟨rfl, rfl, rfl, rfl, rfl, rfl, rfl⟩
  · unfold SameSquad
    rw [hq', hf, hq1]
    rfl

/-- MOVX of a mask that keeps a member sets the path's EXM. -/
theorem movx_exm_turns (a : Opnd) (hI : Issues s id q p h 1) (hact : runs p h q ≠ 0)
    (hm : (BitVec.ofNat 32 (rdScal q a) &&& p.members) ≠ 0) :
    Turns (.movx h 0x010 a) s id q h fun q' => SameSquad q q' ∧
      q'.paths = inPlace p (fun b => { b with pc := nextPc b.pc, exm := BitVec.ofNat 32 (rdScal q a) &&& p.members }) q.paths := by
  have hact' : (seen id q p h).act ≠ 0 := hact
  have hm' : ¬ (BitVec.ofNat 32 (rdScal (seen id q p h).q a) &&& (seen id q p h).path.members) = 0 := hm
  refine squad_turns (f := modPath p.entry fun b => { b with exm := BitVec.ofNat 32 (rdScal q a) &&& p.members }) hI
    (exec_movx h 0x010 a s) (by simp only [if_neg hact', if_true, setExm, if_neg hm']; rfl) (fun _ => rfl) ?_
  intro q1 q' hpaths hsame hq'
  refine ⟨hsame, ?_⟩
  rw [hq']
  simp only [advance, modPath, inPlace, hpaths, List.map_map]
  refine List.map_congr_left fun b _ => ?_
  by_cases hb : b.entry = p.entry <;> simp [hb]

/-- The park of a path at a record that the squad holds. -/
def parkIn (p : Path) (rid : Nat) (q : Squad) : Squad :=
  match aget q.joins rid with
  | some r => parkAt p rid r q
  | none => q

theorem parkIn_eq {p : Path} {rid : Nat} (r : JoinRec) {q : Squad} (hr : aget q.joins rid = some r) :
    parkIn p rid q = parkAt p rid r q := by
  simp only [parkIn, hr]

theorem parkIn_frame (p : Path) (rid : Nat) (q : Squad) :
    parkIn p rid q = { q with paths := (parkIn p rid q).paths, joins := (parkIn p rid q).joins } := by
  unfold parkIn
  split
  · exact parkAt_frame _ _ _ _
  · rfl

theorem setPaths_of_ne_nil {x : Iss} {f : Squad → Squad} {q1 : Squad} (hq1 : squadOf s x.id = some q1)
    (hne : (f q1).paths ≠ []) : setPaths s x f = modSquad s x.id f := by
  have hfull : (f q1).paths.isEmpty = false := List.isEmpty_eq_false_iff.2 hne
  simp [setPaths, hq1, hfull]

/-- MOVX of a mask without a member parks the path, as far as its record's depth allows, or ends the squad. -/
theorem movx_exm_empty (a : Opnd) (hI : Issues s id q p h 1) (hact : runs p h q ≠ 0)
    (hm : (BitVec.ofNat 32 (rdScal q a) &&& p.members) = 0) :
    (p.jrec = none → Ended (.movx h 0x010 a) s id q) ∧
    (∀ rid r, p.jrec = some rid → aget q.joins rid = some r →
      (p.ret.length ≠ r.rdepth → Raises (.movx h 0x010 a) s id q p (mkFault 0x12 5 (runs p h q) p)) ∧
      (p.ret.length = r.rdepth → leavesOne q p p.members r →
        Turns (.movx h 0x010 a) s id q h fun q' => Parked q q' p p.members rid r (aget q.joins))) := by
  obtain ⟨q1, hq1, -, -, hq1eq⟩ := issued_squad s id q p h 1 (.once 1) hI
  have hact' : (seen id q p h).act ≠ 0 := hact
  have hm' : (BitVec.ofNat 32 (rdScal (seen id q p h).q a) &&& (seen id q p h).path.members) = 0 := hm
  have hsq : squadOf (issued s id q p h 1 (.once 1)) (seen id q p h).id = some q1 := hq1
  have hpaths : q1.paths = q.paths := by rw [hq1eq]
  have hjoins : q1.joins = q.joins := by rw [hq1eq]
  refine ⟨fun hj => ?_, fun rid r hj hr => ⟨fun hdepth => ?_, fun hdepth hleaves => ?_⟩⟩
  · have hj' : (seen id q p h).path.jrec = none := hj
    refine ended_done hI (exec_movx h 0x010 a s) ?_
    simp only [if_neg hact', if_true, setExm, hm', hsq, hj']
    rfl
  · have hj' : (seen id q p h).path.jrec = some rid := hj
    have hfault : parkFault q1 (seen id q p h).path = true := by
      simp only [parkFault, seen, hj, Option.bind_some, hjoins, hr]
      exact decide_eq_true hdepth
    refine raises_of_fail hI (exec_movx h 0x010 a s) ?_ (by decide)
    simp only [if_neg hact', if_true, setExm, hm', hsq, hj', hfault]
    rfl
  · have hj' : (seen id q p h).path.jrec = some rid := hj
    have hfault : parkFault q1 (seen id q p h).path = false := by
      simp only [parkFault, seen, hj, Option.bind_some, hjoins, hr]
      exact decide_eq_false (not_not.2 hdepth)
    have hpark : parkIn { p with exm := 0 } rid q1 = parkAt { p with exm := 0 } rid r q1 :=
      parkIn_eq _ (by rw [hjoins, hr])
    have hpaths' : (parkIn { p with exm := 0 } rid q1).paths ≠ [] := by
      rw [hpark]
      exact parkAt_paths_ne_nil (runningPath_mem hI.path) hpaths hjoins hleaves
    have hbody : setExm (issued s id q p h 1 (.once 1)) (seen id q p h) (BitVec.ofNat 32 (rdScal q a)) =
        .jump (modSquad (issued s id q p h 1 (.once 1)) id (parkIn { p with exm := 0 } rid)) := by
      have hset : setPaths (issued s id q p h 1 (.once 1)) (seen id q p h) (parkIn { p with exm := 0 } rid) =
          modSquad (issued s id q p h 1 (.once 1)) id (parkIn { p with exm := 0 } rid) := setPaths_of_ne_nil hsq hpaths'
      rw [← hset]
      simp only [setExm, hsq, hj', hfault]
      exact if_pos hm'
    obtain ⟨t, q', q2, ht, hturned, honly, hpend, hq2, -, hq'⟩ := turn_done hI
      (body := fun x s => if x.act = 0 then .ok s else setExm s x (BitVec.ofNat 32 (rdScal x.q a)))
      (by rw [if_neg hact']; exact hbody) (fun q2 h2 => by rw [parkIn_frame]; exact h2) (fun q2 h2 => by rw [parkIn_frame]; exact h2)
      (fun q2 => by rw [parkIn_frame])
    obtain rfl : q2 = q1 := Option.some.inj (hq2.symm.trans hq1)
    refine ⟨t, q', (exec_movx h 0x010 a s).trans ht, hturned, honly, ?_, hpend, ?_⟩
    · rw [hq', parkIn_frame, hq1eq]
      exact ⟨rfl, rfl, rfl, rfl, rfl, rfl, rfl⟩
    · rw [hq', hpark]
      exact parkAt_parked p 0 rid r hpaths hjoins

/-- The path priority is set in its place, and the list sorted again. -/
theorem setPpri_turns {i : Instr} {n : Nat} {body : Iss → State → Res} (hI : Issues s id q p h 1)
    (hexec : exec i s = issue h 1 (.once 1) s body)
    (hbody : body (seen id q p h) (issued s id q p h 1 (.once 1)) =
      .ok (setPpri (issued s id q p h 1 (.once 1)) (seen id q p h) n)) :
    Turns i s id q h fun q' => SameSquad q q' ∧
      resorted (inPlace p (fun a => { a with pc := nextPc a.pc, ppri := n }) q.paths) q'.paths := by
  refine squad_turns hI hexec hbody (fun _ => rfl) ?_
  intro q1 q' hpaths hsame hq'
  refine ⟨hsame, ?_⟩
  have hadv : inPlace p (fun a => { a with pc := nextPc a.pc, ppri := n }) q.paths =
      (q.paths.map fun a => if a.entry = p.entry then { a with ppri := n } else a).map
        fun a => if a.entry = p.entry then { a with pc := nextPc a.pc } else a := by
    rw [inPlace, List.map_map]
    refine List.map_congr_left fun b _ => ?_
    by_cases hb : b.entry = p.entry <;> simp [hb]
  rw [hq', hadv]
  simp only [advance, modPath, hpaths]
  exact resorted_map (resorted_sortPaths _) _ fun a => by split <;> rfl

/-- PMASK.GET gathers a predicate into an s-register (R102). -/
theorem pmaskGet_writes (sd pa : Nat) (hI : Issues s id q p h 1) (hact : runs p h q ≠ 0) :
    Writes (.pmaskGet h sd pa) s id q p h fun q' =>
      (∃ x, maskWord (rdP q pa) x ∧ GetsS sd q q' x) ∧ SameRegs { q with s := q'.s } q' := by
  obtain ⟨u, hu⟩ := exists_lowest hact
  obtain ⟨t, q', ht, hwent, honly, hsame, hpend, hregs⟩ := fixed_done (occ := occOf (.s sd false false) 1)
    (body := fun x s => .ok (putFixed s x ((execThreads (.s sd false false) x.act).flatMap
      fun _ => [.s sd (BitVec.ofNat 64 (maskOf fun t => rdP x.q pa t).toNat)])))
    (ws := [.s sd (BitVec.ofNat 64 (maskOf (rdP q pa)).toNat)]) hI
    (by
      have hth : execThreads (.s sd false false) (seen id q p h).act = [u] := by
        show (lowest (runs p h q)).toList = [u]
        rw [hu]
        rfl
      rw [hth]
      rfl)
  obtain ⟨gv, gs, gp, gb, gvi, gim, gflg⟩ := hregs
  refine ⟨t, q', (exec_pmaskGet h sd pa s).trans ht, hwent, honly, hsame, hpend, ⟨_, maskWord_maskOf _, fun r => ?_⟩,
    gv, rfl, gp, gb, gvi, gim, gflg⟩
  rw [rdS, gs]
  show tget 0 (tset 0 q.s sd _) r = _
  rw [tget_tset, rdS]
  simp only [eq_comm]

end

/-- Settles O7: MOVS by what it writes, MOVX and the rest by what they make of the issuing squad. -/
theorem specialRegisters : Obligations.SpecialRegisters := by
  intro h s id q p act
  refine ⟨fun d x hwf hI => ?_, fun a hI hact hm => movx_exm_turns a hI hact hm,
    fun a hI hact hm => movx_exm_empty a hI hact hm, fun i b hi hI hact => ?_,
    fun a hI hact => ?_, fun m hI hact => ?_, fun sd pa hI hact => pmaskGet_writes sd pa hI hact, fun hI => ?_⟩
  · intro f ty
    cases hv : specIsV x with
    | true => exact movs_owes (movs_dst hwf) hI hv
    | false => exact movs_writes (movs_dst hwf) hI hv
  · have hact' : (seen id q p h).act ≠ 0 := hact
    rcases hi with rfl | rfl
    · exact setPpri_turns hI (exec_movx h 0x011 b s) (by rw [if_neg hact']; rfl)
    · exact setPpri_turns hI (exec_setpri h b s) (by rw [if_neg hact']; rfl)
  · have hact' : (seen id q p h).act ≠ 0 := hact
    refine squad_writes hI (exec_movx h 0x012 a s) (by rw [if_neg hact']; rfl) (fun _ => rfl) ?_
    rintro q1 ⟨hv, hs, hp, hb, hvi, him, -⟩ q' ⟨gv, gs, gp, gb, gvi, gim, gflg⟩
    exact ⟨gflg, gv.trans hv, gs.trans hs, gp.trans hp, gb.trans hb, gvi.trans hvi, gim.trans him, rfl⟩
  · have hact' : (seen id q p h).act ≠ 0 := hact
    refine squad_writes hI (exec_flagsClr h m s) (by rw [if_neg hact']; rfl) (fun _ => rfl) ?_
    rintro q1 ⟨hv, hs, hp, hb, hvi, him, hflg⟩ q' ⟨gv, gs, gp, gb, gvi, gim, gflg⟩
    refine ⟨?_, gv.trans hv, gs.trans hs, gp.trans hp, gb.trans hb, gvi.trans hvi, gim.trans him, rfl⟩
    rw [gflg, ← hflg]
  · obtain ⟨t, q', ht, hwent, hsame, hregs, hpend, hteq⟩ := plain_done (occ := .per 1) (body := fun _ s => .ok s) hI rfl rfl
    refine ⟨t, q', (exec_nop h s).trans ht, hwent, hsame, hregs, hpend, ?_⟩
    obtain ⟨-, -, -, heq, -⟩ := issued_squad s id q p h 0 (.per 1) hI
    unfold OnlySquads
    rw [hteq, heq]

end Sys2Proof.Machine

end

section

namespace Sys2Proof.Machine

/-! ### The last arrival at an object with a parent -/

/-- A barrier object in memory: state 01, one arrival expected and none counted, with a parent (PVALID). -/
def childObj : AwLoc := ⟨.mem, 0⟩
/-- Its parent. -/
def parentObj : AwLoc := ⟨.mem, 32⟩
/-- The squad that arrives. -/
def arriver : Squad := newSquad 1 0 0 0 0 0
/-- Its arrival. -/
def lastArrival : Arrival := ⟨0, 0, 0, 0, 0, 1, 0, ⟨false, 0⟩, 1, none, childObj, 1, none⟩
/-- A state in which that arrival is on its way. -/
def arrivalState : State :=
  { wrN State.reset .mem 0 32 (2 ^ 255 + 2 ^ 176 + 2 ^ 86) with
    squads := [(0, arriver)], arrivals := [lastArrival], bars := [(0, ⟨0, some parentObj, [], [], []⟩)] }

/-- Refutes O50: the arrival that fills an object with a parent makes an arrival at the parent (R229), so that the arrivals
are not those from before without it. -/
theorem not_squadEvents : ¬ Obligations.SquadEvents := by
  unfold Obligations.SquadEvents
  intro h
  obtain ⟨-, -, -, -, harr⟩ := h arrivalState 0 arriver rfl
  obtain ⟨t, ht, hnone, -⟩ := harr 0 lastArrival rfl rfl rfl (by decide +kernel) rfl (by decide +kernel) (by decide +kernel)
    (by decide +kernel) (by decide +kernel)
  have hsent : (arrivalAt arrivalState 0).arrivals.length = 1 := by decide +kernel
  have hrun : arrivalAt arrivalState 0 = t := Host.Outcome.next.inj ht
  rw [hrun, hnone] at hsent
  exact absurd hsent (by decide)

end Sys2Proof.Machine

end

section

namespace Sys2Proof.Machine

/-! ### What the device writes through a context -/

/-- The device's write to virtual memory changes bytes only. -/
theorem devWrite_frame (s : State) (c va : Nat) (bs : List Byte) :
    ∃ m r z p, devWrite s c va bs = { s with mem := m, scr := r, zown := z, peer := p } := by
  induction bs generalizing s va with
  | nil => exact ⟨_, _, _, _, rfl⟩
  | cons b bs ih =>
    rw [devWrite]
    split
    next sp pa _ =>
      obtain ⟨m, r, z, p, h⟩ := ih (wrByte s sp pa b) (va + 1)
      rw [h]
      cases sp <;> exact ⟨_, _, _, _, rfl⟩
    · exact ih s (va + 1)

/-- A node's STATE is set in the device, and by bytes in its record. -/
theorem setNodeState_frame (s : State) (id st : Nat) :
    ∃ m r z p, setNodeState s id st =
      { s with nodes := amod s.nodes id (fun n => { n with st := st }), mem := m, scr := r, zown := z, peer := p } := by
  unfold setNodeState
  split
  next h => exact ⟨_, _, _, _, by rw [amod, show aget s.nodes id = none from h]⟩
  next n _ =>
    obtain ⟨m, r, z, p, h⟩ := devWrite_frame (modNode s id fun n => { n with st := st }) n.ctx (n.va + 224) (leBytes 1 st)
    exact ⟨m, r, z, p, h⟩

theorem nodeOf_setNodeState (s : State) (id st : Nat) :
    nodeOf (setNodeState s id st) id = (nodeOf s id).map fun n => { n with st := st } := by
  obtain ⟨m, r, z, p, h⟩ := setNodeState_frame s id st
  rw [h]
  exact aget_amod_same _ _ _

/-! ### What a launch is built from -/

theorem fillBank_frame (s : State) (core : Nat) (bank : Bool) (ctx va ovl tid : Nat) :
    ∃ m b, fillBank s core bank ctx va ovl tid = { s with imem := m, banks := b } := by
  unfold fillBank
  dsimp only
  split
  · split <;> exact ⟨_, _, rfl⟩
  · exact ⟨_, _, rfl⟩

theorem loadBanks_frame (s : State) (core ctx : Nat) (tr : TRec) (tid : Nat) :
    ∃ m b, loadBanks s core ctx tr tid = { s with imem := m, banks := b } := by
  unfold loadBanks
  dsimp only
  obtain ⟨m, b, h⟩ := fillBank_frame s core false ctx (Config.overlayVa ctx (tr.ovla % 2 ^ 32)) (tr.ovla % 2 ^ 32) tid
  rw [h]
  split
  next i _ =>
    obtain ⟨m', b', h'⟩ := fillBank_frame { s with imem := m, banks := b } core true ctx (bankBVa s ctx tr) i tid
    exact ⟨m', b', h'⟩
  · exact ⟨m, b, rfl⟩

/-- A slot is as after its scrub: full extents, every byte zero (R276). -/
def SlotClean (s : State) (core k : Nat) : Prop :=
  extOf s core k = (64, 256) ∧ ∀ off, off < 8192 → rdSlot s core k off = 0

theorem aget_clearKeys {α : Type} (m : Tbl α) (lo n k : Nat) :
    aget (clearKeys m lo n) k = if lo ≤ k ∧ k < lo + n then none else aget m k := by
  induction m with
  | nil => simp [clearKeys, aget]
  | cons e m ih =>
    obtain ⟨j, v⟩ := e
    rw [clearKeys] at ih ⊢
    rw [List.filter_cons]
    by_cases hj : j = k
    · subst hj
      by_cases hin : lo ≤ j ∧ j < lo + n
      · rw [if_neg (by simp; omega), ih, if_pos hin, if_pos hin]
      · rw [if_pos (by simp; omega), if_neg hin]
        simp [aget]
    · split <;> simp [aget, hj, ih]

theorem scrubSlot_clean (s : State) (core k : Nat) : SlotClean (scrubSlot s core k) core k := by
  constructor
  · simp [scrubSlot, resetSide, setExt, extOf]
  · intro off hoff
    show ((aget (clearKeys s.slotMem (slotKey core k * 8192) 8192) (slotKey core k * 8192 + off)).getD 0 : Byte) = 0
    rw [aget_clearKeys, if_pos ⟨by omega, by omega⟩]
    rfl

/-- The scrub of any slot leaves a clean slot clean. -/
theorem scrubSlot_keeps_clean (s : State) (core k j : Nat) (h : SlotClean s core k) : SlotClean (scrubSlot s core j) core k := by
  obtain ⟨hext, hbytes⟩ := h
  constructor
  · show tget (64, 256) (tset (64, 256) s.ext (slotKey core j) (64, 256)) (slotKey core k) = (64, 256)
    rw [tget_tset]
    split
    · rfl
    · exact hext
  · intro off hoff
    show ((aget (clearKeys s.slotMem (slotKey core j * 8192) 8192) (slotKey core k * 8192 + off)).getD 0 : Byte) = 0
    rw [aget_clearKeys]
    split
    · rfl
    · exact hbytes off hoff

theorem scrubSlots_clean (core k : Nat) (ks : List Nat) (s : State) (h : SlotClean s core k ∨ k ∈ ks) :
    SlotClean (ks.foldl (fun s i => scrubSlot s core i) s) core k := by
  induction ks generalizing s with
  | nil => exact h.resolve_right (by simp)
  | cons j ks ih =>
    refine ih (scrubSlot s core j) ?_
    rcases h with h | h
    · exact .inl (scrubSlot_keeps_clean s core k j h)
    · rcases List.mem_cons.1 h with rfl | h
      · exact .inl (scrubSlot_clean s core k)
      · exact .inr h

theorem scrubSlots_frame (core : Nat) (ks : List Nat) (s : State) :
    ∃ m d e, ks.foldl (fun s i => scrubSlot s core i) s = { s with slotMem := m, sidecar := d, ext := e } := by
  induction ks generalizing s with
  | nil => exact ⟨_, _, _, rfl⟩
  | cons j ks ih =>
    obtain ⟨m, d, e, h⟩ := ih (scrubSlot s core j)
    exact ⟨m, d, e, h⟩

theorem scrubTiles_frame (core base : Nat) (ks : List Nat) (s : State) :
    ∃ a f, ks.foldl (fun s i => scrubTile s core (base + i)) s = { s with acc := a, accFlg := f } := by
  induction ks generalizing s with
  | nil => exact ⟨_, _, rfl⟩
  | cons j ks ih =>
    obtain ⟨a, f, h⟩ := ih (scrubTile s core (base + j))
    exact ⟨a, f, h⟩

theorem scrubTask_frame (s : State) (t : Task) :
    ∃ m d e a f, scrubTask s t = { s with slotMem := m, sidecar := d, ext := e, acc := a, accFlg := f } := by
  obtain ⟨m, d, e, h⟩ := scrubSlots_frame t.core t.slots s
  obtain ⟨a, f, h'⟩ := scrubTiles_frame t.core t.tile0 (List.range t.tr.acc) { s with slotMem := m, sidecar := d, ext := e }
  exact ⟨m, d, e, a, f, by rw [scrubTask, h]; exact h'⟩

theorem scrubTask_clean (s : State) (t : Task) (k : Nat) (h : k ∈ t.slots) : SlotClean (scrubTask s t) t.core k := by
  have hclean : SlotClean (t.slots.foldl (fun s i => scrubSlot s t.core i) s) t.core k := scrubSlots_clean _ _ _ _ (.inr h)
  obtain ⟨a, f, h'⟩ := scrubTiles_frame t.core t.tile0 (List.range t.tr.acc) (t.slots.foldl (fun s i => scrubSlot s t.core i) s)
  rw [scrubTask, h']
  exact hclean

/-! ### The squads of a launch -/

theorem launched_newSquad (task k lane core entry since : Nat) :
    launched task k lane core entry (newSquad task k lane core entry since) := by
  refine ⟨fun r u _ => ⟨rfl, rfl, rfl, ?_⟩, fun r => ⟨rfl, rfl⟩, rfl, rfl, rfl, rfl, rfl, rfl, rfl, rfl, rfl, rfl, rfl, rfl,
    rfl, rfl, rfl, rfl, rfl, fun _ => rfl⟩
  by_cases hr : r = 0 <;> simp [rdP, newSquad, bitM, tget, aget, hr]

/-- A squad of a launch is set on its lane, and its task names it. -/
def addSquad (task core entry : Nat) (e : Nat × Nat) (s : State) : State :=
  modTask { s with
    nextId := s.nextId + 1, squads := aput s.squads s.nextId (newSquad task e.2 e.1 core entry s.nextId) } task
    fun t => { t with squads := t.squads ++ [s.nextId] }

theorem addSquads_cons (task core entry : Nat) (e : Nat × Nat) (r : List (Nat × Nat)) (s : State) :
    addSquads task core entry (e :: r) s = addSquads task core entry r (addSquad task core entry e s) := rfl

theorem addSquads_frame (task core entry : Nat) (ls : List (Nat × Nat)) (s : State) :
    ∃ q t n, addSquads task core entry ls s = { s with squads := q, tasks := t, nextId := n } := by
  induction ls generalizing s with
  | nil => exact ⟨_, _, _, rfl⟩
  | cons e ls ih =>
    obtain ⟨q, t, n, h⟩ := ih (addSquad task core entry e s)
    exact ⟨q, t, n, h⟩

theorem squadOf_addSquad (task core entry : Nat) (e : Nat × Nat) (s : State) (j : Nat) :
    squadOf (addSquad task core entry e s) j =
      if s.nextId = j then some (newSquad task e.2 e.1 core entry s.nextId) else squadOf s j := aget_aput _ _ _ _

/-- Squads of earlier ids stay. -/
theorem squadOf_addSquads_of_lt (task core entry : Nat) (ls : List (Nat × Nat)) (s : State) (j : Nat) (hj : j < s.nextId) :
    squadOf (addSquads task core entry ls s) j = squadOf s j := by
  induction ls generalizing s with
  | nil => rfl
  | cons e ls ih =>
    rw [addSquads_cons, ih _ (show j < s.nextId + 1 by omega), squadOf_addSquad, if_neg (by omega)]

/-- The squads of a launch, by their place. -/
theorem squadOf_addSquads (task core entry : Nat) (ls : List (Nat × Nat)) (s : State) (i : Nat) (e : Nat × Nat)
    (hi : ls[i]? = some e) :
    squadOf (addSquads task core entry ls s) (s.nextId + i) = some (newSquad task e.2 e.1 core entry (s.nextId + i)) := by
  induction ls generalizing s i with
  | nil => simp at hi
  | cons e' ls ih =>
    rw [addSquads_cons]
    cases i with
    | zero =>
      cases hi
      rw [squadOf_addSquads_of_lt _ _ _ _ _ _ (show s.nextId + 0 < s.nextId + 1 by omega), squadOf_addSquad, if_pos (by omega)]
      rfl
    | succ i =>
      have h := ih (addSquad task core entry e' s) i hi
      rwa [show (addSquad task core entry e' s).nextId + i = s.nextId + (i + 1) from by
        show s.nextId + 1 + i = _; omega] at h

/-- The task of a launch names its squads in order. -/
theorem taskOf_addSquads (task core entry : Nat) (ls : List (Nat × Nat)) (s : State) (k : Task)
    (hk : taskOf s task = some k) :
    taskOf (addSquads task core entry ls s) task =
      some { k with squads := k.squads ++ List.range' s.nextId ls.length } := by
  induction ls generalizing s k with
  | nil => simpa [addSquads] using hk
  | cons e ls ih =>
    have h1 : taskOf (addSquad task core entry e s) task = some { k with squads := k.squads ++ [s.nextId] } := by
      exact (aget_amod_same _ _ _).trans (congrArg (Option.map _) hk)
    rw [addSquads_cons, ih _ _ h1]
    simp [addSquad, modTask, List.range'_succ]

theorem lanesFrom_length (l0 n k : Nat) (cnt : List Nat) : (lanesFrom l0 n k cnt).length = n := by
  induction n generalizing k cnt with
  | zero => rfl
  | succ n ih => simp [lanesFrom, ih]

theorem lanesFor_length (cnt : List Nat) (n : Nat) : (lanesFor cnt n).length = n := lanesFrom_length _ _ _ _

/-! ### A launch -/

/-- The task that a launch adds. -/
def launchTask (s : State) (id : Nat) (n : Node) (p : Part) (tr : TRec) (core : Nat) (sp : Spot) : Task :=
  { node := id, ctx := n.ctx, part := p.part, size := if collector n then n.csize else tr.size, tr := tr, core := core,
    base := sp.base, slots := sp.slots, claimed := [], tile0 := sp.tile0,
    banks := if (needB s n.ctx tr).isSome then [false, true] else [false], squads := [], saved := false,
    stopping := .no, rbudget := p.rbudget, runFrom := s.time, idle := 0, entry := p.entry, bin := [], kept := none,
    born := s.hist.length }

/-- The node as a launch has taken it. -/
def takenNode (p : Part) (n : Node) : Node := { takePart n p with misfit := none, spill := false, drain := [] }

/-- The state in which the squads of a launch are added: the node is taken, the task there, its banks loaded, its slots clean. -/
def launchStart (s : State) (id : Nat) (n : Node) (p : Part) (tr : TRec) (core : Nat) (sp : Spot) : State :=
  let u := modNode s id (takenNode p)
  scrubTask (loadBanks { u with nextId := s.nextId + 1, tasks := aput s.tasks s.nextId (launchTask u id n p tr core sp) }
    core n.ctx tr s.nextId) (launchTask u id n p tr core sp)

/-- The lanes of a launch's squads, with their indices. -/
def launchLanes (s : State) (id : Nat) (p : Part) (tr : TRec) (core : Nat) : List (Nat × Nat) :=
  (lanesFor (useOf (modNode s id (takenNode p)) [] core).lanes tr.nsquad).zipIdx

/-- What a launch does once its squads are there: the node's run is noted, a collector acquires its records, the node runs. -/
def launchEnd (s : State) (id tid : Nat) (n : Node) : State :=
  let s := modNode s id fun n => { n with insts := n.insts ++ [tid] }
  let s := if collector n then
      logEv s (.acquire (whoNode s id) 127 .sys
        (.towards id :: .graph n.graph :: (List.range n.consume).map fun i => .record id (n.rd + i)))
    else s
  if n.st = 6 then s else setNodeState s id 3

theorem walkFrom_modNode (s : State) (i : Nat) (f : Node → Node) (va n tbl : Nat) :
    walkFrom (modNode s i f) va n tbl = walkFrom s va n tbl := by
  induction n generalizing tbl with
  | zero => rfl
  | succ n ih =>
    rw [walkFrom, walkFrom]
    simp only [ih]
    rfl

/-- Translation does not look at the nodes. -/
theorem translate_modNode (s : State) (i : Nat) (f : Node → Node) (c va : Nat) (wr : Bool) :
    translate (modNode s i f) c va wr = translate s c va wr := by
  unfold translate pageOf walkPage
  simp only [walkFrom_modNode]
  rfl

theorem lodReadN_modNode (s : State) (i : Nat) (f : Node → Node) (c va n : Nat) :
    lodReadN (modNode s i f) c va n = lodReadN s c va n := by
  unfold lodReadN lodBytes lodByte
  simp only [translate_modNode]
  rfl

theorem lodValid_modNode (s : State) (i : Nat) (f : Node → Node) (c : Nat) (tr : TRec) :
    lodValid (modNode s i f) c tr = lodValid s c tr := by
  unfold lodValid descAt
  simp only [lodReadN_modNode]

/-- A launch whose descriptors are valid. -/
theorem launch_valid (s : State) (id : Nat) (n : Node) (p : Part) (tr : TRec) (core : Nat) (sp : Spot)
    (hn : nodeOf s id = some n) (hv : lodValid s n.ctx tr = true) :
    launch s id p tr core sp =
      launchEnd (addSquads s.nextId core (bits tr.ovla 44 32) (launchLanes s id p tr core) (launchStart s id n p tr core sp))
        id s.nextId n := by
  have hv' : ¬ (!lodValid (modNode s id (takenNode p)) n.ctx tr) = true := by rw [lodValid_modNode, hv]; decide
  unfold launch
  simp only [hn]
  exact if_neg hv'

/-- The end of a launch leaves squads, tasks and slots alone, and of the node what else the launch has set. -/
theorem launchEnd_keeps (s : State) (id tid : Nat) (n : Node) :
    (launchEnd s id tid n).squads = s.squads ∧ (launchEnd s id tid n).tasks = s.tasks ∧
      (launchEnd s id tid n).slotMem = s.slotMem ∧ (launchEnd s id tid n).ext = s.ext ∧
      (nodeOf (launchEnd s id tid n) id).map (fun m => (m.spill, m.misfit)) = (nodeOf s id).map fun m => (m.spill, m.misfit) := by
  unfold launchEnd
  dsimp only
  generalize hu : (if collector n = true then _ else _) = u
  have hkeep : u.squads = s.squads ∧ u.tasks = s.tasks ∧ u.slotMem = s.slotMem ∧ u.ext = s.ext ∧
      nodeOf u id = (nodeOf s id).map fun n => { n with insts := n.insts ++ [tid] } := by
    rw [← hu]
    split <;> exact ⟨rfl, rfl, rfl, rfl, aget_amod_same _ _ _⟩
  obtain ⟨hq, ht, hm, he, hn⟩ := hkeep
  split
  · exact ⟨hq, ht, hm, he, by rw [hn]; cases nodeOf s id <;> rfl⟩
  · have hnode := nodeOf_setNodeState u id 3
    obtain ⟨m, r, z, p, hs⟩ := setNodeState_frame u id 3
    refine ⟨by rw [hs]; exact hq, by rw [hs]; exact ht, by rw [hs]; exact hm, by rw [hs]; exact he, ?_⟩
    rw [hnode, hn]
    cases nodeOf s id <;> rfl

/-- What a launch is built on: the task stands, and nothing else of tasks and squads has changed. -/
theorem launchStart_keeps (s : State) (id : Nat) (n : Node) (p : Part) (tr : TRec) (core : Nat) (sp : Spot) :
    (launchStart s id n p tr core sp).squads = s.squads ∧ (launchStart s id n p tr core sp).nextId = s.nextId + 1 ∧
      taskOf (launchStart s id n p tr core sp) s.nextId = some (launchTask (modNode s id (takenNode p)) id n p tr core sp) ∧
      nodeOf (launchStart s id n p tr core sp) id = (nodeOf s id).map (takenNode p) ∧
      ∀ k ∈ sp.slots, SlotClean (launchStart s id n p tr core sp) core k := by
  have hclean : ∀ k ∈ sp.slots, SlotClean (launchStart s id n p tr core sp) core k := fun k hk =>
    scrubTask_clean _ (launchTask (modNode s id (takenNode p)) id n p tr core sp) k hk
  have hframe : ∃ m d e a f i k, launchStart s id n p tr core sp =
      { modNode s id (takenNode p) with
        nextId := s.nextId + 1, tasks := aput s.tasks s.nextId (launchTask (modNode s id (takenNode p)) id n p tr core sp),
        slotMem := m, sidecar := d, ext := e, acc := a, accFlg := f, imem := i, banks := k } := by
    unfold launchStart
    dsimp only
    generalize launchTask (modNode s id (takenNode p)) id n p tr core sp = T
    obtain ⟨i, k, h⟩ := loadBanks_frame { modNode s id (takenNode p) with
      nextId := s.nextId + 1, tasks := aput s.tasks s.nextId T } core n.ctx tr s.nextId
    rw [h]
    obtain ⟨m, d, e, a, f, h'⟩ := scrubTask_frame _ T
    exact ⟨m, d, e, a, f, i, k, h'⟩
  obtain ⟨m, d, e, a, f, i, k, h⟩ := hframe
  generalize launchStart s id n p tr core sp = u at *
  subst h
  exact ⟨rfl, rfl, aget_aput_same _ _ _, aget_amod_same _ _ _, hclean⟩

/-- The launch that clause 3 speaks of. -/
theorem launch_places (s : State) (id : Nat) (n : Node) (p : Part) (tr : TRec) (core : Nat) (sp : Spot)
    (hn : nodeOf s id = some n) (hv : lodValid s n.ctx tr = true) :
    ∃ tk, taskOf (launch s id p tr core sp) s.nextId = some tk ∧
      tk = { launchTask (modNode s id (takenNode p)) id n p tr core sp with squads := tk.squads } ∧ tk.squads.length = tr.nsquad ∧
      (∀ m, nodeOf (launch s id p tr core sp) id = some m → m.spill = false ∧ m.misfit = none) ∧
      (∀ k j, tk.squads[k]? = some j → ∃ l q, squadOf (launch s id p tr core sp) j = some q ∧
        launched s.nextId k l core (bits tr.ovla 44 32) q) ∧
      (∀ k ∈ sp.slots, SlotClean (launch s id p tr core sp) core k) ∧
      ∀ j, j < s.nextId → squadOf (launch s id p tr core sp) j = squadOf s j := by
  rw [launch_valid s id n p tr core sp hn hv]
  obtain ⟨hsq, hid, htask, hnode, hclean⟩ := launchStart_keeps s id n p tr core sp
  generalize launchStart s id n p tr core sp = u at *
  have hlen : (launchLanes s id p tr core).length = tr.nsquad := by rw [launchLanes, List.length_zipIdx, lanesFor_length]
  have hlanes : ∀ (k : Nat) (e : Nat × Nat), (launchLanes s id p tr core)[k]? = some e → e.2 = k := by
    intro k e he
    rw [launchLanes, List.getElem?_zipIdx] at he
    obtain ⟨l, -, rfl⟩ := Option.map_eq_some_iff.1 he
    exact Nat.zero_add k
  generalize launchLanes s id p tr core = ls at *
  have htask' := taskOf_addSquads s.nextId core (bits tr.ovla 44 32) ls u _ htask
  have hsquad := squadOf_addSquads s.nextId core (bits tr.ovla 44 32) ls u
  have hold := squadOf_addSquads_of_lt s.nextId core (bits tr.ovla 44 32) ls u
  obtain ⟨q, t, x, hframe⟩ := addSquads_frame s.nextId core (bits tr.ovla 44 32) ls u
  generalize addSquads s.nextId core (bits tr.ovla 44 32) ls u = w at *
  obtain ⟨kq, kt, km, ke, kn⟩ := launchEnd_keeps w id s.nextId n
  generalize launchEnd w id s.nextId n = v at *
  have hv_squad : ∀ j, squadOf v j = squadOf w j := fun j => by rw [squadOf, kq, squadOf]
  refine ⟨_, (congrArg (aget · s.nextId) kt).trans htask', rfl, by simpa [launchTask] using hlen, ?_, ?_, ?_, ?_⟩
  · intro m hm
    have hw : nodeOf w id = some (takenNode p n) := by
      rw [hframe]; exact hnode.trans (by rw [hn]; rfl)
    rw [hm, hw] at kn
    injection kn with kn
    injection kn with h1 h2
    exact ⟨h1, h2⟩
  · intro k j hj
    have hj' : (List.range' u.nextId ls.length)[k]? = some j := hj
    obtain ⟨hk, rfl⟩ : k < ls.length ∧ u.nextId + k = j := by
      rw [List.getElem?_eq_some_iff] at hj'
      obtain ⟨hk, hj'⟩ := hj'
      exact ⟨by simpa using hk, by simpa using hj'⟩
    refine ⟨ls[k].1, _, (hv_squad _).trans (hsquad k ls[k] (List.getElem?_eq_getElem hk)), ?_⟩
    rw [hlanes k ls[k] (List.getElem?_eq_getElem hk)]
    exact launched_newSquad ..
  · intro k hk
    obtain ⟨hext, hbytes⟩ := hclean k hk
    constructor
    · rw [extOf, ke, hframe]; exact hext
    · intro off hoff
      rw [rdSlot, km, hframe]; exact hbytes off hoff
  · intro j hj
    rw [hv_squad, hold j (by omega), squadOf, hsq, squadOf]

/-! ### What the pool takes -/

/-- The entry that the dispatcher takes is one of the pool's. -/
theorem poolBest_mem (s : State) (die : Nat) (e : PoolItem) (h : poolBest s die = some e) : e ∈ poolItems s die := by
  have hfold : ∀ (l : List PoolItem) (b : Option PoolItem), (∀ x, b = some x → x ∈ poolItems s die) →
      (∀ x ∈ l, x ∈ poolItems s die) → ∀ x, l.foldl (fun b e => match b with
        | none => some e
        | some c => if c.prio < e.prio ∨ (c.prio = e.prio ∧ (e.entry < c.entry ∨ (e.entry = c.entry ∧ e.id < c.id)))
            then some e else b) b = some x → x ∈ poolItems s die := by
    intro l
    induction l with
    | nil => intro b hb _ x hx; exact hb x hx
    | cons a l ih =>
      intro b hb hl x hx
      refine ih _ ?_ (fun y hy => hl y (List.mem_cons_of_mem _ hy)) x hx
      intro y hy
      dsimp only at hy
      split at hy
      · cases hy; exact hl _ List.mem_cons_self
      · split at hy
        · cases hy; exact hl _ List.mem_cons_self
        · exact hb y hy
  exact hfold _ none (fun x hx => by cases hx) (fun x hx => hx) e h

/-- A node that the pool takes has a place. -/
theorem placeTry_of_poolTakes (s : State) (id : Nat) (h : poolTakes s id = true) : (placeTry s id).isSome = true := by
  unfold poolTakes at h
  split at h
  next n hn =>
    obtain ⟨e, he, hid⟩ := Option.any_eq_true .. |>.1 h
    obtain ⟨htask, hid⟩ : e.task = false ∧ e.id = id := by simpa using hid
    rcases List.mem_append.1 (poolBest_mem s n.die e he) with hmem | hmem
    · obtain ⟨x, hx, rfl⟩ := List.mem_map.1 hmem
      obtain ⟨-, hx⟩ := List.mem_filter.1 hx
      obtain rfl : x.1 = id := hid
      exact (Bool.and_eq_true _ _ ▸ hx).2
    · obtain ⟨x, -, rfl⟩ := List.mem_map.1 hmem
      cases htask
  · cases h

theorem inPool_of_placeTry (s : State) (id : Nat) (n : Node) (hn : nodeOf s id = some n) (h : (placeTry s id).isSome = true) :
    inPool n = true := by
  rw [placeTry, hn] at h
  dsimp only at h
  by_contra hin
  rw [if_pos (by simpa using hin)] at h
  cases h

/-- A node that is not leased has no place. -/
theorem placeTry_of_not_leased (s : State) (id : Nat) (n : Node) (hn : nodeOf s id = some n) (hk : nodeKind n = 0)
    (hl : n.leased = false) : placeTry s id = none := by
  rw [placeTry, hn]
  dsimp only
  rw [if_pos (by simp [inPool, hk, hl])]

theorem rereadNode_frame (s : State) (id : Nat) : ∃ ns, rereadNode s id = { s with nodes := ns } := ⟨_, rfl⟩

theorem rereadFor_frame (s : State) (id : Nat) : ∃ ns, rereadFor s id = { s with nodes := ns } := by
  unfold rereadFor
  split
  · exact ⟨_, rfl⟩
  · split
    · exact ⟨_, rfl⟩
    · split
      · exact rereadNode_frame s id
      · generalize gangOf s _ = l
        clear * -
        induction l generalizing s with
        | nil => exact ⟨_, rfl⟩
        | cons e l ih =>
          obtain ⟨ns, h⟩ := ih (rereadNode s e.1)
          exact ⟨ns, h⟩

/-! ### The clauses -/

/-- A lease is asked for (R369). -/
theorem leaseRequest_asks (s : State) (id : Nat) (n : Node) (hn : nodeOf s id = some n) (hp : placing n = true)
    (hk : nodeKind n = 0) (hl : n.leased = false) (ha : n.asked = false ∨ unasked s id n ≠ [])
    (ht : leaseThere s n.ctx n.tr = false) :
    ∃ t, Leads (.leaseRequest id) s t ∧ NodeBut { s with ctxs := t.ctxs } t id (fun n => { n with asked := true }) ∧
      (∀ c, c ≠ n.ctx → ctxOf t c = ctxOf s c) ∧ ctxOf t n.ctx = { ctxOf s n.ctx with asks := (ctxOf t n.ctx).asks } ∧
      ∀ a, a ∈ (ctxOf t n.ctx).asks ↔ a ∈ (ctxOf s n.ctx).asks ∨ (a.1 = id ∧ a.2 ∈ missingPages s n.ctx n.tr) := by
  have hrun : leaseRequest s id = modCtx (modNode s id fun n => { n with asked := true }) n.ctx fun c =>
      { c with asks := c.asks ++ (unasked s id n).map fun p => (id, p.1, p.2) } := by
    rw [leaseRequest, hn]
    exact if_pos ⟨hp, hk, by simpa using hl, by simpa using ht, by simpa using ha⟩
  refine ⟨_, congrArg Host.Outcome.next hrun, rfl, fun c hc => ctxOf_modCtx_ne _ _ hc, ?_, fun a => ?_⟩
  · rw [ctxOf_modCtx_same]; rfl
  · rw [ctxOf_modCtx_same]
    show a ∈ (ctxOf s n.ctx).asks ++ _ ↔ _
    obtain ⟨i, p, w⟩ := a
    simp only [List.mem_append, List.mem_map, unasked, List.mem_filter, Prod.mk.injEq, Prod.exists, Bool.not_eq_true',
      List.contains_eq_mem, decide_eq_false_iff_not]
    constructor
    · rintro (h | ⟨p, w, ⟨hm, -⟩, rfl, rfl, rfl⟩)
      · exact .inl h
      · exact .inr ⟨rfl, hm⟩
    · rintro (h | ⟨rfl, hm⟩)
      · exact .inl h
      · by_cases hin : (i, p, w) ∈ (ctxOf s n.ctx).asks
        · exact .inl hin
        · exact .inr ⟨p, w, ⟨hm, hin⟩, rfl, rfl, rfl⟩

/-- A node is leased (R369). -/
theorem nodeLeased_leases (s : State) (id : Nat) (n : Node) (hn : nodeOf s id = some n) (hp : placing n = true)
    (hk : nodeKind n = 0) (hl : n.leased = false) (ht : leaseThere s n.ctx n.tr = true) :
    ∃ t, Leads (.nodeLeased id) s t ∧ NodeBut { s with ctxs := t.ctxs } t id (fun n => { n with leased := true, asked := false }) ∧
      (∀ c, c ≠ n.ctx → ctxOf t c = ctxOf s c) ∧
      ctxOf t n.ctx = { ctxOf s n.ctx with asks := (ctxOf s n.ctx).asks.filter fun a => a.1 ≠ id } := by
  have hrun : nodeLeased s id = modCtx (modNode s id fun n => { n with leased := true, asked := false }) n.ctx fun c =>
      { c with asks := c.asks.filter fun a => a.1 ≠ id } := by
    rw [nodeLeased, hn]
    exact if_pos ⟨hp, hk, by simpa using hl, ht⟩
  refine ⟨_, congrArg Host.Outcome.next hrun, rfl, fun c hc => ctxOf_modCtx_ne _ _ hc, ?_⟩
  rw [ctxOf_modCtx_same]
  rfl

/-- A node with one place is launched there (R36, R368). -/
theorem taskPlace_launches (s : State) (id : Nat) (m : Node) (part : Part) (w : Want1) (core : Nat) (sp : Spot)
    (hpool : poolTakes s id = true) (hm : nodeOf (rereadFor s id) id = some m) (hk : nodeKind m = 0)
    (hp : placeTry (rereadFor s id) id = some [((id, part, w), core, sp)]) :
    taskPlace s id = launch (rereadFor s id) id part w.tr core sp := by
  rw [taskPlace, if_pos hpool]
  dsimp only
  rw [hm, hp]
  exact if_neg (not_not.2 hk)

/-- A node whose floor bits are no longer set waits for its lease again (R198). -/
theorem taskPlace_unleases (s : State) (id : Nat) (n : Node) (hn : nodeOf s id = some n) (hpool : poolTakes s id = true)
    (hk : nodeKind n = 0) (ha : placedAlone s n = true) (hr : reread s n = n.tr) (hl : lodThere s n.ctx n.tr = false) :
    ∃ t, Leads (.taskPlace id) s t ∧ nodeOf t id = some { n with leased := false } ∧ t = { s with nodes := t.nodes } := by
  have hin : inPool n = true := inPool_of_placeTry s id n hn (placeTry_of_poolTakes s id hpool)
  have hre : rereadFor s id = rereadNode s id := by
    rw [rereadFor, hn]
    dsimp only
    rw [if_neg (by simpa using hin), if_pos ha]
  have hnode : nodeOf (rereadNode s id) id = some { n with leased := false } := by
    rw [rereadNode, nodeOf_modNode_same, hn]
    simp [hr, hl]
  refine ⟨rereadNode s id, ?_, hnode, rfl⟩
  show Host.Outcome.next (taskPlace s id) = _
  rw [taskPlace, if_pos hpool, hre]
  dsimp only
  rw [hnode, placeTry_of_not_leased (rereadNode s id) id _ hnode hk rfl]

/-- A run of a collector enters the pool (R373). -/
theorem collectReady_begins (s : State) (id : Nat) (n : Node) (hn : nodeOf s id = some n) :
    ∃ m, nodeOf (collectReady s id) id = some m ∧ m.st = 2 ∧ m.consume = n.wr - n.rd ∧ m.parts = n.parts + 1 ∧
      m.entry = s.time ∧ m.csize = BitVec.ofNat 64 ((n.wr - n.rd) % 2 ^ 32 + n.rd % ringSize n.tr * 2 ^ 32) := by
  rw [collectReady, hn]
  dsimp only
  rw [nodeOf_setNodeState, nodeOf_modNode_same, hn]
  exact ⟨_, rfl, rfl, rfl, rfl, rfl, rfl⟩

theorem readyIf_due (s : State) (id : Nat) (n : Node) (due : Node → Bool) (hn : nodeOf s id = some n) (h : due n = true) :
    readyIf s id due = collectReady s id := by
  rw [readyIf, hn]
  exact if_pos h

/-- The end of a run changes its node by name only. -/
theorem nodeOf_endInstance (s : State) (id tid : Nat) :
    nodeOf (endInstance s id tid) id = (nodeOf s id).map fun n =>
      { n with insts := n.insts.filter (· ≠ tid), rd := n.rd + n.consume, consume := 0 } := by
  have hcommit : ∀ (u : State) (t : Task), (commitBin u t).nodes = u.nodes := by
    intro u t
    unfold commitBin
    generalize List.range 8 = l
    induction l generalizing u with
    | nil => rfl
    | cons i l ih => rw [List.foldl_cons, ih]
  rw [endInstance, nodeOf_modNode_same]
  congr 1
  show aget (dropTask _ tid).nodes id = _
  rw [show ∀ u : State, (dropTask u tid).nodes = u.nodes from fun _ => rfl]
  split
  · rw [hcommit]; rfl
  · rfl

/-- The last run of a node completes it (R366). -/
theorem nodeComplete_instance (s : State) (id tid : Nat) (n : Node) (hn : nodeOf s id = some n) (hk : nodeKind n = 0)
    (hi : n.insts = [tid]) (hf : taskFinished s tid = true) (hp : pending n = false) (hst : n.st = 3)
    (hc : collector n = false) : Leads (.nodeComplete id) s (nodeDone (endInstance s id tid) id) := by
  have hend := nodeOf_endInstance s id tid
  rw [hn, Option.map_some, hi] at hend
  have hfilter : n.insts.filter (taskFinished s) = [tid] := by simp [hi, hf]
  show Host.Outcome.next (nodeComplete s id) = _
  rw [nodeComplete, hn]
  dsimp only
  obtain ⟨m, hm, hp', hi', hst', hc'⟩ : ∃ m, nodeOf (endInstance s id tid) id = some m ∧ pending m = false ∧ m.insts = [] ∧
      m.st = 3 ∧ collector m = false := ⟨_, hend, hp, by simp, hst, hc⟩
  rw [if_pos hk, hfilter, List.foldl_cons, List.foldl_nil, settleNode, hm]
  dsimp only
  rw [if_neg (by rw [hp', hi']; decide), if_neg (by rw [hst']; decide), if_neg (by rw [hc']; decide), if_pos hst']

/-- A node that finds no room for 100 us may go to other dies (R368). -/
theorem spillTimeout_spills (s : State) (id : Nat) (n : Node) (hn : nodeOf s id = some n) (hs : n.spill = false)
    (hm : misfits s id n = true) (x : Nat) (hx : n.misfit = some x) (ht : x + 100000 ≤ s.time) :
    spillTimeout s id = modNode s id fun n => { n with spill := true } := by
  have hdue : (!n.spill && misfits s id n && n.misfit.any fun t => decide (t + 100000 ≤ s.time)) = true := by
    rw [hs, hm, hx, Option.any_some, decide_eq_true ht]
    rfl
  rw [spillTimeout, hn]
  exact if_pos hdue

/-- A gang's node that finds no room for 2 ms reserves cores (R374). -/
theorem drainTimeout_reserves (s : State) (id : Nat) (n : Node) (hn : nodeOf s id = some n) (hg : n.tr.gang ≠ 0)
    (hd : n.drain = []) (ha : placedAlone s n = true) (hm : misfits s id n = true) (x : Nat) (hx : n.misfit = some x)
    (ht : x + 2000000 ≤ s.time) : drainTimeout s id = modNode s id fun m => { m with drain := emptySpots s id n } := by
  have hdue : (n.tr.gang ≠ 0 && n.drain.isEmpty && misfits s id n && n.misfit.any fun t => decide (t + 2000000 ≤ s.time)) =
      true := by
    rw [decide_eq_true hg, hd, hm, hx, Option.any_some, decide_eq_true ht]
    rfl
  rw [drainTimeout, hn]
  dsimp only
  rw [if_pos hdue, if_pos ha]
  rfl

/-- A node without squads whose commands are over completes (R366). -/
theorem nodeComplete_command (s : State) (id : Nat) (n : Node) (hn : nodeOf s id = some n)
    (hk : nodeKind n = 1 ∨ nodeKind n = 2) (hst : n.st = 3) (hf : n.fault = none) (hcopies : ∀ c ∈ s.copies, c.node ≠ some id)
    (hcmds : ∀ c ∈ s.lfCmds, c.node ≠ some id) : Leads (.nodeComplete id) s (nodeDone s id) := by
  show Host.Outcome.next (nodeComplete s id) = _
  rw [nodeComplete, hn]
  dsimp only
  rw [if_neg (by omega), if_pos ⟨hst, by omega⟩, hf]
  exact congrArg _ (if_neg (by simpa using ⟨hcopies, hcmds⟩))

/-- Settles O54: each event by what it does where it applies; a placement of one run is a launch. -/
theorem nodeEvents : Obligations.NodeEvents := by
  unfold Obligations.NodeEvents
  intro s id n hn
  refine ⟨leaseRequest_asks s id n hn, nodeLeased_leases s id n hn, ?_, taskPlace_unleases s id n hn, ?_, ?_, ?_, ?_, ?_⟩
  · intro m part w core sp hpool u hm hk hp hv
    obtain ⟨tk, htk, hfields, hlen, hnode, hsquads, hslots, hold⟩ := launch_places _ id m part w.tr core sp hm hv
    have hleads : Leads (.taskPlace id) s (launch (rereadFor s id) id part w.tr core sp) :=
      congrArg Host.Outcome.next (taskPlace_launches s id m part w core sp hpool hm hk hp)
    obtain ⟨ns, hframe⟩ : ∃ ns, u = { s with nodes := ns } := rereadFor_frame s id
    change Leads (.taskPlace id) s (launch u id part w.tr core sp) at hleads
    clear_value u
    have htime : u.time = s.time := by rw [hframe]
    have hid : u.nextId = s.nextId := by rw [hframe]
    have hsq : u.squads = s.squads := by rw [hframe]
    refine ⟨_, u.nextId, tk, hleads, htk, ?_⟩
    rw [hfields]
    refine ⟨rfl, rfl, rfl, rfl, rfl, rfl, rfl, rfl, rfl, rfl, hnode, htime, hlen, ?_, fun k hk _ => hslots k hk, ?_⟩
    · intro k j hj
      exact hsquads k j hj
    · intro j hj
      rw [hold j (by omega), squadOf, hsq, squadOf]
  · rintro hs hm ⟨x, hx, ht⟩
    exact ⟨_, rfl, spillTimeout_spills s id n hn hs hm x hx ht⟩
  · rintro hg hd ha hm ⟨x, hx, ht⟩
    exact ⟨_, rfl, drainTimeout_reserves s id n hn hg hd ha hm x hx ht⟩
  · intro hidle
    have hbegun := collectReady_begins s id n hn
    constructor
    · intro h
      exact ⟨_, congrArg Host.Outcome.next (readyIf_due s id n (collectDue s) hn (by simpa [collectDue, hidle] using h)), hbegun⟩
    · intro h
      exact ⟨_, congrArg Host.Outcome.next (readyIf_due s id n (collectLate s) hn (by simpa [collectLate, hidle] using h)), hbegun⟩
  · intro tid hk hi hf hp hst hc
    exact nodeComplete_instance s id tid n hn hk hi hf hp hst hc
  · exact nodeComplete_command s id n hn

end Sys2Proof.Machine

end

section

namespace Sys2Proof.Machine

/-! ### Happens-before as it is computed -/

/-- Every edge leads forward. -/
theorem lt_of_hbEdge {h : List HEv} {i j : Nat} (he : hbEdge h i j = true) : i < j := by
  simp only [hbEdge, Bool.or_eq_true] at he
  rcases he with (((((he | he) | he) | he) | he) | he) | he
  · unfold accessOrder at he
    split at he
    · simp only [Bool.and_eq_true, decide_eq_true_eq] at he; exact he.1
    · cases he
  · unfold syncs at he
    split at he
    · simp only [Bool.and_eq_true, decide_eq_true_eq] at he; exact he.1.1.1.1
    · cases he
  · unfold relCovers at he
    split at he
    · simp only [Bool.and_eq_true, decide_eq_true_eq] at he; exact he.1.1
    · cases he
  · unfold keySync at he
    split at he
    · simp only [Bool.and_eq_true, decide_eq_true_eq] at he; exact he.1.1
    · cases he
  · unfold barSync at he
    split at he
    · simp only [Bool.and_eq_true, decide_eq_true_eq] at he; exact he.1
    · cases he
  · unfold takesAfter at he
    split at he
    · simp only [Bool.and_eq_true, decide_eq_true_eq] at he; exact he.1
    · cases he
  · unfold fenceOrder at he
    split at he <;> simp only [Bool.and_eq_true, decide_eq_true_eq, Bool.false_eq_true] at he
    all_goals omega

theorem lt_of_crosses {h : List HEv} {i f j : Nat} (hc : crosses h i f j = true) : f < j := by
  unfold crosses at hc
  split at hc
  · simp only [Bool.and_eq_true, decide_eq_true_eq] at hc; exact hc.1.2
  · cases hc

theorem hbRows_length (h : List HEv) (n : Nat) : (hbRows h n).length = n := by
  induction n with
  | zero => rfl
  | succ n ih => simp [hbRows, ih]

/-- The row of an earlier entry. -/
theorem hbRows_getElem? (h : List HEv) (n k : Nat) (hk : k < n) : (hbRows h n)[k]? = some (hbBefore h k) := by
  induction n with
  | zero => omega
  | succ n ih =>
    rw [hbRows]
    rcases Nat.lt_or_ge k n with hlt | hge
    · rw [List.getElem?_append_left (by rwa [hbRows_length]), ih hlt]
    · obtain rfl : k = n := by omega
      rw [List.getElem?_append_right (by rw [hbRows_length]), hbRows_length]
      simp [hbBefore]

/-- What happens before an entry, from what happens before the earlier ones. -/
theorem mem_hbBefore (h : List HEv) (i j : Nat) :
    i ∈ hbBefore h j ↔ (i < j ∧ hbEdge h i j = true ∨ ∃ f, f < j ∧ i ∈ hbBefore h f ∧ crosses h i f j = true) ∨
      ∃ k, (k < j ∧ hbEdge h k j = true ∨ ∃ f, f < j ∧ k ∈ hbBefore h f ∧ crosses h k f j = true) ∧
        i ∈ (((hbRows h j)[k]?).getD []) := by
  have hrow : ∀ f i, f < j → (i ∈ ((hbRows h j)[f]?).getD [] ↔ i ∈ hbBefore h f) := by
    intro f i hf
    rw [hbRows_getElem? h j f hf, Option.getD_some]
  have hnear : ∀ i, i ∈ (List.range j).filter (fun i => hbEdge h i j) ++
      ((List.range j).flatMap fun f => (((hbRows h j)[f]?).getD []).filter fun i => crosses h i f j) ↔
        (i < j ∧ hbEdge h i j = true ∨ ∃ f, f < j ∧ i ∈ hbBefore h f ∧ crosses h i f j = true) := by
    intro i
    simp only [List.mem_append, List.mem_filter, List.mem_flatMap, List.mem_range]
    constructor
    · rintro (h1 | ⟨f, hf, hi, hc⟩)
      · exact .inl h1
      · exact .inr ⟨f, hf, (hrow f i hf).1 hi, hc⟩
    · rintro (h1 | ⟨f, hf, hi, hc⟩)
      · exact .inl h1
      · exact .inr ⟨f, hf, (hrow f i hf).2 hi, hc⟩
  rw [show hbBefore h j = hbRow h (hbRows h j) j from rfl, hbRow]
  dsimp only
  rw [List.mem_append, List.mem_flatMap, hnear]
  simp only [hnear]

/-- An entry that happens before another is an earlier one. -/
theorem lt_of_mem_hbBefore (h : List HEv) (j i : Nat) (hi : i ∈ hbBefore h j) : i < j := by
  induction j using Nat.strong_induction_on generalizing i with
  | _ j ih =>
    have hnear : ∀ i, (i < j ∧ hbEdge h i j = true ∨ ∃ f, f < j ∧ i ∈ hbBefore h f ∧ crosses h i f j = true) → i < j := by
      rintro i (⟨hlt, -⟩ | ⟨f, hf, hi, -⟩)
      · exact hlt
      · exact (ih f hf i hi).trans hf
    rcases (mem_hbBefore h i j).1 hi with hn | ⟨k, hn, hi⟩
    · exact hnear i hn
    · have hk := hnear k hn
      rw [hbRows_getElem? h j k hk, Option.getD_some] at hi
      exact (ih k hk i hi).trans hk

theorem hbBefore_trans (h : List HEv) (j k i : Nat) (hk : k ∈ hbBefore h j) (hi : i ∈ hbBefore h k) : i ∈ hbBefore h j := by
  induction j using Nat.strong_induction_on generalizing k i with
  | _ j ih =>
    have hkj := lt_of_mem_hbBefore h j k hk
    rcases (mem_hbBefore h k j).1 hk with hn | ⟨m, hn, hkm⟩
    · exact (mem_hbBefore h i j).2 (.inr ⟨k, hn, by rw [hbRows_getElem? h j k hkj]; exact hi⟩)
    · have hmj : m < j := by
        rcases hn with ⟨hlt, -⟩ | ⟨f, hf, hm, -⟩
        · exact hlt
        · exact (lt_of_mem_hbBefore h f m hm).trans hf
      rw [hbRows_getElem? h j m hmj, Option.getD_some] at hkm
      exact (mem_hbBefore h i j).2 (.inr ⟨m, hn, by rw [hbRows_getElem? h j m hmj]; exact ih m hmj k i hkm hi⟩)

/-- What happens before an entry is among what is computed (R178). -/
theorem mem_hbBefore_of_happensBefore {h : List HEv} {i j : Nat} (hb : HappensBefore h i j) : i ∈ hbBefore h j := by
  induction hb with
  | edge i j he => exact (mem_hbBefore h i j).2 (.inl (.inl ⟨lt_of_hbEdge he, he⟩))
  | trans i j k _ _ hij hjk => exact hbBefore_trans h k j i hjk hij
  | fencex i f j _ hc hif => exact (mem_hbBefore h i j).2 (.inl (.inr ⟨f, lt_of_crosses hc, hif, hc⟩))

/-! ### What an agent that is no thread sees -/

/-- A running maximum over a list, from the conditions on its entries. -/
theorem foldl_ge_init {α : Type} (l : List α) (f : Nat → α → Nat) (hf : ∀ m a, m ≤ f m a) (m : Nat) : m ≤ l.foldl f m := by
  induction l generalizing m with
  | nil => exact le_rfl
  | cons a l ih => exact (hf m a).trans (ih (f m a))

theorem foldl_ge_mem {α : Type} (l : List α) (f : Nat → α → Nat) (hf : ∀ m a, m ≤ f m a) (a : α) (n : Nat) (ha : a ∈ l)
    (hn : ∀ m, n ≤ f m a) (m : Nat) : n ≤ l.foldl f m := by
  induction l generalizing m with
  | nil => cases ha
  | cons b l ih =>
    rcases List.mem_cons.1 ha with rfl | ha
    · exact (hn m).trans (foldl_ge_init l f hf _)
    · exact ih ha _

/-- A step that folds a maximum only when a condition holds does not lower the value. -/
theorem foldl_ge_ite {b : Prop} [Decidable b] (m : Nat) (l : List HLoc) (f : HLoc → Nat) :
    m ≤ if b then l.foldl (fun m u => max m (f u)) m else m := by
  split
  · exact foldl_ge_init l _ (fun m u => le_max_left m (f u)) m
  · exact le_rfl

theorem accAt_mem_zipIdx {h : List HEv} {i : Nat} {c : Acc} (hi : accAt h i = some c) : (HEv.access c, i) ∈ h.zipIdx := by
  unfold accAt at hi
  split at hi
  next a ha =>
    cases hi
    exact List.mem_zipIdx_iff_getElem?.2 ha
  · cases hi

/-- The last store of a record with one entry more. -/
theorem lastStore_concat (h : List HEv) (e : HEv) (l : HLoc) :
    lastStore (h ++ [e]) (h ++ [e]).length l = match e with
      | .access c => if c.wr && meets c.loc l then h.length + 1 else lastStore h h.length l
      | _ => lastStore h h.length l := by
  unfold lastStore
  rw [List.take_length, List.take_length, List.zipIdx_append, List.foldl_append]
  cases e <;> simp [List.zipIdx]

/-- A store to a place is not after the last one. -/
theorem lt_lastStore {h : List HEv} {i : Nat} {c : Acc} (l : HLoc) (hi : accAt h i = some c) (hw : c.wr = true)
    (hm : meets c.loc l = true) : i < lastStore h h.length l := by
  induction h using List.reverseRecOn with
  | nil => simp [accAt] at hi
  | append_singleton h e ih =>
    rw [lastStore_concat]
    rcases Nat.lt_or_ge i h.length with hlt | hge
    · have hold : accAt h i = some c := by rw [← hi, accAt, accAt, List.getElem?_append_left hlt]
      have := ih hold
      cases e with
      | access c => dsimp only; split <;> omega
      | _ => exact this
    · have hlast : i = h.length ∧ e = .access c := by
        unfold accAt at hi
        rw [List.getElem?_append_right hge] at hi
        split at hi
        next a ha =>
          cases hi
          obtain ⟨hlt, ha⟩ := List.getElem?_eq_some_iff.1 ha
          simp only [List.length_cons, List.length_nil] at hlt
          refine ⟨by omega, ?_⟩
          rw [← ha]
          simp
        · cases hi
      obtain ⟨rfl, rfl⟩ := hlast
      simp [hw, hm]

/-- What a look must see includes every store to the place that happens before it. -/
theorem lt_mustSee {h : List HEv} {w : Who} {p : APath} {l : HLoc} {i : Nat} {c : Acc} (hi : accAt h i = some c)
    (hw : c.wr = true) (hm : meets c.loc l = true) (hb : HappensBefore (h ++ [.access (accRd w p l)]) i h.length) :
    i < mustSee h w p l := by
  have hlast := lt_lastStore l hi hw hm
  have hin : (hbBefore (h ++ [.access (accRd w p l)]) h.length).contains i = true := by
    simpa using mem_hbBefore_of_happensBefore hb
  unfold mustSee
  rw [if_neg (by omega)]
  refine foldl_ge_mem _ _ ?_ _ (i + 1) (accAt_mem_zipIdx hi) ?_ 0
  · intro m e
    dsimp only
    split
    · refine le_trans ?_ (foldl_ge_ite _ _ _)
      split
      · exact le_max_left _ _
      · exact le_rfl
    · split
      · exact le_max_left _ _
      · exact le_rfl
    · exact le_rfl
  · intro m
    dsimp only
    refine le_trans ?_ (foldl_ge_ite _ _ _)
    rw [if_pos (by rw [hw, hm, hin]; rfl)]
    exact le_max_right _ _

/-- What one agent of its own, which is no thread, is shown of a granule is what it may see. -/
theorem seenIdx_sees (s : State) (w : Who) (p : APath) (sp : Space) (a n b k : Nat) (hw : isThread w = false)
    (hmeet : meets (.bytes sp b k) (.bytes sp a n) = true) : Sees s w p (.bytes sp b k) (seenIdx s p [⟨w, sp, a, n⟩] sp b k) := by
  have hco : ∀ c, coherent w p c = false := fun c => by rw [coherent, hw]; rfl
  have hidx : seenIdx s p [⟨w, sp, a, n⟩] sp b k ≤ lastStore s.hist s.hist.length (.bytes sp b k) ∧
      min (lastStore s.hist s.hist.length (.bytes sp b k)) (mustSee s.hist w p (.bytes sp b k)) ≤
        seenIdx s p [⟨w, sp, a, n⟩] sp b k := by
    unfold seenIdx
    simp only [List.filter_cons, hmeet, if_true, List.filter_nil, List.map_cons, List.map_nil, List.foldl_cons, List.foldl_nil,
      Nat.zero_max]
    generalize mustSee s.hist w p (.bytes sp b k) = lo
    generalize lastStore s.hist s.hist.length (.bytes sp b k) = hi
    split
    · omega
    · have := Nat.mod_lt (Config.sees s.ctr (placeKey sp b)) (show hi - lo + 1 > 0 by omega)
      omega
  refine ⟨hidx.1, fun i c hi hwr hm hb => ?_, fun i c _ _ hc => by rw [hco] at hc; cases hc⟩
  rcases hb with hb | hb
  · have h1 := lt_mustSee (p := p) hi hwr hm hb
    have h2 := lt_lastStore (.bytes sp b k) hi hwr hm
    omega
  · rw [hco] at hb; cases hb

/-- The granules of a place lie in it. -/
theorem granule_mem {a n : Nat} {e : Nat × Nat} (he : e ∈ granules a n) : a ≤ e.1 ∧ 0 < e.2 ∧ e.1 + e.2 ≤ a + n := by
  unfold granules at he
  split at he
  · cases he
  · obtain ⟨i, hi, rfl⟩ := List.mem_map.1 he
    rw [List.mem_range] at hi
    dsimp only
    omega

/-- What an agent that is no thread reads in an access of its own is what it may read (R178). -/
theorem lookBytes_reads (s : State) (w : Who) (p : APath) (sp : Space) (a n : Nat) (hw : isThread w = false) :
    Reads s w p sp a n (fun b k => seenIdx s p [⟨w, sp, a, n⟩] sp b k) (lookBytes s w p sp a n) := by
  refine ⟨rfl, fun e he => seenIdx_sees s w p sp a n e.1 e.2 hw ?_⟩
  obtain ⟨h1, h2, h3⟩ := granule_mem he
  simp only [meets, beq_self_eq_true, Bool.true_and, Bool.and_eq_true, decide_eq_true_eq]
  omega

end Sys2Proof.Machine

end

section

namespace Sys2Proof.Machine

/-! ### Undefined words (R38) -/

/-- A fault that the issuing path raises is delivered to a squad that has settled. -/
theorem raiseFault_delivered (s : State) (id : Nat) (q : Squad) (p : Path) (f : FaultInfo) (hq : squadOf s id = some q)
    (hp : runningPath q = some p) (hfault : q.fault = none) (hpend : q.pend = []) (hpark : f.park = false) :
    Delivered s (raiseFault s id { f with late := some (p.entry, p.pc) }) id q p f := by
  obtain ⟨p', hp', hentry, hpc⟩ : ∃ p', faultPath q { f with late := some (p.entry, p.pc) } = some p' ∧
      p'.entry = p.entry ∧ p'.pc = p.pc := by
    unfold faultPath
    cases hfind : q.paths.find? fun a => a.entry == p.entry with
    | some a => exact ⟨{ a with pc := p.pc }, by simp [hfind], by simpa using List.find?_some hfind, rfl⟩
    | none => simpa using List.find?_eq_none.1 hfind p (runningPath_mem hp)
  have hraise : raiseFault s id { f with late := some (p.entry, p.pc) } =
      takeFault s id q p' { f with late := some (p.entry, p.pc) } := by
    rw [raiseFault, hq]
    dsimp only
    rw [if_neg (by rw [hfault]; decide), if_pos (by rw [hpend]; rfl), hp']
  rw [hraise]
  exact Delivered.of_same (takeFault_delivered s id q p' _ hq hpark) ⟨rfl, rfl, rfl⟩ ⟨rfl, rfl, rfl⟩ (fun _ _ => rfl)
    ⟨rfl, rfl, rfl, rfl, rfl, rfl, rfl⟩ rfl rfl rfl rfl rfl rfl rfl ⟨rfl, rfl, rfl⟩ ⟨hentry, hpc⟩ rfl

/-- An illegal word is ILL with its subcode. -/
theorem illegalWord_raises (s : State) (sub id : Nat) (q : Squad) (p : Path) (h : Hdr) (hI : Issues s id q p h 0)
    (hgp : h.gp = (splitWord (wordAt s q.core p.pc)).gp) (hgn : h.gn = ((splitWord (wordAt s q.core p.pc)).gn == 1)) :
    Raises (.illegalWord sub) s id q p (mkFault 1 sub (runs p h q) p) := by
  have hthreads : wordThreads s q p = runs p h q := by rw [runs, guardMask, hgp, hgn]; rfl
  refine ⟨_, ?_, raiseFault_delivered s id q p (mkFault 1 sub (runs p h q) p) hI.squad hI.path hI.whole hI.settled rfl⟩
  show execIllegalWord sub s = _
  unfold execIllegalWord
  rw [hI.turn, Option.bind_some, hI.squad]
  dsimp only
  rw [hI.path]
  dsimp only
  rw [hthreads]
  rfl

/-! ### Memory on its own (R168, R169, R413) -/

/-- A broadcast sets the level of the cores of its die. -/
theorem setCong_level (s : State) (die lv c : Nat) :
    tget 0 (setCong s die lv).cong c = if c / 128 = die then lv else tget 0 s.cong c := by
  have hfold : ∀ (l : List Nat) (m : Tbl Nat), tget 0 (l.foldl (fun m i => tset 0 m (die * 128 + i) lv) m) c =
      if ∃ i ∈ l, die * 128 + i = c then lv else tget 0 m c := by
    intro l
    induction l with
    | nil => simp
    | cons i l ih =>
      intro m
      rw [List.foldl_cons, ih, tget_tset]
      by_cases hl : ∃ j ∈ l, die * 128 + j = c
      · rw [if_pos hl, if_pos (by obtain ⟨j, hj, hc⟩ := hl; exact ⟨j, List.mem_cons_of_mem _ hj, hc⟩)]
      · rw [if_neg hl]
        by_cases hi : die * 128 + i = c
        · rw [if_pos hi, if_pos ⟨i, List.mem_cons_self, hi⟩]
        · rw [if_neg hi, if_neg]
          rintro ⟨j, hj, hc⟩
          rcases List.mem_cons.1 hj with rfl | hj
          · exact hi hc
          · exact hl ⟨j, hj, hc⟩
  refine (hfold (List.range 128) s.cong).trans (if_congr ?_ rfl rfl)
  constructor
  · rintro ⟨i, hi, rfl⟩
    have := List.mem_range.1 hi
    omega
  · intro hc
    exact ⟨c % 128, List.mem_range.2 (by omega), by omega⟩

/-- A group has been activated in the window just where an active line says so. -/
theorem activated_iff (s : State) (die g : Nat) : activated s die g = true ↔
    ∃ e ∈ s.active, e.1 * 256 / 2 ^ 37 = die ∧ Config.rowGroup e.1 = g ∧ s.time < e.2 + Config.refreshWindow := by
  simp only [activated, List.any_eq_true, Bool.and_eq_true, beq_iff_eq, decide_eq_true_eq, homeDie, and_assoc]

/-- A scrub adds to the counters of its die. -/
theorem scrub_counts (s : State) (l : List Nat) :
    l.foldl scrubStep s = { s with corrected := (l.foldl scrubStep s).corrected, ctr := (l.foldl scrubStep s).ctr } ∧
      ∀ d, tget 0 s.corrected d ≤ tget 0 (l.foldl scrubStep s).corrected d ∧
        (d ∉ l → tget 0 (l.foldl scrubStep s).corrected d = tget 0 s.corrected d) := by
  induction l generalizing s with
  | nil => exact ⟨rfl, fun d => ⟨le_rfl, fun _ => rfl⟩⟩
  | cons i l ih =>
    obtain ⟨hframe, hcount⟩ := ih (scrubStep s i)
    have hstep : ∀ d, tget 0 (scrubStep s i).corrected d =
        if i = d then tget 0 s.corrected i + Config.openValue 5 s.ctr else tget 0 s.corrected d := fun d => tget_tset _ _ _ _ _
    rw [List.foldl_cons]
    refine ⟨hframe.trans rfl, fun d => ?_⟩
    obtain ⟨hle, heq⟩ := hcount d
    have hd := hstep d
    constructor
    · refine le_trans ?_ hle
      rw [hd]
      split
      next h => subst h; exact Nat.le_add_right _ _
      · exact le_rfl
    · intro hmem
      rw [List.mem_cons, not_or] at hmem
      rw [heq hmem.2, hd, if_neg (Ne.symm hmem.1)]

/-- A descriptor store is read at its block only. -/
theorem rdTag_wrTag_same (s : State) (sp : Space) (b : Nat) (x : W16) : rdTag (wrTag s sp b x) sp b = x := by
  cases sp <;> simp [rdTag, wrTag]

theorem rdTag_wrTag_other (s : State) (sp sq : Space) (b c : Nat) (x : W16) (h : ¬ sameBlock sp b sq c) :
    rdTag (wrTag s sp b x) sq c = rdTag s sq c := by
  cases sp <;> cases sq <;> simp_all [rdTag, wrTag, sameBlock, tget_tset]

theorem wrTag_bytes (s : State) (sp : Space) (b : Nat) (x : W16) : SameBytes s (wrTag s sp b x) := by
  cases sp <;> exact ⟨rfl, rfl, rfl⟩

/-- A kill is asked for of a task that is not being ended. -/
theorem requestKill_asks (s : State) (task : Nat) (r : FaultRec) : asked s (requestKill s task r) task r := by
  intro k hk hstop
  rw [requestKill, taskOf_modTask_same, hk]
  cases hst : k.stopping with
  | kill r' => exact absurd hst (hstop r').1
  | scrub r' => exact absurd hst (hstop r').2
  | _ => simp [hst]

/-! ### The pacer (R303-R305) -/

theorem refillOne_eq (b : Budget) : refillOne b = refilled b := rfl

theorem refillKey_none (s : State) (k : Nat) (h : aget s.budgets k = none) : refillKey s k = s := by
  rw [refillKey, h]

/-- A refill of a context that nobody waits in. -/
theorem refillKey_empty (s : State) (k : Nat) (b : Budget) (hb : aget s.budgets k = some b) (hp : b.prio = [])
    (hg : b.gen = []) : refillKey s k = { s with budgets := aput s.budgets k (refilled b) } := by
  rw [refillKey, hb]
  have h1 : (refillOne b).prio = [] := hp
  have h2 : (refillOne b).gen = [] := hg
  dsimp only
  rw [h1, h2]
  simp only [grantList, List.append_nil, List.foldl_nil]
  rw [refillOne_eq, show { refilled b with prio := [], gen := [] } = refilled b by simp [refilled, hp, hg]]

/-- A grant list answers entries of its list. -/
theorem grantList_grants (prio : Bool) (l : List (Nat × Nat × Bool)) (b : Budget) (g : Grant)
    (hg : g ∈ (grantList prio l b).2.2) : ∃ e ∈ l, e.1 = g.squad := by
  induction l generalizing b with
  | nil => cases hg
  | cons e l ih =>
    rw [grantList] at hg
    dsimp only at hg
    split at hg
    · rcases List.mem_cons.1 hg with rfl | hg
      · exact ⟨e, List.mem_cons_self, rfl⟩
      · obtain ⟨e', he', h⟩ := ih _ hg
        exact ⟨e', List.mem_cons_of_mem _ he', h⟩
    · cases hg

/-- Grants change the squads that they name, and of the state nothing else. -/
theorem grants_frame (gs : List Grant) (s : State) :
    gs.foldl grantSquad s = { s with squads := (gs.foldl grantSquad s).squads } := by
  induction gs generalizing s with
  | nil => rfl
  | cons g gs ih => rw [List.foldl_cons, ih]; rfl

theorem grants_other (gs : List Grant) (s : State) (id : Nat) (h : ∀ g ∈ gs, g.squad ≠ id) :
    squadOf (gs.foldl grantSquad s) id = squadOf s id := by
  induction gs generalizing s with
  | nil => rfl
  | cons g gs ih =>
    rw [List.foldl_cons, ih _ (fun g' hg' => h g' (List.mem_cons_of_mem _ hg'))]
    exact squadOf_modSquad_ne _ _ (Ne.symm (h g List.mem_cons_self))

/-- A refill of one context leaves the other budgets, and the squads that do not wait in it. -/
theorem refillKey_keeps (s : State) (k : Nat) :
    refillKey s k = { s with squads := (refillKey s k).squads, budgets := (refillKey s k).budgets } ∧
      (∀ j, j ≠ k → aget (refillKey s k).budgets j = aget s.budgets j) ∧
      ∀ id, (∀ b, aget s.budgets k = some b → ∀ g ∈ b.prio ++ b.gen, g.1 ≠ id) →
        squadOf (refillKey s k) id = squadOf s id := by
  cases hb : aget s.budgets k with
  | none => rw [refillKey_none s k hb]; exact ⟨rfl, fun _ _ => rfl, fun _ _ => rfl⟩
  | some b =>
    rw [refillKey, hb]
    dsimp only
    rw [grants_frame]
    refine ⟨rfl, fun j hj => aget_aput_ne _ _ hj, fun id hid => ?_⟩
    have hnone := hid b rfl
    refine grants_other _ _ id fun g hg => ?_
    rcases List.mem_append.1 hg with hg | hg
    · obtain ⟨e, he, heq⟩ := grantList_grants _ _ _ g hg
      exact heq ▸ hnone e (List.mem_append_left _ he)
    · obtain ⟨e, he, heq⟩ := grantList_grants _ _ _ g hg
      exact heq ▸ hnone e (List.mem_append_right _ he)

/-- The first of a context's waiting squads is granted when the refill has its units. -/
theorem refillKey_grants (s : State) (k : Nat) (b : Budget) (id u : Nat) (r : List (Nat × Nat × Bool)) (q : Squad)
    (hb : aget s.budgets k = some b) (hp : b.prio = []) (hg : b.gen = (id, u, true) :: r) (hu : u ≤ (refilled b).bud)
    (hq : squadOf s id = some q) (hr : ∀ g ∈ r, g.1 ≠ id) :
    ∃ q', squadOf (refillKey s k) id = some q' ∧ q'.wait = none ∧ q'.granted = true := by
  have h1 : (refillOne b).prio = [] := hp
  have h2 : (refillOne b).gen = (id, u, true) :: r := hg
  have h3 : u ≤ (refillOne b).bud := hu
  rw [refillKey, hb]
  dsimp only
  rw [h1, h2]
  simp only [grantList, List.nil_append, spendable, Bool.false_eq_true, if_false, if_true]
  rw [if_pos h3]
  rw [List.foldl_cons, grants_other]
  · exact ⟨_, squadOf_modSquad_some _ hq, rfl, rfl⟩
  · intro g hg'
    obtain ⟨e, he, heq⟩ := grantList_grants _ _ _ g hg'
    exact heq ▸ hr e he

/-! ### Refills of many contexts -/

theorem refillKeys_frame (l : List Nat) (s : State) :
    l.foldl refillKey s = { s with squads := (l.foldl refillKey s).squads, budgets := (l.foldl refillKey s).budgets } := by
  induction l generalizing s with
  | nil => rfl
  | cons k l ih =>
    rw [List.foldl_cons, ih]
    generalize l.foldl refillKey (refillKey s k) = u
    rw [(refillKey_keeps s k).1]

/-- A context that is not refilled keeps its budget. -/
theorem refillKeys_other (l : List Nat) (s : State) (k : Nat) (hk : k ∉ l) :
    aget (l.foldl refillKey s).budgets k = aget s.budgets k := by
  induction l generalizing s with
  | nil => rfl
  | cons j l ih =>
    rw [List.mem_cons, not_or] at hk
    rw [List.foldl_cons, ih _ hk.2, (refillKey_keeps s j).2.1 k hk.1]

/-- A squad that waits in none of the contexts is as before. -/
theorem refillKeys_squad (l : List Nat) (s : State) (id : Nat) (hnodup : l.Nodup)
    (hid : ∀ k ∈ l, ∀ b, aget s.budgets k = some b → ∀ g ∈ b.prio ++ b.gen, g.1 ≠ id) :
    squadOf (l.foldl refillKey s) id = squadOf s id := by
  induction l generalizing s with
  | nil => rfl
  | cons k l ih =>
    obtain ⟨hk, hl⟩ := List.nodup_cons.1 hnodup
    obtain ⟨-, hother, hsquad⟩ := refillKey_keeps s k
    rw [List.foldl_cons, ih _ hl, hsquad id (hid k List.mem_cons_self)]
    intro j hj b hb
    exact hid j (List.mem_cons_of_mem _ hj) b (by rwa [hother j (fun h => hk (h ▸ hj))] at hb)

/-- A key among distinct ones, with what stands before and after it. -/
theorem split_of_mem_nodup {l : List Nat} {k : Nat} (hk : k ∈ l) (hnodup : l.Nodup) :
    ∃ l1 l2, l = l1 ++ k :: l2 ∧ k ∉ l1 ∧ k ∉ l2 ∧ l1.Nodup ∧ l2.Nodup := by
  obtain ⟨l1, l2, rfl⟩ := List.append_of_mem hk
  obtain ⟨h1, h2, hdis⟩ := List.nodup_append.1 hnodup
  obtain ⟨hk2, h2⟩ := List.nodup_cons.1 h2
  exact ⟨l1, l2, rfl, fun h => hdis k h k List.mem_cons_self rfl, hk2, h1, h2⟩

theorem refillKeys_empty (l : List Nat) (s : State) (k : Nat) (b : Budget) (hk : k ∈ l) (hnodup : l.Nodup)
    (hb : aget s.budgets k = some b) (hp : b.prio = []) (hg : b.gen = []) :
    aget (l.foldl refillKey s).budgets k = some (refilled b) := by
  obtain ⟨l1, l2, rfl, h1, h2, -, -⟩ := split_of_mem_nodup hk hnodup
  rw [List.foldl_append, List.foldl_cons, refillKeys_other _ _ _ h2,
    refillKey_empty _ k b (by rw [refillKeys_other _ _ _ h1, hb]) hp hg]
  exact aget_aput_same _ _ _

theorem refillKeys_grants (l : List Nat) (s : State) (k : Nat) (b : Budget) (id u : Nat) (r : List (Nat × Nat × Bool))
    (q : Squad) (hk : k ∈ l) (hnodup : l.Nodup) (hb : aget s.budgets k = some b) (hp : b.prio = [])
    (hg : b.gen = (id, u, true) :: r) (hu : u ≤ (refilled b).bud) (hq : squadOf s id = some q)
    (hother : ∀ j b, j ≠ k → aget s.budgets j = some b → ∀ g ∈ b.prio ++ b.gen, g.1 ≠ id) (hr : ∀ g ∈ r, g.1 ≠ id) :
    ∃ q', squadOf (l.foldl refillKey s) id = some q' ∧ q'.wait = none ∧ q'.granted = true := by
  obtain ⟨l1, l2, rfl, h1, h2, hn1, hn2⟩ := split_of_mem_nodup hk hnodup
  rw [List.foldl_append, List.foldl_cons]
  have hdis : ∀ j ∈ l2, j ∉ l1 := fun j hj hj1 => (List.nodup_append.1 hnodup).2.2 j hj1 j (List.mem_cons_of_mem _ hj) rfl
  have hbefore : squadOf (l1.foldl refillKey s) id = some q := by
    rw [refillKeys_squad l1 s id hn1 fun j hj b hb => hother j b (fun h => h1 (h ▸ hj)) hb, hq]
  obtain ⟨q', hq', hwait, hgranted⟩ := refillKey_grants (l1.foldl refillKey s) k b id u r q
    (by rw [refillKeys_other _ _ _ h1, hb]) hp hg hu hbefore hr
  refine ⟨q', ?_, hwait, hgranted⟩
  rw [refillKeys_squad l2 _ id hn2, hq']
  intro j hj b' hb'
  have hjk : j ≠ k := fun h => h2 (h ▸ hj)
  rw [(refillKey_keeps _ k).2.1 j hjk, refillKeys_other _ _ _ (hdis j hj)] at hb'
  exact hother j b' hjk hb'

theorem mem_of_aget {α : Type} {m : Assoc α} {k : Nat} {v : α} (h : aget m k = some v) : (k, v) ∈ m := by
  induction m with
  | nil => cases h
  | cons e m ih =>
    obtain ⟨j, w⟩ := e
    by_cases hj : j = k
    · subst hj
      simp only [aget, if_true, Option.some.injEq] at h
      exact h ▸ List.mem_cons_self
    · simp only [aget, if_neg hj] at h
      exact List.mem_cons_of_mem _ (ih h)

theorem aget_map {α β : Type} (m : Assoc α) (f : α → β) (k : Nat) :
    aget (m.map fun e => (e.1, f e.2)) k = (aget m k).map f := by
  induction m with
  | nil => rfl
  | cons e m ih =>
    obtain ⟨j, w⟩ := e
    by_cases hj : j = k <;> simp [aget, hj, ih]

/-- What a squad's cap and its wait for it are after a refill (R391). -/
def capAnew (q : Squad) : Squad := { q with ebudDeb := 0, wait := if q.wait = some .capped then none else q.wait }

/-- The state in which the contexts are refilled. -/
def refillStart (s : State) : State :=
  { s with refills := s.refills + 1, squads := s.squads.map fun e => (e.1, capAnew e.2) }

theorem pacerRefill_due (s : State) (h : s.refills < s.time / 1000) :
    pacerRefill s = (s.budgets.map (·.1)).foldl refillKey (refillStart s) := if_pos h

theorem pacerRefill_refills (s : State) (hdue : s.refills < s.time / 1000) (hnodup : (s.budgets.map (·.1)).Nodup) :
    ∃ t, Leads .pacerRefill s t ∧ t.refills = s.refills + 1 ∧
      t = { s with refills := t.refills, squads := t.squads, budgets := t.budgets } ∧
      (∀ k b, aget s.budgets k = some b → b.prio = [] → b.gen = [] → aget t.budgets k = some (refilled b)) ∧
      (∀ id q, squadOf s id = some q → (∀ e ∈ s.budgets, ∀ g ∈ e.2.prio ++ e.2.gen, g.1 ≠ id) →
        squadOf t id = some { q with ebudDeb := 0, wait := if q.wait = some .capped then none else q.wait }) ∧
      (∀ k b id u r q, aget s.budgets k = some b → b.prio = [] → b.gen = (id, u, true) :: r → u ≤ (refilled b).bud →
        squadOf s id = some q → (∀ e ∈ s.budgets, e.1 ≠ k → ∀ g ∈ e.2.prio ++ e.2.gen, g.1 ≠ id) → (∀ g ∈ r, g.1 ≠ id) →
        ∃ q', squadOf t id = some q' ∧ q'.wait = none ∧ q'.granted = true) := by
  refine ⟨_, congrArg Host.Outcome.next (pacerRefill_due s hdue), ?_⟩
  have hframe := refillKeys_frame (s.budgets.map (·.1)) (refillStart s)
  have hsquad : ∀ id q, squadOf s id = some q → squadOf (refillStart s) id = some (capAnew q) := fun id q hq =>
    (aget_map s.squads capAnew id).trans (congrArg (Option.map capAnew) hq)
  have hkey : ∀ k b, aget s.budgets k = some b → k ∈ s.budgets.map (·.1) := fun k b hb =>
    List.mem_map.2 ⟨(k, b), mem_of_aget hb, rfl⟩
  refine ⟨by rw [hframe]; rfl, by rw [hframe]; rfl, fun k b hb hp hg => ?_, fun id q hq hid => ?_,
    fun k b id u r q hb hp hg hu hq hother hr => ?_⟩
  · exact refillKeys_empty _ _ k b (hkey k b hb) hnodup hb hp hg
  · rw [refillKeys_squad _ (refillStart s) id hnodup fun k _ b hb => hid (k, b) (mem_of_aget hb), hsquad id q hq]
    rfl
  · exact refillKeys_grants _ (refillStart s) k b id u r _ (hkey k b hb) hnodup hb hp hg hu (hsquad id q hq)
      (fun j b' hj hb' => hother (j, b') (mem_of_aget hb') hj) hr

/-- A write to the pacer's registers of a context. -/
theorem pacerControlWrite_writes (s : State) (hready : s.ready = true) (m : Option Nat) (die ctx r c rc : Nat) :
    let event := Instr.pacerControlWrite ⟨m, die⟩ ctx r c rc
    let there : Prop := mayManage s m true = true ∧ die < 8 ∧ ctx < 64
    let refused : Prop := r % 2 ^ 32 ≠ 0 ∧ c % 2 ^ 32 < 64
    let now : Prop := s.time % 1000 = 0 ∧ s.refills = s.time / 1000
    let b := budgetOf s die ctx
    let b' : Budget := { b with bud := 0, res := 0, refill := r % 2 ^ 32, cap := c % 2 ^ 32, rcap := rc % 2 ^ 32 }
    (¬ there ∨ refused → Leads event s s) ∧
    (there → ¬ refused → ¬ now → ∃ t, Leads event s t ∧ t = { s with budgets := t.budgets } ∧ budgetOf t die ctx = b') ∧
    (there → ¬ refused → now → b.prio = [] → b.gen = [] → ∃ t, Leads event s t ∧ t = { s with budgets := t.budgets } ∧
      budgetOf t die ctx = refilled b') := by
  intro event there refused now b b'
  have hrun : exec event s = .next (if mayManage s m true = true then
      (if die < 8 ∧ ctx < 64 then pacerWrite s die ctx r c rc else s) else s) := by
    show Host.Outcome.next (mgmt s m _) = _
    rw [mgmt, ifReady, if_pos hready]
  have hthere : there → exec event s = .next (pacerWrite s die ctx r c rc) := by
    rintro ⟨hm, hd⟩
    rw [hrun, if_pos hm, if_pos hd]
  have hput : ¬ refused → pacerPut s die ctx r c rc = setBudget s die ctx b' := fun hr => if_neg hr
  have hnow : refillNow s = true ↔ now := by simp [refillNow, now]
  refine ⟨fun h => ?_, fun ht hr hn => ?_, fun ht hr hn hp hg => ?_⟩
  · show exec event s = .next s
    by_cases ht : there
    · have hr : refused := h.resolve_left (not_not.2 ht)
      rw [hthere ht, pacerWrite, pacerPut]
      exact congrArg _ ((if_pos hr).trans (if_pos hr))
    · rw [hrun]
      split
      next hm => rw [if_neg fun hd => ht ⟨hm, hd⟩]
      · rfl
  · refine ⟨setBudget s die ctx b', ?_, rfl, budgetOf_setBudget_same _ _ _ _⟩
    show exec event s = _
    rw [hthere ht, pacerWrite, if_neg hr, if_neg (hnow.not.2 hn), hput hr]
  · have hagain : refillKey (setBudget s die ctx b') (budKey die ctx) =
        { setBudget s die ctx b' with budgets := aput (setBudget s die ctx b').budgets (budKey die ctx) (refilled b') } :=
      refillKey_empty _ _ b' (aget_aput_same _ _ _) hp hg
    refine ⟨{ setBudget s die ctx b' with
      budgets := aput (setBudget s die ctx b').budgets (budKey die ctx) (refilled b') }, ?_, rfl, ?_⟩
    · show exec event s = _
      rw [hthere ht, pacerWrite, if_neg hr, if_pos (hnow.2 hn), hput hr, hagain]
    · rw [budgetOf, aget_aput_same, Option.getD_some]

/-! ### Invalidation (R404) -/

theorem inval_starts (s : State) (hready : s.ready = true) (m : Option Nat) (ctx count vpn : Nat) :
    (mayManage s m true = false ∨ (ctxOf s ctx).invBusy = true → Leads (.inval ⟨m, ctx⟩ count vpn) s s) ∧
    (mayManage s m true = true → (ctxOf s ctx).invBusy = false → ∃ t, Leads (.inval ⟨m, ctx⟩ count vpn) s t ∧
      CtxBut s t ctx fun c => { c with invBusy := true, invCount := count % 2 ^ 27, invVpn := vpn % 2 ^ 36 }) := by
  have hrun : exec (.inval ⟨m, ctx⟩ count vpn) s = .next (if mayManage s m true = true then invalStart s ctx count vpn else s) := by
    show Host.Outcome.next (mgmt s m _) = _
    rw [mgmt, ifReady, if_pos hready]
  constructor
  · intro h
    show exec _ s = _
    rw [hrun]
    split
    next hm =>
      have hbusy := h.resolve_left (by rw [hm]; decide)
      rw [invalStart, if_pos hbusy]
    · rfl
  · intro hm hbusy
    refine ⟨_, ?_, rfl⟩
    show exec _ s = _
    rw [hrun, if_pos hm, invalStart, if_neg (by rw [hbusy]; decide)]
    rfl

theorem invalidation_ends (s : State) (ctx : Nat) (hbusy : (ctxOf s ctx).invBusy = true) :
    ∃ t, Leads (.invalidationComplete ctx) s t ∧ (ctxOf t ctx).invBusy = false ∧
      ∀ e, e ∈ t.tlb ↔ e ∈ s.tlb ∧ ¬ (e.ctx = ctx ∧ ((ctxOf s ctx).invCount = 0 ∨
        ((ctxOf s ctx).invVpn ≤ e.page ∧ e.page < (ctxOf s ctx).invVpn + (ctxOf s ctx).invCount))) := by
  refine ⟨invalDone s ctx, rfl, ?_⟩
  rw [invalDone]
  dsimp only
  rw [if_neg (by rw [hbusy]; decide)]
  refine ⟨by rw [ctxOf_modCtx_same], fun e => ?_⟩
  show e ∈ s.tlb.filter _ ↔ _
  rw [List.mem_filter]
  refine and_congr_right fun _ => ?_
  rw [Bool.not_eq_true', Bool.eq_false_iff, ne_eq]
  simp only [Bool.and_eq_true, Bool.or_eq_true, beq_iff_eq, decide_eq_true_eq]

end Sys2Proof.Machine

end

section

namespace Sys2Proof.Machine

/-! ### The pieces of an access (R398) -/

theorem hostPieces_within (a n : Nat) (hn : 0 < n) (hfit : a % 4096 + n ≤ 4096) : hostPieces a n = [(0, n)] := by
  have hcount : ceilDiv (a % 4096 + n) 4096 = 1 := by rw [ceilDiv]; omega
  rw [hostPieces, hcount]
  simp only [List.range_one, List.map_cons, List.map_nil, List.cons.injEq, Prod.mk.injEq, and_true]
  omega

/-- An access beyond its first page: the rest of that page, then the pieces of what follows. -/
theorem hostPieces_beyond (a n : Nat) (hfit : 4096 < a % 4096 + n) :
    hostPieces a n = (0, 4096 - a % 4096) ::
      (hostPieces (a + (4096 - a % 4096)) (n - (4096 - a % 4096))).map fun e => (e.1 + (4096 - a % 4096), e.2) := by
  have hmod : (a + (4096 - a % 4096)) % 4096 = 0 := by omega
  have hcount : ceilDiv (a % 4096 + n) 4096 = ceilDiv (0 + (n - (4096 - a % 4096))) 4096 + 1 := by
    rw [ceilDiv, ceilDiv]; omega
  rw [hostPieces, hostPieces, hmod, hcount, List.range_succ_eq_map, List.map_cons, List.map_map, List.map_map]
  congr 1
  · rw [Prod.mk.injEq]; omega
  · refine List.map_congr_left fun i _ => ?_
    simp only [Function.comp_apply, Prod.mk.injEq]
    omega

/-- Every piece lies in the access. -/
theorem hostPiece_mem {a n : Nat} {e : Nat × Nat} (hn : 0 < n) (he : e ∈ hostPieces a n) : e.1 < n := by
  obtain ⟨i, hi, rfl⟩ := List.mem_map.1 he
  rw [List.mem_range, ceilDiv] at hi
  dsimp only
  omega

/-! ### Where a host access is performed -/

theorem placePa_populated (s : State) (pa : Nat) (wr : Bool) (h : populated pa = true) : placePa s pa wr = .ok (.mem, pa) :=
  if_pos h

/-- In the device's memory a piece is performed where the link has the right (R398, R407). -/
theorem hostPlace_mem (s : State) (link pa n : Nat) (wr : Bool) (h1 : populated pa = true) (h2 : populated (pa + n - 1) = true)
    (hr : permits (hostRight s (homeDie pa) link) wr = true) : hostPlace s link pa n wr = some (.mem, pa) := by
  rw [hostPlace, placePa_populated s _ _ h1, placePa_populated s _ _ h2]
  simp [hr, spaceDown]

theorem hostPlace_refused (s : State) (link pa n : Nat) (wr : Bool) (h1 : populated pa = true)
    (hr : permits (hostRight s (homeDie pa) link) wr = false) : hostPlace s link pa n wr = none := by
  rw [hostPlace, placePa_populated s _ _ h1]
  split
  next p q hp _ =>
    rw [if_neg (by simp [hr])]
  · rfl

/-- Nothing waits for a device where an access is to the device's memory. -/
theorem hostDown_mem (s : State) (link off n : Nat) (wr : Bool) (hn : 0 < n)
    (h : ∀ k, k < n → populated (wbaseOf s link + off + k) = true) : hostDown s link off n wr = false := by
  have hany : ((hostPieces (wbaseOf s link + off) n).any fun e =>
      match placePa s (wbaseOf s link + off + e.1) wr with
      | .ok p => spaceDown s p.1
      | .error _ => false) = false := by
    rw [List.any_eq_false]
    intro e he
    rw [placePa_populated s _ _ (h e.1 (hostPiece_mem hn he))]
    simp [spaceDown]
  rw [hostDown]
  exact (congrArg (_ && ·) hany).trans (Bool.and_false _)

/-- The bytes of an access are in the device's memory, and the link has the right on each of them. -/
def Granted (s : State) (link pa n : Nat) (wr : Bool) : Prop :=
  ∀ k, k < n → populated (pa + k) = true ∧ permits (hostRight s (homeDie (pa + k)) link) wr = true

theorem Granted.place {s : State} {link pa n : Nat} {wr : Bool} (h : Granted s link pa n wr) (k : Nat) (hk : 0 < k) (hkn : k ≤ n) :
    hostPlace s link pa k wr = some (.mem, pa) := by
  obtain ⟨h0, hr⟩ := h 0 (by omega)
  obtain ⟨h1, -⟩ := h (k - 1) (by omega)
  exact hostPlace_mem s link pa k wr h0 (by rwa [show pa + k - 1 = pa + (k - 1) by omega]) hr

/-- The right to the rest of an access, in a state with the same table. -/
theorem Granted.rest {s t : State} {link pa n : Nat} {wr : Bool} (h : Granted s link pa n wr) (ht : t.hostAcc = s.hostAcc)
    (k : Nat) (hk : k ≤ n) : Granted t link (pa + k) (n - k) wr := by
  intro i hi
  have := h (k + i) (by omega)
  rw [← Nat.add_assoc] at this
  rwa [hostRight, ht]

/-! ### Writes of a host (R398, R399) -/

theorem wrBytes_mem_frame (s : State) (a : Nat) (bs : List Byte) : ∃ m, wrBytes s .mem a bs = { s with mem := m } := by
  induction bs generalizing s a with
  | nil => exact ⟨_, rfl⟩
  | cons b bs ih =>
    obtain ⟨m, h⟩ := ih (wrByte s .mem a b) (a + 1)
    exact ⟨m, h⟩

/-- The bytes `data` stand at a place of memory, and every other byte reads as before. -/
def Stored (s t : State) (pa : Nat) (data : List Byte) : Prop :=
  (∀ b, b < pa ∨ pa + data.length ≤ b → rdByte t .mem b = rdByte s .mem b) ∧
    ∀ k, k < data.length → rdByte t .mem (pa + k) = data.getD k 0

theorem stored_wrBytes (s : State) (pa : Nat) (data : List Byte) : Stored s (wrBytes s .mem pa data) pa data := by
  refine ⟨fun b hb => rdByte_wrBytes_other _ _ _ _ _ _ fun i hi => ?_, fun k hk => ?_⟩
  · rw [samePlace]; omega
  · rw [rdByte_wrBytes_same s .mem pa k data hk, List.getD_eq_getElem _ _ hk]

/-- Two stores one behind the other. -/
theorem Stored.append {s t u : State} {pa : Nat} {d e : List Byte} (h : Stored s t pa d) (h' : Stored t u (pa + d.length) e) :
    Stored s u pa (d ++ e) := by
  obtain ⟨hout, hin⟩ := h
  obtain ⟨hout', hin'⟩ := h'
  rw [Stored, List.length_append]
  refine ⟨fun b hb => ?_, fun k hk => ?_⟩
  · rw [hout' b (by omega), hout b (by omega)]
  · rcases Nat.lt_or_ge k d.length with hlt | hge
    · rw [hout' (pa + k) (by omega), hin k hlt, List.getD_append _ _ _ _ hlt]
    · have := hin' (k - d.length) (by omega)
      rw [show pa + d.length + (k - d.length) = pa + k by omega] at this
      rw [this, List.getD_append_right _ _ _ _ hge]

theorem Stored.bytesBut {s t : State} {pa : Nat} {data : List Byte} (h : Stored s t pa data) (hscr : t.scr = s.scr)
    (hpeer : t.peer = s.peer) : BytesBut s t .mem pa data.length := by
  intro sq b hb
  cases sq with
  | mem =>
    refine h.1 b ?_
    by_contra hin
    exact hb (b - pa) (by omega) (by rw [samePlace]; omega)
  | scr c => rw [rdByte, hscr, rdByte]
  | peer d => rw [rdByte, hpeer, rdByte]

/-- A granted write of a piece. -/
theorem hostPut_granted (s : State) (link pa : Nat) (relaxed : Bool) (data : List Byte)
    (hp : hostPlace s link pa data.length true = some (.mem, pa)) :
    (∃ m h d a, hostPut link pa relaxed s data = { s with mem := m, hist := h, dcache := d, active := a }) ∧
      Stored s (hostPut link pa relaxed s data) pa data := by
  rw [hostPut, hp]
  constructor
  · obtain ⟨m, h⟩ := wrBytes_mem_frame s pa data
    exact ⟨m, _, _, _, by dsimp only; rw [h]; rfl⟩
  · exact stored_wrBytes s pa data

/-- The pieces of a write, one after another. -/
def hostPuts (link pa : Nat) (relaxed : Bool) (s : State) (data : List Byte) : State :=
  (hostPieces pa data.length).foldl (fun s e => hostPut link (pa + e.1) relaxed s ((data.drop e.1).take e.2)) s

theorem hostPuts_granted (link : Nat) (relaxed : Bool) (data : List Byte) (pa : Nat) (s : State) (hn : 0 < data.length)
    (hg : Granted s link pa data.length true) :
    (∃ m h d a, hostPuts link pa relaxed s data = { s with mem := m, hist := h, dcache := d, active := a }) ∧
      Stored s (hostPuts link pa relaxed s data) pa data := by
  induction hlen : data.length using Nat.strong_induction_on generalizing data pa s with
  | _ n ih =>
    rw [hlen] at hn hg
    rcases Nat.lt_or_ge 4096 (pa % 4096 + n) with hbeyond | hwithin
    · have hk : (data.take (4096 - pa % 4096)).length = 4096 - pa % 4096 := by rw [List.length_take]; omega
      have hdrop : (data.drop (4096 - pa % 4096)).length = n - (4096 - pa % 4096) := by rw [List.length_drop, hlen]
      obtain ⟨⟨m, h, d, a, hframe⟩, hstored⟩ := hostPut_granted s link pa relaxed (data.take (4096 - pa % 4096))
        (by rw [hk]; exact hg.place _ (by omega) (by omega))
      have hrun : hostPuts link pa relaxed s data = hostPuts link (pa + (4096 - pa % 4096)) relaxed
          (hostPut link pa relaxed s (data.take (4096 - pa % 4096))) (data.drop (4096 - pa % 4096)) := by
        rw [hostPuts, hlen, hostPieces_beyond pa n hbeyond, List.foldl_cons, List.foldl_map, hostPuts, hdrop]
        simp only [List.drop_zero, Nat.add_zero, List.drop_drop]
        congr 1
        funext u e
        rw [show pa + (e.1 + (4096 - pa % 4096)) = pa + (4096 - pa % 4096) + e.1 by omega,
          show e.1 + (4096 - pa % 4096) = 4096 - pa % 4096 + e.1 by omega]
      generalize hostPut link pa relaxed s (data.take (4096 - pa % 4096)) = u at *
      obtain ⟨⟨m', h', d', a', hframe'⟩, hstored'⟩ := ih (n - (4096 - pa % 4096)) (by omega) (data.drop (4096 - pa % 4096))
        (pa + (4096 - pa % 4096)) u (by rw [hdrop]; omega)
        (by rw [hdrop]; exact hg.rest (by rw [hframe]) _ (by omega)) hdrop
      rw [hrun]
      refine ⟨⟨m', h', d', a', by rw [hframe', hframe]⟩, ?_⟩
      have := hstored.append (e := data.drop (4096 - pa % 4096)) (by rw [hk]; exact hstored')
      rwa [List.take_append_drop] at this
    · have hrun : hostPuts link pa relaxed s data = hostPut link pa relaxed s data := by
        rw [hostPuts, hlen, hostPieces_within pa n hn hwithin, ← hlen]
        simp
      rw [hrun]
      exact hostPut_granted s link pa relaxed data (by rw [hlen]; exact hg.place _ hn le_rfl)

/-! ### Reads of a host (R178, R399) -/

/-- The granules of a place, cut between two of them. -/
theorem granules_append (a k n : Nat) (hk : 0 < k) (hkn : k < n) (hcut : (a + k) % 8 = 0) :
    granules a n = granules a k ++ granules (a + k) (n - k) := by
  obtain ⟨b, hb⟩ : ∃ b, a + k = 8 * b := ⟨(a + k) / 8, by omega⟩
  have hlast : (a + k - 1) / 8 - a / 8 + 1 = b - a / 8 := by omega
  have hfirst : a / 8 < b := by omega
  have hcount : (a + n - 1) / 8 - a / 8 + 1 = (b - a / 8) + ((8 * b + (n - k) - 1) / 8 - b + 1) := by omega
  rw [granules, granules, granules, if_neg (by omega), if_neg (by omega), if_neg (by omega), hlast, hb,
    Nat.mul_div_cancel_left b (by decide), hcount, List.range_add, List.map_append, List.map_map]
  congr 1
  · refine List.map_congr_left fun i hi => ?_
    rw [List.mem_range] at hi
    have hbelow : 8 * (a / 8 + i) + 8 ≤ 8 * b := by omega
    rw [Nat.min_eq_right hbelow, Nat.min_eq_right (by omega)]
  · refine List.map_congr_left fun i _ => ?_
    have hplace : a / 8 + (b - a / 8 + i) = b + i := by omega
    simp only [Function.comp_apply, hplace, Prod.mk.injEq]
    omega

/-- A read in the record changes nothing of what bytes stood at earlier moments. -/
theorem bytesAsOf_logEv_read (s : State) (c : Acc) (sp : Space) (a n m : Nat) (hc : c.wr = false) :
    bytesAsOf (logEv s (.access c)) sp a n m = bytesAsOf s sp a n m := by
  have hread : ∀ bs, unstore sp a bs c = bs := by
    intro bs
    unfold unstore
    split
    · rw [hc]; rfl
    · rfl
  have hbytes : ∀ k b, rdBytes (logEv s (.access c)) sp b k = rdBytes s sp b k := by
    intro k
    induction k with
    | zero => intro b; rfl
    | succ k ih =>
      intro b
      rw [rdBytes, rdBytes, ih]
      cases sp <;> rfl
  rw [bytesAsOf, bytesAsOf, hbytes, logEv_hist]
  rcases Nat.le_total m s.hist.length with hle | hge
  · rw [List.drop_append_of_le_length hle, List.reverse_append, List.reverse_singleton, List.singleton_append, List.foldl_cons]
    dsimp only
    rw [hread]
  · rw [List.drop_eq_nil_of_le hge, List.drop_append]
    rw [List.drop_eq_nil_of_le hge, List.nil_append]
    cases m - s.hist.length with
    | zero => simp [hread]
    | succ k => simp

/-- The pieces of a read may be counted from another place. -/
theorem hostGet_shift (link pa k : Nat) (l : List (Nat × Nat)) (s : State) :
    hostGet link pa (l.map fun e => (e.1 + k, e.2)) s = hostGet link (pa + k) l s := by
  induction l generalizing s with
  | nil => rfl
  | cons e l ih =>
    rw [List.map_cons, hostGet, hostGet, show pa + (e.1 + k) = pa + k + e.1 by omega]
    simp only [ih]

/-- The bytes of a read: each granule as of a moment. -/
def bytesAt (s : State) (pa n : Nat) (m : Nat → Nat → Nat) : List Byte :=
  (granules pa n).flatMap fun e => bytesAsOf s .mem e.1 e.2 (m e.1 e.2)

theorem bytesAt_append (s : State) (pa k n : Nat) (m m' : Nat → Nat → Nat) (hk : 0 < k) (hkn : k < n) (hcut : (pa + k) % 8 = 0) :
    bytesAt s pa k m ++ bytesAt s (pa + k) (n - k) m' = bytesAt s pa n fun a j => if a < pa + k then m a j else m' a j := by
  rw [bytesAt, bytesAt, bytesAt, granules_append pa k n hk hkn hcut, List.flatMap_append]
  congr 1
  · refine List.flatMap_congr fun e he => ?_
    have := granule_mem he
    rw [if_pos (by omega)]
  · refine List.flatMap_congr fun e he => ?_
    have := granule_mem he
    rw [if_neg (by omega)]

/-- A granted read of a piece. -/
theorem hostGet_granted_piece (s : State) (link pa n : Nat) (l : List (Nat × Nat))
    (hp : hostPlace s link pa n false = some (.mem, pa)) :
    ∃ c, c.wr = false ∧ hostGet link pa ((0, n) :: l) s =
      ((hostGet link pa l (logEv s (.access c))).1,
        (hostGet link pa l (logEv s (.access c))).2.map (lookBytes s (whoLink link) .H .mem pa n ++ ·)) := by
  refine ⟨{ lookAcc s (whoLink link) .H .mem pa n with acq := some .sys }, rfl, ?_⟩
  rw [hostGet, show pa + 0 = pa from rfl, hp]

theorem lookBytes_eq_bytesAt (s : State) (link pa n : Nat) :
    lookBytes s (whoLink link) .H .mem pa n = bytesAt s pa n fun b k => seenIdx s .H [⟨whoLink link, .mem, pa, n⟩] .mem b k := rfl

/-- A granted read gives each granule as of a moment; within one page each moment is one that the link may see. -/
theorem hostGet_granted (link n pa : Nat) (s : State) (hn : 0 < n) (hg : Granted s link pa n false) :
    ∃ m h d a, hostGet link pa (hostPieces pa n) s = ({ s with hist := h, dcache := d, active := a }, some (bytesAt s pa n m)) ∧
      (pa % 4096 + n ≤ 4096 → ∀ e ∈ granules pa n, Sees s (whoLink link) .H (.bytes .mem e.1 e.2) (m e.1 e.2)) := by
  induction n using Nat.strong_induction_on generalizing pa s with
  | _ n ih =>
    rcases Nat.lt_or_ge 4096 (pa % 4096 + n) with hbeyond | hwithin
    · rw [hostPieces_beyond pa n hbeyond]
      obtain ⟨c, hc, hget⟩ := hostGet_granted_piece s link pa (4096 - pa % 4096)
        ((hostPieces (pa + (4096 - pa % 4096)) (n - (4096 - pa % 4096))).map fun e => (e.1 + (4096 - pa % 4096), e.2))
        (hg.place _ (by omega) (by omega))
      obtain ⟨m, h, d, a, hrest, -⟩ := ih (n - (4096 - pa % 4096)) (by omega) (pa + (4096 - pa % 4096)) (logEv s (.access c))
        (by omega) (hg.rest rfl _ (by omega))
      rw [hget, hostGet_shift, hrest, lookBytes_eq_bytesAt, Option.map_some]
      have hsame : bytesAt (logEv s (.access c)) (pa + (4096 - pa % 4096)) (n - (4096 - pa % 4096)) m =
          bytesAt s (pa + (4096 - pa % 4096)) (n - (4096 - pa % 4096)) m :=
        List.flatMap_congr fun e _ => bytesAsOf_logEv_read s c _ _ _ _ hc
      rw [hsame, bytesAt_append s pa (4096 - pa % 4096) n _ m (by omega) (by omega) (by omega)]
      exact ⟨_, h, d, a, rfl, fun hle => by omega⟩
    · rw [hostPieces_within pa n hn hwithin]
      obtain ⟨c, hc, hget⟩ := hostGet_granted_piece s link pa n [] (hg.place n hn le_rfl)
      rw [hget, lookBytes_eq_bytesAt]
      refine ⟨_, (logEv s (.access c)).hist, (logEv s (.access c)).dcache, (logEv s (.access c)).active, ?_,
        fun _ => (lookBytes_reads s (whoLink link) .H .mem pa n rfl).2⟩
      rw [hostGet, Option.map_some, List.append_nil]
      rfl

/-! ### An access of a host link (R397-R399) -/

theorem hostAccess_held (s : State) (link off : Nat) (wr relaxed : Bool) (data : List Byte)
    (h : (∃ r ∈ s.hostHeld, r.link = link) ∨ hostDown s link off data.length wr = true) :
    hostAccess s link off wr relaxed data =
      { s with hostHeld := s.hostHeld ++ [⟨link, off, wr, relaxed, data, s.time, none⟩] } := by
  refine if_pos ?_
  rw [Bool.or_eq_true, List.any_eq_true]
  simpa using h

theorem hostAccess_performed (s : State) (link off : Nat) (wr relaxed : Bool) (data : List Byte)
    (hb : ¬ ∃ r ∈ s.hostHeld, r.link = link) (hd : hostDown s link off data.length wr = false) :
    hostAccess s link off wr relaxed data = hostPerform s link off wr relaxed data := by
  refine if_neg ?_
  rw [Bool.or_eq_true, List.any_eq_true, hd]
  simpa using hb

/-- A write within BAR 2. -/
theorem hostPerform_write (s : State) (link off : Nat) (relaxed : Bool) (data : List Byte)
    (hw : link < 2 ∧ off + data.length ≤ 2 ^ bar2Log s link) :
    hostPerform s link off true relaxed data = hostPuts link (wbaseOf s link + off) relaxed s data := by
  rw [hostPerform]
  dsimp only
  rw [if_neg (by omega), if_pos rfl, hostPuts]

/-- A read within BAR 2. -/
theorem hostPerform_read (s : State) (link off : Nat) (relaxed : Bool) (data : List Byte)
    (hw : link < 2 ∧ off + data.length ≤ 2 ^ bar2Log s link) :
    hostPerform s link off false relaxed data =
      reply (hostGet link (wbaseOf s link + off) (hostPieces (wbaseOf s link + off) data.length) s).1 link
        (hostGet link (wbaseOf s link + off) (hostPieces (wbaseOf s link + off) data.length) s).2 := by
  rw [hostPerform]
  dsimp only
  rw [if_neg (by omega), if_neg (by decide)]

/-- An access past BAR 2 is dropped, or answered with an unsupported request. -/
theorem hostPerform_outside (s : State) (link off : Nat) (wr relaxed : Bool) (data : List Byte)
    (hw : ¬ (link < 2 ∧ off + data.length ≤ 2 ^ bar2Log s link)) :
    hostPerform s link off wr relaxed data = if wr then s else reply s link none := by
  rw [hostPerform]
  dsimp only
  rw [if_pos (by omega)]

/-- The link has no right on any byte of an access to the device's memory. -/
def Barred (s : State) (link pa n : Nat) : Prop :=
  ∀ k, k < n → populated (pa + k) = true ∧ hostRight s ((pa + k) / 2 ^ 37) link = 0

theorem hostPuts_barred (s : State) (link pa : Nat) (relaxed : Bool) (data : List Byte) (hn : 0 < data.length)
    (hb : Barred s link pa data.length) : hostPuts link pa relaxed s data = s := by
  have hpiece : ∀ e ∈ hostPieces pa data.length, ∀ bs, hostPut link (pa + e.1) relaxed s bs = s := by
    intro e he bs
    obtain ⟨hp, hr⟩ := hb e.1 (hostPiece_mem hn he)
    rw [hostPut, hostPlace_refused s link _ _ true hp (by rw [homeDie, hr]; rfl)]
  rw [hostPuts]
  generalize hostPieces pa data.length = l at hpiece
  induction l with
  | nil => rfl
  | cons e l ih =>
    rw [List.foldl_cons, hpiece e List.mem_cons_self]
    exact ih fun e' he' => hpiece e' (List.mem_cons_of_mem _ he')

theorem hostGet_barred (s : State) (link pa n : Nat) (hn : 0 < n) (hb : Barred s link pa n) :
    hostGet link pa (hostPieces pa n) s = (s, none) := by
  have hsome : ∃ e l, hostPieces pa n = e :: l := by
    rcases Nat.lt_or_ge 4096 (pa % 4096 + n) with h | h
    · exact ⟨_, _, hostPieces_beyond pa n h⟩
    · exact ⟨_, _, hostPieces_within pa n hn h⟩
  obtain ⟨e, l, hl⟩ := hsome
  obtain ⟨hp, hr⟩ := hb e.1 (hostPiece_mem hn (hl ▸ List.mem_cons_self))
  rw [hl, hostGet, hostPlace_refused s link _ _ false hp (by rw [homeDie, hr]; rfl)]

/-- A host access to the device's memory, to a place it has no right to, past its BAR, or one that waits (R397-R399, R410). -/
theorem hostBar2Access_done (s : State) (hready : s.ready = true) (link off : Nat) (data : List Byte) (relaxed : Bool)
    (hdata : data ≠ []) :
    let pa := wbaseOf s link + off
    let n := data.length
    let within : Prop := link < 2 ∧ off + n ≤ 2 ^ bar2Log s link
    let right (x : Nat) : Prop := ∀ k, k < n → populated (pa + k) = true ∧ hostRight s ((pa + k) / 2 ^ 37) link = x
    let behind : Prop := ∃ r ∈ s.hostHeld, r.link = link
    (∀ wr, behind ∨ hostDown s link off n wr = true → Leads (.hostBar2Access link off wr relaxed data) s
      { s with hostHeld := s.hostHeld ++ [⟨link, off, wr, relaxed, data, s.time, none⟩] }) ∧
    (¬ behind → within → right 3 → ∃ t, Leads (.hostBar2Access link off true relaxed data) s t ∧
      t = { s with mem := t.mem, tags := t.tags, hist := t.hist, dcache := t.dcache, active := t.active } ∧ BytesBut s t .mem pa n ∧
      ∀ k, k < n → rdByte t .mem (pa + k) = data.getD k 0) ∧
    (¬ behind → within → right 1 ∨ right 3 → ∃ (t : State) (m : Nat → Nat → Nat), Leads (.hostBar2Access link off false relaxed data) s t ∧
      (let bs := (granules pa n).flatMap fun e => bytesAsOf s .mem e.1 e.2 (m e.1 e.2)
      t = { s with hist := t.hist, dcache := t.dcache, active := t.active, replies := s.replies ++ [(link, some bs)] }) ∧
      (pa / 4096 = (pa + n - 1) / 4096 → ∀ e ∈ granules pa n, Sees s (whoLink link) .H (.bytes .mem e.1 e.2) (m e.1 e.2))) ∧
    (¬ behind → ¬ within ∨ right 0 → Leads (.hostBar2Access link off true relaxed data) s s ∧
      Leads (.hostBar2Access link off false relaxed data) s { s with replies := s.replies ++ [(link, none)] }) := by
  intro pa n within right behind
  have hn : 0 < n := List.length_pos_iff.2 hdata
  have hrun : ∀ wr, exec (.hostBar2Access link off wr relaxed data) s = .next (hostAccess s link off wr relaxed data) := fun wr =>
    congrArg Host.Outcome.next (if_pos hready)
  have hup : ∀ x, right x → ∀ wr, hostDown s link off n wr = false := fun x hr wr =>
    hostDown_mem s link off n wr hn fun k hk => (hr k hk).1
  have hgrant : ∀ x wr, permits x wr = true → right x → Granted s link pa n wr := fun x wr hx hr k hk =>
    ⟨(hr k hk).1, by rw [homeDie, (hr k hk).2, hx]⟩
  refine ⟨fun wr h => ?_, fun hb hw hr => ?_, fun hb hw hr => ?_, fun hb h => ?_⟩
  · show exec _ s = _
    rw [hrun, hostAccess_held s link off wr relaxed data h]
  · obtain ⟨⟨m, h, d, a, hframe⟩, hstored⟩ := hostPuts_granted link relaxed data pa s hn (hgrant 3 true rfl hr)
    refine ⟨hostPuts link pa relaxed s data, ?_, ?_, hstored.bytesBut ?_ ?_, hstored.2⟩
    · show exec _ s = _
      rw [hrun, hostAccess_performed s link off true relaxed data hb (hup 3 hr true), hostPerform_write s link off relaxed data hw]
    all_goals rw [hframe]
  · obtain ⟨x, hx, hr⟩ : ∃ x, permits x false = true ∧ right x := by
      rcases hr with hr | hr
      · exact ⟨1, rfl, hr⟩
      · exact ⟨3, rfl, hr⟩
    obtain ⟨m, h, d, a, hget, hsees⟩ := hostGet_granted link n pa s hn (hgrant x false hx hr)
    refine ⟨reply { s with hist := h, dcache := d, active := a } link (some (bytesAt s pa n m)), m, ?_, rfl,
      fun hpage => hsees (by omega)⟩
    show exec _ s = _
    rw [hrun, hostAccess_performed s link off false relaxed data hb (hup x hr false),
      hostPerform_read s link off relaxed data hw, hget]
  · by_cases hw : within
    · have hr : right 0 := h.resolve_left (not_not.2 hw)
      constructor
      · show exec _ s = _
        rw [hrun, hostAccess_performed s link off true relaxed data hb (hup 0 hr true),
          hostPerform_write s link off relaxed data hw, hostPuts_barred s link pa relaxed data hn hr]
      · show exec _ s = _
        rw [hrun, hostAccess_performed s link off false relaxed data hb (hup 0 hr false),
          hostPerform_read s link off relaxed data hw, hostGet_barred s link pa n hn hr]
        rfl
    · have hdown : ∀ wr, hostDown s link off n wr = false := by
        intro wr
        rw [hostDown, ← Bool.decide_and, decide_eq_false hw, Bool.false_and]
      constructor
      · show exec _ s = _
        rw [hrun, hostAccess_performed s link off true relaxed data hb (hdown true), hostPerform_outside s link off true relaxed data hw]
        rfl
      · show exec _ s = _
        rw [hrun, hostAccess_performed s link off false relaxed data hb (hdown false),
          hostPerform_outside s link off false relaxed data hw]
        rfl

/-! ### An access of a peer (R410, R411) -/

theorem atomVal_eq_rmwRule (op : AtomOp) (w old v : Nat) (hw : 0 < w) : atomVal op w old v = rmwRule op w old v := by
  cases op with
  | add => rw [atomVal, rmwRule, BitVec.toNat_ofNat]
  | minS =>
    simp only [atomVal, rmwRule, sextN_eq_toInt _ _ hw]
    rcases lt_or_ge (BitVec.ofNat w v).toInt (BitVec.ofNat w old).toInt with h | h
    · rw [if_pos h, if_neg (by omega)]
    · rw [if_neg (by omega), if_pos h]
  | maxS =>
    simp only [atomVal, rmwRule, sextN_eq_toInt _ _ hw]
    rcases lt_or_ge (BitVec.ofNat w old).toInt (BitVec.ofNat w v).toInt with h | h
    · rw [if_pos h, if_neg (by omega)]
    · rw [if_neg (by omega), if_pos h]
  | inc =>
    simp only [atomVal, rmwRule]
    rcases Nat.lt_or_ge old v with h | h
    · rw [if_neg (by omega), if_pos h]
    · rw [if_pos h, if_neg (by omega)]
  | _ => rfl

/-- The number of the bytes of a number. -/
theorem leVal_leBytes (n x : Nat) : leVal (leBytes n x) = x % 256 ^ n := by
  induction n generalizing x with
  | zero => simp [leBytes, leVal, bytesWord, Nat.mod_one]
  | succ n ih =>
    have htail : leBytes (n + 1) x = BitVec.ofNat 8 x :: leBytes n (x / 256) := by
      rw [leBytes, List.range_succ_eq_map, List.map_cons, List.map_map, leBytes]
      congr 1
      · simp
      · refine List.map_congr_left fun i _ => ?_
        rw [Function.comp_apply, Nat.pow_succ', Nat.div_div_eq_div_mul]
    rw [htail, leVal, bytesWord, show bytesWord (leBytes n (x / 256)) = x / 256 % 256 ^ n from ih (x / 256), BitVec.toNat_ofNat]
    show x % 256 + 256 * (x / 256 % 256 ^ n) = x % 256 ^ (n + 1)
    rw [Nat.pow_succ', Nat.mod_mul]

theorem rdBytes_eq_map (s : State) (sp : Space) (a n : Nat) : rdBytes s sp a n = (List.range n).map fun i => rdByte s sp (a + i) := by
  induction n generalizing a with
  | zero => rfl
  | succ n ih =>
    rw [rdBytes, ih, List.range_succ_eq_map, List.map_cons, List.map_map]
    congr 1
    refine List.map_congr_left fun i _ => ?_
    rw [Function.comp_apply, Nat.add_assoc, Nat.add_comm 1 i]

theorem leBytes_length (n x : Nat) : (leBytes n x).length = n := by simp [leBytes]

/-- A number that has been stored reads back. -/
theorem rdN_of_stored (s t : State) (a n x : Nat) (h : Stored s t a (leBytes n x)) : rdN t .mem a n = x % 256 ^ n := by
  have hbytes : rdBytes t .mem a n = leBytes n x := by
    rw [rdBytes_eq_map]
    refine List.ext_getElem (by simp [leBytes_length]) fun i h1 h2 => ?_
    rw [List.getElem_map, List.getElem_range, h.2 i h2, List.getD_eq_getElem _ _ h2]
  rw [rdN, hbytes, leVal_leBytes]

theorem peerAccess_permitted (s : State) (dev pa : Nat) (op : PeerOp) (d : List Byte) (h0 : populated pa = true)
    (h1 : populated (pa + peerSize d op - 1) = true) (hr : permits (peerRight s (homeDie pa) dev) (peerWrites op) = true)
    (hr' : permits (peerRight s (homeDie (pa + peerSize d op - 1)) dev) (peerWrites op) = true) :
    peerAccess s dev pa op d = reply (peerDo s (whoPeer dev) pa d op).1 (2 + dev) (peerDo s (whoPeer dev) pa d op).2 := by
  rw [peerAccess]
  dsimp only
  rw [if_pos (by rw [h0, h1, hr, hr']; rfl)]

theorem peerAccess_refused (s : State) (dev pa : Nat) (op : PeerOp) (d : List Byte)
    (hr : permits (peerRight s (homeDie pa) dev) (peerWrites op) = false) :
    peerAccess s dev pa op d = reply s (2 + dev) none := by
  rw [peerAccess]
  dsimp only
  rw [if_neg (by simp [hr])]

/-- A read-modify-write of a peer, outside POISON: its bytes before, and the new value. -/
theorem peerRmw_writes (s : State) (w : Who) (so : AtomOrd) (pa n : Nat) (f : Nat → Option Nat) (hp : poisoned s .mem pa n = false) :
    (peerRmw s w so pa n f).2 = some (rdBytes s .mem pa n) ∧ (peerRmw s w so pa n f).1.replies = s.replies ∧
      BytesBut s (peerRmw s w so pa n f).1 .mem pa n ∧
      rdN (peerRmw s w so pa n f).1 .mem pa n =
        (match f (rdN s .mem pa n) with | some v => v % 256 ^ n | none => rdN s .mem pa n) := by
  rw [peerRmw, if_neg (by rw [hp]; decide)]
  dsimp only
  cases f (rdN s .mem pa n) with
  | none =>
    have hbytes : ∀ sq b, rdByte (logEv s (.access { accRd w .H (.bytes .mem pa n) with acq := ordAcq so })) sq b = rdByte s sq b :=
      fun sq b => by cases sq <;> rfl
    refine ⟨rfl, rfl, fun sq b _ => hbytes sq b, ?_⟩
    dsimp only
    rw [rdN, rdN, rdBytes_eq_map, rdBytes_eq_map]
    simp only [hbytes]
  | some v =>
    obtain ⟨m, hm⟩ := wrBytes_mem_frame s pa (leBytes n v)
    have hstored : Stored s (wrBytes s .mem pa (leBytes n v)) pa (leBytes n v) := stored_wrBytes s pa _
    rw [hm] at hstored
    dsimp only
    rw [wrN, hm]
    refine ⟨rfl, rfl, ?_, ?_⟩
    · have := hstored.bytesBut rfl rfl
      rw [leBytes_length] at this
      intro sq b hb
      refine Eq.trans ?_ (this sq b hb)
      cases sq <;> rfl
    · exact rdN_of_stored s _ pa n v ⟨fun b hb => hstored.1 b hb, fun k hk => hstored.2 k hk⟩

/-- The reply to a peer's operation, with what the operation has done. -/
def PeerTold (s : State) (dev pa : Nat) (op : PeerOp) (d : List Byte) (r : Option (List Byte)) (f : State → State → Prop) : Prop :=
  ∃ t, Leads (.peerAccessArrival dev pa op d) s t ∧ t.replies = s.replies ++ [(2 + dev, r)] ∧ f s t

/-- The rights of a peer on `n` bytes of the device's memory. -/
def PeerRight (s : State) (dev pa n x : Nat) : Prop :=
  populated pa = true ∧ populated (pa + n - 1) = true ∧ peerRight s (pa / 2 ^ 37) dev = x ∧
    peerRight s ((pa + n - 1) / 2 ^ 37) dev = x

theorem peer_told_of_permitted {s : State} (hready : s.ready = true) {dev pa : Nat} {op : PeerOp} {d : List Byte}
    {r : Option (List Byte)} {f : State → State → Prop} {x : Nat} (hr : PeerRight s dev pa (peerSize d op) x)
    (hx : permits x (peerWrites op) = true) (h2 : (peerDo s (whoPeer dev) pa d op).2 = r)
    (h1 : (peerDo s (whoPeer dev) pa d op).1.replies = s.replies)
    (hf : ∀ l, f s { (peerDo s (whoPeer dev) pa d op).1 with replies := l }) : PeerTold s dev pa op d r f := by
  obtain ⟨p0, p1, r0, r1⟩ := hr
  refine ⟨reply (peerDo s (whoPeer dev) pa d op).1 (2 + dev) r, ?_, ?_, hf _⟩
  · have hrun : peerAccess s dev pa op d = _ :=
      peerAccess_permitted s dev pa op d p0 p1 (by rw [homeDie, r0, hx]) (by rw [homeDie, r1, hx])
    rw [h2] at hrun
    exact congrArg Host.Outcome.next ((if_pos hready).trans hrun)
  · rw [reply, h1]

theorem peer_told_of_refused {s : State} (hready : s.ready = true) {dev pa : Nat} {op : PeerOp} {d : List Byte} {x : Nat}
    (hr : PeerRight s dev pa (peerSize d op) x) (hx : permits x (peerWrites op) = false) :
    PeerTold s dev pa op d none fun s t => t = { s with replies := t.replies } := by
  obtain ⟨p0, p1, r0, r1⟩ := hr
  refine ⟨reply s (2 + dev) none, ?_, rfl, rfl⟩
  exact congrArg Host.Outcome.next ((if_pos hready).trans
    (peerAccess_refused s dev pa op d (by rw [homeDie, r0, hx])))

/-- A read-modify-write of a peer is told the bytes before (R410). -/
theorem peer_told_of_rmw {s : State} (hready : s.ready = true) {dev pa n : Nat} {op : PeerOp} {so : AtomOrd} {g : Nat → Option Nat}
    {new : Nat} (hsize : peerSize [] op = n) (hwr : peerWrites op = true)
    (hdo : peerDo s (whoPeer dev) pa [] op = peerRmw s (whoPeer dev) so pa n g) (hr : PeerRight s dev pa n 3)
    (hp : poisoned s .mem pa n = false)
    (hnew : (match g (rdN s .mem pa n) with | some v => v % 256 ^ n | none => rdN s .mem pa n) = new) :
    PeerTold s dev pa op [] (some (rdBytes s .mem pa n)) fun s t => BytesBut s t .mem pa n ∧ rdN t .mem pa n = new := by
  obtain ⟨h2, h1, hbut, hval⟩ := peerRmw_writes s (whoPeer dev) so pa n g hp
  rw [← hdo] at h1 h2 hbut hval
  refine peer_told_of_permitted hready (hsize.symm ▸ hr) (by rw [hwr]; rfl) h2 h1 fun l => ⟨fun sq b hb => ?_, ?_⟩
  · refine Eq.trans ?_ (hbut sq b hb)
    cases sq <;> rfl
  · rw [← hnew, ← hval, rdN, rdN, rdBytes_eq_map, rdBytes_eq_map]
    rfl

/-- Every operation of a peer, by its rights (R407, R410, R411). -/
theorem peerAccess_told (s : State) (hready : s.ready = true) (dev pa : Nat) :
    (∀ op d, PeerRight s dev pa (peerSize d op) 0 → PeerTold s dev pa op d none fun s t => t = { s with replies := t.replies }) ∧
    (∀ n acq, PeerRight s dev pa n 1 ∨ PeerRight s dev pa n 3 →
      (poisoned s .mem pa n = true → PeerTold s dev pa (.read n acq) [] (some []) fun s t => t = { s with replies := t.replies }) ∧
      (poisoned s .mem pa n = false → ∃ bs, MayRead s (whoPeer dev) .H .mem pa n bs ∧ PeerTold s dev pa (.read n acq) [] (some bs)
        fun s t => t = { s with hist := t.hist, dcache := t.dcache, active := t.active, replies := t.replies })) ∧
    (∀ d rel, PeerRight s dev pa d.length 1 → PeerTold s dev pa (.write rel) d none fun s t => t = { s with replies := t.replies }) ∧
    (∀ d rel, PeerRight s dev pa d.length 3 → PeerTold s dev pa (.write rel) d (some []) fun s t => BytesBut s t .mem pa d.length ∧
      ∀ k, k < d.length → rdByte t .mem (pa + k) = d.getD k 0) ∧
    (∀ op wide so x, let n := if wide then 8 else 4
      PeerRight s dev pa n 3 → poisoned s .mem pa n = false → PeerTold s dev pa (.atomic op wide so x) []
        (some (rdBytes s .mem pa n)) fun s t => BytesBut s t .mem pa n ∧
          rdN t .mem pa n = rmwRule op (8 * n) (rdN s .mem pa n) (x.toNat % 2 ^ (8 * n)) % 2 ^ (8 * n)) ∧
    (∀ wide so c x, let n := if wide then 8 else 4
      PeerRight s dev pa n 3 → poisoned s .mem pa n = false → PeerTold s dev pa (.cas wide so c x) []
        (some (rdBytes s .mem pa n)) fun s t => BytesBut s t .mem pa n ∧ rdN t .mem pa n =
          if rdN s .mem pa n = c.toNat % 2 ^ (8 * n) then x.toNat % 2 ^ (8 * n) else rdN s .mem pa n) ∧
    (PeerRight s dev pa 64 1 ∨ PeerRight s dev pa 64 3 → PeerTold s dev pa .descRead []
      (some (leBytes 2 (rdTag s .mem (pa / 64)).toNat)) fun s t =>
        t = { s with hist := t.hist, dcache := t.dcache, active := t.active, replies := t.replies }) ∧
    (∀ x, PeerRight s dev pa 64 3 → PeerTold s dev pa (.descWrite x) [] (some []) fun s t => SameBytes s t ∧ ∀ b, rdTag t .mem b =
      if b = pa / 64 then x else rdTag s .mem b) := by
  have hreads : ∀ n, PeerRight s dev pa n 1 ∨ PeerRight s dev pa n 3 →
      ∃ x, permits x false = true ∧ PeerRight s dev pa n x := fun n h =>
    h.elim (fun h => ⟨1, rfl, h⟩) fun h => ⟨3, rfl, h⟩
  have hpow : ∀ n, 256 ^ n = 2 ^ (8 * n) := fun n => by rw [Nat.pow_mul]
  refine ⟨fun op d hr => ?_, fun n acq hr => ⟨fun hp => ?_, fun hp => ?_⟩, fun d rel hr => ?_, fun d rel hr => ?_,
    ?_, ?_, fun hr => ?_, fun x hr => ?_⟩
  · exact peer_told_of_refused hready hr (by cases peerWrites op <;> rfl)
  · obtain ⟨x, hx, hr⟩ := hreads n hr
    have hdo : peerDo s (whoPeer dev) pa [] (.read n acq) = (s, some []) := if_pos hp
    exact peer_told_of_permitted hready hr hx (by rw [hdo]) (by rw [hdo]) fun l => by rw [hdo]
  · obtain ⟨x, hx, hr⟩ := hreads n hr
    have hdo : peerDo s (whoPeer dev) pa [] (.read n acq) = _ := if_neg (by rw [hp]; decide)
    refine ⟨lookBytes s (whoPeer dev) .H .mem pa n, ⟨_, lookBytes_reads s (whoPeer dev) .H .mem pa n rfl⟩, ?_⟩
    exact peer_told_of_permitted hready hr hx (by rw [hdo]) (by rw [hdo]; rfl) fun l => by rw [hdo]; rfl
  · exact peer_told_of_refused hready hr rfl
  · obtain ⟨m, hm⟩ := wrBytes_mem_frame s pa d
    have hstored : Stored s (wrBytes s .mem pa d) pa d := stored_wrBytes s pa d
    rw [hm] at hstored
    refine peer_told_of_permitted hready hr rfl rfl ?_ fun l => ?_
    · show (logEv (wrBytes s .mem pa d) _).replies = s.replies
      rw [hm]
      rfl
    · show BytesBut s { logEv (wrBytes s .mem pa d) _ with replies := l } .mem pa d.length ∧ _
      rw [peerDo, hm]
      exact ⟨Stored.bytesBut ⟨hstored.1, hstored.2⟩ rfl rfl, hstored.2⟩
  · intro op wide so x n hr hp
    have hn : 0 < 8 * n := by cases wide <;> decide
    refine peer_told_of_rmw hready (so := so) (g := fun old => some (atomVal op (8 * n) old (x.toNat % 2 ^ (8 * n)))) rfl rfl rfl
      hr hp ?_
    dsimp only
    rw [atomVal_eq_rmwRule op _ _ _ hn, hpow]
  · intro wide so c x n hr hp
    refine peer_told_of_rmw hready (so := so) (g := fun old => if old = c.toNat % 2 ^ (8 * n) then
      some (x.toNat % 2 ^ (8 * n)) else none) rfl rfl rfl hr hp ?_
    by_cases heq : rdN s .mem pa n = c.toNat % 2 ^ (8 * n)
    · rw [if_pos heq, if_pos heq]
      dsimp only
      rw [hpow, Nat.mod_mod]
    · rw [if_neg heq, if_neg heq]
  · obtain ⟨x, hx, hr⟩ := hreads 64 hr
    exact peer_told_of_permitted hready hr hx rfl rfl fun l => rfl
  · refine peer_told_of_permitted hready hr rfl rfl rfl fun l => ⟨wrTag_bytes s .mem (pa / 64) x, fun b => ?_⟩
    show rdTag (wrTag s .mem (pa / 64) x) .mem b = _
    by_cases hb : b = pa / 64
    · rw [if_pos hb, hb, rdTag_wrTag_same]
    · rw [if_neg hb, rdTag_wrTag_other]
      exact fun h => hb h.symm

/-- Settles O57: each event by what it does; a host access by its pieces of a page, a peer's by its operation, and what they
read by the order of the record. -/
theorem memoryEvents : Obligations.MemoryEvents := by
  unfold Obligations.MemoryEvents
  intro s
  refine ⟨illegalWord_raises s, fun die occ => ?_, fun die g => ⟨fun h => ?_, fun h => ?_⟩, fun die => ?_, fun sp b => ?_,
    fun core task k hk hcore hsaved => ?_, fun id q p hq hp => ?_, fun hr m die ctx r c rc => ?_, pacerRefill_refills s,
    fun hr link off data relaxed hd => ?_, fun hr dev pa => ?_, inval_starts s, invalidation_ends s⟩
  · exact ⟨_, rfl, rfl, fun c => setCong_level s die (congLevel occ) c⟩
  · exact congrArg Host.Outcome.next (if_pos ((activated_iff s die g).2 h))
  · refine ⟨_, congrArg Host.Outcome.next (if_neg ((activated_iff s die g).not.2 h)), rfl, fun k => ?_⟩
    show tget 0 (tset 0 s.refresh (die * 2 ^ 32 + g) s.time) k = _
    rw [tget_tset]
    exact if_congr eq_comm rfl rfl
  · obtain ⟨hframe, hcount⟩ := scrub_counts s (scrubCounters die)
    refine ⟨_, rfl, hframe, fun d => ⟨(hcount d).1, fun hd => (hcount d).2 ?_⟩⟩
    simpa [scrubCounters] using hd
  · exact ⟨_, rfl, wrTag_bytes s sp b _, rdTag_wrTag_same s sp b _, fun sq c h => rdTag_wrTag_other s sp sq b c _ h⟩
  · have hkill : ∀ site, site = .coreStore core task ∨ site = .instrMem core task →
        uncorrectable s site = poisonKill s task core 0xFF 0 := by
      rintro site (rfl | rfl) <;>
      · rw [uncorrectable, hk]
        exact if_pos ⟨hcore, by rw [hsaved]; rfl⟩
    exact ⟨⟨_, congrArg Host.Outcome.next (hkill _ (.inl rfl)), requestKill_asks s task _⟩,
      _, congrArg Host.Outcome.next (hkill _ (.inr rfl)), requestKill_asks s task _⟩
  · have hkill : uncorrectable s (.squadState id) = poisonKill s q.task q.core q.idx (pcCode p.pc) := by
      rw [uncorrectable, hq]
      dsimp only
      rw [hp]
      rfl
    exact ⟨_, congrArg Host.Outcome.next hkill, requestKill_asks s q.task _⟩
  · exact pacerControlWrite_writes s hr m die ctx r c rc
  · exact hostBar2Access_done s hr link off data relaxed hd
  · exact peerAccess_told s hr dev pa

end Sys2Proof.Machine

end

section

namespace Sys2Proof.Machine

/-! ### Lists of checks in order -/

/-- The answer of a list of tests is the first failing check, when they agree row by row. -/
theorem firstFailing_firstErr {l : List (Prop × Err)} {m : List (Bool × Err)}
    (h : List.Forall₂ (fun a b => (a.1 ↔ b.1 = true) ∧ a.2 = b.2) l m) : firstFailing l (firstErr m) := by
  induction h with
  | nil => rfl
  | @cons a b l m hab _ ih =>
    obtain ⟨bad, e⟩ := a
    obtain ⟨c, e'⟩ := b
    obtain ⟨hbad, rfl : e = e'⟩ := hab
    constructor
    · intro h
      rw [firstErr, if_pos (hbad.1 h)]
    · intro h
      rw [firstErr, if_neg fun hc => h (hbad.2 hc)]
      exact ih

theorem firstErr_append (l m : List (Bool × Err)) : firstErr (l ++ m) = (firstErr l).orElse fun _ => firstErr m := by
  induction l with
  | nil => rfl
  | cons a l ih =>
    obtain ⟨b, e⟩ := a
    cases b with
    | true => rfl
    | false => exact ih

/-- A test that fails only where an earlier one does may be left out. -/
theorem firstErr_drop (l m : List (Bool × Err)) (b : Bool) (e : Err) (h : b = true → (l.any fun a => a.1) = true) :
    firstErr (l ++ (b, e) :: m) = firstErr (l ++ m) := by
  induction l with
  | nil =>
    cases b with
    | true => exact absurd (h rfl) (by decide)
    | false => rfl
  | cons a l ih =>
    obtain ⟨c, e'⟩ := a
    cases c with
    | true => rfl
    | false => exact ih fun hb => by simpa using h hb

/-! ### The fields of a record -/

theorem recField_eq_fld (r : Rec) (hi lo : Nat) : recField r hi lo = fld r hi lo := by
  rw [recField, bits, fld, BitVec.extractLsb'_toNat, Nat.shiftRight_eq_div_pow]

theorem rowBytes_eq (r : Rec) : rowBytes r = rowSize r := by
  simp only [rowBytes, rowSize, recExt0, recE, recEsize, recField_eq_fld]

theorem rec2d_iff (r : Rec) : rec2d r = true ↔ fld r 207 176 ≠ 0 := by
  simp only [rec2d, recStride, recField_eq_fld, bne_iff_ne]

theorem rowCount_eq (r : Rec) : rowCount r = rowsOf r := by
  by_cases h : fld r 207 176 = 0
  · rw [rowsOf, if_pos h, rowCount, if_neg fun h2 => (rec2d_iff r).1 h2 h]
  · rw [rowsOf, if_neg h, rowCount, if_pos ((rec2d_iff r).2 h), recExt1, recField_eq_fld]

theorem regionSize_eq (r : Rec) : regionSize r = rowsOf r * rowSize r := by
  rw [← rowCount_eq, ← rowBytes_eq]
  unfold regionSize rowCount
  split
  · rfl
  · exact (Nat.one_mul _).symm

theorem aligned64_iff (r : Rec) : aligned64 r = true ↔ onBlocks 64 r := by
  simp only [aligned64, onBlocks, regionSize_eq, rowBytes_eq, recBase, recStride, recField_eq_fld, Bool.or_eq_true,
    Bool.and_eq_true, beq_iff_eq, and_assoc]

/-- A run of bits is zero when its parts are. -/
theorem fld_eq_zero_split (r : Rec) (hi mid lo : Nat) (h1 : lo ≤ mid) (h2 : mid < hi) :
    fld r hi lo = 0 ↔ fld r hi (mid + 1) = 0 ∧ fld r mid lo = 0 := by
  simp only [← recField_eq_fld, recField, bits]
  obtain ⟨a, rfl⟩ := Nat.exists_eq_add_of_le h1
  obtain ⟨b, rfl⟩ := Nat.exists_eq_add_of_lt h2
  have e1 : lo + a + 1 = lo + (a + 1) := by omega
  have e2 : lo + a + b + 1 - lo + 1 = (a + 1) + (b + 1) := by omega
  have e3 : lo + a + b + 1 - (lo + a + 1) + 1 = b + 1 := by omega
  have e4 : lo + a - lo + 1 = a + 1 := by omega
  rw [e2, e3, e4, e1, Nat.pow_add 2 lo, ← Nat.div_div_eq_div_mul, Nat.pow_add 2 (a + 1), Nat.mod_mul]
  constructor
  · intro h
    have := Nat.eq_zero_of_add_eq_zero h
    exact ⟨(Nat.mul_eq_zero.1 this.2).resolve_left (by positivity), this.1⟩
  · rintro ⟨h1, h2⟩
    rw [h1, h2, Nat.mul_zero]

theorem recReserved_iff (r : Rec) : recReserved r = true ↔ reservedIn r := by
  have hrun : fld r 248 224 = 0 ↔ fld r 248 246 = 0 ∧ fld r 245 239 = 0 ∧ fld r 238 235 = 0 ∧ fld r 234 224 = 0 := by
    rw [fld_eq_zero_split r 248 245 224 (by decide) (by decide), fld_eq_zero_split r 245 238 224 (by decide) (by decide),
      fld_eq_zero_split r 238 234 224 (by decide) (by decide)]
  simp only [recReserved, reservedIn, recKind, recSwz, recTarget, recEsize, recSpace, recBase, recField_eq_fld]
  split
  · simp only [Bool.or_eq_true, bne_iff_ne, ne_eq, hrun, not_and_or, or_assoc, or_comm, or_left_comm]
  · simp only [Bool.or_eq_true, Bool.and_eq_true, decide_eq_true_eq, bne_iff_ne, beq_iff_eq, ne_eq, or_assoc, gt_iff_lt]

/-! ### The rows of R250 -/

/-- The tests of the records and the copy word, in order. -/
def recRows (s : State) (ctx : Nat) (q : CopyReq) (aw : Rec) : List (Bool × Err) :=
  let w := q.cword.toNat
  let lod := q.major = 0x94
  let toRec := q.dslot.isNone && q.major != 0x95
  let gather := q.major = 0x91
  [(if lod then recKind q.srec != 1 else recKind q.srec != 0 || (q.major == 0x95 && recSpace q.srec != 0), (7, 2)),
   (gather && (recKind q.irec != 0 || rec2d q.irec || recEsize q.irec != 2), (7, 2)),
   (toRec && recKind q.drec != 0, (7, 2)),
   (toRec && !recWr q.drec, (7, 6)),
   (recReserved q.srec || (toRec && recReserved q.drec) || (gather && recReserved q.irec) || (recKind aw == 0 && recReserved aw),
    (7, 4)),
   (w / 2 ^ 44 != 0 || (q.major != 0x92 && cwDesc w != 0) || (!gather && cwIrec w != 0) ||
      (cwStv w && (q.major == 0x90 || q.major == 0x95)) || q.param.toNat / 2 ^ 36 != 0, (7, 4)),
   ((!lod && recSwz q.srec != 0) || (toRec && recSwz q.drec != 0) || (gather && recSwz q.irec != 0), (7, 5)),
   (!sizesOk s ctx q, (7, 5)),
   ((!lod && decide (regionSize q.srec ≥ 2 ^ 32)) || (toRec && decide (regionSize q.drec ≥ 2 ^ 32)), (7, 5)),
   (!lod && !(if q.major = 0x93 ∧ q.xf = 1 then recBase q.srec % 32 == 0 else aligned64 q.srec), (3, 2)),
   (toRec && !aligned64 q.drec, (3, 2))]

/-- The tests of the arrival word's record but the one for its reserved fields. -/
def awordRows (aw : Rec) (w : Nat) : List (Bool × Err) :=
  [(recKind aw != 0, (7, 2)), (!recWr aw, (7, 6)), (decide (16 * cwAwidx w + 16 > regionSize aw), (4, 1)),
   (recBase aw % 16 != 0, (3, 1))]

/-- The arrival word's reserved fields are tested among the records', or its record is of a kind that fails before. -/
theorem copyRows_eq (s : State) (x : Iss) (q : CopyReq) :
    copyRows s x q = firstErr (recRows s (ctxId s x.q) q (rdB x.q (q.cword.toNat % 16)) ++
      awordRows (rdB x.q (q.cword.toNat % 16)) q.cword.toNat) := by
  have hdrop : firstErr (recRows s (ctxId s x.q) q (rdB x.q (q.cword.toNat % 16)) ++ awRows x q.cword.toNat) =
      firstErr (recRows s (ctxId s x.q) q (rdB x.q (q.cword.toNat % 16)) ++
        awordRows (rdB x.q (q.cword.toNat % 16)) q.cword.toNat) := by
    have h := firstErr_drop (recRows s (ctxId s x.q) q (rdB x.q (q.cword.toNat % 16)) ++
        [(recKind (rdB x.q (q.cword.toNat % 16)) != 0, (7, 2))])
      [(!recWr (rdB x.q (q.cword.toNat % 16)), (7, 6)),
       (decide (16 * cwAwidx q.cword.toNat + 16 > regionSize (rdB x.q (q.cword.toNat % 16))), (4, 1)),
       (recBase (rdB x.q (q.cword.toNat % 16)) % 16 != 0, (3, 1))]
      (recReserved (rdB x.q (q.cword.toNat % 16))) (7, 4) ?_
    · rw [List.append_assoc, List.append_assoc] at h
      exact h
    · intro hres
      by_cases hk : recKind (rdB x.q (q.cword.toNat % 16)) = 0
      · simp [recRows, hres, hk]
      · simp [hk]
  rw [← hdrop, firstErr_append]
  rfl

/-- The sizes that a command of a major asks for. -/
theorem sizesOk_iff (s : State) (ctx : Nat) (r : CopyReq) :
    (!sizesOk s ctx r) = true ↔
      match (motive := Nat → Prop) r.major with
      | 0x90 => rowsOf r.srec * rowSize r.srec ≠ rowsOf r.drec * rowSize r.drec
      | 0x91 => fld r.srec 207 176 = 0 ∨
          (if r.dslot = none then fld r.irec 143 112 * rowSize r.srec ≠ rowsOf r.drec * rowSize r.drec ∨
              2 ^ 32 ≤ fld r.irec 143 112 * rowSize r.srec
            else fld r.irec 143 112 * rowSize r.srec % 64 ≠ 0 ∨ 8192 < fld r.irec 143 112 * rowSize r.srec)
      | 0x93 => (match (motive := Nat → Prop) r.xf with
        | 1 => rowsOf r.srec * rowSize r.srec ≠ 32
        | 2 => rowsOf r.srec * rowSize r.srec ≠ 2048
        | _ => rowsOf r.srec * rowSize r.srec % 64 ≠ 0 ∨ 8192 < rowsOf r.srec * rowSize r.srec)
      | 0x94 => (if r.dslot = none then rowSize r.drec else 128) % 2 ^ (descAt s ctx (fld r.srec 51 0) / 2 ^ 117 % 8) ≠ 0
      | _ => False := by
  obtain ⟨major, xf, drec, dslot, srec, irec, cword, param⟩ := r
  have hdesc : descE (descAt s ctx (fld srec 51 0)) = 2 ^ (descAt s ctx (fld srec 51 0) / 2 ^ 117 % 8) := rfl
  have h2d : rec2d srec = false ↔ fld srec 207 176 = 0 := by
    rw [← Bool.not_eq_true, rec2d_iff, not_not]
  by_cases h90 : major = 0x90
  · subst h90
    simp [sizesOk, copyTotal, regionSize_eq]
  by_cases h91 : major = 0x91
  · subst h91
    cases dslot with
    | none => simp [sizesOk, copyTotal, regionSize_eq, rowBytes_eq, recExt0, recField_eq_fld, h2d, imp_iff_not_or]
    | some n => simp [sizesOk, copyTotal, rowBytes_eq, recExt0, recField_eq_fld, h2d, imp_iff_not_or]
  by_cases h93 : major = 0x93
  · subst h93
    by_cases hx1 : xf = 1
    · subst hx1
      simp [sizesOk, copyTotal, regionSize_eq]
    by_cases hx2 : xf = 2
    · subst hx2
      simp [sizesOk, copyTotal, regionSize_eq]
    · simp [sizesOk, copyTotal, regionSize_eq, hx1, hx2, imp_iff_not_or]
  by_cases h94 : major = 0x94
  · subst h94
    cases dslot <;> simp [sizesOk, rowBytes_eq, recBase, recField_eq_fld, hdesc]
  · simp [sizesOk, h90, h91, h93, h94]

/-- The rows of the records and the arrival word, test by test. -/
theorem copyTable_rows (s : State) (ctx : Nat) (r : CopyReq) (aw : Rec) :
    List.Forall₂ (fun (a : Prop × Err) (b : Bool × Err) => (a.1 ↔ b.1 = true) ∧ a.2 = b.2)
      (copyTable r (descAt s ctx (fld r.srec 51 0) / 2 ^ 117 % 8) aw)
      (recRows s ctx r aw ++ awordRows aw r.cword.toNat) := by
  have hto : (r.dslot.isNone && r.major != 0x95) = true ↔ r.dslot = none ∧ r.major ≠ 0x95 := by simp
  have hwr (a : Rec) : (!recWr a) = true ↔ fld a 249 249 = 0 := by
    have hlt : fld a 249 249 < 2 := (a.extractLsb' 249 1).isLt
    simp only [recWr, recField_eq_fld, Bool.not_eq_true', beq_eq_false_iff_ne]
    omega
  have hal (a : Rec) : (!aligned64 a) = true ↔ ¬ onBlocks 64 a := by
    rw [← aligned64_iff, Bool.not_eq_true', Bool.not_eq_true]
  have hdiv (a b : Nat) (hb : 0 < b) : (a / b != 0) = true ↔ b ≤ a := by
    rw [bne_iff_ne, Ne, Nat.div_eq_zero_iff]
    omega
  refine .cons ⟨?_, rfl⟩ <| .cons ⟨?_, rfl⟩ <| .cons ⟨?_, rfl⟩ <| .cons ⟨?_, rfl⟩ <| .cons ⟨?_, rfl⟩ <| .cons ⟨?_, rfl⟩ <|
    .cons ⟨?_, rfl⟩ <| .cons ⟨(sizesOk_iff s ctx r).symm, rfl⟩ <| .cons ⟨?_, rfl⟩ <| .cons ⟨?_, rfl⟩ <| .cons ⟨?_, rfl⟩ <|
    .cons ⟨?_, rfl⟩ <| .cons ⟨(hwr aw).symm, rfl⟩ <| .cons ⟨?_, rfl⟩ <| .cons ⟨?_, rfl⟩ .nil
  · by_cases hl : r.major = 0x94
    · simp [hl, recKind, recField_eq_fld]
    · simp [hl, recKind, recSpace, recField_eq_fld]
  · simp only [Bool.and_eq_true, Bool.or_eq_true, bne_iff_ne, decide_eq_true_eq, recKind, recEsize, recField_eq_fld, rec2d_iff,
      or_assoc]
  · simp only [Bool.and_eq_true, bne_iff_ne, recKind, recField_eq_fld, Option.isNone_iff_eq_none]
  · simp only [Bool.and_eq_true, bne_iff_ne, hwr, Option.isNone_iff_eq_none]
  · simp only [Bool.and_eq_true, Bool.or_eq_true, bne_iff_ne, beq_iff_eq, decide_eq_true_eq, recReserved_iff, recKind,
      recField_eq_fld, Option.isNone_iff_eq_none, or_assoc]
  · simp only [Bool.and_eq_true, Bool.or_eq_true, bne_iff_ne, beq_iff_eq, decide_eq_true_eq, Bool.not_eq_true',
      decide_eq_false_iff_not, hdiv, Nat.two_pow_pos, cwDesc, cwIrec, cwStv, bits, or_assoc]
  · simp only [Bool.and_eq_true, Bool.or_eq_true, bne_iff_ne, Bool.not_eq_true', decide_eq_false_iff_not, decide_eq_true_eq, recSwz,
      recField_eq_fld, Option.isNone_iff_eq_none, or_assoc]
  · simp only [Bool.and_eq_true, Bool.or_eq_true, Bool.not_eq_true', decide_eq_false_iff_not, decide_eq_true_eq, bne_iff_ne,
      regionSize_eq, Option.isNone_iff_eq_none, ge_iff_le]
  · by_cases hcb : r.major = 0x93 ∧ r.xf = 1
    · simp [hcb, recBase, recField_eq_fld]
    · simp only [if_neg hcb, Bool.and_eq_true, hal, Bool.not_eq_true', decide_eq_false_iff_not]
  · simp only [Bool.and_eq_true, bne_iff_ne, hal, Option.isNone_iff_eq_none]
  · simp only [bne_iff_ne, recKind, recField_eq_fld]
  · simp only [decide_eq_true_eq, regionSize_eq, gt_iff_lt]
    rfl
  · simp only [bne_iff_ne, recBase, recField_eq_fld]

theorem rowsIn_iff (s : State) (ctx core : Nat) (fwd : Bool) (r : Rec) (n i : Nat) :
    rowsIn s ctx core fwd r n i = true ↔ ∀ k, k < n →
      (if fwd then ∃ c, scrPlace s ctx core (recBase r + (i + k) * recStride r) (rowBytes r) = .ok c
       else footprintOk s ctx core (recBase r + (i + k) * recStride r) (rowBytes r) = true) := by
  induction n generalizing i with
  | zero => simp [rowsIn]
  | succ n ih =>
    rw [rowsIn, Bool.and_eq_true, ih (i + 1), Nat.forall_lt_succ_left]
    refine and_congr ?_ (forall₂_congr fun k _ => by rw [Nat.add_right_comm i 1 k, Nat.add_assoc i k 1])
    cases fwd with
    | false => exact Iff.rfl
    | true =>
      rw [Nat.add_zero]
      simp only [if_true]
      split <;> simp_all

/-- A region in a scratchpad that has a row outside every footprint. -/
theorem not_regionIn_iff (s : State) (q : Squad) (fwd : Bool) (a : Rec) :
    (!regionIn s (ctxId s q) (targetCore q a) fwd a) = true ↔ fld a 251 251 = 1 ∧ rowsOf a * rowSize a ≠ 0 ∧ ∃ i, i < rowsOf a ∧
      (if fwd then ∀ c, scrPlace s (ctxId s q) (q.core / 128 * 128 + fld a 245 239) (fld a 51 0 + i * fld a 207 176) (rowSize a) ≠ .ok c
       else footprintOk s (ctxId s q) (q.core / 128 * 128 + fld a 245 239) (fld a 51 0 + i * fld a 207 176) (rowSize a) = false) := by
  have hcore : targetCore q a = q.core / 128 * 128 + fld a 245 239 := by rw [targetCore, dieOf, recTarget, recField_eq_fld]
  have hspace : fld a 251 251 < 2 := (a.extractLsb' 251 1).isLt
  rw [Bool.not_eq_true', ← Bool.not_eq_true, hcore]
  simp only [regionIn, Bool.or_eq_true, not_or, rowsIn_iff, beq_iff_eq, regionSize_eq, recSpace, rowBytes_eq, rowCount_eq, recBase,
    recStride, recField_eq_fld, Nat.zero_add, not_forall, ← and_assoc]
  refine and_congr ⟨fun h => ⟨by omega, h.1⟩, fun h => ⟨h.2, by omega⟩⟩ (exists_congr fun i => ?_)
  cases fwd <;> simp

theorem copyLastRows_rows (s : State) (x : Iss) (r : CopyReq) :
    firstFailing (copyLastRows s x.q r) (copyLate s x r) := by
  have hclaim (n : Nat) : (!claimedBy s x.q n) = true ↔ ∀ k, taskOf s x.q.task = some k → n ∉ k.claimed := by
    cases hk : taskOf s x.q.task <;> simp [claimedBy, hk]
  have hstaged (n : Nat) : (stagedOf s x.q n).isNone = true ↔ ∀ g, aget s.staged (x.q.core * 8 + n) = some g → g.cmd.task ≠ x.q.task := by
    cases hg : aget s.staged (x.q.core * 8 + n) <;> simp [stagedOf, hg]
  refine firstFailing_firstErr (.cons ⟨?_, rfl⟩ <| .cons ⟨?_, rfl⟩ <| .cons ⟨?_, rfl⟩ <| .cons ⟨?_, rfl⟩ .nil)
  · simp only [Bool.or_eq_true, Bool.and_eq_true, bne_iff_ne, beq_iff_eq, not_regionIn_iff, Option.isNone_iff_eq_none, or_assoc,
      and_assoc]
  · cases r.dslot <;> simp [hclaim]
  · simp only [Bool.and_eq_true, Option.isNone_iff_eq_none, cwStv]
  · simp only [Bool.and_eq_true, hstaged, cwStv, cwStg, bits]
    rfl

theorem copyChecksRule : CopyChecksRule := by
  intro s x r
  refine ⟨?_, copyLastRows_rows s x r⟩
  rw [copyRows_eq]
  exact firstFailing_firstErr (copyTable_rows s (ctxId s x.q) r _)

end Sys2Proof.Machine

end

section

namespace Sys2Proof.Machine

/-! ### The codes that accesses fault with -/

theorem walkFrom_code (s : State) (va n tbl : Nat) {e : Err} (h : walkFrom s va n tbl = .error e) : e.1 = 6 := by
  induction n generalizing tbl with
  | zero =>
    rw [walkFrom] at h
    cases h
    rfl
  | succ n ih =>
    rw [walkFrom] at h
    dsimp only at h
    split at h
    · cases h; rfl
    · split at h
      · cases h; rfl
      · split at h
        · cases h; rfl
        · split at h
          · split at h
            · cases h; rfl
            · cases h
          · split at h
            · cases h; rfl
            · exact ih _ h

theorem walkPage_code {s : State} {ctx va : Nat} {e : Err} (h : walkPage s ctx va = .error e) : e.1 = 6 := by
  unfold walkPage at h
  dsimp only at h
  split at h
  · cases h; rfl
  · exact walkFrom_code s va 4 _ h

theorem pageOf_code {s : State} {ctx va : Nat} {e : Err} (h : pageOf s ctx va = .error e) : e.1 = 6 := by
  unfold pageOf at h
  split at h
  · exact walkPage_code h
  · split at h
    · split at h
      · cases h
      · split at h <;> cases h
    next herr =>
      split at h
      · cases h
      · cases h
        exact walkPage_code herr

theorem placePa_code {s : State} {pa : Nat} {wr : Bool} {e : Err} (h : placePa s pa wr = .error e) : e.1 = 6 ∨ e.1 = 7 := by
  unfold placePa at h
  split at h
  · cases h
  · split at h
    · cases h
      exact .inl rfl
    · dsimp only at h
      split at h
      · cases h
      · cases h
        exact .inr rfl

theorem translate_code {s : State} {ctx va : Nat} {wr : Bool} {e : Err} (h : translate s ctx va wr = .error e) :
    e.1 = 6 ∨ e.1 = 7 := by
  unfold translate at h
  split at h
  · cases h
    exact .inl rfl
  · split at h
    next hpage =>
      cases h
      exact .inl (pageOf_code hpage)
    · split at h
      · cases h
        exact .inl rfl
      · split at h
        · cases h
          exact .inr rfl
        · exact placePa_code h

theorem scrPlace_code {s : State} {ctx core a n : Nat} {e : Err} (h : scrPlace s ctx core a n = .error e) : e.1 = 7 := by
  unfold scrPlace at h
  dsimp only at h
  split at h
  · cases h
  · cases h
    rfl

theorem placeAt_code {s : State} {ctx : Nat} {tr : Option TRec} {r : Rec} {core : Nat} {fwd : Bool} {va n : Nat} {wr : Bool} {e : Err}
    (h : placeAt s ctx tr r core fwd va n wr = .error e) : e.1 = 5 ∨ e.1 = 6 ∨ e.1 = 7 := by
  unfold placeAt at h
  split at h
  · right; right
    cases fwd with
    | true =>
      rw [if_pos rfl] at h
      cases hplace : scrPlace s ctx core va n with
      | error e' =>
        rw [hplace] at h
        cases h
        exact scrPlace_code hplace
      | ok c =>
        rw [hplace] at h
        cases h
    | false =>
      rw [if_neg Bool.false_ne_true] at h
      split at h <;> cases h
      rfl
  · generalize (if recKind r = 2 then va - 2 ^ 51 else va) = a at h
    dsimp only at h
    split at h
    · cases h
      exact .inl rfl
    · exact .inr (translate_code h)

theorem placeRec_code {s : State} {q : Squad} {r : Rec} {core : Nat} {fwd : Bool} {va n : Nat} {wr : Bool} {e : Err}
    (h : placeRec s q r core fwd va n wr = .error e) : e.1 = 5 ∨ e.1 = 6 ∨ e.1 = 7 := placeAt_code h

/-- The answer of a list of tests is one of its faults. -/
theorem firstErr_forall {P : Err → Prop} {l : List (Bool × Err)} (hl : ∀ a ∈ l, P a.2) {e : Err} (h : firstErr l = some e) :
    P e := by
  induction l with
  | nil => cases h
  | cons a l ih =>
    obtain ⟨b, e'⟩ := a
    obtain ⟨ha, hl⟩ := List.forall_mem_cons.1 hl
    rw [firstErr] at h
    split at h
    · cases h
      exact ha
    · exact ih hl h

/-! ### The codes of the copy instructions -/

theorem awRows_code {x : Iss} {w : Nat} : ∀ a ∈ awRows x w, a.2.1 ≠ 1 := by
  simp [awRows, eACCESS]

theorem copyRecRows_code {s : State} {ctx : Nat} {r : CopyReq} {aw : Option Rec} {e : Err} (h : copyRecRows s ctx r aw = some e) :
    e.1 ≠ 1 :=
  firstErr_forall (P := fun e => e.1 ≠ 1) (by simp [eACCESS]) h

theorem copyRows_code {s : State} {x : Iss} {r : CopyReq} {e : Err} (h : copyRows s x r = some e) : e.1 ≠ 1 := by
  unfold copyRows at h
  dsimp only at h
  cases hrec : copyRecRows s (ctxId s x.q) r (some (rdB x.q (cwAwrec r.cword.toNat))) with
  | some e' =>
    rw [hrec] at h
    cases h
    exact copyRecRows_code hrec
  | none =>
    rw [hrec] at h
    exact firstErr_forall (P := fun e => e.1 ≠ 1) awRows_code h

theorem copyLate_code {s : State} {x : Iss} {r : CopyReq} {e : Err} (h : copyLate s x r = some e) : e.1 ≠ 1 :=
  firstErr_forall (P := fun e => e.1 ≠ 1) (by simp [eACCESS]) h

theorem copyAw_code {s : State} {x : Iss} {w : Nat} {f : FaultInfo} (h : copyAw s x w = .error f) : f.code ≠ 1 := by
  unfold copyAw at h
  dsimp only at h
  split at h
  · cases h
  next hplace =>
    cases h
    rcases placeRec_code hplace with h5 | h6 | h7
    · simp [mkFault, h5]
    · simp [mkFault, h6]
    · simp [mkFault, h7]

end Sys2Proof.Machine

end

section

namespace Sys2Proof.Machine

/-! ### What a copy instruction's meaning answers -/

/-- The state in which a command has its number and is counted. -/
def numbered (s : State) (x : Iss) (n : Nat) : State :=
  logCmd (modSquad { s with nextId := s.nextId + 1 } x.id (countCmd 6)) x n

section
variable {s : State} {x : Iss} {r : CopyReq}

theorem copySubmit_row {e : Err} (hrow : copyRows s x r = some e) : copySubmit s x r = failE s x e := by
  rw [copySubmit, hrow]

theorem copySubmit_aword {f : FaultInfo} (hrow : copyRows s x r = none) (haw : copyAw s x r.cword.toNat = .error f) :
    copySubmit s x r = .fault s f := by
  rw [copySubmit, hrow]
  dsimp only
  rw [haw]

theorem copySubmit_late {aw : AwLoc} {e : Err} (hrow : copyRows s x r = none) (haw : copyAw s x r.cword.toNat = .ok aw)
    (hlate : copyLate s x r = some e) : copySubmit s x r = failE s x e := by
  rw [copySubmit, hrow]
  dsimp only
  rw [haw]
  dsimp only
  rw [hlate]

theorem copySubmit_passed {aw : AwLoc} (hrow : copyRows s x r = none) (haw : copyAw s x r.cword.toNat = .ok aw)
    (hlate : copyLate s x r = none) (hup : locDown s aw = false) :
    copySubmit s x r = if copyEmpty r then .ok (fireTrigger (numbered s x s.nextId) (copyCmd s x r aw))
      else .hold { numbered s x s.nextId with copies := s.copies ++ [copyCmd s x r aw] } (.accept s.nextId) := by
  have hcopies : (numbered s x s.nextId).copies = s.copies := by rw [numbered, logCmd, logEvs_frame]; rfl
  rw [copySubmit, hrow]
  dsimp only
  rw [haw]
  dsimp only
  rw [hlate]
  dsimp only
  rw [hup, if_neg Bool.false_ne_true]
  split
  · rfl
  · exact congrArg
      (fun l => Res.hold { numbered s x s.nextId with copies := l ++ [copyCmd s x r aw] } (.accept s.nextId)) hcopies

end

/-- OVL.LD notes the command at its bank. -/
def noteLoad (s : State) (core : Nat) (bk : Bank) (r : CopyReq) (n : Nat) : State :=
  if r.major = 0x95 then setBank s core (r.xf == 1) { bk with loading := bk.loading ++ [n] } else s

/-- A copy instruction submits its request; OVL.LD looks at its bank before and notes the load after. -/
def Submits (r : CopyReq) (s : State) (x : Iss) (res : Res) : Prop :=
  let bk := bankOf s x.q.core (r.xf == 1)
  let held : Prop := r.major = 0x95 → bk.holders = [x.q.task]
  (¬ held → res = failE s x (0x07, 0x01)) ∧
  (held → ∀ t f, copySubmit s x r = .fault t f → res = .fault t f) ∧
  (held → ∀ t, copySubmit s x r = .ok t → res = .ok t) ∧
  (held → ∀ t n, copySubmit s x r = .hold t (.accept n) → res = .hold (noteLoad t x.q.core bk r n) (.accept n))

theorem submits_copy {r : CopyReq} (hr : r.major ≠ 0x95) (s : State) (x : Iss) : Submits r s x (copySubmit s x r) :=
  ⟨fun h => absurd (fun h95 => absurd h95 hr) h, fun _ _ _ h => h, fun _ _ h => h, fun _ t n h => by rw [h, noteLoad, if_neg hr]⟩

section
variable {i : Instr} {h : Hdr} {cls major xf : Nat} {d : Opnd} {ba : Nat} {w param : Iss → W64} {s : State} {id : Nat} {q : Squad}
  {p : Path}

theorem copyForm_submits {drec irec : Rec} {dslot : Option Nat} (hexec : exec i s = copyForm h cls major xf d ba w param s)
    (hmajor : major ≠ 0x95) (hdrec : dstRec (seen id q p h) d = drec) (hdslot : dstSlot d = dslot)
    (hirec : (if major = 0x91 then rdB q (cwIrec (w (seen id q p h)).toNat) else 0) = irec) (hact : runs p h q ≠ 0) :
    ∃ body, exec i s = issue h cls (.once 1) s body ∧ ∀ t,
      Submits ⟨major, xf, drec, dslot, rdB q ba, irec, w (seen id q p h), param (seen id q p h)⟩ t (seen id q p h)
        (body (seen id q p h) t) := by
  subst hdrec hdslot hirec
  have hact' : (seen id q p h).act ≠ 0 := hact
  refine ⟨_, hexec, fun t => ?_⟩
  rw [if_neg hact']
  exact submits_copy hmajor t _

/-- OVL.LD submits its request between its look at the bank and its note there. -/
theorem ovlLd_submits (bank : Bool) (b : Opnd) (hexec : exec i s = execOvlLd h bank ba b s) (hact : runs p h q ≠ 0) :
    ∃ body, exec i s = issue h 4 (.once 1) s body ∧ ∀ t,
      Submits ⟨0x95, bank.toNat, 0, none, rdB q ba, 0, cwOf b (seen id q p h), 0⟩ t (seen id q p h) (body (seen id q p h) t) := by
  have hact' : (seen id q p h).act ≠ 0 := hact
  have hbank : (bank.toNat == 1) = bank := by cases bank <;> rfl
  refine ⟨_, hexec, fun t => ?_⟩
  rw [if_neg hact']
  simp only [Submits, hbank, forall_true_left, noteLoad, if_true]
  by_cases hheld : (bankOf t (seen id q p h).q.core bank).holders = [(seen id q p h).q.task]
  · rw [if_neg (not_not.2 hheld)]
    refine ⟨fun hn => absurd hheld hn, fun _ u f hs => ?_, fun _ u hs => ?_, fun _ u n hs => ?_⟩
    all_goals
      have hs' : copySubmit t (seen id q p h) ⟨0x95, bank.toNat, 0, none, rdB (seen id q p h).q ba, 0, cwOf b (seen id q p h), 0⟩ =
        _ := hs
      rw [hs']
  · rw [if_pos hheld]
    exact ⟨fun _ => rfl, fun h => absurd h hheld, fun h => absurd h hheld, fun h => absurd h hheld⟩

end

theorem exec_cpy (h : Hdr) (bd ba : Nat) (b : Opnd) (s : State) : exec (.cpy h bd ba b) s = execCpy h bd ba b s := rfl
theorem exec_cpyg (h : Hdr) (d : Opnd) (ba : Nat) (b : Opnd) (s : State) : exec (.cpyg h d ba b) s = execCpyg h d ba b s := rfl
theorem exec_cpyp (h : Hdr) (d : Opnd) (ba : Nat) (b : Opnd) (s : State) : exec (.cpyp h d ba b) s = execCpyp h d ba b s := rfl
theorem exec_cpys (h : Hdr) (od ba : Nat) (b : Opnd) (s : State) : exec (.cpys h od ba b) s = execCpys h od ba b s := rfl
theorem exec_cpysCb (h : Hdr) (od ba : Nat) (b : Opnd) (s : State) : exec (.cpysCb h od ba b) s = execCpysCb h od ba b s := rfl
theorem exec_cpysZb (h : Hdr) (od ba : Nat) (b : Opnd) (s : State) : exec (.cpysZb h od ba b) s = execCpysZb h od ba b s := rfl
theorem exec_cpyl (h : Hdr) (d : Opnd) (ba sb : Nat) (s : State) : exec (.cpyl h d ba sb) s = execCpyl h d ba sb s := rfl
theorem exec_ovlLd (h : Hdr) (bank : Bool) (ba : Nat) (b : Opnd) (s : State) :
    exec (.ovlLd h bank ba b) s = execOvlLd h bank ba b s := rfl
theorem exec_cpyStat (h : Hdr) (sd : Nat) (b : Opnd) (s : State) : exec (.cpyStat h sd b) s = execCpyStat h sd b s := rfl
theorem exec_cpyCancel (h : Hdr) (b : Opnd) (s : State) : exec (.cpyCancel h b) s = execCpyCancel h b s := rfl

/-- Every copy instruction submits its request. -/
theorem copyOfInstr_submits {i : Instr} {h : Hdr} {cls : Nat} {r : CopyReq} {q : Squad} {p : Path} (s : State) (id : Nat)
    (hi : copyOfInstr q i = some (h, cls, r)) (hact : runs p h q ≠ 0) :
    ∃ body, exec i s = issue h cls (.once 1) s body ∧ ∀ t, Submits r t (seen id q p h) (body (seen id q p h) t) := by
  unfold copyOfInstr at hi
  split at hi
  next h' bd ba b =>
    cases hi
    have hsub := copyForm_submits (id := id) (exec_cpy h bd ba b s) (by decide) rfl rfl rfl hact
    exact hsub
  next h' d ba b =>
    cases hi
    have hirec : cwIrec (cwOf b (seen id q p h)).toNat = rdScal q b / 2 ^ 24 % 16 := by
      show BitVec.toNat (BitVec.ofNat 64 (rdScal q b)) / 2 ^ 24 % 2 ^ (27 - 24 + 1) = _
      rw [BitVec.toNat_ofNat]
      omega
    have hsub := copyForm_submits (id := id) (p := p) (exec_cpyg h d ba b s) (by decide) rfl rfl
      ((if_pos rfl).trans (congrArg (rdB q) hirec)) hact
    exact hsub
  next h' d ba b =>
    cases hi
    have hsub := copyForm_submits (id := id) (exec_cpyp h d ba b s) (by decide) rfl rfl rfl hact
    exact hsub
  next h' od ba b =>
    cases hi
    have hsub := copyForm_submits (id := id) (exec_cpys h od ba b s) (by decide) rfl rfl rfl hact
    exact hsub
  next h' od ba b =>
    cases hi
    have hsub := copyForm_submits (id := id) (exec_cpysCb h od ba b s) (by decide) rfl rfl rfl hact
    exact hsub
  next h' od ba b =>
    cases hi
    have hsub := copyForm_submits (id := id) (exec_cpysZb h od ba b s) (by decide) rfl rfl rfl hact
    exact hsub
  next h' d ba sb =>
    cases hi
    have hsub := copyForm_submits (id := id) (exec_cpyl h d ba sb s) (by decide) rfl rfl rfl hact
    exact hsub
  next h' bank ba b =>
    cases hi
    exact ovlLd_submits bank b (exec_ovlLd h bank ba b s) hact
  · cases hi

/-- A meaning that holds the squad leaves the path at the next index. -/
theorem issue_hold {s t : State} {id : Nat} {q q1 : Squad} {p : Path} {h : Hdr} {cls : Nat} {occ : Occ} {w : Wait}
    {body : Iss → State → Res} (hI : Issues s id q p h cls)
    (hbody : body (seen id q p h) (issued s id q p h cls occ) = .hold t w) (hq1 : squadOf t id = some q1)
    (hothers : ∀ j, j ≠ id → squadOf t j = squadOf s j) (hpaths : q1.paths = q.paths) (hfault : q1.fault = none)
    (hsettling : q1.settling = q.settling) :
    ∃ u q', issue h cls occ s body = .next u ∧ Held s u id q q' p h w ∧ u = { t with squads := u.squads } ∧
      q' = { q1 with paths := q'.paths, wait := some w, settling := q'.settling, select := none } := by
  refine ⟨modSquad t id fun q => { advance p.entry q with wait := some w, settling := q.settling || h.s, select := none },
    { advance p.entry q1 with wait := some w, settling := q1.settling || h.s, select := none }, ?_, ?_, rfl, rfl⟩
  · rw [issue_eq s id q p h cls occ body hI, hbody]
    rfl
  · refine ⟨by simp [hq1], fun j hj => by simp [hothers j hj, hj], ?_, rfl, hfault, by rw [← hsettling]⟩
    simp [advance, modPath, hpaths]

theorem numbered_frame (s : State) (x : Iss) (n : Nat) :
    numbered s x n = { s with
      squads := (modSquad s x.id (countCmd 6)).squads, nextId := s.nextId + 1, hist := (numbered s x n).hist
      dcache := (numbered s x n).dcache, active := (numbered s x n).active } := by
  unfold numbered logCmd
  rw [logEvs_frame]
  rfl

theorem squadOf_numbered {s : State} {x : Iss} {q1 : Squad} (hq1 : squadOf s x.id = some q1) (n : Nat) :
    squadOf (numbered s x n) x.id = some (countCmd 6 q1) := by
  rw [numbered_frame]
  exact squadOf_modSquad_some _ hq1

theorem squadOf_numbered_ne (s : State) (x : Iss) (n : Nat) {j : Nat} (hj : j ≠ x.id) :
    squadOf (numbered s x n) j = squadOf s j := by
  rw [numbered_frame]
  exact squadOf_modSquad_ne _ _ hj

theorem fireTrigger_frame (s : State) (c : Copy) :
    fireTrigger s c = { s with
      staged := (fireTrigger s c).staged, hist := (fireTrigger s c).hist, dcache := (fireTrigger s c).dcache,
      active := (fireTrigger s c).active } := by
  unfold fireTrigger
  split <;> rfl

/-- A trigger changes the count of a staged command, and no command. -/
theorem fireTrigger_cmds (s : State) (c : Copy) (n : Nat) :
    (aget (fireTrigger s c).staged n).map (·.cmd) = (aget s.staged n).map (·.cmd) := by
  unfold fireTrigger
  split
  · rfl
  next k serial _ =>
    show (aget (amod s.staged (c.core * 8 + k) _) n).map _ = _
    rw [aget_amod]
    split
    next hk =>
      subst hk
      cases aget s.staged (c.core * 8 + k) with
      | none => rfl
      | some g =>
        refine congrArg some ?_
        dsimp only
        split <;> rfl
    · rfl

/-! ### The state from which a copy instruction is submitted -/

section
variable {s : State} {id : Nat} {q : Squad} {p : Path} {h : Hdr} {cls : Nat} {occ : Occ}

theorem bankOf_issued (hI : Issues s id q p h cls) (core : Nat) (k : Bool) :
    bankOf (issued s id q p h cls occ) core k = bankOf s core k := by
  obtain ⟨-, -, -, heq, -⟩ := issued_squad s id q p h cls occ hI
  rw [heq]
  rfl

theorem spaceDown_issued (hI : Issues s id q p h cls) (sp : Space) :
    spaceDown (issued s id q p h cls occ) sp = spaceDown s sp := by
  obtain ⟨-, -, -, heq, -⟩ := issued_squad s id q p h cls occ hI
  rw [heq]
  rfl

theorem ctxId_issued (hI : Issues s id q p h cls) : ctxId (issued s id q p h cls occ) q = ctxId s q := by
  rw [ctxId, taskOf_issued occ hI, ctxId]

theorem queueOf_issued (hI : Issues s id q p h cls) (core : Nat) :
    queueOf (issued s id q p h cls occ) core = queueOf s core := by
  obtain ⟨-, -, -, heq, -⟩ := issued_squad s id q p h cls occ hI
  rw [heq]
  rfl

end

/-- A slot's readers are the queued products that name it and have not fetched (R254). -/
theorem mem_pendingReaders (s : State) (core task o n : Nat) :
    n ∈ pendingReaders s core task o ↔ ∃ k ∈ queueOf s core, k.serial = n ∧ k.task = task ∧ k.fetched = false ∧
      ∃ z d a b, k.kind = .mma z d a b ∧ (a = o ∨ b = o) := by
  have hreads (k : MCmd) : readsSlot k task o = true ↔ k.task = task ∧ ∃ z d a b, k.kind = .mma z d a b ∧ (a = o ∨ b = o) := by
    unfold readsSlot
    cases k.kind <;> simp
  simp only [pendingReaders, List.mem_map, List.mem_filter, Bool.and_eq_true, hreads, Bool.not_eq_true']
  exact exists_congr fun k => ⟨fun ⟨⟨hk, ⟨htask, hkind⟩, hf⟩, hs⟩ => ⟨hk, hs, htask, hf, hkind⟩,
    fun ⟨hk, hs, htask, hf, hkind⟩ => ⟨⟨hk, ⟨htask, hkind⟩, hf⟩, hs⟩⟩

/-- What the command holds for: the readers of its slot. -/
theorem mem_copyCmd_hold {s : State} {id : Nat} {q : Squad} {p : Path} {h : Hdr} {cls : Nat} (occ : Occ) (r : CopyReq) (aw : AwLoc)
    (hI : Issues s id q p h cls) (n : Nat) :
    (copyCmd (issued s id q p h cls occ) (seen id q p h) r aw).hold.contains n = true ↔
      ∃ o k, r.dslot = some o ∧ k ∈ queueOf s q.core ∧ k.serial = n ∧ k.task = q.task ∧ k.fetched = false ∧
        ∃ z d a b, k.kind = .mma z d a b ∧ (a = o ∨ b = o) := by
  have hhold : (copyCmd (issued s id q p h cls occ) (seen id q p h) r aw).hold =
      (r.dslot.map fun o => pendingReaders (issued s id q p h cls occ) q.core q.task o).getD [] := rfl
  rw [hhold, List.contains_iff_mem]
  cases hd : r.dslot with
  | none => simp
  | some o =>
    simp only [Option.map_some, Option.getD_some, mem_pendingReaders, queueOf_issued hI]
    constructor
    · rintro ⟨k, hk, hrest⟩
      exact ⟨o, k, rfl, hk, hrest⟩
    · rintro ⟨o', k, ho, hk, hrest⟩
      cases ho
      exact ⟨k, hk, hrest⟩

section
variable {i : Instr} {s : State} {id : Nat} {q : Squad} {p : Path} {h : Hdr} {cls : Nat} {r : CopyReq} {aw : AwLoc}
  {body : Iss → State → Res}

/-- A command's number and count change nothing of the device. -/
theorem onlyAnd_numbered (hI : Issues s id q p h cls) (n : Nat) :
    OnlyAnd (fun a _ => a) s (numbered (issued s id q p h cls (.once 1)) (seen id q p h) n) := by
  obtain ⟨-, -, -, heq, -⟩ := issued_squad s id q p h cls (.once 1) hI
  unfold OnlyAnd
  rw [numbered_frame, heq]

theorem onlyAnd_fireTrigger {u t : State} {c : Copy} (hu : OnlyAnd (fun a _ => a) s u)
    (ht : t = { fireTrigger u c with squads := t.squads }) : OnlyAnd (fun a t => { a with staged := t.staged }) s t := by
  obtain ⟨sq, bu, ct, nx, hi, dc, ac, rfl⟩ : ∃ sq bu ct nx hi dc ac, u = { s with
      squads := sq, budgets := bu, ctr := ct, nextId := nx, hist := hi, dcache := dc, active := ac } :=
    ⟨u.squads, u.budgets, u.ctr, u.nextId, u.hist, u.dcache, u.active, hu⟩
  unfold OnlyAnd
  rw [ht, fireTrigger_frame]

/-- A command that passes its checks joins the inbox of its engine, and the squad waits until it is accepted. -/
theorem copy_held (hI : Issues s id q p h cls) (hexec : exec i s = issue h cls (.once 1) s body)
    (hbody : body (seen id q p h) (issued s id q p h cls (.once 1)) = .hold
      (noteLoad { numbered (issued s id q p h cls (.once 1)) (seen id q p h) (issued s id q p h cls (.once 1)).nextId with
          copies := (issued s id q p h cls (.once 1)).copies ++ [copyCmd (issued s id q p h cls (.once 1)) (seen id q p h) r aw] }
        q.core (bankOf s q.core (r.xf == 1)) r (issued s id q p h cls (.once 1)).nextId)
      (.accept (issued s id q p h cls (.once 1)).nextId)) :
    ∃ t q', exec i s = .next t ∧
      Held s t id q q' p h (.accept (copyCmd (issued s id q p h cls (.once 1)) (seen id q p h) r aw).id) ∧
      SameSquad q q' ∧ SameRegs q q' ∧
      OnlyAnd (fun a t => { a with
        copies := s.copies ++ [copyCmd (issued s id q p h cls (.once 1)) (seen id q p h) r aw], banks := t.banks }) s t ∧
      t.banks = (if r.major = 0x95 then aput s.banks (q.core * 2 + (r.xf == 1).toNat)
        { bankOf s q.core (r.xf == 1) with
          loading := (bankOf s q.core (r.xf == 1)).loading ++
            [(copyCmd (issued s id q p h cls (.once 1)) (seen id q p h) r aw).id] } else s.banks) := by
  obtain ⟨q1, hq1, hothers, heq, hq1eq⟩ := issued_squad s id q p h cls (.once 1) hI
  have hcopies : (issued s id q p h cls (.once 1)).copies = s.copies := by rw [heq]
  have hbanks : (issued s id q p h cls (.once 1)).banks = s.banks := by rw [heq]
  have hsq : squadOf (issued s id q p h cls (.once 1)) (seen id q p h).id = some q1 := hq1
  generalize hc : copyCmd (issued s id q p h cls (.once 1)) (seen id q p h) r aw = c at *
  have hcid : c.id = (issued s id q p h cls (.once 1)).nextId := by rw [← hc]; rfl
  rw [← hcid, hcopies] at hbody
  have hnote (j : Nat) (u : State) : squadOf (noteLoad u q.core (bankOf s q.core (r.xf == 1)) r c.id) j = squadOf u j := by
    unfold noteLoad
    split <;> rfl
  obtain ⟨t, q', ht, hheld, hteq, hq'⟩ := issue_hold (q1 := countCmd 6 q1) hI hbody
    (by rw [hnote]; exact squadOf_numbered hsq c.id)
    (fun j hj => by rw [hnote, ← hothers j hj]; exact squadOf_numbered_ne _ (seen id q p h) c.id hj)
    (by rw [hq1eq]; rfl) (by rw [hq1eq]; exact hI.whole) (by rw [hq1eq]; rfl)
  refine ⟨t, q', hexec.trans ht, hheld, ?_, ?_, ?_, ?_⟩
  · unfold SameSquad
    rw [hq', hq1eq]
    rfl
  · rw [hq', hq1eq]
    exact ⟨rfl, rfl, rfl, rfl, rfl, rfl, rfl⟩
  · unfold OnlyAnd
    rw [hteq, noteLoad, numbered_frame, heq]
    split <;> rfl
  · rw [hteq, noteLoad, numbered_frame]
    split
    · show aput (issued s id q p h cls (.once 1)).banks _ _ = _
      rw [hbanks]
      rfl
    · exact hbanks

/-- A command without bytes to move is done at once; a staged command that it names may fire. -/
theorem copy_empty_done (hI : Issues s id q p h cls) (hexec : exec i s = issue h cls (.once 1) s body) {c : Copy} {n : Nat}
    (hbody : body (seen id q p h) (issued s id q p h cls (.once 1)) =
      .ok (fireTrigger (numbered (issued s id q p h cls (.once 1)) (seen id q p h) n) c)) :
    Does i s id q p h fun t => OnlyAnd (fun a t => { a with staged := t.staged }) s t ∧
      ∀ n, (aget t.staged n).map (·.cmd) = (aget s.staged n).map (·.cmd) := by
  obtain ⟨q1, hq1, hothers, heq, hq1eq⟩ := issued_squad s id q p h cls (.once 1) hI
  have hsq : squadOf (issued s id q p h cls (.once 1)) (seen id q p h).id = some q1 := hq1
  have hstaged : (numbered (issued s id q p h cls (.once 1)) (seen id q p h) n).staged = s.staged := by
    rw [numbered_frame]
    show (issued s id q p h cls (.once 1)).staged = _
    rw [heq]
  have hfire (j : Nat) (u : State) : squadOf (fireTrigger u c) j = squadOf u j := by
    rw [fireTrigger_frame]
    rfl
  obtain ⟨t, q', ht, hwent, hteq, hq'⟩ := issue_ok s _ id q (countCmd 6 q1) p h cls (.once 1) body hI hbody
    (by rw [hfire]; exact squadOf_numbered hsq n)
    (fun j hj => by rw [hfire, ← hothers j hj]; exact squadOf_numbered_ne _ (seen id q p h) n hj)
    (by rw [hq1eq]; rfl) (by rw [hq1eq]; exact hI.whole) (by rw [hq1eq]; rfl)
  refine ⟨t, q', hexec.trans ht, hwent, ?_, ?_, ?_, ?_, fun k => ?_⟩
  · unfold SameSquad
    rw [hq', hq1eq]
    rfl
  · rw [hq', hq1eq]
    exact ⟨rfl, rfl, rfl, rfl, rfl, rfl, rfl⟩
  · rw [hq', hq1eq]
    exact hI.settled
  · exact onlyAnd_fireTrigger (onlyAnd_numbered hI n) hteq
  · have htstaged : t.staged = (fireTrigger (numbered (issued s id q p h cls (.once 1)) (seen id q p h) n) c).staged := by rw [hteq]
    rw [htstaged, fireTrigger_cmds, hstaged]

end

/-- OVL.LD names a bank by 0 or 1. -/
theorem copyOfInstr_bank {i : Instr} {h : Hdr} {cls : Nat} {r : CopyReq} {q : Squad}
    (hi : copyOfInstr q i = some (h, cls, r)) (hr : r.major = 0x95) : (r.xf == 1).toNat = r.xf := by
  unfold copyOfInstr at hi
  split at hi
  case h_8 h' bank ba b =>
    cases hi
    cases bank <;> rfl
  case h_9 => cases hi
  all_goals
    cases hi
    dsimp only at hr
    exact absurd hr (by decide)

theorem copyCommandsQueueRule : CopyCommandsQueueRule := by
  intro i h cls r s id q p hi hI hact s1 x held fails
  obtain ⟨body, hexec, hsub⟩ := copyOfInstr_submits s id hi hact
  obtain ⟨hbank, hfault, hdone, hhold⟩ := hsub s1
  have hheld : held ↔ (r.major = 0x95 → (bankOf s1 x.q.core (r.xf == 1)).holders = [x.q.task]) := by
    rw [bankOf_issued hI]
    exact Iff.rfl
  have hfails {e : Err} (he : body x s1 = failE s1 x e) (hcode : e.1 ≠ 1) : fails e := raises_of_fail hI hexec he hcode
  refine ⟨fun hno => hfails (hbank (hheld.not.1 hno)) (by decide), fun hyes e hrow => ?_, fun hyes hrow f haw hpark => ?_,
    fun hyes hrow aw haw => ⟨fun e hlate => ?_, fun hlate hup => ?_⟩⟩
  · exact hfails (hfault (hheld.1 hyes) _ _ (copySubmit_row hrow)) (copyRows_code hrow)
  · obtain ⟨t, ht, hdel⟩ := fault_done hI (hfault (hheld.1 hyes) _ _ (copySubmit_aword hrow haw)) hpark (copyAw_code haw)
    exact ⟨t, hexec.trans ht, hdel⟩
  · exact hfails (hfault (hheld.1 hyes) _ _ (copySubmit_late hrow haw hlate)) (copyLate_code hlate)
  · have hpassed := copySubmit_passed hrow haw hlate ((spaceDown_issued hI aw.sp).trans hup)
    refine ⟨fun hfull => ?_, fun hempty => ?_⟩
    · rw [hfull, if_neg Bool.false_ne_true] at hpassed
      have hbody := hhold (hheld.1 hyes) _ _ hpassed
      rw [bankOf_issued hI] at hbody
      obtain ⟨t, q', ht, hheldsq, hsame, hregs, honly, hbanks⟩ := copy_held hI hexec hbody
      refine ⟨t, q', copyCmd s1 x r aw, ht, hheldsq, hsame, hregs, honly, ?_, rfl, rfl, rfl, rfl, rfl, rfl, ctxId_issued hI, rfl, rfl,
        rfl, rfl, rfl, rfl, mem_copyCmd_hold (.once 1) r aw hI⟩
      rw [hbanks]
      split
      next hr => rw [copyOfInstr_bank hi hr]
      · rfl
    · rw [hempty, if_pos rfl] at hpassed
      exact copy_empty_done hI hexec (hdone (hheld.1 hyes) _ hpassed)

end Sys2Proof.Machine

end

section

namespace Sys2Proof.Machine

/-! ### What `cpy.cancel` does to one command (R263) -/

theorem dropCopy_frame (s : State) (id : Nat) :
    dropCopy s id = { s with
      copies := s.copies.filter fun c => c.id ≠ id, hist := (dropCopy s id).hist, dcache := (dropCopy s id).dcache,
      active := (dropCopy s id).active } := by
  unfold dropCopy
  dsimp only
  split <;> rfl

theorem loadLost_frame (s : State) (c : Copy) :
    loadLost s c = { s with banks := (loadLost s c).banks, imem := (loadLost s c).imem } := by
  unfold loadLost
  split
  · split <;> rfl
  · rfl

/-- The loss of a load looks at banks and instruction memory alone. -/
theorem loadLost_banks_of {s t : State} (hbanks : t.banks = s.banks) (c : Copy) : (loadLost t c).banks = (loadLost s c).banks := by
  have hbank (core : Nat) (k : Bool) : bankOf t core k = bankOf s core k := by rw [bankOf, hbanks, bankOf]
  unfold loadLost
  split
  · rw [hbank]
    split
    · simp only [unload, clearBank, setBank, putImem, hbanks, hbank, bankOf]
    · exact hbanks
  · exact hbanks

/-- What a cancel leaves of one command among the others. -/
def afterOne (c d : Copy) : Option Copy := if d.id = c.id then afterCancel c else some d

theorem filter_eq_filterMap_afterOne {c : Copy} (hc : afterCancel c = none) (l : List Copy) :
    l.filter (fun d => d.id ≠ c.id) = l.filterMap (afterOne c) := by
  rw [← List.filterMap_eq_filter]
  refine List.filterMap_congr fun d _ => ?_
  by_cases hd : d.id = c.id <;> simp [afterOne, hd, hc]

theorem map_eq_filterMap_afterOne {c k : Copy} (hc : afterCancel c = some k) (l : List Copy) :
    (l.map fun d => if d.id = c.id then k else d) = l.filterMap (afterOne c) := by
  rw [← List.filterMap_eq_map]
  refine List.filterMap_congr fun d _ => ?_
  by_cases hd : d.id = c.id <;> simp [afterOne, hd, hc]

/-- Dropping a command takes it away, changed or not. -/
theorem filter_map_same {c k : Copy} (hk : k.id = c.id) (l : List Copy) :
    (l.map fun d => if d.id = c.id then k else d).filter (fun d => d.id ≠ c.id) = l.filter fun d => d.id ≠ c.id := by
  induction l with
  | nil => rfl
  | cons d l ih =>
    by_cases hd : d.id = c.id
    · simpa [hd, hk] using ih
    · simpa [hd] using ih

theorem remaining_cancelled_isEmpty (c : Copy) : (remaining { c with cancelled := true }).isEmpty =
    (List.range (c.landed.foldl (fun m j => max m (j + 1)) 0)).all c.landed.contains := by
  rw [Bool.eq_iff_iff]
  simp only [remaining, startedUpTo, if_true, List.isEmpty_iff, List.filter_eq_nil_iff, List.all_eq_true, Bool.not_eq_true',
    Bool.not_eq_false]

theorem cancelCopy_copies (s : State) (c : Copy) : (cancelCopy s c).copies = s.copies.filterMap (afterOne c) := by
  have hdrop (t : State) : (dropCopy t c.id).copies = t.copies.filter fun d => d.id ≠ c.id := by rw [dropCopy_frame]
  unfold cancelCopy
  split
  next hphase =>
    rw [← filter_eq_filterMap_afterOne (by simp [afterCancel, hphase]), ← hdrop, modSquad_copies, loadLost_frame]
  next hphase =>
    have hgone : (dropCopy (modCopy s c.id fun _ => { c with cancelled := true }) c.id).copies =
        s.copies.filter fun d => d.id ≠ c.id := by
      rw [hdrop]
      exact filter_map_same (c := c) (k := { c with cancelled := true }) rfl s.copies
    rw [not_not] at hphase
    dsimp only
    split
    next h92 =>
      split
      next hnone => rw [hgone, filter_eq_filterMap_afterOne (by simp [afterCancel, hphase, h92, hnone])]
      next hnone => exact map_eq_filterMap_afterOne (by simp [afterCancel, hphase, h92, hnone]) s.copies
    next h92 =>
      split
      next h95 => exact map_eq_filterMap_afterOne (by simp [afterCancel, hphase, h95]) s.copies
      next h95 =>
        rw [remaining_cancelled_isEmpty]
        split
        next hall =>
          rw [hgone, filter_eq_filterMap_afterOne]
          rw [afterCancel, if_pos (.inr (by rw [if_neg h92, hall]; simp [h95]))]
        next hall =>
          refine map_eq_filterMap_afterOne ?_ s.copies
          rw [afterCancel, if_neg]
          rw [if_neg h92, Bool.not_eq_true _ |>.mp hall, hphase]
          simp

/-- The squad that waits for the queue to accept a command taken away waits no more. -/
def releasedBy (c : Copy) (j : Nat) (k : Squad) : Squad :=
  if c.phase ≠ .running ∧ c.squad = j ∧ k.wait = some (.accept c.id) then { k with wait := none } else k

theorem cancelCopy_squad (s : State) (c : Copy) (j : Nat) :
    squadOf (cancelCopy s c) j = (squadOf s j).map (releasedBy c j) := by
  have hdrop (t : State) : (dropCopy t c.id).squads = t.squads := by rw [dropCopy_frame]
  unfold cancelCopy
  split
  next hphase =>
    have hlost (j : Nat) : squadOf (loadLost (dropCopy s c.id) c) j = squadOf s j := by
      rw [squadOf, loadLost_frame, squadOf]
      exact congrArg (aget · j) (hdrop s)
    rw [squadOf_modSquad, hlost]
    by_cases hj : c.squad = j
    · rw [if_pos hj]
      congr 1
      funext k
      simp [releasedBy, hphase, hj]
    · rw [if_neg hj]
      have hkeep : releasedBy c j = id := funext fun k => if_neg fun h => hj h.2.1
      rw [hkeep, Option.map_id_fun, id_eq]
  next hphase =>
    have hkeep : releasedBy c j = id := funext fun k => if_neg fun h => hphase h.1
    rw [hkeep, Option.map_id_fun, id_eq]
    dsimp only
    split
    · split
      · rw [squadOf, hdrop]; rfl
      · rfl
    · split
      · rfl
      · split
        · rw [squadOf, hdrop]; rfl
        · rfl

/-- A cancel changes commands, the squads that wait for them, banks and instruction memory. -/
def CancelOnly (s t : State) : Prop :=
  t = { s with copies := t.copies, squads := t.squads, banks := t.banks, imem := t.imem, hist := t.hist, dcache := t.dcache,
               active := t.active }

theorem CancelOnly.trans {s t u : State} (h : CancelOnly s t) (k : CancelOnly t u) : CancelOnly s u := by
  unfold CancelOnly at *
  rw [k, h]

theorem dropCopy_cancelOnly (s : State) (n : Nat) : CancelOnly s (dropCopy s n) := by
  unfold CancelOnly
  rw [dropCopy_frame]

theorem loadLost_cancelOnly (s : State) (c : Copy) : CancelOnly s (loadLost s c) := by
  unfold CancelOnly
  rw [loadLost_frame]

theorem cancelCopy_cancelOnly (s : State) (c : Copy) : CancelOnly s (cancelCopy s c) := by
  have hmod : CancelOnly s (modCopy s c.id fun _ => { c with cancelled := true }) := rfl
  unfold cancelCopy
  split
  · exact ((dropCopy_cancelOnly s c.id).trans (loadLost_cancelOnly _ c)).trans rfl
  · dsimp only
    split
    · split
      · exact hmod.trans (dropCopy_cancelOnly _ _)
      · exact hmod
    · split
      · exact hmod
      · split
        · exact hmod.trans (dropCopy_cancelOnly _ _)
        · exact hmod

/-- Banks and instruction memory change by the loss of a load alone. -/
theorem cancelCopy_banks (s : State) (c : Copy) :
    (cancelCopy s c).banks = if c.phase ≠ .running then (loadLost s c).banks else s.banks := by
  have hdrop (t : State) : (dropCopy t c.id).banks = t.banks := by rw [dropCopy_frame]
  unfold cancelCopy
  split
  · exact loadLost_banks_of (hdrop s) c
  · dsimp only
    split
    · split
      · exact hdrop _
      · rfl
    · split
      · rfl
      · split
        · exact hdrop _
        · rfl

/-- A load that its bank does not know loses nothing. -/
theorem cancelCopy_keeps_banks {s : State} {c : Copy}
    (h : ¬ (c.major = 0x95 ∧ c.phase ≠ .running ∧ c.id ∈ (bankOf s c.core (c.xf % 2 == 1)).loading)) :
    (cancelCopy s c).banks = s.banks ∧ (cancelCopy s c).imem = s.imem := by
  have hdrop (t : State) (hb : t.banks = s.banks) (hi : t.imem = s.imem) :
      (dropCopy t c.id).banks = s.banks ∧ (dropCopy t c.id).imem = s.imem := by
    rw [dropCopy_frame]
    exact ⟨hb, hi⟩
  have hlost (hphase : c.phase ≠ .running) (t : State) (hb : t.banks = s.banks) : loadLost t c = t := by
    unfold loadLost loadBank
    by_cases h95 : c.major = 0x95
    · have hnot : (bankOf t c.core (c.xf % 2 == 1)).loading.contains c.id = false := by
        rw [bankOf, hb, ← bankOf, ← Bool.not_eq_true, List.contains_iff_mem]
        exact fun hin => h ⟨h95, hphase, hin⟩
      rw [if_pos h95]
      dsimp only
      rw [hnot, if_neg Bool.false_ne_true]
    · rw [if_neg h95]
  unfold cancelCopy
  split
  next hphase =>
    obtain ⟨hb, hi⟩ := hdrop s rfl rfl
    rw [hlost hphase _ hb]
    exact ⟨hb, hi⟩
  · dsimp only
    split
    · split
      · exact hdrop _ rfl rfl
      · exact ⟨rfl, rfl⟩
    · split
      · exact ⟨rfl, rfl⟩
      · split
        · exact hdrop _ rfl rfl
        · exact ⟨rfl, rfl⟩

/-! ### A bank whose load is taken away (R42) -/

theorem bankOf_setBank (s : State) (core core' : Nat) (k k' : Bool) (b : Bank) :
    bankOf (setBank s core k b) core' k' = if core = core' ∧ k = k' then b else bankOf s core' k' := by
  have hkey : bankKey core k = bankKey core' k' ↔ core = core' ∧ k = k' := by
    unfold bankKey
    cases k <;> cases k' <;> simp <;> omega
  rw [bankOf, setBank, aget_aput]
  by_cases h : bankKey core k = bankKey core' k'
  · rw [if_pos h, if_pos (hkey.1 h), Option.getD_some]
  · rw [if_neg h, if_neg (hkey.not.1 h), bankOf]

/-- The bank of the lost load: no overlay, and no longer loaded by it. -/
theorem bankOf_unload_clearBank (s : State) (core core' : Nat) (k k' : Bool) (n : Nat) :
    bankOf (unload (clearBank s core k) core k n) core' k' =
      if core = core' ∧ k = k' then
        { bankOf s core k with valid := false, ovlid := 0, ninst := 0, loading := (bankOf s core k).loading.filter (· ≠ n) }
      else bankOf s core' k' := by
  have hput (c : Nat) (j : Bool) (bs : List Byte) (c' : Nat) (j' : Bool) : bankOf (putImem s c j bs) c' j' = bankOf s c' j' := rfl
  simp only [unload, clearBank, bankOf_setBank, hput, and_self, if_true]
  by_cases h : core = core' ∧ k = k'
  · simp only [if_pos h]
  · simp only [if_neg h]

/-- What a cancel of one command makes of a bank. -/
theorem bankOf_cancelCopy (s : State) (c : Copy) (core : Nat) (k : Bool) :
    bankOf (cancelCopy s c) core k =
      if (c.major = 0x95 ∧ c.phase ≠ .running ∧ c.id ∈ (bankOf s c.core (c.xf % 2 == 1)).loading) ∧ c.core = core ∧
          (c.xf % 2 == 1) = k then
        { bankOf s core k with valid := false, ovlid := 0, ninst := 0, loading := (bankOf s core k).loading.filter (· ≠ c.id) }
      else bankOf s core k := by
  by_cases hl : c.major = 0x95 ∧ c.phase ≠ .running ∧ c.id ∈ (bankOf s c.core (c.xf % 2 == 1)).loading
  · obtain ⟨h95, hphase, hin⟩ := hl
    have hlost : loadLost s c = unload (clearBank s c.core (c.xf % 2 == 1)) c.core (c.xf % 2 == 1) c.id := by
      have hin' : (bankOf s c.core (c.xf % 2 == 1)).loading.contains c.id = true := List.contains_iff_mem.2 hin
      unfold loadLost loadBank
      rw [if_pos h95]
      dsimp only
      rw [if_pos hin']
    have hbank : bankOf (cancelCopy s c) core k = bankOf (loadLost s c) core k := by
      rw [bankOf, cancelCopy_banks, if_pos hphase, bankOf]
    rw [hbank, hlost, bankOf_unload_clearBank]
    by_cases hk : c.core = core ∧ (c.xf % 2 == 1) = k
    · obtain ⟨rfl, rfl⟩ := hk
      rw [if_pos ⟨rfl, rfl⟩, if_pos ⟨⟨h95, hphase, hin⟩, rfl, rfl⟩]
    · rw [if_neg hk, if_neg fun h => hk h.2]
  · rw [if_neg fun h => hl h.1, bankOf, (cancelCopy_keeps_banks hl).1, bankOf]

/-! ### What `cpy.cancel` does to all the commands it names -/

/-- What a list of cancels leaves of one command. -/
def afterAll : List Copy → Copy → Option Copy
  | [], d => some d
  | c :: cs, d => if d.id = c.id then afterCancel c else afterAll cs d

theorem afterCancel_id {c k : Copy} (h : afterCancel c = some k) : k.id = c.id := by
  unfold afterCancel at h
  dsimp only at h
  generalize (if c.major = 0x92 then _ else _) = done at h
  split at h
  · cases h
  · cases h
    rfl

theorem afterAll_of_not_mem {cs : List Copy} {d : Copy} (h : d.id ∉ cs.map (·.id)) : afterAll cs d = some d := by
  induction cs with
  | nil => rfl
  | cons c cs ih =>
    rw [List.map_cons, List.mem_cons, not_or] at h
    rw [afterAll, if_neg h.1, ih h.2]

theorem filterMap_afterAll {cs : List Copy} (hcs : (cs.map (·.id)).Nodup) (l : List Copy) :
    cs.foldl (fun l c => l.filterMap (afterOne c)) l = l.filterMap (afterAll cs) := by
  induction cs generalizing l with
  | nil => exact (List.filterMap_some).symm
  | cons c cs ih =>
    obtain ⟨hc, hcs⟩ := List.nodup_cons.1 hcs
    rw [List.foldl_cons, ih hcs, List.filterMap_filterMap]
    refine List.filterMap_congr fun d _ => ?_
    rw [afterAll, afterOne]
    split
    · cases hk : afterCancel c with
      | none => rfl
      | some k =>
        rw [Option.bind_some]
        exact afterAll_of_not_mem (by rw [afterCancel_id hk]; exact hc)
    · rfl

/-- A command among others of other numbers is cancelled when it is named. -/
theorem afterAll_filter {l : List Copy} (hl : (l.map (·.id)).Nodup) (hit : Copy → Bool) {d : Copy} (hd : d ∈ l) :
    afterAll (l.filter hit) d = if hit d then afterCancel d else some d := by
  induction l with
  | nil => cases hd
  | cons c l ih =>
    obtain ⟨hc, hl⟩ := List.nodup_cons.1 hl
    have hsub : ∀ a ∈ (l.filter hit).map (·.id), a ∈ l.map (·.id) := fun a ha => by
      obtain ⟨b, hb, rfl⟩ := List.mem_map.1 ha
      exact List.mem_map_of_mem (List.mem_of_mem_filter hb)
    rcases List.mem_cons.1 hd with rfl | hd
    · rw [List.filter_cons]
      split
      · rw [afterAll, if_pos rfl]
      · exact afterAll_of_not_mem fun h => hc (hsub _ h)
    · have hne : d.id ≠ c.id := fun h => hc (List.mem_map.2 ⟨d, hd, h⟩)
      rw [List.filter_cons]
      split
      · rw [afterAll, if_neg hne, ih hl hd]
      · exact ih hl hd

theorem foldl_cancel_copies (cs : List Copy) (s : State) :
    (cs.foldl cancelCopy s).copies = cs.foldl (fun l c => l.filterMap (afterOne c)) s.copies := by
  induction cs generalizing s with
  | nil => rfl
  | cons c cs ih => rw [List.foldl_cons, ih, cancelCopy_copies, List.foldl_cons]

theorem cancelAll_copies {s : State} (hids : (s.copies.map (·.id)).Nodup) (hit : Copy → Bool) :
    (cancelAll s hit).copies = s.copies.filterMap fun c => if hit c then afterCancel c else some c := by
  have hnodup : ((s.copies.filter hit).map (·.id)).Nodup := hids.sublist (List.filter_sublist.map _)
  rw [cancelAll, foldl_cancel_copies, filterMap_afterAll hnodup]
  exact List.filterMap_congr fun d hd => afterAll_filter hids hit hd

theorem foldl_cancel_only (cs : List Copy) (s : State) : CancelOnly s (cs.foldl cancelCopy s) := by
  induction cs generalizing s with
  | nil => rfl
  | cons c cs ih => exact (cancelCopy_cancelOnly s c).trans (ih _)

theorem foldl_cancel_squad (cs : List Copy) (s : State) (j : Nat) :
    squadOf (cs.foldl cancelCopy s) j = (squadOf s j).map fun k => cs.foldl (fun k c => releasedBy c j k) k := by
  induction cs generalizing s with
  | nil =>
    rw [List.foldl_nil]
    cases squadOf s j <;> rfl
  | cons c cs ih =>
    rw [List.foldl_cons, ih, cancelCopy_squad, Option.map_map]
    rfl

/-- A squad that waits for nothing stands; one that waits for a command among those taken away is released. -/
theorem foldl_releasedBy (cs : List Copy) (j : Nat) (k : Squad) : cs.foldl (fun k c => releasedBy c j k) k =
    if ∃ c ∈ cs, c.phase ≠ .running ∧ c.squad = j ∧ k.wait = some (.accept c.id) then { k with wait := none } else k := by
  induction cs generalizing k with
  | nil => simp
  | cons c cs ih =>
    rw [List.foldl_cons, ih]
    by_cases hc : c.phase ≠ .running ∧ c.squad = j ∧ k.wait = some (.accept c.id)
    · have hstep : releasedBy c j k = { k with wait := none } := if_pos hc
      have hfree : ¬ ∃ d ∈ cs, d.phase ≠ .running ∧ d.squad = j ∧ ({ k with wait := none } : Squad).wait = some (.accept d.id) := by
        rintro ⟨d, -, -, -, hwait⟩
        cases hwait
      rw [hstep, if_neg hfree, if_pos ⟨c, List.mem_cons_self, hc⟩]
    · have hstep : releasedBy c j k = k := if_neg hc
      rw [hstep]
      refine if_congr ?_ rfl rfl
      simp only [List.exists_mem_cons_iff, hc, false_or]

/-- A bank that holds no overlay and is not loaded by a command stays so. -/
theorem cancelCopy_keeps_lost (s : State) (c : Copy) {core : Nat} {k : Bool} {n : Nat}
    (h : (bankOf s core k).valid = false ∧ n ∉ (bankOf s core k).loading) :
    (bankOf (cancelCopy s c) core k).valid = false ∧ n ∉ (bankOf (cancelCopy s c) core k).loading := by
  rw [bankOf_cancelCopy]
  split
  · exact ⟨rfl, fun hn => h.2 (List.mem_of_mem_filter hn)⟩
  · exact h

theorem foldl_cancel_keeps_lost (cs : List Copy) (s : State) {core : Nat} {k : Bool} {n : Nat}
    (h : (bankOf s core k).valid = false ∧ n ∉ (bankOf s core k).loading) :
    (bankOf (cs.foldl cancelCopy s) core k).valid = false ∧ n ∉ (bankOf (cs.foldl cancelCopy s) core k).loading := by
  induction cs generalizing s with
  | nil => exact h
  | cons c cs ih => exact ih _ (cancelCopy_keeps_lost s c h)

/-- A load that has not started is lost with its command. -/
theorem foldl_cancel_lost {cs : List Copy} (hcs : (cs.map (·.id)).Nodup) {s : State} {c : Copy} (hc : c ∈ cs)
    (h95 : c.major = 0x95) (hphase : c.phase ≠ .running) (hin : c.id ∈ (bankOf s c.core (c.xf % 2 == 1)).loading) :
    (bankOf (cs.foldl cancelCopy s) c.core (c.xf % 2 == 1)).valid = false ∧
      c.id ∉ (bankOf (cs.foldl cancelCopy s) c.core (c.xf % 2 == 1)).loading := by
  induction cs generalizing s with
  | nil => cases hc
  | cons d cs ih =>
    obtain ⟨hd, hcs⟩ := List.nodup_cons.1 hcs
    rw [List.foldl_cons]
    rcases List.mem_cons.1 hc with rfl | hc
    · refine foldl_cancel_keeps_lost cs _ ?_
      rw [bankOf_cancelCopy, if_pos ⟨⟨h95, hphase, hin⟩, rfl, rfl⟩]
      exact ⟨rfl, fun hn => by simpa using List.of_mem_filter hn⟩
    · refine ih hcs hc ?_
      have hne : c.id ≠ d.id := fun h => hd (List.mem_map.2 ⟨c, hc, h⟩)
      rw [bankOf_cancelCopy]
      split
      · exact List.mem_filter.2 ⟨hin, by simpa using hne⟩
      · exact hin

theorem foldl_cancel_keeps_banks (cs : List Copy) (s : State)
    (h : ∀ c ∈ cs, ¬ (c.major = 0x95 ∧ c.phase ≠ .running ∧ c.id ∈ (bankOf s c.core (c.xf % 2 == 1)).loading)) :
    (cs.foldl cancelCopy s).banks = s.banks ∧ (cs.foldl cancelCopy s).imem = s.imem := by
  induction cs generalizing s with
  | nil => exact ⟨rfl, rfl⟩
  | cons c cs ih =>
    obtain ⟨hc, hcs⟩ := List.forall_mem_cons.1 h
    obtain ⟨hb, hi⟩ := cancelCopy_keeps_banks hc
    obtain ⟨hb', hi'⟩ := ih (cancelCopy s c) fun d hd => by
      rw [bankOf, hb, ← bankOf]
      exact hcs d hd
    exact ⟨hb'.trans hb, hi'.trans hi⟩

/-! ### `cpy.stat` and `cpy.cancel` -/

/-- CPY.STAT writes one s-register, from the lowest active thread. -/
theorem cpyStat_owes {s : State} {id : Nat} {q : Squad} {p : Path} {h : Hdr} (sd : Nat) (b : Opnd) (hI : Issues s id q p h 1)
    (hact : runs p h q ≠ 0) :
    Owes (.cpyStat h sd b) s id q p h OnlySquads fun q' =>
      GetsS sd q q' (BitVec.ofNat 64
        (min (((s.copies.filter (countsAt (seen id q p h) (rdScal q b))).map (uncounted (issued s id q p h 1 (.once 1)))).sum) (2 ^ 32 - 1) +
          (s.copies.filter (countsAt (seen id q p h) (rdScal q b))).length % 65536 * 2 ^ 32)) ∧
      SameRegs { q with s := q'.s } q' := by
  obtain ⟨-, -, -, heq, -⟩ := issued_squad s id q p h 1 (.once 1) hI
  have hcopies : (issued s id q p h 1 (.once 1)).copies = s.copies := by rw [heq]
  have hact' : (seen id q p h).act ≠ 0 := hact
  generalize hv : BitVec.ofNat 64
    (min (((s.copies.filter (countsAt (seen id q p h) (rdScal q b))).map (uncounted (issued s id q p h 1 (.once 1)))).sum) (2 ^ 32 - 1) +
      (s.copies.filter (countsAt (seen id q p h) (rdScal q b))).length % 65536 * 2 ^ 32) = v
  obtain ⟨t, q', ht, hwent, hsame, hregs, hlen, hland, hteq⟩ := later_done (occ := .once 1)
    (body := fun x s => if x.act = 0 then .ok s else
      let cs := s.copies.filter (countsAt x (rdScal x.q b))
      let n := min ((cs.map (uncounted s)).foldl (· + ·) 0) (2 ^ 32 - 1)
      .ok (putLater s x [.s sd (BitVec.ofNat 64 (n + cs.length % 65536 * 2 ^ 32))]))
    (t := issued s id q p h 1 (.once 1)) (ws := [.s sd v]) (w := none) hI
    (by
      rw [if_neg hact', ← hv, ← hcopies, List.sum_eq_foldl]
      rfl) rfl
  obtain ⟨gv, gs, gp, gb, gvi, gim, gflg⟩ := hland
  refine ⟨t, q', (exec_cpyStat h sd b s).trans ht, hwent, ?_, hsame, hregs, ?_, fun r => ?_, gv, rfl, gp, gb, gvi, gim, gflg⟩
  · unfold OnlySquads
    rw [hteq, heq]
  · rw [hlen, if_neg (by simp), if_neg hact]
  · rw [rdS, gs]
    show tget 0 (tset 0 q.s sd v) r = _
    rw [tget_tset, rdS]
    simp only [eq_comm]

theorem cancelAll_eq (s : State) (hit : Copy → Bool) : cancelAll s hit = (s.copies.filter hit).foldl cancelCopy s := rfl

theorem cancelAll_only (s : State) (hit : Copy → Bool) : CancelOnly s (cancelAll s hit) := foldl_cancel_only _ s

theorem cancelAll_squad (s : State) (hit : Copy → Bool) (j : Nat) : squadOf (cancelAll s hit) j = (squadOf s j).map fun k =>
    if ∃ c ∈ s.copies, hit c = true ∧ c.phase ≠ .running ∧ c.squad = j ∧ k.wait = some (.accept c.id) then { k with wait := none }
    else k := by
  rw [cancelAll_eq, foldl_cancel_squad]
  congr 1
  funext k
  rw [foldl_releasedBy]
  simp only [List.mem_filter, and_assoc]

/-- The banks after a cancel: those whose loads are taken away hold no overlay, and without such a load they stand. -/
theorem cancelAll_banks {s : State} (hids : (s.copies.map (·.id)).Nodup) (hit : Copy → Bool) :
    let lost (c : Copy) : Prop := c ∈ s.copies ∧ hit c = true ∧ c.major = 0x95 ∧ c.phase ≠ .running ∧
      c.id ∈ (bankOf s c.core (c.xf % 2 == 1)).loading
    (∀ c, lost c → (bankOf (cancelAll s hit) c.core (c.xf % 2 == 1)).valid = false ∧
      c.id ∉ (bankOf (cancelAll s hit) c.core (c.xf % 2 == 1)).loading) ∧
    ((¬ ∃ c, lost c) → (cancelAll s hit).banks = s.banks ∧ (cancelAll s hit).imem = s.imem) := by
  refine ⟨?_, fun hnone => ?_⟩
  · rintro c ⟨hc, hhit, h95, hphase, hin⟩
    exact foldl_cancel_lost (hids.sublist (List.filter_sublist.map _)) (List.mem_filter.2 ⟨hc, hhit⟩) h95 hphase hin
  · refine foldl_cancel_keeps_banks _ s fun c hc hbad => hnone ⟨c, ?_⟩
    obtain ⟨hc, hhit⟩ := List.mem_filter.1 hc
    exact ⟨hc, hhit, hbad⟩

theorem copyStatusAndCancelRule : CopyStatusAndCancelRule := by
  intro h b s id q p hI hact s1 word r name hit
  have hhit : hit = countsAt (seen id q p h) word := rfl
  refine ⟨fun sd => hhit ▸ cpyStat_owes sd b hI hact, fun hids => ?_⟩
  have hact' : (seen id q p h).act ≠ 0 := hact
  obtain ⟨q1, hq1, hothers, heq, hq1eq⟩ := issued_squad s id q p h 1 (.once 1) hI
  have hcopies : (issued s id q p h 1 (.once 1)).copies = s.copies := by rw [heq]
  have hbanks : (issued s id q p h 1 (.once 1)).banks = s.banks := by rw [heq]
  have himem : (issued s id q p h 1 (.once 1)).imem = s.imem := by rw [heq]
  have hids' : ((issued s id q p h 1 (.once 1)).copies.map (·.id)).Nodup := hcopies ▸ hids
  have hwait : q1.wait = none := by rw [hq1eq]; exact hI.idle
  have hbank (core : Nat) (k : Bool) : bankOf (issued s id q p h 1 (.once 1)) core k = bankOf s core k := bankOf_issued hI core k
  obtain ⟨hlost, hkept⟩ := cancelAll_banks hids' hit
  have hsquad := cancelAll_squad (issued s id q p h 1 (.once 1)) hit
  have hcancelled := cancelAll_copies hids' hit
  have honly := cancelAll_only (issued s id q p h 1 (.once 1)) hit
  have hexec : exec (.cpyCancel h b) s = .next (modSquad (cancelAll (issued s id q p h 1 (.once 1)) hit) id fun q =>
      { advance p.entry q with wait := none, settling := q.settling || h.s, select := none }) := by
    rw [exec_cpyCancel, execCpyCancel, issue_eq s id q p h 1 (.once 1) _ hI, if_neg hact']
    rfl
  simp only [hcopies, hbank, hbanks, himem] at hlost hkept hcancelled hsquad
  generalize cancelAll (issued s id q p h 1 (.once 1)) hit = u at *
  have hself : squadOf u id = some q1 := by
    rw [hsquad, hq1, Option.map_some, if_neg]
    rintro ⟨c, -, -, -, -, hw⟩
    rw [hwait] at hw
    cases hw
  refine ⟨_, _, hexec, squadOf_modSquad_some _ hself, rfl, ?_, ?_, ?_, ?_, hcancelled, ⟨hlost, hkept⟩, fun j k hj hk => ?_⟩
  · have hpaths : q1.paths = q.paths := by rw [hq1eq]
    simp only [advance, modPath, hpaths]
  · unfold SameSquad
    rw [hq1eq]
    rfl
  · rw [hq1eq]
    exact ⟨rfl, rfl, rfl, rfl, rfl, rfl, rfl⟩
  · unfold OnlyAnd
    unfold CancelOnly at honly
    rw [honly, heq]
    rfl
  · rw [squadOf_modSquad_ne _ _ hj, hsquad, hothers j hj, hk, Option.map_some]

/-- Settles O41: a submission by the branches of its checks, the checks row by row, a cancel command by command. -/
theorem copyCommands : Obligations.CopyCommands :=
  ⟨copyCommandsQueueRule, copyChecksRule, copyStatusAndCancelRule⟩

end Sys2Proof.Machine

end

section

namespace Sys2Proof.Machine

/-! ### What leaves the budgets alone

One lemma for each operation of the state that an instruction's meaning is built from. -/

@[simp] theorem wrByte_budgets (s : State) (sp : Space) (a : Nat) (x : Byte) : (wrByte s sp a x).budgets = s.budgets := by
  cases sp <;> rfl

@[simp] theorem wrTag_budgets (s : State) (sp : Space) (b : Nat) (x : W16) : (wrTag s sp b x).budgets = s.budgets := by
  cases sp <;> rfl

@[simp] theorem wrBytes_budgets (s : State) (sp : Space) (a : Nat) (bs : List Byte) :
    (wrBytes s sp a bs).budgets = s.budgets := by
  induction bs generalizing s a with
  | nil => rfl
  | cons b bs ih => rw [wrBytes, ih, wrByte_budgets]

@[simp] theorem wrN_budgets (s : State) (sp : Space) (a n x : Nat) : (wrN s sp a n x).budgets = s.budgets :=
  wrBytes_budgets s sp a _

@[simp] theorem logEvs_budgets (s : State) (es : List HEv) : (logEvs s es).budgets = s.budgets := by
  induction es generalizing s with
  | nil => rfl
  | cons e es ih => exact ih (logEv s e)

@[simp] theorem logRel_budgets (s : State) (x : Iss) (m : Nat) (sc : Scope) (k : HKey) :
    (logRel s x m sc k).budgets = s.budgets := logEvs_budgets s _
@[simp] theorem logAcq_budgets (s : State) (x : Iss) (m : Nat) (sc : Scope) (ks : List HKey) :
    (logAcq s x m sc ks).budgets = s.budgets := logEvs_budgets s _
@[simp] theorem logCmd_budgets (s : State) (x : Iss) (c : Nat) : (logCmd s x c).budgets = s.budgets := logEvs_budgets s _
@[simp] theorem logWalks_budgets (s : State) (x : Iss) (r : Rec) (ws : List (Nat × Walk)) :
    (logWalks s x r ws).budgets = s.budgets := logEvs_budgets s _
@[simp] theorem logEpoch_budgets (s : State) (x : Iss) (e : Nat) : (logEpoch s x e).budgets = s.budgets := logRel_budgets s x _ _ _

@[simp] theorem sawDone_budgets (s : State) (x : Iss) (n : Nat) : (sawDone s x n).budgets = s.budgets := by
  unfold sawDone
  split
  · exact logAcq_budgets s x _ _ _
  · rfl

@[simp] theorem pushFeedback_budgets (s : State) (c : Nat) (es : List Feedback) : (pushFeedback s c es).budgets = s.budgets := by
  unfold pushFeedback
  split <;> rfl

@[simp] theorem putFixed_budgets (s : State) (x : Iss) (ws : List RegW) : (putFixed s x ws).budgets = s.budgets := rfl

@[simp] theorem putLater_budgets (s : State) (x : Iss) (ws : List RegW) (w : Option Nat) :
    (putLater s x ws w).budgets = s.budgets := by
  unfold putLater
  split <;> rfl

@[simp] theorem setPpri_budgets (s : State) (x : Iss) (n : Nat) : (setPpri s x n).budgets = s.budgets := rfl
@[simp] theorem blockCycles_budgets (s : State) (x : Iss) : (blockCycles s x).budgets = s.budgets := rfl

@[simp] theorem putBit_budgets (s : State) (sp : Space) (a b : Nat) (v : Bool) : (putBit s sp a b v).budgets = s.budgets :=
  wrByte_budgets s sp a _
@[simp] theorem rmapOne_budgets (s : State) (w : Who) (sp : Space) (a b : Nat) (v : Bool) :
    (rmapOne s w sp a b v).budgets = s.budgets := putBit_budgets s sp a b v

@[simp] theorem cachePage_budgets (s : State) (c va : Nat) : (cachePage s c va).budgets = s.budgets := by
  unfold cachePage
  split
  · split <;> rfl
  · rfl

/-- A fold of operations that leave the budgets alone. -/
theorem foldl_budgets {α : Type} (l : List α) (f : State → α → State) (hf : ∀ s a, (f s a).budgets = s.budgets) (s : State) :
    (l.foldl f s).budgets = s.budgets := by
  induction l generalizing s with
  | nil => rfl
  | cons a l ih => rw [List.foldl_cons, ih, hf]

@[simp] theorem cacheAll_budgets (s : State) (x : Iss) (r : Rec) (ts : List Tgt) : (cacheAll s x r ts).budgets = s.budgets := by
  unfold cacheAll
  split
  · rfl
  · exact foldl_budgets _ _ (fun s _ => cachePage_budgets s _ _) s

@[simp] theorem storeOne_budgets (x : Iss) (p : APath) (rel : Option Scope) (n v : Nat) (s : State) (g : Tgt) :
    (storeOne x p rel n v s g).budgets = s.budgets := wrN_budgets s _ _ _ _

@[simp] theorem atomOne_budgets (x : Iss) (so : AtomOrd) (n : Nat) (f : Rmw) (s : State) (g : Tgt) :
    (atomOne x so n f s g).budgets = s.budgets := by
  unfold atomOne
  dsimp only
  split
  · exact wrN_budgets s _ _ _ _
  · rfl

@[simp] theorem atomAll_budgets (x : Iss) (so : AtomOrd) (n : Nat) (f : Rmw) (done : List (Nat × Nat)) (ts : List Tgt)
    (s : State) : (atomAll x so n f done ts s).1.budgets = s.budgets := by
  induction ts generalizing s with
  | nil => rfl
  | cons g ts ih =>
    rw [atomAll]
    dsimp only
    rw [ih]
    split
    · rfl
    · split
      · rfl
      · exact atomOne_budgets x so n f s g

@[simp] theorem devWrite_budgets (s : State) (c va : Nat) (bs : List Byte) : (devWrite s c va bs).budgets = s.budgets := by
  induction bs generalizing s va with
  | nil => rfl
  | cons b bs ih =>
    rw [devWrite, ih]
    split
    · exact wrByte_budgets s _ _ _
    · rfl

@[simp] theorem devWriteN_budgets (s : State) (c va n x : Nat) : (devWriteN s c va n x).budgets = s.budgets :=
  devWrite_budgets s c va _

@[simp] theorem putObj_budgets (s : State) (l : AwLoc) (n w : Nat) : (putObj s l n w).budgets = s.budgets := by
  unfold putObj
  split
  · exact devWriteN_budgets s _ _ _ _
  · exact wrN_budgets s _ _ _ _

@[simp] theorem putBar_budgets (s : State) (l : AwLoc) (w : Nat) : (putBar s l w).budgets = s.budgets := putObj_budgets s l _ w

@[simp] theorem putBarDev_budgets (s : State) (l : AwLoc) (b : BarDev) : (putBarDev s l b).budgets = s.budgets := by
  unfold putBarDev
  split <;> rfl

@[simp] theorem sendArrival_budgets (s : State) (x : Iss) (p : Option Nat) (l : AwLoc) (n : Nat) :
    (sendArrival s x p l n).budgets = s.budgets := by
  unfold sendArrival
  rw [logRel_budgets]

@[simp] theorem putQ_budgets (s : State) (l : AwLoc) (w : Nat) : (putQ s l w).budgets = s.budgets := wrN_budgets s _ _ _ _
@[simp] theorem putQueue_budgets (s : State) (l : AwLoc) (q : QueueDev) : (putQueue s l q).budgets = s.budgets := rfl
@[simp] theorem putLists_budgets (s : State) (l : AwLoc) (x : List Nat × List Nat) : (putLists s l x).budgets = s.budgets := rfl

@[simp] theorem modCopy_budgets (s : State) (id : Nat) (f : Copy → Copy) : (modCopy s id f).budgets = s.budgets := rfl
@[simp] theorem dropCopy_budgets (s : State) (id : Nat) : (dropCopy s id).budgets = s.budgets := by
  unfold dropCopy
  dsimp only
  split <;> rfl
@[simp] theorem setBank_budgets (s : State) (c : Nat) (k : Bool) (b : Bank) : (setBank s c k b).budgets = s.budgets := rfl
@[simp] theorem putImem_budgets (s : State) (c : Nat) (k : Bool) (bs : List Byte) : (putImem s c k bs).budgets = s.budgets := rfl
@[simp] theorem clearBank_budgets (s : State) (c : Nat) (k : Bool) : (clearBank s c k).budgets = s.budgets := rfl
@[simp] theorem unload_budgets (s : State) (c : Nat) (k : Bool) (id : Nat) : (unload s c k id).budgets = s.budgets := rfl
@[simp] theorem loadLost_budgets (s : State) (c : Copy) : (loadLost s c).budgets = s.budgets := by
  unfold loadLost
  split
  · split <;> rfl
  · rfl
@[simp] theorem cancelCopy_budgets (s : State) (c : Copy) : (cancelCopy s c).budgets = s.budgets := by
  unfold cancelCopy
  split
  · simp
  · dsimp only
    split
    · split <;> simp
    · split
      · rfl
      · split <;> simp
@[simp] theorem cancelAll_budgets (s : State) (p : Copy → Bool) : (cancelAll s p).budgets = s.budgets :=
  foldl_budgets _ _ cancelCopy_budgets s
@[simp] theorem fireTrigger_budgets (s : State) (c : Copy) : (fireTrigger s c).budgets = s.budgets := by
  unfold fireTrigger
  split <;> rfl

@[simp] theorem setExt_budgets (s : State) (c k : Nat) (e : Nat × Nat) : (setExt s c k e).budgets = s.budgets := rfl
@[simp] theorem resetSide_budgets (s : State) (c k : Nat) : (resetSide s c k).budgets = s.budgets := rfl
@[simp] theorem claimNames_budgets (s : State) (q : Squad) (ns : List Nat) : (claimNames s q ns).budgets = s.budgets := by
  refine (?_ : (List.foldl _ s ns).budgets = s.budgets)
  refine foldl_budgets _ _ ?_ s
  intro _ _
  rfl
@[simp] theorem setInbox_budgets (s : State) (c : Nat) (l : List MCmd) : (setInbox s c l).budgets = s.budgets := rfl
@[simp] theorem addBin_budgets (s : State) (t k n : Nat) : (addBin s t k n).budgets = s.budgets := rfl
@[simp] theorem modChannel_budgets (s : State) (ch : Nat) (f : Channel → Channel) : (modChannel s ch f).budgets = s.budgets := rfl

@[simp] theorem zRun_budgets (ge w : Bool) (core task : Nat) (who : Nat → Who) (js : List ZJob) (s : State) :
    (zRun ge w core task who js s).1.budgets = s.budgets := by
  induction js generalizing s with
  | nil => rfl
  | cons g js ih =>
    rw [zRun]
    dsimp only
    rw [ih]
    split
    · exact wrN_budgets _ _ _ _ _
    · rfl

@[simp] theorem setNodeState_budgets (s : State) (id st : Nat) : (setNodeState s id st).budgets = s.budgets := by
  unfold setNodeState
  split
  · rfl
  · simp

@[simp] theorem makeReady_budgets (s : State) (id : Nat) : (makeReady s id).budgets = s.budgets := by
  unfold makeReady
  split
  · rfl
  · dsimp only
    split
    · rfl
    · simp

@[simp] theorem decPreds_budgets (s : State) (c va : Nat) : (decPreds s c va).budgets = s.budgets := by
  unfold decPreds
  dsimp only
  split
  · rfl
  · split
    · split <;> simp
    · simp

@[simp] theorem addNodes_budgets (c g dflt : Nat) (sp : Option Nat) (vas : List Nat) (s : State) :
    (addNodes c g dflt sp vas s).budgets = s.budgets := by
  induction vas generalizing s with
  | nil => rfl
  | cons va vas ih =>
    rw [addNodes, ih, setNodeState_budgets]

theorem submitGraph_budgets {s t : State} {c g gid desc : Nat} {priv : Bool} {sp : Option Nat}
    (h : submitGraph s c priv sp desc = .ok (t, g, gid)) : t.budgets = s.budgets := by
  unfold submitGraph at h
  split at h
  · cases h
  · dsimp only at h
    split at h
    · cases h
    · cases h
      rw [foldl_budgets]
      · exact addNodes_budgets _ _ _ _ _ _
      · intro s id
        split <;> simp

@[simp] theorem spawnGraph_budgets (s : State) (x : Iss) (va : Nat) : (spawnGraph s x va).1.budgets = s.budgets := by
  unfold spawnGraph
  dsimp only
  split
  · rfl
  · split
    · simp
    next h => simpa using submitGraph_budgets h

@[simp] theorem askPreempt_budgets (s : State) (t : Nat) (m : Option Nat) : (askPreempt s t m).budgets = s.budgets := rfl
@[simp] theorem requestKill_budgets (s : State) (t : Nat) (r : FaultRec) : (requestKill s t r).budgets = s.budgets := rfl
@[simp] theorem keepXl_budgets (q : Squad) (va : Nat) (p : Space × Nat) (s : State) : (keepXl q va p s).budgets = s.budgets :=
  cachePage_budgets s _ _
@[simp] theorem fillDc_budgets (q : Squad) (va : Nat) (p : Space × Nat) (s : State) : (fillDc q va p s).budgets = s.budgets := by
  unfold fillDc
  dsimp only
  split <;> simp
@[simp] theorem backDc_budgets (q : Squad) (va : Nat) (p : Space × Nat) (s : State) : (backDc q va p s).budgets = s.budgets := by
  unfold backDc
  split <;> rfl
@[simp] theorem dropDc_budgets (q : Squad) (va : Nat) (p : Space × Nat) (s : State) : (dropDc q va p s).budgets = s.budgets := by
  unfold dropDc
  dsimp only
  split <;> simp

/-! ### What leaves the amounts of the budgets alone -/

/-- Every budget holds what it held; who waits for units may have changed. -/
def SameAmounts (s t : State) : Prop := ∀ d c, amounts (budgetOf t d c) = amounts (budgetOf s d c)

theorem SameAmounts.rfl' (s : State) : SameAmounts s s := fun _ _ => rfl

theorem SameAmounts.trans {s t u : State} (h : SameAmounts s t) (k : SameAmounts t u) : SameAmounts s u :=
  fun d c => (k d c).trans (h d c)

theorem sameAmounts_of_budgets {s t : State} (h : t.budgets = s.budgets) : SameAmounts s t := fun d c => by
  rw [budgetOf, h, budgetOf]

/-- A budget with its amounts is set in its place. -/
theorem sameAmounts_setBudget (s : State) (d c : Nat) (b : Budget) (hb : amounts b = amounts (budgetOf s d c)) :
    SameAmounts s (setBudget s d c b) := by
  intro d' c'
  rw [budgetOf, setBudget_budgets, aget_aput]
  by_cases hk : budKey d c = budKey d' c'
  · have hsame : budgetOf s d' c' = budgetOf s d c := by rw [budgetOf, ← hk, budgetOf]
    rw [if_pos hk, Option.getD_some, hb, hsame]
  · rw [if_neg hk, budgetOf]

theorem joinList_amounts (s : State) (id : Nat) (q : Squad) (u : Nat) (b : Bool) : SameAmounts s (joinList s id q u b) := by
  unfold joinList
  dsimp only
  split
  · exact .rfl' s
  · refine sameAmounts_setBudget s _ _ _ ?_
    split <;> rfl

theorem leaveLists_amounts (s : State) (id : Nat) (q : Squad) : SameAmounts s (leaveLists s id q) := by
  unfold leaveLists
  dsimp only
  split
  · exact sameAmounts_setBudget s _ _ _ rfl
  · exact .rfl' s

theorem unlist_amounts (s : State) (id : Nat) (q : Squad) : SameAmounts s (unlist s id q) :=
  (leaveLists_amounts s id q).trans (sameAmounts_of_budgets rfl)

theorem endSquad_amounts (s : State) (id : Nat) : SameAmounts s (endSquad s id) := by
  unfold endSquad
  split
  · exact .rfl' s
  · exact (unlist_amounts s id _).trans (sameAmounts_of_budgets rfl)

theorem endSquads_amounts (s : State) (task : Nat) : SameAmounts s (endSquads s task) := by
  unfold endSquads
  generalize ((taskOf s task).map (·.squads)).getD [] = ids
  induction ids generalizing s with
  | nil => exact .rfl' s
  | cons id ids ih => exact (endSquad_amounts s id).trans (ih (endSquad s id))

theorem setPaths_amounts (s : State) (x : Iss) (f : Squad → Squad) : SameAmounts s (setPaths s x f) := by
  have hmod : SameAmounts s (modSquad s x.id f) := sameAmounts_of_budgets rfl
  unfold setPaths
  dsimp only
  split
  · split
    · exact hmod.trans (endSquad_amounts _ _)
    · exact hmod
  · exact .rfl' s

@[simp] theorem pushEvent_budgets (s : State) (c kind code sub va addr : Nat) :
    (pushEvent s c kind code sub va addr).2.budgets = s.budgets := rfl

theorem takeFault_amounts (s : State) (id : Nat) (q : Squad) (p : Path) (f : FaultInfo) : SameAmounts s (takeFault s id q p f) := by
  have hu := unlist_amounts s id q
  unfold takeFault
  generalize unlist s id q = u at hu
  dsimp only
  refine hu.trans (sameAmounts_of_budgets ?_)
  split
  · rfl
  · split
    · rfl
    · split
      · rfl
      · split <;> rfl

theorem raiseFault_amounts (s : State) (id : Nat) (f : FaultInfo) : SameAmounts s (raiseFault s id f) := by
  unfold raiseFault
  split
  · exact .rfl' s
  · split
    · exact .rfl' s
    · split
      · split
        · exact takeFault_amounts s id _ _ f
        · exact .rfl' s
      · exact sameAmounts_of_budgets rfl

end Sys2Proof.Machine

end

section

namespace Sys2Proof.Machine

/-! ### The codes of the instruction faults

No meaning but that of an atomic raises ILL (code 1). -/

@[simp] theorem mkFault_code (c n : Nat) (act : Mask) (p : Path) : (mkFault c n act p).code = c := rfl
@[simp] theorem faultOf_code (e : Err) (ts : List (Nat × Nat)) : (faultOf e ts).code = e.1 := rfl
@[simp] theorem eACCESS_fst (n : Nat) : (eACCESS n).1 = 7 := rfl
@[simp] theorem eXLATE_fst (n : Nat) : (eXLATE n).1 = 6 := rfl
@[simp] theorem eSTACK_fst (n : Nat) : (eSTACK n).1 = 0x12 := rfl

theorem placeRec_code_ne {s : State} {q : Squad} {r : Rec} {core : Nat} {fwd : Bool} {va n : Nat} {wr : Bool} {e : Err}
    (h : placeRec s q r core fwd va n wr = .error e) : e.1 ≠ 1 := by
  rcases placeRec_code h with h5 | h6 | h7 <;> omega

theorem translate_code_ne {s : State} {ctx va : Nat} {wr : Bool} {e : Err} (h : translate s ctx va wr = .error e) : e.1 ≠ 1 := by
  rcases translate_code h with h6 | h7 <;> omega

theorem recCheck_code {r : Rec} {kinds spaces : List Nat} {e : Err} (h : recCheck r kinds spaces = some e) : e.1 ≠ 1 := by
  unfold recCheck at h
  split at h
  · cases h; decide
  · split at h
    · cases h; decide
    · split at h
      · cases h; decide
      · cases h

/-- A fold that keeps what it has or takes the next member ends with a member. -/
theorem foldl_choose_mem {α : Type} {step : Option α → α → Option α} (hstep : ∀ b a c, step b a = some c → c = a ∨ b = some c)
    (l : List α) (b : Option α) {c : α} (h : l.foldl step b = some c) : c ∈ l ∨ b = some c := by
  induction l generalizing b with
  | nil => exact .inr h
  | cons a l ih =>
    rcases ih _ h with hmem | hb
    · exact .inl (List.mem_cons_of_mem a hmem)
    · rcases hstep b a c hb with rfl | hb
      · exact .inl List.mem_cons_self
      · exact .inr hb

theorem lineFault_code {errs : List (Nat × Nat × Err)} (herrs : ∀ e ∈ errs, e.2.2.1 ≠ 1) {f : FaultInfo}
    (h : lineFault errs = some f) : f.code ≠ 1 := by
  unfold lineFault at h
  split at h
  · cases h
  next c hc =>
    cases h
    refine herrs c ((foldl_choose_mem (fun b a c hb => ?_) errs none hc).resolve_right nofun)
    split at hb
    · cases hb
      exact .inl rfl
    · split at hb
      · cases hb
        exact .inl rfl
      · exact .inr hb

theorem plan_code {s : State} {x : Iss} {r : Rec} {w : Want} {addr : Nat → Nat × Bool} {f : FaultInfo}
    (h : plan s x r w addr = .error f) : f.code ≠ 1 := by
  unfold plan at h
  split at h
  next hcheck =>
    cases h
    exact recCheck_code hcheck
  · split at h
    · cases h; simp
    · dsimp only at h
      split at h
      · cases h; simp
      · split at h
        · cases h; simp
        · split at h
          · cases h; simp
          · split at h
            next hline =>
              cases h
              refine lineFault_code (fun e he => ?_) hline
              obtain ⟨a, hmem, ha⟩ := List.mem_filterMap.1 he
              obtain ⟨b, -, rfl⟩ := List.mem_map.1 hmem
              dsimp only at ha
              split at ha
              next hplace =>
                cases ha
                exact placeRec_code_ne hplace
              · cases ha
            · cases h

theorem poisonFault_code {s : State} {ts : List Tgt} {n : Nat} {f : FaultInfo} (h : poisonFault s ts n = some f) : f.code ≠ 1 := by
  unfold poisonFault at h
  dsimp only at h
  split at h
  · cases h
  · cases h
    simp

theorem locate_code {s : State} {x : Iss} {r : Rec} {n : Nat} {spaces : List Nat} {needWr wr fwd : Bool} {f : FaultInfo}
    (h : locate s x r n spaces needWr wr fwd = .error f) : f.code ≠ 1 := by
  unfold locate at h
  dsimp only at h
  split at h
  next hcheck =>
    cases h
    exact recCheck_code hcheck
  · split at h
    · cases h; simp
    · split at h
      · cases h; simp
      · split at h
        · cases h; simp
        · split at h
          · cases h
          next hplace =>
            cases h
            exact placeRec_code_ne hplace

theorem locateQ_code {s : State} {x : Iss} {ba : Nat} {fwd : Bool} {f : FaultInfo} (h : locateQ s x ba fwd = .error f) :
    f.code ≠ 1 := locate_code h

theorem sysRecord_code {s : State} {x : Iss} {r : Rec} {n al : Nat} {wr : Bool} {f : FaultInfo}
    (h : sysRecord s x r n al wr = .error f) : f.code ≠ 1 := by
  unfold sysRecord at h
  dsimp only at h
  split at h
  next hcheck =>
    cases h
    exact recCheck_code hcheck
  · split at h
    · cases h; simp
    · split at h
      · cases h; simp
      · split at h
        · cases h
        next hplace =>
          cases h
          exact placeRec_code_ne hplace
        next hplace _ =>
          cases h
          exact placeRec_code_ne hplace

theorem orElse_code {a b : Option FaultInfo} (ha : ∀ f, a = some f → f.code ≠ 1) (hb : ∀ f, b = some f → f.code ≠ 1) :
    ∀ f, (a.orElse fun _ => b) = some f → f.code ≠ 1 := by
  intro f h
  cases a with
  | some c => exact ha f h
  | none => exact hb f h

/-- One check of a record, whose fault has another code. -/
theorem check_code {c : Bool} {f g : FaultInfo} (hg : g.code ≠ 1) (h : (if c then some g else none) = some f) : f.code ≠ 1 := by
  split at h
  · cases h
    exact hg
  · cases h

theorem findSome_code {α : Type} {l : List α} {k : α → Option FaultInfo} (hk : ∀ a f, k a = some f → f.code ≠ 1) :
    ∀ f, l.findSome? k = some f → f.code ≠ 1 := by
  intro f h
  obtain ⟨a, -, ha⟩ := List.exists_of_findSome?_eq_some h
  exact hk a f ha

theorem lfFault_code {s : State} {x : Iss} {ns : List LfNeed} {badWord badTile : Bool} {f : FaultInfo}
    (h : lfFault s x ns badWord badTile = some f) : f.code ≠ 1 := by
  revert h
  unfold lfFault
  dsimp only
  refine orElse_code (findSome_code fun _ _ => check_code (by simp)) ?_ f
  refine orElse_code (findSome_code fun n f h => ?_) ?_
  · obtain ⟨e, he, hf⟩ := Option.bind_eq_some_iff.1 h
    cases hf
    exact recCheck_code he
  refine orElse_code (fun f => check_code (by simp)) ?_
  refine orElse_code (fun f => check_code (by simp)) ?_
  refine orElse_code (findSome_code fun _ _ => check_code (by simp)) ?_
  refine orElse_code (findSome_code fun _ _ => check_code (by simp)) ?_
  refine orElse_code (findSome_code fun _ _ => check_code (by simp)) ?_
  exact findSome_code fun _ _ => check_code (by simp)

theorem posFault_code {s : State} {x : Iss} {k vb : Nat} {f : FaultInfo} (h : posFault s x k vb = some f) : f.code ≠ 1 := by
  unfold posFault at h
  dsimp only at h
  split at h
  · cases h; simp
  · split at h
    · cases h; simp
    · split at h
      · cases h; simp
      · cases h

theorem xferErr_code {s : State} {x : Iss} {r : Rec} {wr : Bool} {size : Nat} {bad : Bool} {e : Err}
    (h : xferErr s x r wr size bad = some e) : e.1 ≠ 1 :=
  firstErr_forall (P := fun e => e.1 ≠ 1) (by simp) h

theorem gmvErr_code {s : State} {x : Iss} {d a i : Rec} {w : Nat} {e : Err} (h : gmvErr s x d a i w = some e) : e.1 ≠ 1 :=
  firstErr_forall (P := fun e => e.1 ≠ 1) (by simp) h

theorem presentErr_code {s : State} {x : Iss} {sb : Nat} {img : Option Rec} {e : Err} (h : presentErr s x sb img = some e) :
    e.1 ≠ 1 := by
  refine firstErr_forall (P := fun e => e.1 ≠ 1) ?_ h
  cases img <;> simp

theorem dxunpkErr_code {w : DxWidth} {code : Nat} {e : Err} (h : dxunpkErr w code = some e) : e.1 ≠ 1 := by
  unfold dxunpkErr at h
  split at h
  · cases h; decide
  · split at h
    · cases h; decide
    · split at h
      · cases h; decide
      · split at h
        · cases h; decide
        · cases h

theorem frameRows_code {core : Nat} {repro : Bool} {tile other : Rec} {w c : Nat} {views : Nat} {x : Iss} {n : Nat} {e : Err}
    (h : firstErr (frameRecRows core repro tile other w c views ++ awRows x n) = some e) : e.1 ≠ 1 := by
  have hrows : ∀ a ∈ frameRecRows core repro tile other w c views, a.2.1 ≠ 1 := by
    simp [frameRecRows]
  refine firstErr_forall (P := fun e => e.1 ≠ 1) (fun a ha => ?_) h
  exact (List.mem_append.1 ha).elim (hrows a) (awRows_code a)

/-! ### The codes of RECSET (R189) -/

/-- The change of a record faults with no ILL. -/
def RecSound (r : RecRes) : Prop := ∀ e, r = .error e → e.1 ≠ 1

theorem recSound_ok (r : Rec) : RecSound (.ok r) := fun _ h => nomatch h

theorem recSound_need {c : Bool} {e : Err} {r : RecRes} (he : e.1 ≠ 1) (hr : RecSound r) : RecSound (recNeed c e r) := by
  unfold recNeed
  split
  · exact hr
  · rintro _ ⟨⟩
    exact he

theorem recSound_shape {r : Rec} {two : Option Bool} {k : RecRes} (hk : RecSound k) : RecSound (recShape r two k) := by
  have herr : RecSound (.error (eACCESS 3)) := by
    rintro _ ⟨⟩
    decide
  unfold recShape
  split
  · exact herr
  · split
    · split
      · exact hk
      · exact herr
    · exact hk

theorem recOff_sound (r : Rec) (n : Nat) : RecSound (recOff r n) := by
  unfold recOff
  dsimp only
  exact recSound_shape (recSound_need (by decide) (recSound_need (by decide) (recSound_ok _)))
theorem recExt0Set_sound (r : Rec) (n : Nat) : RecSound (recExt0Set r n) := recSound_shape (recSound_ok _)
theorem recExt1Set_sound (r : Rec) (n : Nat) : RecSound (recExt1Set r n) := recSound_shape (recSound_ok _)
theorem recRow_sound (r : Rec) (n : Nat) : RecSound (recRow r n) := recSound_shape (recSound_need (by decide) (recSound_ok _))
theorem recShapeSet_sound (r : Rec) (n : Nat) : RecSound (recShapeSet r n) := by
  unfold recShapeSet
  dsimp only
  exact recSound_shape (recSound_need (by decide) (recSound_need (by decide) (recSound_ok _)))
theorem recEsizeSet_sound (r : Rec) (n k : Nat) : RecSound (recEsizeSet r n k) := by
  unfold recEsizeSet
  dsimp only
  exact recSound_shape (recSound_need (by decide) (recSound_ok _))
theorem recBmodeSet_sound (r : Rec) (n : Nat) : RecSound (recBmodeSet r n) := recSound_ok _
theorem recSwzSet_sound (r : Rec) (n : Nat) : RecSound (recSwzSet r n) :=
  recSound_shape (recSound_need (by decide) (recSound_ok _))
theorem recXvSet_sound (r : Rec) (n : Nat) : RecSound (recXvSet r n) := recSound_shape (recSound_ok _)
theorem recRo_sound (r : Rec) : RecSound (recRo r) := recSound_ok _
theorem recTgt_sound (r : Rec) (n : Nat) : RecSound (recTgt r n) :=
  recSound_shape (recSound_need (by decide) (recSound_need (by decide) (recSound_ok _)))
theorem recAliasSet_sound (r : Rec) : RecSound (recAliasSet r) := by
  unfold recAliasSet
  dsimp only
  exact recSound_shape (recSound_need (by decide) (recSound_ok _))

end Sys2Proof.Machine

end

section

namespace Sys2Proof.Machine

/-! ### Answers that spare the budgets -/

/-- The answer leaves every budget, with its lists, and is no ILL. -/
def Res.Spares (s : State) : Res → Prop
  | .ok t | .jump t | .wait t _ | .hold t _ => t.budgets = s.budgets
  | .fault t f => t.budgets = s.budgets ∧ f.code ≠ 1

/-- The answer leaves the amounts of every budget, and is no ILL. -/
def Res.Thrifty (s : State) : Res → Prop
  | .ok t | .jump t | .wait t _ | .hold t _ => SameAmounts s t
  | .fault t f => SameAmounts s t ∧ f.code ≠ 1

theorem Res.Spares.thrifty {s : State} {r : Res} (h : r.Spares s) : r.Thrifty s := by
  cases r with
  | fault t f => exact ⟨sameAmounts_of_budgets h.1, h.2⟩
  | _ => exact sameAmounts_of_budgets h

@[simp] theorem spares_ok (s t : State) : (Res.ok t).Spares s ↔ t.budgets = s.budgets := Iff.rfl
@[simp] theorem spares_jump (s t : State) : (Res.jump t).Spares s ↔ t.budgets = s.budgets := Iff.rfl
@[simp] theorem spares_wait (s t : State) (w : Wait) :
    (Res.wait t w).Spares s ↔ t.budgets = s.budgets := Iff.rfl
@[simp] theorem spares_hold (s t : State) (w : Wait) :
    (Res.hold t w).Spares s ↔ t.budgets = s.budgets := Iff.rfl
@[simp] theorem spares_fault (s t : State) (f : FaultInfo) :
    (Res.fault t f).Spares s ↔ t.budgets = s.budgets ∧ f.code ≠ 1 := Iff.rfl
@[simp] theorem spares_failI (s t : State) (x : Iss) (c n : Nat) :
    (failI t x c n).Spares s ↔ t.budgets = s.budgets ∧ c ≠ 1 := Iff.rfl
@[simp] theorem spares_failE (s t : State) (x : Iss) (e : Err) :
    (failE t x e).Spares s ↔ t.budgets = s.budgets ∧ e.1 ≠ 1 := Iff.rfl

/-- A fault found on the state as it stands. -/
theorem spares_found {s : State} {f : FaultInfo} (h : f.code ≠ 1) : (Res.fault s f).Spares s := ⟨rfl, h⟩
theorem spares_failed {s : State} {x : Iss} {e : Err} (h : e.1 ≠ 1) : (failE s x e).Spares s := ⟨rfl, h⟩

@[simp] theorem peerWait_spares (s : State) (x : Iss) (bad : List (Nat × Nat)) : (peerWait s x bad).Spares s := by
  unfold peerWait
  split
  · refine spares_found ?_
    split <;> simp
  · rfl
  · rfl

/-! ### Accesses -/

theorem loadThrough_spares (s : State) (x : Iss) (r : Rec) (w : Want) (path : APath) (acq : Option Scope) (addr : Nat → Nat × Bool)
    (regs : Nat → Option Nat → List RegW) : (loadThrough s x r w path acq addr regs).Spares s := by
  unfold loadThrough
  split
  next hplan => exact spares_found (plan_code hplan)
  · split
    · exact peerWait_spares s x _
    · dsimp only
      split
      next hpoison => exact ⟨cacheAll_budgets s x r _, poisonFault_code hpoison⟩
      · simp

theorem storeAll_budgets (x : Iss) (path : APath) (rel : Option Scope) (n : Nat) (data : Nat → Nat) (ts : List Tgt) (s : State) :
    (ts.foldl (fun s g => storeOne x path rel n (data g.t) s g) s).budgets = s.budgets :=
  foldl_budgets ts _ (fun s g => storeOne_budgets x path rel n (data g.t) s g) s

theorem storeThrough_spares (s : State) (x : Iss) (r : Rec) (w : Want) (path : APath) (rel : Option Scope) (addr : Nat → Nat × Bool)
    (data : Nat → Nat) : (storeThrough s x r w path rel addr data).Spares s := by
  unfold storeThrough
  split
  next hplan => exact spares_found (plan_code hplan)
  · split
    · exact peerWait_spares s x _
    · exact (storeAll_budgets x path rel w.size data _ _).trans (cacheAll_budgets s x r _)

/-! ### Paths -/

theorem goWhole_spares (s : State) (x : Iss) (pc : Pc) (ret : List Pc) : (goWhole s x pc ret).Spares s := rfl

theorem whole_spares {s : State} {x : Iss} {f : Unit → Res} (hf : (f ()).Spares s) : (whole s x f).Spares s := by
  unfold whole
  split
  · rfl
  · split
    · exact hf
    · exact spares_failed (by decide)

theorem branch_spares (s : State) (x : Iss) (pc : Pc) (ret : List Pc) (jn : Option Nat) : (branch s x pc ret jn).Spares s := by
  unfold branch
  split
  · rfl
  · split
    · exact goWhole_spares s x pc ret
    · split
      · exact spares_failed (by decide)
      · split
        · exact spares_failed (by decide)
        · rfl

theorem thrifty_failed {s : State} {x : Iss} {e : Err} (h : e.1 ≠ 1) : (failE s x e).Thrifty s := (spares_failed h).thrifty

theorem setExm_thrifty (s : State) (x : Iss) (m : Mask) : (setExm s x m).Thrifty s := by
  unfold setExm
  dsimp only
  split
  · split
    · exact .rfl' s
    · split
      · exact endSquad_amounts s x.id
      · split
        · exact thrifty_failed (by decide)
        · exact setPaths_amounts s x _
  · exact sameAmounts_of_budgets rfl

theorem joinStep_thrifty (s : State) (x : Iss) : (joinStep s x).Thrifty s := by
  unfold joinStep
  split
  · exact .rfl' s
  · split
    · exact .rfl' s
    · split
      · split
        · exact thrifty_failed (by decide)
        · exact setPaths_amounts s x _
      · split
        · exact thrifty_failed (by decide)
        · exact .rfl' s

/-! ### Engines -/

theorem matSubmit_spares (s : State) (x : Iss) (k : MKind) : (matSubmit s x k).Spares s := by
  simp [matSubmit]

theorem copySubmit_spares (s : State) (x : Iss) (r : CopyReq) : (copySubmit s x r).Spares s := by
  unfold copySubmit
  split
  next hrow => exact spares_failed (copyRows_code hrow)
  · split
    next haw => exact spares_found (copyAw_code haw)
    · split
      next hlate => exact spares_failed (copyLate_code hlate)
      · split
        · exact peerWait_spares s x []
        · dsimp only
          split <;> simp

theorem waitPhase_spares (s : State) (x : Iss) (l : AwLoc) (tok : Nat) : (waitPhase s x l tok).Spares s := by
  unfold waitPhase
  dsimp only
  split
  · exact spares_failed (by decide)
  · split
    · exact spares_failed (by decide)
    · split
      · exact logAcq_budgets s x _ _ _
      · rfl

/-! ### Plain instructions -/

/-- The answer of a meaning without an active thread: done, and nothing has changed. -/
def Res.Idle (s : State) (r : Res) : Prop :=
  ∃ t, r = .ok t ∧ t = { s with squads := t.squads } ∧ ∀ j, squadOf t j = squadOf s j

theorem idle_same (s : State) : (Res.ok s).Idle s := ⟨s, rfl, rfl, fun _ => rfl⟩

/-- A meaning that takes no energy beyond its debit, and does nothing without an active thread. -/
structure Meaning (body : Iss → State → Res) : Prop where
  thrifty : ∀ x s, (body x s).Thrifty s
  idle : ∀ x s q1, x.act = 0 → squadOf s x.id = some q1 → q1.pend = [] → (body x s).Idle s

/-- The instruction is the issue of such a meaning, at its minimum class. -/
def Plain (i : Instr) : Prop :=
  ∃ h, i.hdr = some h ∧ ∀ s, ∃ occ body, exec i s = issue h (minClass i) occ s body ∧ Meaning body

section
variable {i : Instr} {h : Hdr} {e : State → Out} {occ : State → Occ} {rest : State → Iss → State → Res}

/-- An instruction whose meaning looks first whether a thread executes it. -/
theorem plain_of_thrifty (hi : i.hdr = some h) (hexec : exec i = e)
    (he : ∀ s, e s = issue h (minClass i) (occ s) s fun x t => if x.act = 0 then .ok t else rest s x t)
    (hrest : ∀ s x t, (rest s x t).Thrifty t) : Plain i := by
  refine ⟨h, hi, fun s => ⟨_, _, (congrFun hexec s).trans (he s), fun x t => ?_, fun x t q1 hact _ _ => ?_⟩⟩
  · split
    · exact SameAmounts.rfl' t
    · exact hrest s x t
  · rw [if_pos hact]
    exact idle_same t

theorem plain_of_spares (hi : i.hdr = some h) (hexec : exec i = e)
    (he : ∀ s, e s = issue h (minClass i) (occ s) s fun x t => if x.act = 0 then .ok t else rest s x t)
    (hrest : ∀ s x t, (rest s x t).Spares t) : Plain i :=
  plain_of_thrifty hi hexec he fun s x t => (hrest s x t).thrifty

/-- An instruction whose meaning has nothing to do for no thread. -/
theorem plain_of_idle (hi : i.hdr = some h) (hexec : exec i = e) (he : ∀ s, e s = issue h (minClass i) (occ s) s (rest s))
    (hrest : ∀ s x t, (rest s x t).Spares t) (hidle : ∀ s x t q1, x.act = 0 → squadOf t x.id = some q1 → q1.pend = [] →
      (rest s x t).Idle t) : Plain i :=
  ⟨h, hi, fun s => ⟨_, _, (congrFun hexec s).trans (he s), fun x t => (hrest s x t).thrifty, hidle s⟩⟩

end

theorem execThreads_zero (d : Opnd) : execThreads d 0 = [] := by
  unfold execThreads
  split <;> decide

theorem threadsOf_zero : threadsOf 0 = [] := by decide

/-- A write of nothing leaves a squad without outstanding results. -/
theorem putFixed_nil_idle {s : State} {x : Iss} {q1 : Squad} (hq1 : squadOf s x.id = some q1) (hpend : q1.pend = []) :
    (Res.ok (putFixed s x [])).Idle s := by
  refine ⟨_, rfl, rfl, fun j => ?_⟩
  by_cases hj : j = x.id
  · subst hj
    rw [putFixed, squadOf_modSquad_same, hq1, Option.map_some, writeFixed_settled _ _ hpend]
    rfl
  · rw [putFixed, squadOf_modSquad_ne _ _ hj]

end Sys2Proof.Machine

end

section

namespace Sys2Proof.Machine

/-! ### Arithmetic -/

section
variable {i : Instr} {h : Hdr} {cls n : Nat} {d : Opnd} {f : Squad → Nat → List RegW} {e : State → Out}

theorem plain_alu (hi : i.hdr = some h) (hexec : exec i = e) (he : ∀ s, e s = alu h cls n d f s) (hcls : minClass i = cls) :
    Plain i := by
  obtain rfl : e = alu h cls n d f := funext he
  subst hcls
  refine plain_of_idle (e := alu h (minClass i) n d f) hi hexec (fun _ => rfl) (fun _ x t => ?_) fun _ x t q1 hact hq1 hpend => ?_
  · exact putFixed_budgets t x _
  · rw [hact, execThreads_zero]
    exact putFixed_nil_idle hq1 hpend

theorem plain_aluLater (hi : i.hdr = some h) (hexec : exec i = e) (he : ∀ s, e s = aluLater h cls n d f s)
    (hcls : minClass i = cls) : Plain i := by
  obtain rfl : e = aluLater h cls n d f := funext he
  subst hcls
  refine plain_of_idle (e := aluLater h (minClass i) n d f) hi hexec (fun _ => rfl) (fun _ x t => ?_) fun _ x t q1 hact hq1 hpend => ?_
  · exact putLater_budgets t x _ _
  · rw [hact, execThreads_zero]
    exact idle_same t

end

section
variable {i : Instr} {h : Hdr} {cls n : Nat} {ty : IType} {ft : FType} {d a b : Opnd} {e : State → Out}

theorem plain_alu1 {f : Nat → Nat} (hi : i.hdr = some h) (hexec : exec i = e) (he : ∀ s, e s = alu1 h ty d a f s)
    (hcls : minClass i = 1) : Plain i :=
  plain_alu hi hexec he hcls

theorem plain_alu2 {f : Nat → Nat → Nat} (hi : i.hdr = some h) (hexec : exec i = e)
    (he : ∀ s, e s = alu2 h cls n ty d a b f s) (hcls : minClass i = cls) : Plain i :=
  plain_alu hi hexec he hcls

theorem plain_alu3 {f : Nat → Nat → Nat → Nat} (hi : i.hdr = some h) (hexec : exec i = e)
    (he : ∀ s, e s = alu3 h cls n ty d a b f s) (hcls : minClass i = cls) : Plain i :=
  plain_alu hi hexec he hcls

theorem plain_flt1 {f : Nat → Nat × Nat} (hi : i.hdr = some h) (hexec : exec i = e) (he : ∀ s, e s = flt1 h ft d a f s)
    (hcls : minClass i = 1) : Plain i :=
  plain_alu hi hexec he hcls

theorem plain_flt2 {f : Nat → Nat → Nat × Nat} (hi : i.hdr = some h) (hexec : exec i = e)
    (he : ∀ s, e s = flt2 h cls ft d a b f s) (hcls : minClass i = cls) : Plain i :=
  plain_alu hi hexec he hcls

theorem plain_packed {f : Nat → Nat → Nat → Nat × Nat} (hi : i.hdr = some h) (hexec : exec i = e)
    (he : ∀ s, e s = packed h cls d a b f s) (hcls : minClass i = cls) : Plain i :=
  plain_alu hi hexec he hcls

theorem plain_sfu {f : Nat → Nat × Nat} (hi : i.hdr = some h) (hexec : exec i = e) (he : ∀ s, e s = sfu h cls n d a f s)
    (hcls : minClass i = cls) : Plain i :=
  plain_aluLater hi hexec he hcls

end

section
variable (h : Hdr) (ty : IType) (d a b : Opnd) (sd va vd pd pa n : Nat)

theorem plain_nop : Plain (.nop h) :=
  plain_of_idle (e := execNop h) rfl rfl (fun _ => rfl) (fun _ _ _ => rfl) fun _ _ t _ _ _ _ => idle_same t

theorem plain_mov : Plain (.mov h ty d a) := by
  refine plain_of_idle (e := execMov h ty d a) rfl rfl (fun _ => rfl) (fun _ x t => ?_) fun _ x t q1 hact hq1 hpend => ?_
  · exact putFixed_budgets t x _
  · rw [hact, execThreads_zero]
    exact putFixed_nil_idle hq1 hpend

theorem plain_add (sub sat ci co : Bool) (cp : Nat) {i : Instr} {e : State → Out} (hi : i.hdr = some h)
    (hexec : exec i = e) (he : ∀ s, e s = addForm h ty sub sat ci co cp d a b s) (hcls : minClass i = 1) : Plain i := by
  obtain rfl : e = addForm h ty sub sat ci co cp d a b := funext he
  refine plain_of_idle (e := addForm h ty sub sat ci co cp d a b) hi hexec (fun _ => by rw [hcls]; rfl) (fun _ x t => ?_)
    fun _ x t q1 hact hq1 hpend => ?_
  · exact putFixed_budgets t x _
  · rw [hact, execThreads_zero]
    exact putFixed_nil_idle hq1 hpend

theorem sawDone_idle {s : State} {x : Iss} (n : Nat) (hact : x.act = 0) : sawDone s x n = s :=
  if_neg fun h => h.2 hact

theorem plain_movs : Plain (.movs h d n) := by
  refine plain_of_idle (e := execMovs h d n) rfl rfl (fun _ => rfl) (fun _ x t => ?_) fun _ x t q1 hact hq1 hpend => ?_
  · dsimp only
    split <;> simp
  · have hnone : movsWrites t x d n = [] := by rw [movsWrites, hact, execThreads_zero]; rfl
    dsimp only
    rw [sawDone_idle n hact, hnone]
    split
    · exact idle_same t
    · exact putFixed_nil_idle hq1 hpend

theorem plain_movx : Plain (.movx h n a) := by
  refine plain_of_thrifty (e := execMovx h n a) rfl rfl (fun _ => rfl) fun _ x t => ?_
  split
  · exact setExm_thrifty t x _
  · split <;> exact sameAmounts_of_budgets rfl

theorem plain_shfl (mode : ShflMode) : Plain (.shfl h ty mode vd va b) := by
  refine plain_of_idle (e := execShfl h ty mode vd va b) rfl rfl (fun _ => rfl) (fun _ x t => ?_) fun _ x t q1 hact hq1 hpend => ?_
  · exact putLater_budgets t x _ _
  · rw [hact, threadsOf_zero]
    exact idle_same t

/-- The lanes of no thread. -/
theorem lanes_zero {α : Type} (f : Nat → α) :
    ((List.range 32).map fun t => if bitM 0 t then some (f t) else none) = List.replicate 32 none := by
  refine List.eq_replicate_iff.2 ⟨rfl, fun v hv => ?_⟩
  obtain ⟨t, -, rfl⟩ := List.mem_map.1 hv
  simp [bitM]

theorem treeLevel_none {α : Type} (op : α → α → α × Nat) (h m : Nat) :
    treeLevel op h (List.replicate m none) = (List.replicate h none, 0) := by
  have hget (t : Nat) : ((List.replicate m (none : Option α))[t]?).getD none = none := by
    rw [List.getElem?_replicate]
    split <;> rfl
  have hfold (l : List Nat) (acc : List (Option α) × Nat) : l.foldl (fun acc t =>
      match ((List.replicate m (none : Option α))[t]?).getD none, ((List.replicate m (none : Option α))[t + h]?).getD none with
      | some a, some b => let r := op a b; (acc.1 ++ [some r.1], acc.2 ||| r.2)
      | some a, none => (acc.1 ++ [some a], acc.2)
      | none, b => (acc.1 ++ [b], acc.2)) acc = (acc.1 ++ List.replicate l.length none, acc.2) := by
    induction l generalizing acc with
    | nil => simp
    | cons t l ih =>
      rw [List.foldl_cons, ih, hget, hget]
      simp [List.replicate_succ]
  have hlevel := hfold (List.range h) ([], 0)
  rw [List.length_range, List.nil_append] at hlevel
  exact hlevel

theorem treeReduce_none {α : Type} (op : α → α → α × Nat) : treeReduce op (List.replicate 32 none) = none := by
  unfold treeReduce
  simp only [treeLevel_none]
  rfl

theorem plain_ired (op : IredOp) : Plain (.ired h ty op sd va) := by
  refine plain_of_idle (e := execIred h ty op sd va) rfl rfl (fun _ => rfl) (fun _ x t => ?_) fun _ x t q1 hact hq1 hpend => ?_
  · split <;> simp
  · rw [hact, treeVals, lanes_zero, treeReduce_none]
    exact idle_same t

theorem plain_fcvt (dst' src : Nat) (rm : Rm) : Plain (.fcvt h dst' src rm d a) := by
  refine plain_of_spares (e := execFcvt h dst' src rm d a) rfl rfl (fun _ => rfl) fun _ x t => ?_
  dsimp only
  split <;> simp

theorem plain_dxpk (w : DxWidth) (g : Nat) (rm : Rm) (sb : Nat) : Plain (.dxpk h w g rm vd va sb) := by
  refine plain_of_spares (e := execDxpk h w g rm vd va sb) rfl rfl (fun _ => rfl) fun _ x t => ?_
  simp

theorem plain_dxunpk (w : DxWidth) : Plain (.dxunpk h w vd va b) := by
  refine plain_of_spares (e := execDxunpk h w vd va b) rfl rfl (fun _ => rfl) fun _ x t => ?_
  dsimp only
  split
  next herr => exact spares_failed (dxunpkErr_code herr)
  · simp

theorem plain_fred (ft : FType) (op : FredOp) : Plain (.fred h ft op sd a) := by
  refine plain_of_idle (e := execFred h ft op sd a) rfl rfl (fun _ => rfl) (fun _ x t => ?_) fun _ x t q1 hact hq1 hpend => ?_
  · split <;> simp
  · rw [hact, lanes_zero, treeReduce_none]
    exact idle_same t

theorem plain_vote {f : List Bool → Bool} {i : Instr} {e : State → Out} (hi : i.hdr = some h) (hexec : exec i = e)
    (he : ∀ s, e s = voteForm h pd pa f s) (hcls : minClass i = 1) : Plain i := by
  obtain rfl : e = voteForm h pd pa f := funext he
  refine plain_of_idle (e := voteForm h pd pa f) hi hexec (fun _ => by rw [hcls]; rfl) (fun _ x t => ?_)
    fun _ x t q1 hact hq1 hpend => ?_
  · exact putLater_budgets t x _ _
  · rw [hact, threadsOf_zero]
    exact idle_same t

theorem plain_voteBallot : Plain (.voteBallot h sd pa) := by
  refine plain_of_spares (e := execVoteBallot h sd pa) rfl rfl (fun _ => rfl) fun _ x t => ?_
  simp

theorem plain_flagsClr : Plain (.flagsClr h n) :=
  plain_of_spares (e := execFlagsClr h n) rfl rfl (fun _ => rfl) fun _ _ _ => rfl

end

end Sys2Proof.Machine

end

section

namespace Sys2Proof.Machine

/-! ### Control -/

section
variable (h : Hdr) (target n : Nat) (jn : Option Nat) (b : Opnd) (sd : Nat)

theorem branch_idle (s : State) {x : Iss} (pc : Pc) (ret : List Pc) (jn : Option Nat) (hact : x.act = 0) :
    (branch s x pc ret jn).Idle s := by
  have hnone : branch s x pc ret jn = .ok s := if_pos hact
  rw [hnone]
  exact idle_same s

theorem plain_bra : Plain (.bra h target jn) := by
  refine plain_of_idle (e := execBra h target jn) rfl rfl (fun _ => rfl) (fun _ x t => branch_spares t x _ _ _)
    fun _ x t q1 hact _ _ => ?_
  exact branch_idle t _ _ _ hact

theorem plain_brx : Plain (.brx h sd jn) := by
  refine plain_of_idle (e := execBrx h sd jn) rfl rfl (fun _ => rfl) (fun _ x t => branch_spares t x _ _ _)
    fun _ x t q1 hact _ _ => ?_
  exact branch_idle t _ _ _ hact

theorem plain_call : Plain (.call h target jn) := by
  refine plain_of_spares (e := execCall h target jn) rfl rfl (fun _ => rfl) fun _ x t => ?_
  split
  · exact spares_failed (by decide)
  · split
    · exact spares_failed (by decide)
    · exact branch_spares t x _ _ _

theorem plain_ret : Plain (.ret h) := by
  refine plain_of_idle (e := execRet h) rfl rfl (fun _ => rfl) (fun _ x t => whole_spares ?_) fun _ x t q1 hact _ _ => ?_
  · split
    · exact spares_failed (by decide)
    · split
      · exact spares_failed (by decide)
      · exact goWhole_spares t x _ _
  · rw [whole, if_pos hact]
    exact idle_same t

theorem plain_yield : Plain (.yield h) :=
  plain_of_spares (e := execYield h) rfl rfl (fun _ => rfl) fun _ _ _ => rfl

theorem plain_setpri : Plain (.setpri h b) :=
  plain_of_spares (e := execSetpri h b) rfl rfl (fun _ => rfl) fun _ _ _ => rfl

theorem plain_exit : Plain (.exit h) := by
  refine plain_of_thrifty (e := execExit h) rfl rfl (fun _ => rfl) fun _ x t => ?_
  split
  · exact .rfl' t
  · split
    · exact thrifty_failed (by decide)
    · exact setPaths_amounts t x _

theorem plain_brdec : Plain (.brdec h sd target) := by
  refine plain_of_spares (e := execBrdec h sd target) rfl rfl (fun _ => rfl) fun _ x t => ?_
  dsimp only
  split <;> rfl

theorem plain_ovlj (call bank : Bool) : Plain (.ovlj h call bank target) := by
  refine plain_of_idle (e := execOvlj h call bank target) rfl rfl (fun _ => rfl) (fun _ x t => whole_spares ?_)
    fun _ x t q1 hact _ _ => ?_
  · split
    · exact spares_failed (by decide)
    · split
      · split
        · exact spares_failed (by decide)
        · exact goWhole_spares t x _ _
      · exact goWhole_spares t x _ _
  · rw [whole, if_pos hact]
    exact idle_same t

theorem plain_bkpt : Plain (.bkpt h n) :=
  plain_of_spares (e := execBkpt h n) rfl rfl (fun _ => rfl) fun _ _ _ => spares_found (by simp)

theorem plain_trap : Plain (.trap h n) :=
  plain_of_spares (e := execTrap h n) rfl rfl (fun _ => rfl) fun _ _ _ => spares_found (by simp)

theorem plain_waitc : Plain (.waitc h b) := by
  refine plain_of_idle (e := execWaitc h b) rfl rfl (fun _ => rfl) (fun _ x t => ?_) fun _ x t q1 hact _ _ => ?_
  · dsimp only
    split <;> rfl
  · rw [hact]
    exact idle_same t

theorem plain_waitcRel : Plain (.waitcRel h b) := by
  refine plain_of_idle (e := execWaitcRel h b) rfl rfl (fun _ => rfl) (fun _ x t => ?_) fun _ x t q1 hact _ _ => ?_
  · dsimp only
    split <;> rfl
  · rw [hact]
    exact idle_same t

end

/-! ### Memory -/

section
variable (h : Hdr) (sz : MemSize) (ord : Bool) (sc : Scope) (sd vd ba bd n w : Nat) (a b d : Opnd) (lvl : Option Nat) (plane : Plane)

theorem plain_load {i : Instr} {e : State → Out} {kinds : List Nat} {cls sp : Nat} {core : Squad → Rec → Nat}
    (hi : i.hdr = some h) (hexec : exec i = e) (he : ∀ s, e s = loadForm h cls sz ord sc vd ba b kinds sp core s)
    (hcls : minClass i = cls) : Plain i := by
  obtain rfl : e = loadForm h cls sz ord sc vd ba b kinds sp core := funext he
  subst hcls
  exact plain_of_spares (e := loadForm h (minClass i) sz ord sc vd ba b kinds sp core) hi hexec (fun _ => rfl) fun _ x t =>
    loadThrough_spares t x _ _ _ _ _ _

theorem plain_store {i : Instr} {e : State → Out} {cls sp : Nat} {fwd : Bool} {core : Squad → Rec → Nat}
    (hi : i.hdr = some h) (hexec : exec i = e) (he : ∀ s, e s = storeForm h cls sz ord sc vd ba b sp fwd core s)
    (hcls : minClass i = cls) : Plain i := by
  obtain rfl : e = storeForm h cls sz ord sc vd ba b sp fwd core := funext he
  subst hcls
  exact plain_of_spares (e := storeForm h (minClass i) sz ord sc vd ba b sp fwd core) hi hexec (fun _ => rfl) fun _ x t =>
    storeThrough_spares t x _ _ _ _ _ _

theorem plain_ldu : Plain (.ldu h sz ord sc sd ba b) :=
  plain_of_spares (e := execLdu h sz ord sc sd ba b) rfl rfl (fun _ => rfl) fun _ x t => loadThrough_spares t (single x) _ _ _ _ _ _

theorem plain_recld : Plain (.recld h bd ba b) := by
  refine plain_of_spares (e := execRecld h bd ba b) rfl rfl (fun _ => rfl) fun _ x t => ?_
  split
  · exact spares_failed (by decide)
  · exact loadThrough_spares t (single x) _ _ _ _ _ _

theorem plain_recldRange : Plain (.recldRange h bd n w) := by
  refine plain_of_spares (e := execRecldRange h bd n w) rfl rfl (fun _ => rfl) fun _ x t => ?_
  split
  · exact spares_failed (by decide)
  · simp

theorem plain_recldScr : Plain (.recldScr h bd) := by
  refine plain_of_spares (e := execRecldScr h bd) rfl rfl (fun _ => rfl) fun _ x t => ?_
  simp

theorem plain_recldTile : Plain (.recldTile h bd) := by
  refine plain_of_spares (e := execRecldTile h bd) rfl rfl (fun _ => rfl) fun _ x t => ?_
  simp

theorem plain_recset {i : Instr} {e : State → Out} (f : State → Rec → Nat → RecRes) (hf : ∀ s r k, RecSound (f s r k))
    (hi : i.hdr = some h) (hexec : exec i = e) (he : ∀ s, e s = recsetForm h bd b (f s) s) (hcls : minClass i = 1) :
    Plain i := by
  obtain rfl : e = fun s => recsetForm h bd b (f s) s := funext he
  refine plain_of_spares (e := fun s => recsetForm h bd b (f s) s) hi hexec (fun _ => by rw [hcls]; rfl) fun s x t => ?_
  split
  next herr => exact spares_failed (hf s _ _ _ herr)
  · rfl

theorem plain_lld (sz : LodSize) : Plain (.lld h sz lvl vd ba b) := by
  refine plain_of_spares (e := execLld h sz lvl vd ba b) rfl rfl (fun _ => rfl) fun _ x t => ?_
  dsimp only
  split
  next herr => exact spares_failed (recCheck_code herr)
  · split
    · exact spares_found (by simp)
    · simp

theorem plain_lodq : Plain (.lodq h lvl vd ba b) := by
  refine plain_of_spares (e := execLodq h lvl vd ba b) rfl rfl (fun _ => rfl) fun _ x t => ?_
  dsimp only
  split
  next herr => exact spares_failed (recCheck_code herr)
  · simp

theorem plain_fbput : Plain (.fbput h a b) := by
  refine plain_of_idle (e := execFbput h a b) rfl rfl (fun _ => rfl) (fun _ x t => pushFeedback_budgets t _ _)
    fun _ x t q1 hact _ _ => ?_
  rw [hact, threadsOf_zero]
  exact idle_same t

theorem plain_tld : Plain (.tld h plane vd ba b) :=
  plain_of_spares (e := execTld h plane vd ba b) rfl rfl (fun _ => rfl) fun _ x t => loadThrough_spares t x _ _ _ _ _ _

theorem plain_tst : Plain (.tst h plane vd ba b) :=
  plain_of_spares (e := execTst h plane vd ba b) rfl rfl (fun _ => rfl) fun _ x t => storeThrough_spares t x _ _ _ _ _ _

theorem plain_descrd : Plain (.descrd h vd ba b) := by
  refine plain_of_spares (e := execDescrd h vd ba b) rfl rfl (fun _ => rfl) fun _ x t => ?_
  dsimp only
  split
  next hplan => exact spares_found (plan_code hplan)
  · split
    · exact peerWait_spares t x _
    · split
      next hpoison => exact ⟨cacheAll_budgets t x _ _, poisonFault_code hpoison⟩
      · simp

theorem plain_descwr : Plain (.descwr h d ba b) := by
  refine plain_of_spares (e := execDescwr h d ba b) rfl rfl (fun _ => rfl) fun _ x t => ?_
  dsimp only
  split
  next hplan => exact spares_found (plan_code hplan)
  · split
    · exact peerWait_spares t x _
    · rw [spares_ok, logEvs_budgets]
      exact (foldl_budgets _ _ (fun s g => wrTag_budgets s _ _ _) _).trans (cacheAll_budgets t x _ _)

/-- A hint that leaves the budgets alone. -/
theorem plain_hint {i : Instr} {e : State → Out} {cls : Nat} {kinds : List Nat} {f : Squad → Nat → Space × Nat → State → State}
    (hf : ∀ q va p s, (f q va p s).budgets = s.budgets) (hi : i.hdr = some h) (hexec : exec i = e)
    (he : ∀ s, e s = hintForm h cls ba b kinds f s) (hcls : minClass i = cls) : Plain i := by
  obtain rfl : e = hintForm h cls ba b kinds f := funext he
  subst hcls
  refine plain_of_spares (e := hintForm h (minClass i) ba b kinds f) hi hexec (fun _ => rfl) fun _ x t => ?_
  dsimp only
  split
  next herr => exact spares_failed (recCheck_code herr)
  · refine foldl_budgets _ _ (fun s k => ?_) t
    split
    · split
      · exact hf _ _ _ s
      · rfl
    · rfl

theorem plain_fence (ord : FenceOrd) : Plain (.fence h ord sc) := by
  refine plain_of_idle (e := execFence h ord sc) rfl rfl (fun _ => rfl) (fun _ x t => logEvs_budgets t _) fun _ x t q1 hact _ _ => ?_
  rw [hact, threadsOf_zero]
  exact idle_same t

theorem plain_fencex : Plain (.fencex h sc n w) := by
  refine plain_of_idle (e := execFencex h sc n w) rfl rfl (fun _ => rfl) (fun _ x t => logEvs_budgets t _) fun _ x t q1 hact _ _ => ?_
  rw [hact, threadsOf_zero]
  exact idle_same t

end

/-! ### Barriers, arrival words and queues -/

section
variable (h : Hdr) (sc : Scope) (ba sd px : Nat) (b d : Opnd)

theorem plain_barArm : Plain (.barArm h sc ba sd b) := by
  refine plain_of_spares (e := execBarArm h sc ba sd b) rfl rfl (fun _ => rfl) fun _ x t => ?_
  dsimp only
  split
  next hloc => exact spares_found (locate_code hloc)
  · split
    next hpar =>
      refine spares_found ?_
      split at hpar
      next n =>
        cases hparent : locate t x (rdB x.q n) 32 [0, 1] false true false with
        | error f =>
          rw [hparent] at hpar
          cases hpar
          exact locate_code hparent
        | ok l =>
          rw [hparent] at hpar
          cases hpar
      · cases hpar
    · split
      · exact peerWait_spares t x _
      · split
        · exact spares_failed (by decide)
        · split
          · rfl
          · split
            · exact spares_failed (by decide)
            · simp

theorem plain_barArv : Plain (.barArv h sd ba b) := by
  refine plain_of_spares (e := execBarArv h sd ba b) rfl rfl (fun _ => rfl) fun _ x t => ?_
  dsimp only
  split
  next hloc => exact spares_found (locate_code hloc)
  · split
    · exact peerWait_spares t x _
    · simp

theorem plain_barWait : Plain (.barWait h ba b) := by
  refine plain_of_spares (e := execBarWait h ba b) rfl rfl (fun _ => rfl) fun _ x t => ?_
  dsimp only
  split
  next hloc => exact spares_found (locate_code hloc)
  · split
    · exact peerWait_spares t x _
    · exact waitPhase_spares t x _ _

theorem plain_barSync : Plain (.barSync h ba b) := by
  refine plain_of_spares (e := execBarSync h ba b) rfl rfl (fun _ => rfl) fun _ x t => ?_
  split
  · rfl
  · split
    next hloc => exact spares_found (locate_code hloc)
    · split
      · exact peerWait_spares t x _
      · split
        · exact waitPhase_spares t x _ _
        · simp

theorem plain_awSet : Plain (.awSet h ba b) := by
  refine plain_of_spares (e := execAwSet h ba b) rfl rfl (fun _ => rfl) fun _ x t => ?_
  dsimp only
  split
  next hloc => exact spares_found (locate_code hloc)
  · split
    · exact peerWait_spares t x _
    · simp

theorem plain_awWait : Plain (.awWait h sc ba b) := by
  refine plain_of_spares (e := execAwWait h sc ba b) rfl rfl (fun _ => rfl) fun _ x t => ?_
  dsimp only
  split
  next hloc => exact spares_found (locate_code hloc)
  · split
    · exact peerWait_spares t x _
    · split
      · simp
      · split <;> rfl

theorem plain_qInit : Plain (.qInit h sc ba b) := by
  refine plain_of_spares (e := execQInit h sc ba b) rfl rfl (fun _ => rfl) fun _ x t => ?_
  dsimp only
  split
  next hloc => exact spares_found (locateQ_code hloc)
  · generalize (if rdScal x.q b / 16 % 2048 = 0 then 2 ^ (rdScal x.q b % 16) else rdScal x.q b / 16 % 2048) = credit
    split
    · exact spares_failed (by decide)
    · split
      · exact spares_failed (by decide)
      · split
        · exact spares_failed (by decide)
        · split
          · exact spares_failed (by decide)
          · simp

theorem plain_qPush : Plain (.qPush h ba b) := by
  refine plain_of_spares (e := execQPush h ba b) rfl rfl (fun _ => rfl) fun _ x t => ?_
  dsimp only
  split
  next hloc => exact spares_found (locateQ_code hloc)
  · split
    · simp
    · split
      · simp
      · split
        · rw [spares_wait]
          split <;> simp
        · split <;> simp

theorem plain_qPop : Plain (.qPop h px d ba) := by
  refine plain_of_spares (e := execQPop h px d ba) rfl rfl (fun _ => rfl) fun _ x t => ?_
  dsimp only
  split
  next hloc => exact spares_found (locateQ_code hloc)
  · split
    · simp
    · split
      · simp
      · split
        · simp
        · split
          · rw [spares_wait]
            split <;> simp
          · split <;> simp

theorem plain_qClose : Plain (.qClose h ba) := by
  refine plain_of_spares (e := execQClose h ba) rfl rfl (fun _ => rfl) fun _ x t => ?_
  split
  next hloc => exact spares_found (locateQ_code hloc)
  · split <;> simp

end

end Sys2Proof.Machine

end

section

namespace Sys2Proof.Machine

/-! ### Copies, slots and the matrix engine -/

section
variable (h : Hdr) (sd ba oa od n ad ob aa bd bi sb : Nat) (b d : Opnd)

theorem plain_copy {i : Instr} {e : State → Out} {cls major xf : Nat} {w param : Iss → W64} (hi : i.hdr = some h)
    (hexec : exec i = e) (he : ∀ s, e s = copyForm h cls major xf d ba w param s) (hcls : minClass i = cls) : Plain i := by
  obtain rfl : e = copyForm h cls major xf d ba w param := funext he
  subst hcls
  exact plain_of_spares (e := copyForm h (minClass i) major xf d ba w param) hi hexec (fun _ => rfl) fun _ x t => copySubmit_spares t x _

theorem plain_ovlLd (bank : Bool) : Plain (.ovlLd h bank ba b) := by
  refine plain_of_spares (e := execOvlLd h bank ba b) rfl rfl (fun _ => rfl) fun _ x t => ?_
  dsimp only
  split
  · exact spares_failed (by decide)
  · have hsub := copySubmit_spares t x ⟨0x95, bank.toNat, 0, none, rdB x.q ba, 0, cwOf b x, 0⟩
    split
    next heq =>
      rw [heq] at hsub
      exact hsub
    · exact hsub

theorem plain_cpyStat : Plain (.cpyStat h sd b) := by
  refine plain_of_spares (e := execCpyStat h sd b) rfl rfl (fun _ => rfl) fun _ x t => ?_
  simp

theorem plain_cpyCancel : Plain (.cpyCancel h b) :=
  plain_of_spares (e := execCpyCancel h b) rfl rfl (fun _ => rfl) fun _ x t => cancelAll_budgets t _

theorem plain_claim {i : Instr} {e : State → Out} {pick : List Nat → Nat → List Nat} (hi : i.hdr = some h)
    (hexec : exec i = e) (he : ∀ s, e s = claimForm h sd b pick s) (hcls : minClass i = 1) : Plain i := by
  obtain rfl : e = claimForm h sd b pick := funext he
  refine plain_of_spares (e := claimForm h sd b pick) hi hexec (fun _ => by rw [hcls]; rfl) fun _ x t => ?_
  simp

theorem plain_slotFree : Plain (.slotFree h b) := by
  refine plain_of_spares (e := execSlotFree h b) rfl rfl (fun _ => rfl) fun _ x t => ?_
  dsimp only
  split <;> simp

theorem plain_slotInfoGet : Plain (.slotInfoGet h sd oa) := by
  refine plain_of_spares (e := execSlotInfoGet h sd oa) rfl rfl (fun _ => rfl) fun _ x t => ?_
  simp

theorem plain_slotInfoExt : Plain (.slotInfoExt h od b) := by
  refine plain_of_spares (e := execSlotInfoExt h od b) rfl rfl (fun _ => rfl) fun _ x t => ?_
  dsimp only
  split
  · simp
  · split <;> simp

theorem plain_slotInfoAcc : Plain (.slotInfoAcc h sd aa) := by
  refine plain_of_spares (e := execSlotInfoAcc h sd aa) rfl rfl (fun _ => rfl) fun _ x t => ?_
  simp

theorem plain_mma (z : Bool) : Plain (.mma h z ad oa ob) := by
  refine plain_of_spares (e := execMma h z ad oa ob) rfl rfl (fun _ => rfl) fun _ x t => ?_
  split
  · simp
  · exact matSubmit_spares t x _

theorem plain_mmStage (t2 z : Bool) : Plain (.mmStage h n t2 z ad oa ob) := by
  refine plain_of_spares (e := execMmStage h n t2 z ad oa ob) rfl rfl (fun _ => rfl) fun _ x t => ?_
  split
  · simp
  · split <;> simp

theorem plain_accZero : Plain (.accZero h ad) :=
  plain_of_spares (e := execAccZero h ad) rfl rfl (fun _ => rfl) fun _ x t => matSubmit_spares t x _

theorem plain_accZeroFlg : Plain (.accZeroFlg h ad) :=
  plain_of_spares (e := execAccZeroFlg h ad) rfl rfl (fun _ => rfl) fun _ x t => matSubmit_spares t x _

theorem plain_drain (rm : Rm) (add clr : Bool) : Plain (.drain h rm add clr bd aa b) := by
  refine plain_of_spares (e := execDrain h rm add clr bd aa b) rfl rfl (fun _ => rfl) fun _ x t => ?_
  dsimp only
  split
  next herr => exact spares_failed (xferErr_code herr)
  · exact matSubmit_spares t x _

theorem plain_accLd : Plain (.accLd h ad ba) := by
  refine plain_of_spares (e := execAccLd h ad ba) rfl rfl (fun _ => rfl) fun _ x t => ?_
  split
  next herr => exact spares_failed (xferErr_code herr)
  · exact matSubmit_spares t x _

theorem plain_accSt : Plain (.accSt h bd aa) := by
  refine plain_of_spares (e := execAccSt h bd aa) rfl rfl (fun _ => rfl) fun _ x t => ?_
  split
  next herr => exact spares_failed (xferErr_code herr)
  · exact matSubmit_spares t x _

theorem plain_gmv : Plain (.gmv h bi bd ba sb) := by
  refine plain_of_spares (e := execGmv h bi bd ba sb) rfl rfl (fun _ => rfl) fun _ x t => ?_
  dsimp only
  split
  next herr => exact spares_failed (gmvErr_code herr)
  · exact matSubmit_spares t x _

theorem plain_mmWait : Plain (.mmWait h b) := by
  refine plain_of_spares (e := execMmWait h b) rfl rfl (fun _ => rfl) fun _ x t => ?_
  dsimp only
  split
  · split <;> simp
  · split <;> simp

end

/-! ### Light fields -/

section
variable (h : Hdr) (sd ba bd sb imk k vd va vb : Nat) (a b d : Opnd)

theorem plain_lfSetup : Plain (.lfSetup h bd ba b) := by
  refine plain_of_spares (e := execLfSetup h bd ba b) rfl rfl (fun _ => rfl) fun _ x t => ?_
  dsimp only
  split
  next hfault => exact spares_found (lfFault_code hfault)
  · simp

theorem plain_lfSpan (redo : Bool) (pm : Nat) : Plain (.lfSpan h redo pm k vd ba sb) := by
  refine plain_of_spares (e := execLfSpan h redo pm k vd ba sb) rfl rfl (fun _ => rfl) fun _ x t => ?_
  dsimp only
  split
  next hfault => exact ⟨rfl, lfFault_code hfault⟩
  · simp

theorem plain_lfZtest (ge w : Bool) : Plain (.lfZtest h ge w imk vb) := by
  refine plain_of_spares (e := execLfZtest h ge w imk vb) rfl rfl (fun _ => rfl) fun _ x t => ?_
  split
  next hfault => exact spares_found (posFault_code hfault)
  · simp

theorem plain_lfVsplit (gap : Bool) (pp vid via : Nat) : Plain (.lfVsplit h gap pp vid via) := by
  refine plain_of_spares (e := execLfVsplit h gap pp vid via) rfl rfl (fun _ => rfl) fun _ x t => ?_
  split
  · exact spares_failed (by decide)
  · rfl

theorem plain_lfInterp : Plain (.lfInterp h k vd va vb) := by
  refine plain_of_spares (e := execLfInterp h k vd va vb) rfl rfl (fun _ => rfl) fun _ x t => ?_
  split
  next hfault => exact spares_found (posFault_code hfault)
  · simp

/-- A write of the planes. -/
theorem plain_write {i : Instr} {e : State → Out} {cls plane : Nat} {count : Bool} {f : Squad → Nat → Nat → Nat → Nat}
    (hi : i.hdr = some h) (hexec : exec i = e) (he : ∀ s, e s = writeForm h cls plane imk vb count f s)
    (hcls : minClass i = cls) : Plain i := by
  obtain rfl : e = writeForm h cls plane imk vb count f := funext he
  subst hcls
  refine plain_of_spares (e := writeForm h (minClass i) plane imk vb count f) hi hexec (fun _ => rfl) fun _ x t => ?_
  split
  next hfault => exact spares_found (posFault_code hfault)
  · dsimp only
    rw [spares_ok]
    split
    · rw [addBin_budgets]
      refine foldl_budgets _ _ (fun s e => ?_) t
      exact wrN_budgets s _ _ _ _
    · refine foldl_budgets _ _ (fun s e => ?_) t
      exact wrN_budgets s _ _ _ _

theorem plain_lfRate : Plain (.lfRate h b) := by
  refine plain_of_spares (e := execLfRate h b) rfl rfl (fun _ => rfl) fun _ x t => ?_
  dsimp only
  split
  · exact spares_failed (by decide)
  · rfl

theorem plain_lfViews : Plain (.lfViews h sd) := by
  refine plain_of_spares (e := execLfViews h sd) rfl rfl (fun _ => rfl) fun _ x t => ?_
  simp

theorem plain_lfViewsV (band : Nat) : Plain (.lfViewsV h d band) := by
  refine plain_of_idle (e := execLfViewsV h d band) rfl rfl (fun _ => rfl) (fun _ x t => putLater_budgets t x _ _)
    fun _ x t q1 hact _ _ => ?_
  rw [broadcast, hact, execThreads_zero]
  exact idle_same t

theorem plain_frame {i : Instr} {e : State → Out} {cls : Nat} {repro : Bool} {tile other : Iss → Rec} (hi : i.hdr = some h)
    (hexec : exec i = e) (he : ∀ s, e s = frameForm h cls repro tile other sb s) (hcls : minClass i = cls) : Plain i := by
  obtain rfl : e = frameForm h cls repro tile other sb := funext he
  subst hcls
  refine plain_of_spares (e := frameForm h (minClass i) repro tile other sb) hi hexec (fun _ => rfl) fun _ x t => ?_
  dsimp only
  split
  next herr => exact spares_failed (frameRows_code herr)
  · split
    next haw => exact spares_found (copyAw_code haw)
    · split
      · exact peerWait_spares t x []
      · split <;> simp

theorem plain_lfPresentArm : Plain (.lfPresentArm h sb) := by
  refine plain_of_spares (e := execLfPresentArm h sb) rfl rfl (fun _ => rfl) fun _ x t => ?_
  split
  next herr => exact spares_failed (presentErr_code herr)
  · dsimp only
    split
    · exact spares_failed (by decide)
    · rfl

theorem plain_present {i : Instr} {e : State → Out} {isSub : Bool} (hi : i.hdr = some h) (hexec : exec i = e)
    (he : ∀ s, e s = presentForm h isSub ba sb s) (hcls : minClass i = 2) : Plain i := by
  obtain rfl : e = presentForm h isSub ba sb := funext he
  refine plain_of_spares (e := presentForm h isSub ba sb) hi hexec (fun _ => by rw [hcls]; rfl) fun _ x t => ?_
  split
  next herr => exact spares_failed (presentErr_code herr)
  · simp

theorem plain_lfStat (pkg : Bool) : Plain (.lfStat h pkg sd b) := by
  refine plain_of_spares (e := execLfStat h pkg sd b) rfl rfl (fun _ => rfl) fun _ x t => ?_
  dsimp only
  split
  · exact spares_failed (by decide)
  · simp

end

/-! ### Tasks, energy and maps -/

section
variable (h : Hdr) (sd ba n : Nat) (b : Opnd)

theorem plain_taskSpawn : Plain (.taskSpawn h sd ba) := by
  refine plain_of_spares (e := execTaskSpawn h sd ba) rfl rfl (fun _ => rfl) fun _ x t => ?_
  split
  next hrec => exact spares_found (sysRecord_code hrec)
  · simp

theorem plain_taskSignal : Plain (.taskSignal h ba) := by
  refine plain_of_spares (e := execTaskSignal h ba) rfl rfl (fun _ => rfl) fun _ x t => ?_
  split
  next hrec => exact spares_found (sysRecord_code hrec)
  · dsimp only
    rw [spares_ok]
    split
    · rw [decPreds_budgets]
      split
      · split <;> simp
      · rfl
    · rfl

theorem plain_taskCollect : Plain (.taskCollect h ba b) := by
  refine plain_of_spares (e := execTaskCollect h ba b) rfl rfl (fun _ => rfl) fun _ x t => ?_
  split
  next hrec => exact spares_found (sysRecord_code hrec)
  · split
    · exact spares_failed (by decide)
    · dsimp only
      split
      · rfl
      · rw [spares_ok]
        exact (devWriteN_budgets _ _ _ _ _).trans (logRel_budgets t x _ _ _)

theorem plain_taskCheck : Plain (.taskCheck h sd ba) := by
  refine plain_of_spares (e := execTaskCheck h sd ba) rfl rfl (fun _ => rfl) fun _ x t => ?_
  split
  next hrec => exact spares_found (sysRecord_code hrec)
  · dsimp only
    split <;> simp

theorem plain_taskMigrate : Plain (.taskMigrate h b) := by
  refine plain_of_spares (e := execTaskMigrate h b) rfl rfl (fun _ => rfl) fun _ x t => ?_
  dsimp only
  split
  · exact spares_failed (by decide)
  · split <;> rfl

theorem thrifty_ite {s : State} {c : Prop} [Decidable c] {r r' : Res} (hr : r.Thrifty s) (hr' : r'.Thrifty s) :
    (if c then r else r').Thrifty s := by
  split
  · exact hr
  · exact hr'

theorem plain_ebudWait : Plain (.ebudWait h b) := by
  refine plain_of_thrifty (e := execEbudWait h b) rfl rfl (fun _ => rfl) fun _ x t => ?_
  refine thrifty_ite (thrifty_failed (by decide)) (thrifty_ite ?_ (thrifty_ite ?_ ?_))
  · exact sameAmounts_of_budgets rfl
  · exact SameAmounts.rfl' t
  · exact joinList_amounts t _ _ _ _

theorem plain_ebudCap : Plain (.ebudCap h b) :=
  plain_of_spares (e := execEbudCap h b) rfl rfl (fun _ => rfl) fun _ _ _ => rfl

theorem plain_perfRd : Plain (.perfRd h sd n) :=
  plain_of_spares (e := execPerfRd h sd n) rfl rfl (fun _ => rfl) fun _ _ _ => rfl

theorem plain_perfClr : Plain (.perfClr h) :=
  plain_of_spares (e := execPerfClr h) rfl rfl (fun _ => rfl) fun _ _ _ => rfl

theorem plain_rmap {i : Instr} {e : State → Out} {v : Bool} (hi : i.hdr = some h) (hexec : exec i = e)
    (he : ∀ s, e s = rmapForm h ba b v s) (hcls : minClass i = 2) : Plain i := by
  obtain rfl : e = rmapForm h ba b v := funext he
  refine plain_of_spares (e := rmapForm h ba b v) hi hexec (fun _ => by rw [hcls]; rfl) fun _ x t => ?_
  dsimp only
  split
  next herr => exact spares_failed (recCheck_code herr)
  · split
    · exact spares_found (by simp)
    · split
      next f hline =>
        refine spares_found (?_ : f.code ≠ 1)
        refine lineFault_code (fun e he => ?_) hline
        obtain ⟨a, hmem, ha⟩ := List.mem_filterMap.1 he
        obtain ⟨c, -, rfl⟩ := List.mem_map.1 hmem
        dsimp only at ha
        split at ha
        next htr =>
          cases ha
          exact translate_code_ne htr
        · cases ha
      · split
        · exact peerWait_spares t x _
        · rw [spares_ok]
          exact (foldl_budgets _ _ (fun s g => rmapOne_budgets s _ _ _ _ _) _).trans (logEvs_budgets t _)

theorem plain_rmapBump : Plain (.rmapBump h) := by
  refine plain_of_spares (e := execRmapBump h) rfl rfl (fun _ => rfl) fun _ x t => ?_
  simp

end

end Sys2Proof.Machine

end

section

namespace Sys2Proof.Machine

/-- The instructions whose meaning is more than plain: the join, the privileged ones, and the atomics with their register rule. -/
def Special : Instr → Bool
  | .join .. | .csrRd .. | .csrWr .. | .tret .. | .halt .. | .atom .. | .red .. | .cas .. => true
  | _ => false

/-- Every other instruction that issues is plain. -/
theorem plain_of_hdr {i : Instr} (hi : i.hdr.isSome = true) (hspecial : Special i = false) : Plain i := by
  cases i with
  | nop => exact plain_nop ..
  | mov => exact plain_mov ..
  | movw h ty d w => exact plain_alu (e := execMovw h ty d w) rfl rfl (fun _ => rfl) rfl
  | sel h ty ps neg d a b => exact plain_alu (e := execSel h ty ps neg d a b) rfl rfl (fun _ => rfl) rfl
  | iadd h ty sat ci co cp d a b =>
    exact plain_add _ _ _ _ _ _ _ _ _ _ (e := execIadd h ty sat ci co cp d a b) rfl rfl (fun _ => rfl) rfl
  | isub h ty sat ci co cp d a b =>
    exact plain_add _ _ _ _ _ _ _ _ _ _ (e := execIsub h ty sat ci co cp d a b) rfl rfl (fun _ => rfl) rfl
  | imul h ty d a b => exact plain_alu2 (e := execImul h ty d a b) rfl rfl (fun _ => rfl) rfl
  | imulh h ty d a b => exact plain_alu2 (e := execImulh h ty d a b) rfl rfl (fun _ => rfl) rfl
  | imad h ty d a b => exact plain_alu3 (e := execImad h ty d a b) rfl rfl (fun _ => rfl) rfl
  | idiv h ty d a b => exact plain_alu2 (e := execIdiv h ty d a b) rfl rfl (fun _ => rfl) rfl
  | idivRem h ty d a b => exact plain_alu2 (e := execIdivRem h ty d a b) rfl rfl (fun _ => rfl) rfl
  | imin h ty d a b => exact plain_alu2 (e := execImin h ty d a b) rfl rfl (fun _ => rfl) rfl
  | imax h ty d a b => exact plain_alu2 (e := execImax h ty d a b) rfl rfl (fun _ => rfl) rfl
  | iabs h ty d a => exact plain_alu1 (e := execIabs h ty d a) rfl rfl (fun _ => rfl) rfl
  | ineg h ty d a => exact plain_alu1 (e := execIneg h ty d a) rfl rfl (fun _ => rfl) rfl
  | and h ty d a b => exact plain_alu2 (e := execAnd h ty d a b) rfl rfl (fun _ => rfl) rfl
  | or h ty d a b => exact plain_alu2 (e := execOr h ty d a b) rfl rfl (fun _ => rfl) rfl
  | xor h ty d a b => exact plain_alu2 (e := execXor h ty d a b) rfl rfl (fun _ => rfl) rfl
  | not h ty d a => exact plain_alu1 (e := execNot h ty d a) rfl rfl (fun _ => rfl) rfl
  | shl h ty d a b => exact plain_alu2 (e := execShl h ty d a b) rfl rfl (fun _ => rfl) rfl
  | shr h ty d a b => exact plain_alu2 (e := execShr h ty d a b) rfl rfl (fun _ => rfl) rfl
  | rot h ty d a b => exact plain_alu2 (e := execRot h ty d a b) rfl rfl (fun _ => rfl) rfl
  | bfx h ty d a b => exact plain_alu2 (e := execBfx h ty d a b) rfl rfl (fun _ => rfl) rfl
  | bfi h ty d a b => exact plain_alu3 (e := execBfi h ty d a b) rfl rfl (fun _ => rfl) rfl
  | popc h ty d a => exact plain_alu1 (e := execPopc h ty d a) rfl rfl (fun _ => rfl) rfl
  | clz h ty d a => exact plain_alu1 (e := execClz h ty d a) rfl rfl (fun _ => rfl) rfl
  | brev h ty d a => exact plain_alu1 (e := execBrev h ty d a) rfl rfl (fun _ => rfl) rfl
  | icmp h ty c pd a b => exact plain_alu (e := execIcmp h ty c pd a b) rfl rfl (fun _ => rfl) rfl
  | lea h ty sh d a b => exact plain_alu2 (e := execLea h ty sh d a b) rfl rfl (fun _ => rfl) rfl
  | movs => exact plain_movs ..
  | movx => exact plain_movx ..
  | shfl => exact plain_shfl ..
  | ired => exact plain_ired ..
  | fadd h ft rm d a b => exact plain_flt2 (e := execFadd h ft rm d a b) rfl rfl (fun _ => rfl) rfl
  | fsub h ft rm d a b => exact plain_flt2 (e := execFsub h ft rm d a b) rfl rfl (fun _ => rfl) rfl
  | fmul h ft rm d a b => exact plain_flt2 (e := execFmul h ft rm d a b) rfl rfl (fun _ => rfl) rfl
  | ffma h ft rm d a b => exact plain_alu (e := execFfma h ft rm d a b) rfl rfl (fun _ => rfl) rfl
  | fmin h ft d a b => exact plain_flt2 (e := execFmin h ft d a b) rfl rfl (fun _ => rfl) rfl
  | fmax h ft d a b => exact plain_flt2 (e := execFmax h ft d a b) rfl rfl (fun _ => rfl) rfl
  | fcmp h ft c pd a b => exact plain_alu (e := execFcmp h ft c pd a b) rfl rfl (fun _ => rfl) rfl
  | frnd h ft rm d a => exact plain_flt1 (e := execFrnd h ft rm d a) rfl rfl (fun _ => rfl) rfl
  | fdiv h d a b => exact plain_aluLater (e := execFdiv h d a b) rfl rfl (fun _ => rfl) rfl
  | fsqrt h d a => exact plain_sfu (e := execFsqrt h d a) rfl rfl (fun _ => rfl) rfl
  | frcp h d a => exact plain_sfu (e := execFrcp h d a) rfl rfl (fun _ => rfl) rfl
  | frsq h d a => exact plain_sfu (e := execFrsq h d a) rfl rfl (fun _ => rfl) rfl
  | fex2 h d a => exact plain_sfu (e := execFex2 h d a) rfl rfl (fun _ => rfl) rfl
  | flg2 h d a => exact plain_sfu (e := execFlg2 h d a) rfl rfl (fun _ => rfl) rfl
  | fsin h d a => exact plain_sfu (e := execFsin h d a) rfl rfl (fun _ => rfl) rfl
  | fcos h d a => exact plain_sfu (e := execFcos h d a) rfl rfl (fun _ => rfl) rfl
  | hfma2 h ft rm d a b => exact plain_packed (e := execHfma2 h ft rm d a b) rfl rfl (fun _ => rfl) rfl
  | hadd2 h ft rm d a b => exact plain_packed (e := execHadd2 h ft rm d a b) rfl rfl (fun _ => rfl) rfl
  | hmul2 h ft rm d a b => exact plain_packed (e := execHmul2 h ft rm d a b) rfl rfl (fun _ => rfl) rfl
  | f2i h ity ft rm d a => exact plain_alu (e := execF2i h ity ft rm d a) rfl rfl (fun _ => rfl) rfl
  | i2f h ft ity rm d a => exact plain_alu (e := execI2f h ft ity rm d a) rfl rfl (fun _ => rfl) rfl
  | fcvt => exact plain_fcvt ..
  | dxpk => exact plain_dxpk ..
  | dxunpk => exact plain_dxunpk ..
  | fclass h ft d a => exact plain_flt1 (e := execFclass h ft d a) rfl rfl (fun _ => rfl) rfl
  | fscale h ft rm d a b => exact plain_alu (e := execFscale h ft rm d a b) rfl rfl (fun _ => rfl) rfl
  | fred => exact plain_fred ..
  | plop h lut pd pa pb => exact plain_alu (e := execPlop h lut pd pa pb) rfl rfl (fun _ => rfl) rfl
  | voteAny h pd pa => exact plain_vote _ _ _ (e := execVoteAny h pd pa) rfl rfl (fun _ => rfl) rfl
  | voteAll h pd pa => exact plain_vote _ _ _ (e := execVoteAll h pd pa) rfl rfl (fun _ => rfl) rfl
  | voteUni h pd pa => exact plain_vote _ _ _ (e := execVoteUni h pd pa) rfl rfl (fun _ => rfl) rfl
  | voteBallot => exact plain_voteBallot ..
  | pmaskGet h sd pa => exact plain_alu (e := execPmaskGet h sd pa) rfl rfl (fun _ => rfl) rfl
  | pmaskSet h pd a => exact plain_alu (e := execPmaskSet h pd a) rfl rfl (fun _ => rfl) rfl
  | flagsTest h pd mask => exact plain_alu (e := execFlagsTest h pd mask) rfl rfl (fun _ => rfl) rfl
  | flagsClr => exact plain_flagsClr ..
  | bra => exact plain_bra ..
  | brx => exact plain_brx ..
  | call => exact plain_call ..
  | ret => exact plain_ret ..
  | yield => exact plain_yield ..
  | setpri => exact plain_setpri ..
  | exit => exact plain_exit ..
  | brdec => exact plain_brdec ..
  | ovlj => exact plain_ovlj ..
  | bkpt => exact plain_bkpt ..
  | trap => exact plain_trap ..
  | waitc => exact plain_waitc ..
  | waitcRel => exact plain_waitcRel ..
  | ld h size ord sc vd ba b => exact plain_load _ _ _ _ _ _ _ (e := execLd h size ord sc vd ba b) rfl rfl (fun _ => rfl) rfl
  | st h size ord sc vd ba b => exact plain_store _ _ _ _ _ _ _ (e := execSt h size ord sc vd ba b) rfl rfl (fun _ => rfl) rfl
  | lds h size ord sc vd ba b => exact plain_load _ _ _ _ _ _ _ (e := execLds h size ord sc vd ba b) rfl rfl (fun _ => rfl) rfl
  | sts h size ord sc vd ba b => exact plain_store _ _ _ _ _ _ _ (e := execSts h size ord sc vd ba b) rfl rfl (fun _ => rfl) rfl
  | ldr h size ord sc vd ba b => exact plain_load _ _ _ _ _ _ _ (e := execLdr h size ord sc vd ba b) rfl rfl (fun _ => rfl) rfl
  | str h size ord sc vd ba b => exact plain_store _ _ _ _ _ _ _ (e := execStr h size ord sc vd ba b) rfl rfl (fun _ => rfl) rfl
  | ldu => exact plain_ldu ..
  | recld => exact plain_recld ..
  | recldRange => exact plain_recldRange ..
  | recldScr => exact plain_recldScr ..
  | recldTile => exact plain_recldTile ..
  | recsetOff h bd b =>
    exact plain_recset _ _ _ (fun _ => recOff) (fun _ => recOff_sound) (e := execRecsetOff h bd b) rfl rfl (fun _ => rfl) rfl
  | recsetExt0 h bd b =>
    exact plain_recset _ _ _ (fun _ => recExt0Set) (fun _ => recExt0Set_sound)
      (e := execRecsetExt0 h bd b) rfl rfl (fun _ => rfl) rfl
  | recsetExt1 h bd b =>
    exact plain_recset _ _ _ (fun _ => recExt1Set) (fun _ => recExt1Set_sound)
      (e := execRecsetExt1 h bd b) rfl rfl (fun _ => rfl) rfl
  | recsetRow h bd b =>
    exact plain_recset _ _ _ (fun _ => recRow) (fun _ => recRow_sound) (e := execRecsetRow h bd b) rfl rfl (fun _ => rfl) rfl
  | recsetShape h bd b =>
    exact plain_recset _ _ _ (fun _ => recShapeSet) (fun _ => recShapeSet_sound)
      (e := execRecsetShape h bd b) rfl rfl (fun _ => rfl) rfl
  | recsetEsize h bd b =>
    exact plain_recset _ _ _ (fun s r n => recEsizeSet r n (Config.openValue 0 s.ctr)) (fun s r n => recEsizeSet_sound r n _)
      (e := execRecsetEsize h bd b) rfl rfl (fun _ => rfl) rfl
  | recsetBmode h bd b =>
    exact plain_recset _ _ _ (fun _ => recBmodeSet) (fun _ => recBmodeSet_sound)
      (e := execRecsetBmode h bd b) rfl rfl (fun _ => rfl) rfl
  | recsetSwz h bd b =>
    exact plain_recset _ _ _ (fun _ => recSwzSet) (fun _ => recSwzSet_sound)
      (e := execRecsetSwz h bd b) rfl rfl (fun _ => rfl) rfl
  | recsetXv h bd b =>
    exact plain_recset _ _ _ (fun _ => recXvSet) (fun _ => recXvSet_sound) (e := execRecsetXv h bd b) rfl rfl (fun _ => rfl) rfl
  | recsetRo h bd =>
    exact plain_recset _ _ (.imm 0) (fun _ r _ => recRo r) (fun _ r _ => recRo_sound r)
      (e := execRecsetRo h bd) rfl rfl (fun _ => rfl) rfl
  | recsetTgt h bd b =>
    exact plain_recset _ _ _ (fun _ => recTgt) (fun _ => recTgt_sound) (e := execRecsetTgt h bd b) rfl rfl (fun _ => rfl) rfl
  | recsetAlias h bd b =>
    exact plain_recset _ _ _ (fun _ r _ => recAliasSet r) (fun _ r _ => recAliasSet_sound r)
      (e := execRecsetAlias h bd b) rfl rfl (fun _ => rfl) rfl
  | lld => exact plain_lld ..
  | lodq => exact plain_lodq ..
  | fbput => exact plain_fbput ..
  | tld => exact plain_tld ..
  | tst => exact plain_tst ..
  | descrd => exact plain_descrd ..
  | descwr => exact plain_descwr ..
  | prefDc h ba b => exact plain_hint _ _ _ fillDc_budgets (e := execPrefDc h ba b) rfl rfl (fun _ => rfl) rfl
  | prefXl h ba b => exact plain_hint _ _ _ keepXl_budgets (e := execPrefXl h ba b) rfl rfl (fun _ => rfl) rfl
  | cwbWb h ba b => exact plain_hint _ _ _ backDc_budgets (e := execCwbWb h ba b) rfl rfl (fun _ => rfl) rfl
  | cwbWbi h ba b => exact plain_hint _ _ _ dropDc_budgets (e := execCwbWbi h ba b) rfl rfl (fun _ => rfl) rfl
  | fence => exact plain_fence ..
  | fencex => exact plain_fencex ..
  | barArm => exact plain_barArm ..
  | barArv => exact plain_barArv ..
  | barWait => exact plain_barWait ..
  | barSync => exact plain_barSync ..
  | awSet => exact plain_awSet ..
  | awWait => exact plain_awWait ..
  | qInit => exact plain_qInit ..
  | qPush => exact plain_qPush ..
  | qPop => exact plain_qPop ..
  | qClose => exact plain_qClose ..
  | cpy h bd ba b => exact plain_copy _ _ _ (e := execCpy h bd ba b) rfl rfl (fun _ => rfl) rfl
  | cpyg h d ba b => exact plain_copy _ _ _ (e := execCpyg h d ba b) rfl rfl (fun _ => rfl) rfl
  | cpyp h d ba b => exact plain_copy _ _ _ (e := execCpyp h d ba b) rfl rfl (fun _ => rfl) rfl
  | cpys h od ba b => exact plain_copy _ _ _ (e := execCpys h od ba b) rfl rfl (fun _ => rfl) rfl
  | cpysCb h od ba b => exact plain_copy _ _ _ (e := execCpysCb h od ba b) rfl rfl (fun _ => rfl) rfl
  | cpysZb h od ba b => exact plain_copy _ _ _ (e := execCpysZb h od ba b) rfl rfl (fun _ => rfl) rfl
  | cpyl h d ba sb => exact plain_copy _ _ _ (e := execCpyl h d ba sb) rfl rfl (fun _ => rfl) rfl
  | ovlLd => exact plain_ovlLd ..
  | cpyStat => exact plain_cpyStat ..
  | cpyCancel => exact plain_cpyCancel ..
  | slotClaim h sd b => exact plain_claim _ _ _ (e := execSlotClaim h sd b) rfl rfl (fun _ => rfl) rfl
  | slotClaimAt h sd b => exact plain_claim _ _ _ (e := execSlotClaimAt h sd b) rfl rfl (fun _ => rfl) rfl
  | slotFree => exact plain_slotFree ..
  | slotInfoGet => exact plain_slotInfoGet ..
  | slotInfoExt => exact plain_slotInfoExt ..
  | slotInfoAcc => exact plain_slotInfoAcc ..
  | mma => exact plain_mma ..
  | mmStage => exact plain_mmStage ..
  | accZero => exact plain_accZero ..
  | accZeroFlg => exact plain_accZeroFlg ..
  | drain => exact plain_drain ..
  | accLd => exact plain_accLd ..
  | accSt => exact plain_accSt ..
  | gmv => exact plain_gmv ..
  | mmWait => exact plain_mmWait ..
  | lfSetup => exact plain_lfSetup ..
  | lfSpan => exact plain_lfSpan ..
  | lfZtest => exact plain_lfZtest ..
  | lfVsplit => exact plain_lfVsplit ..
  | lfInterp => exact plain_lfInterp ..
  | lfWrite h imk a vb => exact plain_write _ _ _ (e := execLfWrite h imk a vb) rfl rfl (fun _ => rfl) rfl
  | lfWriteInc h imk va vb => exact plain_write _ _ _ (e := execLfWriteInc h imk va vb) rfl rfl (fun _ => rfl) rfl
  | lfVis h imk a vb => exact plain_write _ _ _ (e := execLfVis h imk a vb) rfl rfl (fun _ => rfl) rfl
  | lfRate => exact plain_lfRate ..
  | lfViews => exact plain_lfViews ..
  | lfViewsV => exact plain_lfViewsV ..
  | lfRepro h bd ba sb => exact plain_frame _ _ (e := execLfRepro h bd ba sb) rfl rfl (fun _ => rfl) rfl
  | lfResolve h bd ba sb => exact plain_frame _ _ (e := execLfResolve h bd ba sb) rfl rfl (fun _ => rfl) rfl
  | lfPresentArm => exact plain_lfPresentArm ..
  | lfPresentCommit h ba sb => exact plain_present _ _ _ (e := execLfPresentCommit h ba sb) rfl rfl (fun _ => rfl) rfl
  | lfPresentSub h ba sb => exact plain_present _ _ _ (e := execLfPresentSub h ba sb) rfl rfl (fun _ => rfl) rfl
  | lfStat => exact plain_lfStat ..
  | taskSpawn => exact plain_taskSpawn ..
  | taskSignal => exact plain_taskSignal ..
  | taskCollect => exact plain_taskCollect ..
  | taskCheck => exact plain_taskCheck ..
  | taskMigrate => exact plain_taskMigrate ..
  | ebudWait => exact plain_ebudWait ..
  | ebudCap => exact plain_ebudCap ..
  | perfRd => exact plain_perfRd ..
  | perfClr => exact plain_perfClr ..
  | rmapSet h ba b => exact plain_rmap _ _ _ (e := execRmapSet h ba b) rfl rfl (fun _ => rfl) rfl
  | rmapClr h ba b => exact plain_rmap _ _ _ (e := execRmapClr h ba b) rfl rfl (fun _ => rfl) rfl
  | rmapBump => exact plain_rmapBump ..
  | join | csrRd | csrWr | tret | halt | atom | red | cas => exact nomatch hspecial
  | _ => exact nomatch hi

end Sys2Proof.Machine

end

section

namespace Sys2Proof.Machine

/-! ### The register rule of the atomics -/

/-- The rule of R218 for the registers of D, when an atomic looks at it: without an active thread, or behind the record's checks. -/
def KeepsRegRule (r : Rec) (act : Mask) (fp : Bool) (k vd regs : Nat) : Prop :=
  act = 0 ∨ (recCheck r [0] [0, 1] = none ∧ (recEsize r = 2 ∨ fp = false)) → recEsize r = 2 ∨ recEsize r = 3 →
    vd % (k * (recE r / 4)) = 0 ∧ vd + k * (recE r / 4) ≤ regs

theorem atomFp_eq (op : AtomOp) : rmwOf.floats op = atomFp op := by cases op <;> rfl

theorem obeysRegs_iff {s : State} {q : Squad} {act : Mask} {i : Instr} {h : Hdr} {fp g : Bool} {k ba vd : Nat} {b : Opnd}
    {f : Nat → Nat → Nat → Option Nat} (hi : rmwOf q i = some (h, fp, k, g, ba, b, vd, f)) :
    obeysRegs s q act i ↔ KeepsRegRule (rdB q ba) act fp k vd (limOf s q).regs := by
  constructor
  · intro ho
    exact ho h fp k g ba b vd f hi
  · intro hk h' fp' k' g' ba' b' vd' f' hi'
    rw [hi] at hi'
    cases hi'
    exact hk

/-- An instruction that is no atomic has no register rule to break. -/
theorem obeysRegs_of_plain {s : State} {q : Squad} {act : Mask} {i : Instr} (hi : rmwOf q i = none) : obeysRegs s q act i := by
  intro h fp k g ba b vd f hf
  rw [hi] at hf
  cases hf

/-- The element takes one or two registers exactly when its size is 4 or 8 bytes. -/
theorem recE_words (r : Rec) : (recE r / 4 = 1 ↔ recEsize r = 2) ∧ (recE r / 4 = 2 ↔ recEsize r = 3) := by
  have hlt : recEsize r < 16 := Nat.mod_lt _ (by decide)
  unfold recE
  generalize recEsize r = n at hlt
  interval_cases n <;> decide

theorem dRule_none_iff (r : Rec) (k vd regs : Nat) : dRule (recE r / 4) k vd regs = none ↔
    (recEsize r = 2 ∨ recEsize r = 3 → vd % (k * (recE r / 4)) = 0 ∧ vd + k * (recE r / 4) ≤ regs) := by
  rw [← (recE_words r).1, ← (recE_words r).2]
  generalize recE r / 4 = w
  unfold dRule
  by_cases hw : w = 1 ∨ w = 2
  · rw [if_neg (by omega)]
    by_cases hmod : vd % (k * w) = 0
    · by_cases hle : vd + k * w ≤ regs
      · simp [hmod, hle]
      · rw [if_neg (by simpa using hmod), if_pos (by omega)]
        simp only [reduceCtorEq, false_iff]
        exact fun hall => hle (hall hw).2
    · rw [if_pos hmod]
      simp only [reduceCtorEq, false_iff]
      exact fun hall => hmod (hall hw).1
  · rw [if_pos (by omega)]
    exact ⟨fun _ h => absurd h hw, fun _ => rfl⟩

theorem keepsRegRule_of_none {r : Rec} {act : Mask} {fp : Bool} {k vd regs : Nat} (h : dRule (recE r / 4) k vd regs = none) :
    KeepsRegRule r act fp k vd regs := fun _ => (dRule_none_iff r k vd regs).1 h

theorem not_keepsRegRule {r : Rec} {act : Mask} {fp : Bool} {k vd regs n : Nat} (h : dRule (recE r / 4) k vd regs = some n)
    (hlooks : act = 0 ∨ (recCheck r [0] [0, 1] = none ∧ (recEsize r = 2 ∨ fp = false))) :
    ¬ KeepsRegRule r act fp k vd regs := fun hk => by
  have hnone := (dRule_none_iff r k vd regs).2 (hk hlooks)
  rw [h] at hnone
  cases hnone

/-- A fault before the register rule is looked at: the rule does not apply. -/
theorem keepsRegRule_of_unlooked {r : Rec} {act : Mask} {fp : Bool} {k vd regs : Nat} (hact : act ≠ 0)
    (hno : ¬ (recCheck r [0] [0, 1] = none ∧ (recEsize r = 2 ∨ fp = false))) : KeepsRegRule r act fp k vd regs :=
  fun hlooks => absurd hlooks (not_or.2 ⟨hact, hno⟩)

/-- The meaning answers the ILL of the register rule where the rule is broken; elsewhere it takes no energy beyond its debit. -/
def Ruled (i : Instr) (body : Iss → State → Res) : Prop :=
  ∀ x s, (obeysRegs s x.q x.act i → (body x s).Thrifty s) ∧ (¬ obeysRegs s x.q x.act i → ∃ n, body x s = failI s x 1 n)

theorem ruled_of_thrifty {i : Instr} {body : Iss → State → Res} (hi : ∀ q, rmwOf q i = none) (h : ∀ x s, (body x s).Thrifty s) :
    Ruled i body :=
  fun x s => ⟨fun _ => h x s, fun hno => absurd (obeysRegs_of_plain (hi x.q)) hno⟩

theorem Res.Idle.thrifty {s : State} {r : Res} (h : r.Idle s) : r.Thrifty s := by
  obtain ⟨t, rfl, ht, -⟩ := h
  exact sameAmounts_of_budgets (by rw [ht])

/-- Without an active thread the meaning does nothing, where the register rule is kept. -/
def IdleWhenOff (i : Instr) (body : Iss → State → Res) : Prop :=
  ∀ x s q1, obeysRegs s x.q 0 i → x.act = 0 → squadOf s x.id = some q1 → q1.pend = [] → (body x s).Idle s

section
variable {i : Instr} {h : Hdr} {so : AtomOrd} {fp writes : Bool} {k vd ba : Nat} {b : Opnd} {f : Squad → Nat → Rmw}
  {e : State → Out}

/-- An atomic: the issue of a meaning that is ruled, and idle without an active thread. -/
theorem atomForm_ruled (hexec : exec i = e) (he : ∀ s, e s = atomForm h so fp k writes vd ba b f s) (hcls : minClass i = 3)
    (hrule : ∀ s q act, obeysRegs s q act i ↔ KeepsRegRule (rdB q ba) act fp k vd (limOf s q).regs) (s : State) :
    ∃ occ body, exec i s = issue h (minClass i) occ s body ∧ Ruled i body ∧ IdleWhenOff i body := by
  rw [hexec, hcls, he]
  refine ⟨_, _, rfl, fun x t => ?_, fun x t q1 ho hact _ _ => ?_⟩
  · rw [hrule]
    dsimp only
    generalize hr : rdB x.q ba = r
    by_cases hact : x.act = 0
    · rw [if_pos hact]
      split
      next n hill => exact ⟨fun hk => absurd hk (not_keepsRegRule hill (Or.inl hact)), fun _ => ⟨n, rfl⟩⟩
      next hill => exact ⟨fun _ => (idle_same t).thrifty, fun hno => absurd (keepsRegRule_of_none hill) hno⟩
    · rw [if_neg hact]
      split
      next e herr =>
        refine ⟨fun _ => thrifty_failed (recCheck_code herr), fun hno => absurd (keepsRegRule_of_unlooked hact ?_) hno⟩
        rw [herr]
        exact fun hboth => nomatch hboth.1
      next hok =>
        split
        next hsize =>
          refine ⟨fun _ => thrifty_failed (by decide), fun hno => absurd (fun hlooks hsz => ?_) hno⟩
          obtain ⟨-, hlooks⟩ := hlooks.resolve_left hact
          rcases hlooks with hlooks | hlooks
          · simp [hlooks] at hsize
          · rcases hsz with hsz | hsz <;> simp [hlooks, hsz] at hsize
        next hsize =>
          have hlooks : recEsize r = 2 ∨ fp = false := by
            cases fp
            · exact Or.inr rfl
            · refine Or.inl ?_
              simp at hsize
              omega
          split
          next n hill => exact ⟨fun hk => absurd hk (not_keepsRegRule hill (Or.inr ⟨hok, hlooks⟩)), fun _ => ⟨n, rfl⟩⟩
          next hill =>
            refine ⟨fun _ => (?_ : Res.Spares t _).thrifty, fun hno =>
              absurd (keepsRegRule_of_none (Option.eq_none_iff_forall_ne_some.2 hill)) hno⟩
            split
            next hplan => exact spares_found (plan_code hplan)
            · split
              · exact peerWait_spares t x _
              · split
                · exact (atomAll_budgets x _ _ _ _ _ _).trans (cacheAll_budgets t x r _)
                · split
                  · refine ⟨?_, by simp [faultOf, mkFaultAt]⟩
                    split <;> exact (atomAll_budgets x _ _ _ _ _ _).trans (cacheAll_budgets t x r _)
                  · exact (putLater_budgets _ _ _ _).trans ((atomAll_budgets x _ _ _ _ _ _).trans (cacheAll_budgets t x r _))
  · rw [hrule] at ho
    have hnone := (dRule_none_iff (rdB x.q ba) k vd (limOf t x.q).regs).2 (ho (Or.inl rfl))
    dsimp only
    rw [if_pos hact, hnone]
    exact idle_same t

end

/-- An atomic issues a ruled meaning, which is idle without an active thread. -/
def RuledAtomic (i : Instr) (h : Hdr) : Prop :=
  ∀ s, ∃ occ body, exec i s = issue h (minClass i) occ s body ∧ Ruled i body ∧ IdleWhenOff i body

section
variable (h : Hdr) (so : AtomOrd) (op : AtomOp) (vd ba : Nat) (b : Opnd)

theorem ruledAtomic_atom : RuledAtomic (.atom h so op vd ba b) h := by
  refine atomForm_ruled (e := execAtom h so op vd ba b) rfl (fun _ => rfl) rfl fun s q act => ?_
  rw [← atomFp_eq]
  exact obeysRegs_iff rfl

theorem ruledAtomic_red : RuledAtomic (.red h so op vd ba b) h := by
  refine atomForm_ruled (e := execRed h so op vd ba b) rfl (fun _ => rfl) rfl fun s q act => ?_
  rw [← atomFp_eq]
  exact obeysRegs_iff rfl

theorem ruledAtomic_cas : RuledAtomic (.cas h so vd ba b) h :=
  atomForm_ruled (e := execCas h so vd ba b) rfl (fun _ => rfl) rfl fun _ _ _ => obeysRegs_iff rfl

end

/-! ### Every instruction that issues -/

/-- An instruction is the issue of a ruled meaning, at its minimum class. -/
def Issuing (i : Instr) (h : Hdr) : Prop := ∀ s, ∃ occ body, exec i s = issue h (minClass i) occ s body ∧ Ruled i body

theorem rmwOf_of_not_special {i : Instr} (h : Special i = false) (q : Squad) : rmwOf q i = none := by
  unfold rmwOf
  split
  · exact nomatch h
  · exact nomatch h
  · exact nomatch h
  · rfl

theorem RuledAtomic.issuing {i : Instr} {h : Hdr} (ha : RuledAtomic i h) : Issuing i h := fun s => by
  obtain ⟨occ, body, hexec, hruled, -⟩ := ha s
  exact ⟨occ, body, hexec, hruled⟩

theorem issuing_of_plain {i : Instr} {h : Hdr} (hi : i.hdr = some h) (hrmw : ∀ q, rmwOf q i = none) (hp : Plain i) :
    Issuing i h := by
  obtain ⟨h', hi', hexec⟩ := hp
  rw [hi] at hi'
  cases hi'
  intro s
  obtain ⟨occ, body, heq, hmean⟩ := hexec s
  exact ⟨occ, body, heq, ruled_of_thrifty hrmw hmean.thrifty⟩

/-- A privileged instruction whose own meaning takes no energy. -/
theorem issuing_of_privileged {i : Instr} {h : Hdr} {e : State → Out} {rest : Iss → State → Res} (hrmw : ∀ q, rmwOf q i = none)
    (hexec : exec i = e) (he : ∀ s, e s = privForm h (minClass i) s rest) (hrest : ∀ x s, (rest x s).Thrifty s) : Issuing i h := by
  intro s
  refine ⟨_, _, (congrFun hexec s).trans (he s), ruled_of_thrifty hrmw fun x t => ?_⟩
  split
  · exact thrifty_failed (e := (2, 0)) (by decide)
  · split
    · exact .rfl' t
    · exact hrest x t

/-- Every instruction with a header issues a ruled meaning. -/
theorem issuing_of_hdr {i : Instr} {h : Hdr} (hi : i.hdr = some h) : Issuing i h := by
  cases hspecial : Special i with
  | false =>
    exact issuing_of_plain hi (rmwOf_of_not_special hspecial) (plain_of_hdr (by rw [hi]; rfl) hspecial)
  | true =>
    cases i with
    | join h' =>
      cases hi
      exact fun s => ⟨_, _, rfl, ruled_of_thrifty (fun _ => rfl) fun x t => joinStep_thrifty t x⟩
    | csrRd h' sd id =>
      cases hi
      refine issuing_of_privileged (e := execCsrRd h sd id) (fun _ => rfl) rfl (fun _ => rfl) fun x t => ?_
      exact sameAmounts_of_budgets (putLater_budgets _ _ _ _)
    | csrWr h' id a =>
      cases hi
      refine issuing_of_privileged (e := execCsrWr h id a) (fun _ => rfl) rfl (fun _ => rfl) fun x t => ?_
      dsimp only
      split
      · exact sameAmounts_of_budgets rfl
      · split <;> exact sameAmounts_of_budgets rfl
    | tret h' =>
      cases hi
      refine issuing_of_privileged (e := execTret h) (fun _ => rfl) rfl (fun _ => rfl) fun x t => ?_
      split
      · exact thrifty_failed (e := (2, 1)) (by decide)
      · exact sameAmounts_of_budgets rfl
    | halt h' b =>
      cases hi
      refine issuing_of_privileged (e := execHalt h b) (fun _ => rfl) rfl (fun _ => rfl) fun x t => ?_
      dsimp only
      split
      · exact endSquads_amounts t _
      · exact sameAmounts_of_budgets rfl
    | atom h' so op vd ba b =>
      cases hi
      exact (ruledAtomic_atom h so op vd ba b).issuing
    | red h' so op vd ba b =>
      cases hi
      exact (ruledAtomic_red h so op vd ba b).issuing
    | cas h' so vd ba b =>
      cases hi
      exact (ruledAtomic_cas h so vd ba b).issuing
    | _ => exact nomatch hspecial

/-- The instructions that look at more than the guard before they do anything. -/
def Unguarded : Instr → Bool
  | .join .. | .csrRd .. | .csrWr .. | .tret .. | .halt .. => true
  | _ => false

/-- Every other instruction does nothing without an active thread. -/
theorem idle_of_hdr {i : Instr} {h : Hdr} (hi : i.hdr = some h) (hun : Unguarded i = false) (s : State) :
    ∃ occ body, exec i s = issue h (minClass i) occ s body ∧ IdleWhenOff i body := by
  cases hspecial : Special i with
  | false =>
    obtain ⟨h', hi', hexec⟩ := plain_of_hdr (by rw [hi]; rfl) hspecial
    rw [hi] at hi'
    cases hi'
    obtain ⟨occ, body, heq, hmean⟩ := hexec s
    exact ⟨occ, body, heq, fun x t q1 _ => hmean.idle x t q1⟩
  | true =>
    have of_atomic (ha : RuledAtomic i h) : ∃ occ body, exec i s = issue h (minClass i) occ s body ∧ IdleWhenOff i body := by
      obtain ⟨occ, body, hexec, -, hidle⟩ := ha s
      exact ⟨occ, body, hexec, hidle⟩
    cases i with
    | atom h' so op vd ba b =>
      cases hi
      exact of_atomic (ruledAtomic_atom h so op vd ba b)
    | red h' so op vd ba b =>
      cases hi
      exact of_atomic (ruledAtomic_red h so op vd ba b)
    | cas h' so vd ba b =>
      cases hi
      exact of_atomic (ruledAtomic_cas h so vd ba b)
    | join | csrRd | csrWr | tret | halt => exact nomatch hun
    | _ => exact nomatch hspecial

end Sys2Proof.Machine

end

section

namespace Sys2Proof.Machine

/-! ### The debit -/

theorem minClass_lt (i : Instr) : minClass i < 8 := by
  unfold minClass
  split <;> decide

theorem classUnits_eq {n : Nat} (h : n < 8) : classUnits n = unitsOf n := by
  interval_cases n <;> rfl

/-- The class that a well-formed instruction pays for is one of R300. -/
theorem cost_eq {i : Instr} {h : Hdr} (hi : i.hdr = some h) (hwf : i.wf = true) :
    classUnits (max h.ec (minClass i)) = unitsOf (max h.ec (minClass i)) := by
  have hec : h.ec < 8 := by
    simp only [Instr.wf, hi, Hdr.wf, Bool.and_eq_true, decide_eq_true_eq] at hwf
    omega
  exact classUnits_eq (by have := minClass_lt i; omega)

theorem budKey_ne {d c d' c' : Nat} (hc : c < 64) (hc' : c' < 64) (h : (d, c) ≠ (d', c')) : budKey d' c' ≠ budKey d c := by
  intro hk
  simp only [budKey] at hk
  exact h (by rw [Prod.mk.injEq]; omega)

theorem budgetOf_setBudget_ne (s : State) {d c d' c' : Nat} (b : Budget) (h : budKey d c ≠ budKey d' c') :
    budgetOf (setBudget s d c b) d' c' = budgetOf s d' c' := by
  rw [budgetOf, setBudget_budgets, aget_aput, if_neg h, budgetOf]

/-- A state in which every budget holds the same has debited nothing. -/
theorem debited_zero {s t : State} (q : Squad) (h : SameAmounts s t) : Debited s t q 0 := by
  refine ⟨?_, fun d c _ _ _ _ _ => h d c⟩
  rw [if_pos (Or.inr rfl)]
  exact h _ _

/-- A grant has been taken before: nothing more is debited. -/
theorem debited_granted {s t : State} {q : Squad} (u : Nat) (hg : q.granted = true) (h : SameAmounts s t) : Debited s t q u := by
  refine ⟨?_, fun d c _ _ _ _ _ => h d c⟩
  rw [if_pos (Or.inl hg)]
  exact h _ _

/-- What follows the debit and keeps the amounts keeps the debit. -/
theorem Debited.keep {s t t' : State} {q : Squad} {u : Nat} (h : Debited s t q u) (hk : SameAmounts t t') : Debited s t' q u := by
  obtain ⟨hown, hothers⟩ := h
  refine ⟨?_, fun d c hd hc hdie hctx hne => (hk d c).trans (hothers d c hd hc hdie hctx hne)⟩
  have hsame := hk (dieOf q) (ctxId s q)
  generalize budgetOf t (dieOf q) (ctxId s q) = b at hown hsame
  generalize budgetOf t' (dieOf q) (ctxId s q) = b' at hsame ⊢
  rw [hsame]
  simp only [amounts, Prod.mk.injEq] at hsame
  obtain ⟨hbud, hres, hrefill, hcap, hrcap⟩ := hsame
  rw [hbud, hres, hrefill, hcap, hrcap]
  exact hown

/-- The direct debit of R301: the units leave the budget, RES first at deadline priority. -/
theorem takeUnits_debits {b : Budget} {prio : Bool} {u : Nat} (hu : u ≤ spendable b prio) :
    (takeUnits b prio u).bud + (takeUnits b prio u).res + u = b.bud + b.res ∧
      (takeUnits b prio u).res = (if prio then b.res - u else b.res) ∧ (takeUnits b prio u).refill = b.refill ∧
      (takeUnits b prio u).cap = b.cap ∧ (takeUnits b prio u).rcap = b.rcap := by
  cases prio with
  | false =>
    simp only [spendable, takeUnits, Bool.false_eq_true, if_false] at hu ⊢
    exact ⟨by omega, trivial, trivial, trivial, trivial⟩
  | true =>
    simp only [spendable, takeUnits, if_true] at hu ⊢
    exact ⟨by omega, trivial, trivial, trivial, trivial⟩

/-- A payment debits its cost, and leaves the waiting lists of the payer's budget. -/
theorem pay_debits {s t : State} {id : Nat} {q : Squad} {u : Nat} (hpay : pay s id q u = .paid t) (hfunds : Funded s q u) :
    Debited s t q u ∧ (budgetOf t (dieOf q) (ctxId s q)).prio = (budgetOf s (dieOf q) (ctxId s q)).prio ∧
      (budgetOf t (dieOf q) (ctxId s q)).gen = (budgetOf s (dieOf q) (ctxId s q)).gen := by
  unfold pay at hpay
  by_cases hu : u = 0
  · subst hu
    cases hpay
    exact ⟨debited_zero q (.rfl' s), rfl, rfl⟩
  rw [if_neg hu] at hpay
  by_cases hg : q.granted = true
  · rw [if_pos hg] at hpay
    cases hpay
    exact ⟨debited_granted u hg (sameAmounts_of_budgets rfl), rfl, rfl⟩
  obtain ⟨hcap, hle, hempty⟩ := (hfunds.resolve_left hu).resolve_left hg
  rw [if_neg hg, hcap] at hpay
  simp only [hempty, hle] at hpay
  cases hpay
  set b := budgetOf s (dieOf q) (ctxId s q)
  have hat : budgetOf (modSquad (setBudget s (dieOf q) (ctxId s q) (takeUnits b (deadline s q) u)) id (countDebit u)) (dieOf q)
      (ctxId s q) = takeUnits b (deadline s q) u := budgetOf_setBudget_same s _ _ _
  rw [hat]
  refine ⟨⟨?_, fun d c _ hc _ hctx hne => ?_⟩, ?_, ?_⟩
  · rw [if_neg (not_or.2 ⟨hg, hu⟩), hat]
    exact takeUnits_debits hle
  · exact congrArg amounts (budgetOf_setBudget_ne s _ (budKey_ne hc hctx hne))
  · rw [takeUnits]
    split <;> rfl
  · rw [takeUnits]
    split <;> rfl

/-- The state that an instruction's own effect starts from has debited its cost. -/
theorem issued_debits {s : State} {id : Nat} {q : Squad} {p : Path} {h : Hdr} {cls : Nat} (occ : Occ)
    (hI : Issues s id q p h cls) :
    Debited s (issued s id q p h cls occ) q (classUnits (max h.ec cls)) ∧
      (budgetOf (issued s id q p h cls occ) (dieOf q) (ctxId s q)).prio = (budgetOf s (dieOf q) (ctxId s q)).prio ∧
      (budgetOf (issued s id q p h cls occ) (dieOf q) (ctxId s q)).gen = (budgetOf s (dieOf q) (ctxId s q)).gen := by
  obtain ⟨t, q1, hpay, -⟩ := pay_paid s id q _ hI.squad hI.funds
  have hb : (issued s id q p h cls occ).budgets = t.budgets := by rw [issued, hpay]; rfl
  have hat (d c : Nat) : budgetOf (issued s id q p h cls occ) d c = budgetOf t d c := by rw [budgetOf, hb, budgetOf]
  obtain ⟨hdeb, hprio, hgen⟩ := pay_debits hpay hI.funds
  rw [hat]
  exact ⟨hdeb.keep (sameAmounts_of_budgets hb), hprio, hgen⟩

/-! ### What follows the debit -/

/-- The end of an issue keeps the amounts, where the meaning has kept them. -/
theorem finish_amounts {h : Hdr} {x : Iss} {s before : State} {r : Res} (hr : r.Thrifty s) :
    SameAmounts s (finish h x (unpaidIll before r)) := by
  cases r with
  | fault t f =>
    obtain ⟨hsame, hcode⟩ := hr
    simp only [unpaidIll, if_neg hcode, finish]
    exact (hsame.trans (sameAmounts_of_budgets rfl)).trans (raiseFault_amounts _ _ _)
  | ok | jump | wait | hold => exact SameAmounts.trans hr (sameAmounts_of_budgets rfl)

/-- The ILL of an unpaid issue leaves the amounts as they were before. -/
theorem finish_unpaid_amounts {h : Hdr} {x : Iss} {s before : State} {n : Nat} :
    SameAmounts before (finish h x (unpaidIll before (failI s x 1 n))) :=
  SameAmounts.trans (sameAmounts_of_budgets rfl) (raiseFault_amounts _ _ _)

theorem obeysRegs_issued {s : State} {id : Nat} {q : Squad} {p : Path} {h : Hdr} {cls : Nat} (occ : Occ)
    (hI : Issues s id q p h cls) (act : Mask) (i : Instr) :
    obeysRegs (issued s id q p h cls occ) q act i ↔ obeysRegs s q act i := by
  simp only [obeysRegs, trOf, taskOf_issued occ hI]

theorem debitIsExact : DebitIsExactRule := by
  intro i h s id q p hi hwf hI hg
  obtain ⟨occ, body, hexec, hruled⟩ := issuing_of_hdr hi s
  obtain ⟨hkept, hbroken⟩ := hruled (seen id q p h) (issued s id q p h (minClass i) occ)
  rw [hexec, issue_eq s id q p h _ occ body hI]
  refine ⟨fun hobeys => ⟨_, rfl, ?_⟩, fun hno => ⟨_, rfl, ?_⟩⟩
  · have hdeb := (issued_debits occ hI).1
    rw [cost_eq hi hwf] at hdeb
    exact hdeb.keep (finish_amounts (hkept ((obeysRegs_issued occ hI _ i).2 hobeys)))
  · obtain ⟨n, hn⟩ := hbroken fun hobeys => hno ((obeysRegs_issued occ hI _ i).1 hobeys)
    rw [hn, ungrant, hg]
    exact debited_zero q finish_unpaid_amounts

/-! ### Nothing to do -/

theorem unguarded_of_ne {i : Instr} {h : Hdr} (hi : i.hdr = some h) (hjoin : i ≠ .join h) (hrd : ∀ sd x, i ≠ .csrRd h sd x)
    (hwr : ∀ x a, i ≠ .csrWr h x a) (htret : i ≠ .tret h) (hhalt : ∀ b, i ≠ .halt h b) : Unguarded i = false := by
  unfold Unguarded
  split
  · cases hi
    exact absurd rfl hjoin
  · cases hi
    exact absurd rfl (hrd _ _)
  · cases hi
    exact absurd rfl (hwr _ _)
  · cases hi
    exact absurd rfl htret
  · cases hi
    exact absurd rfl (hhalt _)
  · rfl

/-- Settles O8: such a meaning answers at once that it is done, so what remains is the debit, the count and the advance. -/
theorem guardedOffDoesNothing : Obligations.GuardedOffDoesNothing := by
  intro i h s id q p hi hwf hjoin hrd hwr htret hhalt hobeys hI hoff
  obtain ⟨occ, body, hexec, hidle⟩ := idle_of_hdr hi (unguarded_of_ne hi hjoin hrd hwr htret hhalt) s
  obtain ⟨q1, hq1, hothers, hissued, hq1eq⟩ := issued_squad s id q p h (minClass i) occ hI
  obtain ⟨hdeb, hprio, hgen⟩ := issued_debits occ hI
  rw [cost_eq hi hwf] at hdeb
  have hpend : q1.pend = [] := by rw [hq1eq]; exact hI.settled
  obtain ⟨t, hbody, ht, hsquads⟩ := hidle (seen id q p h) (issued s id q p h (minClass i) occ) q1
    ((obeysRegs_issued occ hI _ i).2 hobeys) hoff hq1 hpend
  obtain ⟨u, q', hnext, hwent, hu, hq'⟩ := issue_ok s t id q q1 p h (minClass i) occ body hI hbody ((hsquads id).trans hq1)
    (fun j hj => (hsquads j).trans (hothers j hj)) (by rw [hq1eq]) (by rw [hq1eq]; exact hI.whole) (by rw [hq1eq])
  have hbudgets : u.budgets = (issued s id q p h (minClass i) occ).budgets := by rw [hu, ht]
  have hat (d c : Nat) : budgetOf u d c = budgetOf (issued s id q p h (minClass i) occ) d c := by
    rw [budgetOf, hbudgets, budgetOf]
  refine ⟨u, q', hexec.trans hnext, hwent, ?_, ?_, ?_, ?_, hdeb.keep (sameAmounts_of_budgets hbudgets), ?_, ?_⟩
  · rw [hq', hq1eq]
    rfl
  · rw [hq', hq1eq]
    exact ⟨rfl, rfl, rfl, rfl, rfl, rfl, rfl⟩
  · rw [hq']
    exact hpend
  · rw [hu, ht, hissued]
    rfl
  · rw [hat, hprio]
  · rw [hat, hgen]

/-! ### Without the units -/

section
variable {s : State} {id : Nat} {q : Squad} {p : Path} {h : Hdr} {cls : Nat}

/-- An issue that its budget or its cap stops does not look at the meaning. -/
theorem issue_unpaid (occ : Occ) (body : Iss → State → Res) (hturn : s.cur = some id) (hq : squadOf s id = some q)
    (hp : runningPath q = some p) (hw : q.wait = none) :
    (pay s id q (classUnits (max h.ec cls)) = .cap →
      issue h cls occ s body = .next (modSquad s id fun q => { q with wait := some .capped })) ∧
    (pay s id q (classUnits (max h.ec cls)) = .list →
      issue h cls occ s body = .next (modSquad (joinList s id q (classUnits (max h.ec cls)) true) id fun q =>
        { q with wait := some (.budget (classUnits (max h.ec cls))) })) := by
  unfold issue
  simp only [hturn, Option.bind_some, hq, hp, hw, retrying, Bool.false_eq_true, if_false, Option.getD_some]
  constructor
  · intro hpay
    rw [hpay]
  · intro hpay
    rw [hpay]

theorem pay_cap {u : Nat} (hu : 0 < u) (hg : q.granted = false) (hcap : q.ebudCap ≠ 0 ∧ q.ebudCap ≤ q.ebudDeb) :
    pay s id q u = .cap := by
  have hunder : underCap q = false := by
    simp only [underCap, Bool.or_eq_false_iff, beq_eq_false_iff_ne, decide_eq_false_iff_not]
    omega
  rw [pay, if_neg (by omega), hg, hunder]
  rfl

theorem pay_list {u : Nat} (hu : 0 < u) (hg : q.granted = false) (hcap : q.ebudCap = 0 ∨ q.ebudDeb < q.ebudCap)
    (hshort : (if deadline s q then (budgetOf s (dieOf q) (ctxId s q)).prio else (budgetOf s (dieOf q) (ctxId s q)).gen) ≠ [] ∨
      spendable (budgetOf s (dieOf q) (ctxId s q)) (deadline s q) < u) : pay s id q u = .list := by
  have hunder : underCap q = true := by
    simp only [underCap, Bool.or_eq_true, beq_iff_eq, decide_eq_true_eq]
    exact hcap
  rw [pay, if_neg (by omega), hg, hunder]
  simp only [Bool.false_eq_true, if_false, Bool.not_true]
  rw [if_neg]
  simp only [Bool.and_eq_true, decide_eq_true_eq, List.isEmpty_iff, not_and, not_le]
  exact fun hempty => hshort.resolve_left (not_not.2 hempty)

/-- A squad on no list joins its own at the end. -/
theorem joinList_new {u : Nat} (hnew : ∀ e ∈ (budgetOf s (dieOf q) (ctxId s q)).prio ++ (budgetOf s (dieOf q) (ctxId s q)).gen,
    e.1 ≠ id) (b : Bool) :
    joinList s id q u b = setBudget s (dieOf q) (ctxId s q)
      (if deadline s q then { budgetOf s (dieOf q) (ctxId s q) with prio := (budgetOf s (dieOf q) (ctxId s q)).prio ++ [(id, u, b)] }
       else { budgetOf s (dieOf q) (ctxId s q) with gen := (budgetOf s (dieOf q) (ctxId s q)).gen ++ [(id, u, b)] }) := by
  rw [joinList, if_neg]
  simp only [List.any_eq_true, beq_iff_eq, not_exists, not_and]
  exact hnew

end

theorem unfundedWaits : UnfundedWaitsRule := by
  intro i h s id q p hi hwf hturn hq hp hw hg _ hu
  obtain ⟨occ, body, hexec, -⟩ := issuing_of_hdr hi s
  obtain ⟨hcap, hlist⟩ := issue_unpaid (h := h) (cls := minClass i) occ body hturn hq hp hw
  rw [cost_eq hi hwf] at hcap hlist
  dsimp only
  rw [hexec]
  refine ⟨fun hc => ⟨_, hcap (pay_cap hu hg hc), ?_, rfl, rfl⟩, fun hc hshort hnew => ⟨_, hlist (pay_list hu hg hc ?_), ?_⟩⟩
  · rw [squadOf_modSquad_same, hq]
    rfl
  · exact hshort
  · rw [joinList_new hnew]
    refine ⟨?_, rfl, ?_⟩
    · rw [squadOf_modSquad_same, squadOf_setBudget, hq]
      rfl
    · exact budgetOf_setBudget_same s _ _ _

/-- Settles O9: every form with a header is the issue of a meaning that takes no energy of its own, or answers the ILL of the
register rule, which is not paid; without the units the meaning is not looked at. -/
theorem energyDebits : Obligations.EnergyDebits := ⟨debitIsExact, unfundedWaits⟩


end Sys2Proof.Machine

end

section

namespace Sys2Proof.Machine

/-! ### Rounding to units (R63) -/

/-- `y` is m x 2^e, or with a sticky bit a little more. -/
def MagnitudeIs (m : Nat) (e : Int) (st : Bool) (y : ℝ) : Prop :=
  if st then (m : ℝ) * 2 ^ e < y ∧ y < (m + 1) * 2 ^ e else y = m * 2 ^ e

/-- Whether a mode takes the upper one of the neighbours `a ≤ y < b` of a magnitude `y`, whose sign is `neg`; `odd` says that the
lower one is odd. -/
def GoesUp (rm : Rm) (neg : Bool) (odd : Prop) (a y b : ℝ) : Prop :=
  match rm with
  | .rne => b - y < y - a ∨ (b - y = y - a ∧ odd)
  | .rtz => False
  | .rdn => neg = true ∧ y ≠ a
  | .rup => neg = false ∧ y ≠ a
  | .rna => b - y ≤ y - a

theorem not_goesUp_self (rm : Rm) (neg : Bool) (odd : Prop) {a b : ℝ} (hab : a < b) : ¬ GoesUp rm neg odd a a b := by
  cases rm <;> simp only [GoesUp, sub_self, ne_eq, not_true_eq_false, and_false, not_false_eq_true, not_or, not_lt, not_le,
    not_and_or]
  · exact ⟨by linarith, .inl (by linarith)⟩
  · linarith

theorem two_zpow_pos (q : Int) : (0 : ℝ) < 2 ^ q := zpow_pos two_pos q

/-- A magnitude in larger units: whole ones, and the dropped bits `lo` with a rest `d` below one bit. -/
theorem magnitude_split {m : Nat} {e q : Int} {st : Bool} {y : ℝ} (h : MagnitudeIs m e st y) {j : Nat}
    (hj : q = e + (j + 1 : Nat)) : ∃ d : ℝ, (if st then 0 < d ∧ d < 1 else d = 0) ∧
      2 * ((2 ^ j : Nat) : ℝ) * (y / 2 ^ q - (m / 2 ^ (j + 1) : Nat)) = (m % 2 ^ (j + 1) : Nat) + d := by
  refine ⟨y / 2 ^ e - m, ?_, ?_⟩
  · have hp : (0 : ℝ) < 2 ^ e := by positivity
    cases st with
    | false => rw [show y = m * 2 ^ e from h]; field_simp; simp
    | true =>
      obtain ⟨h1, h2⟩ : (m : ℝ) * 2 ^ e < y ∧ y < (m + 1) * 2 ^ e := h
      exact ⟨by rw [sub_pos, lt_div_iff₀ hp]; exact h1, by rw [sub_lt_iff_lt_add', div_lt_iff₀ hp]; exact h2⟩
  · have hq : (2 : ℝ) ^ q = 2 ^ e * (2 * ((2 ^ j : Nat) : ℝ)) := by
      rw [hj, zpow_add₀ two_ne_zero, zpow_natCast]
      push_cast
      ring
    have hm : (m : ℝ) = 2 * ((2 ^ j : Nat) : ℝ) * (m / 2 ^ (j + 1) : Nat) + (m % 2 ^ (j + 1) : Nat) := by
      have hdm := Nat.div_add_mod m (2 ^ (j + 1))
      rw [pow_succ'] at hdm ⊢
      exact_mod_cast hdm.symm
    rw [hq]
    field_simp
    linear_combination (2 : ℝ) ^ e * hm

/-- The rest of a value above `n` units, against zero and one half, from its dropped bits and the sticky bit. -/
theorem rest_cases {n lo half : Nat} {st : Bool} {d r : ℝ} (hd : if st then 0 < d ∧ d < 1 else d = 0) (hlo : lo < 2 * half)
    (hr : 2 * (half : ℝ) * (r - n) = lo + d) :
    ((n : ℝ) ≤ r ∧ r < n + 1) ∧ (n + 1 - r < r - n ↔ half < lo ∨ (lo = half ∧ st = true)) ∧
      (n + 1 - r = r - n ↔ lo = half ∧ st = false) ∧ (r ≠ n ↔ lo ≠ 0 ∨ st = true) := by
  have hpos : (0 : ℝ) < half := by exact_mod_cast (show 0 < half by omega)
  have hsucc {a b : Nat} (h : a < b) : (a : ℝ) + 1 ≤ b := by exact_mod_cast h
  have hlo1 : (lo : ℝ) + 1 ≤ 2 * half := by exact_mod_cast hlo
  have hlo0 : (0 : ℝ) ≤ lo := Nat.cast_nonneg lo
  have hup : n + 1 - r < r - n ↔ (half : ℝ) < lo + d := by
    rw [← hr]
    constructor <;> intro _ <;> nlinarith
  have hmid : n + 1 - r = r - n ↔ (half : ℝ) = lo + d := by
    rw [← hr]
    constructor <;> intro hc
    · linear_combination half * hc
    · exact mul_left_cancel₀ hpos.ne' (by linear_combination hc)
  have hne : r ≠ n ↔ (lo : ℝ) + d ≠ 0 := by
    rw [← hr, mul_ne_zero_iff_left (by positivity), sub_ne_zero]
  rw [hup, hmid, hne]
  cases st with
  | false =>
    obtain rfl : d = 0 := hd
    refine ⟨⟨by nlinarith, by nlinarith⟩, ?_, ?_, ?_⟩
    · simp
    · simpa using eq_comm
    · simp
  | true =>
    obtain ⟨h0, h1⟩ : 0 < d ∧ d < 1 := hd
    simp only [and_true]
    refine ⟨⟨by nlinarith, by nlinarith⟩, ⟨fun h => ?_, ?_⟩, ?_, ?_⟩
    · by_contra hc
      linarith [hsucc (show lo < half by omega)]
    · rintro (h | rfl)
      · linarith [hsucc h]
      · linarith
    · refine iff_of_false (fun h => ?_) (by simp)
      rcases lt_trichotomy lo half with hl | rfl | hl
      · linarith [hsucc hl]
      · linarith
      · linarith [hsucc hl]
    · exact iff_of_true (by linarith) (.inr trivial)

/-- The units that a magnitude is rounded to: the whole ones or one more, as the mode says of the exact value; and whether the
result is inexact. -/
theorem quant_between {rm : Rm} {neg : Bool} {m : Nat} {e q : Int} {st : Bool} {y : ℝ} (h : MagnitudeIs m e st y)
    (hst : st = true → e < q) : ∃ n : Nat, ((n : ℝ) ≤ y / 2 ^ q ∧ y / 2 ^ q < n + 1) ∧
      ((quant rm neg m e st q).1 = n ∧ ¬ GoesUp rm neg (n % 2 = 1) n (y / 2 ^ q) (n + 1) ∨
        (quant rm neg m e st q).1 = n + 1 ∧ GoesUp rm neg (n % 2 = 1) n (y / 2 ^ q) (n + 1)) ∧
      ((quant rm neg m e st q).2 = true ↔ y / 2 ^ q ≠ n) := by
  by_cases hq : q ≤ e
  · have hf : st = false := Bool.eq_false_iff.2 fun ht => absurd (hst ht) (not_lt.2 hq)
    subst hf
    have hy : y / 2 ^ q = ((m * 2 ^ (e - q).toNat : ℕ) : ℝ) := by
      rw [show y = m * 2 ^ e from h]
      push_cast
      rw [mul_div_assoc, ← zpow_sub₀ two_ne_zero, ← zpow_natCast, Int.toNat_of_nonneg (by omega)]
    simp only [quant, if_pos hq]
    refine ⟨m * 2 ^ (e - q).toNat, ⟨hy.ge, by rw [hy]; linarith⟩, .inl ⟨rfl, ?_⟩, ?_⟩
    · rw [hy]
      exact not_goesUp_self _ _ _ (by linarith)
    · rw [hy]
      exact iff_of_false (by decide) (not_not.2 rfl)
  · obtain ⟨j, hj⟩ : ∃ j : Nat, (q - e).toNat = j + 1 := ⟨(q - e).toNat - 1, by omega⟩
    obtain ⟨d, hd, hr⟩ := magnitude_split (q := q) (j := j) h (by omega)
    obtain ⟨hbetween, hup, hmid, hne⟩ := rest_cases hd (by rw [← pow_succ']; exact Nat.mod_lt m (Nat.two_pow_pos _)) hr
    refine ⟨m / 2 ^ (j + 1), hbetween, ?_, ?_⟩
    · simp only [quant, if_neg hq, hj, Nat.add_sub_cancel]
      generalize hn : m / 2 ^ (j + 1) = n at *
      generalize hl : m % 2 ^ (j + 1) = lo at *
      have key (up : Bool) (hiff : up = true ↔ GoesUp rm neg (n % 2 = 1) n (y / 2 ^ q) (n + 1)) :
          (if up then n + 1 else n) = n ∧ ¬ GoesUp rm neg (n % 2 = 1) n (y / 2 ^ q) (n + 1) ∨
            (if up then n + 1 else n) = n + 1 ∧ GoesUp rm neg (n % 2 = 1) n (y / 2 ^ q) (n + 1) := by
        cases up with
        | true => exact .inr ⟨rfl, hiff.1 rfl⟩
        | false => exact .inl ⟨rfl, fun hg => Bool.noConfusion (hiff.2 hg)⟩
      apply key
      cases rm with
      | rne =>
        simp only [GoesUp, hup, hmid]
        cases st <;> simp
      | rtz => exact iff_of_false Bool.false_ne_true id
      | rdn => simp [GoesUp, ← ne_eq, hne]
      | rup => simp [GoesUp, ← ne_eq, hne]
      | rna =>
        simp only [GoesUp, le_iff_lt_or_eq, hup, hmid]
        cases st <;> simp <;> omega
    · rw [hne]
      simp [quant, hq, hj]

section
variable {rm : Rm} {neg : Bool} {m : Nat} {e q : Int} {st : Bool} {y : ℝ}

theorem quant_inexact (h : MagnitudeIs m e st y) (hst : st = true → e < q) :
    (quant rm neg m e st q).2 = true ↔ y / 2 ^ q ≠ (quant rm neg m e st q).1 := by
  obtain ⟨n, ⟨hn, hn1⟩, ⟨hv, -⟩ | ⟨hv, hup⟩, hx⟩ := quant_between (rm := rm) (neg := neg) h hst
  · rw [hx, hv]
  · rw [hx, hv]
    push_cast
    refine iff_of_true (fun heq => ?_) hn1.ne
    rw [heq] at hup
    exact not_goesUp_self _ _ _ (by linarith) hup

theorem le_quant (h : MagnitudeIs m e st y) (hst : st = true → e < q) {k : Nat} (hk : (k : ℝ) ≤ y / 2 ^ q) :
    k ≤ (quant rm neg m e st q).1 := by
  obtain ⟨n, ⟨-, hn1⟩, hv, -⟩ := quant_between (rm := rm) (neg := neg) h hst
  have hkn : k < n + 1 := by exact_mod_cast hk.trans_lt hn1
  rcases hv with ⟨hv, -⟩ | ⟨hv, -⟩ <;> omega

theorem quant_le (h : MagnitudeIs m e st y) (hst : st = true → e < q) {k : Nat} (hk : y / 2 ^ q < k) :
    (quant rm neg m e st q).1 ≤ k := by
  obtain ⟨n, ⟨hn, -⟩, hv, -⟩ := quant_between (rm := rm) (neg := neg) h hst
  have hkn : n < k := by exact_mod_cast hn.trans_lt hk
  rcases hv with ⟨hv, -⟩ | ⟨hv, -⟩ <;> omega

end

/-! ### What a mode selects among numbers (R63) -/

/-- A value with its sign. -/
def signed (neg : Bool) (y : ℝ) : ℝ := if neg then -y else y

@[simp] theorem signed_false (y : ℝ) : signed false y = y := rfl
@[simp] theorem signed_true (y : ℝ) : signed true y = -y := rfl
@[simp] theorem signed_signed (neg : Bool) (y : ℝ) : signed neg (signed neg y) = y := by cases neg <;> simp
theorem abs_signed_abs (neg : Bool) (y : ℝ) : |signed neg y| = |y| := by cases neg <;> simp
theorem abs_signed (neg : Bool) {y : ℝ} (hy : 0 ≤ y) : |signed neg y| = y := by
  cases neg <;> simp [abs_of_nonneg hy]

/-- A set of numbers with `z` has `-z`. -/
def Symmetric (S : ℝ → Prop) : Prop := ∀ z, S z → S (-z)

theorem Symmetric.signed {S : ℝ → Prop} (hS : Symmetric S) (neg : Bool) {y : ℝ} (hy : S y) : S (signed neg y) := by
  cases neg
  · exact hy
  · exact hS y hy

/-- Distances between values of one sign are those of the magnitudes. -/
theorem abs_signed_sub (neg : Bool) (y z : ℝ) : |signed neg y - z| = |y - signed neg z| := by
  cases neg
  · rfl
  · rw [signed_true, signed_true, ← abs_neg]
    congr 1
    ring

/-- The nearer neighbour is nearest, and another number is as near only at the midpoint. -/
theorem nearest_neighbour {a b y v w : ℝ} (hay : a ≤ y) (hyb : y < b) (hv : v = a ∧ y - a ≤ b - y ∨ v = b ∧ b - y ≤ y - a)
    (hw : w ≤ a ∨ b ≤ w) : |y - v| ≤ |y - w| ∧ (|y - w| = |y - v| → w = v ∨ b - y = y - a ∧ (w = a ∨ w = b)) := by
  have hvd : |y - v| = if v = a then y - a else b - y := by
    rcases hv with ⟨rfl, -⟩ | ⟨rfl, -⟩
    · rw [if_pos rfl, abs_of_nonneg (by linarith)]
    · rw [if_neg (by linarith), abs_of_neg (by linarith), neg_sub]
  rcases hw with hw | hw
  · have hwd : |y - w| = y - w := abs_of_nonneg (by linarith)
    rw [hvd, hwd]
    rcases hv with ⟨rfl, hle⟩ | ⟨rfl, hle⟩
    · rw [if_pos rfl]
      exact ⟨by linarith, fun h => .inl (by linarith)⟩
    · rw [if_neg (by linarith)]
      exact ⟨by linarith, fun h => .inr ⟨by linarith, .inl (by linarith)⟩⟩
  · have hwd : |y - w| = w - y := by rw [abs_of_neg (by linarith), neg_sub]
    rw [hvd, hwd]
    rcases hv with ⟨rfl, hle⟩ | ⟨rfl, hle⟩
    · rw [if_pos rfl]
      exact ⟨by linarith, fun h => .inr ⟨by linarith, .inr (by linarith)⟩⟩
    · rw [if_neg (by linarith)]
      exact ⟨by linarith, fun h => .inl (by linarith)⟩

section
variable {S E : ℝ → Prop} {neg : Bool} {odd : Prop} {a y b v : ℝ}

/-- The lower neighbour of a magnitude is the largest number that is not above it. -/
theorem below_neighbour (hyb : y < b) (hgap : ∀ z, S z → z ≤ a ∨ b ≤ z) {w : ℝ} (hw : S w) (hwy : w ≤ y) : w ≤ a :=
  (hgap w hw).resolve_right (by linarith)

/-- The upper neighbour, or the value itself when it is a number, is the smallest that is not below it. -/
theorem above_neighbour (hay : a ≤ y) (hgap : ∀ z, S z → z ≤ a ∨ b ≤ z) (hv : v = a ∧ y = a ∨ v = b ∧ y ≠ a) {w : ℝ}
    (hw : S w) (hwy : y ≤ w) : v ≤ w := by
  rcases hv with ⟨rfl, rfl⟩ | ⟨rfl, hne⟩
  · exact hwy
  · exact (hgap w hw).resolve_left fun hwa => hne (by linarith)

/-- Of two neighbours of a value in a set of numbers, the one that the mode's rule takes is what the mode selects. -/
theorem selects_of_neighbours {rm : Rm} (hS : Symmetric S) (hE : Symmetric E) (h0 : 0 ≤ a) (hay : a ≤ y) (hyb : y < b) (ha : S a)
    (hb : S b) (hgap : ∀ z, S z → z ≤ a ∨ b ≤ z) (hodd : odd → E b) (heven : ¬ odd → E a)
    (hv : v = a ∧ ¬ GoesUp rm neg odd a y b ∨ v = b ∧ GoesUp rm neg odd a y b) :
    Selects rm S E (signed neg y) (signed neg v) := by
  have hv0 : 0 ≤ v := by rcases hv with ⟨rfl, -⟩ | ⟨rfl, -⟩ <;> linarith
  have hSv : S v := by
    rcases hv with ⟨rfl, -⟩ | ⟨rfl, -⟩
    · exact ha
    · exact hb
  refine ⟨hS.signed neg hSv, ?_⟩
  cases rm with
  | rne =>
    intro z hz
    obtain ⟨hnear, htie⟩ := nearest_neighbour (v := v) hay hyb
      (hv.imp (fun h => ⟨h.1, not_lt.1 fun hc => h.2 (.inl hc)⟩) fun h => ⟨h.1, h.2.elim le_of_lt fun hc => hc.1.le⟩)
      (hgap _ (hS.signed neg hz))
    rw [abs_signed_sub, abs_signed_sub, signed_signed]
    refine ⟨hnear, fun hne heq => hE.signed neg ?_⟩
    rcases htie heq with hz' | ⟨hmid, -⟩
    · exact absurd (by rw [← hz', signed_signed]) hne
    · rcases hv with ⟨rfl, hno⟩ | ⟨rfl, hup⟩
      · exact heven fun ho => hno (.inr ⟨hmid, ho⟩)
      · exact hodd (hup.elim (fun hc => absurd hmid hc.ne) And.right)
  | rna =>
    intro z hz
    obtain ⟨hnear, htie⟩ := nearest_neighbour (v := v) hay hyb
      (hv.imp (fun h => ⟨h.1, (not_le.1 h.2).le⟩) id) (hgap _ (hS.signed neg hz))
    rw [abs_signed_sub, abs_signed_sub, signed_signed, abs_signed neg hv0, ← abs_signed_abs neg z]
    refine ⟨hnear, fun heq => ?_⟩
    rcases htie heq with hz' | ⟨hmid, hz'⟩
    · rw [hz', abs_of_nonneg hv0]
    · obtain ⟨rfl, -⟩ := hv.resolve_left fun h => h.2 hmid.le
      rcases hz' with hz' | hz' <;> rw [hz', abs_of_nonneg (by linarith)]
      linarith
  | rtz =>
    obtain ⟨rfl, -⟩ := hv.resolve_right fun h => h.2
    refine ⟨?_, by rwa [abs_signed neg h0, abs_signed neg (h0.trans hay)], fun z hz _ hzy => ?_⟩
    · cases neg
      · exact mul_nonneg (h0.trans hay) h0
      · rw [signed_true, signed_true, neg_mul_neg]
        exact mul_nonneg (h0.trans hay) h0
    · rw [abs_signed neg (h0.trans hay)] at hzy
      rw [abs_signed neg h0]
      refine below_neighbour hyb hgap ?_ hzy
      rcases abs_choice z with h | h <;> rw [h]
      · exact hz
      · exact hS z hz
  | rdn =>
    cases neg with
    | false =>
      obtain ⟨rfl, -⟩ := hv.resolve_right fun h => Bool.noConfusion h.2.1
      exact ⟨hay, fun z hz hzy => below_neighbour hyb hgap hz hzy⟩
    | true =>
      have hv' : v = a ∧ y = a ∨ v = b ∧ y ≠ a := hv.imp (fun h => ⟨h.1, not_not.1 fun hc => h.2 ⟨rfl, hc⟩⟩) fun h => ⟨h.1, h.2.2⟩
      refine ⟨neg_le_neg ?_, fun z hz hzy => ?_⟩
      · rcases hv' with ⟨rfl, rfl⟩ | ⟨rfl, -⟩ <;> linarith
      · exact le_neg_of_le_neg (above_neighbour hay hgap hv' (hS z hz) (le_neg_of_le_neg hzy))
  | rup =>
    cases neg with
    | true =>
      obtain ⟨rfl, -⟩ := hv.resolve_right fun h => Bool.noConfusion h.2.1
      exact ⟨neg_le_neg hay, fun z hz hzy => neg_le_of_neg_le (below_neighbour hyb hgap (hS z hz) (neg_le_of_neg_le hzy))⟩
    | false =>
      have hv' : v = a ∧ y = a ∨ v = b ∧ y ≠ a := hv.imp (fun h => ⟨h.1, not_not.1 fun hc => h.2 ⟨rfl, hc⟩⟩) fun h => ⟨h.1, h.2.2⟩
      refine ⟨?_, fun z hz hzy => above_neighbour hay hgap hv' hz hzy⟩
      rcases hv' with ⟨rfl, rfl⟩ | ⟨rfl, -⟩ <;> simp only [signed_false] <;> linarith

end

end Sys2Proof.Machine
end

section

namespace Sys2Proof.Machine

/-! ### Rounding to integers, and to numbers of a few digits -/

theorem symmetric_integral : Symmetric integral := by
  rintro _ ⟨i, rfl⟩
  exact ⟨-i, by push_cast; rfl⟩

theorem symmetric_evenInt : Symmetric evenInt := by
  rintro _ ⟨i, rfl⟩
  exact ⟨-i, by push_cast; ring⟩

theorem symmetric_digits (p : Nat) (lo : Option Int) : Symmetric (digits p lo) := by
  rintro _ ⟨k, j, rfl, hk, hl⟩
  exact ⟨-k, j, by push_cast; ring, by rwa [abs_neg], hl⟩

theorem symmetric_lastEven (p : Nat) (lo : Option Int) : Symmetric (lastEven p lo) := by
  rintro _ ⟨k, j, rfl, hk, hl, hbig⟩
  have hneg : 2 * -k = -(2 * k) := by ring
  exact ⟨-k, j, by push_cast; ring, by rwa [hneg, abs_neg], hl, by rwa [hneg, abs_neg]⟩

/-- A magnitude in whole units rounds to an integer. -/
theorem selects_integral {rm : Rm} {neg : Bool} {m : Nat} {e q : Int} {st : Bool} {y : ℝ} (h : MagnitudeIs m e st y)
    (hst : st = true → e < q) :
    Selects rm integral evenInt (signed neg (y / 2 ^ q)) (signed neg ((quant rm neg m e st q).1 : Nat)) := by
  obtain ⟨n, ⟨hn, hn1⟩, hv, -⟩ := quant_between (rm := rm) (neg := neg) h hst
  refine selects_of_neighbours symmetric_integral symmetric_evenInt (Nat.cast_nonneg n) hn hn1 ⟨n, rfl⟩ ⟨n + 1, by push_cast; rfl⟩
    ?_ (odd := n % 2 = 1) (fun ho => ⟨(n + 1) / 2, ?_⟩) (fun ho => ⟨n / 2, ?_⟩) ?_
  · rintro _ ⟨i, rfl⟩
    have : i ≤ n ∨ (n : Int) + 1 ≤ i := by omega
    exact this.imp (fun h => by exact_mod_cast h) fun h => by exact_mod_cast h
  · exact_mod_cast (show ((n : Int) + 1) = 2 * ((n + 1) / 2) by omega)
  · exact_mod_cast (show (n : Int) = 2 * (n / 2) by omega)
  · refine hv.imp (fun h => ⟨by rw [h.1], h.2⟩) fun h => ⟨by rw [h.1]; push_cast; rfl, h.2⟩

theorem goesUp_scale (rm : Rm) (neg : Bool) (odd : Prop) (a y b : ℝ) {u : ℝ} (hu : 0 < u) :
    GoesUp rm neg odd (a * u) y (b * u) ↔ GoesUp rm neg odd a (y / u) b := by
  have hb : b - y / u = (b * u - y) / u := by field_simp
  have ha : y / u - a = (y - a * u) / u := by field_simp
  have hne : y / u = a ↔ y = a * u := div_eq_iff hu.ne'
  cases rm <;> simp only [GoesUp, hb, ha, ne_eq, hne, div_lt_div_iff_of_pos_right hu, div_le_div_iff_of_pos_right hu,
    div_left_inj' hu.ne']

section
variable {p n : Nat} {lo : Option Int} {q : Int}

/-- No number of `p` digits lies between two neighbours in units of 2^q. -/
theorem digits_gap (hp : 0 < p) (hbig : 2 ^ (p - 1) ≤ n ∨ lo = some q) {z : ℝ} (hz : digits p lo z) :
    z ≤ n * 2 ^ q ∨ (n + 1) * 2 ^ q ≤ z := by
  obtain ⟨k, j, rfl, hk, hl⟩ := hz
  by_cases hj : q ≤ j
  · have hkj : (k : ℝ) * 2 ^ j = ((k * 2 ^ (j - q).toNat : Int) : ℝ) * 2 ^ q := by
      push_cast
      rw [mul_assoc, ← zpow_natCast, Int.toNat_of_nonneg (by omega), ← zpow_add₀ two_ne_zero, sub_add_cancel]
    rw [hkj]
    generalize k * 2 ^ (j - q).toNat = i
    have : i ≤ n ∨ (n : Int) + 1 ≤ i := by omega
    refine this.imp (fun h => ?_) fun h => ?_
    · exact mul_le_mul_of_nonneg_right (by exact_mod_cast h) (by positivity)
    · exact mul_le_mul_of_nonneg_right (by exact_mod_cast h) (by positivity)
  · left
    have hn := hbig.resolve_right fun h => hj (hl q h)
    have hk' : (k : ℝ) ≤ 2 ^ p := by exact_mod_cast (le_abs_self k).trans hk.le
    have hn' : (2 : ℝ) ^ (p - 1) ≤ n := by exact_mod_cast hn
    have hpow : (2 : ℝ) ^ p = 2 * 2 ^ (p - 1) := by rw [← pow_succ', Nat.sub_add_cancel hp]
    calc (k : ℝ) * 2 ^ j ≤ 2 ^ p * 2 ^ (q - 1) :=
          mul_le_mul hk' (zpow_le_zpow_right₀ one_le_two (by omega)) (by positivity) (by positivity)
      _ = 2 ^ (p - 1) * 2 ^ q := by rw [hpow, zpow_sub_one₀ two_ne_zero]; ring
      _ ≤ n * 2 ^ q := mul_le_mul_of_nonneg_right hn' (by positivity)

theorem digits_units (hn : n < 2 ^ p) (hlo : ∀ l, lo = some l → l ≤ q) : digits p lo (n * 2 ^ q) :=
  ⟨n, q, by push_cast; rfl, by rw [abs_of_nonneg (by omega)]; exact_mod_cast hn, hlo⟩

/-- The highest digit alone is a number of `p` digits. -/
theorem carry_units (hp : 0 < p) (hn : n + 1 = 2 ^ p) : ((n : ℝ) + 1) * 2 ^ q = ((2 ^ (p - 1) : Int) : ℝ) * 2 ^ (q + 1) := by
  have hpow : (n : ℝ) + 1 = 2 * 2 ^ (p - 1) := by
    rw [← pow_succ', Nat.sub_add_cancel hp]
    exact_mod_cast hn
  rw [hpow, zpow_add_one₀ two_ne_zero]
  push_cast
  ring

theorem digits_next (hp : 0 < p) (hn : n < 2 ^ p) (hlo : ∀ l, lo = some l → l ≤ q) : digits p lo ((n + 1) * 2 ^ q) := by
  rcases (show n + 1 < 2 ^ p ∨ n + 1 = 2 ^ p by omega) with h | h
  · exact_mod_cast digits_units h hlo
  · refine ⟨2 ^ (p - 1), q + 1, carry_units hp h, ?_, fun l hl => (hlo l hl).trans (by omega)⟩
    rw [abs_of_nonneg (by positivity)]
    exact pow_lt_pow_right₀ (by norm_num) (by omega)

theorem lastEven_units (hn : n < 2 ^ p) (hbig : 2 ^ (p - 1) ≤ n ∨ lo = some q) (hlo : ∀ l, lo = some l → l ≤ q)
    (heven : n % 2 = 0) : lastEven p lo (n * 2 ^ q) := by
  have h2 : 2 * ((n / 2 : Nat) : Int) = n := by omega
  refine ⟨(n / 2 : Nat), q, by rw [h2]; push_cast; rfl, ?_, hlo, ?_⟩
  · rw [h2, abs_of_nonneg (by omega)]
    exact_mod_cast hn
  · rw [h2, abs_of_nonneg (by omega)]
    exact hbig.imp (fun h => by exact_mod_cast h) id

theorem lastEven_next (hp : 2 ≤ p) (hn : n < 2 ^ p) (hbig : 2 ^ (p - 1) ≤ n ∨ lo = some q) (hlo : ∀ l, lo = some l → l ≤ q)
    (hodd : n % 2 = 1) : lastEven p lo ((n + 1) * 2 ^ q) := by
  rcases (show n + 1 < 2 ^ p ∨ n + 1 = 2 ^ p by omega) with h | h
  · exact_mod_cast lastEven_units h (hbig.imp (fun h => by omega) id) hlo (by omega)
  · have hpow : 2 * (2 : Int) ^ (p - 2) = 2 ^ (p - 1) := by rw [← pow_succ', show p - 2 + 1 = p - 1 by omega]
    refine ⟨2 ^ (p - 2), q + 1, ?_, ?_, fun l hl => (hlo l hl).trans (by omega), .inl ?_⟩
    · rw [hpow]
      exact carry_units (by omega) h
    · rw [hpow, abs_of_nonneg (by positivity)]
      exact pow_lt_pow_right₀ (by norm_num) (by omega)
    · rw [hpow]
      exact le_abs_self _

/-- A magnitude in units of 2^q, as many as `p` digits hold and fewer only where 2^q is the least unit, rounds to `p` digits. -/
theorem selects_digits {rm : Rm} {neg : Bool} {m : Nat} {e : Int} {st : Bool} {y : ℝ} (h : MagnitudeIs m e st y)
    (hst : st = true → e < q) (hp : 2 ≤ p) (hlo : ∀ l, lo = some l → l ≤ q) (hbig : 2 ^ (p - 1) * 2 ^ q ≤ y ∨ lo = some q)
    (hlt : y < 2 ^ p * 2 ^ q) :
    Selects rm (digits p lo) (lastEven p lo) (signed neg y) (signed neg ((quant rm neg m e st q).1 * 2 ^ q)) := by
  obtain ⟨n, ⟨hn, hn1⟩, hv, -⟩ := quant_between (rm := rm) (neg := neg) h hst
  have hu : (0 : ℝ) < 2 ^ q := two_zpow_pos q
  rw [le_div_iff₀ hu] at hn
  rw [div_lt_iff₀ hu] at hn1
  have hnp : n < 2 ^ p := by
    have : (n : ℝ) < 2 ^ p := lt_of_mul_lt_mul_right (hn.trans_lt hlt) hu.le
    exact_mod_cast this
  have hbig' : 2 ^ (p - 1) ≤ n ∨ lo = some q := hbig.imp (fun h => by
    have : (2 : ℝ) ^ (p - 1) < n + 1 := lt_of_mul_lt_mul_right (h.trans_lt hn1) hu.le
    exact Nat.lt_succ_iff.1 (by exact_mod_cast this)) id
  refine selects_of_neighbours (symmetric_digits p lo) (symmetric_lastEven p lo) (by positivity) hn hn1 (digits_units hnp hlo)
    (digits_next (by omega) hnp hlo) (fun z hz => digits_gap (by omega) hbig' hz) (odd := n % 2 = 1)
    (lastEven_next hp hnp hbig' hlo) (fun ho => lastEven_units hnp hbig' hlo (by omega)) ?_
  rw [goesUp_scale _ _ _ _ _ _ hu]
  exact hv.imp (fun h => ⟨by rw [h.1], h.2⟩) fun h => ⟨by rw [h.1]; push_cast; rfl, h.2⟩

end

end Sys2Proof.Machine
end

section

namespace Sys2Proof.Machine

/-! ### Codes of a floating-point format (R49, R51-R53) -/

/-- The least unit of a format, as an exponent. -/
def unitExp (l : Fields) : Int := leastExp l - l.frac

/-- The number that a code without its sign stands for. -/
def magValue (l : Fields) (g : Nat) : ℚ :=
  if g / 2 ^ l.frac = 0 then g * 2 ^ unitExp l
  else (g % 2 ^ l.frac + 2 ^ l.frac : Nat) * 2 ^ (unitExp l + (g / 2 ^ l.frac - 1 : Nat))

theorem magOf_div (l : Fields) (c : Nat) : magOf l c / 2 ^ l.frac = expOf l c := by
  rw [magOf, expOf, add_comm, pow_add, Nat.mod_mul_right_div_self]

theorem magOf_mod (l : Fields) (c : Nat) : magOf l c % 2 ^ l.frac = fractionOf l c := by
  rw [magOf, fractionOf, Nat.mod_mod_of_dvd _ (pow_dvd_pow 2 (Nat.le_add_left _ _))]

/-- A number is the sign and the value of the magnitude's code. -/
theorem valueOf_eq (l : Fields) (c : Nat) : valueOf l c = (if signOf l c then -1 else 1) * magValue l (magOf l c) := by
  rw [valueOf, magValue, magOf_div, magOf_mod]
  congr 1
  have hfrac : ((2 : ℚ) ^ l.frac) ≠ 0 := by positivity
  split
  next h0 =>
    have hmag : magOf l c = fractionOf l c := by
      have := Nat.div_add_mod (magOf l c) (2 ^ l.frac)
      rw [magOf_div, magOf_mod, h0, mul_zero, zero_add] at this
      exact this.symm
    rw [hmag, unitExp, leastExp, zpow_sub₀ two_ne_zero (1 - biasOf l), zpow_natCast]
    ring
  next h0 =>
    obtain ⟨k, hk⟩ : ∃ k, expOf l c = k + 1 := ⟨expOf l c - 1, by omega⟩
    have hexp : unitExp l + ((k : Nat) : Int) = (k + 1 : Nat) - biasOf l - (l.frac : Nat) := by
      rw [unitExp, leastExp]
      push_cast
      ring
    rw [hk, Nat.add_sub_cancel, hexp, zpow_sub₀ two_ne_zero _ (l.frac : Int), zpow_natCast]
    push_cast
    field_simp
    ring

/-- A code without sign as a number of units, of the weight that its exponent gives. -/
theorem exists_units (l : Fields) (g : Nat) :
    ∃ n d, n < 2 ^ (l.frac + 1) ∧ (d = 0 ∨ 2 ^ l.frac ≤ n) ∧ g = n + d * 2 ^ l.frac := by
  have hdm := Nat.div_add_mod' g (2 ^ l.frac)
  have hlt := Nat.mod_lt g (Nat.two_pow_pos l.frac)
  rw [pow_succ]
  by_cases h0 : g / 2 ^ l.frac = 0
  · exact ⟨g, 0, by rw [h0] at hdm; omega, .inl rfl, by omega⟩
  · obtain ⟨k, hk⟩ : ∃ k, g / 2 ^ l.frac = k + 1 := ⟨_, (Nat.succ_pred_eq_of_ne_zero h0).symm⟩
    refine ⟨g % 2 ^ l.frac + 2 ^ l.frac, k, by omega, .inr (by omega), ?_⟩
    rw [hk, add_mul] at hdm
    omega

/-- The value of a number of units, up to one more than their digits hold. -/
theorem magValue_units (l : Fields) {n d : Nat} (hn : n ≤ 2 ^ (l.frac + 1)) (hd : d = 0 ∨ 2 ^ l.frac ≤ n) :
    magValue l (n + d * 2 ^ l.frac) = n * 2 ^ (unitExp l + (d : Nat)) := by
  have hpos := Nat.two_pow_pos l.frac
  rw [pow_succ] at hn
  rw [magValue, Nat.add_mul_div_right _ _ hpos, Nat.add_mul_mod_self_right]
  rcases Nat.lt_or_ge n (2 ^ l.frac) with h | h
  · obtain rfl := hd.resolve_right (by omega)
    simp [Nat.div_eq_of_lt h]
  · rcases Nat.lt_or_ge n (2 ^ l.frac * 2) with h' | h'
    · have hdiv : n / 2 ^ l.frac = 1 := by rw [Nat.div_eq_iff hpos]; omega
      have hmod : n % 2 ^ l.frac + 2 ^ l.frac = n := by
        have := Nat.div_add_mod' n (2 ^ l.frac)
        rw [hdiv] at this
        omega
      rw [hdiv, hmod, if_neg (by omega), show 1 + d - 1 = d by omega]
    · obtain rfl : n = 2 ^ l.frac * 2 := le_antisymm hn h'
      rw [Nat.mul_div_cancel_left _ hpos, Nat.mul_mod_right, if_neg (by omega), show 2 + d - 1 = d + 1 by omega]
      push_cast
      rw [← add_assoc, zpow_add_one₀ two_ne_zero]
      ring

theorem magValue_strictMono (l : Fields) : StrictMono (magValue l) := by
  refine strictMono_nat_of_lt_succ fun g => ?_
  obtain ⟨n, d, hn, hd, rfl⟩ := exists_units l g
  rw [show n + d * 2 ^ l.frac + 1 = n + 1 + d * 2 ^ l.frac by ring, magValue_units l hn.le hd,
    magValue_units l hn (hd.imp id fun h => by omega)]
  exact mul_lt_mul_of_pos_right (by exact_mod_cast Nat.lt_succ_self n) (by positivity)

theorem magValue_zero (l : Fields) : magValue l 0 = 0 := by simp [magValue]

theorem magValue_nonneg (l : Fields) (g : Nat) : 0 ≤ magValue l g := by
  rw [← magValue_zero l]
  exact (magValue_strictMono l).monotone (Nat.zero_le g)

section
variable {l : Fields} {neg : Bool} {g : Nat} (hg : g < 2 ^ (l.expo + l.frac))
include hg

theorem signOf_signCode_add : signOf l (signCode l neg + g) = neg := by
  rw [signOf, signCode]
  cases neg
  · simpa using Nat.testBit_lt_two_pow hg
  · rw [if_pos rfl, Nat.testBit_two_pow_add_eq, Nat.testBit_lt_two_pow hg]
    rfl

theorem magOf_signCode_add : magOf l (signCode l neg + g) = g := by
  rw [magOf, signCode]
  cases neg
  · simpa using Nat.mod_eq_of_lt hg
  · simpa using Nat.mod_eq_of_lt hg

theorem codeOf_signCode_add : CodeOf l (signCode l neg + g) := by
  have hpow : 2 ^ (1 + l.expo + l.frac) = 2 * 2 ^ (l.expo + l.frac) := by rw [← pow_succ']; congr 1; omega
  rw [CodeOf, signCode, hpow]
  cases neg <;> simp <;> omega

/-- The number of a code that is made of a sign and a magnitude. -/
theorem valueOf_signCode_add : ((valueOf l (signCode l neg + g) : ℚ) : ℝ) = signed neg (magValue l g) := by
  rw [valueOf_eq, signOf_signCode_add hg, magOf_signCode_add hg]
  cases neg <;> simp

end

end Sys2Proof.Machine
end

section

namespace Sys2Proof.Machine

/-! ### A result rounded into a format (R63-R65) -/

/-- The model's format has the precision, the range and the special codes of the fields. -/
structure Matches (f : FloatFmt) (l : Fields) : Prop where
  codes : f.width = 1 + l.expo + l.frac ∧ f.prec = l.frac + 1 ∧ f.emin = leastExp l ∧ f.maxCode = l.top ∧ f.sat = l.sat ∧
    f.infCode = (if l.sat then l.top else infinity l) ∧ f.nanCode = (if l.expo = 2 then 0 else canonical l)
  bounds : 1 ≤ l.frac ∧ l.top < 2 ^ (l.expo + l.frac) ∧ 2 ^ l.frac ≤ l.top ∧ (f.width = 4 ↔ l.expo = 2)
  most : (f.maxM : ℝ) * 2 ^ f.maxE = magValue l l.top

theorem matches_fp32 : Matches fp32 (fieldsOf .f32) :=
  ⟨by decide, by decide, by norm_num [fp32, fieldsOf, magValue, unitExp, leastExp, biasOf]⟩
theorem matches_fp16 : Matches fp16 (fieldsOf .f16) :=
  ⟨by decide, by decide, by norm_num [fp16, fieldsOf, magValue, unitExp, leastExp, biasOf]⟩
theorem matches_bf16 : Matches bf16 (fieldsOf .bf16) :=
  ⟨by decide, by decide, by norm_num [bf16, fieldsOf, magValue, unitExp, leastExp, biasOf]⟩
theorem matches_f8e4 : Matches f8e4 f8e4Fields :=
  ⟨by decide, by decide, by norm_num [f8e4, f8e4Fields, magValue, unitExp, leastExp, biasOf]⟩
theorem matches_f8e5 : Matches f8e5 f8e5Fields :=
  ⟨by decide, by decide, by norm_num [f8e5, f8e5Fields, magValue, unitExp, leastExp, biasOf]⟩
theorem matches_f4 : Matches f4fmt f4Fields :=
  ⟨by decide, by decide, by norm_num [f4fmt, f4Fields, magValue, unitExp, leastExp, biasOf]⟩
theorem matches_fmtOf (ft : FType) : Matches (fmtOf ft) (fieldsOf ft) := by
  cases ft
  · exact matches_fp32
  · exact matches_fp16
  · exact matches_bf16

theorem bitLen_pos {m : Nat} (hm : m ≠ 0) : 0 < bitLen m := by simp [bitLen, hm]

theorem bitLen_bounds {m : Nat} (hm : m ≠ 0) : 2 ^ (bitLen m - 1) ≤ m ∧ m < 2 ^ bitLen m := by
  rw [bitLen, if_neg hm, Nat.add_sub_cancel]
  exact ⟨Nat.log2_self_le hm, Nat.lt_log2_self⟩

/-- The binade of a magnitude is that of its digits. -/
theorem magnitude_binade {m : Nat} {e : Int} {st : Bool} {y : ℝ} (h : MagnitudeIs m e st y) (hm : m ≠ 0) :
    2 ^ (e + (bitLen m : Nat) - 1) ≤ y ∧ y < 2 ^ (e + (bitLen m : Nat)) := by
  obtain ⟨hlo, hhi⟩ := bitLen_bounds hm
  have hpos := bitLen_pos hm
  have hp : (0 : ℝ) < 2 ^ e := two_zpow_pos e
  have h1 : (2 : ℝ) ^ (e + (bitLen m : Nat) - 1) = ((2 ^ (bitLen m - 1) : Nat) : ℝ) * 2 ^ e := by
    rw [show e + (bitLen m : Int) - 1 = ((bitLen m - 1 : Nat) : Int) + e by omega, zpow_add₀ two_ne_zero, zpow_natCast]
    push_cast
    rfl
  have h2 : (2 : ℝ) ^ (e + (bitLen m : Nat)) = ((2 ^ bitLen m : Nat) : ℝ) * 2 ^ e := by
    rw [add_comm, zpow_add₀ two_ne_zero, zpow_natCast]
    push_cast
    rfl
  have hlo' : ((2 ^ (bitLen m - 1) : Nat) : ℝ) ≤ m := by exact_mod_cast hlo
  have hhi' : (m : ℝ) + 1 ≤ ((2 ^ bitLen m : Nat) : ℝ) := by exact_mod_cast hhi
  have hm' : (m : ℝ) * 2 ^ e ≤ y ∧ y < (m + 1) * 2 ^ e := by
    cases st with
    | false => rw [show y = m * 2 ^ e from h]; exact ⟨le_rfl, by nlinarith⟩
    | true => exact ⟨le_of_lt (And.left h), And.right h⟩
  rw [h1, h2]
  exact ⟨(mul_le_mul_of_nonneg_right hlo' hp.le).trans hm'.1, hm'.2.trans_le (mul_le_mul_of_nonneg_right hhi' hp.le)⟩

theorem dyLt_iff (b : Nat) (j : Int) (a : Nat) (i : Int) : dyLt b j a i = true ↔ (b : ℝ) * 2 ^ j < a * 2 ^ i := by
  have hscale (c : Nat) (k : Int) (hk : min i j ≤ k) : (c : ℝ) * 2 ^ k = ((c * 2 ^ (k - min i j).toNat : Nat) : ℝ) * 2 ^ min i j := by
    push_cast
    rw [mul_assoc, ← zpow_natCast, Int.toNat_of_nonneg (by omega), ← zpow_add₀ two_ne_zero, sub_add_cancel]
  rw [dyLt, decide_eq_true_eq, hscale b j (min_le_right i j), hscale a i (min_le_left i j),
    mul_lt_mul_iff_of_pos_right (two_zpow_pos _), Nat.cast_lt]

/-- The exponent of the unit of a magnitude's own binade. -/
def ownUnit (p : Nat) (m : Nat) (e : Int) : Int := e + (bitLen m : Nat) - 1 - (p - 1)

section
variable {f : FloatFmt} {l : Fields} {rm : Rm} {neg : Bool} {m : Nat} {e : Int} {st : Bool} {y : ℝ}

/-- The rounding to the format's precision alone: the units of the magnitude's own binade, `p` digits of them or one more. -/
theorem quant_precision {p : Nat} (hp : 0 < p) (h : MagnitudeIs m e st y) (hm : m ≠ 0) (hst : st = true → p < bitLen m) :
    2 ^ (p - 1) ≤ (quant rm neg m e st (ownUnit p m e)).1 ∧
      (quant rm neg m e st (ownUnit p m e)).1 ≤ 2 ^ p := by
  obtain ⟨hlo, hhi⟩ := magnitude_binade h hm
  have hfine : st = true → e < ownUnit p m e := fun ht => by have := hst ht; unfold ownUnit; omega
  have hu := two_zpow_pos (ownUnit p m e)
  constructor
  · refine le_quant h hfine ?_
    rw [le_div_iff₀ hu]
    refine le_trans (le_of_eq ?_) hlo
    push_cast
    rw [← zpow_natCast, ← zpow_add₀ two_ne_zero]
    congr 1
    unfold ownUnit
    omega
  · refine quant_le h hfine ?_
    rw [div_lt_iff₀ hu]
    refine lt_of_lt_of_eq hhi ?_
    push_cast
    rw [← zpow_natCast, ← zpow_add₀ two_ne_zero]
    congr 1
    unfold ownUnit
    omega

/-- The exponent of a value rounded to the precision. -/
theorem precision_binade {p N : Nat} {q : Int} (hp : 0 < p) (hlo : 2 ^ (p - 1) ≤ N) (hhi : N ≤ 2 ^ p) (k : Int) :
    (if N = 2 ^ p then q + p else q + p - 1) < k ↔ (N : ℝ) * 2 ^ q < 2 ^ k := by
  have hq := two_zpow_pos q
  have hpow (j : Nat) : (2 : ℝ) ^ (q + (j : Int)) = ((2 ^ j : Nat) : ℝ) * 2 ^ q := by
    rw [add_comm, zpow_add₀ two_ne_zero, zpow_natCast]
    push_cast
    rfl
  split
  next h => rw [h, ← hpow, zpow_lt_zpow_iff_right₀ one_lt_two]
  next h =>
    have h1 : (2 : ℝ) ^ (q + p - 1) ≤ N * 2 ^ q := by
      rw [show q + (p : Int) - 1 = q + ((p - 1 : Nat) : Int) by omega, hpow]
      exact mul_le_mul_of_nonneg_right (by exact_mod_cast hlo) hq.le
    have h2 : (N : ℝ) * 2 ^ q < 2 ^ (q + p) := by
      rw [hpow]
      exact mul_lt_mul_of_pos_right (by exact_mod_cast lt_of_le_of_ne hhi h) hq
    constructor
    · intro hk
      exact h2.trans_le (zpow_le_zpow_right₀ one_le_two (by omega))
    · intro hk
      exact (zpow_lt_zpow_iff_right₀ one_lt_two).1 (h1.trans_lt hk)

/-- The exponent of the unit in which a format writes a magnitude. -/
def codeUnit (l : Fields) (m : Nat) (e : Int) : Int := max (ownUnit (l.frac + 1) m e) (unitExp l)
/-- The code without sign of a number of units. -/
def codeOfUnits (l : Fields) (n : Nat) (q : Int) : Nat := n + (q - unitExp l).toNat * 2 ^ l.frac

/-- The units that a format writes a magnitude in make a code of their value. -/
theorem magValue_codeOfUnits (h : MagnitudeIs m e st y) (hm : m ≠ 0) (hst : st = true → l.frac + 1 < bitLen m) :
    (magValue l (codeOfUnits l (quant rm neg m e st (codeUnit l m e)).1 (codeUnit l m e)) : ℝ) =
      (quant rm neg m e st (codeUnit l m e)).1 * 2 ^ codeUnit l m e ∧
    (unitExp l ≤ ownUnit (l.frac + 1) m e ∨
      codeOfUnits l (quant rm neg m e st (codeUnit l m e)).1 (codeUnit l m e) ≤ 2 ^ l.frac) := by
  obtain ⟨hlo, hhi⟩ := quant_precision (p := l.frac + 1) (rm := rm) (neg := neg) (Nat.succ_pos l.frac) h hm hst
  have hd : codeUnit l m e = unitExp l + ((codeUnit l m e - unitExp l).toNat : Int) := by
    have : unitExp l ≤ codeUnit l m e := le_max_right _ _
    omega
  have hval (n : Nat) (hn : n ≤ 2 ^ (l.frac + 1)) (hz : (codeUnit l m e - unitExp l).toNat = 0 ∨ 2 ^ l.frac ≤ n) :
      (magValue l (codeOfUnits l n (codeUnit l m e)) : ℝ) = n * 2 ^ codeUnit l m e := by
    rw [codeOfUnits, magValue_units l hn hz, ← hd]
    push_cast
    rfl
  rcases le_or_gt (unitExp l) (ownUnit (l.frac + 1) m e) with hq | hq
  · have hc : codeUnit l m e = ownUnit (l.frac + 1) m e := max_eq_left hq
    rw [hc] at hval ⊢
    exact ⟨hval _ hhi (.inr hlo), .inl hq⟩
  · have hc : codeUnit l m e = unitExp l := max_eq_right hq.le
    rw [hc] at hval ⊢
    have hsmall : (quant rm neg m e st (unitExp l)).1 ≤ 2 ^ l.frac := by
      unfold ownUnit at hq
      refine quant_le h (fun ht => by have := hst ht; omega) ?_
      rw [div_lt_iff₀ (two_zpow_pos _)]
      refine lt_of_lt_of_le (magnitude_binade h hm).2 ?_
      push_cast
      rw [← zpow_natCast, ← zpow_add₀ two_ne_zero]
      exact zpow_le_zpow_right₀ one_le_two (by omega)
    refine ⟨hval _ (hsmall.trans (Nat.pow_le_pow_right two_pos (by omega))) (.inl (by omega)), .inr ?_⟩
    rw [codeOfUnits, sub_self]
    simpa using hsmall

/-- The answer of an overflow, without sign (R64). -/
theorem overflow_answer (hf : Matches f l) (rm : Rm) (neg : Bool) : overflowCode l rm neg = signCode l neg +
    (if f.sat then f.maxCode else
      match rm with
      | .rne | .rna => f.infCode
      | .rtz => f.maxCode
      | .rup => if neg then f.maxCode else f.infCode
      | .rdn => if neg then f.infCode else f.maxCode) := by
  obtain ⟨-, -, -, hmax, hsat, hinf, -⟩ := hf.codes
  unfold overflowCode
  rw [hmax, hsat, hinf]
  cases l.sat <;> cases rm <;> rfl

/-- The rounding of a magnitude in terms of its units. -/
theorem roundMag_eq (hf : Matches f l) (rm : Rm) (neg : Bool) (m : Nat) (e : Int) (st : Bool) :
    let own := ownUnit (l.frac + 1) m e
    let n := (quant rm neg m e st own).1
    let r := quant rm neg m e st (codeUnit l m e)
    if dyLt f.maxM f.maxE n own = true then
      signCode l neg + (roundMag f rm neg m e st).1 = overflowCode l rm neg ∧ (roundMag f rm neg m e st).2 = 2 + 8
    else roundMag f rm neg m e st = (codeOfUnits l r.1 (codeUnit l m e),
      flagIf (decide ((if n = 2 ^ (l.frac + 1) then own + (l.frac + 1 : Nat) else own + (l.frac + 1 : Nat) - 1) < leastExp l) && r.2) 4 +
        flagIf r.2 8) := by
  obtain ⟨-, hprec, hemin, -⟩ := hf.codes
  have hunit : leastExp l - (((l.frac + 1 : Nat) : Int) - 1) = unitExp l := by unfold unitExp; omega
  intro own n r
  have htop : e + (bitLen m : Nat) - 1 = own + (l.frac + 1 : Nat) - 1 := by unfold own ownUnit; omega
  have hown : own + (l.frac + 1 : Nat) - 1 - (((l.frac + 1 : Nat) : Int) - 1) = own := by omega
  have hn : (quant rm neg m e st own).1 = n := rfl
  have hmax : max own (unitExp l) = codeUnit l m e := rfl
  have hr : quant rm neg m e st (codeUnit l m e) = r := rfl
  rw [overflow_answer hf]
  unfold roundMag
  simp only [hprec, hemin, htop, hown, hunit, hn, hmax, hr, Nat.add_sub_cancel, sub_add_cancel]
  split
  · exact ⟨rfl, rfl⟩
  · rfl

/-- A magnitude rounded into a format: the value of unbounded exponent range decides on overflow and tininess, and what does not
overflow is rounded to the format's own units. -/
theorem roundMag_rounds (hf : Matches f l) (h : MagnitudeIs m e st y) (hm : m ≠ 0) (hst : st = true → f.prec < bitLen m) :
    ∃ u : ℝ, 0 ≤ u ∧ Selects rm (digits (l.frac + 1) none) (lastEven (l.frac + 1) none) (signed neg y) (signed neg u) ∧
      ((magValue l l.top < u ∧ signCode l neg + (roundMag f rm neg m e st).1 = overflowCode l rm neg ∧
          (roundMag f rm neg m e st).2 = 2 + 8) ∨
        (u ≤ magValue l l.top ∧ (roundMag f rm neg m e st).1 ≤ l.top ∧
          Selects rm (digits (l.frac + 1) (some (unitExp l))) (lastEven (l.frac + 1) (some (unitExp l))) (signed neg y)
            (signed neg (magValue l (roundMag f rm neg m e st).1)) ∧
          (roundMag f rm neg m e st).2 = (if u < 2 ^ leastExp l ∧ (magValue l (roundMag f rm neg m e st).1 : ℝ) ≠ y then 4 else 0) +
            if (magValue l (roundMag f rm neg m e st).1 : ℝ) ≠ y then 8 else 0)) := by
  obtain ⟨-, hprec, hemin, -⟩ := hf.codes
  obtain ⟨hfrac, -, htop, -⟩ := hf.bounds
  rw [hprec] at hst
  obtain ⟨hlo, hhi⟩ := quant_precision (p := l.frac + 1) (rm := rm) (neg := neg) (Nat.succ_pos l.frac) h hm hst
  obtain ⟨hy1, hy2⟩ := magnitude_binade h hm
  obtain ⟨hcode, hsub⟩ := magValue_codeOfUnits (rm := rm) (neg := neg) h hm hst
  have hfine : st = true → e < ownUnit (l.frac + 1) m e := fun ht => by have := hst ht; unfold ownUnit; omega
  have hfine' : st = true → e < codeUnit l m e := fun ht => (hfine ht).trans_le (le_max_left _ _)
  have hpow : (2 : ℝ) ^ (l.frac + 1 - 1) * 2 ^ ownUnit (l.frac + 1) m e ≤ y ∧ y < 2 ^ (l.frac + 1) * 2 ^ ownUnit (l.frac + 1) m e := by
    rw [← zpow_natCast, ← zpow_natCast, ← zpow_add₀ two_ne_zero, ← zpow_add₀ two_ne_zero]
    refine ⟨le_trans (le_of_eq ?_) hy1, lt_of_lt_of_eq hy2 ?_⟩ <;> congr 1 <;> unfold ownUnit <;> omega
  refine ⟨(quant rm neg m e st (ownUnit (l.frac + 1) m e)).1 * 2 ^ ownUnit (l.frac + 1) m e, by positivity,
    selects_digits h hfine (by omega) (by simp) (.inl hpow.1) hpow.2, ?_⟩
  have hround := roundMag_eq hf rm neg m e st
  dsimp only at hround
  split at hround
  next hov => exact .inl ⟨by rwa [dyLt_iff, hf.most] at hov, hround⟩
  next hov =>
    rw [dyLt_iff, hf.most, not_lt] at hov
    have hcu := two_zpow_pos (codeUnit l m e)
    have hexact : (quant rm neg m e st (codeUnit l m e)).2 = true ↔
        (magValue l (codeOfUnits l (quant rm neg m e st (codeUnit l m e)).1 (codeUnit l m e)) : ℝ) ≠ y := by
      rw [quant_inexact h hfine', hcode, ne_eq, ne_eq, div_eq_iff hcu.ne', eq_comm]
    rw [hround]
    refine .inr ⟨hov, ?_, ?_, ?_⟩
    · rcases hsub with hq | hsub
      · rw [← (magValue_strictMono l).le_iff_le, ← Rat.cast_le (K := ℝ), hcode]
        rwa [codeUnit, max_eq_left hq]
      · exact hsub.trans htop
    · rw [hcode]
      refine selects_digits h hfine' (by omega) (fun k hk => by cases hk; exact le_max_right _ _) ?_
        (hpow.2.trans_le (mul_le_mul_of_nonneg_left (zpow_le_zpow_right₀ one_le_two (le_max_left _ _)) (by positivity)))
      rcases le_total (unitExp l) (ownUnit (l.frac + 1) m e) with hq | hq
      · rw [codeUnit, max_eq_left hq]
        exact .inl hpow.1
      · rw [codeUnit, max_eq_right hq]
        exact .inr rfl
    · simp only [precision_binade (Nat.succ_pos l.frac) hlo hhi, flagIf, Bool.and_eq_true, decide_eq_true_eq, hexact]

end

end Sys2Proof.Machine
end

section

namespace Sys2Proof.Machine

/-! ### Codes of exact values -/

section
variable {f : FloatFmt} {l : Fields}

theorem signBit_eq (hf : Matches f l) (neg : Bool) : signBit f neg = signCode l neg := by
  obtain ⟨hwidth, -⟩ := hf.codes
  rw [signBit, signCode, hwidth, show 1 + l.expo + l.frac - 1 = l.expo + l.frac by omega]

theorem width_four (hf : Matches f l) : (f.width == 4) = decide (l.expo = 2) := by
  obtain ⟨-, -, -, hfour⟩ := hf.bounds
  rw [← decide_eq_decide.2 hfour]
  rfl

theorem encodeF_nan (hf : Matches f l) (rm : Rm) (st : Bool) :
    encodeF f rm .nan st = if l.expo = 2 then (0, 1) else (canonical l, 0) := by
  obtain ⟨-, -, -, -, -, -, hnan⟩ := hf.codes
  simp only [encodeF, width_four hf, decide_eq_true_eq, hnan, fNV]
  split <;> rfl

theorem encodeF_inf (hf : Matches f l) (rm : Rm) (neg st : Bool) :
    encodeF f rm (.inf neg) st = (signCode l neg + if l.sat then l.top else infinity l, if l.sat then 2 + 8 else 0) := by
  obtain ⟨-, -, -, -, hsat, hinf, -⟩ := hf.codes
  simp only [encodeF, signBit_eq hf, hinf, hsat, fOF, fNX]

theorem encodeF_zero (hf : Matches f l) (rm : Rm) (neg : Bool) (e : Int) :
    encodeF f rm (.fin neg 0 e) = (if l.expo = 2 then 0 else signCode l neg, 0) := by
  simp only [encodeF, width_four hf, signBit_eq hf, decide_eq_true_eq]
  rfl

theorem encodeF_fin (hf : Matches f l) (rm : Rm) (neg : Bool) {m : Nat} (e : Int) (st : Bool) (hm : m ≠ 0) :
    encodeF f rm (.fin neg m e) st =
      (if l.expo = 2 ∧ (roundMag f rm neg m e st).1 = 0 then 0 else signCode l neg + (roundMag f rm neg m e st).1,
        (roundMag f rm neg m e st).2) := by
  simp only [encodeF, width_four hf, signBit_eq hf, hm, false_and, if_false, Bool.and_eq_true, decide_eq_true_eq, beq_iff_eq]

theorem signCode_false (l : Fields) : signCode l false = 0 := rfl

theorem valueOf_top (hf : Matches f l) : ((valueOf l l.top : ℚ) : ℝ) = magValue l l.top := by
  obtain ⟨-, htop, -⟩ := hf.bounds
  have h := valueOf_signCode_add (neg := false) htop
  rwa [signCode_false, zero_add] at h

theorem overflowCode_ne (hf : Matches f l) (rm : Rm) (neg : Bool) : overflowCode l rm neg ≠ signCode l neg := by
  obtain ⟨-, -, htop, -⟩ := hf.bounds
  have hpos := Nat.two_pow_pos l.frac
  unfold overflowCode infinity
  cases l.sat <;> cases rm <;> cases neg <;> simp <;> omega

/-- The code of a sign and a magnitude; F4 has one zero (R53). -/
def codeOf (l : Fields) (neg : Bool) (g : Nat) : Nat := if l.expo = 2 ∧ g = 0 then 0 else signCode l neg + g

theorem codeOf_eq {l : Fields} {neg : Bool} {g : Nat} (h : ¬ (l.expo = 2 ∧ g = 0)) : codeOf l neg g = signCode l neg + g := if_neg h

theorem signed_zero (neg : Bool) : signed neg 0 = 0 := by cases neg <;> simp

theorem valueOf_codeOf {neg : Bool} {g : Nat} (hg : g < 2 ^ (l.expo + l.frac)) :
    (valueOf l (codeOf l neg g) : ℝ) = signed neg (magValue l g) := by
  by_cases h0 : l.expo = 2 ∧ g = 0
  · have hz := valueOf_signCode_add (neg := false) (Nat.two_pow_pos (l.expo + l.frac))
    rw [signCode_false, zero_add, magValue_zero] at hz
    rw [codeOf, if_pos h0, h0.2, magValue_zero, hz]
    simp [signed_zero]
  · rw [codeOf_eq h0]
    exact valueOf_signCode_add hg

theorem valueOf_codeOf_eq_zero {neg : Bool} {g : Nat} (hg : g < 2 ^ (l.expo + l.frac)) : valueOf l (codeOf l neg g) = 0 ↔ g = 0 := by
  rw [← Rat.cast_eq_zero (α := ℝ), valueOf_codeOf hg, ← (magValue_strictMono l).injective.eq_iff, magValue_zero,
    ← Rat.cast_inj (α := ℝ)]
  cases neg <;> simp

theorem finite_codeOf (hf : Matches f l) {neg : Bool} {g : Nat} (hg : g ≤ l.top) : Finite l (codeOf l neg g) := by
  obtain ⟨-, htop, -⟩ := hf.bounds
  by_cases h0 : l.expo = 2 ∧ g = 0
  · rw [codeOf, if_pos h0]
    exact ⟨Nat.two_pow_pos _, by simp [magOf]⟩
  · have hlt := hg.trans_lt htop
    rw [codeOf_eq h0]
    exact ⟨codeOf_signCode_add hlt, by rwa [magOf_signCode_add hlt]⟩

/-- An exact magnitude, or one that a sticky bit completes, rounds into a format as R63 to R65 say. -/
theorem encodeF_roundsTo (hf : Matches f l) {rm : Rm} {neg : Bool} {m : Nat} {e : Int} {st : Bool} {y : ℝ}
    (h : MagnitudeIs m e st y) (hm : m ≠ 0) (hst : st = true → f.prec < bitLen m) :
    RoundsTo l rm (signed neg y) (encodeF f rm (.fin neg m e) st).1 (encodeF f rm (.fin neg m e) st).2 := by
  obtain ⟨-, htop, -⟩ := hf.bounds
  obtain ⟨u, hu, hsel, hcases⟩ := roundMag_rounds (rm := rm) (neg := neg) hf h hm hst
  have hy : 0 < y := (two_zpow_pos _).trans_le (magnitude_binade h hm).1
  have hneg : decide (signed neg y < 0) = neg := by
    cases neg
    · exact decide_eq_false hy.le.not_gt
    · exact decide_eq_true (neg_neg_of_pos hy)
  have henc : encodeF f rm (.fin neg m e) st = (codeOf l neg (roundMag f rm neg m e st).1, (roundMag f rm neg m e st).2) :=
    encodeF_fin hf rm neg e st hm
  rw [henc]
  generalize roundMag f rm neg m e st = r at hcases
  refine ⟨signed neg u, hsel, ?_⟩
  rw [abs_signed neg hu, valueOf_top hf, hneg]
  refine hcases.imp (fun ⟨hov, hc, hfl⟩ => ⟨hov, ?_, hfl⟩) fun ⟨hov, hc, hsel', hfl⟩ => ?_
  · rw [codeOf_eq fun h0 => overflowCode_ne hf rm neg (by rw [← hc, h0.2, add_zero]), hc]
  · have hlt : r.1 < 2 ^ (l.expo + l.frac) := hc.trans_lt htop
    have hne : (valueOf l (codeOf l neg r.1) : ℝ) = signed neg y ↔ (magValue l r.1 : ℝ) = y := by
      rw [valueOf_codeOf hlt]
      cases neg <;> simp
    refine ⟨hov, finite_codeOf hf hc, ?_, by rwa [valueOf_codeOf hlt], by simpa only [ne_eq, hne] using hfl⟩
    simp only [valueOf_codeOf_eq_zero hlt]
    split
    next h0 => exact if_pos h0
    next h0 =>
      rw [codeOf_eq h0]
      exact signOf_signCode_add hlt

theorem numberOf_fin (neg : Bool) (m : Nat) (e : Int) : ((numberOf (.fin neg m e) : ℚ) : ℝ) = signed neg (m * 2 ^ e) := by
  cases neg <;> simp [numberOf]

theorem numberOf_eq_zero {neg : Bool} {m : Nat} {e : Int} : numberOf (.fin neg m e) = 0 ↔ m = 0 := by
  cases neg <;> simp [numberOf, zpow_ne_zero]

/-- What an exact value becomes in a format is its code there. -/
theorem encodeF_becomes (hf : Matches f l) (rm : Rm) (v : FV) : BecomesFloat l rm v (encodeF f rm v) := by
  cases v with
  | nan => exact encodeF_nan hf rm false
  | inf neg => exact encodeF_inf hf rm neg false
  | fin neg m e =>
    by_cases hm : m = 0
    · subst hm
      exact encodeF_zero hf rm neg e
    · simp only [BecomesFloat, if_neg hm]
      rw [numberOf_fin]
      exact encodeF_roundsTo hf rfl hm (fun h => Bool.noConfusion h)

end

end Sys2Proof.Machine
end

section

namespace Sys2Proof.Machine

/-! ### What a code stands for (R49-R53) -/

/-- The format has an infinity and NaNs in its highest exponent (R49, R52). -/
abbrev HasSpecials (l : Fields) : Prop := l.sat = false ∧ l.top + 1 = (2 ^ l.expo - 1) * 2 ^ l.frac ∧ 2 ≤ l.expo ∧ l.expo ≠ 2

theorem hasSpecials_fieldsOf (ft : FType) : HasSpecials (fieldsOf ft) := by cases ft <;> decide
theorem hasSpecials_f8e5 : HasSpecials f8e5Fields := by decide

/-- The classes of a code by its exponent and fraction. -/
theorem code_classes {l : Fields} (hs : HasSpecials l) {c : Nat} (hc : CodeOf l c) :
    (Finite l c ↔ expOf l c ≠ 2 ^ l.expo - 1) ∧ (Infinite l c ↔ expOf l c = 2 ^ l.expo - 1 ∧ fractionOf l c = 0) ∧
      (NotANumber l c ↔ expOf l c = 2 ^ l.expo - 1 ∧ fractionOf l c ≠ 0) := by
  obtain ⟨hsat, htop, -, -⟩ := hs
  have hdm := Nat.div_add_mod' (magOf l c) (2 ^ l.frac)
  rw [magOf_div, magOf_mod] at hdm
  have hfr : fractionOf l c < 2 ^ l.frac := Nat.mod_lt _ (Nat.two_pow_pos _)
  have hex : expOf l c < 2 ^ l.expo := Nat.mod_lt _ (Nat.two_pow_pos _)
  simp only [Finite, Infinite, NotANumber, hc, true_and, hsat, Bool.false_eq_true, if_false, htop, ← hdm]
  have hle {a b : Nat} (h : a < b) : a * 2 ^ l.frac + 2 ^ l.frac ≤ b * 2 ^ l.frac := by
    rw [← Nat.succ_mul]
    exact Nat.mul_le_mul_right _ h
  rcases lt_or_eq_of_le (Nat.le_sub_one_of_lt hex) with h | h
  · have := hle h
    refine ⟨iff_of_true (by omega) h.ne, iff_of_false (by omega) fun hh => h.ne hh.1, iff_of_false (by omega) fun hh => h.ne hh.1⟩
  · rw [h]
    refine ⟨iff_of_false (by omega) (by simp), ?_, ?_⟩ <;> simp only [true_and] <;> omega

theorem signOf_eq (l : Fields) (c : Nat) : (c / 2 ^ (l.expo + l.frac) % 2 == 1) = signOf l c := by
  rw [signOf, Nat.testBit_eq_decide_div_mod_eq]
  rfl

/-- A finite code is decoded to the number that it stands for. -/
theorem numberOf_fields (l : Fields) (c : Nat) :
    (expOf l c = 0 → numberOf (.fin (signOf l c) (fractionOf l c) (unitExp l)) = valueOf l c) ∧
    (expOf l c ≠ 0 →
      numberOf (.fin (signOf l c) (fractionOf l c + 2 ^ l.frac) (unitExp l + (expOf l c - 1 : Nat))) = valueOf l c) := by
  rw [valueOf_eq, magValue, magOf_div, magOf_mod]
  refine ⟨fun h => ?_, fun h => ?_⟩
  · have hmag : magOf l c = fractionOf l c := by
      have := Nat.div_add_mod (magOf l c) (2 ^ l.frac)
      rw [magOf_div, magOf_mod, h, mul_zero, zero_add] at this
      exact this.symm
    rw [if_pos h, hmag, numberOf, mul_assoc]
  · rw [if_neg h, numberOf, mul_assoc]

section
variable {f : FloatFmt} {l : Fields}

theorem decodeIeee_eq (hf : Matches f l) (c : Nat) : decodeIeee f c =
    if expOf l c = 2 ^ l.expo - 1 then (if fractionOf l c = 0 then .inf (signOf l c) else .nan)
    else if expOf l c = 0 then .fin (signOf l c) (fractionOf l c) (unitExp l)
    else .fin (signOf l c) (fractionOf l c + 2 ^ l.frac) (unitExp l + (expOf l c - 1 : Nat)) := by
  obtain ⟨hwidth, hprec, hemin, -⟩ := hf.codes
  have hmb : f.prec - 1 = l.frac := by omega
  have hw : f.width - 1 = l.expo + l.frac := by omega
  have hunit : leastExp l - (l.frac : Int) = unitExp l := rfl
  have hex : c / 2 ^ l.frac % 2 ^ l.expo = expOf l c := rfl
  have hfr : c % 2 ^ l.frac = fractionOf l c := rfl
  simp only [decodeIeee, hmb, hw, Nat.add_sub_cancel, hemin, signOf_eq, hunit, hex, hfr]
  by_cases h0 : expOf l c = 0
  · simp only [h0, if_true]
  · rw [Nat.cast_sub (Nat.one_le_iff_ne_zero.2 h0), Nat.cast_one]

theorem decodeIeee_standsFor (hf : Matches f l) (hs : HasSpecials l) {c : Nat} (hc : CodeOf l c) : StandsFor l c (decodeIeee f c) := by
  obtain ⟨hfin, hinf, hnan⟩ := code_classes hs hc
  obtain ⟨hsub, hnorm⟩ := numberOf_fields l c
  rw [decodeIeee_eq hf]
  refine ⟨fun h => ?_, fun h => ?_, fun h => ?_⟩
  · rw [if_neg (hfin.1 h)]
    split
    next h0 => exact ⟨_, _, rfl, hsub h0⟩
    next h0 => exact ⟨_, _, rfl, hnorm h0⟩
  · obtain ⟨he, hfr⟩ := hinf.1 h
    rw [if_pos he, if_pos hfr]
  · obtain ⟨he, hfr⟩ := hnan.1 h
    rw [if_pos he, if_neg hfr]

theorem class_cases (hs : HasSpecials l) {c : Nat} (hc : CodeOf l c) : Finite l c ∨ Infinite l c ∨ NotANumber l c := by
  obtain ⟨hfin, hinf, hnan⟩ := code_classes hs hc
  rw [hfin, hinf, hnan]
  tauto

end

end Sys2Proof.Machine
end

section

namespace Sys2Proof.Machine

/-! ### Exact sums and products (R50) -/

theorem numberOf_signedAt (neg : Bool) (m : Nat) {e l : Int} (hl : l ≤ e) : numberOf (.fin neg m e) = signedAt neg m e l * 2 ^ l := by
  have hpow : (2 : ℚ) ^ e = 2 ^ (e - l).toNat * 2 ^ l := by
    rw [← zpow_natCast, Int.toNat_of_nonneg (by omega), ← zpow_add₀ two_ne_zero, sub_add_cancel]
  cases neg <;> simp [numberOf, signedAt, hpow, mul_assoc]

theorem numberOf_int (x l : Int) : numberOf (.fin (decide (x < 0)) x.natAbs l) = x * 2 ^ l := by
  have habs : ((x.natAbs : Nat) : ℚ) = ((x.natAbs : Int) : ℚ) := (Int.cast_natCast _).symm
  rw [numberOf, habs]
  rcases lt_or_ge x 0 with h | h
  · rw [decide_eq_true h, if_pos rfl, show (x.natAbs : Int) = -x by omega]
    push_cast
    ring
  · rw [decide_eq_false (not_lt.2 h), show (x.natAbs : Int) = x by omega]
    simp

theorem numberOf_zero (neg : Bool) (e : Int) : numberOf (.fin neg 0 e) = 0 := by cases neg <;> simp [numberOf]

theorem numberOf_negV (v : FV) : numberOf (negV v) = -numberOf v := by
  cases v with
  | fin neg m e => cases neg <;> simp [negV, numberOf]
  | _ => simp [negV, numberOf]

/-- The exact sum of two numbers, and the sign of a zero one. -/
theorem addV_fin (rm : Rm) (a b : Bool) (m n : Nat) (e f : Int) : ∃ s k j, addV rm (.fin a m e) (.fin b n f) = (.fin s k j, 0) ∧
    numberOf (.fin s k j) = numberOf (.fin a m e) + numberOf (.fin b n f) ∧
      (k = 0 → s = if m = 0 then (if a = b then a else rm == .rdn) else rm == .rdn) := by
  by_cases hm : m = 0
  · subst hm
    rw [numberOf_zero, zero_add]
    by_cases hn : n = 0
    · subst hn
      exact ⟨_, 0, 0, rfl, by rw [numberOf_zero, numberOf_zero], fun _ => rfl⟩
    · refine ⟨b, n, f, ?_, rfl, fun h => absurd h hn⟩
      simp [addV, hn]
  · by_cases hn : n = 0
    · subst hn
      refine ⟨a, m, e, ?_, by rw [numberOf_zero, add_zero], fun h => absurd h hm⟩
      simp [addV, hm]
    · have hadd : addV rm (.fin a m e) (.fin b n f) =
          let x := signedAt a m e (min e f) + signedAt b n f (min e f)
          if x = 0 then (.fin (rm == .rdn) 0 0, 0) else (.fin (decide (x < 0)) x.natAbs (min e f), 0) := by
        simp only [addV, hm, hn, false_and, if_false]
      rw [hadd, numberOf_signedAt a m (min_le_left e f), numberOf_signedAt b n (min_le_right e f), ← add_mul, ← Int.cast_add, if_neg hm]
      generalize signedAt a m e (min e f) + signedAt b n f (min e f) = x
      dsimp only
      split
      next h0 => exact ⟨_, 0, 0, rfl, by rw [numberOf_zero, h0, Int.cast_zero, zero_mul], fun _ => rfl⟩
      next h0 => exact ⟨_, _, _, rfl, numberOf_int x _, fun h => absurd (Int.natAbs_eq_zero.1 h) h0⟩

theorem numberOf_mul (a b : Bool) (m n : Nat) (e f : Int) :
    numberOf (.fin (a != b) (m * n) (e + f)) = numberOf (.fin a m e) * numberOf (.fin b n f) := by
  have hpow : (2 : ℚ) ^ (e + f) = 2 ^ e * 2 ^ f := zpow_add₀ two_ne_zero e f
  cases a <;> cases b <;> simp [numberOf, hpow] <;> ring

/-! ### Arithmetic of finite operands -/

/-- The code and the flags of an exact result; an exact zero has the sign `neg` and raises nothing. -/
def RoundedTo (l : Fields) (rm : Rm) (v : ℝ) (r : Nat × Nat) (neg : Bool) : Prop :=
  if v = 0 then r = (signCode l neg, 0) else RoundsTo l rm v r.1 r.2

section
variable {f : FloatFmt} {l : Fields}

theorem opF_quiet (f : FloatFmt) (rm : Rm) (v : FV) : opF f rm (v, 0) = encodeF f rm v := by simp [opF]

theorem opF_rounded (hf : Matches f l) (h2 : l.expo ≠ 2) {rm : Rm} {s : Bool} {k : Nat} {j : Int} {v : ℚ} {neg : Bool}
    (hv : numberOf (.fin s k j) = v) (hneg : k = 0 → s = neg) : RoundedTo l rm v (opF f rm (.fin s k j, 0)) neg := by
  have hb := encodeF_becomes hf rm (.fin s k j)
  simp only [BecomesFloat] at hb
  simp only [opF_quiet, RoundedTo, ← hv, Rat.cast_eq_zero, numberOf_eq_zero]
  by_cases hk : k = 0
  · rw [if_pos hk] at hb ⊢
    rw [hb, if_neg h2, hneg hk]
  · rwa [if_neg hk] at hb ⊢

/-- A finite code of a format with infinities is decoded to its number, which is zero exactly when its code is. -/
theorem decodeIeee_finite (hf : Matches f l) (hs : HasSpecials l) {c : Nat} (hc : Finite l c) :
    ∃ m e, decodeIeee f c = .fin (signOf l c) m e ∧ numberOf (.fin (signOf l c) m e) = valueOf l c := by
  obtain ⟨m, e, hd, hv⟩ := (decodeIeee_standsFor hf hs hc.1).1 hc
  exact ⟨m, e, hd, by rw [← hd, hv]⟩

theorem valueOf_eq_zero (l : Fields) (c : Nat) : valueOf l c = 0 ↔ magOf l c = 0 := by
  rw [valueOf_eq, mul_eq_zero, or_iff_right (by split <;> norm_num), ← magValue_zero l, (magValue_strictMono l).injective.eq_iff]

theorem addF_rounded (hf : Matches f l) (hs : HasSpecials l) (rm : Rm) {a b : Nat} (ha : Finite l a) (hb : Finite l b) :
    RoundedTo l rm (valueOf l a + valueOf l b) (addF f rm a b)
      (if (valueOf l a : ℝ) = 0 then (if signOf l a = signOf l b then signOf l a else rm == .rdn) else rm == .rdn) := by
  obtain ⟨m, e, hda, hva⟩ := decodeIeee_finite hf hs ha
  obtain ⟨n, g, hdb, hvb⟩ := decodeIeee_finite hf hs hb
  obtain ⟨s, k, j, hadd, hnum, hsign⟩ := addV_fin rm (signOf l a) (signOf l b) m n e g
  simp only [addF, hda, hdb, hadd, ← Rat.cast_add, Rat.cast_eq_zero, ← hva, ← hvb]
  refine opF_rounded hf hs.2.2.2 hnum fun hk => ?_
  simp only [hsign hk, numberOf_eq_zero]

theorem subF_rounded (hf : Matches f l) (hs : HasSpecials l) (rm : Rm) {a b : Nat} (ha : Finite l a) (hb : Finite l b) :
    RoundedTo l rm (valueOf l a - valueOf l b) (subF f rm a b)
      (if (valueOf l a : ℝ) = 0 then (if signOf l a = !signOf l b then signOf l a else rm == .rdn) else rm == .rdn) := by
  obtain ⟨m, e, hda, hva⟩ := decodeIeee_finite hf hs ha
  obtain ⟨n, g, hdb, hvb⟩ := decodeIeee_finite hf hs hb
  obtain ⟨s, k, j, hadd, hnum, hsign⟩ := addV_fin rm (signOf l a) (!signOf l b) m n e g
  have hneg : numberOf (.fin (!signOf l b) n g) = -valueOf l b := by
    rw [← hvb]
    exact numberOf_negV (.fin (signOf l b) n g)
  simp only [subF, hda, hdb, negV, hadd, sub_eq_add_neg, ← Rat.cast_neg, ← Rat.cast_add, Rat.cast_eq_zero, ← hneg, ← hva]
  refine opF_rounded hf hs.2.2.2 hnum fun hk => ?_
  simp only [hsign hk, numberOf_eq_zero]

theorem mulF_rounded (hf : Matches f l) (hs : HasSpecials l) (rm : Rm) {a b : Nat} (ha : Finite l a) (hb : Finite l b) :
    RoundedTo l rm (valueOf l a * valueOf l b) (mulF f rm a b) (signOf l a != signOf l b) := by
  obtain ⟨m, e, hda, hva⟩ := decodeIeee_finite hf hs ha
  obtain ⟨n, g, hdb, hvb⟩ := decodeIeee_finite hf hs hb
  rw [mulF, hda, hdb, mulV, ← Rat.cast_mul, ← hva, ← hvb]
  exact opF_rounded hf hs.2.2.2 (numberOf_mul _ _ _ _ _ _) fun _ => rfl

theorem fmaF_rounded (hf : Matches f l) (hs : HasSpecials l) (rm : Rm) {a b c : Nat} (ha : Finite l a) (hb : Finite l b)
    (hc : Finite l c) : RoundedTo l rm (valueOf l a * valueOf l b + valueOf l c) (fmaF f rm a b c)
      (if (valueOf l a : ℝ) * valueOf l b = 0 then
        (if (signOf l a != signOf l b) = signOf l c then signOf l a != signOf l b else rm == .rdn) else rm == .rdn) := by
  obtain ⟨m, e, hda, hva⟩ := decodeIeee_finite hf hs ha
  obtain ⟨n, g, hdb, hvb⟩ := decodeIeee_finite hf hs hb
  obtain ⟨o, i, hdc, hvc⟩ := decodeIeee_finite hf hs hc
  obtain ⟨s, k, j, hadd, hnum, hsign⟩ := addV_fin rm (signOf l a != signOf l b) (signOf l c) (m * n) o (e + g) i
  have hfma : fmaV rm (.fin (signOf l a) m e) (.fin (signOf l b) n g) (.fin (signOf l c) o i) = (.fin s k j, 0) := by
    simp only [fmaV, mulV, hadd]
    rfl
  simp only [fmaF, hda, hdb, hdc, hfma, ← Rat.cast_mul, ← Rat.cast_add, Rat.cast_eq_zero, ← hva, ← hvb, ← hvc, ← numberOf_mul]
  refine opF_rounded hf hs.2.2.2 hnum fun hk => ?_
  simp only [hsign hk, numberOf_eq_zero]

end

end Sys2Proof.Machine
end

section

namespace Sys2Proof.Machine

/-! ### Quotients, roots and reciprocals (R70, R71) -/

theorem lt_bitLen {p m : Nat} (h : 2 ^ p ≤ m) : p < bitLen m :=
  (Nat.pow_lt_pow_iff_right one_lt_two).1 (h.trans_lt (bitLen_bounds (Nat.pos_iff_ne_zero.1 (Nat.two_pow_pos p |>.trans_le h))).2)

/-- A quotient with its remainder in the sticky bit. -/
theorem quotient_magnitude (A : Nat) {n : Nat} (hn : 0 < n) (j : Int) : MagnitudeIs (A / n) j (A % n != 0) (A / n * 2 ^ j) := by
  have hdm : (A : ℝ) = n * (A / n : Nat) + (A % n : Nat) := by exact_mod_cast (Nat.div_add_mod A n).symm
  have hlt : ((A % n : Nat) : ℝ) < n := by exact_mod_cast Nat.mod_lt A hn
  have hn' : (0 : ℝ) < n := by exact_mod_cast hn
  have hj := two_zpow_pos j
  by_cases h0 : A % n = 0
  · rw [h0, bne_self_eq_false]
    rw [h0, Nat.cast_zero, add_zero] at hdm
    show (A : ℝ) / n * 2 ^ j = _
    rw [hdm, mul_div_cancel_left₀ _ hn'.ne']
  · have hpos : (0 : ℝ) < (A % n : Nat) := by exact_mod_cast Nat.pos_of_ne_zero h0
    rw [bne_iff_ne.2 h0]
    refine ⟨mul_lt_mul_of_pos_right ?_ hj, mul_lt_mul_of_pos_right ?_ hj⟩
    · rw [lt_div_iff₀ hn']
      linarith
    · rw [div_lt_iff₀ hn']
      linarith

theorem divMag_magnitude (m : Nat) (e : Int) {n : Nat} (hn : n ≠ 0) (f : Int) :
    MagnitudeIs (divMag m e n f).1 (divMag m e n f).2.1 (divMag m e n f).2.2 (m * 2 ^ e / (n * 2 ^ f)) := by
  have h := quotient_magnitude (m * 2 ^ (40 + bitLen n)) (Nat.pos_of_ne_zero hn) (e - f - (40 + bitLen n : Nat))
  have hval : (m : ℝ) * 2 ^ e / (n * 2 ^ f) =
      ((m * 2 ^ (40 + bitLen n) : Nat) : ℝ) / n * 2 ^ (e - f - (40 + bitLen n : Nat)) := by
    rw [zpow_sub₀ two_ne_zero, zpow_sub₀ two_ne_zero, zpow_natCast]
    push_cast
    field_simp
  rw [hval]
  exact h

theorem divMag_large {m : Nat} (hm : m ≠ 0) (e : Int) {n : Nat} (hn : n ≠ 0) (f : Int) : 2 ^ 40 ≤ (divMag m e n f).1 := by
  rw [divMag, Nat.le_div_iff_mul_le (Nat.pos_of_ne_zero hn), pow_add]
  calc 2 ^ 40 * n ≤ 2 ^ 40 * 2 ^ bitLen n := Nat.mul_le_mul_left _ (bitLen_bounds hn).2.le
    _ ≤ m * (2 ^ 40 * 2 ^ bitLen n) := Nat.le_mul_of_pos_left _ (Nat.pos_of_ne_zero hm)

/-- A magnitude of many digits rounds into FP32, with a sticky bit or without. -/
theorem encodeF_fp32 {rm : Rm} {neg : Bool} {m : Nat} {e : Int} {st : Bool} {y : ℝ} (h : MagnitudeIs m e st y) (hm : 2 ^ 40 ≤ m) :
    RoundsTo (fieldsOf .f32) rm (signed neg y) (encodeF fp32 rm (.fin neg m e) st).1 (encodeF fp32 rm (.fin neg m e) st).2 :=
  encodeF_roundsTo matches_fp32 h (by rintro rfl; omega) fun _ => (by decide : fp32.prec < 40).trans (lt_bitLen hm)

theorem signed_div (a b : Bool) (y z : ℝ) : signed (a != b) (y / z) = signed a y / signed b z := by
  cases a <;> cases b <;> simp [neg_div, div_neg]

theorem divF_rounded (rm : Rm) {a b : Nat} (ha : Finite (fieldsOf .f32) a) (hb : Finite (fieldsOf .f32) b)
    (hne : (valueOf (fieldsOf .f32) b : ℝ) ≠ 0) :
    RoundedTo (fieldsOf .f32) rm (valueOf (fieldsOf .f32) a / valueOf (fieldsOf .f32) b) (divF rm a b)
      (signOf (fieldsOf .f32) a != signOf (fieldsOf .f32) b) := by
  obtain ⟨m, e, hda, hva⟩ := decodeIeee_finite matches_fp32 (hasSpecials_fieldsOf .f32) ha
  obtain ⟨n, g, hdb, hvb⟩ := decodeIeee_finite matches_fp32 (hasSpecials_fieldsOf .f32) hb
  generalize signOf (fieldsOf .f32) a = na, signOf (fieldsOf .f32) b = nb at *
  rw [← hvb, Rat.cast_ne_zero, ne_eq, numberOf_eq_zero] at hne
  simp only [divF, hda, hdb, if_neg hne, RoundedTo, ← Rat.cast_div, Rat.cast_eq_zero, div_eq_zero_iff, ← hva, ← hvb,
    numberOf_eq_zero, or_iff_left hne]
  split
  · exact encodeF_zero matches_fp32 rm (na != nb) 0
  next hm =>
    rw [Rat.cast_div, numberOf_fin, numberOf_fin, ← signed_div]
    exact encodeF_fp32 (divMag_magnitude m e hne g) (divMag_large hm e hne g)

theorem isqrtFrom_spec (n : Nat) : ∀ k r : Nat, r * r ≤ n → n < (r + 2 ^ (k + 1)) * (r + 2 ^ (k + 1)) → isqrtFrom n k r = Nat.sqrt n
  | 0, r, hr, hn => by
    rw [isqrtFrom]
    split
    next h => exact Nat.eq_sqrt.2 ⟨h, hn⟩
    next h => exact Nat.eq_sqrt.2 ⟨hr, not_le.1 h⟩
  | k + 1, r, hr, hn => by
    rw [isqrtFrom]
    split
    next h => exact isqrtFrom_spec n k _ h (by rwa [add_assoc, ← two_mul, ← pow_succ'])
    next h => exact isqrtFrom_spec n k r hr (not_le.1 h)

theorem isqrt_eq_sqrt (n : Nat) : isqrt n = Nat.sqrt n := by
  refine isqrtFrom_spec n _ 0 (Nat.zero_le _) ?_
  rw [zero_add, ← pow_add]
  rcases eq_or_ne n 0 with rfl | h
  · exact Nat.two_pow_pos _
  · exact (bitLen_bounds h).2.trans_le (Nat.pow_le_pow_right two_pos (by omega))

/-- A root with its remainder in the sticky bit. -/
theorem sqrt_magnitude (A : Nat) (j : Int) : MagnitudeIs (Nat.sqrt A) j (Nat.sqrt A * Nat.sqrt A != A) (Real.sqrt A * 2 ^ j) := by
  have hj := two_zpow_pos j
  by_cases h0 : Nat.sqrt A * Nat.sqrt A = A
  · rw [h0, bne_self_eq_false]
    show Real.sqrt A * 2 ^ j = _
    conv_lhs => rw [← h0, Nat.cast_mul, Real.sqrt_mul_self (Nat.cast_nonneg _)]
  · rw [bne_iff_ne.2 h0]
    refine ⟨mul_lt_mul_of_pos_right ?_ hj, mul_lt_mul_of_pos_right ?_ hj⟩
    · refine Real.lt_sqrt_of_sq_lt ?_
      rw [sq]
      exact_mod_cast lt_of_le_of_ne (Nat.sqrt_le A) h0
    · rw [Real.sqrt_lt' (by positivity), sq]
      exact_mod_cast Nat.lt_succ_sqrt A

theorem evenScale_spec {m : Nat} (hm : m ≠ 0) (e : Int) : 2 ^ 80 ≤ (evenScale m e).1 ∧
    (m : ℝ) * 2 ^ e = (evenScale m e).1 * (2 ^ ((evenScale m e).2 / 2) * 2 ^ ((evenScale m e).2 / 2)) := by
  have hscale (k : Nat) : (m : ℝ) * 2 ^ e = ((m * 2 ^ k : Nat) : ℝ) * 2 ^ (e - k) := by
    rw [zpow_sub₀ two_ne_zero, zpow_natCast]
    push_cast
    field_simp
  have hm1 : 1 ≤ m := Nat.one_le_iff_ne_zero.2 hm
  rw [← zpow_add₀ two_ne_zero]
  unfold evenScale
  split
  next h =>
    rw [show (e - 80) / 2 + (e - 80) / 2 = e - (80 : Nat) by omega, ← hscale]
    exact ⟨by omega, rfl⟩
  next h =>
    rw [show (e - 81) / 2 + (e - 81) / 2 = e - (81 : Nat) by omega, ← hscale]
    exact ⟨by omega, rfl⟩

theorem sqrtF_rounded {a : Nat} (ha : Finite (fieldsOf .f32) a) (hpos : (0 : ℝ) < valueOf (fieldsOf .f32) a) :
    RoundsTo (fieldsOf .f32) .rne (Real.sqrt (valueOf (fieldsOf .f32) a)) (sqrtF a).1 (sqrtF a).2 := by
  obtain ⟨m, e, hda, hva⟩ := decodeIeee_finite matches_fp32 (hasSpecials_fieldsOf .f32) ha
  generalize signOf (fieldsOf .f32) a = neg at *
  have hm : m ≠ 0 := by
    rintro rfl
    rw [← hva, numberOf_zero] at hpos
    simp at hpos
  rw [← hva, numberOf_fin] at hpos ⊢
  obtain rfl : neg = false := by
    cases neg
    · rfl
    · rw [signed_true, Left.neg_pos_iff] at hpos
      exact absurd hpos (not_lt.2 (by positivity))
  obtain ⟨hbig, hval⟩ := evenScale_spec hm e
  rw [signed_false, hval, Real.sqrt_mul (Nat.cast_nonneg _), Real.sqrt_mul_self (by positivity)]
  simp only [sqrtF, hda, if_neg hm, Bool.false_eq_true, if_false, isqrt_eq_sqrt]
  refine encodeF_fp32 (neg := false) (sqrt_magnitude _ _) ?_
  rw [Nat.le_sqrt, ← pow_add]
  exact hbig

/-! ### The reciprocal -/

/-- The flags of a rounded result: overflow alone raises OF. -/
theorem flags_of_roundsTo {l : Fields} {rm : Rm} {x : ℝ} {c f : Nat} (h : RoundsTo l rm x c f) : f &&& 2 ≠ 0 ↔ f = 2 + 8 := by
  obtain ⟨u, -, ⟨-, -, rfl⟩ | ⟨-, -, -, -, rfl⟩⟩ := h
  · decide
  · split <;> split <;> decide

theorem valueOf_neg_iff {l : Fields} {c : Nat} (h : (valueOf l c : ℝ) ≠ 0) : (valueOf l c : ℝ) < 0 ↔ signOf l c = true := by
  rw [Rat.cast_ne_zero] at h
  have hm := magValue_nonneg l (magOf l c)
  rw [Rat.cast_lt_zero]
  rw [valueOf_eq] at h ⊢
  cases hs : signOf l c
  · simpa using hm
  · have hne : magValue l (magOf l c) ≠ 0 := right_ne_zero_of_mul h
    simpa using lt_of_le_of_ne hm hne.symm

theorem finite_one : Finite (fieldsOf .f32) 0x3F800000 := by decide
theorem valueOf_one : valueOf (fieldsOf .f32) 0x3F800000 = 1 := by
  norm_num [valueOf, signOf, expOf, fractionOf, fieldsOf, biasOf, Nat.testBit, Nat.shiftRight_eq_div_pow]

theorem rcpF_rounded {a : Nat} (ha : Finite (fieldsOf .f32) a) (hne : (valueOf (fieldsOf .f32) a : ℝ) ≠ 0) :
    ∃ n f, RoundsTo (fieldsOf .f32) .rtz (1 / valueOf (fieldsOf .f32) a) n f ∧ rcpF a =
      (if f = 2 + 8 then infinity (fieldsOf .f32) + signCode (fieldsOf .f32) (decide ((valueOf (fieldsOf .f32) a : ℝ) < 0)) else n, f) := by
  have hdiv := divF_rounded .rtz finite_one ha hne
  rw [valueOf_one, Rat.cast_one, RoundedTo, if_neg (one_div_ne_zero hne)] at hdiv
  refine ⟨_, _, hdiv, ?_⟩
  have hsign : signCode (fieldsOf .f32) (signOf (fieldsOf .f32) a) = if a ≥ 2 ^ 31 then 2 ^ 31 else 0 := by
    have hlt : a < 2 ^ 32 := ha.1
    have hbit : signOf (fieldsOf .f32) a = decide (a ≥ 2 ^ 31) := by
      rw [signOf, Nat.testBit_eq_decide_div_mod_eq, decide_eq_decide]
      show a / 2 ^ 31 % 2 = 1 ↔ _
      omega
    rw [hbit, signCode]
    simp only [decide_eq_true_eq]
    rfl
  have hflag := flags_of_roundsTo hdiv
  simp only [valueOf_neg_iff hne, rcpF, fOF, Bool.decide_eq_true, hsign, hflag]
  split
  next h => rw [h]; rfl
  next h => rfl

end Sys2Proof.Machine
end

section

namespace Sys2Proof.Machine

/-! ### Arithmetic rounds its exact result, and special operands (R50, R107, R112) -/

theorem arithmeticRounds : ArithmeticRoundsRule := by
  intro ft rm a b c l ha hb hc x y z both round
  have hf := matches_fmtOf ft
  have hs := hasSpecials_fieldsOf ft
  refine ⟨addF_rounded hf hs rm ha hb, subF_rounded hf hs rm ha hb, mulF_rounded hf hs rm ha hb, fmaF_rounded hf hs rm ha hb hc, ?_, ?_⟩
  · rintro rfl rfl
    exact ⟨fun hy => divF_rounded .rne ha hb hy, fun hx => sqrtF_rounded ha hx⟩
  · rintro rfl rfl hx
    exact rcpF_rounded ha hx

section
variable {f : FloatFmt} {l : Fields}

/-- What a code of a format with infinities and NaNs is decoded to. -/
theorem decodeIeee_cases (hf : Matches f l) (hs : HasSpecials l) {c : Nat} (hc : CodeOf l c) :
    (Finite l c ∧ ¬ Infinite l c ∧ ¬ NotANumber l c ∧ ∃ m e, decodeIeee f c = .fin (signOf l c) m e ∧ (m = 0 ↔ magOf l c = 0)) ∨
    (Infinite l c ∧ ¬ Finite l c ∧ ¬ NotANumber l c ∧ magOf l c ≠ 0 ∧ decodeIeee f c = .inf (signOf l c)) ∨
    (NotANumber l c ∧ ¬ Finite l c ∧ ¬ Infinite l c ∧ magOf l c ≠ 0 ∧ decodeIeee f c = .nan) := by
  have hclass : (Finite l c → ¬ Infinite l c ∧ ¬ NotANumber l c) ∧ (Infinite l c → ¬ NotANumber l c ∧ magOf l c ≠ 0) ∧
      (NotANumber l c → magOf l c ≠ 0) := by
    simp only [Finite, Infinite, NotANumber, hs.1, Bool.false_eq_true, if_false, hc, true_and]
    omega
  obtain ⟨hfin, hinf, hnan⟩ := decodeIeee_standsFor hf hs hc
  obtain ⟨h1, h2, h3⟩ := hclass
  rcases class_cases hs hc with h | h | h
  · obtain ⟨m, e, hd, hv⟩ := decodeIeee_finite hf hs h
    refine .inl ⟨h, (h1 h).1, (h1 h).2, m, e, hd, ?_⟩
    rw [← valueOf_eq_zero, ← hv, numberOf_eq_zero]
  · exact .inr (.inl ⟨h, fun hc => (h1 hc).1 h, (h2 h).1, (h2 h).2, hinf h⟩)
  · exact .inr (.inr ⟨h, fun hc => (h1 hc).2 h, fun hc => (h2 hc).1 h, h3 h, hnan h⟩)

theorem opF_nan (hf : Matches f l) (hs : HasSpecials l) (rm : Rm) (k : Nat) : opF f rm (.nan, k) = (canonical l, k) := by
  rw [opF, encodeF_nan hf, if_neg hs.2.2.2, Nat.zero_or]

theorem encodeF_inf_code (hf : Matches f l) (hs : HasSpecials l) (rm : Rm) (neg : Bool) :
    encodeF f rm (.inf neg) = (infinity l + signCode l neg, 0) := by
  rw [encodeF_inf hf, hs.1, if_neg Bool.false_ne_true, if_neg Bool.false_ne_true, add_comm]

theorem opF_inf (hf : Matches f l) (hs : HasSpecials l) (rm : Rm) (neg : Bool) (k : Nat) :
    opF f rm (.inf neg, k) = (infinity l + signCode l neg, k) := by
  rw [opF, encodeF_inf_code hf hs, Nat.zero_or]

theorem addV_nan (rm : Rm) (v w : FV) (h : v = .nan ∨ w = .nan) : addV rm v w = (.nan, 0) := by
  rcases h with rfl | rfl
  · rfl
  · cases v <;> rfl

theorem mulV_nan (v w : FV) (h : v = .nan ∨ w = .nan) : mulV v w = (.nan, 0) := by
  rcases h with rfl | rfl
  · rfl
  · cases v <;> rfl

variable {rm : Rm} {a b c : Nat}

theorem decodeIeee_nan (hf : Matches f l) (hs : HasSpecials l) (h : NotANumber l a) : decodeIeee f a = .nan :=
  (decodeIeee_standsFor hf hs h.1).2.2 h

theorem decodeIeee_inf (hf : Matches f l) (hs : HasSpecials l) (h : Infinite l a) : decodeIeee f a = .inf (signOf l a) :=
  (decodeIeee_standsFor hf hs h.1).2.1 h

theorem special_nan (hf : Matches f l) (hs : HasSpecials l) (h : NotANumber l a ∨ NotANumber l b) :
    addF f rm a b = (canonical l, 0) ∧ subF f rm a b = (canonical l, 0) ∧ mulF f rm a b = (canonical l, 0) ∧
      fmaF f rm a b c = (canonical l, 0) := by
  have hd : decodeIeee f a = .nan ∨ decodeIeee f b = .nan := h.imp (decodeIeee_nan hf hs) (decodeIeee_nan hf hs)
  have hd' : decodeIeee f a = .nan ∨ negV (decodeIeee f b) = .nan := hd.imp id fun h => by rw [h]; rfl
  have hfma : fmaV rm (decodeIeee f a) (decodeIeee f b) (decodeIeee f c) = (.nan, 0) := by
    simp only [fmaV, mulV_nan _ _ hd, addV_nan rm .nan _ (.inl rfl)]
    rfl
  rw [addF, subF, mulF, fmaF, addV_nan rm _ _ hd, addV_nan rm _ _ hd', mulV_nan _ _ hd, hfma, opF_nan hf hs]
  exact ⟨rfl, rfl, rfl, rfl⟩

theorem special_inf_left (hf : Matches f l) (hs : HasSpecials l) (hb : CodeOf l b) (h : Infinite l a) (hn : ¬ NotANumber l b) :
    addF f rm a b = (if Infinite l b ∧ signOf l a ≠ signOf l b then (canonical l, 1) else (infinity l + signCode l (signOf l a), 0)) ∧
    subF f rm a b = (if Infinite l b ∧ signOf l a = signOf l b then (canonical l, 1) else (infinity l + signCode l (signOf l a), 0)) ∧
    mulF f rm a b =
      (if magOf l b = 0 then (canonical l, 1) else (infinity l + signCode l (signOf l a != signOf l b), 0)) := by
  rw [addF, subF, mulF, decodeIeee_inf hf hs h]
  rcases decodeIeee_cases hf hs hb with ⟨-, hi, -, m, e, hd, hz⟩ | ⟨hi, -, -, hz, hd⟩ | ⟨hnan, -⟩
  · rw [hd, if_neg fun hc => hi hc.1, if_neg fun hc => hi hc.1, negV, addV, addV, mulV, opF_inf hf hs]
    simp only [hz]
    split
    · exact ⟨trivial, trivial, opF_nan hf hs rm 1⟩
    · exact ⟨trivial, trivial, opF_inf hf hs rm _ 0⟩
  · rw [hd, if_neg hz, negV, addV, addV, mulV, opF_inf hf hs]
    simp only [and_iff_right hi]
    generalize signOf l b = nb, signOf l a = na
    refine ⟨?_, ?_, trivial⟩ <;> cases na <;> cases nb <;> simp [opF_nan hf hs, opF_inf hf hs, fNV]
  · exact absurd hnan hn

theorem special_inf_right (hf : Matches f l) (hs : HasSpecials l) (ha : Finite l a) (h : Infinite l b) :
    addF f rm a b = (infinity l + signCode l (signOf l b), 0) ∧ subF f rm a b = (infinity l + signCode l (!signOf l b), 0) ∧
    mulF f rm a b =
      (if magOf l a = 0 then (canonical l, 1) else (infinity l + signCode l (signOf l a != signOf l b), 0)) := by
  obtain ⟨m, e, hd, hv⟩ := decodeIeee_finite hf hs ha
  rw [addF, subF, mulF, decodeIeee_inf hf hs h, hd, negV, addV, addV, mulV, opF_inf hf hs, opF_inf hf hs]
  simp only [← valueOf_eq_zero, ← hv, numberOf_eq_zero]
  split
  · exact ⟨trivial, trivial, opF_nan hf hs rm 1⟩
  · exact ⟨trivial, trivial, opF_inf hf hs rm _ 0⟩

/-! ### The fused multiply-add on special operands -/

theorem fmaF_no_product (hf : Matches f l) (hs : HasSpecials l)
    (h : (magOf l a = 0 ∧ Infinite l b) ∨ (Infinite l a ∧ magOf l b = 0)) (ha : CodeOf l a) (hb : CodeOf l b) :
    fmaF f rm a b c = (canonical l, 1) := by
  have hmul : mulV (decodeIeee f a) (decodeIeee f b) = (.nan, fNV) := by
    rcases h with ⟨h0, h⟩ | ⟨h, h0⟩
    · have hfin : Finite l a := ⟨ha, by omega⟩
      obtain ⟨m, e, hd, hv⟩ := decodeIeee_finite hf hs hfin
      rw [hd, decodeIeee_inf hf hs h, mulV, if_pos]
      rwa [← numberOf_eq_zero (neg := signOf l a) (e := e), hv, valueOf_eq_zero]
    · have hfin : Finite l b := ⟨hb, by omega⟩
      obtain ⟨m, e, hd, hv⟩ := decodeIeee_finite hf hs hfin
      rw [hd, decodeIeee_inf hf hs h, mulV, if_pos]
      rwa [← numberOf_eq_zero (neg := signOf l b) (e := e), hv, valueOf_eq_zero]
  have hfma : fmaV rm (decodeIeee f a) (decodeIeee f b) (decodeIeee f c) = (.nan, fNV) := by
    rw [fmaV, hmul]
    rfl
  rw [fmaF, hfma, opF_nan hf hs]
  rfl

/-- The exact product of two codes that are not NaN and have one: an infinity when one of them is, otherwise a number. -/
theorem mulV_product (hf : Matches f l) (hs : HasSpecials l) (ha : CodeOf l a) (hb : CodeOf l b)
    (hno : ¬ ((magOf l a = 0 ∧ Infinite l b) ∨ (Infinite l a ∧ magOf l b = 0))) (hna : ¬ NotANumber l a) (hnb : ¬ NotANumber l b) :
    (Infinite l a ∨ Infinite l b → mulV (decodeIeee f a) (decodeIeee f b) = (.inf (signOf l a != signOf l b), 0)) ∧
    (Finite l a → Finite l b → ∃ m e, mulV (decodeIeee f a) (decodeIeee f b) = (.fin (signOf l a != signOf l b) m e, 0)) := by
  rcases decodeIeee_cases hf hs ha with ⟨hfa, hia, -, m, e, hda, hza⟩ | ⟨hia, hfa, -, hza, hda⟩ | ⟨hnan, -⟩
  · rcases decodeIeee_cases hf hs hb with ⟨hfb, hib, -, n, g, hdb, hzb⟩ | ⟨hib, hfb, -, hzb, hdb⟩ | ⟨hnan, -⟩
    · rw [hda, hdb]
      exact ⟨fun h => absurd h (not_or.2 ⟨hia, hib⟩), fun _ _ => ⟨_, _, rfl⟩⟩
    · rw [hda, hdb, mulV, if_neg fun hm => hno (.inl ⟨hza.1 hm, hib⟩)]
      exact ⟨fun _ => rfl, fun _ h => absurd h hfb⟩
    · exact absurd hnan hnb
  · rcases decodeIeee_cases hf hs hb with ⟨hfb, hib, -, n, g, hdb, hzb⟩ | ⟨hib, hfb, -, hzb, hdb⟩ | ⟨hnan, -⟩
    · rw [hda, hdb, mulV, if_neg fun hm => hno (.inr ⟨hia, hzb.1 hm⟩)]
      exact ⟨fun _ => rfl, fun h => absurd h hfa⟩
    · rw [hda, hdb]
      exact ⟨fun _ => rfl, fun h => absurd h hfa⟩
    · exact absurd hnan hnb
  · exact absurd hnan hna

theorem fmaF_of_product {v : FV} (h : mulV (decodeIeee f a) (decodeIeee f b) = (v, 0)) :
    fmaF f rm a b c = opF f rm (addV rm v (decodeIeee f c)) := by
  rw [fmaF, fmaV, h]
  rfl

theorem fmaF_nan_addend (hf : Matches f l) (hs : HasSpecials l) (ha : CodeOf l a) (hb : CodeOf l b)
    (hno : ¬ ((magOf l a = 0 ∧ Infinite l b) ∨ (Infinite l a ∧ magOf l b = 0))) (hna : ¬ NotANumber l a) (hnb : ¬ NotANumber l b)
    (hc : NotANumber l c) : fmaF f rm a b c = (canonical l, 0) := by
  obtain ⟨hinf, hfin⟩ := mulV_product hf hs ha hb hno hna hnb
  have hprod : ∃ v, mulV (decodeIeee f a) (decodeIeee f b) = (v, 0) := by
    rcases class_cases hs ha with h | h | h
    · rcases class_cases hs hb with h' | h' | h'
      · obtain ⟨m, e, hm⟩ := hfin h h'
        exact ⟨_, hm⟩
      · exact ⟨_, hinf (.inr h')⟩
      · exact absurd h' hnb
    · exact ⟨_, hinf (.inl h)⟩
    · exact absurd h hna
  obtain ⟨v, hv⟩ := hprod
  rw [fmaF_of_product hv, decodeIeee_nan hf hs hc, addV_nan rm v .nan (.inr rfl), opF_nan hf hs]

theorem fmaF_inf_product (hf : Matches f l) (hs : HasSpecials l) (ha : CodeOf l a) (hb : CodeOf l b) (hc : CodeOf l c)
    (hno : ¬ ((magOf l a = 0 ∧ Infinite l b) ∨ (Infinite l a ∧ magOf l b = 0))) (hna : ¬ NotANumber l a) (hnb : ¬ NotANumber l b)
    (hi : Infinite l a ∨ Infinite l b) (hnc : ¬ NotANumber l c) :
    fmaF f rm a b c = (if Infinite l c ∧ signOf l c ≠ (signOf l a != signOf l b) then (canonical l, 1)
      else (infinity l + signCode l (signOf l a != signOf l b), 0)) := by
  rw [fmaF_of_product ((mulV_product hf hs ha hb hno hna hnb).1 hi)]
  generalize (signOf l a != signOf l b) = sign
  rcases decodeIeee_cases hf hs hc with ⟨-, hic, -, m, e, hd, -⟩ | ⟨hic, -, -, -, hd⟩ | ⟨hnan, -⟩
  · rw [hd, addV, opF_inf hf hs, if_neg fun h => hic h.1]
  · rw [hd, addV]
    by_cases heq : sign = signOf l c
    · rw [if_pos heq, opF_inf hf hs, if_neg fun h => h.2 heq.symm]
    · rw [if_neg heq, opF_nan hf hs, if_pos ⟨hic, fun h => heq h.symm⟩]
      rfl
  · exact absurd hnan hnc

theorem fmaF_inf_addend (hf : Matches f l) (hs : HasSpecials l) (ha : Finite l a) (hb : Finite l b) (hc : Infinite l c) :
    fmaF f rm a b c = (infinity l + signCode l (signOf l c), 0) := by
  obtain ⟨m, e, hda, -⟩ := decodeIeee_finite hf hs ha
  obtain ⟨n, g, hdb, -⟩ := decodeIeee_finite hf hs hb
  rw [fmaF_of_product (by rw [hda, hdb, mulV]), decodeIeee_inf hf hs hc, addV, opF_inf hf hs]

end

/-! ### Quotients and roots of special operands -/

section
variable {rm : Rm} {a b : Nat}

theorem divF_nan (h : NotANumber (fieldsOf .f32) a ∨ NotANumber (fieldsOf .f32) b) :
    divF rm a b = (canonical (fieldsOf .f32), 0) := by
  have hs := hasSpecials_fieldsOf .f32
  rcases h with h | h
  · rw [divF, decodeIeee_nan matches_fp32 hs h]
    rfl
  · rw [divF, decodeIeee_nan matches_fp32 hs h]
    cases decodeIeee fp32 a <;> rfl

theorem divF_inf_left (hb : CodeOf (fieldsOf .f32) b) (h : Infinite (fieldsOf .f32) a) (hn : ¬ NotANumber (fieldsOf .f32) b) :
    divF rm a b = if Infinite (fieldsOf .f32) b then (canonical (fieldsOf .f32), 1)
      else (infinity (fieldsOf .f32) + signCode (fieldsOf .f32) (signOf (fieldsOf .f32) a != signOf (fieldsOf .f32) b), 0) := by
  have hs := hasSpecials_fieldsOf .f32
  rw [divF, decodeIeee_inf matches_fp32 hs h]
  rcases decodeIeee_cases matches_fp32 hs hb with ⟨-, hi, -, m, e, hd, -⟩ | ⟨hi, -, -, -, hd⟩ | ⟨hnan, -⟩
  · rw [hd, if_neg hi]
    exact encodeF_inf_code matches_fp32 hs rm _
  · rw [hd, if_pos hi]
    rfl
  · exact absurd hnan hn

theorem divF_inf_right (ha : Finite (fieldsOf .f32) a) (h : Infinite (fieldsOf .f32) b) :
    divF rm a b = (signCode (fieldsOf .f32) (signOf (fieldsOf .f32) a != signOf (fieldsOf .f32) b), 0) := by
  have hs := hasSpecials_fieldsOf .f32
  obtain ⟨m, e, hd, -⟩ := decodeIeee_finite matches_fp32 hs ha
  rw [divF, decodeIeee_inf matches_fp32 hs h, hd]
  exact encodeF_zero matches_fp32 rm _ 0

theorem divF_zero (ha : Finite (fieldsOf .f32) a) (hb : CodeOf (fieldsOf .f32) b) (h0 : magOf (fieldsOf .f32) b = 0) :
    divF rm a b = if magOf (fieldsOf .f32) a = 0 then (canonical (fieldsOf .f32), 1)
      else (infinity (fieldsOf .f32) + signCode (fieldsOf .f32) (signOf (fieldsOf .f32) a != signOf (fieldsOf .f32) b), 0) := by
  have hs := hasSpecials_fieldsOf .f32
  obtain ⟨m, e, hda, hva⟩ := decodeIeee_finite matches_fp32 hs ha
  obtain ⟨n, g, hdb, hvb⟩ := decodeIeee_finite matches_fp32 hs (c := b) ⟨hb, by omega⟩
  have hn : n = 0 := by rwa [← numberOf_eq_zero (neg := signOf (fieldsOf .f32) b) (e := g), hvb, valueOf_eq_zero]
  simp only [divF, hda, hdb, hn, if_true, ← valueOf_eq_zero, ← hva, numberOf_eq_zero]
  split
  · rfl
  · exact encodeF_inf_code matches_fp32 hs rm _

theorem sqrtF_special (ha : CodeOf (fieldsOf .f32) a) :
    (NotANumber (fieldsOf .f32) a → sqrtF a = (canonical (fieldsOf .f32), 0)) ∧ (magOf (fieldsOf .f32) a = 0 → sqrtF a = (a, 0)) ∧
    (¬ NotANumber (fieldsOf .f32) a → magOf (fieldsOf .f32) a ≠ 0 → signOf (fieldsOf .f32) a = true →
      sqrtF a = (canonical (fieldsOf .f32), 1)) ∧
    (Infinite (fieldsOf .f32) a → signOf (fieldsOf .f32) a = false → sqrtF a = (a, 0)) := by
  rcases decodeIeee_cases matches_fp32 (hasSpecials_fieldsOf .f32) ha with ⟨-, hi, hn, m, e, hd, hz⟩ | ⟨hi, -, hn, hz, hd⟩ |
    ⟨hn, -, hi, hz, hd⟩
  · rw [← hz, sqrtF, hd]
    refine ⟨fun h => absurd h hn, fun h => if_pos h, fun _ h hneg => ?_, fun h => absurd h hi⟩
    dsimp only
    rw [if_neg fun hm => h (hz.1 hm), if_pos hneg]
    rfl
  · rw [sqrtF, hd]
    refine ⟨fun h => absurd h hn, fun h => absurd h hz, fun _ _ hneg => if_pos hneg, fun _ hpos => if_neg ?_⟩
    rw [hpos]
    exact Bool.false_ne_true
  · rw [sqrtF, hd]
    exact ⟨fun _ => rfl, fun h => absurd h hz, fun h => absurd hn h, fun h => absurd h hi⟩

theorem rcpF_of_noOverflow {r : Nat × Nat} (h : divF .rtz 0x3F800000 a = r) (h2 : r.2 = 0) : rcpF a = r := by
  rw [rcpF, h, h2]
  rfl

theorem signOf_one : signOf (fieldsOf .f32) 0x3F800000 = false := by decide

theorem rcpF_special (ha : CodeOf (fieldsOf .f32) a) :
    (NotANumber (fieldsOf .f32) a → rcpF a = (canonical (fieldsOf .f32), 0)) ∧
    (magOf (fieldsOf .f32) a = 0 → rcpF a = (infinity (fieldsOf .f32) + signCode (fieldsOf .f32) (signOf (fieldsOf .f32) a), 0)) ∧
    (Infinite (fieldsOf .f32) a → rcpF a = (signCode (fieldsOf .f32) (signOf (fieldsOf .f32) a), 0)) := by
  refine ⟨fun h => rcpF_of_noOverflow (divF_nan (.inr h)) rfl, fun h => ?_, fun h => ?_⟩
  · have hdiv := divF_zero (rm := .rtz) finite_one ha h
    rw [if_neg (by decide), signOf_one, Bool.false_bne] at hdiv
    exact rcpF_of_noOverflow hdiv rfl
  · have hdiv := divF_inf_right (rm := .rtz) finite_one h
    rw [signOf_one, Bool.false_bne] at hdiv
    exact rcpF_of_noOverflow hdiv rfl

end

theorem specialOperands : SpecialOperandsRule := by
  intro ft rm a b c l ha hb hc zero invalid inf sign noMul
  have hf := matches_fmtOf ft
  have hs := hasSpecials_fieldsOf ft
  refine ⟨fun h => ?_, fun h hn => ?_, fun hfa h => ?_, ?_, fun h => fmaF_no_product hf hs h ha hb,
    fun hno hna hnb hnc => fmaF_nan_addend hf hs ha hb hno hna hnb hnc,
    fun hno hna hnb hi hnc => fmaF_inf_product hf hs ha hb hc hno hna hnb hi hnc,
    fun hfa hfb hi => fmaF_inf_addend hf hs hfa hfb hi, ?_⟩
  · obtain ⟨hadd, hsub, hmul, hfma⟩ := special_nan (rm := rm) (c := c) hf hs h
    exact ⟨hadd, hsub, hmul, hfma, by rintro rfl; exact divF_nan h⟩
  · obtain ⟨hadd, hsub, hmul⟩ := special_inf_left (rm := rm) hf hs hb h hn
    exact ⟨hadd, hsub, hmul, by rintro rfl; exact divF_inf_left hb h hn⟩
  · obtain ⟨hadd, hsub, hmul⟩ := special_inf_right (rm := rm) hf hs hfa h
    exact ⟨hadd, hsub, hmul, by rintro rfl; exact divF_inf_right hfa h⟩
  · rintro rfl hfa h0
    exact divF_zero hfa hb h0
  · rintro rfl
    obtain ⟨sqrtNan, sqrtZero, sqrtNeg, sqrtInf⟩ := sqrtF_special ha
    obtain ⟨rcpNan, rcpZero, rcpInf⟩ := rcpF_special ha
    exact ⟨fun h => ⟨sqrtNan h, rcpNan h⟩, fun h => ⟨sqrtZero h, rcpZero h⟩, sqrtNeg, fun h => ⟨rcpInf h, sqrtInf h⟩⟩

end Sys2Proof.Machine
end

section

namespace Sys2Proof.Machine

/-! ### Minimum and maximum (R109) -/

theorem compare_mul_right {x y c : ℚ} (hc : 0 < c) : compare (x * c) (y * c) = compare x y := by
  rcases lt_trichotomy x y with h | rfl | h
  · rw [compare_lt_iff_lt.2 h, compare_lt_iff_lt.2 (mul_lt_mul_of_pos_right h hc)]
  · rw [compare_eq_iff_eq.2 rfl, compare_eq_iff_eq.2 rfl]
  · rw [compare_gt_iff_gt.2 h, compare_gt_iff_gt.2 (mul_lt_mul_of_pos_right h hc)]

theorem compare_intCast (x y : Int) : compare (x : ℚ) y = compare x y := by
  rcases lt_trichotomy x y with h | rfl | h
  · rw [compare_lt_iff_lt.2 h, compare_lt_iff_lt.2 (Int.cast_lt.2 h)]
  · rw [compare_eq_iff_eq.2 rfl, compare_eq_iff_eq.2 rfl]
  · rw [compare_gt_iff_gt.2 h, compare_gt_iff_gt.2 (Int.cast_lt.2 h)]

/-- Numbers compare as the numbers that they are. -/
theorem cmpV_fin (a b : Bool) (m n : Nat) (e f : Int) :
    cmpV (.fin a m e) (.fin b n f) = some (compare (numberOf (.fin a m e)) (numberOf (.fin b n f))) := by
  rw [cmpV, numberOf_signedAt a m (min_le_left e f), numberOf_signedAt b n (min_le_right e f),
    compare_mul_right (zpow_pos two_pos _), compare_intCast]

/-- `a` is at most `b` as a number or an infinity. -/
def AtMost (l : Fields) (a b : Nat) : Prop :=
  (Infinite l a ∧ signOf l a = true) ∨ (Infinite l b ∧ signOf l b = false) ∨ (Finite l a ∧ Finite l b ∧ valueOf l a ≤ valueOf l b)

section
variable {f : FloatFmt} {l : Fields} {a b : Nat}

theorem atMost_self (hs : HasSpecials l) (ha : CodeOf l a) (hn : ¬ NotANumber l a) : AtMost l a a := by
  rcases class_cases hs ha with h | h | h
  · exact .inr (.inr ⟨h, h, le_rfl⟩)
  · cases hneg : signOf l a
    · exact .inr (.inl ⟨h, hneg⟩)
    · exact .inl ⟨h, hneg⟩
  · exact absurd h hn

/-- How two codes that are not NaN compare. -/
theorem cmpV_codes (hf : Matches f l) (hs : HasSpecials l) (ha : CodeOf l a) (hb : CodeOf l b) (hna : ¬ NotANumber l a)
    (hnb : ¬ NotANumber l b) : ∃ o, cmpV (decodeIeee f a) (decodeIeee f b) = some o ∧ (o ≠ .gt → AtMost l a b) ∧
      (o ≠ .lt → AtMost l b a) ∧ (magOf l a = 0 → magOf l b = 0 → o = .eq) := by
  rcases decodeIeee_cases hf hs ha with ⟨hfa, -⟩ | ⟨hia, -, -, hza, hda⟩ | ⟨hnan, -⟩
  · obtain ⟨m, e, hda, hva⟩ := decodeIeee_finite hf hs hfa
    rcases decodeIeee_cases hf hs hb with ⟨hfb, -⟩ | ⟨hib, -, -, hzb, hdb⟩ | ⟨hnan, -⟩
    · obtain ⟨n, g, hdb, hvb⟩ := decodeIeee_finite hf hs hfb
      refine ⟨compare (valueOf l a) (valueOf l b), by rw [hda, hdb, cmpV_fin, hva, hvb], fun h => ?_, fun h => ?_, fun h1 h2 => ?_⟩
      · exact .inr (.inr ⟨hfa, hfb, compare_le_iff_le.1 h⟩)
      · exact .inr (.inr ⟨hfb, hfa, compare_ge_iff_ge.1 h⟩)
      · rw [(valueOf_eq_zero l a).2 h1, (valueOf_eq_zero l b).2 h2]
        exact compare_eq_iff_eq.2 rfl
    · refine ⟨_, by rw [hda, hdb, cmpV], ?_, ?_, fun _ h => absurd h hzb⟩
      · cases hneg : signOf l b
        · exact fun _ => .inr (.inl ⟨hib, hneg⟩)
        · exact fun h => absurd rfl h
      · cases hneg : signOf l b
        · exact fun h => absurd rfl h
        · exact fun _ => .inl ⟨hib, hneg⟩
    · exact absurd hnan hnb
  · rcases decodeIeee_cases hf hs hb with ⟨hfb, -, -, n, g, hdb, -⟩ | ⟨hib, -, -, hzb, hdb⟩ | ⟨hnan, -⟩
    · refine ⟨_, by rw [hda, hdb, cmpV], ?_, ?_, fun h => absurd h hza⟩
      · cases hneg : signOf l a
        · exact fun h => absurd rfl h
        · exact fun _ => .inl ⟨hia, hneg⟩
      · cases hneg : signOf l a
        · exact fun _ => .inr (.inl ⟨hia, hneg⟩)
        · exact fun h => absurd rfl h
    · refine ⟨_, by rw [hda, hdb, cmpV], ?_, ?_, fun h => absurd h hza⟩
      · cases hneg : signOf l a
        · cases hneg' : signOf l b
          · exact fun _ => .inr (.inl ⟨hib, hneg'⟩)
          · exact fun h => absurd rfl h
        · exact fun _ => .inl ⟨hia, hneg⟩
      · cases hneg : signOf l a
        · exact fun _ => .inr (.inl ⟨hia, hneg⟩)
        · cases hneg' : signOf l b
          · exact fun h => absurd rfl h
          · exact fun _ => .inl ⟨hib, hneg'⟩
    · exact absurd hnan hnb
  · exact absurd hnan hna

theorem signV_decodeIeee (hf : Matches f l) (hs : HasSpecials l) (ha : CodeOf l a) (hn : ¬ NotANumber l a) :
    decodeIeee f a ≠ .nan ∧ signV (decodeIeee f a) = signOf l a := by
  rcases decodeIeee_cases hf hs ha with ⟨-, -, -, m, e, hd, -⟩ | ⟨-, -, -, -, hd⟩ | ⟨hnan, -⟩
  · rw [hd]
    exact ⟨by simp, rfl⟩
  · rw [hd]
    exact ⟨by simp, rfl⟩
  · exact absurd hnan hn

/-- The smaller or larger of two operands by how they compare; of equal ones the one of the sign that R109 names. -/
def extremeOf (big neg : Bool) (a b : Nat) : Ordering → Nat
  | .lt => if big then b else a
  | .gt => if big then a else b
  | .eq => if neg then (if big then b else a) else (if big then a else b)

theorem minmaxF_of_cmp {big : Bool} {o : Ordering} (hna : decodeIeee f a ≠ .nan) (hnb : decodeIeee f b ≠ .nan)
    (h : cmpV (decodeIeee f a) (decodeIeee f b) = some o) : minmaxF f big a b = extremeOf big (signV (decodeIeee f a)) a b o := by
  simp only [minmaxF]
  split
  next hx _ => exact absurd hx hna
  next hx _ => exact absurd hx hna
  next hy _ => exact absurd hy hnb
  next =>
    simp only [h]
    cases o <;> rfl

theorem minmaxF_law (hf : Matches f l) (hs : HasSpecials l) (ha : CodeOf l a) (hb : CodeOf l b) (big : Bool) :
    (NotANumber l a → NotANumber l b → minmaxF f big a b = canonical l) ∧
    (NotANumber l a → ¬ NotANumber l b → minmaxF f big a b = b) ∧ (¬ NotANumber l a → NotANumber l b → minmaxF f big a b = a) ∧
    (¬ NotANumber l a → ¬ NotANumber l b → (minmaxF f big a b = a ∨ minmaxF f big a b = b) ∧
      (if big then AtMost l a (minmaxF f big a b) ∧ AtMost l b (minmaxF f big a b)
        else AtMost l (minmaxF f big a b) a ∧ AtMost l (minmaxF f big a b) b) ∧
      (magOf l a = 0 → magOf l b = 0 →
        signOf l (minmaxF f big a b) = if big then signOf l a && signOf l b else signOf l a || signOf l b)) := by
  obtain ⟨-, -, -, -, -, -, hnan⟩ := hf.codes
  refine ⟨fun h1 h2 => ?_, fun h1 h2 => ?_, fun h1 h2 => ?_, fun h1 h2 => ?_⟩
  · rw [minmaxF, decodeIeee_nan hf hs h1, decodeIeee_nan hf hs h2, hnan, if_neg hs.2.2.2]
  · have hb' := (signV_decodeIeee hf hs hb h2).1
    rw [minmaxF, decodeIeee_nan hf hs h1]
    cases hd : decodeIeee f b with
    | nan => exact absurd hd hb'
    | _ => rfl
  · have ha' := (signV_decodeIeee hf hs ha h1).1
    rw [minmaxF, decodeIeee_nan hf hs h2]
    cases hd : decodeIeee f a with
    | nan => exact absurd hd ha'
    | _ => rfl
  · obtain ⟨hna, hsa⟩ := signV_decodeIeee hf hs ha h1
    obtain ⟨hnb, -⟩ := signV_decodeIeee hf hs hb h2
    obtain ⟨o, ho, hab, hba, hzero⟩ := cmpV_codes hf hs ha hb h1 h2
    rw [minmaxF_of_cmp hna hnb ho, hsa]
    have haa := atMost_self hs ha h1
    have hbb := atMost_self hs hb h2
    cases o with
    | lt =>
      cases big
      · exact ⟨.inl rfl, ⟨haa, hab (by decide)⟩, fun hz hz' => absurd (hzero hz hz') (by decide)⟩
      · exact ⟨.inr rfl, ⟨hab (by decide), hbb⟩, fun hz hz' => absurd (hzero hz hz') (by decide)⟩
    | gt =>
      cases big
      · exact ⟨.inr rfl, ⟨hba (by decide), hbb⟩, fun hz hz' => absurd (hzero hz hz') (by decide)⟩
      · exact ⟨.inl rfl, ⟨haa, hba (by decide)⟩, fun hz hz' => absurd (hzero hz hz') (by decide)⟩
    | eq =>
      have hab' := hab (by decide)
      have hba' := hba (by decide)
      cases big <;> cases hsign : signOf l a <;> simp [extremeOf, hsign, haa, hbb, hab', hba']

end

end Sys2Proof.Machine
end

section

namespace Sys2Proof.Machine

/-! ### What a mode selects for a number of the set -/

theorem selects_self (rm : Rm) {S E : ℝ → Prop} {x : ℝ} (hx : S x) : Selects rm S E x x := by
  refine ⟨hx, ?_⟩
  cases rm with
  | rne =>
    refine fun z _ => ⟨by simp, fun hne h => absurd ?_ hne⟩
    rw [sub_self, abs_zero, abs_eq_zero, sub_eq_zero] at h
    exact h.symm
  | rna =>
    refine fun z _ => ⟨by simp, fun h => le_of_eq ?_⟩
    rw [sub_self, abs_zero, abs_eq_zero, sub_eq_zero] at h
    rw [h]
  | rtz => exact ⟨mul_self_nonneg x, le_rfl, fun z _ _ h => h⟩
  | rdn => exact ⟨le_rfl, fun z _ h => h⟩
  | rup => exact ⟨le_rfl, fun z _ h => h⟩

theorem eq_of_selects {rm : Rm} {S E : ℝ → Prop} {x y : ℝ} (hx : S x) (h : Selects rm S E x y) : y = x := by
  obtain ⟨-, h⟩ := h
  have hnear (h : |x - y| ≤ |x - x|) : y = x := by
    rw [sub_self, abs_zero, abs_nonpos_iff, sub_eq_zero] at h
    exact h.symm
  cases rm with
  | rne => exact hnear (h x hx).1
  | rna => exact hnear (h x hx).1
  | rtz =>
    obtain ⟨hsign, hle, hz⟩ := h
    have habs : |y| = |x| := le_antisymm hle (hz x hx (mul_self_nonneg x) le_rfl)
    rcases abs_eq_abs.1 habs with h | rfl
    · exact h
    · have h0 : x = 0 := by nlinarith
      rw [h0, neg_zero]
  | rdn => exact le_antisymm h.1 (h.2 x hx le_rfl)
  | rup => exact le_antisymm (h.2 x hx le_rfl) h.1

/-! ### Exact results -/

section
variable {f : FloatFmt} {l : Fields} {rm : Rm}

/-- A number of the format is its own rounding. -/
theorem value_of_exact {x : ℝ} {c fl : Nat} (h : RoundsTo l rm x c fl) (hd : digits (l.frac + 1) (some (unitExp l)) x)
    (hx : |x| ≤ valueOf l l.top) : Finite l c ∧ (valueOf l c : ℝ) = x ∧ (l.expo ≠ 2 → signOf l c = decide (x < 0)) := by
  have hd' : digits (l.frac + 1) none x := by
    obtain ⟨k, j, hx, hk, -⟩ := hd
    exact ⟨k, j, hx, hk, fun _ h => nomatch h⟩
  obtain ⟨u, hu, ⟨hov, -⟩ | ⟨-, hfin, hsign, hsel, -⟩⟩ := h
  · rw [eq_of_selects hd' hu] at hov
    exact absurd hx (not_le.2 hov)
  · exact ⟨hfin, eq_of_selects hd hsel, fun h2 => by rwa [if_neg fun h => h2 h.1] at hsign⟩

theorem digits_valueOf (l : Fields) (c : Nat) : digits (l.frac + 1) (some (unitExp l)) (valueOf l c) := by
  obtain ⟨n, d, hn, hd, hg⟩ := exists_units l (magOf l c)
  have hv : ((valueOf l c : ℚ) : ℝ) = signed (signOf l c) (magValue l (magOf l c)) := by
    rw [valueOf_eq]
    cases signOf l c <;> simp
  rw [hv]
  refine (symmetric_digits _ _).signed _ ?_
  rw [hg, magValue_units l hn.le hd]
  push_cast
  exact digits_units hn fun _ h => by cases h; omega

theorem abs_valueOf (l : Fields) (c : Nat) : |(valueOf l c : ℝ)| = magValue l (magOf l c) := by
  have h0 : (0 : ℝ) ≤ magValue l (magOf l c) := by exact_mod_cast magValue_nonneg l (magOf l c)
  rw [valueOf_eq]
  cases signOf l c <;> simp [abs_of_nonneg h0]

theorem abs_valueOf_le (hf : Matches f l) {c : Nat} (hc : Finite l c) : |(valueOf l c : ℝ)| ≤ valueOf l l.top := by
  rw [abs_valueOf, valueOf_top hf]
  exact_mod_cast (magValue_strictMono l).monotone hc.2

/-! ### Rounding to an integral value (R111) -/

theorem encodeF_exact (hf : Matches f l) (h2 : l.expo ≠ 2) {neg : Bool} {k : Nat} (hd : digits (l.frac + 1) (some (unitExp l)) k)
    (hk : (k : ℝ) ≤ valueOf l l.top) : Finite l (encodeF f rm (.fin neg k 0)).1 ∧ signOf l (encodeF f rm (.fin neg k 0)).1 = neg ∧
      (valueOf l (encodeF f rm (.fin neg k 0)).1 : ℝ) = signed neg k := by
  have h0 : (0 : ℝ) ≤ k := Nat.cast_nonneg k
  by_cases hk0 : k = 0
  · obtain ⟨-, htop, -⟩ := hf.bounds
    have hpos : 0 < 2 ^ (l.expo + l.frac) := Nat.two_pow_pos _
    have hcode := codeOf_eq (l := l) (neg := neg) (g := 0) fun h => h2 h.1
    have hv := valueOf_codeOf (l := l) (neg := neg) hpos
    rw [hk0, encodeF_zero hf, if_neg h2, Nat.cast_zero, ← Rat.cast_zero, ← magValue_zero l, ← hv, ← add_zero (signCode l neg), ← hcode]
    refine ⟨finite_codeOf hf (Nat.zero_le _), ?_, rfl⟩
    rw [hcode]
    exact signOf_signCode_add hpos
  · have hb := encodeF_becomes hf rm (.fin neg k 0)
    simp only [BecomesFloat, if_neg hk0] at hb
    rw [numberOf_fin, zpow_zero, mul_one] at hb
    obtain ⟨hfin, hval, hsign⟩ := value_of_exact hb ((symmetric_digits _ _).signed neg hd) (by rwa [abs_signed neg h0])
    refine ⟨hfin, ?_, hval⟩
    have hpos : (0 : ℝ) < k := by exact_mod_cast Nat.pos_of_ne_zero hk0
    rw [hsign h2]
    cases neg
    · exact decide_eq_false hpos.le.not_gt
    · exact decide_eq_true (neg_neg_of_pos hpos)

/-- The fields that a finite code is decoded to: fewer digits than the precision holds, in units that are not below the least. -/
theorem decodeIeee_bounds (hf : Matches f l) {c m : Nat} {neg : Bool} {e : Int} (h : decodeIeee f c = .fin neg m e) :
    m < 2 ^ (l.frac + 1) ∧ unitExp l ≤ e ∧ e ≤ unitExp l + 2 ^ l.expo ∧
      ((expOf l c = 0 ∧ m < 2 ^ l.frac ∧ e = unitExp l) ∨ (expOf l c ≠ 0 ∧ 2 ^ l.frac ≤ m)) := by
  have hfr : fractionOf l c < 2 ^ l.frac := Nat.mod_lt _ (Nat.two_pow_pos _)
  have hex : ((expOf l c : Nat) : Int) < 2 ^ l.expo := by exact_mod_cast Nat.mod_lt (c / 2 ^ l.frac) (Nat.two_pow_pos l.expo)
  have hpow : (0 : Int) < 2 ^ l.expo := by positivity
  rw [decodeIeee_eq hf] at h
  rw [pow_succ]
  split at h
  · split at h <;> cases h
  · split at h
    next h0 => cases h; exact ⟨by omega, le_rfl, by omega, .inl ⟨h0, hfr, rfl⟩⟩
    next h0 => cases h; exact ⟨by omega, by omega, by omega, .inr ⟨h0, by omega⟩⟩

/-- The integer that a finite code rounds to is a number of the format. -/
theorem integral_fits (hf : Matches f l) (hint : unitExp l ≤ 0 ∧ (2 : ℝ) ^ l.frac ≤ valueOf l l.top) {neg : Bool} {c m : Nat}
    {e : Int} (hc : Finite l c) (hd : decodeIeee f c = .fin (signOf l c) m e)
    (hv : numberOf (.fin (signOf l c) m e) = valueOf l c) :
    digits (l.frac + 1) (some (unitExp l)) ((quant rm neg m e false 0).1 : Nat) ∧
      (((quant rm neg m e false 0).1 : Nat) : ℝ) ≤ valueOf l l.top := by
  obtain ⟨hm, -⟩ := decodeIeee_bounds hf hd
  have hmag : MagnitudeIs m e false ((m : ℝ) * 2 ^ e) := rfl
  rcases le_or_gt 0 e with he | he
  · have hq : (((quant rm neg m e false 0).1 : Nat) : ℝ) = |(valueOf l c : ℝ)| := by
      rw [quant, if_pos he, ← hv, numberOf_fin, abs_signed _ (by positivity), sub_zero]
      push_cast
      rw [← zpow_natCast, Int.toNat_of_nonneg he]
    rw [hq]
    refine ⟨?_, abs_valueOf_le hf hc⟩
    rcases abs_choice (valueOf l c : ℝ) with h | h <;> rw [h]
    · exact digits_valueOf l c
    · exact symmetric_digits _ _ _ (digits_valueOf l c)
  · have hlt : (m : ℝ) * 2 ^ e / 2 ^ (0 : Int) < (2 ^ l.frac : Nat) := by
      have hm' : (m : ℝ) < 2 ^ (l.frac + 1) := by exact_mod_cast hm
      calc (m : ℝ) * 2 ^ e / 2 ^ (0 : Int) = m * 2 ^ e := by rw [zpow_zero, div_one]
        _ < 2 ^ (l.frac + 1) * 2 ^ e := mul_lt_mul_of_pos_right hm' (two_zpow_pos e)
        _ ≤ 2 ^ (l.frac + 1) * 2 ^ (-1 : Int) :=
            mul_le_mul_of_nonneg_left (zpow_le_zpow_right₀ one_le_two (by omega)) (by positivity)
        _ = (2 ^ l.frac : Nat) := by
            push_cast
            rw [pow_succ, zpow_neg_one]
            ring
    have hle := quant_le (rm := rm) (neg := neg) hmag (fun h => Bool.noConfusion h) hlt
    refine ⟨?_, ?_⟩
    · have hd' : digits (l.frac + 1) (some (unitExp l)) (((quant rm neg m e false 0).1 : Nat) * 2 ^ (0 : Int)) :=
        digits_units (hle.trans_lt (Nat.pow_lt_pow_right one_lt_two (Nat.lt_succ_self _))) fun _ h => by cases h; exact hint.1
      rwa [zpow_zero, mul_one] at hd'
    · refine le_trans ?_ hint.2
      exact_mod_cast hle

theorem rndF_law (hf : Matches f l) (hs : HasSpecials l) (hint : unitExp l ≤ 0 ∧ (2 : ℝ) ^ l.frac ≤ valueOf l l.top) {a : Nat}
    (ha : CodeOf l a) :
    (NotANumber l a → rndF f rm a = canonical l) ∧ (Infinite l a ∨ magOf l a = 0 → rndF f rm a = a) ∧
    (Finite l a → Finite l (rndF f rm a) ∧ signOf l (rndF f rm a) = signOf l a ∧
      Selects rm integral evenInt (valueOf l a) (valueOf l (rndF f rm a))) := by
  obtain ⟨-, -, -, -, -, -, hnan⟩ := hf.codes
  rcases decodeIeee_cases hf hs ha with ⟨hfin, hi, hn, -⟩ | ⟨hi, hfin, hn, hz, hd⟩ | ⟨hn, hfin, hi, hz, hd⟩
  · obtain ⟨m, e, hd, hv⟩ := decodeIeee_finite hf hs hfin
    refine ⟨fun h => absurd h hn, fun h => ?_, fun _ => ?_⟩
    · have hm : m = 0 := by
        rw [← numberOf_eq_zero (neg := signOf l a) (e := e), hv, valueOf_eq_zero]
        exact h.resolve_left hi
      rw [rndF, hd]
      exact if_pos hm
    · rw [rndF, hd]
      dsimp only
      split
      next hm =>
        have h0 : (valueOf l a : ℝ) = 0 := by rw [← hv, hm, numberOf_zero, Rat.cast_zero]
        exact ⟨hfin, rfl, selects_self rm ⟨0, by rw [h0, Int.cast_zero]⟩⟩
      next hm =>
        obtain ⟨hdig, hle⟩ := integral_fits (rm := rm) (neg := signOf l a) hf hint hfin hd hv
        obtain ⟨hfin', hsign, hval⟩ := encodeF_exact (rm := rm) (neg := signOf l a) hf hs.2.2.2 hdig hle
        refine ⟨hfin', hsign, ?_⟩
        have hsel := selects_integral (rm := rm) (neg := signOf l a) (q := 0) (e := e) (m := m) (st := false) rfl (by simp)
        rw [zpow_zero, div_one] at hsel
        rwa [hval, ← hv, numberOf_fin]
  · refine ⟨fun h => absurd h hn, fun _ => ?_, fun h => absurd h hfin⟩
    rw [rndF, hd]
  · refine ⟨fun _ => ?_, fun h => absurd h (not_or.2 ⟨hi, hz⟩), fun h => absurd h hfin⟩
    rw [rndF, hd, hnan, if_neg hs.2.2.2]

end

end Sys2Proof.Machine
end

section

namespace Sys2Proof.Machine

/-! ### Scaling (R113) -/

section
variable {f : FloatFmt} {l : Fields} {rm : Rm} {neg : Bool} {m : Nat}

theorem bitLen_le {m p : Nat} (h : m < 2 ^ p) : bitLen m ≤ p := by
  rcases eq_or_ne m 0 with rfl | h0
  · exact Nat.zero_le _
  · by_contra hc
    have := (bitLen_bounds h0).1
    have := Nat.pow_le_pow_right two_pos (show p ≤ bitLen m - 1 by omega)
    omega

/-- A code is its sign and its magnitude. -/
theorem code_eq {c : Nat} (hc : CodeOf l c) : signCode l (signOf l c) + magOf l c = c := by
  have hpow : 2 ^ (1 + l.expo + l.frac) = 2 * 2 ^ (l.expo + l.frac) := by rw [← pow_succ']; congr 1; omega
  rw [CodeOf, hpow] at hc
  have hdm := Nat.div_add_mod c (2 ^ (l.expo + l.frac))
  have hq : c / 2 ^ (l.expo + l.frac) < 2 := (Nat.div_lt_iff_lt_mul (Nat.two_pow_pos _)).2 hc
  have hbit : signOf l c = decide (c / 2 ^ (l.expo + l.frac) = 1) := by
    rw [signOf, Nat.testBit_eq_decide_div_mod_eq, Nat.mod_eq_of_lt hq]
  rw [hbit, signCode, magOf]
  rcases Nat.le_one_iff_eq_zero_or_eq_one.1 (Nat.lt_succ_iff.1 hq) with h | h
  · rw [h] at hdm ⊢
    simpa using hdm
  · rw [h] at hdm ⊢
    simpa using hdm

/-- A magnitude that has no digit near the unit rounds to zero or to one unit, whatever its exponent. -/
theorem quant_tiny (hm : m ≠ 0) {e q : Int} (hq : e + (bitLen m : Nat) < q) :
    quant rm neg m e false q = (if (rm = .rdn ∧ neg = true) ∨ (rm = .rup ∧ neg = false) then 1 else 0, true) := by
  obtain ⟨j, hj⟩ : ∃ j : Nat, (q - e).toNat = j + 1 := ⟨(q - e).toNat - 1, by omega⟩
  have hlt : m < 2 ^ j := (bitLen_bounds hm).2.trans_le (Nat.pow_le_pow_right two_pos (by omega))
  have hlt' : m < 2 ^ (j + 1) := hlt.trans (Nat.pow_lt_pow_right one_lt_two (Nat.lt_succ_self j))
  simp only [quant, if_neg (show ¬ q ≤ e by omega), hj, Nat.add_sub_cancel, Nat.div_eq_of_lt hlt', Nat.mod_eq_of_lt hlt']
  cases rm <;> cases neg <;> simp [hm, hlt.le, hlt]

/-- Beyond the range of a format the exponent of a magnitude does not change what it rounds to. -/
theorem roundMag_high (hf : Matches f l) (hm : m ≠ 0) {e e' : Int} (he : l.expo + l.frac + f.maxE + bitLen f.maxM ≤ e)
    (he' : l.expo + l.frac + f.maxE + bitLen f.maxM ≤ e') : roundMag f rm neg m e false = roundMag f rm neg m e' false := by
  have hover (e : Int) (he : l.expo + l.frac + f.maxE + bitLen f.maxM ≤ e) : dyLt f.maxM f.maxE
      (quant rm neg m e false (ownUnit (l.frac + 1) m e)).1 (ownUnit (l.frac + 1) m e) = true := by
    have hmag : MagnitudeIs m e false ((m : ℝ) * 2 ^ e) := rfl
    obtain ⟨hlo, -⟩ := quant_precision (rm := rm) (neg := neg) (Nat.succ_pos l.frac) hmag hm (fun h => Bool.noConfusion h)
    have hpos := bitLen_pos hm
    have h1 : 1 ≤ (quant rm neg m e false (ownUnit (l.frac + 1) m e)).1 := Nat.one_le_two_pow.trans hlo
    have hmax : f.maxM < 2 ^ bitLen f.maxM := by
      by_contra hc
      exact hc ((bitLen_bounds fun h => hc (by rw [h]; decide)).2)
    rw [dyLt_iff]
    calc (f.maxM : ℝ) * 2 ^ f.maxE < 2 ^ bitLen f.maxM * 2 ^ f.maxE :=
          mul_lt_mul_of_pos_right (by exact_mod_cast hmax) (two_zpow_pos _)
      _ = 2 ^ ((bitLen f.maxM : Nat) + f.maxE) := by rw [zpow_add₀ two_ne_zero, zpow_natCast]
      _ ≤ 2 ^ ownUnit (l.frac + 1) m e := zpow_le_zpow_right₀ one_le_two (by unfold ownUnit; omega)
      _ ≤ _ := le_mul_of_one_le_left (two_zpow_pos _).le (by exact_mod_cast h1)
  have heq (e : Int) (he : l.expo + l.frac + f.maxE + bitLen f.maxM ≤ e) := roundMag_eq hf rm neg m e false
  have h1 := heq e he
  have h2 := heq e' he'
  simp only [hover e he, hover e' he', if_true] at h1 h2
  exact Prod.ext (Nat.add_left_cancel (h1.1.trans h2.1.symm)) (h1.2.trans h2.2.symm)

/-- Far below the least unit of a format too. -/
theorem roundMag_low (hf : Matches f l) (hm : m ≠ 0) {e : Int} (he : e + (bitLen m : Nat) < unitExp l) :
    roundMag f rm neg m e false =
      (if (rm = .rdn ∧ neg = true) ∨ (rm = .rup ∧ neg = false) then 1 else 0, 4 + 8) := by
  have hmag : MagnitudeIs m e false ((m : ℝ) * 2 ^ e) := rfl
  obtain ⟨-, hhi⟩ := quant_precision (rm := rm) (neg := neg) (Nat.succ_pos l.frac) hmag hm (fun h => Bool.noConfusion h)
  obtain ⟨hfrac, -, htop, -⟩ := hf.bounds
  have hown : ownUnit (l.frac + 1) m e + (l.frac + 1 : Nat) = e + (bitLen m : Nat) := by unfold ownUnit; omega
  have hunit : codeUnit l m e = unitExp l := max_eq_right (by omega)
  have hleast : unitExp l ≤ leastExp l := by unfold unitExp; omega
  have hno : ¬ dyLt f.maxM f.maxE (quant rm neg m e false (ownUnit (l.frac + 1) m e)).1 (ownUnit (l.frac + 1) m e) = true := by
    rw [dyLt_iff, hf.most, not_lt]
    have h1 : magValue l 1 = 2 ^ unitExp l := by
      have := magValue_units l (n := 1) (d := 0) Nat.one_le_two_pow (.inl rfl)
      simpa using this
    calc (((quant rm neg m e false (ownUnit (l.frac + 1) m e)).1 : Nat) : ℝ) * 2 ^ ownUnit (l.frac + 1) m e
        ≤ 2 ^ (l.frac + 1) * 2 ^ ownUnit (l.frac + 1) m e := mul_le_mul_of_nonneg_right (by exact_mod_cast hhi) (two_zpow_pos _).le
      _ = 2 ^ (e + (bitLen m : Nat)) := by rw [← hown, zpow_add₀ two_ne_zero, zpow_natCast, mul_comm]
      _ ≤ 2 ^ unitExp l := zpow_le_zpow_right₀ one_le_two he.le
      _ = (magValue l 1 : ℝ) := by rw [h1]; push_cast; rfl
      _ ≤ magValue l l.top := by exact_mod_cast (magValue_strictMono l).monotone (Nat.one_le_two_pow.trans htop)
  have h := roundMag_eq hf rm neg m e false
  simp only [if_neg hno, hunit, quant_tiny hm he] at h
  rw [h, codeOfUnits, sub_self, Bool.and_true, decide_eq_true (by split <;> omega)]
  simp [flagIf]

/-- Clamping a shift of the exponent leaves the code of the result, where the format's range lies well inside the clamp. -/
theorem encodeF_clamped (hf : Matches f l) {e : Int} (hhigh : l.expo + l.frac + f.maxE + bitLen f.maxM ≤ e + 2000)
    (hlow : e + (bitLen m : Nat) - 2000 < unitExp l) (n : Int) :
    encodeF f rm (.fin neg m (e + max (-2000) (min 2000 n))) = encodeF f rm (.fin neg m (e + n)) := by
  by_cases hm : m = 0
  · subst hm
    rw [encodeF_zero hf, encodeF_zero hf]
  · rw [encodeF_fin hf rm neg _ _ hm, encodeF_fin hf rm neg _ _ hm]
    rcases (show n < -2000 ∨ (-2000 ≤ n ∧ n ≤ 2000) ∨ 2000 < n by omega) with h | ⟨h1, h2⟩ | h
    · rw [roundMag_low hf hm (by omega), roundMag_low hf hm (by omega)]
    · rw [show max (-2000) (min 2000 n) = n by omega]
    · rw [roundMag_high hf hm (e := e + max (-2000) (min 2000 n)) (e' := e + n) (by omega) (by omega)]

theorem scaleF_law (hf : Matches f l) (hs : HasSpecials l)
    (hrange : l.expo + l.frac + f.maxE + bitLen f.maxM ≤ unitExp l + 2000 ∧ (2 : Int) ^ l.expo + l.frac + 1 < 2000) {a : Nat}
    (ha : CodeOf l a) (n : Int) :
    (NotANumber l a → scaleF f rm a n = (canonical l, 0)) ∧ (Infinite l a ∨ magOf l a = 0 → scaleF f rm a n = (a, 0)) ∧
    (Finite l a → ¬ magOf l a = 0 → RoundsTo l rm ((valueOf l a : ℝ) * 2 ^ n) (scaleF f rm a n).1 (scaleF f rm a n).2) := by
  have hcode := code_eq ha
  rcases decodeIeee_cases hf hs ha with ⟨hfin, hi, hn, -⟩ | ⟨hi, hfin, hn, hz, hd⟩ | ⟨hn, hfin, hi, hz, hd⟩
  · obtain ⟨m, e, hd, hv⟩ := decodeIeee_finite hf hs hfin
    obtain ⟨hm, he, he', -⟩ := decodeIeee_bounds hf hd
    have hbits := bitLen_le hm
    have hzero : m = 0 ↔ magOf l a = 0 := by
      rw [← numberOf_eq_zero (neg := signOf l a) (e := e), hv, valueOf_eq_zero]
    rw [scaleF, hd, scaleV, encodeF_clamped hf (by omega) (by omega)]
    refine ⟨fun h => absurd h hn, fun h => ?_, fun _ h => ?_⟩
    · have h0 := h.resolve_left hi
      rw [hzero.2 h0, encodeF_zero hf, if_neg hs.2.2.2]
      rw [h0, add_zero] at hcode
      rw [hcode]
    · have hb := encodeF_becomes hf rm (.fin (signOf l a) m (e + n))
      have hval : ((numberOf (.fin (signOf l a) m (e + n)) : ℚ) : ℝ) = valueOf l a * 2 ^ n := by
        rw [← hv, numberOf_fin, numberOf_fin, zpow_add₀ two_ne_zero, ← mul_assoc]
        cases signOf l a <;> simp
      simp only [BecomesFloat, if_neg (fun h0 => h (hzero.1 h0))] at hb
      rwa [hval] at hb
  · refine ⟨fun h => absurd h hn, fun _ => ?_, fun h => absurd h hfin⟩
    have htop : magOf l a = infinity l := hi.2.2
    rw [scaleF, hd, scaleV, encodeF_inf_code hf hs, ← htop, add_comm, hcode]
    exact fun _ _ _ h => FV.noConfusion h
  · refine ⟨fun _ => ?_, fun h => absurd h (not_or.2 ⟨hi, hz⟩), fun h => absurd h hfin⟩
    rw [scaleF, hd, scaleV, encodeF_nan hf, if_neg hs.2.2.2]
    exact fun _ _ _ h => FV.noConfusion h

/-! ### The class word (R114) -/

theorem classF_law (hf : Matches f l) (hs : HasSpecials l) {a : Nat} (ha : CodeOf l a) :
    classF f a = 2 ^ (
      if NotANumber l a then 8 else if Infinite l a then (if signOf l a then 0 else 7)
      else if magOf l a = 0 then (if signOf l a then 3 else 4)
      else if expOf l a = 0 then (if signOf l a then 2 else 5) else if signOf l a then 1 else 6) := by
  obtain ⟨-, -, hemin, -⟩ := hf.codes
  rcases decodeIeee_cases hf hs ha with ⟨-, hi, hn, m, e, hd, hz⟩ | ⟨hi, -, hn, -, hd⟩ | ⟨hn, -, -, -, hd⟩
  · rw [classF, hd, if_neg hn, if_neg hi]
    simp only [← hz]
    by_cases hm : m = 0
    · rw [if_pos hm, if_pos hm]
      cases signOf l a <;> rfl
    · obtain ⟨-, he, -, hexp⟩ := decodeIeee_bounds hf hd
      have hunit : unitExp l + l.frac = leastExp l := by unfold unitExp; omega
      have hnormal : f.emin ≤ e + (bitLen m : Nat) - 1 ↔ expOf l a ≠ 0 := by
        rw [hemin]
        rcases hexp with ⟨h0, hlt, rfl⟩ | ⟨h0, hge⟩
        · have := bitLen_le hlt
          exact iff_of_false (by omega) (not_not.2 h0)
        · have := lt_bitLen hge
          exact iff_of_true (by omega) h0
      simp only [if_neg hm, hnormal]
      by_cases h0 : expOf l a = 0 <;> cases signOf l a <;> simp [h0]
  · rw [classF, hd, if_neg hn, if_pos hi]
    cases signOf l a <;> rfl
  · rw [classF, hd, if_pos hn]
    rfl

end

theorem integral_range (ft : FType) : unitExp (fieldsOf ft) ≤ 0 ∧
    (2 : ℝ) ^ (fieldsOf ft).frac ≤ valueOf (fieldsOf ft) (fieldsOf ft).top := by
  refine ⟨by cases ft <;> decide, ?_⟩
  rw [valueOf_top (matches_fmtOf ft)]
  cases ft <;> norm_num [fieldsOf, magValue, unitExp, leastExp, biasOf]

theorem scale_range (ft : FType) : (fieldsOf ft).expo + (fieldsOf ft).frac + (fmtOf ft).maxE + bitLen (fmtOf ft).maxM ≤
    unitExp (fieldsOf ft) + 2000 ∧ (2 : Int) ^ (fieldsOf ft).expo + (fieldsOf ft).frac + 1 < 2000 := by
  cases ft <;> decide

theorem oneOperandLaws : OneOperandLawsRule := by
  intro ft rm a b l ha hb x nan atMost zero
  have hf := matches_fmtOf ft
  have hs := hasSpecials_fieldsOf ft
  obtain ⟨rndNan, rndSame, rndFinite⟩ := rndF_law (rm := rm) hf hs (integral_range ft) ha
  refine ⟨fun big => ?_, rndNan, rndSame, rndFinite, fun n => scaleF_law hf hs (scale_range ft) ha n, classF_law hf hs ha⟩
  have hminmax := minmaxF_law hf hs ha hb big
  simp only [AtMost] at hminmax
  simpa only [Rat.cast_le] using hminmax

end Sys2Proof.Machine
end

section

namespace Sys2Proof.Machine

/-! ### Conversions to integers (R55, R64, R115) -/

theorem encodeI_becomes (w : Nat) {lo hi : Int} (hle : lo ≤ hi) (rm : Rm) (v : FV) : BecomesInt w lo hi rm v (encodeI w lo hi rm v) := by
  cases v with
  | nan => rfl
  | inf neg => rfl
  | fin neg m e =>
    have hmag : MagnitudeIs m e false ((m : ℝ) * 2 ^ e) := rfl
    have hsel := selects_integral (rm := rm) (neg := neg) (q := 0) hmag (by simp)
    have hexact := quant_inexact (rm := rm) (neg := neg) (q := 0) hmag (by simp)
    rw [zpow_zero, div_one] at hsel hexact
    simp only [BecomesInt, encodeI]
    rw [numberOf_fin]
    generalize quant rm neg m e false 0 = r at hsel hexact
    have hint : signed neg (r.1 : Nat) = ((if neg then -(r.1 : Int) else r.1 : Int) : ℝ) := by cases neg <;> simp
    have hne : signed neg (r.1 : Nat) ≠ signed neg ((m : ℝ) * 2 ^ e) ↔ r.2 = true := by
      rw [hexact]
      cases neg <;> simp [eq_comm]
    rw [hint] at hsel hne
    refine ⟨_, hsel, ?_⟩
    simp only [hne]
    generalize (if neg then -(r.1 : Int) else r.1 : Int) = i
    rcases lt_or_ge i lo with h | h
    · rw [if_pos h, if_pos (.inl h), max_eq_left ((min_le_right hi i).trans h.le)]
      rfl
    · rcases lt_or_ge hi i with h' | h'
      · rw [if_neg h.not_gt, if_pos h', if_pos (.inr h'), min_eq_left h'.le, max_eq_right hle]
        rfl
      · rw [if_neg h.not_gt, if_neg h'.not_gt, if_neg (not_or.2 ⟨h.not_gt, h'.not_gt⟩), min_eq_right h', max_eq_right h]
        rfl

theorem f2iVal_becomes (ft : FType) (ity : IType) (rm : Rm) {a : Nat} (ha : CodeOf (fieldsOf ft) a) : ∃ v, StandsFor (fieldsOf ft) a v ∧
    BecomesInt (tyW ity) (if tySigned ity then -2 ^ (tyW ity - 1) else 0)
      (if tySigned ity then 2 ^ (tyW ity - 1) - 1 else 2 ^ tyW ity - 1) rm v (f2iVal ity ft rm a) := by
  refine ⟨_, decodeIeee_standsFor (matches_fmtOf ft) (hasSpecials_fieldsOf ft) ha, ?_⟩
  have hlo : (if tySigned ity then -((2 ^ (tyW ity - 1) : Nat) : Int) else 0) = if tySigned ity then -2 ^ (tyW ity - 1) else 0 := by
    push_cast
    rfl
  have hhi : (if tySigned ity then ((2 ^ (tyW ity - 1) : Nat) : Int) - 1 else ((2 ^ tyW ity : Nat) : Int) - 1) =
      if tySigned ity then 2 ^ (tyW ity - 1) - 1 else 2 ^ tyW ity - 1 := by
    push_cast
    rfl
  rw [← hlo, ← hhi]
  refine encodeI_becomes (tyW ity) ?_ rm _
  have h1 := Nat.two_pow_pos (tyW ity - 1)
  have h2 := Nat.two_pow_pos (tyW ity)
  split <;> omega

theorem i2fVal_becomes (ft : FType) (ity : IType) (rm : Rm) (x : Nat) :
    let n : Int := if tySigned ity then (BitVec.ofNat (tyW ity) x).toInt else x
    if n = 0 then i2fVal ft ity rm x = (0, 0) else RoundsTo (fieldsOf ft) rm n (i2fVal ft ity rm x).1 (i2fVal ft ity rm x).2 := by
  intro n
  have hn : i2fVal ft ity rm x = encodeF (fmtOf ft) rm (.fin (decide (n < 0)) n.natAbs 0) := by
    rw [i2fVal, sextN_eq_toInt _ _ (tyW_pos ity)]
  rw [hn]
  clear_value n
  have hb := encodeF_becomes (matches_fmtOf ft) rm (.fin (decide (n < 0)) n.natAbs 0)
  have h2 : (fieldsOf ft).expo ≠ 2 := (hasSpecials_fieldsOf ft).2.2.2
  simp only [BecomesFloat, Int.natAbs_eq_zero, numberOf_int, zpow_zero, mul_one, Rat.cast_intCast, if_neg h2] at hb
  split
  next h0 =>
    rw [if_pos h0, h0] at hb
    rw [h0]
    exact hb
  next h0 => rwa [if_neg h0] at hb

/-! ### Element formats (R51-R57, R118) -/

theorem encodeElem_becomes (rm : Rm) (v : FV) :
    BecomesFloat (fieldsOf .f32) rm v (encodeElem 0x08 rm v) ∧ BecomesFloat (fieldsOf .f16) rm v (encodeElem 0x10 rm v) ∧
    BecomesFloat (fieldsOf .bf16) rm v (encodeElem 0x18 rm v) ∧ BecomesFloat f8e4Fields rm v (encodeElem 0x20 rm v) ∧
    BecomesFloat f8e5Fields rm v (encodeElem 0x28 rm v) ∧ BecomesFloat f4Fields rm v (encodeElem 0x30 rm v) ∧
    BecomesInt 8 (-128) 127 rm v (encodeElem 0x38 rm v) ∧ BecomesInt 8 0 255 rm v (encodeElem 0x39 rm v) ∧
    BecomesInt 4 (-8) 7 rm v (encodeElem 0x40 rm v) :=
  ⟨encodeF_becomes matches_fp32 rm v, encodeF_becomes matches_fp16 rm v, encodeF_becomes matches_bf16 rm v,
    encodeF_becomes matches_f8e4 rm v, encodeF_becomes matches_f8e5 rm v, encodeF_becomes matches_f4 rm v,
    encodeI_becomes 8 (by decide) rm v, encodeI_becomes 8 (by decide) rm v, encodeI_becomes 4 (by decide) rm v⟩

theorem decodeF8e4_standsFor (c : Nat) : StandsFor f8e4Fields c (decodeF8e4 c) := by
  have hsign : (c / 128 % 2 == 1) = signOf f8e4Fields c := signOf_eq f8e4Fields c
  have hmag : magOf f8e4Fields c = c % 128 := rfl
  obtain ⟨hsub, hnorm⟩ := numberOf_fields f8e4Fields c
  refine ⟨fun h => ?_, fun h => absurd h.2.1 (by decide), fun h => ?_⟩
  · have hle : c % 128 ≤ 126 := h.2
    rw [decodeF8e4, hsign, if_neg (by omega)]
    split
    next h0 => exact ⟨_, _, rfl, hsub h0⟩
    next h0 =>
      have he : ((c / 8 % 16 : Nat) : Int) - 10 = unitExp f8e4Fields + ((c / 8 % 16 - 1 : Nat) : Int) := by
        rw [show unitExp f8e4Fields = -9 by decide]
        omega
      rw [he]
      exact ⟨_, _, rfl, hnorm h0⟩
  · have hlt : 126 < c % 128 := h.2
    exact if_pos (by omega)

theorem decodeF4_standsFor (xv : Nat) {c : Nat} (hc : c < 16) (h8 : c ≠ 8) : StandsFor f4Fields c (decodeF4 xv c) := by
  have hsign : (c / 8 % 2 == 1) = signOf f4Fields c := signOf_eq f4Fields c
  have hmag : magOf f4Fields c ≤ 7 := Nat.lt_succ_iff.1 (Nat.mod_lt c (by decide : 0 < 8))
  obtain ⟨hsub, hnorm⟩ := numberOf_fields f4Fields c
  refine ⟨fun _ => ?_, fun h => absurd h.2.1 (by decide), fun h => absurd h.2 (not_lt.2 hmag)⟩
  rw [decodeF4, hsign, if_neg (by omega)]
  split
  next h0 => exact ⟨_, _, rfl, hsub h0⟩
  next h0 =>
    have he : ((c / 2 % 4 : Nat) : Int) - 2 = unitExp f4Fields + ((c / 2 % 4 - 1 : Nat) : Int) := by
      rw [show unitExp f4Fields = -1 by decide]
      omega
    rw [he]
    exact ⟨_, _, rfl, hnorm h0⟩

theorem decodeInt_signed {w : Nat} (hw : 0 < w) (c : Nat) : ∃ n m e, decodeInt w true c = .fin n m e ∧
    numberOf (decodeInt w true c) = ((BitVec.ofNat w c).toInt : ℚ) := by
  have hlt := Nat.mod_lt c (Nat.two_pow_pos w)
  have heq : decodeInt w true c = .fin (decide (sextN w c < 0)) (sextN w c).natAbs 0 := by
    simp only [decodeInt, sextN, Bool.true_and, decide_eq_true_eq]
    split
    · rw [decide_eq_true (by omega)]
      congr 1
      omega
    · rw [decide_eq_false (by omega)]
      congr 1
  refine ⟨_, _, _, heq, ?_⟩
  rw [heq, numberOf_int, zpow_zero, mul_one, sextN_eq_toInt w c hw]

theorem numberOf_decodeInt_unsigned (w c : Nat) : numberOf (decodeInt w false c) = (c % 2 ^ w : Nat) := by
  simp [decodeInt, numberOf]

/-! ### DX elements (R56) -/

theorem elemBits_dx {code : Nat} (h : isDx code = true) : elemBits code = if code < 0x50 then 16 else if code < 0x58 then 8 else 4 := by
  rw [isDx, decide_eq_true_eq] at h
  simp only [elemBits]
  rcases (show code < 0x50 ∨ 0x50 ≤ code ∧ code < 0x58 ∨ 0x58 ≤ code by omega) with hc | hc | hc
  · rw [if_neg (by omega), if_neg (by omega), if_neg (by omega), if_neg (by omega), if_pos (by omega), if_pos hc]
  · rw [if_neg (by omega), if_neg (by omega), if_neg (by omega), if_neg (by omega), if_neg (by omega), if_pos (by omega),
      if_neg (by omega), if_pos hc.2]
  · rw [if_neg (by omega), if_neg (by omega), if_neg (by omega), if_neg (by omega), if_neg (by omega), if_neg (by omega),
      if_pos (by omega), if_neg (by omega), if_neg (by omega)]

/-- A DX element that its scale does not decide is its number; a zero one is +0. -/
theorem decodeDx_number {code : Nat} (h : isDx code = true) {sc : Nat} (h255 : sc ≠ 255) (h0 : sc ≠ 0) (c : Nat) :
    ∃ n m e, decodeDx (elemBits code) (dxGap code) sc c = .fin n m e ∧ (m = 0 → n = false) ∧
      numberOf (.fin n m e) = dxNumber code sc c := by
  rw [elemBits_dx h, decodeDx, if_neg h255, dxNumber]
  dsimp only
  generalize (if code < 0x50 then 16 else if code < 0x58 then 8 else 4) = w
  split
  next hz =>
    refine ⟨_, _, _, rfl, fun _ => rfl, ?_⟩
    rw [numberOf_zero, hz.resolve_left h0]
    simp
  next hz =>
    refine ⟨_, _, _, rfl, fun hm => absurd (.inr hm) hz, ?_⟩
    have hbit (k : Nat) : (c / 2 ^ k % 2 == 1) = c.testBit k := by
      rw [Nat.testBit_eq_decide_div_mod_eq]
      rfl
    have hbit' : (c / 2 ^ (w - 1) % 2 = 1) = (c.testBit (w - 1) = true) := by rw [← hbit, beq_iff_eq]
    rw [numberOf, hbit]
    simp only [hbit', dxGap]
    congr 2
    split <;> simp

theorem decodeDx_mod {w : Nat} (hw : 2 ≤ w) (g sc c : Nat) : decodeDx w g sc (c % 2 ^ w) = decodeDx w g sc c := by
  have hbit (k : Nat) (hk : k < w) : c % 2 ^ w / 2 ^ k % 2 = c / 2 ^ k % 2 := by
    have := Nat.testBit_mod_two_pow c w k
    rw [decide_eq_true hk, Bool.true_and, Nat.testBit_eq_decide_div_mod_eq, Nat.testBit_eq_decide_div_mod_eq, decide_eq_decide] at this
    omega
  rw [decodeDx, decodeDx, Nat.mod_mod_of_dvd _ (pow_dvd_pow 2 (Nat.sub_le w 2)), hbit _ (by omega), hbit _ (by omega)]

theorem fcvtSource_dx {code : Nat} (h : isDx code = true) (x : Nat) :
    let v := fcvtSource code x
    (x / 2 ^ 24 = 255 → v = .nan) ∧ (x / 2 ^ 24 = 0 → v = .fin false 0 0) ∧
    (x / 2 ^ 24 ≠ 255 → x / 2 ^ 24 ≠ 0 → ∃ n m e, v = .fin n m e ∧ (m = 0 → n = false) ∧ numberOf v = dxNumber code (x / 2 ^ 24) x) := by
  have hw : 2 ≤ elemBits code := by
    rw [elemBits_dx h]
    split
    · decide
    · split <;> decide
  simp only [fcvtSource, h, if_true, elemVal]
  refine ⟨fun h255 => by rw [h255]; rfl, fun h0 => if_pos h0, fun h255 h0 => ?_⟩
  rw [if_neg h0, if_neg h255, decodeDx_mod hw]
  obtain ⟨n, m, e, hd, hz, hv⟩ := decodeDx_number h h255 h0 x
  exact ⟨n, m, e, hd, hz, by rw [hd, hv]⟩

theorem fcvtSource_int {x code w : Nat} {signed : Bool}
    (h : (code, w, signed) ∈ [((0x38 : Nat), (8 : Nat), true), (0x39, 8, false), (0x40, 4, true)]) :
    ∃ n m e, fcvtSource code x = .fin n m e ∧
      (numberOf (fcvtSource code x) : ℝ) = if signed then ((BitVec.ofNat w x).toInt : ℝ) else ((x % 2 ^ w : Nat) : ℝ) := by
  have hsigned (w : Nat) (hw : 0 < w) : ∃ n m e, decodeInt w true (x % 2 ^ w) = .fin n m e ∧
      (numberOf (decodeInt w true (x % 2 ^ w)) : ℝ) = ((BitVec.ofNat w x).toInt : ℝ) := by
    obtain ⟨n, m, e, hd, hv⟩ := decodeInt_signed hw (x % 2 ^ w)
    refine ⟨n, m, e, hd, ?_⟩
    rw [hv, Rat.cast_intCast, ← sextN_eq_toInt w _ hw, ← sextN_eq_toInt w x hw, sextN, sextN, Nat.mod_mod]
  simp only [List.mem_cons, List.not_mem_nil, or_false, Prod.mk.injEq] at h
  rcases h with ⟨rfl, rfl, rfl⟩ | ⟨rfl, rfl, rfl⟩ | ⟨rfl, rfl, rfl⟩
  · exact hsigned 8 (by decide)
  · refine ⟨_, _, _, rfl, ?_⟩
    have hd : fcvtSource 0x39 x = decodeInt 8 false (x % 2 ^ 8) := rfl
    rw [hd, numberOf_decodeInt_unsigned, Nat.mod_mod, Rat.cast_natCast]
    rfl
  · exact hsigned 4 (by decide)

theorem fcvtSource_standsFor {x : Nat} (hx : x < 2 ^ 32) :
    StandsFor (fieldsOf .f32) x (fcvtSource 0x08 x) ∧ StandsFor (fieldsOf .f16) (x % 2 ^ 16) (fcvtSource 0x10 x) ∧
    StandsFor (fieldsOf .bf16) (x % 2 ^ 16) (fcvtSource 0x18 x) ∧ StandsFor f8e4Fields (x % 256) (fcvtSource 0x20 x) ∧
    StandsFor f8e5Fields (x % 256) (fcvtSource 0x28 x) ∧
    (if x % 16 = 8 then StandsFor (fieldsOf .f16) (x / 2 ^ 16) (fcvtSource 0x30 x)
      else StandsFor f4Fields (x % 16) (fcvtSource 0x30 x)) := by
  have h32 : fcvtSource 0x08 x = decodeIeee fp32 x := by
    show decodeIeee fp32 (x % 2 ^ 32) = _
    rw [Nat.mod_eq_of_lt hx]
  rw [h32]
  refine ⟨decodeIeee_standsFor matches_fp32 (hasSpecials_fieldsOf .f32) hx,
    decodeIeee_standsFor matches_fp16 (hasSpecials_fieldsOf .f16) (Nat.mod_lt x (by decide)),
    decodeIeee_standsFor matches_bf16 (hasSpecials_fieldsOf .bf16) (Nat.mod_lt x (by decide)), decodeF8e4_standsFor _,
    decodeIeee_standsFor matches_f8e5 hasSpecials_f8e5 (Nat.mod_lt x (by decide)), ?_⟩
  have hf4 : fcvtSource 0x30 x = decodeF4 (x / 65536) (x % 16) := rfl
  rw [hf4]
  split
  next h8 =>
    rw [decodeF4, if_pos (by omega)]
    exact decodeIeee_standsFor matches_fp16 (hasSpecials_fieldsOf .f16) (by show x / 65536 < 65536; omega)
  next h8 => exact decodeF4_standsFor _ (Nat.mod_lt x (by decide)) h8

theorem conversionLaws : ConversionLawsRule :=
  ⟨fun ft ity rm _ ha => f2iVal_becomes ft ity rm ha, fun ft ity rm x _ => i2fVal_becomes ft ity rm x, encodeElem_becomes, fun x hx => by
    obtain ⟨h32, h16, hb16, h8e4, h8e5, h4⟩ := fcvtSource_standsFor hx
    exact ⟨h32, h16, hb16, h8e4, h8e5, h4, fun _ _ _ h => fcvtSource_int h, fun _ h => fcvtSource_dx h x⟩⟩

/-- Settles O60: rounding in units against exact arithmetic gives the sums, products, quotients and roots; the special operands and
the other operations follow class by class. -/
theorem roundsExactly : Obligations.RoundsExactly := ⟨arithmeticRounds, specialOperands, oneOperandLaws, conversionLaws⟩

end Sys2Proof.Machine
end

section

namespace Sys2Proof.Machine

/-! ### Results with flags, thread by thread (R26, R74) -/

theorem applyWs_append (a b : List RegW) (q : Squad) : applyWs (a ++ b) q = applyWs b (applyWs a q) := List.foldl_append

theorem applyWs_nil (q : Squad) : applyWs [] q = q := rfl
theorem applyWs_cons (w : RegW) (ws : List RegW) (q : Squad) : applyWs (w :: ws) q = applyWs ws (applyW w q) := rfl

theorem applyWs_flatMap (ts : List Nat) (g : Nat → List RegW) (q : Squad) :
    applyWs (ts.flatMap g) q = ts.foldl (fun q t => applyWs (g t) q) q := List.foldl_flatMap ..

theorem applyWs_flagW (f : Nat) (q : Squad) : applyWs (flagW f) q = { q with flg := q.flg ||| BitVec.ofNat 5 f } := by
  unfold flagW
  split
  next h => rw [h, show q.flg ||| BitVec.ofNat 5 0 = q.flg from BitVec.or_zero]; rfl
  next => rfl

/-- What the steps of threads leave of a part of the squad that one thread alone determines. -/
theorem foldl_threads {β : Type} (obs : Squad → β) (step : Squad → Nat → Squad) (u : Nat) (new : Option β) (ts : List Nat)
    (h : ∀ q t, t ∈ ts → obs (step q t) = if u = t then new.getD (obs q) else obs q) (q : Squad) :
    obs (ts.foldl step q) = if u ∈ ts then new.getD (obs q) else obs q := by
  induction ts generalizing q with
  | nil => simp
  | cons t ts ih =>
    rw [List.foldl_cons, ih (fun q a ha => h q a (List.mem_cons_of_mem t ha)), h q t List.mem_cons_self]
    by_cases hut : u = t
    · have hmem : u ∈ t :: ts := hut ▸ List.mem_cons_self
      rw [if_pos hut, if_pos hmem]
      cases new <;> simp
    · simp [hut]

/-- Writes that name no register of a file leave the file. -/
theorem applyWs_other (ws : List RegW) (q : Squad) :
    ((∀ w ∈ ws, (regKey w).1 ≠ 0) → (applyWs ws q).v = q.v) ∧ ((∀ w ∈ ws, (regKey w).1 ≠ 1) → (applyWs ws q).s = q.s) ∧
    ((∀ w ∈ ws, (regKey w).1 ≠ 2) → (applyWs ws q).p = q.p) ∧ ((∀ w ∈ ws, (regKey w).1 ≠ 3) → (applyWs ws q).b = q.b) ∧
    ((∀ w ∈ ws, (regKey w).1 ≠ 4) → (applyWs ws q).vi = q.vi) ∧ ((∀ w ∈ ws, (regKey w).1 ≠ 5) → (applyWs ws q).im = q.im) := by
  induction ws generalizing q with
  | nil => simp [applyWs]
  | cons w ws ih =>
    obtain ⟨hv, hs, hp, hb, hvi, him⟩ := ih (applyW w q)
    obtain ⟨gv, gs, gp, gb, gvi, gim, -⟩ := applyW_keeps w q
    rw [applyWs_cons]
    simp only [List.forall_mem_cons]
    exact ⟨fun h => (hv h.2).trans (gv h.1), fun h => (hs h.2).trans (gs h.1), fun h => (hp h.2).trans (gp h.1),
      fun h => (hb h.2).trans (gb h.1), fun h => (hvi h.2).trans (gvi h.1), fun h => (him h.2).trans (gim h.1)⟩

theorem regKey_flagW {f : Nat} {w : RegW} (h : w ∈ flagW f) : (regKey w).1 = 6 := by
  unfold flagW at h
  split at h
  · cases h
  · rw [List.mem_singleton.1 h]
    rfl

theorem rdV_applyW_v (q : Squad) (n t r : Nat) (x : W32) {u : Nat} (ht : t < 32) (hu : u < 32) :
    rdV (applyW (.v n t x) q) r u = if u = t ∧ r = n then x else rdV q r u := by
  rw [rdV, applyW, tget_tset, rdV]
  refine if_congr ?_ rfl rfl
  omega

/-- The writes of one thread: its code, and its flags. -/
def resultW (ty : IType) (d : Opnd) (r : Nat → Nat × Nat) (t : Nat) : List RegW := wrTy ty d t (r t).1 ++ flagW (r t).2

/-- A 32-bit code or a 64-bit one in an s-register is extended as the type says. -/
theorem wide_code {ty : IType} {x : Nat} (hx : ty = .u32 → x < 2 ^ 32) :
    BitVec.ofNat 64 (if tyW ty = 32 ∧ tySigned ty = true then cutN 64 (sextN 32 x) else x) = wide ty x := by
  cases ty with
  | u32 =>
    apply BitVec.eq_of_toNat_eq
    have hlt := hx rfl
    simp [tyW, tySigned, wide]
    omega
  | s32 =>
    have hs : sextN 32 x = (BitVec.ofNat 32 x).toInt := sextN_eq_toInt 32 x (by decide)
    apply BitVec.eq_of_toInt_eq
    simp only [tyW, tySigned, and_self, if_true, hs, wide, BitVec.ofInt_natCast]
    rw [BitVec.toInt_signExtend_of_le (by decide), cutN]
    have hlo := BitVec.le_toInt (BitVec.ofNat 32 x)
    have hhi := BitVec.toInt_lt (x := BitVec.ofNat 32 x)
    generalize (BitVec.ofNat 32 x).toInt = z at *
    rw [BitVec.toInt_ofNat']
    push_cast
    rw [Int.toNat_of_nonneg (Int.emod_nonneg _ (by decide))]
    norm_num at hlo hhi ⊢
    rw [Int.bmod_def]
    omega
  | u64 => simp [tyW, wide]
  | s64 => simp [tyW, wide]

section
variable {ty : IType} {d : Opnd} {act : Mask} {q q' : Squad} {r : Nat → Nat × Nat}

/-- The flags of the executed threads are ORed into the sticky ones. -/
theorem flg_results (hd : (∃ n a b, d = .v n a b) ∨ ∃ n a b, d = .s n a b) (ts : List Nat) (q : Squad) :
    (applyWs (ts.flatMap (resultW ty d r)) q).flg = ts.foldl (fun x u => x ||| BitVec.ofNat 5 (r u).2) q.flg := by
  have hstep (q : Squad) (t : Nat) : (applyWs (resultW ty d r t) q).flg = q.flg ||| BitVec.ofNat 5 (r t).2 := by
    have hkey : ∃ k, k ≠ 6 ∧ ∀ w ∈ wrTy ty d t (r t).1, (regKey w).1 = k := by
      rcases hd with ⟨n, a, b, rfl⟩ | ⟨n, a, b, rfl⟩
      · refine ⟨0, by decide, ?_⟩
        simp only [wrTy, wrInt]
        split <;> simp [regKey]
      · exact ⟨1, by decide, by simp [wrTy, wrInt, regKey]⟩
    obtain ⟨k, hk, hws⟩ := hkey
    obtain ⟨-, -, -, -, -, -, hflg⟩ := applyWs_keeps _ q hws
    rw [resultW, applyWs_append, applyWs_flagW, hflg hk]
  rw [applyWs_flatMap]
  induction ts generalizing q with
  | nil => rfl
  | cons t ts ih => rw [List.foldl_cons, List.foldl_cons, ih, hstep]

/-- Results and flags into v-registers. -/
theorem gets_results_v {n : Nat} {a b : Bool}
    (hregs : SameRegs (applyWs ((execThreads (.v n a b) act).flatMap (resultW ty (.v n a b) r)) q) q') :
    Gets ty (.v n a b) act q q' (fun u => ((r u).1 : Int)) ∧ q'.p = q.p ∧ q'.b = q.b ∧
      q'.flg = stuck (.v n a b) act q.flg fun u => (r u).2 := by
  have hthreads : execThreads (.v n a b) act = threadsOf act := rfl
  have hkeys : ∀ w ∈ (execThreads (.v n a b) act).flatMap (resultW ty (.v n a b) r), (regKey w).1 = 0 ∨ (regKey w).1 = 6 := by
    intro w hw
    obtain ⟨t, -, hw⟩ := List.mem_flatMap.1 hw
    rcases List.mem_append.1 hw with hw | hw
    · refine .inl ?_
      simp only [wrTy, wrInt] at hw
      split at hw <;> simp at hw <;> aesop
    · exact .inr (regKey_flagW hw)
  obtain ⟨-, hs, hp, hb, hvi, him⟩ := applyWs_other ((execThreads (.v n a b) act).flatMap (resultW ty (.v n a b) r)) q
  have hother {k : Nat} (h0 : k ≠ 0) (h6 : k ≠ 6) : ∀ w ∈ (execThreads (.v n a b) act).flatMap (resultW ty (.v n a b) r),
      (regKey w).1 ≠ k := by
    intro w hw hk
    rcases hkeys w hw with h | h
    · exact h0 (hk.symm.trans h)
    · exact h6 (hk.symm.trans h)
  have hflg := flg_results (ty := ty) (r := r) (d := .v n a b) (.inl ⟨n, a, b, rfl⟩) (execThreads (.v n a b) act) q
  obtain ⟨gv, gs, gp, gb, gvi, gim, gflg⟩ := hregs
  refine ⟨⟨gs.trans (hs (hother (by decide) (by decide))), gvi.trans (hvi (hother (by decide) (by decide))),
    gim.trans (him (hother (by decide) (by decide))), fun k u hu => ?_⟩, gp.trans (hp (hother (by decide) (by decide))),
    gb.trans (hb (hother (by decide) (by decide))), gflg.trans hflg⟩
  rw [rdV, gv, ← rdV, applyWs_flatMap, hthreads, foldl_threads (fun q => rdV q k u) (u := u)
    (new := if k = n then some (BitVec.ofInt 32 ((r u).1 : Int)) else if tyW ty = 64 ∧ k = n + 1 then
      some (BitVec.ofInt 32 ((r u).1 / 2 ^ 32 : Int)) else none)]
  · simp only [mem_threadsOf, hu, true_and]
    by_cases hact : bitM act u = true
    · simp only [hact, if_true, true_and]
      by_cases hk : k = n
      · rw [if_pos hk, if_pos hk]
        rfl
      · rw [if_neg hk, if_neg hk]
        split <;> rfl
    · simp [hact]
  · intro q t ht
    have ht' := (mem_threadsOf.1 ht).1
    have hflag (q : Squad) : rdV (applyWs (flagW (r t).2) q) k u = rdV q k u := by rw [applyWs_flagW]; rfl
    rw [resultW, applyWs_append, hflag]
    simp only [wrTy, wrInt]
    by_cases hw : tyW ty = 64
    · rw [if_pos hw]
      rw [applyWs_cons, applyWs_cons, applyWs_nil, rdV_applyW_v _ _ _ _ _ ht' hu, rdV_applyW_v _ _ _ _ _ ht' hu]
      by_cases hut : u = t
      · subst hut
        by_cases hk : k = n
        · simp [hk, BitVec.ofInt_natCast]
        · by_cases hk1 : k = n + 1
          · simp [hk1, hw]
            exact_mod_cast rfl
          · simp [hk, hk1]
      · simp [hut]
    · rw [if_neg hw]
      rw [applyWs_cons, applyWs_nil, rdV_applyW_v _ _ _ _ _ ht' hu]
      by_cases hut : u = t
      · subst hut
        by_cases hk : k = n <;> simp [hk, hw]
      · simp [hut]

/-- The result of the lowest thread into an s-register. -/
theorem gets_results_s {n : Nat} {a b : Bool} (hsmall : ty = .u32 → ∀ u, (r u).1 < 2 ^ 32)
    (hregs : SameRegs (applyWs ((execThreads (.s n a b) act).flatMap (resultW ty (.s n a b) r)) q) q') :
    Gets ty (.s n a b) act q q' (fun u => ((r u).1 : Int)) ∧ q'.p = q.p ∧ q'.b = q.b ∧
      q'.flg = stuck (.s n a b) act q.flg fun u => (r u).2 := by
  have hflg := flg_results (ty := ty) (r := r) (d := .s n a b) (.inr ⟨n, a, b, rfl⟩) (execThreads (.s n a b) act) q
  have hthreads : execThreads (.s n a b) act = (lowest act).toList := rfl
  obtain ⟨gv, gs, gp, gb, gvi, gim, gflg⟩ := hregs
  have hone : ∀ q : Squad, ∀ u, applyWs (resultW ty (.s n a b) r u) q =
      { q with s := tset 0 q.s n (wide ty (r u).1), flg := q.flg ||| BitVec.ofNat 5 (r u).2 } := by
    intro q u
    rw [resultW, applyWs_append, applyWs_flagW, ← wide_code fun h => hsmall h u]
    rfl
  refine ⟨?_, ?_, ?_, gflg.trans hflg⟩
  · rw [applyWs_flatMap, hthreads] at gv gs gvi gim
    cases hl : lowest act with
    | none =>
      rw [hl] at gv gs gvi gim
      refine ⟨gv, gvi, gim, fun k => ?_⟩
      simp only [hl]
      rw [rdS, gs]
      rfl
    | some u =>
      rw [hl] at gv gs gvi gim
      simp only [Option.toList_some, List.foldl_cons, List.foldl_nil, hone] at gv gs gvi gim
      refine ⟨gv, gvi, gim, fun k => ?_⟩
      simp only [hl]
      rw [rdS, gs, tget_tset]
      simp only [eq_comm (a := n), rdS]
  · rw [applyWs_flatMap, hthreads] at gp
    cases hl : lowest act with
    | none => rw [hl] at gp; exact gp
    | some u => rw [hl] at gp; simpa [hone] using gp
  · rw [applyWs_flatMap, hthreads] at gb
    cases hl : lowest act with
    | none => rw [hl] at gb; exact gb
    | some u => rw [hl] at gb; simpa [hone] using gb

theorem gets_results (hd : (∃ n a b, d = .v n a b) ∨ ∃ n a b, d = .s n a b)
    (hsmall : isUniform d = true → ty = .u32 → ∀ u, (r u).1 < 2 ^ 32)
    (hregs : SameRegs (applyWs ((execThreads d act).flatMap (resultW ty d r)) q) q') :
    Gets ty d act q q' (fun u => ((r u).1 : Int)) ∧ q'.p = q.p ∧ q'.b = q.b ∧ q'.flg = stuck d act q.flg fun u => (r u).2 := by
  rcases hd with ⟨n, a, b, rfl⟩ | ⟨n, a, b, rfl⟩
  · exact gets_results_v hregs
  · exact gets_results_s (hsmall rfl) hregs

end

end Sys2Proof.Machine
end

section

namespace Sys2Proof.Machine

/-! ### Results are codes of their format -/

/-- The special codes of a format lie within it. -/
abbrev Roomy (l : Fields) : Prop :=
  (if l.sat then l.top else infinity l) < 2 ^ (l.expo + l.frac) ∧ (if l.expo = 2 then 0 else canonical l) < 2 ^ (l.expo + l.frac)

theorem roomy_fieldsOf (ft : FType) : Roomy (fieldsOf ft) := by cases ft <;> decide
theorem roomy_f8e4 : Roomy f8e4Fields := by decide
theorem roomy_f8e5 : Roomy f8e5Fields := by decide
theorem roomy_f4 : Roomy f4Fields := by decide

section
variable {f : FloatFmt} {l : Fields} {rm : Rm} {neg : Bool} {m : Nat} {e : Int} {st : Bool}

theorem codeOf_of_lt {g : Nat} (hg : g < 2 ^ (l.expo + l.frac)) : CodeOf l g := by
  have h := codeOf_signCode_add (neg := false) hg
  rwa [signCode_false, zero_add] at h

theorem codeOf_overflowCode (hf : Matches f l) (hr : Roomy l) : CodeOf l (overflowCode l rm neg) := by
  obtain ⟨-, htop, -⟩ := hf.bounds
  have hinf := hr.1
  refine codeOf_signCode_add ?_
  cases hs : l.sat
  · rw [hs, if_neg Bool.false_ne_true] at hinf
    rw [if_neg Bool.false_ne_true]
    cases rm <;> cases neg <;> assumption
  · rwa [if_pos rfl]

theorem codeOf_roundsTo (hf : Matches f l) (hr : Roomy l) {x : ℝ} {c fl : Nat} (h : RoundsTo l rm x c fl) : CodeOf l c := by
  obtain ⟨u, -, ⟨-, rfl, -⟩ | ⟨-, hfin, -⟩⟩ := h
  · exact codeOf_overflowCode hf hr
  · exact hfin.1

theorem codeOf_becomes (hf : Matches f l) (hr : Roomy l) {v : FV} {r : Nat × Nat} (h : BecomesFloat l rm v r) : CodeOf l r.1 := by
  cases v with
  | nan =>
    have hr2 := codeOf_of_lt hr.2
    simp only [BecomesFloat] at h
    rw [h]
    split <;> simp_all
  | inf neg =>
    simp only [BecomesFloat] at h
    rw [h]
    exact codeOf_signCode_add hr.1
  | fin neg m e =>
    simp only [BecomesFloat] at h
    split at h
    · have h0 := codeOf_signCode_add (l := l) (neg := neg) (Nat.two_pow_pos _)
      rw [h]
      split
      · exact Nat.two_pow_pos _
      · exact h0
    · exact codeOf_roundsTo hf hr h

theorem codeOf_encodeF (hf : Matches f l) (hr : Roomy l) (rm : Rm) (v : FV) : CodeOf l (encodeF f rm v).1 :=
  codeOf_becomes hf hr (encodeF_becomes hf rm v)

/-- Some number has the digits of a magnitude with its sticky bit. -/
theorem exists_magnitude (m : Nat) (e : Int) (st : Bool) : ∃ y, MagnitudeIs m e st y := by
  cases st with
  | false => exact ⟨_, rfl⟩
  | true =>
    have h := two_zpow_pos e
    exact ⟨(m + 1 / 2) * 2 ^ e, mul_lt_mul_of_pos_right (by norm_num) h, mul_lt_mul_of_pos_right (by norm_num) h⟩

/-- A magnitude below half the unit rounds to zero or to one unit. -/
theorem quant_le_one {q : Int} (hq : e + (bitLen m : Nat) < q) : (quant rm neg m e st q).1 ≤ 1 := by
  have hm : m < 2 ^ bitLen m := by
    by_contra hc
    exact hc (bitLen_bounds fun h => hc (by rw [h]; decide)).2
  have hlt : m < 2 ^ (q - e).toNat := hm.trans_le (Nat.pow_le_pow_right two_pos (by omega))
  rw [quant, if_neg (by omega)]
  dsimp only
  rw [Nat.div_eq_of_lt hlt]
  split <;> split <;> decide

/-- A rounding with a sticky bit is a code when its digits are more than the precision holds, or when it lies below the units. -/
theorem codeOf_encodeF_sticky (hf : Matches f l) (hr : Roomy l)
    (h : (m ≠ 0 ∧ f.prec < bitLen m) ∨ e + (bitLen m : Nat) < unitExp l) : CodeOf l (encodeF f rm (.fin neg m e) st).1 := by
  obtain ⟨-, htop, -⟩ := hf.bounds
  rcases h with ⟨hm, hbits⟩ | h
  · obtain ⟨y, hy⟩ := exists_magnitude m e st
    exact codeOf_roundsTo hf hr (encodeF_roundsTo (rm := rm) (neg := neg) hf hy hm fun _ => hbits)
  · have hround : (signCode l neg + (roundMag f rm neg m e st).1) < 2 ^ (1 + l.expo + l.frac) := by
      have heq := roundMag_eq hf rm neg m e st
      dsimp only at heq
      split at heq
      · rw [heq.1]
        exact codeOf_overflowCode hf hr
      · have hunit : codeUnit l m e = unitExp l := max_eq_right (by unfold ownUnit; omega)
        have hone : (roundMag f rm neg m e st).1 ≤ 1 := by
          rw [heq, codeOfUnits, hunit, sub_self]
          simpa using quant_le_one h
        obtain ⟨-, -, hfrac, -⟩ := hf.bounds
        exact codeOf_signCode_add (by have := Nat.one_le_two_pow (n := l.frac); omega)
    have hzero := codeOf_signCode_add (l := l) (neg := neg) (Nat.two_pow_pos _)
    have h0 : CodeOf l 0 := Nat.two_pow_pos _
    simp only [encodeF, width_four hf, signBit_eq hf]
    split
    · split
      · exact h0
      · exact hzero
    · split
      · exact h0
      · exact hround

theorem codeOf_opF (hf : Matches f l) (hr : Roomy l) (rm : Rm) (v : FV × Nat) : CodeOf l (opF f rm v).1 := codeOf_encodeF hf hr rm v.1

end

/-! ### FP32 results fit a register -/

/-- Digits enough for FP32, or a magnitude below its units. -/
theorem encodeF_sticky_lt {rm : Rm} {neg : Bool} {m : Nat} {e : Int} {st : Bool} (h : 2 ^ 40 ≤ m ∨ (e + (bitLen m : Nat) : Int) < -149) :
    (encodeF fp32 rm (.fin neg m e) st).1 < 2 ^ 32 := by
  refine codeOf_encodeF_sticky matches_fp32 (roomy_fieldsOf .f32) (h.imp (fun h => ⟨by rintro rfl; omega, ?_⟩) fun h => h)
  exact (by decide : fp32.prec < 40).trans (lt_bitLen h)

theorem encodeF_lt (rm : Rm) (v : FV) : (encodeF fp32 rm v).1 < 2 ^ 32 := codeOf_encodeF matches_fp32 (roomy_fieldsOf .f32) rm v

theorem divF_lt (rm : Rm) (a b : Nat) : (divF rm a b).1 < 2 ^ 32 := by
  unfold divF
  split
  · decide
  · decide
  · decide
  · exact encodeF_lt _ _
  · exact encodeF_lt _ _
  · split
    · split
      · decide
      · exact encodeF_lt _ _
    · split
      · exact encodeF_lt _ _
      next hl hm => exact encodeF_sticky_lt (.inl (divMag_large hm _ hl _))

theorem rcpF_lt (a : Nat) : (rcpF a).1 < 2 ^ 32 := by
  simp only [rcpF]
  split
  · split <;> decide
  · exact divF_lt _ _ _

theorem sqrtF_lt {a : Nat} (ha : a < 2 ^ 32) : (sqrtF a).1 < 2 ^ 32 := by
  unfold sqrtF
  split
  · decide
  · split
    · decide
    · exact ha
  · split
    · exact ha
    · split
      · decide
      next hm _ =>
        refine encodeF_sticky_lt (.inl ?_)
        rw [isqrt_eq_sqrt, Nat.le_sqrt, ← pow_add]
        exact (evenScale_spec hm _).1

theorem rsqF_lt (a : Nat) : (rsqF a).1 < 2 ^ 32 := by
  unfold rsqF
  split
  · decide
  · split <;> decide
  · split
    · split <;> decide
    · split
      · decide
      next m e _ hm _ =>
        refine encodeF_sticky_lt (.inl ?_)
        have hs : (evenScale m e).1 ≠ 0 := by
          have := (evenScale_spec hm e).1
          omega
        rw [isqrt_eq_sqrt, Nat.le_sqrt, ← pow_add, Nat.le_div_iff_mul_le (Nat.pos_of_ne_zero hs)]
        calc 2 ^ (40 + 40) * (evenScale m e).1 ≤ 2 ^ (40 + 40) * 2 ^ bitLen (evenScale m e).1 :=
              Nat.mul_le_mul_left _ (bitLen_bounds hs).2.le
          _ = 2 ^ (40 + 40 + bitLen (evenScale m e).1) := (pow_add _ _ _).symm
          _ ≤ 2 ^ (2 * (bitLen (evenScale m e).1 + 80)) := Nat.pow_le_pow_right two_pos (by omega)

/-- The rounding of an approximation is a code, of one with many digits or one in units far below FP32's. -/
theorem roundNear_lt (neg : Bool) {x : Nat} {k : Int} (h : 2 ^ 41 ≤ x ∨ k = 0) : (roundNear neg x k).1 < 2 ^ 32 := by
  have hpart (m : Nat) (hm : 2 ^ 40 ≤ m ∨ k = 0) : (encodeF fp32 .rne (.fin neg m (k - fxBits)) true).1 < 2 ^ 32 := by
    by_cases hbig : 2 ^ 40 ≤ m
    · exact encodeF_sticky_lt (.inl hbig)
    · have hbits := bitLen_le (not_le.1 hbig)
      refine encodeF_sticky_lt (.inr ?_)
      rw [hm.resolve_left hbig, fxBits]
      omega
  have hlo := hpart (x - 2 ^ 20) (h.imp (fun h => by omega) id)
  have hhi := hpart (x + 2 ^ 20 - 1) (h.imp (fun h => by omega) id)
  simp only [roundNear]
  split
  · exact hlo
  · split
    · exact hlo
    · exact hhi

theorem le_expSeries (t b n k u : Nat) : u ≤ expSeries t b (n + 1) k u := Nat.le_add_right _ _

theorem ex2F_lt {a : Nat} (ha : a < 2 ^ 32) : (ex2F a).1 < 2 ^ 32 := by
  unfold ex2F
  split
  · decide
  · split
    · decide
    · exact ha
  · split
    · decide
    · split
      · exact encodeF_lt _ _
      · dsimp only
        split
        · exact encodeF_lt _ _
        · refine roundNear_lt _ (.inl ?_)
          have hbits : 41 ≤ fxBits := by decide
          generalize fxBits = b at *
          exact (Nat.pow_le_pow_right two_pos hbits).trans (le_expSeries _ b 89 0 (2 ^ b))

theorem lg2F_lt {a : Nat} (ha : a < 2 ^ 32) : (lg2F a).1 < 2 ^ 32 := by
  unfold lg2F
  split
  · decide
  · split
    · decide
    · exact ha
  · split
    · decide
    · split
      · decide
      · dsimp only
        split
        · exact encodeF_lt _ _
        · exact roundNear_lt _ (.inr rfl)

theorem trigF_lt (cos : Bool) {a : Nat} (ha : a < 2 ^ 32) : (trigF cos a).1 < 2 ^ 32 := by
  unfold trigF
  cases decodeIeee fp32 a with
  | nan => exact (by decide : fp32.nanCode < 2 ^ 32)
  | inf n => exact (by decide : fp32.nanCode < 2 ^ 32)
  | fin n m e =>
    by_cases hm : m = 0
    · simp only [if_pos hm]
      split
      · decide
      · exact ha
    · simp only [if_neg hm]
      apply roundNear_lt
      exact .inr rfl

end Sys2Proof.Machine
end

section

namespace Sys2Proof.Machine

/-! ### Results of the scalar types fit a register -/

theorem width_fieldsOf (ft : FType) : 1 + (fieldsOf ft).expo + (fieldsOf ft).frac = ftW ft := by cases ft <;> rfl
theorem ftW_le (ft : FType) : ftW ft ≤ 32 := by cases ft <;> decide

/-- A code of a scalar type, as its operands are and its results. -/
abbrev ScalarCode (ft : FType) (x : Nat) : Prop := x < 2 ^ ftW ft

theorem ScalarCode.lt {ft : FType} {x : Nat} (h : ScalarCode ft x) : x < 2 ^ 32 :=
  lt_of_lt_of_le h (Nat.pow_le_pow_right two_pos (ftW_le ft))

theorem scalarCode_of_codeOf {ft : FType} {x : Nat} (h : CodeOf (fieldsOf ft) x) : ScalarCode ft x := by
  rwa [ScalarCode, ← width_fieldsOf]

theorem scalarCode_encodeF (ft : FType) (rm : Rm) (v : FV) : ScalarCode ft (encodeF (fmtOf ft) rm v).1 :=
  scalarCode_of_codeOf (codeOf_encodeF (matches_fmtOf ft) (roomy_fieldsOf ft) rm v)

theorem scalarCode_opF (ft : FType) (rm : Rm) (v : FV × Nat) : ScalarCode ft (opF (fmtOf ft) rm v).1 := scalarCode_encodeF ft rm v.1

theorem scalarCode_addF (ft : FType) (rm : Rm) (a b : Nat) : ScalarCode ft (addF (fmtOf ft) rm a b).1 := scalarCode_opF ft rm _
theorem scalarCode_subF (ft : FType) (rm : Rm) (a b : Nat) : ScalarCode ft (subF (fmtOf ft) rm a b).1 := scalarCode_opF ft rm _
theorem scalarCode_mulF (ft : FType) (rm : Rm) (a b : Nat) : ScalarCode ft (mulF (fmtOf ft) rm a b).1 := scalarCode_opF ft rm _
theorem scalarCode_fmaF (ft : FType) (rm : Rm) (a b c : Nat) : ScalarCode ft (fmaF (fmtOf ft) rm a b c).1 := scalarCode_opF ft rm _
theorem scalarCode_scaleF (ft : FType) (rm : Rm) (a : Nat) (n : Int) : ScalarCode ft (scaleF (fmtOf ft) rm a n).1 :=
  scalarCode_encodeF ft rm _
theorem scalarCode_i2fVal (ft : FType) (ity : IType) (rm : Rm) (x : Nat) : ScalarCode ft (i2fVal ft ity rm x).1 :=
  scalarCode_encodeF ft rm _

theorem scalarCode_nan (ft : FType) : ScalarCode ft (fmtOf ft).nanCode := by cases ft <;> decide

theorem modF_lt {w x : Nat} (hw : 0 < w) (g a : Bool) (hx : x < 2 ^ w) : modF w g a x < 2 ^ w := by
  have hpow : 2 ^ w = 2 * 2 ^ (w - 1) := by rw [← pow_succ', Nat.sub_add_cancel hw]
  have hmod : x % 2 ^ (w - 1) < 2 ^ (w - 1) := Nat.mod_lt x (Nat.two_pow_pos _)
  have hy : (if a = true then x % 2 ^ (w - 1) else x) < 2 ^ w := by split <;> omega
  simp only [modF]
  generalize (if a = true then x % 2 ^ (w - 1) else x) = y at hy
  split
  · split <;> omega
  · exact hy

/-- An operand in its field's range reads as a code of the type. -/
theorem scalarCode_rdF (q : Squad) (ft : FType) {o : Opnd} (ho : opInRange o = true) (t : Nat) : ScalarCode ft (rdF q ft o t) := by
  have hw : 0 < ftW ft := by cases ft <;> decide
  cases o with
  | v n g a => exact modF_lt hw g a (Nat.mod_lt _ (Nat.two_pow_pos _))
  | s n g a => exact modF_lt hw g a (Nat.mod_lt _ (Nat.two_pow_pos _))
  | imm x =>
    have hx : x < 1048576 := by simpa [opInRange] using ho
    cases ft with
    | f32 => show x * 4096 < 4294967296; omega
    | f16 => exact Nat.mod_lt x (by decide)
    | bf16 => exact Nat.mod_lt x (by decide)
  | _ => exact Nat.two_pow_pos _

theorem scalarCode_minmaxF {ft : FType} {a b : Nat} (big : Bool) (ha : ScalarCode ft a) (hb : ScalarCode ft b) :
    ScalarCode ft (minmaxF (fmtOf ft) big a b) := by
  have hpick (c : Bool) : ScalarCode ft (if c then a else b) ∧ ScalarCode ft (if c then b else a) := by cases c <;> exact ⟨‹_›, ‹_›⟩
  simp only [minmaxF]
  split
  · exact scalarCode_nan ft
  · exact hb
  · exact ha
  · split
    · exact (hpick big).2
    · exact (hpick big).1
    · split
      · exact (hpick big).2
      · exact (hpick big).1

theorem scalarCode_rndF {ft : FType} {a : Nat} (rm : Rm) (ha : ScalarCode ft a) : ScalarCode ft (rndF (fmtOf ft) rm a) := by
  unfold rndF
  split
  · exact scalarCode_nan ft
  · exact ha
  · split
    · exact ha
    · exact scalarCode_encodeF ft rm _

theorem classF_lt (f : FloatFmt) (a : Nat) : classF f a < 2 ^ 32 := by
  unfold classF
  split
  · decide
  · decide
  · decide
  · split
    · split <;> decide
    · dsimp only
      split <;> split <;> decide

theorem encodeI_lt (w : Nat) (lo hi : Int) (rm : Rm) (v : FV) : (encodeI w lo hi rm v).1 < 2 ^ w := by
  have hcut (x : Int) : (x % 2 ^ w).toNat < 2 ^ w := by
    have hpos : (0 : Int) < 2 ^ w := by positivity
    have h1 := Int.emod_nonneg x hpos.ne'
    have h2 := Int.emod_lt_of_pos x hpos
    rw [← Int.toNat_of_nonneg h1] at h2
    exact_mod_cast h2
  cases v with
  | nan => exact Nat.two_pow_pos w
  | inf n => exact hcut _
  | fin n m e =>
    simp only [encodeI]
    generalize (if n = true then -((quant rm n m e false 0).1 : Int) else (quant rm n m e false 0).1) = x
    split
    · exact hcut lo
    · split
      · exact hcut hi
      · exact hcut x

theorem encodeElem_lt (code : Nat) (rm : Rm) (v : FV) : (encodeElem code rm v).1 < 2 ^ 32 := by
  have hfloat {f : FloatFmt} {l : Fields} (hf : Matches f l) (hr : Roomy l) (hw : 1 + l.expo + l.frac ≤ 32) :
      (encodeF f rm v).1 < 2 ^ 32 := (codeOf_encodeF hf hr rm v).trans_le (Nat.pow_le_pow_right two_pos hw)
  have hint {w : Nat} (lo hi : Int) (hw : w ≤ 32) : (encodeI w lo hi rm v).1 < 2 ^ 32 :=
    (encodeI_lt w lo hi rm v).trans_le (Nat.pow_le_pow_right two_pos hw)
  unfold encodeElem
  split_ifs
  · exact hfloat matches_fp32 (roomy_fieldsOf .f32) (by decide)
  · exact hfloat matches_fp16 (roomy_fieldsOf .f16) (by decide)
  · exact hfloat matches_bf16 (roomy_fieldsOf .bf16) (by decide)
  · exact hfloat matches_f8e4 roomy_f8e4 (by decide)
  · exact hfloat matches_f8e5 roomy_f8e5 (by decide)
  · exact hfloat matches_f4 roomy_f4 (by decide)
  · exact hint _ _ (by decide)
  · exact hint _ _ (by decide)
  · exact hint _ _ (by decide)

/-- Two codes of a packed form make a register. -/
theorem halves_lt {ft : FType} (hft : ft ≠ .f32) {lo hi : Nat × Nat} (hlo : ScalarCode ft lo.1) (hhi : ScalarCode ft hi.1) :
    (floatRule.halves lo hi).1 < 2 ^ 32 := by
  have h16 : ftW ft = 16 := by
    cases ft
    · exact absurd rfl hft
    · rfl
    · rfl
  rw [ScalarCode, h16] at hlo hhi
  show lo.1 + 65536 * hi.1 < 2 ^ 32
  omega

/-! ### The destination of a form -/

/-- A destination position holds a v-register or an s-register. -/
theorem dst_kinds {lim : Lim} {d : Opnd} {al : Nat} {vsrc : Bool} (h : slotWf lim (dst d al vsrc) = true) :
    (∃ n a b, d = .v n a b) ∨ ∃ n a b, d = .s n a b := by
  have hkind : (if vsrc then [Kind.v] else [Kind.v, .s]).contains (opKind d) = true := by
    by_contra hk
    rw [dst, slotWf] at h
    unfold opErrs at h
    rw [if_neg hk, Bool.and_eq_true, List.isEmpty_iff, List.append_assoc, List.append_eq_nil_iff] at h
    cases h.2.1
  cases d with
  | v n a b => exact .inl ⟨n, a, b, rfl⟩
  | s n a b => exact .inr ⟨n, a, b, rfl⟩
  | _ => split at hkind <;> simp [opKind] at hkind

theorem op_inRange {lim : Lim} {o : Opnd} {ks : List Kind} {mods : Bool} {al sal lt : Nat}
    (h : slotWf lim (.op o ks mods al sal lt) = true) : opInRange o = true := by
  rw [slotWf, Bool.and_eq_true] at h
  exact h.1

/-! ### Completion with results and flags -/

section
variable {i : Instr} {s : State} {id : Nat} {q : Squad} {p : Path} {h : Hdr} {cls n : Nat} {ty : IType} {d : Opnd}
variable {f : Squad → Nat → Nat × Nat}

/-- An instruction of fixed latency that writes a code and flags in each executing thread. -/
theorem results_done (hd : (∃ n a b, d = .v n a b) ∨ ∃ n a b, d = .s n a b)
    (hexec : exec i s = alu h cls n d (fun q => resultW ty d (f q)) s)
    (hsmall : isUniform d = true → ty = .u32 → ∀ u, (f q u).1 < 2 ^ 32) (hI : Issues s id q p h cls) :
    Writes i s id q p h fun q' => Gets ty d (runs p h q) q q' (fun u => (f q u).1) ∧ q'.p = q.p ∧ q'.b = q.b ∧
      q'.flg = stuck d (runs p h q) q.flg fun u => (f q u).2 := by
  obtain ⟨t, q', ht, hwent, honly, hsame, hpend, hregs⟩ := fixed_done (occ := occOf d n)
    (body := fun x s => .ok (putFixed s x ((execThreads d x.act).flatMap (resultW ty d (f x.q)))))
    (ws := (execThreads d (runs p h q)).flatMap (resultW ty d (f q))) hI rfl
  exact ⟨t, q', hexec.trans ht, hwent, honly, hsame, hpend, gets_results hd hsmall hregs⟩

theorem results_eq_nil (hd : (∃ n a b, d = .v n a b) ∨ ∃ n a b, d = .s n a b) (act : Mask) (r : Nat → Nat × Nat) :
    (execThreads d act).flatMap (resultW ty d r) = [] ↔ act = 0 := by
  rw [List.flatMap_eq_nil_iff, ← execThreads_eq_nil (d := d), List.eq_nil_iff_forall_not_mem]
  refine forall_congr' fun t => ?_
  have hne : resultW ty d r t ≠ [] := by
    rcases hd with ⟨n, a, b, rfl⟩ | ⟨n, a, b, rfl⟩
    · simp only [resultW, wrTy, wrInt]
      split <;> simp
    · simp [resultW, wrTy, wrInt]
  simp [hne]

/-- A meaning that leaves its writes outstanding, some in an active thread, owes what they make of the registers. -/
theorem owes_later {occ : Occ} {body : Iss → State → Res} {ws : List RegW} {E : Squad → Prop} (hI : Issues s id q p h cls)
    (hexec : exec i s = issue h cls occ s body)
    (hbody : body (seen id q p h) (issued s id q p h cls occ) = .ok (putLater (issued s id q p h cls occ) (seen id q p h) ws))
    (hws : ws = [] ↔ runs p h q = 0) (hE : ∀ q', SameRegs (applyWs ws q) q' → E q') : Owes i s id q p h OnlySquads E := by
  obtain ⟨-, -, -, heq, -⟩ := issued_squad s id q p h cls occ hI
  obtain ⟨t, q', ht, hwent, hsame, hregs, hlen, hland, hteq⟩ := later_done (w := none) hI hbody rfl
  refine ⟨t, q', hexec.trans ht, hwent, ?_, hsame, hregs, ?_, hE _ hland⟩
  · unfold OnlySquads
    rw [hteq, heq]
  · rw [hlen]
    exact if_congr hws rfl rfl

/-- One of variable latency owes them. -/
theorem results_owed (hd : (∃ n a b, d = .v n a b) ∨ ∃ n a b, d = .s n a b)
    (hexec : exec i s = aluLater h cls n d (fun q => resultW ty d (f q)) s)
    (hsmall : isUniform d = true → ty = .u32 → ∀ u, (f q u).1 < 2 ^ 32) (hI : Issues s id q p h cls) :
    Owes i s id q p h OnlySquads fun q' => Gets ty d (runs p h q) q q' (fun u => (f q u).1) ∧ q'.p = q.p ∧ q'.b = q.b ∧
      q'.flg = stuck d (runs p h q) q.flg fun u => (f q u).2 :=
  owes_later (occ := occOf d n) (body := fun x s => .ok (putLater s x ((execThreads d x.act).flatMap (resultW ty d (f x.q)))))
    (ws := (execThreads d (runs p h q)).flatMap (resultW ty d (f q))) hI hexec rfl (results_eq_nil hd _ _)
    fun _ hregs => gets_results hd hsmall hregs

end

end Sys2Proof.Machine
end

section

namespace Sys2Proof.Machine

/-! ### Floating-point instructions complete with their results (R107-R118) -/

section
variable {i : Instr}

theorem wf_slots (hwf : i.wf = true) : modsWf i = true ∧ slotWf .max (instrForm i).d = true ∧ slotWf .max (instrForm i).a = true ∧
    slotWf .max (instrForm i).b = true := by
  simp only [Instr.wf, Bool.and_eq_true] at hwf
  exact ⟨hwf.1.1.1.1.2, hwf.1.1.1.2, hwf.1.1.2, hwf.1.2⟩

theorem wf_dst {d : Opnd} {al : Nat} {vsrc : Bool} (hwf : i.wf = true) (hform : (instrForm i).d = dst d al vsrc) :
    (∃ n a b, d = .v n a b) ∨ ∃ n a b, d = .s n a b := by
  obtain ⟨-, hd, -⟩ := wf_slots hwf
  rw [hform] at hd
  exact dst_kinds hd

/-- An operand of a floating-point form reads as a code. -/
theorem wf_rdF_a {ft ft' : FType} {a : Opnd} {mods : Bool} (hwf : i.wf = true) (hform : (instrForm i).a = srcF ft a mods) (q : Squad)
    (u : Nat) : ScalarCode ft' (rdF q ft' a u) := by
  obtain ⟨-, -, ha, -⟩ := wf_slots hwf
  rw [hform] at ha
  exact scalarCode_rdF q ft' (op_inRange ha) u

theorem wf_rdF_b {ft ft' : FType} {b : Opnd} {mods : Bool} (hwf : i.wf = true) (hform : (instrForm i).b = srcF ft b mods) (q : Squad)
    (u : Nat) : ScalarCode ft' (rdF q ft' b u) := by
  obtain ⟨-, -, -, hb⟩ := wf_slots hwf
  rw [hform] at hb
  exact scalarCode_rdF q ft' (op_inRange hb) u

end

/-- A conversion without an active thread does nothing, and otherwise writes each thread its code. -/
theorem fcvt_done {s : State} {id : Nat} {q : Squad} {p : Path} {h : Hdr} {dst' src : Nat} {rm : Rm} {d a : Opnd}
    (hd : (∃ n a b, d = .v n a b) ∨ ∃ n a b, d = .s n a b) (hdx : isDx dst' = false) (hI : Issues s id q p h 1) :
    Writes (.fcvt h dst' src rm d a) s id q p h fun q' =>
      Gets .u32 d (runs p h q) q q' (fun u => (encodeElem dst' rm (fcvtSource src (fcvtImage q src a u))).1) ∧
      q'.p = q.p ∧ q'.b = q.b ∧
      q'.flg = stuck d (runs p h q) q.flg fun u => (encodeElem dst' rm (fcvtSource src (fcvtImage q src a u))).2 := by
  have hsmall (u : Nat) := encodeElem_lt dst' rm (fcvtSource src (fcvtImage q src a u))
  have hexec : exec (.fcvt h dst' src rm d a) s = execFcvt h dst' src rm d a s := rfl
  by_cases hact : runs p h q = 0
  · obtain ⟨t, q', ht, hwent, hsame, hregs, hpend, hteq⟩ := plain_done (occ := occOf d 1) (t := issued s id q p h 1 (occOf d 1))
      (body := fun x s => if x.act = 0 then .ok s
        else .ok (putFixed (if isDx dst' then blockCycles s x else s) x (fcvtWrites dst' src rm d a x.act x.q)))
      hI (if_pos hact) rfl
    obtain ⟨-, -, -, heq, -⟩ := issued_squad s id q p h 1 (occOf d 1) hI
    refine ⟨t, q', hexec.trans ht, hwent, ?_, hsame, hpend, gets_results hd (fun _ _ u => hsmall u) ?_⟩
    · unfold OnlySquads
      rw [hteq, heq]
    · rwa [hact, execThreads_zero]
  · obtain ⟨t, q', ht, hwent, honly, hsame, hpend, hregs⟩ := fixed_done (occ := occOf d 1)
      (body := fun x s => if x.act = 0 then .ok s
        else .ok (putFixed (if isDx dst' then blockCycles s x else s) x (fcvtWrites dst' src rm d a x.act x.q)))
      (ws := (execThreads d (runs p h q)).flatMap (resultW .u32 d fun u => encodeElem dst' rm (fcvtSource src (fcvtImage q src a u)))) hI
      (by
        have hact' : (seen id q p h).act ≠ 0 := hact
        simp only [if_neg hact', hdx, Bool.false_eq_true, if_false, fcvtWrites]
        rfl)
    exact ⟨t, q', hexec.trans ht, hwent, honly, hsame, hpend, gets_results hd (fun _ _ u => hsmall u) hregs⟩

theorem exec_fadd (h : Hdr) (ft : FType) (rm : Rm) (d a b : Opnd) (s : State) : exec (.fadd h ft rm d a b) s =
    alu h 1 1 d (fun q => resultW .u32 d fun u => addF (fmtOf ft) rm (rdF q ft a u) (rdF q ft b u)) s := rfl
theorem exec_fsub (h : Hdr) (ft : FType) (rm : Rm) (d a b : Opnd) (s : State) : exec (.fsub h ft rm d a b) s =
    alu h 1 1 d (fun q => resultW .u32 d fun u => subF (fmtOf ft) rm (rdF q ft a u) (rdF q ft b u)) s := rfl
theorem exec_fmul (h : Hdr) (ft : FType) (rm : Rm) (d a b : Opnd) (s : State) : exec (.fmul h ft rm d a b) s =
    alu h 1 1 d (fun q => resultW .u32 d fun u => mulF (fmtOf ft) rm (rdF q ft a u) (rdF q ft b u)) s := rfl
theorem exec_ffma (h : Hdr) (ft : FType) (rm : Rm) (d a b : Opnd) (s : State) : exec (.ffma h ft rm d a b) s =
    alu h 2 1 d (fun q => resultW .u32 d fun u => fmaF (fmtOf ft) rm (rdF q ft a u) (rdF q ft b u) (rdF q ft d u)) s := rfl
theorem exec_fmin (h : Hdr) (ft : FType) (d a b : Opnd) (s : State) : exec (.fmin h ft d a b) s =
    alu h 1 1 d (fun q => resultW .u32 d fun u => (minmaxF (fmtOf ft) false (rdF q ft a u) (rdF q ft b u), 0)) s := rfl
theorem exec_fmax (h : Hdr) (ft : FType) (d a b : Opnd) (s : State) : exec (.fmax h ft d a b) s =
    alu h 1 1 d (fun q => resultW .u32 d fun u => (minmaxF (fmtOf ft) true (rdF q ft a u) (rdF q ft b u), 0)) s := rfl
theorem exec_frnd (h : Hdr) (ft : FType) (rm : Rm) (d a : Opnd) (s : State) : exec (.frnd h ft rm d a) s =
    alu h 1 1 d (fun q => resultW .u32 d fun u => (rndF (fmtOf ft) rm (rdF q ft a u), 0)) s := rfl
theorem exec_hfma2 (h : Hdr) (ft : FType) (rm : Rm) (d a b : Opnd) (s : State) : exec (.hfma2 h ft rm d a b) s =
    alu h 2 1 d (fun q => resultW .u32 d fun u => floatRule.halves
      (fmaF (fmtOf ft) rm (rdPacked q a u).1 (rdPacked q b u).1 (rdPacked q d u).1)
      (fmaF (fmtOf ft) rm (rdPacked q a u).2 (rdPacked q b u).2 (rdPacked q d u).2)) s := rfl
theorem exec_hadd2 (h : Hdr) (ft : FType) (rm : Rm) (d a b : Opnd) (s : State) : exec (.hadd2 h ft rm d a b) s =
    alu h 1 1 d (fun q => resultW .u32 d fun u => floatRule.halves
      (addF (fmtOf ft) rm (rdPacked q a u).1 (rdPacked q b u).1) (addF (fmtOf ft) rm (rdPacked q a u).2 (rdPacked q b u).2)) s := rfl
theorem exec_hmul2 (h : Hdr) (ft : FType) (rm : Rm) (d a b : Opnd) (s : State) : exec (.hmul2 h ft rm d a b) s =
    alu h 1 1 d (fun q => resultW .u32 d fun u => floatRule.halves
      (mulF (fmtOf ft) rm (rdPacked q a u).1 (rdPacked q b u).1) (mulF (fmtOf ft) rm (rdPacked q a u).2 (rdPacked q b u).2)) s := rfl
theorem exec_f2i (h : Hdr) (ity : IType) (ft : FType) (rm : Rm) (d a : Opnd) (s : State) : exec (.f2i h ity ft rm d a) s =
    alu h 1 1 d (fun q => resultW ity d fun u => f2iVal ity ft rm (rdF q ft a u)) s := rfl
theorem exec_i2f (h : Hdr) (ft : FType) (ity : IType) (rm : Rm) (d a : Opnd) (s : State) : exec (.i2f h ft ity rm d a) s =
    alu h 1 1 d (fun q => resultW .u32 d fun u => i2fVal ft ity rm (rdInt q (tyW ity) a u)) s := rfl
theorem exec_fclass (h : Hdr) (ft : FType) (d a : Opnd) (s : State) : exec (.fclass h ft d a) s =
    alu h 1 1 d (fun q => resultW .u32 d fun u => (classF (fmtOf ft) (rdF q ft a u), 0)) s := rfl
theorem exec_fdiv (h : Hdr) (d a b : Opnd) (s : State) : exec (.fdiv h d a b) s =
    aluLater h 3 8 d (fun q => resultW .u32 d fun u => divF .rne (rdF q .f32 a u) (rdF q .f32 b u)) s := rfl
theorem exec_fsqrt (h : Hdr) (d a : Opnd) (s : State) : exec (.fsqrt h d a) s =
    aluLater h 3 4 d (fun q => resultW .u32 d fun u => sqrtF (rdF q .f32 a u)) s := rfl
theorem exec_frcp (h : Hdr) (d a : Opnd) (s : State) : exec (.frcp h d a) s =
    aluLater h 2 2 d (fun q => resultW .u32 d fun u => rcpF (rdF q .f32 a u)) s := rfl
theorem exec_frsq (h : Hdr) (d a : Opnd) (s : State) : exec (.frsq h d a) s =
    aluLater h 3 4 d (fun q => resultW .u32 d fun u => rsqF (rdF q .f32 a u)) s := rfl
theorem exec_fex2 (h : Hdr) (d a : Opnd) (s : State) : exec (.fex2 h d a) s =
    aluLater h 3 4 d (fun q => resultW .u32 d fun u => ex2F (rdF q .f32 a u)) s := rfl
theorem exec_flg2 (h : Hdr) (d a : Opnd) (s : State) : exec (.flg2 h d a) s =
    aluLater h 3 4 d (fun q => resultW .u32 d fun u => lg2F (rdF q .f32 a u)) s := rfl
theorem exec_fsin (h : Hdr) (d a : Opnd) (s : State) : exec (.fsin h d a) s =
    aluLater h 3 4 d (fun q => resultW .u32 d fun u => sinF (rdF q .f32 a u)) s := rfl
theorem exec_fcos (h : Hdr) (d a : Opnd) (s : State) : exec (.fcos h d a) s =
    aluLater h 3 4 d (fun q => resultW .u32 d fun u => cosF (rdF q .f32 a u)) s := rfl
theorem exec_fscale (h : Hdr) (ft : FType) (rm : Rm) (d a b : Opnd) (s : State) : exec (.fscale h ft rm d a b) s =
    alu h 1 1 d (fun q => resultW .u32 d fun u => scaleF (fmtOf ft) rm (rdF q ft a u) (sextN 32 (rdInt q 32 b u))) s := rfl

theorem floatResultsRule : FloatResultsRule := by
  intro i h cls ty d f s id q p hi hwf hI
  cases i
  case fadd h' ft rm d' a b =>
    cases hi
    have hdone := results_done (wf_dst hwf rfl) (exec_fadd h ft rm d a b s) (fun _ _ _ => (scalarCode_addF ft rm _ _).lt) hI
    exact hdone
  case fsub h' ft rm d' a b =>
    cases hi
    have hdone := results_done (wf_dst hwf rfl) (exec_fsub h ft rm d a b s) (fun _ _ _ => (scalarCode_subF ft rm _ _).lt) hI
    exact hdone
  case fmul h' ft rm d' a b =>
    cases hi
    have hdone := results_done (wf_dst hwf rfl) (exec_fmul h ft rm d a b s) (fun _ _ _ => (scalarCode_mulF ft rm _ _).lt) hI
    exact hdone
  case ffma h' ft rm d' a b =>
    cases hi
    have hdone := results_done (wf_dst hwf rfl) (exec_ffma h ft rm d a b s) (fun _ _ _ => (scalarCode_fmaF ft rm _ _ _).lt) hI
    exact hdone
  case fmin h' ft d' a b =>
    cases hi
    have hdone := results_done (wf_dst hwf rfl) (exec_fmin h ft d a b s)
      (fun _ _ u => (scalarCode_minmaxF false (wf_rdF_a hwf rfl q u) (wf_rdF_b hwf rfl q u)).lt) hI
    exact hdone
  case fmax h' ft d' a b =>
    cases hi
    have hdone := results_done (wf_dst hwf rfl) (exec_fmax h ft d a b s)
      (fun _ _ u => (scalarCode_minmaxF true (wf_rdF_a hwf rfl q u) (wf_rdF_b hwf rfl q u)).lt) hI
    exact hdone
  case frnd h' ft rm d' a =>
    cases hi
    have hdone := results_done (wf_dst hwf rfl) (exec_frnd h ft rm d a s) (fun _ _ u => (scalarCode_rndF rm (wf_rdF_a hwf rfl q u)).lt) hI
    exact hdone
  case hfma2 h' ft rm d' a b =>
    cases hi
    have hft : ft ≠ .f32 := by simpa [modsWf] using (wf_slots hwf).1
    have hdone := results_done (wf_dst hwf rfl) (exec_hfma2 h ft rm d a b s)
      (fun _ _ _ => halves_lt hft (scalarCode_fmaF ft rm _ _ _) (scalarCode_fmaF ft rm _ _ _)) hI
    exact hdone
  case hadd2 h' ft rm d' a b =>
    cases hi
    have hft : ft ≠ .f32 := by simpa [modsWf] using (wf_slots hwf).1
    have hdone := results_done (wf_dst hwf rfl) (exec_hadd2 h ft rm d a b s)
      (fun _ _ _ => halves_lt hft (scalarCode_addF ft rm _ _) (scalarCode_addF ft rm _ _)) hI
    exact hdone
  case hmul2 h' ft rm d' a b =>
    cases hi
    have hft : ft ≠ .f32 := by simpa [modsWf] using (wf_slots hwf).1
    have hdone := results_done (wf_dst hwf rfl) (exec_hmul2 h ft rm d a b s)
      (fun _ _ _ => halves_lt hft (scalarCode_mulF ft rm _ _) (scalarCode_mulF ft rm _ _)) hI
    exact hdone
  case f2i h' ity ft rm d' a =>
    cases hi
    have hsmall (u : Nat) : ty = .u32 → (f2iVal ty ft rm (rdF q ft a u)).1 < 2 ^ 32 := by
      rintro rfl
      exact encodeI_lt 32 _ _ rm _
    have hdone := results_done (wf_dst hwf rfl) (exec_f2i h ty ft rm d a s) (fun _ hty u => hsmall u hty) hI
    exact hdone
  case i2f h' ft ity rm d' a =>
    cases hi
    have hdone := results_done (wf_dst hwf rfl) (exec_i2f h ft ity rm d a s) (fun _ _ _ => (scalarCode_i2fVal ft _ rm _).lt) hI
    exact hdone
  case fclass h' ft d' a =>
    cases hi
    have hdone := results_done (wf_dst hwf rfl) (exec_fclass h ft d a s) (fun _ _ _ => classF_lt _ _) hI
    exact hdone
  case fscale h' ft rm d' a b =>
    cases hi
    simp only [← sextN_eq_toInt 32 _ (by decide)]
    have hdone := results_done (wf_dst hwf rfl) (exec_fscale h ft rm d a b s) (fun _ _ _ => (scalarCode_scaleF ft rm _ _).lt) hI
    exact hdone
  case fcvt h' dst' src rm d' a =>
    simp only [floatRule] at hi
    split at hi
    · cases hi
    next hdx =>
      cases hi
      exact fcvt_done (wf_dst hwf rfl) (Bool.eq_false_iff.2 hdx) hI
  all_goals cases hi

theorem slowFloatResultsRule : SlowFloatResultsRule := by
  intro i h cls d f s id q p hi hwf hI
  cases i
  case fdiv h' d' a b =>
    cases hi
    have hdone := results_owed (wf_dst hwf rfl) (exec_fdiv h d a b s) (fun _ _ _ => divF_lt _ _ _) hI
    exact hdone
  case fsqrt h' d' a =>
    cases hi
    have hdone := results_owed (wf_dst hwf rfl) (exec_fsqrt h d a s) (fun _ _ u => sqrtF_lt (wf_rdF_a (ft' := .f32) hwf rfl q u)) hI
    exact hdone
  case frcp h' d' a =>
    cases hi
    have hdone := results_owed (wf_dst hwf rfl) (exec_frcp h d a s) (fun _ _ _ => rcpF_lt _) hI
    exact hdone
  case frsq h' d' a =>
    cases hi
    have hdone := results_owed (wf_dst hwf rfl) (exec_frsq h d a s) (fun _ _ _ => rsqF_lt _) hI
    exact hdone
  case fex2 h' d' a =>
    cases hi
    have hdone := results_owed (wf_dst hwf rfl) (exec_fex2 h d a s) (fun _ _ u => ex2F_lt (wf_rdF_a (ft' := .f32) hwf rfl q u)) hI
    exact hdone
  case flg2 h' d' a =>
    cases hi
    have hdone := results_owed (wf_dst hwf rfl) (exec_flg2 h d a s) (fun _ _ u => lg2F_lt (wf_rdF_a (ft' := .f32) hwf rfl q u)) hI
    exact hdone
  case fsin h' d' a =>
    cases hi
    have hdone := results_owed (wf_dst hwf rfl) (exec_fsin h d a s) (fun _ _ u => trigF_lt false (wf_rdF_a (ft' := .f32) hwf rfl q u)) hI
    exact hdone
  case fcos h' d' a =>
    cases hi
    have hdone := results_owed (wf_dst hwf rfl) (exec_fcos h d a s) (fun _ _ u => trigF_lt true (wf_rdF_a (ft' := .f32) hwf rfl q u)) hI
    exact hdone
  all_goals cases hi

/-- Settles O4: each form writes its codes and flags thread by thread, and every code fits the register it goes to. -/
theorem floatResults : Obligations.FloatResults := ⟨floatResultsRule, slowFloatResultsRule⟩

end Sys2Proof.Machine
end

section

namespace Sys2Proof.Machine

/-! ### The squad's tree (R68) -/

section
variable {α β : Type} (m : β → β → β)

/-- Present values combined from the left. -/
def gathered : List (Option β) → Option β
  | [] => none
  | v :: l => Option.merge m v (gathered l)

theorem merge_none (v : Option β) : Option.merge m v none = v := by cases v <;> rfl

theorem merge_assoc (hassoc : ∀ a b c, m (m a b) c = m a (m b c)) (u v w : Option β) :
    Option.merge m (Option.merge m u v) w = Option.merge m u (Option.merge m v w) := by
  cases u <;> cases v <;> cases w <;> simp [hassoc]

theorem merge_comm (hcomm : ∀ a b, m a b = m b a) (u v : Option β) : Option.merge m u v = Option.merge m v u := by
  cases u <;> cases v <;> simp [hcomm]

theorem gathered_append (hassoc : ∀ a b c, m (m a b) c = m a (m b c)) (l k : List (Option β)) :
    gathered m (l ++ k) = Option.merge m (gathered m l) (gathered m k) := by
  induction l with
  | nil => cases hk : gathered m k <;> simp [gathered, hk]
  | cons v l ih => rw [List.cons_append, gathered, gathered, ih, merge_assoc m hassoc]

/-- Two halves combined pair by pair give what both give together. -/
theorem gathered_zipWith (hassoc : ∀ a b c, m (m a b) c = m a (m b c)) (hcomm : ∀ a b, m a b = m b a) (l k : List (Option β))
    (h : l.length = k.length) : gathered m (List.zipWith (Option.merge m) l k) = Option.merge m (gathered m l) (gathered m k) := by
  induction l generalizing k with
  | nil =>
    rw [List.eq_nil_of_length_eq_zero h.symm]
    rfl
  | cons v l ih =>
    obtain ⟨w, k, rfl⟩ := List.exists_cons_of_length_eq_add_one h.symm
    rw [List.zipWith_cons_cons, gathered, ih k (by simpa using h), gathered, gathered, merge_assoc m hassoc, merge_assoc m hassoc,
      ← merge_assoc m hassoc w, merge_comm m hcomm w, merge_assoc m hassoc]

/-- Absent values do not count. -/
theorem gathered_active (hassoc : ∀ a b c, m (m a b) c = m a (m b c)) (act : Nat → Bool) (f : Nat → β) (ts : List Nat) :
    gathered m (ts.map fun t => if act t then some (f t) else none) =
      match ts.filter act with
      | [] => none
      | t :: ts => some ((ts.map f).foldl m (f t)) := by
  have hfold (l : List β) (x y : β) : m x (l.foldl m y) = l.foldl m (m x y) := by
    induction l generalizing y with
    | nil => rfl
    | cons z l ih => rw [List.foldl_cons, List.foldl_cons, ih, hassoc]
  induction ts with
  | nil => rfl
  | cons t ts ih =>
    rw [List.map_cons, gathered, ih]
    by_cases ht : act t = true
    · rw [if_pos ht, List.filter_cons_of_pos ht]
      cases hts : ts.filter act with
      | nil => rfl
      | cons u us =>
        simp only [Option.merge_some_some, List.map_cons, List.foldl_cons, hfold]
    · rw [if_neg ht, List.filter_cons_of_neg ht]
      cases hts : ts.filter act <;> rfl

end

section
variable {α β : Type}

/-- One level of the tree combines the halves pair by pair. -/
theorem treeLevel_fst (op : α → α → α × Nat) {n : Nat} {vals : List (Option α)} (h : vals.length = 2 * n) :
    (treeLevel op n vals).1 = List.zipWith (Option.merge fun a b => (op a b).1) (vals.take n) (vals.drop n) := by
  have hstep (ts : List Nat) (acc : List (Option α) × Nat) : (ts.foldl (fun acc t =>
      match (vals[t]?).getD none, (vals[t + n]?).getD none with
      | some a, some b => let r := op a b; (acc.1 ++ [some r.1], acc.2 ||| r.2)
      | some a, none => (acc.1 ++ [some a], acc.2)
      | none, b => (acc.1 ++ [b], acc.2)) acc).1 =
      acc.1 ++ ts.map fun t => Option.merge (fun a b => (op a b).1) ((vals[t]?).getD none) ((vals[t + n]?).getD none) := by
    induction ts generalizing acc with
    | nil => simp
    | cons t ts ih =>
      rw [List.foldl_cons, ih, List.map_cons]
      cases (vals[t]?).getD none <;> cases (vals[t + n]?).getD none <;> simp
  have hlevel := hstep (List.range n) ([], 0)
  rw [List.nil_append] at hlevel
  refine hlevel.trans (List.ext_getElem (by simp [h]; omega) fun t h1 h2 => ?_)
  have ht : t < n := by simpa using h1
  simp [List.getElem?_eq_getElem (show t < vals.length by omega), List.getElem?_eq_getElem (show n + t < vals.length by omega),
    Nat.add_comm t n]

/-- A value of the tree and what it stands for. -/
def Stands (P : α → Prop) (φ : α → β) (v : Option α) (w : Option β) : Prop := w = v.map φ ∧ ∀ a ∈ v, P a

theorem stands_merge {P : α → Prop} {φ : α → β} {op : α → α → α} {m : β → β → β}
    (hop : ∀ a b, P a → P b → P (op a b) ∧ φ (op a b) = m (φ a) (φ b)) {u v : Option α} {w x : Option β} (hu : Stands P φ u w)
    (hv : Stands P φ v x) : Stands P φ (Option.merge op u v) (Option.merge m w x) := by
  obtain ⟨rfl, hu⟩ := hu
  obtain ⟨rfl, hv⟩ := hv
  cases u with
  | none => cases v <;> exact ⟨rfl, hv⟩
  | some a =>
    cases v with
    | none => exact ⟨rfl, hu⟩
    | some b =>
      obtain ⟨hP, hφ⟩ := hop a b (hu a rfl) (hv b rfl)
      refine ⟨congrArg some hφ.symm, ?_⟩
      rintro c ⟨⟩
      exact hP

theorem stands_zipWith {P : α → Prop} {φ : α → β} {op : α → α → α} {m : β → β → β}
    (hop : ∀ a b, P a → P b → P (op a b) ∧ φ (op a b) = m (φ a) (φ b)) {l l' : List (Option α)} {k k' : List (Option β)}
    (h : List.Forall₂ (Stands P φ) l k) (h' : List.Forall₂ (Stands P φ) l' k') :
    List.Forall₂ (Stands P φ) (List.zipWith (Option.merge op) l l') (List.zipWith (Option.merge m) k k') := by
  induction h generalizing l' k' with
  | nil => exact List.Forall₂.nil
  | cons hv _ ih =>
    cases h' with
    | nil => exact List.Forall₂.nil
    | cons hv' h' => exact List.Forall₂.cons (stands_merge hop hv hv') (ih h')

/-- The first halves of a level and the second ones, combined, give what the level gives. -/
theorem gathered_level {m : β → β → β} (hassoc : ∀ a b c, m (m a b) c = m a (m b c)) (hcomm : ∀ a b, m a b = m b a) {n : Nat}
    {k : List (Option β)} (hk : k.length = 2 * n) :
    gathered m (List.zipWith (Option.merge m) (k.take n) (k.drop n)) = gathered m k := by
  rw [gathered_zipWith m hassoc hcomm _ _ (by simp; omega), ← gathered_append m hassoc, List.take_append_drop]

variable {P : α → Prop} {φ : α → β} {op : α → α → α × Nat} {m : β → β → β}

theorem treeLevel_stands (hassoc : ∀ a b c, m (m a b) c = m a (m b c)) (hcomm : ∀ a b, m a b = m b a)
    (hop : ∀ a b, P a → P b → P (op a b).1 ∧ φ (op a b).1 = m (φ a) (φ b)) {n : Nat} {l : List (Option α)} {x : Option β}
    (h : l.length = 2 * n ∧ ∃ k, List.Forall₂ (Stands P φ) l k ∧ gathered m k = x) :
    (treeLevel op n l).1.length = n ∧ ∃ k, List.Forall₂ (Stands P φ) (treeLevel op n l).1 k ∧ gathered m k = x := by
  obtain ⟨hl, k, hk, hx⟩ := h
  rw [treeLevel_fst op hl]
  refine ⟨by simp [hl]; omega, _, stands_zipWith (op := fun a b => (op a b).1) hop (List.forall₂_take n hk) (List.forall₂_drop n hk), ?_⟩
  rw [gathered_level hassoc hcomm (by rw [← hk.length_eq, hl]), hx]

/-- The tree combines the values of the active threads: what an operation stands for is what their combination in thread order
stands for, when that does not depend on the order. -/
theorem treeReduce_active (hassoc : ∀ a b c, m (m a b) c = m a (m b c)) (hcomm : ∀ a b, m a b = m b a)
    (hop : ∀ a b, P a → P b → P (op a b).1 ∧ φ (op a b).1 = m (φ a) (φ b)) {act : Mask} (f : Nat → α) (hf : ∀ t, P (f t))
    (hact : act ≠ 0) :
    ∃ t ts r k, threadsOf act = t :: ts ∧
      treeReduce op ((List.range 32).map fun t => if bitM act t then some (f t) else none) = some (r, k) ∧ P r ∧
        φ r = (ts.map fun t => φ (f t)).foldl m (φ (f t)) := by
  obtain ⟨u, hu⟩ := exists_lowest hact
  obtain ⟨t, ts, hts⟩ : ∃ t ts, threadsOf act = t :: ts := by
    refine List.exists_cons_of_ne_nil (List.ne_nil_of_mem (a := u) (mem_threadsOf.2 ⟨List.mem_range.1 (List.mem_of_find?_eq_some hu), ?_⟩))
    simpa using List.find?_some hu
  have hgath := gathered_active m hassoc (bitM act) (fun t => φ (f t)) (List.range 32)
  rw [show (List.range 32).filter (bitM act) = t :: ts from hts] at hgath
  have h32 : ((List.range 32).map fun t => if bitM act t then some (f t) else none).length = 2 * 16 ∧ ∃ k, List.Forall₂ (Stands P φ)
      ((List.range 32).map fun t => if bitM act t then some (f t) else none) k ∧
        gathered m k = some ((ts.map fun t => φ (f t)).foldl m (φ (f t))) := by
    refine ⟨by simp, _, ?_, hgath⟩
    rw [List.forall₂_map_left_iff, List.forall₂_map_right_iff, List.forall₂_same]
    intro t _
    unfold Stands
    split
    · exact ⟨rfl, by rintro a ⟨⟩; exact hf t⟩
    · exact ⟨rfl, by rintro a ⟨⟩⟩
  have h16 := treeLevel_stands (n := 16) hassoc hcomm hop h32
  have h8 := treeLevel_stands (n := 8) hassoc hcomm hop h16
  have h4 := treeLevel_stands (n := 4) hassoc hcomm hop h8
  have h2 := treeLevel_stands (n := 2) hassoc hcomm hop h4
  obtain ⟨hlen, k, hk, hx⟩ := treeLevel_stands (n := 1) hassoc hcomm hop h2
  obtain ⟨v, hv⟩ := List.length_eq_one_iff.1 hlen
  rw [hv] at hk
  obtain ⟨w, hw, rfl⟩ : ∃ w, Stands P φ v w ∧ k = [w] := by
    cases hk with
    | cons hw hnil => cases hnil; exact ⟨_, hw, rfl⟩
  obtain ⟨rfl, hP⟩ := hw
  rw [gathered, gathered, merge_none] at hx
  cases v with
  | none => cases hx
  | some r =>
    have hred : ∃ k, treeReduce op ((List.range 32).map fun t => if bitM act t then some (f t) else none) = some (r, k) := by
      simp only [treeReduce, hv]
      exact ⟨_, rfl⟩
    obtain ⟨k, hk⟩ := hred
    exact ⟨t, ts, r, k, hts, hk, hP r rfl, Option.some.inj hx⟩

end

end Sys2Proof.Machine
end

section

namespace Sys2Proof.Machine

/-! ### Values across the squad (R97, R98, R100, R121) -/

theorem stuck_zero (d : Opnd) (act : Mask) (old : BitVec 5) : stuck d act old (fun _ => 0) = old := by
  rw [stuck]
  induction execThreads d act with
  | nil => rfl
  | cons t ts ih => rw [List.foldl_cons, show old ||| BitVec.ofNat 5 0 = old from BitVec.or_zero, ih]

theorem resultW_noFlags (ty : IType) (d : Opnd) (f : Nat → Nat) (t : Nat) : resultW ty d (fun u => (f u, 0)) t = wrTy ty d t (f t) :=
  List.append_nil _

/-- The integer that the bits of a type stand for. -/
def codeVal (ty : IType) (x : Nat) : Int := if tySigned ty then (BitVec.ofNat (tyW ty) x).toInt else x

theorem val_eq_codeVal (ty : IType) (q : Squad) (o : Opnd) (u : Nat) : val ty q o u = codeVal ty (raw ty q o u) := rfl

theorem dvd_codeVal_sub (ty : IType) (x : Nat) : ((2 ^ tyW ty : Nat) : Int) ∣ codeVal ty x - x := by
  unfold codeVal
  split
  · rw [BitVec.toInt_ofNat']
    exact Int.dvd_bmod_sub_self
  · simp

theorem cmpInt_eq_compare (ty : IType) (x y : Nat) : cmpInt ty x y = compare (codeVal ty x) (codeVal ty y) := by
  unfold cmpInt codeVal
  split
  · rw [sextN_eq_toInt _ _ (tyW_pos ty), sextN_eq_toInt _ _ (tyW_pos ty)]
  · exact (compare_cast x y).symm

theorem codeVal_minInt (ty : IType) (x y : Nat) : codeVal ty (minInt ty x y) = min (codeVal ty x) (codeVal ty y) := by
  rw [minInt, cmpInt_eq_compare]
  rcases lt_or_ge (codeVal ty y) (codeVal ty x) with h | h
  · rw [if_pos (compare_lt_iff_lt.2 h), min_eq_right h.le]
  · rw [if_neg (fun hc => h.not_gt (compare_lt_iff_lt.1 hc)), min_eq_left h]

theorem codeVal_maxInt (ty : IType) (x y : Nat) : codeVal ty (maxInt ty x y) = max (codeVal ty x) (codeVal ty y) := by
  rw [maxInt, cmpInt_eq_compare]
  rcases lt_or_ge (codeVal ty x) (codeVal ty y) with h | h
  · rw [if_pos (compare_lt_iff_lt.2 h), max_eq_right h.le]
  · rw [if_neg (fun hc => h.not_gt (compare_lt_iff_lt.1 hc)), max_eq_left h]

/-- An s-register holds a value of a type modulo its width. -/
theorem wide_congr {ty : IType} {x y : Int} (h : ((2 ^ tyW ty : Nat) : Int) ∣ x - y) : wide ty x = wide ty y := by
  have hof (w : Nat) (hw : ((2 ^ w : Nat) : Int) ∣ x - y) : BitVec.ofInt w x = BitVec.ofInt w y := by
    apply BitVec.eq_of_toNat_eq
    rw [BitVec.toNat_ofInt, BitVec.toNat_ofInt, Int.emod_eq_emod_iff_emod_sub_eq_zero.2 (Int.emod_eq_zero_of_dvd hw)]
  cases ty with
  | u32 => simp only [wide, hof 32 h]
  | s32 => simp only [wide, hof 32 h]
  | u64 => exact hof 64 h
  | s64 => exact hof 64 h

theorem raw_v_lt (ty : IType) (q : Squad) (n u : Nat) : raw ty q (.v n false false) u < 2 ^ tyW ty := by
  have h0 := (rdV q n u).isLt
  have h1 := (rdV q (n + 1) u).isLt
  cases ty with
  | u32 => exact h0
  | s32 => exact h0
  | u64 => show (rdV q n u).toNat + 2 ^ 32 * (rdV q (n + 1) u).toNat < 2 ^ 64; omega
  | s64 => show (rdV q n u).toNat + 2 ^ 32 * (rdV q (n + 1) u).toNat < 2 ^ 64; omega

/-! ### The integer reductions (R98) -/

theorem foldl_add_eq_sum {M : Type} [AddCommMonoid M] (a : M) (l : List M) : l.foldl (· + ·) a = a + l.sum := by
  induction l generalizing a with
  | nil => simp
  | cons b l ih => rw [List.foldl_cons, ih, List.sum_cons, add_assoc]

theorem iredOp_lt (ty : IType) (op : IredOp) {x y : Nat} (hx : x < 2 ^ tyW ty) (hy : y < 2 ^ tyW ty) :
    iredOp ty op x y < 2 ^ tyW ty := by
  cases op with
  | add => exact Nat.mod_lt _ (Nat.two_pow_pos _)
  | min => simp only [iredOp, minInt]; split <;> assumption
  | max => simp only [iredOp, maxInt]; split <;> assumption
  | and => exact Nat.and_lt_two_pow x hy
  | or => exact Nat.or_lt_two_pow hx hy
  | xor => exact Nat.xor_lt_two_pow hx hy

/-- The tree's result of an integer reduction is what the reduction gives, modulo the type's width. -/
theorem ired_tree (ty : IType) (op : IredOp) {act : Mask} (f : Nat → Nat) (hf : ∀ t, f t < 2 ^ tyW ty) (hact : act ≠ 0) :
    ∃ r k, treeReduce (fun a b => (iredOp ty op a b, 0)) (treeVals act f) = some (r, k) ∧ r < 2 ^ tyW ty ∧
      wide ty r = wide ty (iredGives ty op ((threadsOf act).map f) ((threadsOf act).map fun t => codeVal ty (f t))) := by
  have hlt {x y : Nat} := iredOp_lt ty op (x := x) (y := y)
  cases op with
  | add =>
    obtain ⟨t, ts, r, k, hts, hr, hP, hφ⟩ := treeReduce_active (P := fun x : Nat => x < 2 ^ tyW ty)
      (φ := fun x : Nat => (x : ZMod (2 ^ tyW ty)))
      (op := fun a b => (iredOp ty .add a b, 0)) (m := (· + ·)) add_assoc add_comm
      (fun a b ha hb => ⟨hlt ha hb, by simp only [iredOp, ZMod.natCast_mod, Nat.cast_add]⟩) f hf hact
    refine ⟨r, k, hr, hP, wide_congr ?_⟩
    rw [← ZMod.intCast_eq_intCast_iff_dvd_sub, Int.cast_natCast, iredGives, hts, List.map_cons, List.sum_cons]
    have hcode (x : Nat) : ((codeVal ty x : Int) : ZMod (2 ^ tyW ty)) = x := by
      rw [← Int.cast_natCast (R := ZMod _) x, eq_comm, ZMod.intCast_eq_intCast_iff_dvd_sub]
      exact dvd_codeVal_sub ty x
    rw [hφ, foldl_add_eq_sum, Int.cast_add, hcode, Int.cast_list_sum, List.map_map]
    simp only [Function.comp_def, hcode]
  | min =>
    obtain ⟨t, ts, r, k, hts, hr, hP, hφ⟩ := treeReduce_active (P := fun x => x < 2 ^ tyW ty) (φ := codeVal ty)
      (op := fun a b => (iredOp ty .min a b, 0)) (m := min) min_assoc min_comm
      (fun a b ha hb => ⟨hlt ha hb, codeVal_minInt ty a b⟩) f hf hact
    refine ⟨r, k, hr, hP, ?_⟩
    rw [iredGives, hts, List.map_cons, List.min?_cons', Option.getD_some, ← hφ]
    exact (wide_congr (dvd_codeVal_sub ty r)).symm
  | max =>
    obtain ⟨t, ts, r, k, hts, hr, hP, hφ⟩ := treeReduce_active (P := fun x => x < 2 ^ tyW ty) (φ := codeVal ty)
      (op := fun a b => (iredOp ty .max a b, 0)) (m := max) max_assoc max_comm
      (fun a b ha hb => ⟨hlt ha hb, codeVal_maxInt ty a b⟩) f hf hact
    refine ⟨r, k, hr, hP, ?_⟩
    rw [iredGives, hts, List.map_cons, List.max?_cons', Option.getD_some, ← hφ]
    exact (wide_congr (dvd_codeVal_sub ty r)).symm
  | and =>
    obtain ⟨t, ts, r, k, hts, hr, hP, hφ⟩ := treeReduce_active (P := fun x => x < 2 ^ tyW ty) (φ := id)
      (op := fun a b => (iredOp ty .and a b, 0)) (m := (· &&& ·)) Nat.and_assoc Nat.and_comm (fun a b ha hb => ⟨hlt ha hb, rfl⟩) f hf hact
    refine ⟨r, k, hr, hP, ?_⟩
    rw [iredGives, hts, List.map_cons, List.foldl_cons, Nat.and_comm, Nat.and_two_pow_sub_one_of_lt_two_pow (hf t)]
    exact congrArg (fun x : Nat => wide ty x) hφ
  | or =>
    obtain ⟨t, ts, r, k, hts, hr, hP, hφ⟩ := treeReduce_active (P := fun x => x < 2 ^ tyW ty) (φ := id)
      (op := fun a b => (iredOp ty .or a b, 0)) (m := (· ||| ·)) Nat.or_assoc Nat.or_comm (fun a b ha hb => ⟨hlt ha hb, rfl⟩) f hf hact
    refine ⟨r, k, hr, hP, ?_⟩
    rw [iredGives, hts, List.map_cons, List.foldl_cons, Nat.zero_or]
    exact congrArg (fun x : Nat => wide ty x) hφ
  | xor =>
    obtain ⟨t, ts, r, k, hts, hr, hP, hφ⟩ := treeReduce_active (P := fun x => x < 2 ^ tyW ty) (φ := id)
      (op := fun a b => (iredOp ty .xor a b, 0)) (m := (· ^^^ ·)) Nat.xor_assoc Nat.xor_comm (fun a b ha hb => ⟨hlt ha hb, rfl⟩) f hf hact
    refine ⟨r, k, hr, hP, ?_⟩
    rw [iredGives, hts, List.map_cons, List.foldl_cons, Nat.zero_xor]
    exact congrArg (fun x : Nat => wide ty x) hφ

/-! ### Completion -/

theorem exec_shfl (h : Hdr) (ty : IType) (m : ShflMode) (vd va : Nat) (b : Opnd) (s : State) :
    exec (.shfl h ty m vd va b) s = execShfl h ty m vd va b s := rfl
theorem exec_ired (h : Hdr) (ty : IType) (op : IredOp) (sd va : Nat) (s : State) :
    exec (.ired h ty op sd va) s = execIred h ty op sd va s := rfl
theorem exec_fred (h : Hdr) (ft : FType) (op : FredOp) (sd : Nat) (a : Opnd) (s : State) :
    exec (.fred h ft op sd a) s = execFred h ft op sd a s := rfl
theorem exec_voteAny (h : Hdr) (pd pa : Nat) (s : State) : exec (.voteAny h pd pa) s = execVoteAny h pd pa s := rfl
theorem exec_voteAll (h : Hdr) (pd pa : Nat) (s : State) : exec (.voteAll h pd pa) s = execVoteAll h pd pa s := rfl
theorem exec_voteUni (h : Hdr) (pd pa : Nat) (s : State) : exec (.voteUni h pd pa) s = execVoteUni h pd pa s := rfl
theorem exec_voteBallot (h : Hdr) (sd pa : Nat) (s : State) : exec (.voteBallot h sd pa) s = execVoteBallot h sd pa s := rfl

section
variable {s : State} {id : Nat} {q : Squad} {p : Path} {h : Hdr}

theorem shflFrom_gives (ty : IType) (m : ShflMode) (act : Mask) (va b : Opnd) (q : Squad) (u : Nat) :
    rdInt q (tyW ty) va (shflFrom m act u (rdInt q (tyW ty) b u % 2 ^ 32)) = shflGives q ty m act va b u := by
  have hsrc : shflSrc m u (rdInt q (tyW ty) b u % 2 ^ 32) = shflFromThread m u (raw ty q b u % 2 ^ 32) := by cases m <;> rfl
  simp only [shflFrom, shflGives, hsrc]
  split <;> rfl

theorem shfl_owes (ty : IType) (m : ShflMode) (vd va : Nat) (b : Opnd) (hI : Issues s id q p h 2) :
    Owes (.shfl h ty m vd va b) s id q p h OnlySquads fun q' =>
      Gets ty (.v vd false false) (runs p h q) q q' (fun u => shflGives q ty m (runs p h q) (.v va false false) b u) ∧
        q'.p = q.p ∧ q'.b = q.b ∧ q'.flg = q.flg := by
  have hd : (∃ n a b, (Opnd.v vd false false) = .v n a b) ∨ ∃ n a b, (Opnd.v vd false false) = .s n a b := .inl ⟨_, _, _, rfl⟩
  refine owes_later (ws := (execThreads (.v vd false false) (runs p h q)).flatMap (resultW ty (.v vd false false) fun u =>
    (shflGives q ty m (runs p h q) (.v va false false) b u, 0))) hI (exec_shfl h ty m vd va b s) ?_ (results_eq_nil hd _ _) ?_
  · have hws : (resultW ty (.v vd false false) fun u => (shflGives q ty m (runs p h q) (.v va false false) b u, 0)) = fun u =>
        wrTy ty (.v vd false false) u (rdInt q (tyW ty) (.v va false false) (shflFrom m (runs p h q) u (rdInt q (tyW ty) b u % 2 ^ 32))) :=
      funext fun u => by rw [resultW_noFlags, shflFrom_gives]
    rw [hws]
    rfl
  · intro q' hregs
    obtain ⟨hgets, hp, hb, hflg⟩ := gets_results hd (by simp [isUniform, opKind]) hregs
    rw [stuck_zero] at hflg
    exact ⟨hgets, hp, hb, hflg⟩

/-- A write of an s-register, with flags. -/
theorem applyWs_s_flags (n : Nat) (x : W64) (k : Nat) (q : Squad) :
    applyWs (.s n x :: flagW k) q = { q with s := tset 0 q.s n x, flg := q.flg ||| BitVec.ofNat 5 k } := by
  rw [applyWs_cons, applyWs_flagW]
  rfl

theorem getsS_of_write {n : Nat} {x : W64} {k : Nat} {q' : Squad} (hregs : SameRegs (applyWs (.s n x :: flagW k) q) q') :
    GetsS n q q' x ∧ q'.flg = q.flg ||| BitVec.ofNat 5 k ∧ q'.v = q.v ∧ q'.p = q.p ∧ q'.b = q.b ∧ q'.vi = q.vi ∧ q'.im = q.im := by
  rw [applyWs_s_flags] at hregs
  obtain ⟨hv, hs, hp, hb, hvi, him, hflg⟩ := hregs
  refine ⟨fun r => ?_, hflg, hv, hp, hb, hvi, him⟩
  rw [rdS, hs, tget_tset]
  simp only [eq_comm (a := n), rdS]

theorem ired_owes (ty : IType) (op : IredOp) (sd va : Nat) (hI : Issues s id q p h 2) :
    Owes (.ired h ty op sd va) s id q p h OnlySquads fun q' =>
      (if runs p h q = 0 then q'.s = q.s else GetsS sd q q' (wide ty (iredGives ty op
        ((threadsOf (runs p h q)).map (raw ty q (.v va false false))) ((threadsOf (runs p h q)).map (val ty q (.v va false false)))))) ∧
      q'.v = q.v ∧ q'.p = q.p ∧ q'.b = q.b ∧ q'.vi = q.vi ∧ q'.im = q.im ∧ q'.flg = q.flg := by
  by_cases hact : runs p h q = 0
  · refine owes_later (ws := []) hI (exec_ired h ty op sd va s) ?_ (iff_of_true rfl hact) ?_
    · have hact' : (seen id q p h).act = 0 := hact
      rw [hact', treeVals, lanes_zero, treeReduce_none]
      rfl
    · rintro q' ⟨hv, hs, hp, hb, hvi, him, hflg⟩
      rw [if_pos hact]
      exact ⟨hs, hv, hp, hb, hvi, him, hflg⟩
  · obtain ⟨r, k, hr, hlt, hwide⟩ := ired_tree ty op (raw ty q (.v va false false)) (raw_v_lt ty q va) hact
    refine owes_later (ws := .s sd (wide ty r) :: flagW 0) hI (exec_ired h ty op sd va s) ?_ (iff_of_false (by simp) hact) ?_
    · have hr' : treeReduce (fun a b => (iredOp ty op a b, 0))
          (treeVals (seen id q p h).act (rdInt (seen id q p h).q (tyW ty) (.v va false false))) = some (r, k) := hr
      rw [hr', ← wide_code fun hty => by subst hty; exact hlt]
      rfl
    · intro q' hregs
      obtain ⟨hs, hflg, hv, hp, hb, hvi, him⟩ := getsS_of_write hregs
      rw [if_neg hact]
      rw [hwide] at hs
      exact ⟨hs, hv, hp, hb, hvi, him, by rw [hflg, show q.flg ||| BitVec.ofNat 5 0 = q.flg from BitVec.or_zero]⟩

theorem isNan_iff (v : FV) : isNan v = true ↔ v = .nan := by cases v <;> simp [isNan]

theorem fred_owes (ft : FType) (op : FredOp) (sd : Nat) (a : Opnd) (hI : Issues s id q p h 2) :
    Owes (.fred h ft op sd a) s id q p h OnlySquads fun q' =>
      (match treeReduce (fredOp ft op) ((List.range 32).map fun u => if bitM (runs p h q) u then some (rdF q ft a u) else none) with
       | none => q'.s = q.s ∧ q'.flg = q.flg
       | some r => GetsS sd q q' (BitVec.ofNat 64 (if decodeIeee (fmtOf ft) r.1 = .nan then (fmtOf ft).nanCode else r.1)) ∧
           q'.flg = q.flg ||| BitVec.ofNat 5 r.2) ∧
      q'.v = q.v ∧ q'.p = q.p ∧ q'.b = q.b ∧ q'.vi = q.vi ∧ q'.im = q.im := by
  have hsame : treeReduce (fredOp ft op) ((List.range 32).map fun u => if bitM (runs p h q) u then some (rdF q ft a u) else none) =
    treeReduce (fredOp ft op)
      ((List.range 32).map fun u => if bitM (seen id q p h).act u then some (rdF (seen id q p h).q ft a u) else none) := rfl
  by_cases hact : runs p h q = 0
  · have hnone : treeReduce (fredOp ft op)
        ((List.range 32).map fun u => if bitM (runs p h q) u then some (rdF q ft a u) else none) = none := by
      rw [hact, lanes_zero, treeReduce_none]
    refine owes_later (ws := []) hI (exec_fred h ft op sd a s) ?_ (iff_of_true rfl hact) ?_
    · rw [← hsame, hnone]
      rfl
    · rintro q' ⟨hv, hs, hp, hb, hvi, him, hflg⟩
      rw [hnone]
      exact ⟨⟨hs, hflg⟩, hv, hp, hb, hvi, him⟩
  · obtain ⟨-, -, r, k, -, hr, -⟩ := treeReduce_active (P := fun _ => True) (φ := fun _ => ()) (op := fredOp ft op) (m := fun _ _ => ())
      (fun _ _ _ => rfl) (fun _ _ => rfl) (fun _ _ _ _ => ⟨trivial, rfl⟩) (rdF q ft a) (fun _ => trivial) hact
    refine owes_later (ws := .s sd (BitVec.ofNat 64 (canonNan (fmtOf ft) r)) :: flagW k) hI (exec_fred h ft op sd a s) ?_
      (iff_of_false (by simp) hact) ?_
    · rw [← hsame, hr]
    · intro q' hregs
      obtain ⟨hs, hflg, hv, hp, hb, hvi, him⟩ := getsS_of_write hregs
      rw [hr]
      simp only [canonNan, isNan_iff] at hs
      exact ⟨⟨hs, hflg⟩, hv, hp, hb, hvi, him⟩

theorem threadsOf_eq_nil {act : Mask} : threadsOf act = [] ↔ act = 0 := execThreads_eq_nil (d := .v 0 false false)

theorem vote_owes {i : Instr} {pd pa : Nat} {f : List Bool → Bool} (hI : Issues s id q p h 1)
    (hexec : exec i s = voteForm h pd pa f s) :
    Owes i s id q p h OnlySquads fun q' =>
      GetsP pd (runs p h q) q q' (fun _ => f ((threadsOf (runs p h q)).map (rdP q pa))) ∧
      q'.v = q.v ∧ q'.s = q.s ∧ q'.b = q.b ∧ q'.vi = q.vi ∧ q'.im = q.im ∧ q'.flg = q.flg := by
  refine owes_later (ws := (threadsOf (runs p h q)).map fun t => .p pd t (f ((threadsOf (runs p h q)).map (rdP q pa)))) hI hexec rfl
    (by rw [List.map_eq_nil_iff, threadsOf_eq_nil]) fun q' hregs => ?_
  obtain ⟨hv, hs, -, hb, hvi, him, hflg⟩ := applyWs_keeps (k := 2)
    ((threadsOf (runs p h q)).map fun t => .p pd t (f ((threadsOf (runs p h q)).map (rdP q pa)))) q (by simp [regKey])
  have hgets := getsP_of_writes hregs
  obtain ⟨gv, gs, -, gb, gvi, gim, gflg⟩ := hregs
  exact ⟨hgets, gv.trans (hv (by decide)), gs.trans (hs (by decide)), gb.trans (hb (by decide)),
    gvi.trans (hvi (by decide)), gim.trans (him (by decide)), gflg.trans (hflg (by decide))⟩

theorem voteBallot_owes (sd pa : Nat) (hI : Issues s id q p h 1) :
    Owes (.voteBallot h sd pa) s id q p h OnlySquads fun q' =>
      (if runs p h q = 0 then q'.s = q.s else ∃ x, maskWord (fun u => bitM (runs p h q) u && rdP q pa u) x ∧ GetsS sd q q' x) ∧
      q'.v = q.v ∧ q'.p = q.p ∧ q'.b = q.b ∧ q'.vi = q.vi ∧ q'.im = q.im ∧ q'.flg = q.flg := by
  by_cases hact : runs p h q = 0
  · refine owes_later (ws := []) hI (exec_voteBallot h sd pa s) (if_pos hact) (iff_of_true rfl hact) ?_
    rintro q' ⟨hv, hs, hp, hb, hvi, him, hflg⟩
    rw [if_pos hact]
    exact ⟨hs, hv, hp, hb, hvi, him, hflg⟩
  · refine owes_later (ws := .s sd (BitVec.ofNat 64 (maskOf fun u => bitM (runs p h q) u && rdP q pa u).toNat) :: flagW 0) hI
      (exec_voteBallot h sd pa s) (if_neg hact) (iff_of_false (by simp) hact) fun q' hregs => ?_
    obtain ⟨hs, hflg, hv, hp, hb, hvi, him⟩ := getsS_of_write hregs
    rw [if_neg hact]
    exact ⟨⟨_, maskWord_maskOf _, hs⟩, hv, hp, hb, hvi, him, by rw [hflg, show q.flg ||| BitVec.ofNat 5 0 = q.flg from BitVec.or_zero]⟩

end

/-- Settles O6: the tree combines the active threads whatever its order where the operation is associative and commutative, and each
meaning leaves one write per result. -/
theorem crossThreadResults : Obligations.CrossThreadResults := by
  intro h s id q p act
  refine ⟨fun ty m vd va b _ hI => shfl_owes ty m vd va b hI, fun ty op sd va _ hI => ired_owes ty op sd va hI,
    fun ft op sd a _ hI => fred_owes ft op sd a hI, ?_, fun sd pa _ hI => voteBallot_owes sd pa hI⟩
  intro i pd pa f hi _ hI
  have hvote {g : List Bool → Bool} (hexec : exec i s = voteForm h pd pa g s) (hg : ∀ l, g l = true ↔ f l) :
      Owes i s id q p h OnlySquads fun q' =>
        (∃ r : Bool, (r = true ↔ f ((threadsOf act).map (rdP q pa))) ∧ GetsP pd act q q' fun _ => r) ∧
        q'.v = q.v ∧ q'.s = q.s ∧ q'.b = q.b ∧ q'.vi = q.vi ∧ q'.im = q.im ∧ q'.flg = q.flg := by
    obtain ⟨t, q', ht, hwent, honly, hsame, hregs, hlen, hgets, hrest⟩ := vote_owes hI hexec
    exact ⟨t, q', ht, hwent, honly, hsame, hregs, hlen, ⟨_, hg _, hgets⟩, hrest⟩
  cases i
  case voteAny h' pd' pa' =>
    cases hi
    exact hvote (exec_voteAny h pd pa s) fun l => by simp
  case voteAll h' pd' pa' =>
    cases hi
    refine hvote (exec_voteAll h pd pa s) fun l => ?_
    rw [List.all_eq_true]
    exact ⟨fun hall hmem => Bool.false_ne_true (hall _ hmem), fun hno b hb => by cases b <;> simp_all⟩
  case voteUni h' pd' pa' =>
    cases hi
    refine hvote (exec_voteUni h pd pa s) fun l => ?_
    rw [Bool.or_eq_true, List.all_eq_true, List.all_eq_true]
    refine or_congr ⟨fun hall hmem => Bool.false_ne_true (hall _ hmem), fun hno b hb => ?_⟩
      ⟨fun hall hmem => Bool.false_ne_true (hall _ hmem), fun hno b hb => ?_⟩
    · cases b <;> simp_all
    · cases b <;> simp_all
  all_goals cases hi

end Sys2Proof.Machine
end

section

namespace Sys2Proof.Machine

/-! ### Words and the elements they hold -/

/-- A run of bits within a word is that of the word alone. -/
theorem bits_of_word (x : Nat) {o w : Nat} (h : o + w ≤ 32) : x % 2 ^ 32 / 2 ^ o % 2 ^ w = x / 2 ^ o % 2 ^ w := by
  refine Nat.eq_of_testBit_eq fun i => ?_
  simp only [Nat.testBit_mod_two_pow, Nat.testBit_div_two_pow]
  by_cases hi : i < w
  · rw [decide_eq_true (show i + o < 32 by omega), Bool.true_and]
  · simp [hi]

/-- Words laid from bit 0 up. -/
def laidWords (f : Nat → Nat) (n : Nat) : Nat := (List.range n).foldl (fun r t => r + f t * 2 ^ (32 * t)) 0

theorem laidWords_succ (f : Nat → Nat) (n : Nat) : laidWords f (n + 1) = laidWords f n + f n * 2 ^ (32 * n) := by
  rw [laidWords, List.range_succ, List.foldl_append]
  rfl

section
variable {f : Nat → Nat} (hf : ∀ t, f t < 2 ^ 32)
include hf

theorem laidWords_lt (n : Nat) : laidWords f n < 2 ^ (32 * n) := by
  induction n with
  | zero => exact Nat.one_pos
  | succ n ih =>
    have hmul : f n * 2 ^ (32 * n) ≤ (2 ^ 32 - 1) * 2 ^ (32 * n) := Nat.mul_le_mul_right _ (Nat.le_sub_one_of_lt (hf n))
    rw [laidWords_succ, Nat.mul_succ, pow_add]
    omega

/-- A word is found at its place. -/
theorem laidWords_get {n k : Nat} (hk : k < n) : laidWords f n / 2 ^ (32 * k) % 2 ^ 32 = f k := by
  induction n with
  | zero => omega
  | succ n ih =>
    rw [laidWords_succ]
    rcases Nat.lt_succ_iff_lt_or_eq.1 hk with h | rfl
    · have hpow : f n * 2 ^ (32 * n) = 2 ^ (32 * k) * (2 ^ 32 * (2 ^ (32 * (n - k - 1)) * f n)) := by
        rw [← mul_assoc, ← mul_assoc, ← pow_add, ← pow_add, mul_comm]
        congr 2
        omega
      rw [hpow, Nat.add_mul_div_left _ _ (Nat.two_pow_pos _), Nat.add_mul_mod_self_left, ih h]
    · rw [Nat.add_mul_div_right _ _ (Nat.two_pow_pos _), Nat.div_eq_of_lt (laidWords_lt hf k), zero_add, Nat.mod_eq_of_lt (hf k)]

end

section
variable {w : Nat} {es : List Nat}

theorem packBits_cons (w e : Nat) (es : List Nat) : packBits w (e :: es) = e + 2 ^ w * packBits w es := rfl

theorem packBits_drop (hes : ∀ e ∈ es, e < 2 ^ w) (i : Nat) : packBits w es / 2 ^ (w * i) = packBits w (es.drop i) := by
  induction i generalizing es with
  | zero => simp
  | succ i ih =>
    cases es with
    | nil => simp [packBits]
    | cons e es =>
      have he := hes e List.mem_cons_self
      rw [packBits_cons, Nat.mul_succ, pow_add, mul_comm (2 ^ (w * i)), ← Nat.div_div_eq_div_mul,
        Nat.add_mul_div_left _ _ (Nat.two_pow_pos w), Nat.div_eq_of_lt he, zero_add,
        ih fun a ha => hes a (List.mem_cons_of_mem e ha), List.drop_succ_cons]

theorem packBits_take (hes : ∀ e ∈ es, e < 2 ^ w) (m : Nat) : packBits w es % 2 ^ (w * m) = packBits w (es.take m) := by
  induction m generalizing es with
  | zero => simp [packBits, Nat.mod_one]
  | succ m ih =>
    cases es with
    | nil => simp [packBits]
    | cons e es =>
      have he := hes e List.mem_cons_self
      rw [List.take_succ_cons, packBits_cons, packBits_cons, ← ih fun a ha => hes a (List.mem_cons_of_mem e ha), Nat.mul_succ, pow_add,
        mul_comm (2 ^ (w * m)), Nat.mod_mul, Nat.add_mul_mod_self_left, Nat.mod_eq_of_lt he,
        Nat.add_mul_div_left _ _ (Nat.two_pow_pos w), Nat.div_eq_of_lt he, zero_add]

/-- A word of the packed image holds its elements. -/
theorem packBits_word (hes : ∀ e ∈ es, e < 2 ^ w) {m : Nat} (hm : w * m = 32) (t : Nat) :
    packBits w es / 2 ^ (32 * t) % 2 ^ 32 = packBits w ((es.drop (m * t)).take m) := by
  rw [← hm, mul_assoc, packBits_drop hes, packBits_take fun a ha => hes a (List.mem_of_mem_drop ha)]

end

/-! ### Elements of a block fit their width -/

/-- Whether a magnitude takes the small units of its block, and the unit that it is rounded to. -/
def dxPick (g s m : Nat) (e : Int) : Bool := dyLt m e 1 ((s : Int) - 127 - g)
def dxUnit (w g s m : Nat) (e : Int) : Int := (s : Int) - 127 - (w - 2 : Nat) - (if dxPick g s m e then (g : Int) else 0)
/-- The bits of an element above its magnitude. -/
def dxHead (w g s : Nat) (n : Bool) (m : Nat) (e : Int) : Nat :=
  (bif dxPick g s m e then 2 ^ (w - 1) else 0) + (bif n then 2 ^ (w - 2) else 0)

theorem dxElem_fin {m : Nat} (hm : m ≠ 0) (w g : Nat) (rm : Rm) (s : Nat) (n : Bool) (e : Int) :
    dxElem w g rm s (.fin n m e) =
      if 2 ^ (w - 2) - 1 < (quant rm n m e false (dxUnit w g s m e)).1 then (dxHead w g s n m e + (2 ^ (w - 2) - 1), 16 + 8)
      else if (quant rm n m e false (dxUnit w g s m e)).1 = 0 then (0, 4 + 8)
      else (dxHead w g s n m e + (quant rm n m e false (dxUnit w g s m e)).1,
        flagIf (quant rm n m e false (dxUnit w g s m e)).2 8) := if_neg hm

theorem dxElem_lt {w : Nat} (hw : 2 ≤ w) (g : Nat) (rm : Rm) (s : Nat) (x : FV) : (dxElem w g rm s x).1 < 2 ^ w := by
  have h1 : 2 ^ (w - 1) = 2 * 2 ^ (w - 2) := by rw [← pow_succ']; congr 1; omega
  have h2 : 2 ^ w = 4 * 2 ^ (w - 2) := by rw [show (4 : Nat) = 2 ^ 2 from rfl, ← pow_add]; congr 1; omega
  have hpos := Nat.two_pow_pos (w - 2)
  cases x with
  | nan => show 0 < _; omega
  | inf n =>
    show (bif n then 2 ^ (w - 2) + (2 ^ (w - 2) - 1) else 2 ^ (w - 2) - 1) < _
    cases n <;> simp only [cond_true, cond_false] <;> omega
  | fin n m e =>
    by_cases hm : m = 0
    · subst hm
      show 0 < _
      omega
    · have hhead : dxHead w g s n m e ≤ 3 * 2 ^ (w - 2) := by
        unfold dxHead
        cases dxPick g s m e <;> cases n <;> simp only [cond_true, cond_false] <;> omega
      rw [dxElem_fin hm]
      split
      · show dxHead w g s n m e + (2 ^ (w - 2) - 1) < _
        omega
      · split
        · show 0 < _
          omega
        · show dxHead w g s n m e + _ < _
          omega

/-- The shared exponent, and the elements of a block. -/
theorem dxBlock_bounds {w : Nat} (hw : 2 ≤ w) (g : Nat) (rm : Rm) (xs : List FV) :
    (dxBlock w g rm xs).1 ≤ 255 ∧ ∀ e ∈ (dxBlock w g rm xs).2.1, e < 2 ^ w := by
  have hscale : dxScale xs ≤ 255 := by
    unfold dxScale
    split
    · decide
    · decide
    · split
      · decide
      · omega
  have hzero : ∀ e ∈ xs.map fun _ => 0, e < 2 ^ w := by
    intro e he
    obtain ⟨-, -, rfl⟩ := List.mem_map.1 he
    exact Nat.two_pow_pos w
  simp only [dxBlock]
  split
  · exact ⟨le_rfl, hzero⟩
  · split
    · exact ⟨Nat.zero_le _, hzero⟩
    · refine ⟨hscale, fun e he => ?_⟩
      obtain ⟨y, hy, rfl⟩ := List.mem_map.1 he
      obtain ⟨x, -, rfl⟩ := List.mem_map.1 hy
      exact dxElem_lt hw g rm _ x

/-! ### Completion of a block instruction (R106) -/

section
variable {s : State} {id : Nat} {q : Squad} {p : Path} {h : Hdr} {cls : Nat} {occ : Occ} {body : Iss → State → Res} {ws : List RegW}

/-- A meaning that counts its extra cycles and puts the results in place completes as one without. -/
theorem block_done (hI : Issues s id q p h cls) (hb : body (seen id q p h) (issued s id q p h cls occ) =
      .ok (putFixed (blockCycles (issued s id q p h cls occ) (seen id q p h)) (seen id q p h) ws)) :
    ∃ t q', issue h cls occ s body = .next t ∧ Went s t id q q' p h ∧ OnlySquads s t ∧ SameSquad q q' ∧ q'.pend = [] ∧
      SameRegs (applyWs ws q) q' := by
  obtain ⟨q1, h1, ho, ht, he⟩ := issued_squad s id q p h cls occ hI
  obtain ⟨v, s', p', b, vi, im, flg, hA⟩ := applyWs_regs ws q
  obtain ⟨pf, hpf⟩ : ∃ pf, tset 0 q1.perf 1 (tget 0 q1.perf 1 + 16) = pf := ⟨_, rfl⟩
  have hcount : ({ q1 with perf := pf } : Squad) =
      { q with granted := q1.granted, taken := q1.taken, perf := pf, ebudDeb := q1.ebudDeb } := by rw [he]
  have hp2 : ({ q1 with perf := pf } : Squad).pend = [] := by rw [hcount]; exact hI.settled
  have hq2 : writeFixed ws { q1 with perf := pf } =
      { q with v := v, s := s', p := p', b := b, vi := vi, im := im, flg := flg, granted := q1.granted, taken := q1.taken,
               perf := pf, ebudDeb := q1.ebudDeb } := by
    rw [writeFixed_settled _ _ hp2, hcount, applyWs_counted, hA]
  obtain ⟨u, q', hu, hw, hue, hqe⟩ := issue_ok s
    (putFixed (blockCycles (issued s id q p h cls occ) (seen id q p h)) (seen id q p h) ws) id q
    (writeFixed ws { q1 with perf := pf }) p h cls occ body hI hb
    (by simp only [putFixed, blockCycles, seen, squadOf_modSquad_same, h1, Option.map_some, hpf])
    (by intro j hj; simp only [putFixed, blockCycles, seen]; rw [squadOf_modSquad_ne _ _ hj, squadOf_modSquad_ne _ _ hj, ho j hj])
    (by rw [hq2]) (by rw [hq2]; exact hI.whole) (by rw [hq2])
  refine ⟨u, q', hu, hw, ?_, ?_, ?_, ?_⟩
  · have e1 : putFixed (blockCycles (issued s id q p h cls occ) (seen id q p h)) (seen id q p h) ws =
        { issued s id q p h cls occ with
          squads := (putFixed (blockCycles (issued s id q p h cls occ) (seen id q p h)) (seen id q p h) ws).squads } := rfl
    unfold OnlySquads
    rw [hue, e1, ht]
  · unfold SameSquad; rw [hqe, hq2]
  · rw [hqe, hq2]; exact hI.settled
  · rw [hqe, hq2, hA]; exact ⟨rfl, rfl, rfl, rfl, rfl, rfl, rfl⟩

end

end Sys2Proof.Machine
end

section

namespace Sys2Proof.Machine

/-! ### Block packing and unpacking (R118-R120) -/

theorem exec_dxpk (h : Hdr) (w : DxWidth) (g : Nat) (rm : Rm) (vd va sb : Nat) (s : State) :
    exec (.dxpk h w g rm vd va sb) s = execDxpk h w g rm vd va sb s := rfl

theorem dxBits_bounds (w : DxWidth) : 2 ≤ dxBits w ∧ dxBits w ≤ 16 ∧ dxBits w * (32 / dxBits w) = 32 ∧ dxBits w * (512 / dxBits w) = 512 := by
  cases w <;> decide

/-- The packed image's word of a thread, and zero beyond the image. -/
theorem pack_word {w : Nat} {es : List Nat} (hes : ∀ e ∈ es, e < 2 ^ w) {m : Nat} (hm : w * m = 32) (u : Nat) :
    BitVec.ofNat 32 (if u < 16 then packBits w es / 2 ^ (32 * u) else 0) =
      BitVec.ofInt 32 ((if u < 16 then packBits w ((es.drop (m * u)).take m) else 0 : Nat) : Int) := by
  rw [BitVec.ofInt_natCast]
  split
  · apply BitVec.eq_of_toNat_eq
    rw [BitVec.toNat_ofNat, BitVec.toNat_ofNat, ← packBits_word hes hm, Nat.mod_mod]
  · rfl

section
variable {s : State} {id : Nat} {q : Squad} {p : Path} {h : Hdr}

/-- Writes of v-registers, then one of an s-register and the flags. -/
theorem regs_of_v_s_flags {vs : List RegW} {n : Nat} {x : W64} {k : Nat} {q' : Squad} (hvs : ∀ w ∈ vs, (regKey w).1 = 0)
    (hregs : SameRegs (applyWs (vs ++ .s n x :: flagW k) q) q') :
    (∀ r u, rdV q' r u = rdV (applyWs vs q) r u) ∧ GetsS n q q' x ∧ q'.p = q.p ∧ q'.b = q.b ∧ q'.vi = q.vi ∧ q'.im = q.im ∧
      q'.flg = q.flg ||| BitVec.ofNat 5 k := by
  obtain ⟨-, gs, gp, gb, gvi, gim, gflg⟩ := applyWs_keeps (k := 0) vs q hvs
  rw [applyWs_append, applyWs_s_flags] at hregs
  obtain ⟨hv, hs, hp, hb, hvi, him, hflg⟩ := hregs
  refine ⟨fun r u => by rw [rdV, hv, rdV], fun r => ?_, hp.trans (gp (by decide)), hb.trans (gb (by decide)),
    hvi.trans (gvi (by decide)), him.trans (gim (by decide)), by rw [hflg, gflg (by decide)]⟩
  rw [rdS, hs, tget_tset, gs (by decide)]
  simp only [eq_comm (a := n), rdS]

theorem dxpk_writes (w : DxWidth) (g : Nat) (rm : Rm) (vd va sb : Nat) (hI : Issues s id q p h 2) (hact : runs p h q ≠ 0) :
    let b := dxBlock (dxBits w) g rm (packElems q w va (runs p h q))
    Writes (.dxpk h w g rm vd va sb) s id q p h fun q' =>
      GetsV vd 1 (runs p h q) q q' (fun u => if u < 16 then
        (packBits (dxBits w) ((b.2.1.drop (32 / dxBits w * u)).take (32 / dxBits w)) : Nat) else 0) ∧
      GetsS sb q q' (BitVec.ofNat 64 (dxCode w g + 256 * b.1)) ∧
      q'.p = q.p ∧ q'.b = q.b ∧ q'.vi = q.vi ∧ q'.im = q.im ∧ q'.flg = q.flg ||| BitVec.ofNat 5 b.2.2 := by
  intro b
  obtain ⟨hw2, -, hw32, -⟩ := dxBits_bounds w
  have hes : ∀ e ∈ b.2.1, e < 2 ^ dxBits w := (dxBlock_bounds hw2 g rm _).2
  obtain ⟨t, q', ht, hwent, honly, hsame, hpend, hregs⟩ := block_done (occ := .per 1)
    (body := fun x s =>
      if x.act = 0 then .ok s
      else
        let b := dxpkBlock w g rm va x.act x.q
        let img := packBits (dxBits w) b.2.1
        .ok (putFixed (blockCycles s x) x
          ((threadsOf x.act).map (fun t => .v vd t (BitVec.ofNat 32 (if t < 16 then img / 2 ^ (32 * t) else 0))) ++
            [.s sb (BitVec.ofNat 64 (dxCode w g + 256 * b.1))] ++ flagW b.2.2)))
    (ws := (threadsOf (runs p h q)).map (fun t =>
      .v vd t (BitVec.ofNat 32 (if t < 16 then packBits (dxBits w) b.2.1 / 2 ^ (32 * t) else 0))) ++
        .s sb (BitVec.ofNat 64 (dxCode w g + 256 * b.1)) :: flagW b.2.2) hI
    (by
      have hact' : (seen id q p h).act ≠ 0 := hact
      simp only [if_neg hact', List.append_assoc, List.singleton_append]
      rfl)
  refine ⟨t, q', (exec_dxpk h w g rm vd va sb s).trans ht, hwent, honly, hsame, hpend, ?_⟩
  obtain ⟨hv, hrest⟩ := regs_of_v_s_flags (by simp [regKey]) hregs
  refine ⟨fun r u hu => ?_, hrest⟩
  rw [hv, rdV_applyWs_v q vd r (threadsOf (runs p h q)) _ (fun t ht => (mem_threadsOf.1 ht).1) hu, pack_word hes hw32]
  have hkey : (u ∈ threadsOf (runs p h q) ∧ r = vd) ↔ (bitM (runs p h q) u = true ∧ vd ≤ r ∧ r < vd + 1) := by
    simp only [mem_threadsOf, hu, true_and]
    exact and_congr_right fun _ => by omega
  simp only [hkey]
  refine ite_congr rfl (fun hc => ?_) fun _ => rfl
  rw [show r - vd = 0 by omega]
  simp

/-! ### Unpacking -/

/-- Writes of one thread to registers from `vd` on, one for each `j` that passes a check. -/
theorem rdV_applyWs_run (vd t : Nat) (c : Nat → Bool) (x : Nat → W32) (ht : t < 32) (js : List Nat) (q : Squad) (r : Nat) {u : Nat}
    (hu : u < 32) : rdV (applyWs (js.filterMap fun j => if c j then some (.v (vd + j) t (x j)) else none) q) r u =
      if u = t ∧ vd ≤ r ∧ r - vd ∈ js ∧ c (r - vd) = true then x (r - vd) else rdV q r u := by
  induction js generalizing q with
  | nil => simp [applyWs_nil]
  | cons j js ih =>
    by_cases hc : c j = true
    · simp only [List.filterMap_cons, hc, if_true]
      rw [applyWs_cons, ih, rdV_applyW_v _ _ _ _ _ ht hu]
      by_cases hr : vd ≤ r
      · by_cases hj : r - vd = j
        · have hreg : r = vd + j := by omega
          by_cases hut : u = t
          · simp [hut, hc, hreg]
          · simp [hut]
        · have hreg : r ≠ vd + j := by omega
          simp [hreg, hj]
      · have hreg : r ≠ vd + j := by omega
        simp [hreg, hr]
    · simp only [List.filterMap_cons, if_neg hc]
      rw [ih]
      by_cases hj : r - vd = j
      · simp [hj, hc]
      · simp [hj]

theorem dxunpkErr_none {w : DxWidth} {code : Nat} (hdx : isDx code = true) (hbits : elemBits code = dxBits w) :
    dxunpkErr w code = none := by
  have hrange : 0x48 ≤ code ∧ code ≤ 0x5F := by simpa [isDx] using hdx
  have hpos := (dxBits_bounds w).1
  have hknown : codeKnown code = true := by
    rw [codeKnown, hbits, bne_iff_ne.2 (show dxBits w ≠ 0 by omega), Bool.true_or]
  rw [dxunpkErr, if_neg (by omega), if_neg (by omega), if_neg (by simp [hknown]), if_neg (by simp [hdx, hbits])]

/-- An element of the 16 words is that of the word it lies in. -/
theorem laid_element {f : Nat → Nat} (hf : ∀ t, f t < 2 ^ 32) (w : DxWidth) {e : Nat} (he : e < 512 / dxBits w) :
    laidWords f 16 / 2 ^ (dxBits w * e) % 2 ^ dxBits w =
      f (dxBits w * e / 32) / 2 ^ (dxBits w * e % 32) % 2 ^ dxBits w := by
  have hplace : dxBits w * e / 32 < 16 ∧ dxBits w * e % 32 + dxBits w ≤ 32 := by
    cases w <;> simp only [dxBits] at * <;> omega
  have hsplit : 2 ^ (dxBits w * e) = 2 ^ (32 * (dxBits w * e / 32)) * 2 ^ (dxBits w * e % 32) := by
    rw [← pow_add, Nat.div_add_mod]
  rw [hsplit, ← Nat.div_div_eq_div_mul, ← bits_of_word _ hplace.2, laidWords_get hf hplace.1]

/-- The writes of one thread of DXUNPK. -/
def unpackW (q : Squad) (w : DxWidth) (vd va desc t : Nat) : List RegW :=
  (List.range (16 / dxBits w * 2)).filterMap fun j => if 32 * j + t < 512 / dxBits w then
    some (.v (vd + j) t (BitVec.ofNat 32 (blockElem q w va desc (32 * j + t)))) else none

theorem rdV_unpackW (w : DxWidth) (vd va desc : Nat) {t : Nat} (ht : t < 32) (q q1 : Squad) (r : Nat) {u : Nat} (hu : u < 32) :
    rdV (applyWs (unpackW q w vd va desc t) q1) r u =
      if u = t then
        (if vd ≤ r ∧ 32 * (r - vd) + u < 512 / dxBits w then
          some (BitVec.ofNat 32 (blockElem q w va desc (32 * (r - vd) + u))) else none).getD (rdV q1 r u)
      else rdV q1 r u := by
  have hws : unpackW q w vd va desc t = (List.range (16 / dxBits w * 2)).filterMap fun j =>
      if decide (32 * j + t < 512 / dxBits w) then
        some (.v (vd + j) t (BitVec.ofNat 32 (blockElem q w va desc (32 * j + t)))) else none := by
    simp only [decide_eq_true_eq]
    rfl
  have hmem (k : Nat) : 32 * k + t < 512 / dxBits w → k < 16 / dxBits w * 2 := by
    intro hk
    cases w <;> simp only [dxBits] at * <;> omega
  rw [hws, rdV_applyWs_run vd t _ (fun j => BitVec.ofNat 32 (blockElem q w va desc (32 * j + t))) ht _ q1 r hu]
  by_cases hut : u = t
  · subst hut
    simp only [true_and, List.mem_range, decide_eq_true_eq, if_true]
    by_cases hc : vd ≤ r ∧ 32 * (r - vd) + u < 512 / dxBits w
    · rw [if_pos hc, if_pos ⟨hc.1, hmem _ hc.2, hc.2⟩]
      rfl
    · rw [if_neg hc, if_neg fun h => hc ⟨h.1, h.2.2⟩]
      rfl
  · simp [hut]

theorem unpack_regs (w : DxWidth) (vd va desc : Nat) (act : Mask) {q' : Squad}
    (hregs : SameRegs (applyWs ((threadsOf act).flatMap (unpackW q w vd va desc)) q) q') :
    (∀ r u, u < 32 → rdV q' r u =
      if bitM act u ∧ vd ≤ r ∧ 32 * (r - vd) + u < 512 / dxBits w then
        BitVec.ofNat 32 (blockElem q w va desc (32 * (r - vd) + u)) else rdV q r u) ∧
    q'.s = q.s ∧ q'.p = q.p ∧ q'.b = q.b ∧ q'.vi = q.vi ∧ q'.im = q.im ∧ q'.flg = q.flg := by
  have hkeys : ∀ w' ∈ (threadsOf act).flatMap (unpackW q w vd va desc), (regKey w').1 = 0 := by
    intro w' hw'
    obtain ⟨t, -, hw'⟩ := List.mem_flatMap.1 hw'
    obtain ⟨j, -, hj⟩ := List.mem_filterMap.1 hw'
    split at hj
    · cases hj
      rfl
    · cases hj
  obtain ⟨-, gs, gp, gb, gvi, gim, gflg⟩ := applyWs_keeps _ q hkeys
  obtain ⟨hv, hs, hp, hb, hvi, him, hflg⟩ := hregs
  refine ⟨fun r u hu => ?_, hs.trans (gs (by decide)), hp.trans (gp (by decide)), hb.trans (gb (by decide)),
    hvi.trans (gvi (by decide)), him.trans (gim (by decide)), hflg.trans (gflg (by decide))⟩
  have hobs := foldl_threads (fun q => rdV q r u) (fun q1 t => applyWs (unpackW q w vd va desc t) q1) u
    (if vd ≤ r ∧ 32 * (r - vd) + u < 512 / dxBits w then
      some (BitVec.ofNat 32 (blockElem q w va desc (32 * (r - vd) + u))) else none) (threadsOf act)
    (fun q1 t ht => rdV_unpackW w vd va desc (mem_threadsOf.1 ht).1 q q1 r hu) q
  rw [rdV, hv, ← rdV, applyWs_flatMap]
  refine hobs.trans ?_
  simp only [mem_threadsOf, hu, true_and]
  by_cases hact : bitM act u = true
  · simp only [hact, if_true, true_and]
    split <;> rfl
  · simp [hact]

/-- What DXUNPK does once it issues. -/
def dxunpkBody (w : DxWidth) (vd va : Nat) (b : Opnd) (x : Iss) (s : State) : Res :=
  if x.act = 0 then .ok s
  else match dxunpkErr w (rdScal x.q b % 65536 % 256) with
    | some e => failE s x e
    | none => .ok (putFixed (blockCycles s x) x ((threadsOf x.act).flatMap fun t =>
        (List.range (16 / dxBits w * 2)).filterMap fun j => if 32 * j + t < 512 / dxBits w then
          some (.v (vd + j) t (BitVec.ofNat 32 (encodeF fp32 .rne (elemVal (fun _ => 0) (rdScal x.q b % 65536 % 256)
            (rdScal x.q b % 65536 / 256)
            (laidWords (fun t => (rdV x.q va t).toNat) 16 / 2 ^ (dxBits w * (32 * j + t)) % 2 ^ dxBits w))).1))
        else none))

theorem exec_dxunpk (h : Hdr) (w : DxWidth) (vd va : Nat) (b : Opnd) (s : State) :
    exec (.dxunpk h w vd va b) s = issue h 2 (.per 1) s (dxunpkBody w vd va b) := rfl

theorem dxunpk_writes (w : DxWidth) (vd va : Nat) (b : Opnd) (hI : Issues s id q p h 2)
    (hdx : isDx (rdScal q b % 65536 % 256) = true) (hbits : elemBits (rdScal q b % 65536 % 256) = dxBits w) :
    Writes (.dxunpk h w vd va b) s id q p h fun q' =>
      (∀ r u, u < 32 → rdV q' r u =
        if bitM (runs p h q) u ∧ vd ≤ r ∧ 32 * (r - vd) + u < 512 / dxBits w then
          BitVec.ofNat 32 (blockElem q w va (rdScal q b % 65536) (32 * (r - vd) + u)) else rdV q r u) ∧
      q'.s = q.s ∧ q'.p = q.p ∧ q'.b = q.b ∧ q'.vi = q.vi ∧ q'.im = q.im ∧ q'.flg = q.flg := by
  by_cases hact : runs p h q = 0
  · obtain ⟨t, q', ht, hwent, hsame, hregs, hpend, hteq⟩ :=
      plain_done (occ := .per 1) (body := dxunpkBody w vd va b) hI (if_pos hact) rfl
    obtain ⟨-, -, -, heq, -⟩ := issued_squad s id q p h 2 (.per 1) hI
    refine ⟨t, q', (exec_dxunpk h w vd va b s).trans ht, hwent, ?_, hsame, hpend,
      unpack_regs w vd va (rdScal q b % 65536) (runs p h q) ?_⟩
    · unfold OnlySquads
      rw [hteq, heq]
    · rwa [hact, threadsOf_zero]
  · have hact' : (seen id q p h).act ≠ 0 := hact
    have hnone : dxunpkErr w (rdScal (seen id q p h).q b % 65536 % 256) = none := dxunpkErr_none hdx hbits
    have hword (t j : Nat) (he : 32 * j + t < 512 / dxBits w) : elemVal (fun _ => 0) (rdScal q b % 65536 % 256)
        (rdScal q b % 65536 / 256) (laidWords (fun t => (rdV q va t).toNat) 16 / 2 ^ (dxBits w * (32 * j + t)) % 2 ^ dxBits w) =
          elemVal (fun _ => 0) (rdScal q b % 65536 % 256) (rdScal q b % 65536 / 256) ((rdV q va (dxBits w * (32 * j + t) / 32)).toNat /
            2 ^ (dxBits w * (32 * j + t) % 32) % 2 ^ dxBits w) := by
      rw [laid_element (f := fun t => (rdV q va t).toNat) (fun t => (rdV q va t).isLt) w he]
    obtain ⟨t, q', ht, hwent, honly, hsame, hpend, hregs⟩ := block_done (occ := .per 1) (body := dxunpkBody w vd va b)
      (ws := (threadsOf (runs p h q)).flatMap (unpackW q w vd va (rdScal q b % 65536))) hI
      (by
        rw [dxunpkBody, if_neg hact', hnone]
        refine congrArg (fun ws => Res.ok (putFixed _ _ ws)) (List.flatMap_congr fun t _ => List.filterMap_congr fun j _ => ?_)
        exact ite_congr rfl (fun he => congrArg (fun v => some (RegW.v (vd + j) t (BitVec.ofNat 32 (encodeF fp32 .rne v).1)))
          (hword t j he)) fun _ => rfl)
    exact ⟨t, q', (exec_dxunpk h w vd va b s).trans ht, hwent, honly, hsame, hpend, unpack_regs w vd va _ _ hregs⟩

/-! ### Conversion into a block -/

theorem isDx_bounds {code : Nat} (h : isDx code = true) : code < 256 ∧ 2 ≤ elemBits code ∧ elemBits code ≤ 16 := by
  have hrange : 0x48 ≤ code ∧ code ≤ 0x5F := by simpa [isDx] using h
  rw [elemBits_dx h]
  refine ⟨by omega, ?_, ?_⟩ <;> split <;> (try split) <;> omega

theorem nthN_lt {l : List Nat} {m : Nat} (hm : 0 < m) (hl : ∀ e ∈ l, e < m) (i : Nat) : nthN l i < m := by
  unfold nthN
  cases hi : l[i]? with
  | none => exact hm
  | some e => exact hl e (List.mem_of_getElem? hi)

/-- What FCVT does once it issues. -/
def fcvtBody (dst' src : Nat) (rm : Rm) (d a : Opnd) (x : Iss) (s : State) : Res :=
  if x.act = 0 then .ok s
  else .ok (putFixed (if isDx dst' then blockCycles s x else s) x (fcvtWrites dst' src rm d a x.act x.q))

theorem exec_fcvt (h : Hdr) (dst' src : Nat) (rm : Rm) (d a : Opnd) (s : State) :
    exec (.fcvt h dst' src rm d a) s = issue h 1 (occOf d 1) s (fcvtBody dst' src rm d a) := rfl

theorem fcvt_dx_writes {dst' src : Nat} {rm : Rm} {d a : Opnd} (hd : (∃ n a b, d = .v n a b) ∨ ∃ n a b, d = .s n a b)
    (hdx : isDx dst' = true) (hI : Issues s id q p h 1) (hact : runs p h q ≠ 0) :
    let b := fcvtBlock src dst' rm a (runs p h q) q
    Writes (.fcvt h dst' src rm d a) s id q p h fun q' =>
      Gets .u32 d (runs p h q) q q' (fun u => (nthN b.2.1 u + 2 ^ 16 * dst' + 2 ^ 24 * b.1 : Nat)) ∧
      q'.p = q.p ∧ q'.b = q.b ∧ q'.flg = q.flg ||| BitVec.ofNat 5 b.2.2 := by
  intro b
  have hact' : (seen id q p h).act ≠ 0 := hact
  obtain ⟨hcode, hw2, hw16⟩ := isDx_bounds hdx
  obtain ⟨hscale, helems⟩ := dxBlock_bounds hw2 (dxGap dst') rm
    ((List.range 32).map fun t => if bitM (runs p h q) t then fcvtSource src (fcvtImage q src a t) else .fin false 0 0)
  have hsmall (u : Nat) : nthN b.2.1 u + 2 ^ 16 * dst' + 2 ^ 24 * b.1 < 2 ^ 32 := by
    have h16 : nthN b.2.1 u < 2 ^ 16 := nthN_lt (by decide) (fun e he => (helems e he).trans_le (Nat.pow_le_pow_right two_pos hw16)) u
    have hs : b.1 ≤ 255 := hscale
    omega
  obtain ⟨t, q', ht, hwent, honly, hsame, hpend, hregs⟩ := block_done (occ := occOf d 1) (body := fcvtBody dst' src rm d a)
    (ws := flagW b.2.2 ++ (execThreads d (runs p h q)).flatMap
      (resultW .u32 d fun u => (nthN b.2.1 u + 2 ^ 16 * dst' + 2 ^ 24 * b.1, 0))) hI
    (by
      have hws : (resultW .u32 d fun u => (nthN b.2.1 u + 2 ^ 16 * dst' + 2 ^ 24 * b.1, 0)) = fun u =>
        wrInt 32 false d u (nthN b.2.1 u + 2 ^ 16 * dst' + 2 ^ 24 * b.1) := funext fun u => resultW_noFlags _ _ _ _
      rw [fcvtBody, if_neg hact', if_pos hdx, hws]
      simp only [hdx, if_true, fcvtWrites]
      rfl)
  refine ⟨t, q', (exec_fcvt h dst' src rm d a s).trans ht, hwent, honly, hsame, hpend, ?_⟩
  rw [applyWs_append, applyWs_flagW] at hregs
  obtain ⟨hgets, hp, hb, hflg⟩ := gets_results hd (fun _ _ u => hsmall u) hregs
  rw [stuck_zero] at hflg
  refine ⟨?_, hp, hb, hflg⟩
  rcases hd with ⟨n, x, y, rfl⟩ | ⟨n, x, y, rfl⟩
  · exact hgets
  · exact hgets

end

theorem blockInstructions : BlockInstructionsRule := by
  intro h w rm s id q p
  exact ⟨fun g vd va sb _ hI hact => dxpk_writes w g rm vd va sb hI hact,
    fun vd va b _ hI hdx hbits => dxunpk_writes w vd va b hI hdx hbits,
    fun dst' src d a hwf hdx hI hact => fcvt_dx_writes (wf_dst hwf rfl) hdx hI hact⟩

end Sys2Proof.Machine
end

section

namespace Sys2Proof.Machine

/-! ### The shared exponent follows the largest magnitude (R66) -/

/-- A finite value. -/
def IsFin (x : FV) : Prop := ∃ n m e, x = .fin n m e

theorem numberOf_absV (x : FV) (hx : IsFin x) : IsFin (absV x) ∧ numberOf (absV x) = |numberOf x| := by
  obtain ⟨n, m, e, rfl⟩ := hx
  refine ⟨⟨false, m, e, rfl⟩, ?_⟩
  have hpos : (0 : ℚ) ≤ m * 2 ^ e := by positivity
  cases n <;> simp [absV, numberOf, abs_of_nonneg hpos]

theorem maxMag_fin {a b : FV} (ha : IsFin a) (hb : IsFin b) :
    IsFin (maxMag a b) ∧ |numberOf (maxMag a b)| = max |numberOf a| |numberOf b| := by
  obtain ⟨ha', hna⟩ := numberOf_absV a ha
  obtain ⟨hb', hnb⟩ := numberOf_absV b hb
  have hcmp : cmpV (absV a) (absV b) = some (compare |numberOf a| |numberOf b|) := by
    rw [← hna, ← hnb]
    obtain ⟨_, _, _, hva⟩ := ha'
    obtain ⟨_, _, _, hvb⟩ := hb'
    rw [hva, hvb, cmpV_fin]
  unfold maxMag
  rw [hcmp]
  rcases lt_or_ge |numberOf a| |numberOf b| with h | h
  · rw [compare_lt_iff_lt.2 h, max_eq_right h.le]
    exact ⟨hb', by rw [hnb, abs_abs]⟩
  · rw [max_eq_left h]
    split
    next hlt => exact absurd (compare_lt_iff_lt.1 (Option.some.inj hlt)) h.not_gt
    next => exact ⟨ha', by rw [hna, abs_abs]⟩

theorem foldl_maxMag {xs : List FV} (hxs : ∀ x ∈ xs, IsFin x) (a : FV) (ha : IsFin a) :
    IsFin (xs.foldl maxMag a) ∧ ∀ y, |numberOf (xs.foldl maxMag a)| < y ↔ |numberOf a| < y ∧ ∀ x ∈ xs, |numberOf x| < y := by
  induction xs generalizing a with
  | nil => exact ⟨ha, fun y => by simp⟩
  | cons x xs ih =>
    obtain ⟨hfin, hmax⟩ := maxMag_fin ha (hxs x List.mem_cons_self)
    obtain ⟨hfold, hlt⟩ := ih (fun z hz => hxs z (List.mem_cons_of_mem _ hz)) (maxMag a x) hfin
    refine ⟨hfold, fun y => ?_⟩
    rw [List.foldl_cons, hlt, hmax, max_lt_iff, List.forall_mem_cons, and_assoc]

section
variable {xs : List FV} (hxs : ∀ x ∈ xs, IsFin x)
include hxs

/-- The largest magnitude of a block. -/
theorem largest_magnitude : ∃ n m e, xs.foldl maxMag (.fin false 0 0) = .fin n m e ∧
    ∀ y, 0 < y → (|numberOf (.fin n m e)| < y ↔ ∀ x ∈ xs, |numberOf x| < y) := by
  obtain ⟨⟨n, m, e, hv⟩, hlt⟩ := foldl_maxMag hxs (.fin false 0 0) ⟨_, _, _, rfl⟩
  refine ⟨n, m, e, hv, fun y hy => ?_⟩
  rw [← hv, hlt, numberOf_zero, abs_zero]
  exact and_iff_right hy

theorem dxScale_zero (hzero : ∀ x ∈ xs, numberOf x = 0) : dxScale xs = 0 := by
  obtain ⟨n, m, e, hv, hlt⟩ := largest_magnitude hxs
  rw [dxScale, hv]
  refine if_pos ((numberOf_eq_zero (neg := n) (e := e)).1 (by_contra fun hne => ?_))
  have hpos := abs_pos.2 hne
  exact lt_irrefl _ ((hlt _ hpos).2 fun x hx => by rw [hzero x hx, abs_zero]; exact hpos)

theorem dxScale_top {top : Int} (hex : ∃ x ∈ xs, (2 : ℚ) ^ top ≤ |numberOf x|) (hall : ∀ x ∈ xs, |numberOf x| < 2 ^ (top + 1)) :
    (dxScale xs : Int) = min (max (top + 1 + 127) 1) 254 := by
  obtain ⟨n, m, e, hv, hlt⟩ := largest_magnitude hxs
  have hhigh : |numberOf (.fin n m e)| < 2 ^ (top + 1) := (hlt _ (zpow_pos two_pos _)).2 hall
  have hlow : (2 : ℚ) ^ top ≤ |numberOf (.fin n m e)| := by
    obtain ⟨x, hx, hle⟩ := hex
    exact not_lt.1 fun h => ((hlt _ (zpow_pos two_pos _)).1 h x hx).not_ge hle
  have hm : m ≠ 0 := fun h => by
    rw [numberOf_eq_zero.2 h, abs_zero] at hlow
    exact (zpow_pos two_pos top).not_ge hlow
  have habs : ((|numberOf (.fin n m e)| : ℚ) : ℝ) = m * 2 ^ e := by
    rw [Rat.cast_abs, numberOf_fin, abs_signed n (by positivity)]
  have hlow' := (Rat.cast_le (K := ℝ)).2 hlow
  have hhigh' := (Rat.cast_lt (K := ℝ)).2 hhigh
  rw [habs, Rat.cast_zpow, Rat.cast_ofNat] at hlow' hhigh'
  obtain ⟨hb1, hb2⟩ := magnitude_binade (st := false) (m := m) (e := e) (y := m * 2 ^ e) rfl hm
  have h1 : e + (bitLen m : Nat) - 1 < top + 1 := (zpow_lt_zpow_iff_right₀ one_lt_two).1 (hb1.trans_lt hhigh')
  have h2 : top < e + (bitLen m : Nat) := (zpow_lt_zpow_iff_right₀ one_lt_two).1 (hlow'.trans_lt hb2)
  have hlog : log2Floor m e = top := by
    unfold log2Floor
    omega
  rw [dxScale, hv]
  simp only [if_neg hm, hlog]
  omega

end

/-! ### One element -/

/-- The choice of the finer unit, the exact quotient and the greatest magnitude, as R66 gives them for the shared exponent `s`. -/
def FineUnit (g s : Nat) (x : ℝ) : Prop := |x| < 2 ^ ((s : Int) - 127 - g)
open Classical in
noncomputable def dxQuotient (w g s : Nat) (x : ℝ) : ℝ :=
  x / 2 ^ ((s : Int) - 127 - ((w : Int) - 2) - if FineUnit g s x then (g : Int) else 0)

/-- The rounded quotient of a value. -/
def dxUnits (w g : Nat) (rm : Rm) (s : Nat) : FV → Int
  | .fin n m e => (if n then -1 else 1) * ((quant rm n m e false (dxUnit w g s m e)).1 : Int)
  | _ => 0

theorem dxPick_iff (g s : Nat) (n : Bool) (m : Nat) (e : Int) : dxPick g s m e = true ↔ FineUnit g s (numberOf (.fin n m e)) := by
  rw [dxPick, dyLt_iff, FineUnit, numberOf_fin, abs_signed n (by positivity), Nat.cast_one, one_mul]

theorem dxQuotient_fin {w : Nat} (hw : 2 ≤ w) (g s : Nat) (n : Bool) (m : Nat) (e : Int) :
    dxQuotient w g s (numberOf (.fin n m e)) = signed n (m * 2 ^ e / 2 ^ dxUnit w g s m e) := by
  classical
  have hunit : (s : Int) - 127 - ((w : Int) - 2) - (if FineUnit g s (numberOf (.fin n m e)) then (g : Int) else 0) = dxUnit w g s m e := by
    rw [dxUnit]
    simp only [← dxPick_iff]
    omega
  rw [dxQuotient, hunit, numberOf_fin]
  cases n <;> simp [neg_div]

/-- The flags that R66 gives an element of value `x` and rounded quotient `i`: UF for a value that vanishes, NX for an inexact one,
SAT for one beyond the greatest magnitude. -/
structure ElementFlags (w g s : Nat) (x : ℝ) (i : Int) (f : Nat) : Prop where
  small : f < 32
  others : f % 4 = 0
  uf : f.testBit 2 = true ↔ x ≠ 0 ∧ i = 0
  nx : f.testBit 3 = true ↔ ((min i.natAbs (2 ^ (w - 2) - 1) : Nat) : ℝ) ≠ |dxQuotient w g s x|
  sat : f.testBit 4 = true ↔ 2 ^ (w - 2) - 1 < i.natAbs

section
variable {w : Nat} (hw : 2 ≤ w) (g s : Nat) (rm : Rm) (n : Bool) (m : Nat) (e : Int)

theorem dxUnits_fin : ((dxUnits w g rm s (.fin n m e) : Int) : ℝ) = signed n ((quant rm n m e false (dxUnit w g s m e)).1 : Nat) ∧
    (dxUnits w g rm s (.fin n m e)).natAbs = (quant rm n m e false (dxUnit w g s m e)).1 := by
  cases n <;> simp [dxUnits]

include hw

theorem dxUnits_selects :
    Selects rm integral evenInt (dxQuotient w g s (numberOf (.fin n m e))) (dxUnits w g rm s (.fin n m e) : Int) := by
  rw [dxQuotient_fin hw, (dxUnits_fin g s rm n m e).1]
  exact selects_integral rfl (by simp)

theorem dxUnits_zero : dxUnits w g rm s (.fin n 0 e) = 0 := by
  have hsel := dxUnits_selects hw g s rm n 0 e
  rw [dxQuotient_fin hw, Nat.cast_zero, zero_mul, zero_div, signed_zero] at hsel
  exact_mod_cast eq_of_selects (x := 0) ⟨0, by simp⟩ hsel

open Classical in
/-- The code of an element. -/
theorem dxElem_code : (dxElem w g rm s (.fin n m e)).1 = if dxUnits w g rm s (.fin n m e) = 0 then 0 else
    (if FineUnit g s (numberOf (.fin n m e)) then 2 ^ (w - 1) else 0) + (if numberOf (.fin n m e) < 0 then 2 ^ (w - 2) else 0) +
      min (dxUnits w g rm s (.fin n m e)).natAbs (2 ^ (w - 2) - 1) := by
  by_cases hm : m = 0
  · subst hm
    rw [if_pos (dxUnits_zero hw g s rm n e)]
    rfl
  · obtain ⟨-, habs⟩ := dxUnits_fin (w := w) g s rm n m e
    have hneg : numberOf (.fin n m e) < 0 ↔ n = true := by
      have hpos : (0 : ℚ) < m * 2 ^ e := mul_pos (by positivity) (zpow_pos two_pos _)
      cases n
      · simpa [numberOf] using hpos.le
      · simpa [numberOf] using hpos
    have hhead : dxHead w g s n m e =
        (if FineUnit g s (numberOf (.fin n m e)) then 2 ^ (w - 1) else 0) + (if numberOf (.fin n m e) < 0 then 2 ^ (w - 2) else 0) := by
      simp only [dxHead, ← dxPick_iff, hneg, Bool.cond_eq_ite]
    rw [dxElem_fin hm, ← hhead]
    simp only [← Int.natAbs_eq_zero, habs]
    have hmost : 0 < 2 ^ (w - 2) := Nat.two_pow_pos _
    generalize (quant rm n m e false (dxUnit w g s m e)).1 = k
    by_cases hk : 2 ^ (w - 2) - 1 < k
    · rw [if_pos hk, if_neg (by omega), min_eq_right hk.le]
    · rw [if_neg hk, min_eq_left (by omega)]
      split <;> rfl

theorem dxElem_flags : ElementFlags w g s (numberOf (.fin n m e)) (dxUnits w g rm s (.fin n m e)) (dxElem w g rm s (.fin n m e)).2 := by
  suffices h : let f := (dxElem w g rm s (.fin n m e)).2
      f < 32 ∧ f % 4 = 0 ∧ (f.testBit 2 = true ↔ (numberOf (.fin n m e) : ℝ) ≠ 0 ∧ dxUnits w g rm s (.fin n m e) = 0) ∧
        (f.testBit 3 = true ↔ ((min (dxUnits w g rm s (.fin n m e)).natAbs (2 ^ (w - 2) - 1) : Nat) : ℝ) ≠
          |dxQuotient w g s (numberOf (.fin n m e))|) ∧
        (f.testBit 4 = true ↔ 2 ^ (w - 2) - 1 < (dxUnits w g rm s (.fin n m e)).natAbs) by
    obtain ⟨h32, h4, huf, hnx, hsat⟩ := h
    exact ⟨h32, h4, huf, hnx, hsat⟩
  intro f
  have hquot : |dxQuotient w g s (numberOf (.fin n m e))| = m * 2 ^ e / 2 ^ dxUnit w g s m e := by
    rw [dxQuotient_fin hw, abs_signed n (by positivity)]
  rw [hquot]
  by_cases hm : m = 0
  · subst hm
    have hf : f = 0 := rfl
    rw [hf, dxUnits_zero hw, numberOf_zero]
    simp
  · obtain ⟨-, habs⟩ := dxUnits_fin (w := w) g s rm n m e
    have hnum : (numberOf (.fin n m e) : ℝ) ≠ 0 := by
      rw [Ne, Rat.cast_eq_zero, numberOf_eq_zero]
      exact hm
    have hmag : MagnitudeIs m e false ((m : ℝ) * 2 ^ e) := rfl
    have hexact := quant_inexact (rm := rm) (neg := n) (q := dxUnit w g s m e) hmag (by simp)
    have hsel := selects_integral (rm := rm) (neg := n) (q := dxUnit w g s m e) hmag (by simp)
    have hf : f = (dxElem w g rm s (.fin n m e)).2 := rfl
    have hpos : (0 : ℝ) < m * 2 ^ e / 2 ^ dxUnit w g s m e :=
      div_pos (mul_pos (by positivity) (zpow_pos two_pos _)) (zpow_pos two_pos _)
    rw [hf, dxElem_fin hm, ← Int.natAbs_eq_zero, habs]
    generalize (m : ℝ) * 2 ^ e / 2 ^ dxUnit w g s m e = y at hexact hsel hpos
    generalize quant rm n m e false (dxUnit w g s m e) = r at hexact hsel
    have hmost : 0 < 2 ^ (w - 2) := Nat.two_pow_pos _
    generalize 2 ^ (w - 2) - 1 = most
    rcases lt_or_ge most r.1 with hk | hk
    · have hy : (most : ℝ) ≠ y := fun hy => by
        rw [← hy] at hsel
        have heq := congrArg (signed n) (eq_of_selects (symmetric_integral.signed n ⟨most, by simp⟩) hsel)
        rw [signed_signed, signed_signed, Nat.cast_inj] at heq
        omega
      rw [if_pos hk, min_eq_right hk.le]
      have hbits : 24 < 32 ∧ 24 % 4 = 0 ∧ ¬ Nat.testBit 24 2 = true ∧ Nat.testBit 24 3 = true ∧ Nat.testBit 24 4 = true := by decide
      obtain ⟨h1, h2, h3, h4, h5⟩ := hbits
      exact ⟨h1, h2, iff_of_false h3 fun h => by omega, iff_of_true h4 hy, iff_of_true h5 hk⟩
    · rw [if_neg hk.not_gt, min_eq_left hk]
      by_cases h0 : r.1 = 0
      · rw [if_pos h0, h0]
        refine ⟨by decide, by decide, iff_of_true (by decide) ⟨hnum, rfl⟩, iff_of_true (by decide) ?_, iff_of_false (by decide) (by omega)⟩
        exact_mod_cast hpos.ne
      · rw [if_neg h0, ne_comm (b := y), ← hexact]
        have hbelow : ¬ most < r.1 := hk.not_gt
        have hflag (b : Bool) : flagIf b 8 < 32 ∧ flagIf b 8 % 4 = 0 ∧ (flagIf b 8).testBit 2 = false ∧ (flagIf b 8).testBit 3 = b ∧
            (flagIf b 8).testBit 4 = false := by cases b <;> decide
        obtain ⟨h1, h2, h3, h4, h5⟩ := hflag r.2
        exact ⟨h1, h2, by simp [h3, h0], by simp [h4], by simp [h5, hbelow]⟩

end

/-! ### The block -/

/-- A bit of flags gathered from a list is set by one of them. -/
theorem testBit_gathered {α : Type} (f : α → Nat) (k : Nat) (xs : List α) (a : Nat) :
    (xs.foldl (fun acc x => acc ||| f x) a).testBit k = true ↔ a.testBit k = true ∨ ∃ x ∈ xs, (f x).testBit k = true := by
  induction xs generalizing a with
  | nil => simp
  | cons x xs ih => rw [List.foldl_cons, ih, Nat.testBit_or, Bool.or_eq_true, List.exists_mem_cons_iff, or_assoc]

/-- Flags gathered from a list of which none has a bit of RR or above, nor NV, DZ or OF. -/
theorem gathered_range {α : Type} (f : α → Nat) {xs : List α} (hf : ∀ x ∈ xs, f x < 32 ∧ f x % 4 = 0) {a : Nat} (ha : a < 32 ∧ a % 4 = 0) :
    xs.foldl (fun acc x => acc ||| f x) a < 32 ∧ xs.foldl (fun acc x => acc ||| f x) a % 4 = 0 := by
  induction xs generalizing a with
  | nil => exact ha
  | cons x xs ih =>
    obtain ⟨h32, h4⟩ := hf x List.mem_cons_self
    refine ih (fun y hy => hf y (List.mem_cons_of_mem _ hy)) ⟨Nat.or_lt_two_pow (n := 5) ha.1 h32, ?_⟩
    rw [show (4 : Nat) = 2 ^ 2 from rfl, Nat.or_mod_two_pow, show (2 : Nat) ^ 2 = 4 from rfl, ha.2, h4]
    rfl

/-- A block with neither NaN nor a scale of 0. -/
theorem dxBlock_scaled (w g : Nat) (rm : Rm) {xs : List FV} (hxs : ∀ x ∈ xs, IsFin x) :
    dxBlock w g rm xs = if dxScale xs = 0 then (0, xs.map fun _ => 0, 0) else
      (dxScale xs, xs.map fun x => (dxElem w g rm (dxScale xs) x).1, xs.foldl (fun acc x => acc ||| (dxElem w g rm (dxScale xs) x).2) 0) := by
  have hnan : xs.any isNan = false := by
    rw [List.any_eq_false]
    intro x hx
    obtain ⟨n, m, e, rfl⟩ := hxs x hx
    simp [isNan]
  rw [dxBlock, hnan]
  simp only [Bool.false_eq_true, if_false, List.map_map, List.foldl_map]
  rfl

/-- A decoded FP32 code is the number of the code. -/
theorem decoded_fp32 {c : Nat} (hc : Finite (fieldsOf .f32) c) :
    IsFin (decodeIeee fp32 c) ∧ numberOf (decodeIeee fp32 c) = valueOf (fieldsOf .f32) c := by
  obtain ⟨m, e, hd, hv⟩ := decodeIeee_finite matches_fp32 (hasSpecials_fieldsOf .f32) hc
  rw [hd]
  exact ⟨⟨_, _, _, rfl⟩, hv⟩

theorem blockRounding : BlockRoundingRule := by
  intro w g rm cs top hw _ _ hfinite r
  have hw2 : 2 ≤ w := by omega
  have hxs : ∀ x ∈ cs.map (decodeIeee fp32), IsFin x := by
    intro x hx
    obtain ⟨c, hc, rfl⟩ := List.mem_map.1 hx
    exact (decoded_fp32 (hfinite c hc)).1
  have hr : r = _ := dxBlock_scaled w g rm hxs
  constructor
  · intro hzero
    rw [hr, if_pos (dxScale_zero hxs fun x hx => ?_), List.map_map]
    · rfl
    · obtain ⟨c, hc, rfl⟩ := List.mem_map.1 hx
      rw [(decoded_fp32 (hfinite c hc)).2, hzero c hc]
  · rintro ⟨c0, hc0, hlow⟩ hhigh
    have hscale := dxScale_top (top := top) hxs ⟨_, List.mem_map_of_mem hc0, by rwa [(decoded_fp32 (hfinite c0 hc0)).2]⟩ (fun x hx => by
      obtain ⟨c, hc, rfl⟩ := List.mem_map.1 hx
      rw [(decoded_fp32 (hfinite c hc)).2]
      exact hhigh c hc)
    rw [if_neg (by omega)] at hr
    generalize dxScale (cs.map (decodeIeee fp32)) = s at hscale hr
    rw [hr]
    refine ⟨hscale, by simp, ?_⟩
    intro eh sel q most
    have hq (x : ℝ) : q x = dxQuotient w g s x := by
      unfold q sel eh dxQuotient FineUnit
      congr
    have helem {c : Nat} (hc : c ∈ cs) : ∃ n m e, decodeIeee fp32 c = .fin n m e ∧ numberOf (.fin n m e) = valueOf (fieldsOf .f32) c := by
      obtain ⟨⟨n, m, e, hd⟩, hv⟩ := decoded_fp32 (hfinite c hc)
      exact ⟨n, m, e, hd, hd ▸ hv⟩
    refine ⟨cs.map fun c => dxUnits w g rm s (decodeIeee fp32 c), by simp, ?_, ?_⟩
    · intro k c m hc hm
      obtain ⟨n, mm, e, hd, hv⟩ := helem (List.mem_of_getElem? hc)
      have hm' : dxUnits w g rm s (.fin n mm e) = m := by
        rw [List.getElem?_map, hc, Option.map_some, hd] at hm
        exact Option.some.inj hm
      rw [hq, ← hv, ← hm']
      refine ⟨dxUnits_selects hw2 g s rm n mm e, ?_⟩
      rw [List.getElem?_map, List.getElem?_map, hc, Option.map_some, Option.map_some, hd, dxElem_code hw2]
      congr
    · intro met
      have hmet (P : ℝ → Int → Prop) (f : Nat → Prop) (hP : ∀ c ∈ cs, f c ↔ P (valueOf (fieldsOf .f32) c) (dxUnits w g rm s (decodeIeee fp32 c))) :
          (∃ c ∈ cs, f c) ↔ met P := by
        constructor
        · rintro ⟨c, hc, hfc⟩
          obtain ⟨k, hk⟩ := List.mem_iff_getElem?.1 hc
          exact ⟨k, c, _, hk, by rw [List.getElem?_map, hk]; rfl, (hP c hc).1 hfc⟩
        · rintro ⟨k, c, m, hk, hm, hp⟩
          rw [List.getElem?_map, hk] at hm
          have hc := List.mem_of_getElem? hk
          have hm' : dxUnits w g rm s (decodeIeee fp32 c) = m := Option.some.inj hm
          exact ⟨c, hc, (hP c hc).2 (by rwa [hm'])⟩
      have hflags {c : Nat} (hc : c ∈ cs) : ElementFlags w g s (valueOf (fieldsOf .f32) c) (dxUnits w g rm s (decodeIeee fp32 c))
          (dxElem w g rm s (decodeIeee fp32 c)).2 := by
        obtain ⟨n, m, e, hd, hv⟩ := helem hc
        rw [← hv, hd]
        exact dxElem_flags hw2 g s rm n m e
      have hbit (k : Nat) : ((cs.map (decodeIeee fp32)).foldl (fun acc x => acc ||| (dxElem w g rm s x).2) 0).testBit k = true ↔
          ∃ c ∈ cs, (dxElem w g rm s (decodeIeee fp32 c)).2.testBit k = true := by
        rw [testBit_gathered, Nat.zero_testBit]
        simp
      obtain ⟨h32, h4⟩ := gathered_range (fun x => (dxElem w g rm s x).2) (xs := cs.map (decodeIeee fp32)) (a := 0) (fun x hx => by
        obtain ⟨c, hc, rfl⟩ := List.mem_map.1 hx
        exact ⟨(hflags hc).small, (hflags hc).others⟩) (by decide)
      refine ⟨h32, h4, (hbit 2).trans (hmet (fun x i => x ≠ 0 ∧ i = 0) _ fun c hc => (hflags hc).uf),
        (hbit 3).trans (hmet (fun x i => ((min i.natAbs most : Nat) : ℝ) ≠ |q x|) _ fun c hc => ?_),
        (hbit 4).trans (hmet (fun _ i => most < i.natAbs) _ fun c hc => (hflags hc).sat)⟩
      rw [hq]
      exact (hflags hc).nx

/-- Settles O5: each instruction completes with the writes of its block; a block of finite values is rounded element by element against
the exact quotient, under the shared exponent of its largest magnitude. -/
theorem blockConversions : Obligations.BlockConversions := ⟨blockInstructions, blockRounding⟩

end Sys2Proof.Machine
end

section

namespace Sys2Proof.Machine

/-! ### Intervals (R336) -/

theorem lowBitFrom_lt {x n i j : Nat} (h : lowBitFrom x n i = some j) : j < i + n := by
  induction n generalizing i with
  | zero => cases h
  | succ n ih =>
    rw [lowBitFrom] at h
    split at h
    · cases h
      omega
    · have := ih h
      omega

theorem botBit_lt (m : Nat) : botBit m < 64 := by
  unfold botBit lowBit
  cases hlow : lowBitFrom m 64 0 with
  | none => decide
  | some j => simpa using lowBitFrom_lt hlow

theorem topBit_lt {m : Nat} (hm : m < 2 ^ 64) : topBit m < 64 := by
  by_cases h0 : m = 0
  · subst h0
    decide
  · exact (Nat.log2_lt h0).2 hm

theorem reinterval_eq (vi m : Nat) : reinterval vi m = intervalOf vi m := by
  unfold reinterval intervalOf
  have h7 : bits vi 7 0 = vi % 256 := by simp [bits]
  have h15 : bits vi 15 8 = vi / 256 % 256 := rfl
  have h19 : bits vi 19 16 = vi / 2 ^ 16 % 16 := rfl
  refine ite_congr rfl (fun _ => rfl) fun _ => ?_
  rw [h7, h15, h19]
  dsimp only
  omega

theorem intervalOf_lt (vi : Nat) {m : Nat} (hm : m < 2 ^ 64) : intervalOf vi m < 2 ^ 23 := by
  unfold intervalOf
  have hlo := botBit_lt m
  have hhi := topBit_lt hm
  split
  · decide
  · have h20 : (if vi % 256 = botBit m then vi / 2 ^ 20 % 2 else 0) ≤ 1 := by split <;> omega
    have h21 : (if vi / 256 % 256 = topBit m then vi / 2 ^ 21 % 2 else 0) ≤ 1 := by split <;> omega
    dsimp only
    omega

/-- An interval lies in the bits that an interval register keeps. -/
theorem interval_kept (vi : Nat) {m : Nat} (hm : m < 2 ^ 64) :
    BitVec.ofNat 32 (reinterval vi m) &&& 0x7FFFFF = BitVec.ofNat 32 (intervalOf vi m) := by
  have hlt := intervalOf_lt vi hm
  rw [reinterval_eq]
  refine BitVec.eq_of_toNat_eq ?_
  rw [BitVec.toNat_and, BitVec.toNat_ofNat, show BitVec.toNat (0x7FFFFF : W32) = 2 ^ 23 - 1 from rfl, Nat.and_two_pow_sub_one_eq_mod]
  omega

/-! ### Writes of a cell -/

theorem applyWs_flg (ws : List RegW) (q : Squad) (h : ∀ w ∈ ws, (regKey w).1 ≠ 6) : (applyWs ws q).flg = q.flg := by
  induction ws generalizing q with
  | nil => rfl
  | cons w ws ih =>
    rw [applyWs_cons, ih _ fun a ha => h a (List.mem_cons_of_mem w ha)]
    exact (applyW_keeps w q).2.2.2.2.2.2 (h w List.mem_cons_self)

/-- Writes of pixel after pixel, in a register file that holds a value for each register and thread. -/
theorem file_cell {α : Type} [DecidableEq α] {z : α} (file : Squad → Tbl α) {pair : Nat → List RegW} {a t : Nat} {x : Nat → α}
    (hpair : ∀ j q, file (applyWs (pair j) q) = tset z (file q) ((a + j) * 32 + t) (x j)) (ht : t < 32) (n : Nat) (q : Squad) (r : Nat)
    {u : Nat} (hu : u < 32) : tget z (file (applyWs ((List.range n).flatMap pair) q)) (r * 32 + u) =
      if u = t ∧ a ≤ r ∧ r < a + n then x (r - a) else tget z (file q) (r * 32 + u) := by
  have hobs := foldl_threads (fun q => tget z (file q) (r * 32 + u)) (fun q1 j => applyWs (pair j) q1) (r - a)
    (if u = t ∧ a ≤ r then some (x (r - a)) else none) (List.range n) (fun q1 j _ => by
      rw [hpair j q1, tget_tset]
      by_cases hj : u = t ∧ r = a + j
      · obtain ⟨rfl, rfl⟩ := hj
        simp
      · rw [if_neg (by omega)]
        by_cases hc : u = t ∧ a ≤ r
        · rw [if_neg (by omega)]
        · rw [if_neg hc]
          split <;> rfl) q
  rw [applyWs_flatMap]
  refine hobs.trans ?_
  by_cases hc : u = t ∧ a ≤ r
  · rw [if_pos hc]
    refine if_congr ?_ rfl rfl
    rw [List.mem_range]
    omega
  · rw [if_neg hc, if_neg (c := u = t ∧ a ≤ r ∧ r < a + n) fun h => hc ⟨h.1, h.2.1⟩]
    split <;> rfl

/-! ### The split of a cell -/

section
variable (q : Squad) (gap : Bool) (pp vid via : Nat)

/-- The mask of a cell pixel, the part of it that the piece takes, and what remains. -/
def cellMask (j u : Nat) : Nat := (rdIm q (cellBase q via + j) u).toNat
def splitLast (u : Nat) : Nat := pieceEnd q gap (unionMask q via u)
def splitAbove (u : Nat) : Nat := 2 ^ 64 - 2 ^ (splitLast q gap via u + 1)
def pieceMask (j u : Nat) : Nat :=
  if unionMask q via u = 0 then 0
  else cellMask q via j u &&& (2 ^ (splitLast q gap via u + 1) - 2 ^ botBit (unionMask q via u))
def restMask (j u : Nat) : Nat := if unionMask q via u = 0 then cellMask q via j u else cellMask q via j u &&& splitAbove q gap via u

theorem cellMask_lt (j u : Nat) : cellMask q via j u < 2 ^ 64 := BitVec.isLt _
theorem pieceMask_lt (j u : Nat) : pieceMask q gap via j u < 2 ^ 64 := by
  unfold pieceMask
  split
  · decide
  · exact Nat.and_le_left.trans_lt (cellMask_lt q via j u)
theorem restMask_lt (j u : Nat) : restMask q gap via j u < 2 ^ 64 := by
  unfold restMask
  split
  · exact cellMask_lt q via j u
  · exact Nat.and_le_left.trans_lt (cellMask_lt q via j u)

/-- The interval register of a cell pixel. -/
def cellInterval (j u : Nat) : Nat := (rdVi q (cellBase q via + j) u).toNat

/-- The writes of a pixel of the source and of the piece, then those of the cells. -/
def restPair (t j : Nat) : List RegW :=
  [.im (cellBase q via + j) t (BitVec.ofNat 64 (restMask q gap via j t)),
    .vi (cellBase q via + j) t (BitVec.ofNat 32 (reinterval (cellInterval q via j t) (restMask q gap via j t)))]
def piecePair (t j : Nat) : List RegW :=
  if unionMask q via t = 0 then [.vi (cellBase q vid + j) t 0, .im (cellBase q vid + j) t 0] else
    [.im (cellBase q vid + j) t (BitVec.ofNat 64 (pieceMask q gap via j t)),
      .vi (cellBase q vid + j) t (BitVec.ofNat 32 (reinterval (cellInterval q via j t) (pieceMask q gap via j t)))]
def restW (t : Nat) : List RegW := if unionMask q via t = 0 then [] else (List.range (cellN q)).flatMap (restPair q gap via t)
def pieceW (t : Nat) : List RegW := (List.range (cellN q)).flatMap (piecePair q gap vid via t)
def splitMore (t : Nat) : Bool := decide (unionMask q via t ≠ 0 ∧ unionMask q via t &&& splitAbove q gap via t ≠ 0)

theorem vsplitRegs_eq (t : Nat) :
    vsplitRegs q gap pp vid via t = restW q gap via t ++ pieceW q gap vid via t ++ [.p pp t (splitMore q gap via t)] := by
  unfold vsplitRegs restW pieceW splitMore piecePair restPair
  by_cases h0 : unionMask q via t = 0
  · simp [h0]
  · simp only [h0, if_false, restMask, pieceMask, ne_eq, not_false_eq_true, true_and, decide_not]
    rfl

theorem restW_keys (t : Nat) : ∀ w ∈ restW q gap via t, (regKey w).1 = 4 ∨ (regKey w).1 = 5 := by
  intro w hw
  unfold restW at hw
  split at hw
  · cases hw
  · obtain ⟨j, -, hj⟩ := List.mem_flatMap.1 hw
    simp only [restPair, List.mem_cons, List.not_mem_nil, or_false] at hj
    rcases hj with rfl | rfl
    · exact .inr rfl
    · exact .inl rfl

theorem pieceW_keys (t : Nat) : ∀ w ∈ pieceW q gap vid via t, (regKey w).1 = 4 ∨ (regKey w).1 = 5 := by
  intro w hw
  obtain ⟨j, -, hj⟩ := List.mem_flatMap.1 hw
  unfold piecePair at hj
  split at hj <;> simp only [List.mem_cons, List.not_mem_nil, or_false] at hj <;> rcases hj with rfl | rfl
  · exact .inl rfl
  · exact .inr rfl
  · exact .inr rfl
  · exact .inl rfl

theorem pieceW_vi (j t : Nat) (q1 : Squad) : (applyWs (piecePair q gap vid via t j) q1).vi = tset 0 q1.vi ((cellBase q vid + j) * 32 + t)
    (BitVec.ofNat 32 (intervalOf (cellInterval q via j t) (pieceMask q gap via j t))) := by
  rw [← interval_kept _ (pieceMask_lt q gap via j t)]
  unfold piecePair
  by_cases h0 : unionMask q via t = 0
  · have hm : pieceMask q gap via j t = 0 := if_pos h0
    rw [if_pos h0, hm, reinterval, if_pos rfl]
    rfl
  · rw [if_neg h0]
    rfl

theorem pieceW_im (j t : Nat) (q1 : Squad) : (applyWs (piecePair q gap vid via t j) q1).im = tset 0 q1.im ((cellBase q vid + j) * 32 + t)
    (BitVec.ofNat 64 (pieceMask q gap via j t)) := by
  unfold piecePair
  by_cases h0 : unionMask q via t = 0
  · have hm : pieceMask q gap via j t = 0 := if_pos h0
    rw [if_pos h0, hm]
    rfl
  · rw [if_neg h0]
    rfl

theorem restW_vi (j t : Nat) (q1 : Squad) : (applyWs (restPair q gap via t j) q1).vi = tset 0 q1.vi ((cellBase q via + j) * 32 + t)
    (BitVec.ofNat 32 (intervalOf (cellInterval q via j t) (restMask q gap via j t))) := by
  rw [← interval_kept _ (restMask_lt q gap via j t)]
  rfl

/-- What one thread's split leaves of the masks, the intervals and the predicates of a thread. -/
theorem rdIm_split {t : Nat} (ht : t < 32) (q1 : Squad) (r : Nat) {u : Nat} (hu : u < 32) :
    rdIm (applyWs (vsplitRegs q gap pp vid via t) q1) r u = if u = t then
      (if cellBase q vid ≤ r ∧ r < cellBase q vid + cellN q then some (BitVec.ofNat 64 (pieceMask q gap via (r - cellBase q vid) u))
        else if unionMask q via u ≠ 0 ∧ cellBase q via ≤ r ∧ r < cellBase q via + cellN q then
          some (BitVec.ofNat 64 (restMask q gap via (r - cellBase q via) u)) else none).getD (rdIm q1 r u) else rdIm q1 r u := by
  have hp : (applyWs (vsplitRegs q gap pp vid via t) q1).im = (applyWs (pieceW q gap vid via t) (applyWs (restW q gap via t) q1)).im := by
    rw [vsplitRegs_eq, applyWs_append, applyWs_append]
    exact (applyWs_other _ _).2.2.2.2.2 (by simp [regKey])
  rw [rdIm, hp, pieceW, file_cell (·.im) (fun j q1 => pieceW_im q gap vid via j t q1) ht _ _ _ hu]
  unfold restW
  by_cases hut : u = t
  · subst hut
    simp only [true_and, if_true]
    split
    · rfl
    · by_cases h0 : unionMask q via u = 0
      · simp [h0, applyWs_nil, rdIm]
      · rw [if_neg h0, file_cell (·.im) (fun j q1 => rfl) ht _ _ _ hu]
        simp only [true_and, h0, ne_eq, not_false_eq_true]
        split <;> rfl
  · simp only [hut, false_and, if_false]
    split
    · rfl
    · rw [file_cell (·.im) (fun j q1 => rfl) ht _ _ _ hu, if_neg (by simp [hut])]
      rfl

theorem rdVi_split {t : Nat} (ht : t < 32) (q1 : Squad) (r : Nat) {u : Nat} (hu : u < 32) :
    rdVi (applyWs (vsplitRegs q gap pp vid via t) q1) r u = if u = t then
      (if cellBase q vid ≤ r ∧ r < cellBase q vid + cellN q then
          some (BitVec.ofNat 32 (intervalOf (cellInterval q via (r - cellBase q vid) u) (pieceMask q gap via (r - cellBase q vid) u)))
        else if unionMask q via u ≠ 0 ∧ cellBase q via ≤ r ∧ r < cellBase q via + cellN q then
          some (BitVec.ofNat 32 (intervalOf (cellInterval q via (r - cellBase q via) u) (restMask q gap via (r - cellBase q via) u)))
        else none).getD (rdVi q1 r u) else rdVi q1 r u := by
  have hp : (applyWs (vsplitRegs q gap pp vid via t) q1).vi = (applyWs (pieceW q gap vid via t) (applyWs (restW q gap via t) q1)).vi := by
    rw [vsplitRegs_eq, applyWs_append, applyWs_append]
    exact (applyWs_other _ _).2.2.2.2.1 (by simp [regKey])
  rw [rdVi, hp, pieceW, file_cell (·.vi) (fun j q1 => pieceW_vi q gap vid via j t q1) ht _ _ _ hu]
  unfold restW
  by_cases hut : u = t
  · subst hut
    simp only [true_and, if_true]
    split
    · rfl
    · by_cases h0 : unionMask q via u = 0
      · simp [h0, applyWs_nil, rdVi]
      · rw [if_neg h0, file_cell (·.vi) (fun j q1 => restW_vi q gap via j u q1) ht _ _ _ hu]
        simp only [true_and, h0, ne_eq, not_false_eq_true]
        split <;> rfl
  · simp only [hut, false_and, if_false]
    split
    · rfl
    · rw [file_cell (·.vi) (fun j q1 => restW_vi q gap via j t q1) ht _ _ _ hu, if_neg (by simp [hut])]
      rfl

theorem rdP_split {t : Nat} (q1 : Squad) (r : Nat) {u : Nat} (hu : u < 32) :
    rdP (applyWs (vsplitRegs q gap pp vid via t) q1) r u = if u = t then
      (if r = pp ∧ r ≠ 0 then some (splitMore q gap via u) else none).getD (rdP q1 r u) else rdP q1 r u := by
  have hkeys : ∀ w ∈ restW q gap via t ++ pieceW q gap vid via t, (regKey w).1 ≠ 2 := by
    intro w hw
    have := (List.mem_append.1 hw).elim (restW_keys q gap via t w) (pieceW_keys q gap vid via t w)
    omega
  have hsame : ∀ k, rdP (applyWs (restW q gap via t ++ pieceW q gap vid via t) q1) k u = rdP q1 k u := fun k => by
    rw [rdP, rdP, (applyWs_other _ _).2.2.1 hkeys]
  rw [vsplitRegs_eq, applyWs_append, applyWs_cons, applyWs_nil, rdP_applyW_p _ _ _ _ _ hu, hsame]
  by_cases hut : u = t
  · subst hut
    simp only [true_and, if_true]
    split <;> rfl
  · simp [hut]

end

section
variable {s : State} {id : Nat} {q : Squad} {p : Path} {h : Hdr}

theorem vsplit_writes (gap : Bool) (pp vid via : Nat) (hI : Issues s id q p h 2) (hact : runs p h q ≠ 0) (hlv : q.rasterLv = true) :
    Writes (.lfVsplit h gap pp vid via) s id q p h fun q' =>
      (∀ r u, u < 32 → rdIm q' r u =
        if bitM (runs p h q) u ∧ cellBase q vid ≤ r ∧ r < cellBase q vid + cellN q then BitVec.ofNat 64 (pieceMask q gap via (r - cellBase q vid) u)
        else if bitM (runs p h q) u ∧ cellBase q via ≤ r ∧ r < cellBase q via + cellN q then
          BitVec.ofNat 64 (restMask q gap via (r - cellBase q via) u)
        else rdIm q r u) ∧
      (∀ r u, u < 32 → rdVi q' r u =
        if bitM (runs p h q) u ∧ cellBase q vid ≤ r ∧ r < cellBase q vid + cellN q then
          BitVec.ofNat 32 (intervalOf (cellInterval q via (r - cellBase q vid) u) (pieceMask q gap via (r - cellBase q vid) u))
        else if bitM (runs p h q) u ∧ cellBase q via ≤ r ∧ r < cellBase q via + cellN q ∧ unionMask q via u ≠ 0 then
          BitVec.ofNat 32 (intervalOf (rdVi q r u).toNat (restMask q gap via (r - cellBase q via) u))
        else rdVi q r u) ∧
      GetsP pp (runs p h q) q q' (splitMore q gap via) ∧ q'.v = q.v ∧ q'.s = q.s ∧ q'.b = q.b ∧ q'.flg = q.flg := by
  obtain ⟨t, q', ht, hwent, honly, hsame, hpend, hregs⟩ := fixed_done (occ := .per 1)
    (body := fun x s => if x.act = 0 then .ok s else if !x.q.rasterLv then failE s x (eACCESS 0x0E)
      else .ok (putFixed s x ((threadsOf x.act).flatMap (vsplitRegs x.q gap pp vid via))))
    (ws := (threadsOf (runs p h q)).flatMap (vsplitRegs q gap pp vid via)) hI (by
      have hact' : (seen id q p h).act ≠ 0 := hact
      have hlv' : (!(seen id q p h).q.rasterLv) = false := by rw [show (seen id q p h).q = q from rfl, hlv]; rfl
      rw [if_neg hact', hlv']
      rfl)
  refine ⟨t, q', (show exec (.lfVsplit h gap pp vid via) s = _ from rfl).trans ht, hwent, honly, hsame, hpend, ?_⟩
  have hkeys : ∀ w ∈ (threadsOf (runs p h q)).flatMap (vsplitRegs q gap pp vid via), (regKey w).1 = 4 ∨ (regKey w).1 = 5 ∨ (regKey w).1 = 2 := by
    intro w hw
    obtain ⟨t, -, hw⟩ := List.mem_flatMap.1 hw
    rw [vsplitRegs_eq, List.mem_append, List.mem_append, List.mem_singleton] at hw
    rcases hw with (hw | hw) | rfl
    · exact (restW_keys q gap via t w hw).imp_right .inl
    · exact (pieceW_keys q gap vid via t w hw).imp_right .inl
    · exact .inr (.inr rfl)
  have hne (k : Nat) (h4 : k ≠ 4 := by decide) (h5 : k ≠ 5 := by decide) (h2 : k ≠ 2 := by decide) :
      ∀ w ∈ (threadsOf (runs p h q)).flatMap (vsplitRegs q gap pp vid via), (regKey w).1 ≠ k := by
    intro w hw
    have := hkeys w hw
    omega
  obtain ⟨hv, hs, hp, hb, hvi, him, hflg⟩ := hregs
  obtain ⟨gv, gs, -, gb, -, -⟩ := applyWs_other ((threadsOf (runs p h q)).flatMap (vsplitRegs q gap pp vid via)) q
  have hthread {t : Nat} (ht : t ∈ threadsOf (runs p h q)) : t < 32 := (mem_threadsOf.1 ht).1
  have hmem {u : Nat} (hu : u < 32) : u ∈ threadsOf (runs p h q) ↔ bitM (runs p h q) u = true := by simp [mem_threadsOf, hu]
  refine ⟨fun r u hu => ?_, fun r u hu => ?_, fun r u hu => ?_, hv.trans (gv (hne 0)), hs.trans (gs (hne 1)), hb.trans (gb (hne 3)),
    hflg.trans (applyWs_flg _ _ (hne 6))⟩
  · rw [rdIm, him, ← rdIm, applyWs_flatMap,
      foldl_threads (fun q => rdIm q r u) _ u _ _ (fun q1 t ht => rdIm_split q gap pp vid via (hthread ht) q1 r hu) q]
    simp only [hmem hu]
    by_cases hb : bitM (runs p h q) u = true
    · simp only [hb, true_and, if_true]
      refine (apply_ite (fun o => Option.getD o (rdIm q r u)) ..).trans (ite_congr rfl (fun _ => rfl) fun _ => ?_)
      by_cases h0 : unionMask q via u = 0
      · rw [if_neg fun h => h.1 h0]
        split
        next hr =>
          rw [restMask, if_pos h0, cellMask, Nat.add_sub_cancel' hr.1, BitVec.ofNat_toNat, BitVec.setWidth_eq]
          rfl
        next => rfl
      · simp only [h0, ne_eq, not_false_eq_true, true_and]
        exact apply_ite (fun o => Option.getD o (rdIm q r u)) ..
    · simp [hb]
  · rw [rdVi, hvi, ← rdVi, applyWs_flatMap,
      foldl_threads (fun q => rdVi q r u) _ u _ _ (fun q1 t ht => rdVi_split q gap pp vid via (hthread ht) q1 r hu) q]
    simp only [hmem hu]
    by_cases hb : bitM (runs p h q) u = true
    · simp only [hb, true_and, if_true]
      refine (apply_ite (fun o => Option.getD o (rdVi q r u)) ..).trans (ite_congr rfl (fun _ => rfl) fun _ => ?_)
      refine (apply_ite (fun o => Option.getD o (rdVi q r u)) ..).trans (ite_congr (by rw [and_comm, and_assoc]) (fun hr => ?_) fun _ => rfl)
      rw [cellInterval, Nat.add_sub_cancel' hr.1]
      rfl
    · simp [hb]
  · rw [rdP, hp, ← rdP, applyWs_flatMap,
      foldl_threads (fun q => rdP q r u) _ u _ _ (fun q1 t ht => rdP_split q gap pp vid via (t := t) q1 r hu) q]
    simp only [hmem hu]
    by_cases hb : bitM (runs p h q) u = true
    · simp only [hb, true_and, if_true]
      exact apply_ite (fun o => Option.getD o (rdP q r u)) ..
    · simp [hb]

end

end Sys2Proof.Machine
end

section

namespace Sys2Proof.Machine

/-! ### Interpolation (R337) -/

/-- Value, gradient and flags of R337 for a primitive, a cell centre and three attributes, each operation collecting its flags. -/
def interpFlagged (p : Prim) (x2 y2 ec2 : Int) (a0 a1 a2 : Nat) : Nat × Nat × Nat :=
  let d := gOf (disparity p x2 y2 ec2)
  let ys := gOf (f32Int y2 (-1))
  let xc := gSub (gOf (f32Int x2 (-1))) (gMul d (gOf (f32Int ec2 (-1))))
  let l1 := gAdd (gAdd (gMul (gOf p.l1x) xc) (gMul (gOf p.l1y) ys)) (gOf p.l10)
  let l2 := gAdd (gAdd (gMul (gOf p.l2x) xc) (gMul (gOf p.l2y) ys)) (gOf p.l20)
  let g1 := gSub (gOf a1) (gOf a0)
  let g2 := gSub (gOf a2) (gOf a0)
  let v := gAdd (gAdd (gOf a0) (gMul g1 l1)) (gMul g2 l2)
  let ax := gAdd (gMul g1 (gOf p.l1x)) (gMul g2 (gOf p.l2x))
  let gr := gNeg (gDiv (gMul ax d) (gOf (denAt p ec2)))
  (v.1, gr.1, v.2 ||| gr.2)

section
variable (q : Squad) (k va vb t : Nat)

/-- Doubled centre and view of a thread's cell. -/
def centreX2 : Int := 2 * (posOf q vb t).x + q.rasterRx + 1
def centreY2 : Int := 2 * (posOf q vb t).y + q.rasterRy + 1
def viewSum : Int := botBit (unionMask q k t) + topBit (unionMask q k t) - (primViews (latchOf q) : Nat) + 1
/-- The attributes of the vertices, the last two exchanged as the record says. -/
def attrOf (i : Nat) : Nat :=
  (rdV q (va + if (latchOf q).ctrl.testBit 2 then (3 - i) % 3 else i) t).toNat

theorem interpAt_flagged (h0 : unionMask q k t ≠ 0) : interpAt q k va vb t =
    interpFlagged (latchOf q) (centreX2 q vb t) (centreY2 q vb t) (viewSum q k t) (attrOf q va t 0) (attrOf q va t 1) (attrOf q va t 2) := by
  have hx : (2 * (posOf q vb t).x + (cellRx q : Nat) : Int) = centreX2 q vb t := by
    rw [centreX2, cellRx]
    push_cast
    ring
  have hy : (2 * (posOf q vb t).y + (cellRy q : Nat) : Int) = centreY2 q vb t := by
    rw [centreY2, cellRy]
    push_cast
    ring
  rw [← hx, ← hy, interpAt]
  simp only [if_neg h0]
  unfold attrOf
  cases (latchOf q).ctrl.testBit 2 <;> rfl

end

/-- The flags of the operations of R337, gathered operand by operand, are those of all of them. -/
theorem gathered_flags (de xc s1 w1 n1 c1 s2 w2 n2 c2 g1 g2 t1 t2 h v b1 b2 ax n r : Nat) :
    let fx := xc ||| 0 ||| (de ||| 0 ||| 0)
    let line (s w n c : Nat) := c ||| (n ||| (s ||| 0 ||| fx) ||| (w ||| 0 ||| 0)) ||| 0
    let fa := ax ||| (b1 ||| (g1 ||| 0 ||| 0) ||| 0) ||| (b2 ||| (g2 ||| 0 ||| 0) ||| 0)
    v ||| (h ||| 0 ||| (t1 ||| (g1 ||| 0 ||| 0) ||| line s1 w1 n1 c1)) ||| (t2 ||| (g2 ||| 0 ||| 0) ||| line s2 w2 n2 c2) |||
        (r ||| (n ||| fa ||| 0) ||| 0) =
      de ||| xc ||| (s1 ||| w1 ||| n1 ||| c1) ||| (s2 ||| w2 ||| n2 ||| c2) ||| g1 ||| g2 ||| t1 ||| t2 ||| h ||| v ||| b1 ||| b2 |||
        ax ||| n ||| r := by
  refine Nat.eq_of_testBit_eq fun i => ?_
  simp only [Nat.testBit_or, Nat.zero_testBit, Bool.or_false]
  grind

section
variable (q : Squad) (k va vb t : Nat)

theorem interpolated_flagged (h0 : unionMask q k t ≠ 0) : interpolated q k va vb t =
    interpFlagged (latchOf q) (centreX2 q vb t) (centreY2 q vb t) (viewSum q k t) (attrOf q va t 0) (attrOf q va t 1) (attrOf q va t 2) := by
  unfold interpolated interpFlagged attrOf
  simp only [if_neg h0]
  unfold gAdd gSub gMul gDiv gNeg gOf
  generalize mulF fp32 .rne = mul
  generalize addF fp32 .rne = sum
  generalize subF fp32 .rne = diff
  generalize divF .rne = quotient
  generalize encodeF fp32 .rne = code
  cases (latchOf q).ctrl.testBit 2
  · exact Prod.ext rfl (Prod.ext rfl (gathered_flags ..).symm)
  · exact Prod.ext rfl (Prod.ext rfl (gathered_flags ..).symm)

end

end Sys2Proof.Machine
end

section

namespace Sys2Proof.Machine

/-- The value and the gradient are FP32 codes. -/
theorem interpFlagged_lt (p : Prim) (x2 y2 ec2 : Int) (a0 a1 a2 : Nat) :
    (interpFlagged p x2 y2 ec2 a0 a1 a2).1 < 2 ^ 32 ∧ (interpFlagged p x2 y2 ec2 a0 a1 a2).2.1 < 2 ^ 32 :=
  ⟨(scalarCode_addF .f32 .rne _ _).lt, (scalarCode_encodeF .f32 .rne _).lt⟩

theorem interpolated_lt (q : Squad) (k va vb t : Nat) :
    (interpolated q k va vb t).1 < 2 ^ 32 ∧ (interpolated q k va vb t).2.1 < 2 ^ 32 := by
  by_cases h0 : unionMask q k t = 0
  · rw [show interpolated q k va vb t = (0, 0, 0) from if_pos h0]
    decide
  · rw [interpolated_flagged q k va vb t h0]
    exact interpFlagged_lt ..

theorem interpAt_eq (q : Squad) (k va vb t : Nat) : interpAt q k va vb t = interpolated q k va vb t := by
  by_cases h0 : unionMask q k t = 0
  · rw [show interpolated q k va vb t = (0, 0, 0) from if_pos h0]
    exact if_pos h0
  · rw [interpAt_flagged q k va vb t h0, interpolated_flagged q k va vb t h0]

/-! ### Positions (R341) -/

theorem posFault_none {s : State} {x : Iss} {k vb : Nat} (h : positionsFit s x.q x.act k vb) : posFault s x k vb = none := by
  obtain ⟨hlv, hpos⟩ := h
  have hfits : ∀ t ∈ (threadsOf x.act).filter fun t => unionMask x.q k t != 0,
      (posOf x.q vb t).tile < (trOf s x.q).ntile ∧ (posOf x.q vb t).px + x.q.rasterRx < 8 ∧ (posOf x.q vb t).py + x.q.rasterRy < 8 := by
    intro t ht
    obtain ⟨ht, hm⟩ := List.mem_filter.1 ht
    obtain ⟨h32, hact⟩ := mem_threadsOf.1 ht
    exact hpos t h32 hact (by simpa using hm)
  have hnone {c : Nat × Pos → Bool} (hc : ∀ t ∈ (threadsOf x.act).filter fun t => unionMask x.q k t != 0, c (t, posOf x.q vb t) = false) :
      ((((threadsOf x.act).filter fun t => unionMask x.q k t != 0).map fun t => (t, posOf x.q vb t)).filter c) = [] := by
    rw [List.filter_eq_nil_iff]
    intro e he
    obtain ⟨t, ht, rfl⟩ := List.mem_map.1 he
    rw [hc t ht]
    exact Bool.false_ne_true
  unfold posFault
  dsimp only
  rw [hlv, hnone fun t ht => ?_, hnone fun t ht => ?_]
  · rfl
  · obtain ⟨-, hx, hy⟩ := hfits t ht
    simp only [cellRx, cellRy]
    simp
    omega
  · obtain ⟨htile, -, -⟩ := hfits t ht
    simp
    omega

section
variable {s : State} {id : Nat} {q : Squad} {p : Path} {h : Hdr}

theorem trOf_issued {cls : Nat} (hI : Issues s id q p h cls) (occ : Occ) (q1 : Squad) : trOf (issued s id q p h cls occ) q1 = trOf s q1 := by
  obtain ⟨-, -, -, heq, -⟩ := issued_squad s id q p h cls occ hI
  rw [heq]
  rfl

/-- A pair of registers that a thread receives as one value. -/
theorem getsV_of_gets {vd : Nat} {act : Mask} {q' : Squad} {f : Nat → Nat} (hg : Gets .u64 (.v vd false false) act q q' fun u => (f u : Nat)) :
    GetsV vd 2 act q q' fun u => (f u : Nat) := by
  obtain ⟨-, -, -, hv⟩ := hg
  intro r u hu
  rw [hv r u hu]
  by_cases h0 : r = vd
  · subst h0
    simp
  · by_cases h1 : r = vd + 1
    · subst h1
      simp [tyW]
    · rw [if_neg fun h => h0 h.2, if_neg fun h => h1 h.2.2, if_neg fun h => by omega]

theorem interp_owes (k vd va vb : Nat) (hI : Issues s id q p h 2) (hact : runs p h q ≠ 0) (hfit : positionsFit s q (runs p h q) k vb) :
    Owes (.lfInterp h k vd va vb) s id q p h OnlySquads fun q' =>
      GetsV vd 2 (runs p h q) q q' (fun u => ((interpolated q k va vb u).1 + 2 ^ 32 * (interpolated q k va vb u).2.1 : Nat)) ∧
      q'.flg = stuck (.v vd false false) (runs p h q) q.flg (fun u => (interpolated q k va vb u).2.2) ∧
      SameRegs { q with v := q'.v, flg := q'.flg } q' := by
  have hact' : (seen id q p h).act ≠ 0 := hact
  have hpos : posFault (issued s id q p h 2 (.per 2)) (seen id q p h) k vb = none := posFault_none (by
    unfold positionsFit
    rw [trOf_issued hI]
    exact hfit)
  have hws (t : Nat) : [RegW.v vd t (BitVec.ofNat 32 (interpAt q k va vb t).1), .v (vd + 1) t (BitVec.ofNat 32 (interpAt q k va vb t).2.1)] ++
      flagW (interpAt q k va vb t).2.2 = resultW .u64 (.v vd false false)
        (fun u => ((interpolated q k va vb u).1 + 2 ^ 32 * (interpolated q k va vb u).2.1, (interpolated q k va vb u).2.2)) t := by
    obtain ⟨h1, h2⟩ := interpolated_lt q k va vb t
    have hlow : BitVec.ofNat 32 ((interpolated q k va vb t).1 + 2 ^ 32 * (interpolated q k va vb t).2.1) =
        BitVec.ofNat 32 (interpolated q k va vb t).1 := BitVec.eq_of_toNat_eq (by simp only [BitVec.toNat_ofNat]; omega)
    have hhigh : ((interpolated q k va vb t).1 + 2 ^ 32 * (interpolated q k va vb t).2.1) / 2 ^ 32 = (interpolated q k va vb t).2.1 := by
      omega
    rw [interpAt_eq]
    show _ = [RegW.v vd t (BitVec.ofNat 32 _), .v (vd + 1) t (BitVec.ofNat 32 (_ / 2 ^ 32))] ++ _
    rw [hlow, hhigh]
  refine owes_later (occ := .per 2) (cls := 2)
    (body := fun x s => if x.act = 0 then .ok s else match posFault s x k vb with
      | some f => .fault s f
      | none => .ok (putLater s x ((threadsOf x.act).flatMap fun t =>
          let r := interpAt x.q k va vb t
          [RegW.v vd t (BitVec.ofNat 32 r.1), RegW.v (vd + 1) t (BitVec.ofNat 32 r.2.1)] ++ flagW r.2.2)))
    (ws := (execThreads (.v vd false false) (runs p h q)).flatMap (resultW .u64 (.v vd false false)
      (fun u => ((interpolated q k va vb u).1 + 2 ^ 32 * (interpolated q k va vb u).2.1, (interpolated q k va vb u).2.2)))) hI rfl ?_
    (results_eq_nil (.inl ⟨_, _, _, rfl⟩) _ _) fun q' hregs => ?_
  · rw [if_neg hact', hpos, ← funext hws]
    rfl
  · obtain ⟨hg, hp, hb, hflg⟩ := gets_results (.inl ⟨_, _, _, rfl⟩) (fun hu => by cases hu) hregs
    refine ⟨getsV_of_gets hg, hflg, ?_⟩
    obtain ⟨hs, hvi, him, -⟩ := hg
    exact ⟨rfl, hs, hp, hb, hvi, him, rfl⟩

/-! ### Rates and views (R339, R340) -/

/-- The rates that a word sets. -/
def withRates (v : Nat) (q : Squad) : Squad := { q with rasterRx := v % 2, rasterRy := v / 2 % 2, rasterRvc := v / 4 }
def rateBody (b : Opnd) (x : Iss) (s : State) : Res :=
  if x.act = 0 then .ok s
  else if rdScal x.q b / 32 ≠ 0 ∨ rdScal x.q b / 4 > 5 then failE s x (eACCESS 4)
  else .ok (modSquad s x.id (withRates (rdScal x.q b)))

theorem exec_lfRate (h : Hdr) (b : Opnd) (s : State) : exec (.lfRate h b) s = issue h 1 (.once 1) s (rateBody b) := rfl

theorem rate_done (b : Opnd) (hI : Issues s id q p h 1) (hact : runs p h q ≠ 0) (hb : rdScal q b < 24) :
    ∃ t q', exec (.lfRate h b) s = .next t ∧ Went s t id q q' p h ∧ OnlySquads s t ∧ SameRegs q q' ∧
      SameSquad (withRates (rdScal q b) q) q' := by
  have hok : ¬ (rdScal q b / 32 ≠ 0 ∨ rdScal q b / 4 > 5) := by omega
  obtain ⟨t, q', q1, ht, hturned, honly, -, he, hqe⟩ := squad_done (occ := .once 1) (body := rateBody b) (f := withRates (rdScal q b)) hI
    ((if_neg hact).trans (if_neg hok)) (fun _ => rfl) (fun _ => rfl) (fun _ => rfl)
  have hpaths : q'.paths = q.paths.map fun a => if a.entry = p.entry then { a with pc := nextPc a.pc } else a := by
    rw [hqe, he]
    rfl
  refine ⟨t, q', (exec_lfRate h b s).trans ht, ⟨hturned.squad, hturned.others, hpaths, hturned.wait, hturned.fault, hturned.settling⟩,
    honly, ?_, ?_⟩
  · rw [hqe, he]
    simp [SameRegs, withRates, advance, modPath]
  · unfold SameSquad
    rw [hqe, he]
    rfl

theorem views_owes (sd : Nat) (hI : Issues s id q p h 1) (hact : runs p h q ≠ 0) :
    Owes (.lfViews h sd) s id q p h OnlySquads fun q' => GetsS sd q q' (trOf s q).band ∧ SameRegs { q with s := q'.s } q' := by
  have hact' : (seen id q p h).act ≠ 0 := hact
  refine owes_later (occ := .once 1) (cls := 1)
    (body := fun x s => if x.act = 0 then .ok s else .ok (putLater s x [.s sd (trOf s x.q).band]))
    (ws := [.s sd (trOf s q).band]) hI rfl ((if_neg hact').trans ?_) (iff_of_false (List.cons_ne_nil _ _) hact) fun q' hregs => ?_
  · rw [trOf_issued hI]
    rfl
  · obtain ⟨hs, hflg, hv, hp, hb, hvi, him⟩ := getsS_of_write (k := 0) hregs
    exact ⟨hs, hv, rfl, hp, hb, hvi, him, hflg.trans BitVec.or_zero⟩

theorem bandViews_lt (band : W64) (b : Nat) : bandViews band b < 2 ^ 32 := by
  unfold bandViews
  dsimp only
  split <;> omega

theorem viewsV_owes {d : Opnd} (hd : (∃ n a b, d = .v n a b) ∨ ∃ n a b, d = .s n a b) (band : Nat) (hI : Issues s id q p h 1) :
    Owes (.lfViewsV h d band) s id q p h OnlySquads fun q' =>
      Gets .u32 d (runs p h q) q q' (fun _ => bandViews (trOf s q).band band) ∧ q'.p = q.p ∧ q'.b = q.b ∧ q'.flg = q.flg := by
  have hws : (resultW .u32 d fun _ => (bandViews (trOf s q).band band, 0)) = fun t => wrInt 32 false d t (bandViews (trOf s q).band band) :=
    funext fun t => resultW_noFlags ..
  refine owes_later (occ := .once 1) (cls := 1)
    (body := fun x s => .ok (putLater s x (broadcast d x.act 32 false (bandViews (trOf s x.q).band band))))
    (ws := (execThreads d (runs p h q)).flatMap (resultW .u32 d fun _ => (bandViews (trOf s q).band band, 0))) hI rfl ?_
    (results_eq_nil hd _ _) fun q' hregs => ?_
  · rw [trOf_issued hI, hws]
    rfl
  · obtain ⟨hg, hp, hb, hflg⟩ := gets_results hd (fun _ _ _ => bandViews_lt _ _) hregs
    rw [stuck_zero] at hflg
    exact ⟨hg, hp, hb, hflg⟩

end

/-- Settles O46: the split writes the piece and the remainder of each cell, the interpolation is that of R337 with the same flags, and
rates and views follow R339 and R340. -/
theorem cellsAndRates : Obligations.CellsAndRates := by
  intro h s id q p hact act
  exact ⟨fun gap pp vid via hI hlv => vsplit_writes gap pp vid via hI hact hlv,
    fun k vd va vb hI hfit => interp_owes k vd va vb hI hact hfit,
    fun b hI hb => rate_done b hI hact hb,
    fun sd hI => views_owes sd hI hact,
    fun d band hwf hI => viewsV_owes (wf_dst (al := 1) (vsrc := false) hwf rfl) band hI⟩

end Sys2Proof.Machine
end

section

namespace Sys2Proof.Machine

/-! ### Values of elements (R53-R61) -/

section
variable {f : FloatFmt} {l : Fields}

/-- Only the code's own bits count. -/
theorem decodeIeee_mod (hf : Matches f l) (c : Nat) : decodeIeee f (c % 2 ^ (1 + l.expo + l.frac)) = decodeIeee f c := by
  have hfrac : fractionOf l (c % 2 ^ (1 + l.expo + l.frac)) = fractionOf l c :=
    Nat.mod_mod_of_dvd c (pow_dvd_pow 2 (by omega))
  have hexp : expOf l (c % 2 ^ (1 + l.expo + l.frac)) = expOf l c := by
    rw [expOf, expOf, show 1 + l.expo + l.frac = l.frac + (l.expo + 1) by omega, pow_add, Nat.mod_mul_right_div_self,
      Nat.mod_mod_of_dvd _ (pow_dvd_pow 2 (by omega))]
  have hsign : signOf l (c % 2 ^ (1 + l.expo + l.frac)) = signOf l c := by
    rw [← signOf_eq, ← signOf_eq, show 1 + l.expo + l.frac = l.expo + l.frac + 1 by omega, pow_add, Nat.mod_mul_right_div_self, pow_one,
      Nat.mod_mod]
  rw [decodeIeee_eq hf, decodeIeee_eq hf, hfrac, hexp, hsign]

theorem decodeIeee_low (hf : Matches f l) (hs : HasSpecials l) (c : Nat) : StandsFor l (c % 2 ^ (1 + l.expo + l.frac)) (decodeIeee f c) := by
  rw [← decodeIeee_mod hf]
  exact decodeIeee_standsFor hf hs (Nat.mod_lt c (Nat.two_pow_pos _))

end

theorem decodeF8e4_low (c : Nat) : StandsFor f8e4Fields (c % 256) (decodeF8e4 c) := by
  have hmod : decodeF8e4 (c % 256) = decodeF8e4 c := by
    unfold decodeF8e4
    rw [show c % 256 / 128 % 2 = c / 128 % 2 by omega, show c % 256 % 128 = c % 128 by omega, show c % 256 / 8 % 16 = c / 8 % 16 by omega,
      show c % 256 % 8 = c % 8 by omega]
  rw [← hmod]
  exact decodeF8e4_standsFor _

theorem decodeF4_low (xv : Nat) {c : Nat} (h8 : c % 16 ≠ 8) : StandsFor f4Fields (c % 16) (decodeF4 xv c) := by
  have hmod : decodeF4 xv (c % 16) = decodeF4 xv c := by
    unfold decodeF4
    rw [show c % 16 % 16 = c % 16 by omega, show c % 16 / 8 % 2 = c / 8 % 2 by omega, show c % 16 / 2 % 4 = c / 2 % 4 by omega,
      show c % 16 % 2 = c % 2 by omega]
  rw [← hmod]
  exact decodeF4_standsFor xv (Nat.mod_lt c (by decide)) h8

theorem numberOf_scaleV (k : Int) (n : Bool) (m : Nat) (e : Int) :
    numberOf (scaleV k (.fin n m e)) = numberOf (.fin n m e) * 2 ^ k := by
  simp only [scaleV, numberOf, zpow_add₀ (two_ne_zero (α := ℚ)), mul_assoc]

theorem scaled_scaleV (k : Int) (v : FV) : Scaled k v (scaleV k v) := by
  cases v with
  | nan => rfl
  | inf n => rfl
  | fin n m e => exact ⟨m, e + k, rfl, numberOf_scaleV k n m e⟩

section
variable {book : Nat → Nat} {sc c : Nat}

theorem elemVal_scaled (h0 : sc ≠ 0) (h255 : sc ≠ 255) {code : Nat} (hdx : isDx code = false) (h30 : code ≠ 0x30 ∨ c % 16 ≠ 8)
    (h60 : code ≠ 0x60) : elemVal book code sc c =
      scaleV ((sc : Int) - 127) (elemFace 0 (if 0x68 ≤ code ∧ code ≤ 0x6C then zbBase code else code) c) := by
  rw [elemVal, if_neg h0, if_neg h255, hdx, if_neg Bool.false_ne_true, if_neg (by omega), if_neg h60]
  split <;> rfl

end

theorem elementValues : ElementValuesRule := by
  intro book sc c hsc hbook hc val scaled
  refine ⟨fun code => ⟨fun h0 => if_pos h0, fun h255 => ?_⟩, fun h0 h255 => ?_⟩
  · show elemVal book code sc c = .nan
    rw [elemVal, if_neg (by omega), if_pos h255]
  have hval {code : Nat} (hdx : isDx code = false) (h30 : code ≠ 0x30 ∨ c % 16 ≠ 8) (h60 : code ≠ 0x60) :=
    elemVal_scaled (book := book) (c := c) h0 h255 hdx h30 h60
  have hscaled {l : Fields} {x code : Nat} (v0 : FV) (hv0 : StandsFor l x v0) (hcode : val code = scaleV ((sc : Int) - 127) v0) :
      scaled l x (val code) := ⟨v0, hv0, hcode ▸ scaled_scaleV _ _⟩
  have hint {w : Nat} (signed : Bool) {code : Nat} (hw : 0 < w) (hcode : val code = scaleV ((sc : Int) - 127) (decodeInt w signed c)) :
      ∃ n m k, val code = .fin n m k ∧ numberOf (val code) =
        (if signed then (BitVec.ofNat w c).toInt else ((c % 2 ^ w : Nat) : Int)) * (2 : ℚ) ^ ((sc : Int) - 127) := by
    obtain ⟨n, m, e, hd, hv⟩ : ∃ n m e, decodeInt w signed c = .fin n m e ∧
        numberOf (decodeInt w signed c) = (if signed then (BitVec.ofNat w c).toInt else ((c % 2 ^ w : Nat) : Int) : Int) := by
      cases signed
      · exact ⟨false, c % 2 ^ w, 0, rfl, (numberOf_decodeInt_unsigned w c).trans (Int.cast_natCast _).symm⟩
      · exact decodeInt_signed hw c
    refine ⟨n, m, e + ((sc : Int) - 127), by rw [hcode, hd]; rfl, ?_⟩
    rw [hcode, hd, numberOf_scaleV, ← hd, hv]
  refine ⟨?_, ?_, ?_, ?_, ?_, ?_, ?_, ?_, ?_⟩
  · refine hscaled (decodeIeee fp32 c) (decodeIeee_standsFor matches_fp32 (hasSpecials_fieldsOf .f32) hc) (hval rfl (.inl (by decide)) (by decide))
  · intro code hcode
    refine hscaled (decodeIeee fp16 c) (decodeIeee_low matches_fp16 (hasSpecials_fieldsOf .f16) c) ?_
    simp only [List.mem_cons, List.not_mem_nil, or_false] at hcode
    rcases hcode with rfl | rfl <;> exact hval rfl (.inl (by decide)) (by decide)
  · intro code hcode
    refine hscaled (decodeIeee bf16 c) (decodeIeee_low matches_bf16 (hasSpecials_fieldsOf .bf16) c) ?_
    simp only [List.mem_cons, List.not_mem_nil, or_false] at hcode
    rcases hcode with rfl | rfl <;> exact hval rfl (.inl (by decide)) (by decide)
  · intro code hcode
    refine hscaled (decodeF8e4 c) (decodeF8e4_low c) ?_
    simp only [List.mem_cons, List.not_mem_nil, or_false] at hcode
    rcases hcode with rfl | rfl <;> exact hval rfl (.inl (by decide)) (by decide)
  · intro code hcode
    refine hscaled (decodeIeee f8e5 c) (decodeIeee_low matches_f8e5 hasSpecials_f8e5 c) ?_
    simp only [List.mem_cons, List.not_mem_nil, or_false] at hcode
    rcases hcode with rfl | rfl <;> exact hval rfl (.inl (by decide)) (by decide)
  · split
    next h8 =>
      have hface : val 0x30 = decodeIeee fp16 (book 0) := by
        show elemVal book 0x30 sc c = _
        rw [elemVal, if_neg h0, if_neg h255, if_neg (by decide), if_pos ⟨rfl, h8⟩]
      rw [hface]
      exact decodeIeee_standsFor matches_fp16 (hasSpecials_fieldsOf .f16) (hbook 0)
    next h8 => exact hscaled (decodeF4 0 c) (decodeF4_low 0 h8) (hval rfl (.inr h8) (by decide))
  · refine hscaled (decodeIeee fp16 (book (c % 16))) (decodeIeee_standsFor matches_fp16 (hasSpecials_fieldsOf .f16) (hbook _)) ?_
    show elemVal book 0x60 sc c = _
    rw [elemVal, if_neg h0, if_neg h255, if_neg (by decide), if_neg (by omega), if_pos rfl]
  · intro e he
    simp only [List.mem_cons, List.not_mem_nil, or_false] at he
    rcases he with rfl | rfl | rfl | rfl
    · exact hint true (by decide) (hval rfl (.inl (by decide)) (by decide))
    · exact hint false (by decide) (hval rfl (.inl (by decide)) (by decide))
    · exact hint true (by decide) (hval rfl (.inl (by decide)) (by decide))
    · exact hint true (by decide) (hval rfl (.inl (by decide)) (by decide))
  · intro code hdx
    obtain ⟨n, m, k, hd, hz, hv⟩ := decodeDx_number hdx h255 h0 c
    have hface : val code = .fin n m k := by
      show elemVal book code sc c = _
      rw [elemVal, if_neg h0, if_neg h255, if_pos hdx, hd]
    exact ⟨n, m, k, hface, hz, by rw [hface, hv]⟩

end Sys2Proof.Machine
end

section

namespace Sys2Proof.Machine

/-! ### Exact products (R50, R67) -/

/-- The table of exact products: NaN, an infinity times zero, an infinity, two numbers. -/
theorem mulV_table (x y : FV) :
    let inf (v : FV) : Prop := ∃ n, v = .inf n
    let zero (v : FV) : Prop := ∃ n e, v = .fin n 0 e
    let neg := signV x != signV y
    (x = .nan ∨ y = .nan → mulV x y = (.nan, 0)) ∧
    (inf x ∧ zero y ∨ zero x ∧ inf y → mulV x y = (.nan, 1)) ∧
    (inf x ∧ y ≠ .nan ∧ ¬ zero y ∨ x ≠ .nan ∧ ¬ zero x ∧ inf y → mulV x y = (.inf neg, 0)) ∧
    ((∃ n m e, x = .fin n m e) → (∃ n m e, y = .fin n m e) →
      ∃ m e, mulV x y = (.fin neg m e, 0) ∧ numberOf (.fin neg m e) = numberOf x * numberOf y) := by
  intro inf zero neg
  refine ⟨mulV_nan x y, ?_, ?_, ?_⟩
  · rintro (⟨⟨n, rfl⟩, ⟨m, e, rfl⟩⟩ | ⟨⟨m, e, rfl⟩, ⟨n, rfl⟩⟩) <;> rfl
  · rintro (⟨⟨n, rfl⟩, hnan, hzero⟩ | ⟨hnan, hzero, ⟨n, rfl⟩⟩)
    · cases y with
      | nan => exact absurd rfl hnan
      | inf k => rfl
      | fin k m e => exact if_neg fun hm => hzero ⟨k, e, by rw [hm]⟩
    · cases x with
      | nan => exact absurd rfl hnan
      | inf k => rfl
      | fin k m e => exact if_neg fun hm => hzero ⟨k, e, by rw [hm]⟩
  · rintro ⟨n, m, e, rfl⟩ ⟨k, j, f, rfl⟩
    exact ⟨_, _, rfl, numberOf_mul n k m j e f⟩

/-! ### The sum of a group (R67) -/

/-- The unit in which a group's finite products are whole, and their sum in units. -/
def groupUnit (ps : List (FV × Nat)) (l : Int) : Int :=
  ps.foldl (fun l p => match p.1 with | .fin _ m e => if m = 0 then l else min l e | _ => l) l
def groupInt (l : Int) (ps : List (FV × Nat)) (x : Int) : Int :=
  ps.foldl (fun (x : Int) p => match p.1 with | .fin n m e => x + (if m = 0 then 0 else signedAt n m e l) | _ => x) x

theorem groupUnit_le (ps : List (FV × Nat)) (l : Int) :
    groupUnit ps l ≤ l ∧ ∀ p ∈ ps, ∀ n m e, p.1 = .fin n m e → m ≠ 0 → groupUnit ps l ≤ e := by
  induction ps generalizing l with
  | nil => exact ⟨le_rfl, fun p hp => absurd hp List.not_mem_nil⟩
  | cons p ps ih =>
    have hstep (n : Bool) (m : Nat) (e : Int) (hp : p.1 = .fin n m e) : groupUnit (p :: ps) l = groupUnit ps (if m = 0 then l else min l e) := by
      unfold groupUnit
      rw [List.foldl_cons, hp]
    have hother (hp : ∀ n m e, p.1 ≠ .fin n m e) : groupUnit (p :: ps) l = groupUnit ps l := by
      unfold groupUnit
      rw [List.foldl_cons]
      cases hv : p.1 with
      | fin n m e => exact absurd hv (hp n m e)
      | _ => rfl
    by_cases hfin : ∃ n m e, p.1 = .fin n m e
    · obtain ⟨n, m, e, hp⟩ := hfin
      rw [hstep n m e hp]
      obtain ⟨hle, hall⟩ := ih (if m = 0 then l else min l e)
      refine ⟨hle.trans (by split <;> omega), fun a ha k j f hv hj => ?_⟩
      rcases List.mem_cons.1 ha with rfl | ha
      · rw [hp] at hv
        cases hv
        rw [if_neg hj] at hle ⊢
        omega
      · exact hall a ha k j f hv hj
    · have hp : ∀ n m e, p.1 ≠ .fin n m e := fun n m e h => hfin ⟨n, m, e, h⟩
      rw [hother hp]
      obtain ⟨hle, hall⟩ := ih l
      refine ⟨hle, fun a ha k j f hv hj => ?_⟩
      rcases List.mem_cons.1 ha with rfl | ha
      · exact absurd hv (hp k j f)
      · exact hall a ha k j f hv hj

theorem groupInt_sum (l : Int) (ps : List (FV × Nat)) (hfin : ∀ p ∈ ps, ∃ n m e, p.1 = .fin n m e ∧ (m ≠ 0 → l ≤ e)) (x : Int) :
    (groupInt l ps x : ℚ) * 2 ^ l = x * 2 ^ l + (ps.map fun p => numberOf p.1).sum := by
  induction ps generalizing x with
  | nil => simp [groupInt]
  | cons p ps ih =>
    obtain ⟨n, m, e, hp, hle⟩ := hfin p List.mem_cons_self
    have hstep : groupInt l (p :: ps) x = groupInt l ps (x + if m = 0 then 0 else signedAt n m e l) := by
      unfold groupInt
      rw [List.foldl_cons, hp]
    have hterm : ((if m = 0 then 0 else signedAt n m e l : Int) : ℚ) * 2 ^ l = numberOf (.fin n m e) := by
      by_cases hm : m = 0
      · rw [if_pos hm, hm, numberOf_zero]
        simp
      · rw [if_neg hm, numberOf_signedAt n m (hle hm)]
    rw [hstep, ih fun a ha => hfin a (List.mem_cons_of_mem p ha), List.map_cons, List.sum_cons, hp, ← hterm]
    push_cast
    ring

/-- The NV bits of products, gathered. -/
theorem gathered_nv (ps : List (FV × Nat)) (hps : ∀ p ∈ ps, p.2 = 0 ∨ p.2 = 1) :
    ps.foldl (fun f p => f ||| p.2) 0 < 2 ∧ (ps.foldl (fun f p => f ||| p.2) 0 = 1 ↔ ∃ p ∈ ps, p.2 = 1) := by
  have hlt : ∀ (ps : List (FV × Nat)) (a : Nat), (∀ p ∈ ps, p.2 = 0 ∨ p.2 = 1) → a < 2 → ps.foldl (fun f p => f ||| p.2) a < 2 := by
    intro ps
    induction ps with
    | nil => exact fun a _ ha => ha
    | cons p ps ih =>
      intro a hps ha
      refine ih _ (fun b hb => hps b (List.mem_cons_of_mem p hb)) (Nat.or_lt_two_pow (n := 1) ha ?_)
      rcases hps p List.mem_cons_self with h | h <;> rw [h] <;> decide
  have h2 := hlt ps 0 hps (by decide)
  refine ⟨h2, ?_⟩
  have hbit := testBit_gathered (fun p : FV × Nat => p.2) 0 ps 0
  have hone {k : Nat} (hk : k < 2) : k.testBit 0 = true ↔ k = 1 := by
    rw [Nat.testBit_zero, decide_eq_true_eq]
    omega
  rw [hone h2] at hbit
  rw [hbit]
  simp only [Nat.zero_testBit, Bool.false_eq_true, false_or]
  refine exists_congr fun p => and_congr_right fun hp => hone ?_
  rcases hps p hp with h | h <;> omega

theorem groupSum_law (ps : List (FV × Nat)) (hps : ∀ p ∈ ps, p.2 = 0 ∨ p.2 = 1) :
    let has (v : FV) : Prop := ∃ p ∈ ps, p.1 = v
    let both : Prop := has (.inf false) ∧ has (.inf true)
    let r := groupSum ps
    (r.2 = 1 ↔ both ∨ ∃ p ∈ ps, p.2 = 1) ∧ r.2 < 2 ∧
    (has .nan ∨ both → r.1 = .nan) ∧
    (¬ has .nan → ¬ both → ∀ n, has (.inf n) → r.1 = .inf n) ∧
    (¬ has .nan → (∀ n, ¬ has (.inf n)) → ∃ n m e, r.1 = .fin n m e ∧ numberOf r.1 = (ps.map fun p => numberOf p.1).sum ∧
      (m = 0 → (n = true ↔ ps ≠ [] ∧ ∀ p ∈ ps, ∃ e, p.1 = .fin true 0 e))) := by
  intro has both r
  obtain ⟨h2, hnv⟩ := gathered_nv ps hps
  have hhas (v : FV) : (ps.any fun p => p.1 == v) = true ↔ has v := by simp [has]
  have hnan : (ps.any fun p => isNan p.1) = true ↔ has .nan := by
    rw [List.any_eq_true]
    refine exists_congr fun p => and_congr_right fun _ => ?_
    cases p.1 <;> simp [isNan]
  have hflag : ps.foldl (fun f p => f ||| p.2) 0 ||| fNV = 1 := by
    show _ ||| 1 = 1
    generalize ps.foldl (fun f p => f ||| p.2) 0 = fl at h2
    interval_cases fl <;> rfl
  by_cases hN : has .nan
  · have hr : r = (.nan, ps.foldl (fun f p => f ||| p.2) 0 |||
        flagIf ((ps.any fun p => p.1 == .inf false) && ps.any fun p => p.1 == .inf true) fNV) := if_pos (hnan.2 hN)
    have hboth : ((ps.any fun p => p.1 == .inf false) && ps.any fun p => p.1 == .inf true) = true ↔ both := by
      rw [Bool.and_eq_true, hhas, hhas]
    rw [hr]
    refine ⟨?_, ?_, fun _ => rfl, fun h => absurd hN h, fun h => absurd hN h⟩
    · rw [← hnv, ← hboth]
      cases ((ps.any fun p => p.1 == .inf false) && ps.any fun p => p.1 == .inf true)
      · simp [flagIf]
      · simpa [flagIf] using hflag
    · refine Nat.or_lt_two_pow (n := 1) h2 ?_
      cases ((ps.any fun p => p.1 == .inf false) && ps.any fun p => p.1 == .inf true) <;> decide
  by_cases hP : has (.inf false)
  · by_cases hM : has (.inf true)
    · have hr : r = (.nan, ps.foldl (fun f p => f ||| p.2) 0 ||| fNV) :=
        (if_neg fun h => hN (hnan.1 h)).trans (if_pos (by rw [(hhas _).2 hP, (hhas _).2 hM]; rfl))
      rw [hr, hflag]
      exact ⟨iff_of_true rfl (.inl ⟨hP, hM⟩), by decide, fun _ => rfl, fun _ h => absurd ⟨hP, hM⟩ h, fun _ h => absurd hP (h false)⟩
    · have hr : r = (.inf false, ps.foldl (fun f p => f ||| p.2) 0) :=
        (if_neg fun h => hN (hnan.1 h)).trans ((if_neg fun h => hM ((hhas _).1 (Bool.and_eq_true_iff.1 h).2)).trans (if_pos ((hhas _).2 hP)))
      rw [hr]
      refine ⟨hnv.trans (or_iff_right fun h => hM h.2).symm, h2, fun h => absurd h (not_or.2 ⟨hN, fun h => hM h.2⟩), fun _ _ n hn => ?_,
        fun _ h => absurd hP (h false)⟩
      cases n
      · rfl
      · exact absurd hn hM
  by_cases hM : has (.inf true)
  · have hr : r = (.inf true, ps.foldl (fun f p => f ||| p.2) 0) :=
      (if_neg fun h => hN (hnan.1 h)).trans ((if_neg fun h => hP ((hhas _).1 (Bool.and_eq_true_iff.1 h).1)).trans
        ((if_neg fun h => hP ((hhas _).1 h)).trans (if_pos ((hhas _).2 hM))))
    rw [hr]
    refine ⟨hnv.trans (or_iff_right fun h => hP h.1).symm, h2, fun h => absurd h (not_or.2 ⟨hN, fun h => hP h.1⟩), fun _ _ n hn => ?_,
      fun _ h => absurd hM (h true)⟩
    cases n
    · exact absurd hn hP
    · rfl
  have hfin : ∀ p ∈ ps, ∃ n m e, p.1 = .fin n m e ∧ (m ≠ 0 → groupUnit ps 0 ≤ e) := by
    intro p hp
    cases hv : p.1 with
    | nan => exact absurd ⟨p, hp, hv⟩ hN
    | inf n =>
      cases n
      · exact absurd ⟨p, hp, hv⟩ hP
      · exact absurd ⟨p, hp, hv⟩ hM
    | fin n m e => exact ⟨n, m, e, rfl, (groupUnit_le ps 0).2 p hp n m e hv⟩
  have hsum := groupInt_sum (groupUnit ps 0) ps hfin 0
  rw [Int.cast_zero, zero_mul, zero_add] at hsum
  have hr : r = if groupInt (groupUnit ps 0) ps 0 = 0
      then (.fin (!ps.isEmpty && ps.all fun p => p.1 matches .fin true 0 _) 0 0, ps.foldl (fun f p => f ||| p.2) 0)
      else (.fin (decide (groupInt (groupUnit ps 0) ps 0 < 0)) (groupInt (groupUnit ps 0) ps 0).natAbs (groupUnit ps 0),
        ps.foldl (fun f p => f ||| p.2) 0) :=
    (if_neg fun h => hN (hnan.1 h)).trans ((if_neg fun h => hP ((hhas _).1 (Bool.and_eq_true_iff.1 h).1)).trans
      ((if_neg fun h => hP ((hhas _).1 h)).trans (if_neg fun h => hM ((hhas _).1 h))))
  have hnone : ∀ n, ¬ has (.inf n) := fun n => by cases n <;> assumption
  generalize groupInt (groupUnit ps 0) ps 0 = x at hsum hr
  refine ⟨?_, ?_, fun h => absurd h (not_or.2 ⟨hN, fun h => hP h.1⟩), fun _ _ n hn => absurd hn (hnone n), fun _ _ => ?_⟩
  · rw [hr, apply_ite Prod.snd, ite_self]
    exact hnv.trans (or_iff_right fun h => hP h.1).symm
  · rw [hr, apply_ite Prod.snd, ite_self]
    exact h2
  · rw [hr]
    by_cases hx : x = 0
    · rw [if_pos hx]
      refine ⟨_, _, _, rfl, ?_, fun _ => ?_⟩
      · rw [← hsum, hx, numberOf_zero, Int.cast_zero, zero_mul]
      · rw [Bool.and_eq_true, List.all_eq_true, Bool.not_eq_true', List.isEmpty_eq_false_iff]
        refine and_congr_right fun _ => forall₂_congr fun p _ => ?_
        split
        next e hv => exact iff_of_true rfl ⟨e, hv⟩
        next hv => exact iff_of_false Bool.false_ne_true fun ⟨e, he⟩ => hv e he
    · rw [if_neg hx]
      exact ⟨_, _, _, rfl, (numberOf_int x _).trans hsum, fun h => absurd (Int.natAbs_eq_zero.1 h) hx⟩

theorem accAdd_law (acc : Nat) (g : FV × Nat) : ∃ r, BecomesFloat (fieldsOf .f32) .rne g.1 r ∧
    accAdd acc g = ((addF fp32 .rne acc r.1).1, (addF fp32 .rne acc r.1).2 ||| r.2 ||| g.2) :=
  ⟨encodeF fp32 .rne g.1, encodeF_becomes matches_fp32 .rne g.1, rfl⟩

end Sys2Proof.Machine
end

section

namespace Sys2Proof.Machine

/-! ### Groups of 32 (R67, R286) -/

/-- The product of two positions that both hold an element. -/
def pairProduct : Option (Option FV) → Option (Option FV) → Option (FV × Nat)
  | some (some x), some (some y) => some (mulV x y)
  | _, _ => none

theorem products_range (n : Nat) (a b : List (Option FV)) :
    products (a.take n) (b.take n) = (List.range n).filterMap fun k => pairProduct a[k]? b[k]? := by
  induction n generalizing a b with
  | zero => simp [products]
  | succ n ih =>
    rw [List.range_succ_eq_map, List.filterMap_cons, List.filterMap_map]
    cases a with
    | nil =>
      simp [products, pairProduct]
    | cons x a =>
      cases b with
      | nil =>
        have hnone : ∀ v, pairProduct v none = none := fun v => by rcases v with _ | _ | _ <;> rfl
        simp [products, hnone]
      | cons y b =>
        have hrest : (List.range n).filterMap ((fun k => pairProduct (x :: a)[k]? (y :: b)[k]?) ∘ Nat.succ) = products (a.take n) (b.take n) :=
          (ih a b).symm
        rw [hrest]
        cases x <;> cases y <;> rfl

theorem groupProducts_eq (a b : List (Option FV)) (j : Nat) :
    groupProducts a b j = products ((a.drop (32 * j)).take 32) ((b.drop (32 * j)).take 32) := by
  rw [products_range]
  refine List.filterMap_congr fun k _ => ?_
  rw [List.getElem?_drop, List.getElem?_drop]
  rfl

/-- One group after another, from group `j0` on. -/
theorem addGroups_from (a b : List (Option FV)) (n j0 : Nat) (hlen : a.length ≤ 32 * (j0 + n)) (acc : Nat × Nat) :
    addGroups n (a.drop (32 * j0)) (b.drop (32 * j0)) acc =
      ((List.range' j0 ((a.length + 31) / 32 - j0)).foldl (fun acc j =>
        ((accAdd acc.1 (groupSum (groupProducts a b j))).1, acc.2 ||| (accAdd acc.1 (groupSum (groupProducts a b j))).2)) acc) := by
  induction n generalizing j0 acc with
  | zero =>
    rw [show (a.length + 31) / 32 - j0 = 0 by omega]
    rfl
  | succ n ih =>
    by_cases hend : a.length ≤ 32 * j0
    · rw [show (a.length + 31) / 32 - j0 = 0 by omega, addGroups, List.drop_eq_nil_of_le hend]
      rfl
    · have hne : (a.drop (32 * j0)).isEmpty = false := by
        rw [List.isEmpty_eq_false_iff, Ne, List.drop_eq_nil_iff]
        exact hend
      have hnext := ih (j0 + 1) (by omega)
      rw [show (a.length + 31) / 32 - j0 = ((a.length + 31) / 32 - (j0 + 1)) + 1 by omega, List.range'_succ, List.foldl_cons, ← hnext,
        groupProducts_eq, addGroups, hne, if_neg Bool.false_ne_true, List.drop_drop, List.drop_drop,
        show 32 * j0 + 32 = 32 * (j0 + 1) by omega]

theorem addGroups_law (a b : List (Option FV)) (acc : Nat × Nat) (hlen : a.length ≤ 256) :
    addGroups 8 a b acc = (List.range ((a.length + 31) / 32)).foldl (fun acc j =>
      let r := accAdd acc.1 (groupSum (groupProducts a b j))
      (r.1, acc.2 ||| r.2)) acc := by
  rw [List.range_eq_range']
  exact addGroups_from a b 8 0 (by omega) acc

/-! ### Rows of operands (R273, R285) -/

theorem elemBits_cases (code : Nat) : elemBits code = 0 ∨ elemBits code = 4 ∨ elemBits code = 8 ∨ elemBits code = 16 ∨
    elemBits code = 32 ∧ code = 8 := by
  unfold elemBits
  split_ifs <;> simp [*]

/-- The width of a row's elements divides a register's and a block's. -/
theorem opWidth_eq (s : State) (o : Operand) : opWidth s o =
    if elemBits (slotTag s o.core o.slot 0 % 256) = 0 ∨ slotTag s o.core o.slot 0 % 256 = 8 then 8 else elemBits (slotTag s o.core o.slot 0 % 256) := by
  unfold opWidth opFirst opCode matWidth
  simp only [or_comm (a := slotTag s o.core o.slot 0 % 256 = 8)]
  split <;> rfl

theorem opWidth_cases (s : State) (o : Operand) : opWidth s o = 4 ∨ opWidth s o = 8 ∨ opWidth s o = 16 := by
  rw [opWidth_eq]
  rcases elemBits_cases (slotTag s o.core o.slot 0 % 256) with h | h | h | h | ⟨-, h⟩
  · rw [if_pos (.inl h)]
    omega
  · split <;> omega
  · split <;> omega
  · split <;> omega
  · rw [if_pos (.inr h)]
    omega

theorem slotElem_eq (s : State) (o : Operand) {w bit : Nat} (hw : w = 4 ∨ w = 8 ∨ w = 16) (hbit : w ∣ bit) :
    slotElem s o w bit = slotCode s o w bit := by
  have h0 := (rdSlot s o.core o.slot (bit / 8)).isLt
  have h1 := (rdSlot s o.core o.slot (bit / 8 + 1)).isLt
  unfold slotElem slotCode
  generalize (rdSlot s o.core o.slot (bit / 8)).toNat = x at *
  generalize (rdSlot s o.core o.slot (bit / 8 + 1)).toNat = y at *
  rcases hw with rfl | rfl | rfl
  · rw [if_neg (by decide), if_neg (by decide)]
    rcases (show bit % 8 = 0 ∨ bit % 8 = 4 by omega) with hb | hb <;> rw [hb] <;> omega
  · rw [if_neg (by decide), if_pos rfl, show bit % 8 = 0 by omega]
    omega
  · rw [if_pos rfl, show bit % 8 = 0 by omega]
    omega

section
variable (present : Nat → Nat → Bool) (k0 : Nat)

/-- Present positions of a row before `k`, in one numbering of the positions of all rows. -/
theorem rank_row (r : Nat) {k : Nat} (hk : k ≤ k0) :
    (((List.range k).map (r * k0 + ·)).filter fun n => present (n / k0) (n % k0)).length = ((List.range k).filter (present r)).length := by
  rw [List.filter_map, List.length_map]
  refine congrArg List.length (List.filter_congr fun j hj => ?_)
  have hlt : j < k0 := (List.mem_range.1 hj).trans_le hk
  have hdiv : (r * k0 + j) / k0 = r := by
    rw [mul_comm, Nat.mul_add_div (by omega), Nat.div_eq_of_lt hlt, add_zero]
  have hmod : (r * k0 + j) % k0 = j := by
    rw [mul_comm, Nat.mul_add_mod, Nat.mod_eq_of_lt hlt]
  show present ((r * k0 + j) / k0) ((r * k0 + j) % k0) = present r j
  rw [hdiv, hmod]

theorem rank_rows (r : Nat) : (List.range r).foldl (fun n i => n + ((List.range k0).filter (present i)).length) 0 =
    ((List.range (r * k0)).filter fun n => present (n / k0) (n % k0)).length := by
  induction r with
  | zero => rw [Nat.zero_mul]; rfl
  | succ r ih =>
    rw [List.range_succ, List.foldl_append, ih, Nat.succ_mul, List.range_add, List.filter_append, List.length_append,
      rank_row present k0 r le_rfl]
    rfl

theorem rank_position (r : Nat) {k : Nat} (hk : k ≤ k0) :
    (List.range (r + 1)).foldl (fun n i => n + ((List.range (if i = r then k else k0)).filter (present i)).length) 0 =
      ((List.range (r * k0 + k)).filter fun n => present (n / k0) (n % k0)).length := by
  have hrows : (List.range r).foldl (fun n i => n + ((List.range (if i = r then k else k0)).filter (present i)).length) 0 =
      (List.range r).foldl (fun n i => n + ((List.range k0).filter (present i)).length) 0 :=
    List.foldl_ext _ _ _ fun n i hi => by rw [if_neg (List.mem_range.1 hi).ne]
  rw [List.range_succ, List.foldl_append, hrows, rank_rows, List.range_add, List.filter_append, List.length_append, rank_row present k0 r hk]
  simp

end

theorem zbRank_eq (s : State) (o : Operand) (k0 r : Nat) {k : Nat} (hk : k < k0) : zbRank s o k0 r k = presentBefore s o k0 r k :=
  rank_position (slotBit s o.core o.slot) k0 r hk.le

theorem slotVal_eq (s : State) (o : Operand) {bit : Nat} (hbit : opWidth s o ∣ bit) : slotVal s o (opWidth s o) bit =
    elemVal (slotBook s o.core o.slot) (slotTag s o.core o.slot (bit / 512) % 256) (slotTag s o.core o.slot (bit / 512) / 256)
      (slotCode s o (opWidth s o) bit) := by
  rw [slotVal, slotElem_eq s o (opWidth_cases s o) hbit]

theorem opRow_length (s : State) (o : Operand) (kk r : Nat) : (opRow s o kk r).length = kk := by
  unfold opRow
  dsimp only
  split <;> simp

theorem opRow_law (s : State) (o : Operand) (kk r k : Nat) (hk : k < kk) :
    let first := slotTag s o.core o.slot 0 % 256
    let w := if elemBits first = 0 ∨ first = 8 then 8 else elemBits first
    let k0 := 1024 / w
    let element (at' : Nat) : FV :=
      let t := slotTag s o.core o.slot (at' / 512)
      elemVal (slotBook s o.core o.slot) (t % 256) (t / 256) (slotCode s o w at')
    (opRow s o kk r).length = kk ∧
    (¬ (0x68 ≤ first ∧ first ≤ 0x6C) → (opRow s o kk r)[k]? = some (some (element (1024 * r + w * k)))) ∧
    (0x68 ≤ first → first ≤ 0x6C → k < k0 → (opRow s o kk r)[k]? =
      some (if slotBit s o.core o.slot r k then some (element (w * presentBefore s o k0 r k)) else none)) := by
  intro first w k0 element
  have hw : w = opWidth s o := (opWidth_eq s o).symm
  have helem {bit : Nat} (hbit : opWidth s o ∣ bit) : slotVal s o (opWidth s o) bit = element bit := by
    rw [slotVal_eq s o hbit, ← hw]
  have hzb : isZb (opFirst s o) = decide (0x68 ≤ first ∧ first ≤ 0x6C) := rfl
  refine ⟨opRow_length s o kk r, fun hdense => ?_, fun hlo hhi hk0 => ?_⟩
  · have h1024 : opWidth s o ∣ 1024 := by rcases opWidth_cases s o with h | h | h <;> rw [h] <;> decide
    rw [opRow, hzb, decide_eq_false hdense]
    simp only [Bool.false_eq_true, if_false, List.getElem?_map, List.getElem?_range hk, Option.map_some]
    rw [helem (Dvd.dvd.add (h1024.mul_right r) (Dvd.intro_left k rfl)), hw, mul_comm k]
  · rw [opRow, hzb, decide_eq_true ⟨hlo, hhi⟩]
    simp only [if_true, List.getElem?_map, List.getElem?_range hk, Option.map_some]
    have hk0' : k < rowK (opWidth s o) := hw ▸ hk0
    rw [zbRank_eq s o _ r hk0', helem (Dvd.intro_left _ rfl), mul_comm, ← hw]
    rfl

theorem productRule : ProductRule :=
  ⟨mulV_table, groupSum_law, accAdd_law, fun a b acc _ hlen => addGroups_law a b acc hlen, opRow_law⟩

end Sys2Proof.Machine
end

section

namespace Sys2Proof.Machine

/-! ### Words of a stream (R307, R313) -/

theorem leVal_lt (bs : List Byte) : leVal bs < 256 ^ bs.length := by
  induction bs with
  | nil => decide
  | cons b bs ih =>
    have hb := b.isLt
    have hstep : leVal (b :: bs) = b.toNat + 256 * leVal bs := rfl
    rw [hstep, List.length_cons, pow_succ]
    omega

theorem leVal_take_lt (n : Nat) (bs : List Byte) : leVal (bs.take n) < 256 ^ n :=
  (leVal_lt _).trans_le (Nat.pow_le_pow_right (by decide) (List.length_take_le n bs))

theorem unstore_length (sp : Space) (a : Nat) (bs : List Byte) (c : Acc) : (unstore sp a bs c).length = bs.length := by
  unfold unstore
  split
  · split
    · simp
    · rfl
  · rfl

/-- One entry of the record undone. -/
def undone (sp : Space) (a : Nat) (bs : List Byte) (e : HEv) : List Byte :=
  match e with
  | .access c => unstore sp a bs c
  | _ => bs

theorem undone_length (sp : Space) (a : Nat) (es : List HEv) (bs : List Byte) : (es.foldl (undone sp a) bs).length = bs.length := by
  induction es generalizing bs with
  | nil => rfl
  | cons e es ih =>
    rw [List.foldl_cons, ih]
    cases e with
    | access c => exact unstore_length ..
    | _ => rfl

theorem bytesAsOf_length (s : State) (sp : Space) (a n m : Nat) : (bytesAsOf s sp a n m).length = n := by
  have hundone : bytesAsOf s sp a n m = (s.hist.drop m).reverse.foldl (undone sp a) (rdBytes s sp a n) := rfl
  rw [hundone, undone_length, rdBytes_eq_map, List.length_map, List.length_range]

/-- Four bytes lie in one granule or in two. -/
theorem lookBytes_four (s : State) (w : Who) (p : APath) (sp : Space) (a : Nat) : (lookBytes s w p sp a 4).length = 4 := by
  unfold lookBytes seenBytes granules
  rw [List.length_flatMap]
  simp only [bytesAsOf_length, if_neg (show ¬ (4 = 0) by decide), List.map_map]
  rcases (show (a + 4 - 1) / 8 - a / 8 = 0 ∨ (a + 4 - 1) / 8 - a / 8 = 1 by omega) with h | h
  · rw [h]
    simp
    omega
  · rw [h]
    simp [List.range_succ]
    omega

theorem matLook_lt (s : State) (core : Nat) (c : MCmd) (p : Space × Nat) : leVal (matLook s core c p 4) < 2 ^ 32 := by
  have h := leVal_lt (matLook s core c p 4)
  rw [matLook, lookBytes_four] at h
  exact h

theorem matLook_reads (s : State) (core : Nat) (c : MCmd) (p : Space × Nat) (n : Nat) :
    MayRead s (matWho s core c) .M p.1 p.2 n (matLook s core c p n) := ⟨_, lookBytes_reads s _ .M p.1 p.2 n rfl⟩

theorem gmvRead_lt {s : State} {g : Gmv} {p w : Nat} (h : gmvRead s g p = .ok w) : w < 2 ^ 32 := by
  unfold gmvRead at h
  split at h
  · cases h
  · split at h
    · cases h
    · cases h
      exact matLook_lt ..

theorem gmvWord_eq (s : State) (g : Gmv) (p : Nat) : gmvWord s g p = if g.fin < p + 4 then .error (gram 8) else gmvRead s g p := rfl

theorem gmvWord_lt {s : State} {g : Gmv} {p w : Nat} (h : gmvWord s g p = .ok w) : w < 2 ^ 32 := by
  rw [gmvWord_eq] at h
  split at h
  · cases h
  · exact gmvRead_lt h

theorem recBase_eq (r : Rec) : recBase r = fld r 51 0 := recField_eq_fld r 51 0

theorem gmvRead_law (s : State) (g : Gmv) (p : Nat) :
    match matPlace s g.core g.cmd g.src (fld g.src 51 0 + p) 4 false with
    | .error e => gmvRead s g p = .error e
    | .ok q => if poisoned s q.1 q.2 4 then gmvRead s g p = .error ((0x08, 1), fld g.src 51 0 + p)
      else ∃ bs, MayRead s (matWho s g.core g.cmd) .M q.1 q.2 4 bs ∧ gmvRead s g p = .ok (leVal bs) := by
  unfold gmvRead
  rw [recBase_eq]
  cases matPlace s g.core g.cmd g.src (fld g.src 51 0 + p) 4 false with
  | error e => rfl
  | ok q =>
    dsimp only
    split
    · rfl
    · exact ⟨_, matLook_reads s g.core g.cmd q 4, rfl⟩

theorem gmvInput_law (s : State) (g : Gmv) (c b : Nat) : let va := fld g.inp 51 0 + 4 * (c * g.nb + b)
    match matPlace s g.core g.cmd g.inp va 4 false with
    | .error e => gmvInput s g c b = .error e
    | .ok q =>
      let t := (rdTag s q.1 (q.2 / 64)).toNat
      let code := t % 256
      if code = 0xF8 then gmvInput s g c b = .error ((0x08, 1), va)
      else if code = 0 then gmvInput s g c b = .error ((0x09, 2), va)
      else if elemBits code = 0 then gmvInput s g c b = .error ((0x09, 1), va)
      else if code ≠ 8 then gmvInput s g c b = .error ((0x09, 3), va)
      else ∃ bs, MayRead s (matWho s g.core g.cmd) .M q.1 q.2 4 bs ∧
        gmvInput s g c b = .ok (elemVal (fun _ => 0) 0x08 (t / 256) (leVal bs)) := by
  intro va
  unfold gmvInput
  rw [recBase_eq]
  dsimp only
  cases matPlace s g.core g.cmd g.inp (fld g.inp 51 0 + 4 * (c * g.nb + b)) 4 false with
  | error e => rfl
  | ok q =>
    dsimp only
    generalize ht : (rdTag s q.1 (q.2 / 64)).toNat = t
    by_cases hF8 : t % 256 = 0xF8
    · rw [if_pos hF8]
      simp [firstErr, hF8]
      rfl
    · rw [if_neg hF8]
      by_cases h0 : t % 256 = 0
      · rw [if_pos h0]
        simp [firstErr, h0, codeReserved]
        rfl
      · rw [if_neg h0]
        by_cases hbits : elemBits (t % 256) = 0
        · rw [if_pos hbits]
          simp [firstErr, hF8, h0, hbits, codeReserved]
          rfl
        · rw [if_neg hbits]
          by_cases h8 : t % 256 = 8
          · rw [if_neg (not_not.2 h8)]
            refine ⟨_, matLook_reads s g.core g.cmd q 4, ?_⟩
            simp [firstErr, codeReserved, h8, elemBits]
          · rw [if_pos h8]
            simp [firstErr, hF8, h0, hbits, h8, codeReserved]
            rfl

/-! ### The header (R306) -/

theorem okOr_ok {α β : Type} {f : α → Except (Err × Nat) β} {l : List α} {v : α → β} (h : ∀ a ∈ l, f a = .ok (v a)) :
    okOr f l = .ok (l.map v) := by
  induction l with
  | nil => rfl
  | cons a l ih =>
    rw [okOr, h a List.mem_cons_self, ih fun b hb => h b (List.mem_cons_of_mem a hb)]
    rfl

/-- The first element that fails gives the fault. -/
theorem okOr_error {α β : Type} {f : α → Except (Err × Nat) β} {l r : List α} {a : α} {e : Err × Nat} (h : f a = .error e)
    (hl : ∀ b ∈ l, ∃ w, f b = .ok w) : okOr f (l ++ a :: r) = .error e := by
  induction l with
  | nil => rw [List.nil_append, okOr, h]
  | cons b l ih =>
    obtain ⟨w, hw⟩ := hl b List.mem_cons_self
    rw [List.cons_append, okOr, hw, ih fun c hc => hl c (List.mem_cons_of_mem b hc)]
    rfl

theorem okOr_range_error {β : Type} {f : Nat → Except (Err × Nat) β} {n k : Nat} {e : Err × Nat} (hk : k < n) (h : f k = .error e)
    (hl : ∀ j, j < k → ∃ w, f j = .ok w) : okOr f (List.range n) = .error e := by
  have hsplit : List.range n = List.range k ++ k :: (List.range (n - k - 1)).map (k + 1 + ·) := by
    rw [show n = k + 1 + (n - k - 1) by omega, List.range_add, List.range_succ, List.append_assoc, List.singleton_append,
      show k + 1 + (n - k - 1) - k - 1 = n - k - 1 by omega]
  rw [hsplit]
  exact okOr_error h fun j hj => hl j (List.mem_range.1 hj)

theorem gmvRun_short (s : State) (g : Gmv) (h : regionSize g.src < 64) : gmvRun s g = (s, some (gram 9), 0, 0) := if_pos h

theorem gmvRun_header_error {s : State} {g : Gmv} (h64 : 64 ≤ regionSize g.src) {k : Nat} {e : GFail} (hk : k < 16)
    (he : gmvRead s g (4 * k) = .error e) (hl : ∀ j, j < k → ∃ w, gmvRead s g (4 * j) = .ok w) : gmvRun s g = (s, some e, 64, 0) := by
  have hhead : gmvHeader s g = .error e := by
    rw [gmvHeader, okOr_range_error (f := fun i => gmvRead s g (4 * i)) hk he hl]
    rfl
  rw [gmvRun, if_neg (by omega), hhead]

theorem laidWords_zero {f : Nat → Nat} {n : Nat} (m : Nat) (h : ∀ k, n ≤ k → f k = 0) : laidWords f (n + m) = laidWords f n := by
  induction m with
  | zero => rfl
  | succ m ih => rw [← add_assoc, laidWords_succ, ih, h _ (by omega), zero_mul, add_zero]

/-- The header as one number holds its words. -/
theorem gmvHeader_eq {s : State} {g : Gmv} {hw : List Nat} (hlen : hw.length = 16)
    (hread : ∀ k w, hw[k]? = some w → gmvRead s g (4 * k) = .ok w) : gmvHeader s g = .ok (laidWords (fun k => hw.getD k 0) 16) := by
  have hok : okOr (fun i => gmvRead s g (4 * i)) (List.range 16) = .ok hw := by
    have hv := okOr_ok (f := fun i => gmvRead s g (4 * i)) (l := List.range 16) (v := fun k => hw.getD k 0) fun k hk => by
      have hk' : k < hw.length := by rw [hlen]; exact List.mem_range.1 hk
      rw [hread k hw[k] (List.getElem?_eq_getElem hk'), List.getD_eq_getElem _ _ hk']
    rw [hv]
    congr 1
    refine List.ext_getElem (by simp [hlen]) fun k h1 h2 => ?_
    simp [List.getElem?_eq_getElem h2]
  rw [gmvHeader, hok]
  show Except.ok _ = _
  congr 1
  match hw, hlen with
  | [a0, a1, a2, a3, a4, a5, a6, a7, a8, a9, a10, a11, a12, a13, a14, a15], _ => rfl

/-- The fields of the header are those of its words. -/
theorem header_fields {f : Nat → Nat} (hf : ∀ k, f k < 2 ^ 32) : let h := laidWords f 16
    bits h 31 0 = f 0 ∧ bits h 47 32 = f 1 % 2 ^ 16 ∧ bits h 63 48 = f 1 / 2 ^ 16 ∧ bits h 79 64 = f 2 % 2 ^ 16 ∧
    bits h 87 80 = f 2 / 2 ^ 16 % 256 ∧ bits h 95 88 = f 2 / 2 ^ 24 ∧ bits h 127 96 = f 3 := by
  intro h
  have hword (k : Nat) (hk : k < 16) : h / 2 ^ (32 * k) % 2 ^ 32 = f k := laidWords_get hf hk
  have hpart {k o w : Nat} (hk : k < 16) (how : o + w ≤ 32) : h / 2 ^ (32 * k + o) % 2 ^ w = f k / 2 ^ o % 2 ^ w := by
    rw [← hword k hk, bits_of_word _ how, Nat.div_div_eq_div_mul, pow_add]
  have h1 := hf 1
  have h2 := hf 2
  have hlow {k w : Nat} (hk : k < 16) (hw : w ≤ 32) : h / 2 ^ (32 * k) % 2 ^ w = f k % 2 ^ w := by
    have hp := hpart (o := 0) hk (by omega : 0 + w ≤ 32)
    rwa [add_zero, pow_zero, Nat.div_one] at hp
  refine ⟨hword 0 (by decide),
    hlow (k := 1) (w := 16) (by decide) (by decide), ?_, hlow (k := 2) (w := 16) (by decide) (by decide),
    hpart (k := 2) (o := 16) (w := 8) (by decide) (by decide), ?_, ?_⟩
  · exact (hpart (k := 1) (o := 16) (w := 16) (by decide) (by decide)).trans (by omega)
  · exact (hpart (k := 2) (o := 24) (w := 8) (by decide) (by decide)).trans (by omega)
  · exact hword 3 (by decide)

theorem header_rest {f : Nat → Nat} (hf : ∀ k, f k < 2 ^ 32) (h16 : ∀ k, 16 ≤ k → f k = 0) :
    laidWords f 16 / 2 ^ 128 = 0 ↔ ∀ k, 4 ≤ k → f k = 0 := by
  constructor
  · intro h0 k hk
    by_cases hk16 : k < 16
    · rw [← laidWords_get hf hk16, show 32 * k = 128 + (32 * k - 128) by omega, pow_add, ← Nat.div_div_eq_div_mul, h0, Nat.zero_div,
        Nat.zero_mod]
    · exact h16 k (by omega)
  · intro h
    rw [show 16 = 4 + 12 from rfl, laidWords_zero 12 h]
    exact Nat.div_eq_of_lt (laidWords_lt hf 4)

/-- A header that R306 accepts. -/
def ValidHeader (f : Nat → Nat) : Prop :=
  f 0 = 0x314D5247 ∧ 1 ≤ f 1 % 2 ^ 16 ∧ f 1 % 2 ^ 16 ≤ 16384 ∧ 1 ≤ f 1 / 2 ^ 16 ∧ f 1 / 2 ^ 16 ≤ 32768 ∧ 1 ≤ f 2 % 2 ^ 16 ∧
    f 2 % 2 ^ 16 ≤ 2048 ∧ f 2 / 2 ^ 16 % 256 = 0x18 ∧ 1 ≤ f 2 / 2 ^ 24 ∧ f 2 / 2 ^ 24 ≤ 31 ∧ ∀ k, 4 ≤ k → f k = 0

theorem gmvHeaderOk_iff {f : Nat → Nat} (hf : ∀ k, f k < 2 ^ 32) (h16 : ∀ k, 16 ≤ k → f k = 0) :
    gmvHeaderOk (laidWords f 16) = true ↔ ValidHeader f := by
  obtain ⟨h0, hrows, hcols, hrules, hfmt, hdlim, -⟩ := header_fields hf
  rw [gmvHeaderOk, h0, hrows, hcols, hrules, hfmt, hdlim, ValidHeader, ← header_rest hf h16]
  simp only [Bool.and_eq_true, beq_iff_eq, decide_eq_true_eq]
  tauto

theorem gmvRun_header {s : State} {g : Gmv} (h64 : 64 ≤ regionSize g.src) {hw : List Nat} (hlen : hw.length = 16)
    (hread : ∀ k w, hw[k]? = some w → gmvRead s g (4 * k) = .ok w) :
    let at' (k : Nat) : Nat := hw.getD k 0
    let fin := 64 + 4 * at' 3
    let small : Prop := regionSize g.src < fin ∨ regionSize g.inp < 4 * (at' 1 / 2 ^ 16) * g.nb ∨ regionSize g.dst < 256 * (at' 1 % 2 ^ 16)
    (¬ ValidHeader at' → gmvRun s g = (s, some (gram 1), 64, 0)) ∧
    (ValidHeader at' → g.cap < at' 2 % 2 ^ 16 → gmvRun s g = (s, some (gram 5), 64, 0)) ∧
    (ValidHeader at' → at' 2 % 2 ^ 16 ≤ g.cap → small → gmvRun s g = (s, some (gram 9), 64, 0)) ∧
    (ValidHeader at' → at' 2 % 2 ^ 16 ≤ g.cap → ¬ small → gmvRun s g =
      gmvRules { g with rows := at' 1 % 2 ^ 16, cols := at' 1 / 2 ^ 16, dlim := at' 2 / 2 ^ 24, fin := fin } (at' 2 % 2 ^ 16) 0 64 [] s) := by
  intro at' fin small
  have hf : ∀ k, at' k < 2 ^ 32 := by
    intro k
    by_cases hk : k < hw.length
    · exact gmvRead_lt ((hread k hw[k] (List.getElem?_eq_getElem hk)).trans (by rw [← List.getD_eq_getElem _ 0 hk]))
    · show hw.getD k 0 < _
      rw [List.getD_eq_default _ _ (by omega)]
      decide
  have h16 : ∀ k, 16 ≤ k → at' k = 0 := fun k hk => List.getD_eq_default _ _ (by omega)
  obtain ⟨h0, hrows, hcols, hrules, hfmt, hdlim, hfin⟩ := header_fields hf
  have hok := gmvHeaderOk_iff hf h16
  have hrun : gmvRun s g = if !gmvHeaderOk (laidWords at' 16) then (s, some (gram 1), 64, 0)
      else if g.cap < at' 2 % 2 ^ 16 then (s, some (gram 5), 64, 0)
      else if small then (s, some (gram 9), 64, 0)
      else gmvRules { g with rows := at' 1 % 2 ^ 16, cols := at' 1 / 2 ^ 16, dlim := at' 2 / 2 ^ 24, fin := fin } (at' 2 % 2 ^ 16) 0 64 [] s := by
    rw [gmvRun, if_neg (by omega), gmvHeader_eq hlen hread]
    dsimp only
    rw [hrules, hfin, hcols, hrows, hdlim]
  rw [hrun]
  refine ⟨fun hv => if_pos ?_, fun hv hcap => ?_, fun hv hcap hsmall => ?_, fun hv hcap hsmall => ?_⟩
  · rw [Bool.eq_false_iff.2 fun h => hv (hok.1 h)]
    rfl
  · rw [hok.2 hv, if_neg (by decide), if_pos hcap]
  · rw [hok.2 hv, if_neg (by decide), if_neg hcap.not_gt, if_pos hsmall]
  · rw [hok.2 hv, if_neg (by decide), if_neg hcap.not_gt, if_neg hsmall]

end Sys2Proof.Machine
end

section

namespace Sys2Proof.Machine

/-! ### Symbols of a rule (R311) -/

/-- Flags of the batch columns together. -/
def allFlags (n : Nat) (f : Nat → Nat) : Nat := (List.range n).foldl (fun a b => a ||| f b) 0

theorem testBit_allFlags (n : Nat) (f : Nat → Nat) (k : Nat) : (allFlags n f).testBit k = true ↔ ∃ b, b < n ∧ (f b).testBit k = true := by
  rw [allFlags, testBit_gathered]
  simp

theorem allFlags_zero (n : Nat) : allFlags n (fun _ => 0) = 0 := by
  refine Nat.eq_of_testBit_eq fun k => Bool.eq_iff_iff.2 ?_
  rw [testBit_allFlags]
  simp

theorem allFlags_or (n : Nat) (f g : Nat → Nat) : allFlags n (fun b => f b ||| g b) = allFlags n f ||| allFlags n g := by
  refine Nat.eq_of_testBit_eq fun k => Bool.eq_iff_iff.2 ?_
  rw [Nat.testBit_or, Bool.or_eq_true, testBit_allFlags, testBit_allFlags, testBit_allFlags]
  simp only [Nat.testBit_or, Bool.or_eq_true, ← exists_or, ← and_or_left]

section
variable {s : State} {g : Gmv} {i : Nat} {depth : List Nat}

/-- What a symbol word gives column `b`, and the depth that it refers to. -/
def shareOf (s : State) (g : Gmv) (w b : Nat) : Nat × Nat := (contribution s g w b).getD (0, 0)
def symbolDepth (depth : List Nat) (w : Nat) : Nat := if 2 ^ 31 ≤ w then depth.getD (w % 2 ^ 11) 0 else 0

theorem testBit_31 {w : Nat} (hw : w < 2 ^ 32) : w.testBit 31 = decide (2 ^ 31 ≤ w) := by
  rw [Nat.testBit_eq_decide_div_mod_eq, decide_eq_decide]
  omega

theorem terminal_error {col val : Nat} {e : GFail} (h : ((List.range g.nb).findSome? fun b => match gmvInput s g col b with
    | .error e => some e
    | .ok _ => none) = some e) : terminal s g col val = .error e := by
  obtain ⟨l, b, r, hsplit, hb, hl⟩ := List.findSome?_eq_some_iff.1 h
  have hfail : okOr (fun b => (gmvInput s g col b).map fun x => opF fp32 .rne (mulV (decodeIeee bf16 val) x)) (List.range g.nb) = .error e := by
    rw [hsplit]
    refine okOr_error ?_ fun a ha => ?_
    · cases hin : gmvInput s g col b with
      | error e' =>
        rw [hin] at hb
        cases hb
        rfl
      | ok x => rw [hin] at hb; cases hb
    · have hnone := hl a ha
      cases hin : gmvInput s g col a with
      | error e' => rw [hin] at hnone; cases hnone
      | ok x => exact ⟨_, rfl⟩
  rw [terminal, hfail]
  rfl

theorem gmvSyms_word_error {n p : Nat} {sums : Sums} {dmax : Nat} {e : GFail} (h : gmvWord s g p = .error e) :
    gmvSyms s g i depth (n + 1) p sums dmax = .error (e, p + 4) := by
  rw [gmvSyms, h]

theorem gmvSyms_fault {n p : Nat} {sums : Sums} {dmax w : Nat} {e : GFail} (hword : gmvWord s g p = .ok w)
    (hfault : symbolFault s g i w = some e) : gmvSyms s g i depth (n + 1) p sums dmax = .error (e, p + 4) := by
  have hw := gmvWord_lt hword
  rw [gmvSyms, hword]
  dsimp only
  rw [testBit_31 hw]
  unfold symbolFault at hfault
  by_cases h31 : w < 2 ^ 31
  · have hcol : bits w 30 16 = w / 2 ^ 16 := Nat.mod_eq_of_lt (by omega)
    rw [if_pos h31] at hfault
    rw [decide_eq_false (by omega), Bool.not_false, if_pos rfl, hcol]
    by_cases hc : g.cols ≤ w / 2 ^ 16
    · rw [if_pos hc] at hfault
      rw [if_pos hc, Option.some.inj hfault]
    · rw [if_neg hc] at hfault
      rw [if_neg hc, terminal_error hfault]
  · rw [if_neg h31] at hfault
    rw [decide_eq_true (by omega), Bool.not_true, if_neg Bool.false_ne_true]
    have hres : bits w 30 11 = w / 2 ^ 11 % 2 ^ 20 := rfl
    have href : bits w 10 0 = w % 2 ^ 11 := by simp [bits]
    rw [hres, href]
    by_cases hr : w / 2 ^ 11 % 2 ^ 20 ≠ 0
    · rw [if_pos hr] at hfault
      rw [if_pos hr, Option.some.inj hfault]
    · rw [if_neg hr] at hfault
      rw [if_neg hr]
      by_cases hk : i ≤ w % 2 ^ 11
      · rw [if_pos hk] at hfault
        rw [if_pos hk, Option.some.inj hfault]
      · rw [if_neg hk] at hfault
        cases hfault

theorem contribution_terminal {w b : Nat} {x : FV} (h31 : w < 2 ^ 31) (hx : gmvInput s g (w / 2 ^ 16) b = .ok x) :
    contribution s g w b = some (opF fp32 .rne (mulV (decodeIeee bf16 (w % 2 ^ 16)) x)) := by
  rw [contribution, if_pos h31, hx]
  rfl

/-- A symbol without a fault gives each column a contribution. -/
theorem contribution_some {w : Nat} (hfault : symbolFault s g i w = none) {b : Nat} (hb : b < g.nb) :
    contribution s g w b = some (shareOf s g w b) := by
  unfold shareOf
  by_cases h31 : w < 2 ^ 31
  · rw [symbolFault, if_pos h31] at hfault
    split at hfault
    · cases hfault
    · have hin := List.findSome?_eq_none_iff.1 hfault b (List.mem_range.2 hb)
      cases hx : gmvInput s g (w / 2 ^ 16) b with
      | error e => rw [hx] at hin; cases hin
      | ok x => rw [contribution_terminal h31 hx]; rfl
  · rw [contribution, if_neg h31]
    rfl

theorem gmvSyms_next {n p : Nat} {sums : Sums} {dmax w : Nat} (hword : gmvWord s g p = .ok w) (hfault : symbolFault s g i w = none) :
    gmvSyms s g i depth (n + 1) p sums dmax = gmvSyms s g i depth n (p + 4)
      (addSums sums ((List.range g.nb).map fun b => (shareOf s g w b).1) (allFlags g.nb fun b => (shareOf s g w b).2))
      (max dmax (symbolDepth depth w)) := by
  have hw := gmvWord_lt hword
  rw [gmvSyms, hword]
  dsimp only
  rw [testBit_31 hw, symbolDepth]
  by_cases h31 : w < 2 ^ 31
  · have hcol : bits w 30 16 = w / 2 ^ 16 := Nat.mod_eq_of_lt (by omega)
    have hval : bits w 15 0 = w % 2 ^ 16 := by simp [bits]
    have hcols : ¬ g.cols ≤ w / 2 ^ 16 := fun h => by
      rw [symbolFault, if_pos h31, if_pos h] at hfault
      cases hfault
    have hterm : terminal s g (w / 2 ^ 16) (w % 2 ^ 16) =
        .ok ((List.range g.nb).map fun b => (shareOf s g w b).1, allFlags g.nb fun b => (shareOf s g w b).2) := by
      rw [terminal, okOr_ok (v := shareOf s g w) fun b hb => ?_]
      · simp only [Except.map, List.map_map, List.foldl_map]
        rfl
      · have hsome := contribution_some hfault (List.mem_range.1 hb)
        have hin : ∃ x, gmvInput s g (w / 2 ^ 16) b = .ok x := by
          cases hx : gmvInput s g (w / 2 ^ 16) b with
          | error e => rw [contribution, if_pos h31, hx] at hsome; cases hsome
          | ok x => exact ⟨x, rfl⟩
        obtain ⟨x, hx⟩ := hin
        rw [contribution_terminal h31 hx] at hsome
        rw [hx, ← Option.some.inj hsome]
        rfl
    rw [decide_eq_false (by omega), Bool.not_false, if_pos rfl, hcol, hval, if_neg hcols, hterm, if_neg (show ¬ 2 ^ 31 ≤ w by omega),
      Nat.max_zero]
  · have hshare (b : Nat) : shareOf s g w b = (rdAcc s g.core (gmvRow g (w % 2 ^ 11)) b, 0) := by
      rw [shareOf, contribution, if_neg h31]
      rfl
    have hres : bits w 30 11 = w / 2 ^ 11 % 2 ^ 20 := rfl
    have href : bits w 10 0 = w % 2 ^ 11 := by simp [bits]
    rw [symbolFault, if_neg h31] at hfault
    rw [decide_eq_true (by omega), Bool.not_true, if_neg Bool.false_ne_true, hres, href, if_pos (show 2 ^ 31 ≤ w by omega)]
    split at hfault
    · cases hfault
    next hr =>
      split at hfault
      · cases hfault
      next hk =>
        rw [if_neg hr, if_neg hk]
        simp only [hshare, allFlags_zero]
        rfl

/-- The first symbol that fails is the rule's fault. -/
theorem gmvSyms_stops {e : GFail} (q : Nat) : ∀ {n p : Nat} {sums : Sums} {dmax : Nat}, q < n →
    (∀ j, j < q → ∃ w, gmvWord s g (p + 4 * j) = .ok w ∧ symbolFault s g i w = none) →
    (gmvWord s g (p + 4 * q) = .error e ∨ ∃ w, gmvWord s g (p + 4 * q) = .ok w ∧ symbolFault s g i w = some e) →
    ∃ p', gmvSyms s g i depth n p sums dmax = .error (e, p') := by
  induction q with
  | zero =>
    intro n p sums dmax hn _ hstop
    obtain ⟨n, rfl⟩ := Nat.exists_eq_succ_of_ne_zero (Nat.pos_iff_ne_zero.1 hn)
    rcases hstop with h | ⟨w, hw, hf⟩
    · exact ⟨_, gmvSyms_word_error h⟩
    · exact ⟨_, gmvSyms_fault hw hf⟩
  | succ q ih =>
    intro n p sums dmax hn hprev hstop
    obtain ⟨n, rfl⟩ := Nat.exists_eq_succ_of_ne_zero (Nat.pos_iff_ne_zero.1 (Nat.zero_lt_of_lt hn))
    obtain ⟨w, hw, hf⟩ := hprev 0 (Nat.succ_pos q)
    rw [Nat.mul_zero, Nat.add_zero] at hw
    have hat (j : Nat) : p + 4 + 4 * j = p + 4 * (j + 1) := by omega
    rw [gmvSyms_next hw hf]
    refine ih (Nat.lt_of_succ_lt_succ hn) (fun j hj => ?_) ?_
    · rw [hat]
      exact hprev (j + 1) (Nat.succ_lt_succ hj)
    · rw [hat]
      exact hstop

/-- Symbols without a fault: the sums after all of them, and the deepest rule among them. -/
theorem gmvSyms_all (ws : List Nat) : ∀ {p : Nat} {sums : Sums} {dmax : Nat},
    (∀ (q w : Nat), ws[q]? = some w → gmvWord s g (p + 4 * q) = .ok w ∧ symbolFault s g i w = none) →
    gmvSyms s g i depth ws.length p sums dmax =
      .ok (ws.foldl (fun a w => addSums a ((List.range g.nb).map fun b => (shareOf s g w b).1) (allFlags g.nb fun b => (shareOf s g w b).2)) sums,
        ws.foldl (fun d w => max d (symbolDepth depth w)) dmax) := by
  induction ws with
  | nil => exact fun _ => rfl
  | cons w ws ih =>
    intro p sums dmax hall
    obtain ⟨hw, hf⟩ := hall 0 w rfl
    rw [Nat.mul_zero, Nat.add_zero] at hw
    rw [List.length_cons, gmvSyms_next hw hf, ih fun q v hv => ?_]
    · rfl
    · have hat : p + 4 + 4 * q = p + 4 * (q + 1) := by omega
      rw [hat]
      exact hall (q + 1) v hv

theorem deepest_eq (ws : List Nat) (d : Nat) : ws.foldl (fun d w => max d (symbolDepth depth w)) d =
    ((ws.filter fun w => decide (2 ^ 31 ≤ w)).map fun w => depth.getD (w % 2 ^ 11) 0).foldl max d := by
  induction ws generalizing d with
  | nil => rfl
  | cons w ws ih =>
    rw [List.foldl_cons, ih, List.filter_cons, symbolDepth]
    by_cases hw : 2 ^ 31 ≤ w
    · rw [if_pos hw, if_pos (decide_eq_true hw)]
      rfl
    · rw [if_neg hw, if_neg (by simpa using hw), Nat.max_zero]

end

/-! ### The sums of the columns (R69) -/

/-- One more contribution to a column. -/
def addShare (a c : Nat × Nat) : Nat × Nat := ((addF fp32 .rne a.1 c.1).1, a.2 ||| (addF fp32 .rne a.1 c.1).2 ||| c.2)

theorem addSums_columns (n : Nat) (a c : Nat → Nat × Nat) :
    addSums (some ((List.range n).map fun b => (a b).1), allFlags n fun b => (a b).2) ((List.range n).map fun b => (c b).1)
      (allFlags n fun b => (c b).2) =
    (some ((List.range n).map fun b => (addShare (a b) (c b)).1), allFlags n fun b => (addShare (a b) (c b)).2) := by
  have hzip : List.zipWith (addF fp32 .rne) ((List.range n).map fun b => (a b).1) ((List.range n).map fun b => (c b).1) =
      (List.range n).map fun b => addF fp32 .rne (a b).1 (c b).1 := by
    rw [List.zipWith_map, List.zipWith_self]
  have hflags : ((List.range n).map fun b => addF fp32 .rne (a b).1 (c b).1).foldl (fun f r => f ||| r.2)
      ((allFlags n fun b => (a b).2) ||| allFlags n fun b => (c b).2) = allFlags n fun b => (addShare (a b) (c b)).2 := by
    refine Nat.eq_of_testBit_eq fun k => Bool.eq_iff_iff.2 ?_
    simp only [List.foldl_map, addShare, allFlags_or]
    rw [testBit_gathered]
    simp only [Nat.testBit_or, Bool.or_eq_true, List.mem_range, testBit_allFlags n fun b => (addF fp32 .rne (a b).1 (c b).1).2]
    exact or_right_comm
  unfold addSums
  dsimp only
  rw [hzip, hflags, List.map_map]
  rfl

theorem sums_columns (n : Nat) (share : Nat → Nat → Nat × Nat) (ws : List Nat) (a : Nat → Nat × Nat) :
    ws.foldl (fun x w => addSums x ((List.range n).map fun b => (share w b).1) (allFlags n fun b => (share w b).2))
      (some ((List.range n).map fun b => (a b).1), allFlags n fun b => (a b).2) =
    (some ((List.range n).map fun b => ((ws.map fun w => share w b).foldl addShare (a b)).1),
      allFlags n fun b => ((ws.map fun w => share w b).foldl addShare (a b)).2) := by
  induction ws generalizing a with
  | nil => rfl
  | cons w ws ih =>
    rw [List.foldl_cons, addSums_columns, ih fun b => addShare (a b) (share w b)]
    rfl

theorem summed_cons (c : Nat × Nat) (cs : List (Nat × Nat)) : summed (c :: cs) = cs.foldl addShare c := rfl

/-- The sums of a rule: each column adds its contributions one after another. -/
theorem sums_summed (n : Nat) (share : Nat → Nat → Nat × Nat) (ws : List Nat) :
    let r := ws.foldl (fun x w => addSums x ((List.range n).map fun b => (share w b).1) (allFlags n fun b => (share w b).2)) (none, 0)
    (∀ b, nthN ((r.1).getD []) b = if b < n then (summed (ws.map fun w => share w b)).1 else 0) ∧
      r.2 = allFlags n fun b => (summed (ws.map fun w => share w b)).2 := by
  intro r
  cases ws with
  | nil =>
    refine ⟨fun b => ?_, (allFlags_zero n).symm⟩
    show nthN [] b = if b < n then 0 else 0
    simp [nthN]
  | cons w ws =>
    have hfirst : addSums (none, 0) ((List.range n).map fun b => (share w b).1) (allFlags n fun b => (share w b).2) =
        (some ((List.range n).map fun b => (share w b).1), allFlags n fun b => (share w b).2) := by
      rw [addSums, Nat.zero_or]
    have hr : r = (some ((List.range n).map fun b => (summed ((w :: ws).map fun w => share w b)).1),
        allFlags n fun b => (summed ((w :: ws).map fun w => share w b)).2) := by
      show (w :: ws).foldl _ (none, 0) = _
      rw [List.foldl_cons, hfirst, sums_columns]
      rfl
    rw [hr]
    refine ⟨fun b => ?_, rfl⟩
    rw [Option.getD_some, nthN, List.getElem?_map]
    by_cases hb : b < n
    · rw [List.getElem?_range hb, if_pos hb]
      rfl
    · rw [List.getElem?_eq_none (by simpa using hb), if_neg hb]
      rfl

end Sys2Proof.Machine
end

section

namespace Sys2Proof.Machine

/-! ### Stores and the accumulator (R277, R278) -/

/-- Memories and descriptors of two states are the same. -/
def SameStores (s t : State) : Prop := SameBytes s t ∧ SameTags s t

theorem SameStores.refl (s : State) : SameStores s s := ⟨⟨rfl, rfl, rfl⟩, ⟨rfl, rfl, rfl⟩⟩

theorem SameStores.rdByte {s t : State} (h : SameStores s t) (sp : Space) (a : Nat) : rdByte t sp a = rdByte s sp a := by
  obtain ⟨⟨hm, hs, hp⟩, -⟩ := h
  cases sp
  · exact congrArg (fun m => tget zeroByte m a) hm
  · exact congrArg (fun m => tget zeroByte m _) hs
  · exact congrArg (fun m => tget zeroByte m _) hp

theorem SameStores.wrByte {s t : State} (h : SameStores s t) (sp : Space) (a : Nat) (x : Byte) :
    SameStores (wrByte s sp a x) (wrByte t sp a x) := by
  obtain ⟨⟨hm, hs, hp⟩, ⟨ht, hst, hpt⟩⟩ := h
  cases sp
  · exact ⟨⟨congrArg (fun m => tset zeroByte m a x) hm, hs, hp⟩, ⟨ht, hst, hpt⟩⟩
  · exact ⟨⟨hm, congrArg (fun m => tset zeroByte m _ x) hs, hp⟩, ⟨ht, hst, hpt⟩⟩
  · exact ⟨⟨hm, hs, congrArg (fun m => tset zeroByte m _ x) hp⟩, ⟨ht, hst, hpt⟩⟩

theorem SameStores.wrBytes {s t : State} (h : SameStores s t) (sp : Space) (a : Nat) (bs : List Byte) :
    SameStores (wrBytes s sp a bs) (wrBytes t sp a bs) := by
  induction bs generalizing s t a with
  | nil => exact h
  | cons b bs ih => exact ih (h.wrByte sp a b) (a + 1)

theorem SameStores.wrTag {s t : State} (h : SameStores s t) (sp : Space) (b : Nat) (x : W16) :
    SameStores (wrTag s sp b x) (wrTag t sp b x) := by
  obtain ⟨⟨hm, hs, hp⟩, ⟨ht, hst, hpt⟩⟩ := h
  cases sp
  · exact ⟨⟨hm, hs, hp⟩, ⟨congrArg (fun m => tset 0 m b x) ht, hst, hpt⟩⟩
  · exact ⟨⟨hm, hs, hp⟩, ⟨ht, congrArg (fun m => tset 0 m _ x) hst, hpt⟩⟩
  · exact ⟨⟨hm, hs, hp⟩, ⟨ht, hst, congrArg (fun m => tset 0 m _ x) hpt⟩⟩

theorem SameStores.putBlocks {s t : State} (h : SameStores s t) (ps : List (Space × Nat)) (bs : List (List Byte × Nat)) :
    SameStores (putBlocks s ps bs) (putBlocks t ps bs) := by
  unfold Machine.putBlocks
  induction ps.zip bs generalizing s t with
  | nil => exact h
  | cons e es ih => exact ih ((h.wrBytes _ _ _).wrTag _ _ _)

theorem putBlock_frame (s : State) (p : Space × Nat) (bs : List Byte) (d : Nat) : putBlock s p bs d = { s with
    mem := (putBlock s p bs d).mem, scr := (putBlock s p bs d).scr, peer := (putBlock s p bs d).peer, zown := (putBlock s p bs d).zown,
    tags := (putBlock s p bs d).tags, scrTag := (putBlock s p bs d).scrTag, peerTag := (putBlock s p bs d).peerTag } := by
  unfold putBlock
  rw [wrTag_frame, wrBytes_frame]

/-- Blocks change memories and descriptors alone. -/
theorem putBlocks_frame (ps : List (Space × Nat)) (bs : List (List Byte × Nat)) (s : State) : putBlocks s ps bs = { s with
    mem := (putBlocks s ps bs).mem, scr := (putBlocks s ps bs).scr, peer := (putBlocks s ps bs).peer, zown := (putBlocks s ps bs).zown,
    tags := (putBlocks s ps bs).tags, scrTag := (putBlocks s ps bs).scrTag, peerTag := (putBlocks s ps bs).peerTag } := by
  unfold putBlocks
  induction ps.zip bs generalizing s with
  | nil => rfl
  | cons e es ih =>
    rw [List.foldl_cons, ih, putBlock_frame]

theorem logMat_frame (s0 : State) (core : Nat) (c : MCmd) (wr : Bool) (ls : List HLoc) (s : State) : logMat s0 core c wr ls s = { s with
    hist := (logMat s0 core c wr ls s).hist, dcache := (logMat s0 core c wr ls s).dcache, active := (logMat s0 core c wr ls s).active } :=
  logEvs_frame _ s

/-- Where a command's access is performed does not depend on the accumulator. -/
theorem matPlace_acc (s : State) (A : Tbl W32) (F : Tbl (BitVec 5)) (core : Nat) (c : MCmd) (r : Rec) (va n : Nat) (wr : Bool) :
    matPlace { s with acc := A, accFlg := F } core c r va n wr = matPlace s core c r va n wr := rfl

end Sys2Proof.Machine
end

section

namespace Sys2Proof.Machine

/-! ### Elements of the accumulator -/

/-- What a run of steps leaves of a part of the state that one step alone determines. -/
theorem foldl_observed {σ β : Type} (obs : σ → β) (step : σ → Nat → σ) (u : Nat) (new : Option β) (ts : List Nat)
    (h : ∀ s t, t ∈ ts → obs (step s t) = if u = t then new.getD (obs s) else obs s) (s : σ) :
    obs (ts.foldl step s) = if u ∈ ts then new.getD (obs s) else obs s := by
  induction ts generalizing s with
  | nil => simp
  | cons t ts ih =>
    rw [List.foldl_cons, ih (fun s a ha => h s a (List.mem_cons_of_mem t ha)), h s t List.mem_cons_self]
    by_cases hut : u = t
    · have hmem : u ∈ t :: ts := hut ▸ List.mem_cons_self
      rw [if_pos hut, if_pos hmem]
      cases new <;> simp
    · have hmem : u ∈ t :: ts ↔ u ∈ ts := by simp [hut]
      rw [if_neg hut]
      simp only [hmem]

section
variable (s : State) (core : Nat)

theorem rdAcc_wrAcc (r c x k : Nat) {b : Nat} (hc : c < 64) (hb : b < 64) :
    rdAcc (wrAcc s core r c x) core k b = if k = r ∧ b = c then x % 2 ^ 32 else rdAcc s core k b := by
  unfold rdAcc wrAcc accKey
  rw [tget_tset]
  by_cases h : k = r ∧ b = c
  · rw [if_pos h, if_pos (by omega), BitVec.toNat_ofNat]
  · rw [if_neg h, if_neg (by omega)]

theorem rdAcc_lt (r c : Nat) : rdAcc s core r c < 2 ^ 32 := BitVec.isLt _

/-- One element after another. -/
def putAcc (row col val : Nat → Nat) (n : Nat) : State := (List.range n).foldl (fun s i => wrAcc s core (row i) (col i) (val i)) s

theorem putAcc_frame (row col val : Nat → Nat) (n : Nat) :
    putAcc s core row col val n = { s with acc := (putAcc s core row col val n).acc } := by
  unfold putAcc
  induction n with
  | zero => rfl
  | succ n ih =>
    rw [List.range_succ, List.foldl_append, List.foldl_cons, List.foldl_nil, ih]
    rfl

theorem rdAcc_putAcc_hit {row col : Nat → Nat} (val : Nat → Nat) {n i : Nat} (hi : i < n) (hcol : ∀ j, j < n → col j < 64)
    (hinj : ∀ j, row i = row j ∧ col i = col j → i = j) : rdAcc (putAcc s core row col val n) core (row i) (col i) = val i % 2 ^ 32 := by
  have hobs := foldl_observed (fun s => rdAcc s core (row i) (col i)) (fun s j => wrAcc s core (row j) (col j) (val j)) i
    (some (val i % 2 ^ 32)) (List.range n) (fun s j hj => by
      rw [rdAcc_wrAcc s core _ _ _ _ (hcol j (List.mem_range.1 hj)) (hcol i hi)]
      by_cases hij : i = j
      · subst hij
        simp
      · rw [if_neg hij, if_neg fun h => hij (hinj j h)]) s
  exact hobs.trans (if_pos (List.mem_range.2 hi))

theorem rdAcc_putAcc_miss {row col : Nat → Nat} (val : Nat → Nat) (n : Nat) (hcol : ∀ j, j < n → col j < 64) {k b : Nat} (hb : b < 64)
    (hmiss : ∀ j, j < n → ¬ (k = row j ∧ b = col j)) : rdAcc (putAcc s core row col val n) core k b = rdAcc s core k b := by
  have hobs := foldl_observed (fun s => rdAcc s core k b) (fun s j => wrAcc s core (row j) (col j) (val j)) n none (List.range n)
    (fun s j hj => by
      rw [rdAcc_wrAcc s core _ _ _ _ (hcol j (List.mem_range.1 hj)) hb, if_neg (hmiss j (List.mem_range.1 hj)), if_neg (List.mem_range.1 hj).ne']) s
  exact hobs.trans (ite_self _)

theorem gmvPutRow_eq (g : Gmv) (r : Nat) (ws : List Nat) : gmvPutRow s g r ws = putAcc s g.core (fun _ => r) id (nthN ws) 64 := rfl

theorem putTile_eq (tile : Nat) (ws : List Nat) :
    putTile s core tile ws = putAcc s core (fun i => 64 * tile + i / 64) (fun i => i % 64) (fun i => ws.getD i 0) ws.length := by
  have hzip : ws.zipIdx = (List.range ws.length).map fun i => (ws.getD i 0, i) := by
    refine List.ext_getElem (by simp) fun i h1 h2 => ?_
    have hi : i < ws.length := by simpa using h1
    simp [List.getElem?_eq_getElem hi]
  rw [putTile, hzip, List.foldl_map]
  rfl

theorem putTile_frame (tile : Nat) (ws : List Nat) : putTile s core tile ws = { s with acc := (putTile s core tile ws).acc } := by
  rw [putTile_eq]
  exact putAcc_frame ..

theorem rdAcc_putTile (tile : Nat) {ws : List Nat} (hlen : 4096 ≤ ws.length) {i j : Nat} (hi : i < 64) (hj : j < 64) :
    rdAcc (putTile s core tile ws) core (64 * tile + i) j = ws.getD (64 * i + j) 0 % 2 ^ 32 := by
  have hrow : 64 * tile + i = 64 * tile + (64 * i + j) / 64 := by omega
  have hcol : j = (64 * i + j) % 64 := by omega
  have hhit := rdAcc_putAcc_hit s core (row := fun i => 64 * tile + i / 64) (col := fun i => i % 64) (fun i => ws.getD i 0)
    (n := ws.length) (i := 64 * i + j) (by omega) (fun j _ => Nat.mod_lt j (by decide)) (fun k hk => by
      have := Nat.div_add_mod (64 * i + j) 64
      have := Nat.div_add_mod k 64
      omega)
  rw [putTile_eq]
  rw [← hhit, ← hcol, ← hrow]

theorem zeroTile_frame (tile : Nat) : zeroTile s core tile = { s with acc := (zeroTile s core tile).acc } := rfl

theorem rdAcc_zeroTile (tile : Nat) {i j : Nat} (hi : i < 64) (hj : j < 64) : rdAcc (zeroTile s core tile) core (64 * tile + i) j = 0 := by
  have hkey : accKey core (64 * tile) 0 ≤ accKey core (64 * tile + i) j ∧ accKey core (64 * tile + i) j < accKey core (64 * tile) 0 + 4096 := by
    unfold accKey
    omega
  rw [rdAcc, tget, zeroTile, aget_clearKeys, if_pos hkey]
  rfl

theorem rdAccFlg_orAccFlg (tile f n : Nat) :
    rdAccFlg (orAccFlg s core tile f) core n = if n = tile then rdAccFlg s core n ||| BitVec.ofNat 5 f else rdAccFlg s core n := by
  unfold orAccFlg
  rw [rdAccFlg, tget_tset]
  by_cases h : n = tile
  · rw [if_pos (by omega), if_pos h, h]
  · rw [if_neg (by omega), if_neg h, rdAccFlg]

theorem rdAccFlg_clrAccFlg (tile n : Nat) : rdAccFlg (clrAccFlg s core tile) core n = if n = tile then 0 else rdAccFlg s core n := by
  unfold clrAccFlg
  rw [rdAccFlg, tget_tset]
  by_cases h : n = tile
  · rw [if_pos (by omega), if_pos h]
  · rw [if_neg (by omega), if_neg h, rdAccFlg]

end

/-! ### The row of a rule (R311) -/

theorem opF_lt (rm : Rm) (v : FV × Nat) : (opF fp32 rm v).1 < 2 ^ 32 := (scalarCode_opF .f32 rm v).lt

theorem shareOf_lt (s : State) (g : Gmv) (w b : Nat) : (shareOf s g w b).1 < 2 ^ 32 := by
  unfold shareOf contribution
  split
  · split
    · exact opF_lt .rne (mulV (fcvtSource 0x18 w) _)
    · decide
  · exact rdAcc_lt ..

theorem summed_lt {cs : List (Nat × Nat)} (h : ∀ c ∈ cs, c.1 < 2 ^ 32) : (summed cs).1 < 2 ^ 32 := by
  cases cs with
  | nil => decide
  | cons c cs =>
    rw [summed_cons]
    rcases List.eq_nil_or_concat cs with rfl | ⟨cs, d, rfl⟩
    · exact h c List.mem_cons_self
    · rw [List.concat_eq_append, List.foldl_append]
      exact opF_lt .rne _

theorem rdAcc_putRow (s : State) (g : Gmv) (r : Nat) {ws : List Nat} (hws : ∀ b, nthN ws b < 2 ^ 32) (k : Nat) {b : Nat} (hb : b < 64) :
    rdAcc (gmvPutRow s g r ws) g.core k b = if k = r then nthN ws b else rdAcc s g.core k b := by
  have hcol : ∀ j, j < 64 → id j < 64 := fun _ h => h
  rw [gmvPutRow_eq]
  by_cases hk : k = r
  · subst hk
    rw [if_pos rfl]
    exact (rdAcc_putAcc_hit s g.core (row := fun _ => k) (col := id) (nthN ws) hb hcol fun _ h => h.2).trans
      (Nat.mod_eq_of_lt (hws b))
  · rw [if_neg hk]
    exact rdAcc_putAcc_miss s g.core (nthN ws) 64 hcol hb fun _ _ h => hk h.1

end Sys2Proof.Machine
end

section

namespace Sys2Proof.Machine

/-! ### One rule after another (R307, R311) -/

theorem testBit_17 (h : Nat) : h.testBit 17 = decide (h / 2 ^ 17 % 2 = 1) := Nat.testBit_eq_decide_div_mod_eq

section
variable (s : State) (g : Gmv) (n i : Nat) (depth : List Nat)

/-- What a rule with the symbols `ws` gives column `b`, and the row it writes. -/
def ruleSum (ws : List Nat) (b : Nat) : Nat × Nat := summed (ws.map fun w => shareOf s g w b)
def ruleValue (ws : List Nat) (b : Nat) : Nat := if b < g.nb then (ruleSum s g ws b).1 else 0

/-- The state with the row of rule `i` and the flags of its tile. -/
def rowState (row : List Nat) (f : Nat) : State := orAccFlg (gmvPutRow s g (gmvRow g i) row) g.core (gmvRow g i / 64) f

/-- The output row of a rule, and the rules behind it. -/
def afterOutput (orow next d : Nat) (row : List Nat) (u : State) : State × Option GFail × Nat × Nat :=
  match gmvPutOut u g orow row with
  | .error e => (s, some e, next, i)
  | .ok t => gmvRules g n (i + 1) next (depth ++ [d]) t

/-- A rule whose symbols are read: its row, its flags and the deepest rule it refers to are known. -/
def ruleEnd (out : Bool) (orow next d deep : Nat) (row : List Nat) (f : Nat) : State × Option GFail × Nat × Nat :=
  if d ≠ deep + 1 then (s, some (gram 3), next, i)
  else if g.dlim < d then (s, some (gram 4), next, i)
  else if out && decide (g.rows ≤ orow) then (s, some (gram 7), next, i)
  else if out then afterOutput s g n i depth orow next d row (rowState s g i row f)
  else gmvRules g n (i + 1) next (depth ++ [d]) (rowState s g i row f)

/-- A rule from what its symbols give. -/
def ruleSymbols (out : Bool) (orow next d : Nat) (r : Except (GFail × Nat) (Sums × Nat)) : State × Option GFail × Nat × Nat :=
  match r with
  | .error e => (s, some e.1, e.2, i)
  | .ok (sums, deep) => ruleEnd s g n i depth out orow next d deep ((sums.1).getD []) sums.2

end

section
variable {s : State} {g : Gmv} {n i p : Nat} {depth : List Nat}

theorem gmvRules_word_error {e : GFail} (h : gmvWord s g p = .error e) : gmvRules g (n + 1) i p depth s = (s, some e, p + 4, i) := by
  rw [gmvRules, h]

/-- A header word whose row is not permitted, or whose symbols are looked at. -/
theorem gmvRules_word {h : Nat} (hword : gmvWord s g p = .ok h) : gmvRules g (n + 1) i p depth s =
    if ¬ h / 2 ^ 17 % 2 = 1 ∧ h / 2 ^ 18 ≠ 0 then (s, some (gram 6), p + 4, i)
    else ruleSymbols s g n i depth (decide (h / 2 ^ 17 % 2 = 1)) (h / 2 ^ 18) (p + 4 + 4 * (h % 2 ^ 12)) (h / 2 ^ 12 % 32)
      (gmvSyms s g i depth (h % 2 ^ 12) (p + 4) (none, 0) 0) := by
  have hlt := gmvWord_lt hword
  have horow : bits h 31 18 = h / 2 ^ 18 := Nat.mod_eq_of_lt (by omega)
  have hcnt : bits h 11 0 = h % 2 ^ 12 := by simp [bits]
  have hd : bits h 16 12 = h / 2 ^ 12 % 32 := by simp [bits]
  rw [gmvRules, hword]
  dsimp only
  rw [testBit_17, horow, hcnt, hd]
  have hcond : (!decide (h / 2 ^ 17 % 2 = 1) && h / 2 ^ 18 != 0) = true ↔ ¬ h / 2 ^ 17 % 2 = 1 ∧ h / 2 ^ 18 ≠ 0 := by simp
  simp only [hcond]
  rfl

theorem gmvRules_symbol_error {h : Nat} (hword : gmvWord s g p = .ok h) (hrow : h / 2 ^ 17 % 2 = 1 ∨ h / 2 ^ 18 = 0) {e : GFail × Nat}
    (hsyms : gmvSyms s g i depth (h % 2 ^ 12) (p + 4) (none, 0) 0 = .error e) :
    gmvRules g (n + 1) i p depth s = (s, some e.1, e.2, i) := by
  rw [gmvRules_word hword, if_neg (by tauto), hsyms]
  rfl

/-- The rule whose symbols are all read. -/
theorem gmvRules_ruleEnd {h : Nat} (hword : gmvWord s g p = .ok h) (hrow : h / 2 ^ 17 % 2 = 1 ∨ h / 2 ^ 18 = 0) {ws : List Nat}
    (hlen : ws.length = h % 2 ^ 12)
    (hall : ∀ (q w : Nat), ws[q]? = some w → gmvWord s g (p + 4 + 4 * q) = .ok w ∧ symbolFault s g i w = none) :
    ∃ row, nthN row = ruleValue s g ws ∧ gmvRules g (n + 1) i p depth s =
      ruleEnd s g n i depth (decide (h / 2 ^ 17 % 2 = 1)) (h / 2 ^ 18) (p + 4 + 4 * (h % 2 ^ 12)) (h / 2 ^ 12 % 32)
        (((ws.filter fun w => decide (2 ^ 31 ≤ w)).map fun w => depth.getD (w % 2 ^ 11) 0).foldl max 0) row
        (allFlags g.nb fun b => (ruleSum s g ws b).2) := by
  obtain ⟨hvalue, hflags⟩ := sums_summed g.nb (shareOf s g) ws
  refine ⟨_, funext hvalue, ?_⟩
  rw [gmvRules_word hword, if_neg (by tauto), ← hlen, gmvSyms_all ws hall, ← deepest_eq, ruleSymbols, hflags]
  rfl

/-! ### What a rule leaves (R311, R313) -/

theorem gmvPutRow_frame (s : State) (g : Gmv) (r : Nat) (row : List Nat) : ∃ A, gmvPutRow s g r row = { s with acc := A } :=
  ⟨_, (gmvPutRow_eq s g r row).trans (putAcc_frame ..)⟩

theorem rowState_frame (s : State) (g : Gmv) (i : Nat) (row : List Nat) (f : Nat) :
    ∃ A F, rowState s g i row f = { s with acc := A, accFlg := F } := by
  obtain ⟨A, hA⟩ := gmvPutRow_frame s g (gmvRow g i) row
  rw [rowState, hA]
  exact ⟨A, _, rfl⟩

theorem putBlocks_acc (s : State) (ps : List (Space × Nat)) (bs : List (List Byte × Nat)) :
    (putBlocks s ps bs).acc = s.acc ∧ (putBlocks s ps bs).accFlg = s.accFlg := by
  rw [putBlocks_frame]
  exact ⟨rfl, rfl⟩

theorem rdAcc_of_acc {s t : State} (h : t.acc = s.acc) (core k b : Nat) : rdAcc t core k b = rdAcc s core k b := by
  rw [rdAcc, rdAcc, h]

theorem rdAccFlg_of_accFlg {s t : State} (h : t.accFlg = s.accFlg) (core n : Nat) : rdAccFlg t core n = rdAccFlg s core n := by
  rw [rdAccFlg, rdAccFlg, h]

theorem rdAcc_rowState {row : List Nat} (hrow : ∀ b, nthN row b < 2 ^ 32) (f k : Nat) {b : Nat} (hb : b < 64) :
    rdAcc (rowState s g i row f) g.core k b = if k = gmvRow g i then nthN row b else rdAcc s g.core k b :=
  rdAcc_putRow s g (gmvRow g i) hrow k hb

theorem rdAccFlg_rowState (row : List Nat) (f k : Nat) : rdAccFlg (rowState s g i row f) g.core k =
    if k = gmvRow g i / 64 then rdAccFlg s g.core k ||| BitVec.ofNat 5 f else rdAccFlg s g.core k := by
  have hflg : ∀ k, rdAccFlg (gmvPutRow s g (gmvRow g i) row) g.core k = rdAccFlg s g.core k := fun k => by
    obtain ⟨A, hA⟩ := gmvPutRow_frame s g (gmvRow g i) row
    rw [hA]
    rfl
  rw [rowState, rdAccFlg_orAccFlg, hflg]

theorem ruleValue_lt (ws : List Nat) (b : Nat) : ruleValue s g ws b < 2 ^ 32 := by
  unfold ruleValue
  split
  · refine summed_lt fun c hc => ?_
    obtain ⟨w, -, rfl⟩ := List.mem_map.1 hc
    exact shareOf_lt s g w b
  · decide

/-- The contributions of symbols without a fault are all there. -/
theorem contributions_eq {ws : List Nat} (h : ∀ w ∈ ws, symbolFault s g i w = none) {b : Nat} (hb : b < g.nb) :
    ws.filterMap (fun w => contribution s g w b) = ws.map fun w => shareOf s g w b := by
  induction ws with
  | nil => rfl
  | cons w ws ih =>
    rw [List.filterMap_cons, contribution_some (h w List.mem_cons_self) hb, ih fun v hv => h v (List.mem_cons_of_mem w hv)]
    rfl

/-- The state of a rule that has given its row to the accumulator and its blocks `ps` to memory. -/
def Gives (s : State) (g : Gmv) (i : Nat) (row : Nat → Nat) (f : Nat) (ps : List (Space × Nat)) (u : State) : Prop :=
  (∀ k b, b < 64 → rdAcc u g.core k b = if k = gmvRow g i then row b else rdAcc s g.core k b) ∧
    (∀ k, rdAccFlg u g.core k = if k = gmvRow g i / 64 then rdAccFlg s g.core k ||| BitVec.ofNat 5 f else rdAccFlg s g.core k) ∧
    (∀ sp a, rdByte u sp a = rdByte (putBlocks s ps (imageBlocks ((List.range 64).map row))) sp a) ∧
    SameTags (putBlocks s ps (imageBlocks ((List.range 64).map row))) u

theorem gives_rowState {row : List Nat} (hrow : ∀ b, nthN row b < 2 ^ 32) (f : Nat) :
    Gives s g i (nthN row) f [] (rowState s g i row f) := by
  refine ⟨fun k b hb => rdAcc_rowState hrow f k hb, fun k => rdAccFlg_rowState row f k, fun sp a => ?_, ?_⟩
  · obtain ⟨A, F, h⟩ := rowState_frame s g i row f
    rw [h]
    rfl
  · obtain ⟨A, F, h⟩ := rowState_frame s g i row f
    rw [h]
    exact ⟨rfl, rfl, rfl⟩

theorem gmvPutOut_ok {u : State} {o : Nat} {row : List Nat} {ps : List (Space × Nat)} (hlen : ps.length = 4)
    (hps : ∀ (k : Nat) (q : Space × Nat), ps[k]? = some q →
      matPlace u g.core g.cmd g.dst (fld g.dst 51 0 + 256 * o + 64 * k) 64 true = .ok q) :
    gmvPutOut u g o row =
      .ok (logMat u g.core g.cmd true (blockLocs ps) (putBlocks u ps (imageBlocks ((List.range 64).map (nthN row))))) := by
  have hok : okOr (fun k => matPlace u g.core g.cmd g.dst (recBase g.dst + 256 * o + 64 * k) 64 true) (List.range 4) = .ok ps := by
    have hv := okOr_ok (f := fun k => matPlace u g.core g.cmd g.dst (recBase g.dst + 256 * o + 64 * k) 64 true) (l := List.range 4)
      (v := fun k => ps.getD k (.mem, 0)) fun k hk => by
        have hk' : k < ps.length := by rw [hlen]; exact List.mem_range.1 hk
        rw [recBase_eq, hps k ps[k] (List.getElem?_eq_getElem hk'), List.getD_eq_getElem _ _ hk']
    rw [hv]
    congr 1
    refine List.ext_getElem (by simp [hlen]) fun k h1 h2 => ?_
    simp [List.getElem?_eq_getElem h2]
  rw [gmvPutOut, hok]
  rfl

theorem gives_output {row : List Nat} (hrow : ∀ b, nthN row b < 2 ^ 32) (f : Nat) (ps ls) (s0 : State) :
    Gives s g i (nthN row) f ps (logMat s0 g.core g.cmd true ls
      (putBlocks (rowState s g i row f) ps (imageBlocks ((List.range 64).map (nthN row))))) := by
  obtain ⟨hacc, hflg, -, -⟩ := gives_rowState (i := i) (s := s) (g := g) hrow f
  have hsame : SameStores (putBlocks s ps (imageBlocks ((List.range 64).map (nthN row))))
      (putBlocks (rowState s g i row f) ps (imageBlocks ((List.range 64).map (nthN row)))) := by
    refine SameStores.putBlocks ?_ ps _
    obtain ⟨A, F, h⟩ := rowState_frame s g i row f
    rw [h]
    exact ⟨⟨rfl, rfl, rfl⟩, ⟨rfl, rfl, rfl⟩⟩
  have hput := putBlocks_acc (rowState s g i row f) ps (imageBlocks ((List.range 64).map (nthN row)))
  generalize putBlocks (rowState s g i row f) ps (imageBlocks ((List.range 64).map (nthN row))) = t at hsame hput
  rw [logMat_frame, Gives]
  refine ⟨fun k b hb => ?_, fun k => ?_, hsame.rdByte, hsame.2⟩
  · exact (rdAcc_of_acc hput.1 g.core k b).trans (hacc k b hb)
  · exact (rdAccFlg_of_accFlg hput.2 g.core k).trans (hflg k)

theorem matPlace_rowState (row : List Nat) (f : Nat) (core : Nat) (c : MCmd) (r : Rec) (va m : Nat) (wr : Bool) :
    matPlace (rowState s g i row f) core c r va m wr = matPlace s core c r va m wr := by
  obtain ⟨A, F, h⟩ := rowState_frame s g i row f
  rw [h]
  rfl

/-- A rule whose checks pass goes on with the next rule. -/
theorem ruleEnd_goes {out : Bool} {orow next d deep : Nat} {row : List Nat} (hrow : ∀ b, nthN row b < 2 ^ 32) (f : Nat)
    (hd : d = deep + 1) (hlim : d ≤ g.dlim) {ps : List (Space × Nat)} (hnone : out = false → ps = [])
    (hps : out = true → orow < g.rows ∧ ps.length = 4 ∧ ∀ (k : Nat) (q : Space × Nat), ps[k]? = some q →
      matPlace s g.core g.cmd g.dst (fld g.dst 51 0 + 256 * orow + 64 * k) 64 true = .ok q) :
    ∃ u, ruleEnd s g n i depth out orow next d deep row f = gmvRules g n (i + 1) next (depth ++ [d]) u ∧
      Gives s g i (nthN row) f ps u := by
  rw [ruleEnd, if_neg (not_not.2 hd), if_neg hlim.not_gt]
  cases out with
  | false =>
    rw [hnone rfl]
    exact ⟨_, rfl, gives_rowState hrow f⟩
  | true =>
    obtain ⟨horow, hlen, hplace⟩ := hps rfl
    have hout := gmvPutOut_ok (u := rowState s g i row f) (g := g) (o := orow) (row := row) hlen fun k q hq => by
      rw [matPlace_rowState]
      exact hplace k q hq
    rw [if_neg (by simpa using horow), if_pos rfl, afterOutput, hout]
    exact ⟨_, rfl, gives_output hrow f ps _ _⟩

theorem ruleEnd_place_error {orow next d deep : Nat} {row : List Nat} {f : Nat} (hd : d = deep + 1) (hlim : d ≤ g.dlim)
    (horow : orow < g.rows) {k : Nat} {e : GFail} (hk : k < 4)
    (he : matPlace s g.core g.cmd g.dst (fld g.dst 51 0 + 256 * orow + 64 * k) 64 true = .error e)
    (hl : ∀ j, j < k → ∃ q, matPlace s g.core g.cmd g.dst (fld g.dst 51 0 + 256 * orow + 64 * j) 64 true = .ok q) :
    ruleEnd s g n i depth true orow next d deep row f = (s, some e, next, i) := by
  have hout : gmvPutOut (rowState s g i row f) g orow row = .error e := by
    rw [gmvPutOut, recBase_eq, okOr_range_error hk (by rw [matPlace_rowState]; exact he) fun j hj => by
      rw [matPlace_rowState]
      exact hl j hj]
    rfl
  rw [ruleEnd, if_neg (not_not.2 hd), if_neg hlim.not_gt, if_neg (by simpa using horow), if_pos rfl, afterOutput, hout]

/-- Values and flags of the columns, from the contributions themselves. -/
theorem ruleSum_eq {ws : List Nat} (h : ∀ w ∈ ws, symbolFault s g i w = none) {b : Nat} (hb : b < g.nb) :
    summed (ws.filterMap fun w => contribution s g w b) = ruleSum s g ws b := by
  rw [contributions_eq h hb]
  rfl

theorem ruleValue_eq {ws : List Nat} (h : ∀ w ∈ ws, symbolFault s g i w = none) :
    (fun b => if b < g.nb then (summed (ws.filterMap fun w => contribution s g w b)).1 else 0) = ruleValue s g ws := by
  funext b
  unfold ruleValue
  split
  next hb => rw [ruleSum_eq h hb]
  · rfl

theorem ruleFlags_eq {ws : List Nat} (h : ∀ w ∈ ws, symbolFault s g i w = none) :
    (List.range g.nb).foldl (fun f b => f ||| (summed (ws.filterMap fun w => contribution s g w b)).2) 0 =
      allFlags g.nb fun b => (ruleSum s g ws b).2 :=
  List.foldl_ext _ _ _ fun f b hb => by rw [ruleSum_eq h (List.mem_range.1 hb)]

theorem rule_stops {r : State × Option GFail × Nat × Nat} {e : GFail} {a : Nat × Nat} (h : r = (s, some e, a)) : r.1 = s ∧ r.2.1 = some e := by
  rw [h]
  exact ⟨rfl, rfl⟩

end

theorem grammarRule : GrammarRule := by
  intro s g stops word
  refine ⟨fun p => ⟨fun h => if_pos h, fun h => if_neg (by omega)⟩, gmvRead_law s g, gmvInput_law s g,
    fun h => rule_stops (gmvRun_short s g h), fun h64 k e hk he hl => rule_stops (gmvRun_header_error h64 hk he hl),
    fun h64 hw hlen hread => ?_, fun i p depth => ⟨rfl, rfl⟩, fun n i p depth => ?_⟩
  · obtain ⟨hbad, hcap, hsmall, hgo⟩ := gmvRun_header h64 hlen hread
    exact ⟨fun h => rule_stops (hbad h), fun hv h => rule_stops (hcap hv h), fun hv hc h => rule_stops (hsmall hv hc h), hgo⟩
  · intro r symbol
    refine ⟨fun e he => rule_stops (gmvRules_word_error he), fun h hword => ?_⟩
    intro out orow d cnt
    refine ⟨fun hout horow => rule_stops ((gmvRules_word hword).trans (if_pos ⟨hout, horow⟩)), fun hrow => ⟨fun q hq hprev => ?_, fun ws hlen hall => ?_⟩⟩
    · have hstop (e : GFail) (he : symbol q = .error e ∨ ∃ w, symbol q = .ok w ∧ symbolFault s g i w = some e) : stops r e := by
        obtain ⟨p', hp'⟩ := gmvSyms_stops (depth := depth) (sums := (none, 0)) (dmax := 0) q hq hprev he
        exact rule_stops (gmvRules_symbol_error hword hrow hp')
      exact ⟨fun e he => hstop e (.inl he), fun w e hw hf => hstop e (.inr ⟨w, hw, hf⟩)⟩
    · intro deepest row sum value place
      have hfaults : ∀ w ∈ ws, symbolFault s g i w = none := fun w hw => by
        obtain ⟨q, hq⟩ := List.mem_iff_getElem?.1 hw
        exact (hall q w hq).2
      obtain ⟨ws', hws', hr⟩ := gmvRules_ruleEnd (n := n) (depth := depth) hword hrow hlen hall
      have hvalue : nthN ws' = value := hws'.trans (ruleValue_eq hfaults).symm
      have hlt : ∀ b, nthN ws' b < 2 ^ 32 := fun b => by rw [hws']; exact ruleValue_lt ws b
      refine ⟨fun hd => ?_, fun hd hlim => ?_, fun hd hlim hout hrows => ?_, fun hd hlim hout hrows k e hk he hl => ?_,
        fun hd hlim ps hnone hps => ?_⟩
      · exact rule_stops (hr.trans (if_pos hd))
      · exact rule_stops (hr.trans ((if_neg (not_not.2 hd)).trans (if_pos hlim)))
      · refine rule_stops (hr.trans ((if_neg (not_not.2 hd)).trans ((if_neg hlim.not_gt).trans (if_pos ?_))))
        rw [decide_eq_true hout, decide_eq_true hrows]
        rfl
      · rw [decide_eq_true hout] at hr
        exact rule_stops (hr.trans (ruleEnd_place_error hd hlim hrows hk he hl))
      · obtain ⟨u, hu, hgives⟩ := ruleEnd_goes (out := decide out) (n := n) (next := p + 4 + 4 * cnt) hlt
          (allFlags g.nb fun b => (ruleSum s g ws b).2) hd hlim (fun h => hnone (of_decide_eq_false h)) (fun h => hps (of_decide_eq_true h))
        rw [hvalue, ← ruleFlags_eq hfaults] at hgives
        exact ⟨u, hr.trans hu, hgives⟩

end Sys2Proof.Machine
end

section

namespace Sys2Proof.Machine

/-! ### The queue of a core (R279) -/

/-- Tasks, queues and the clock of two states are the same. -/
def KeepsCommands (s t : State) : Prop := t.tasks = s.tasks ∧ t.matQueue = s.matQueue ∧ t.time = s.time

theorem KeepsCommands.refl (s : State) : KeepsCommands s s := ⟨rfl, rfl, rfl⟩

theorem KeepsCommands.trans {s t u : State} (h : KeepsCommands s t) (k : KeepsCommands t u) : KeepsCommands s u := by
  obtain ⟨htasks, hqueue, htime⟩ := h
  obtain ⟨ktasks, kqueue, ktime⟩ := k
  exact ⟨ktasks.trans htasks, kqueue.trans hqueue, ktime.trans htime⟩

theorem KeepsCommands.queueOf {s t : State} (h : KeepsCommands s t) (core : Nat) : queueOf t core = queueOf s core :=
  congrArg (fun m => (aget m core).getD []) h.2.1

theorem KeepsCommands.time {s t : State} (h : KeepsCommands s t) : t.time = s.time := h.2.2

theorem KeepsCommands.taskOf {s t : State} (h : KeepsCommands s t) (k : Nat) : taskOf t k = taskOf s k := congrArg (aget · k) h.1

theorem keeps_logMat (s0 : State) (core : Nat) (c : MCmd) (wr : Bool) (ls : List HLoc) (s : State) :
    KeepsCommands s (logMat s0 core c wr ls s) := by
  rw [logMat_frame]
  exact ⟨rfl, rfl, rfl⟩

theorem keeps_putBlocks (ps : List (Space × Nat)) (bs : List (List Byte × Nat)) (s : State) : KeepsCommands s (putBlocks s ps bs) := by
  rw [putBlocks_frame]
  exact ⟨rfl, rfl, rfl⟩

theorem putTile_acc (s : State) (core tile : Nat) (ws : List Nat) : ∃ A, putTile s core tile ws = { s with acc := A } :=
  ⟨_, putTile_frame s core tile ws⟩

theorem keeps_putTile (s : State) (core tile : Nat) (ws : List Nat) : KeepsCommands s (putTile s core tile ws) := by
  obtain ⟨A, hA⟩ := putTile_acc s core tile ws
  rw [hA]
  exact ⟨rfl, rfl, rfl⟩

theorem keeps_rowState (s : State) (g : Gmv) (i : Nat) (row : List Nat) (f : Nat) : KeepsCommands s (rowState s g i row f) := by
  obtain ⟨A, F, h⟩ := rowState_frame s g i row f
  rw [h]
  exact ⟨rfl, rfl, rfl⟩

section
variable {s : State} {core : Nat} {c : MCmd} {r : List MCmd}

theorem queueOf_setQueue (s : State) (core : Nat) (l : List MCmd) : queueOf (setQueue s core l) core = l := by
  unfold queueOf setQueue
  cases l with
  | nil => simp
  | cons c l => simp

theorem modHead_cons (h : queueOf s core = c :: r) (f : MCmd → MCmd) : modHead s core f = setQueue s core (f c :: r) := by
  rw [modHead, h]

theorem queueOf_modHead (h : queueOf s core = c :: r) (f : MCmd → MCmd) : queueOf (modHead s core f) core = f c :: r := by
  rw [modHead_cons h, queueOf_setQueue]

/-- A change of the head command changes queues alone. -/
theorem modHead_frame (s : State) (core : Nat) (f : MCmd → MCmd) : ∃ Q, modHead s core f = { s with matQueue := Q } := by
  unfold modHead
  split
  · exact ⟨s.matQueue, rfl⟩
  · exact ⟨_, rfl⟩

theorem matHead_of_empty (h : queueOf s core = []) : matHead s core = none := by
  rw [matHead, h]

theorem matHead_of_no_task (h : queueOf s core = c :: r) (ht : taskOf s c.task = none) : matHead s core = none := by
  rw [matHead, h]
  simp only [matTask, ht]

theorem matHead_of_ending (h : queueOf s core = c :: r) {tk : Task} (ht : taskOf s c.task = some tk) {f : FaultRec}
    (hs : tk.stopping = .kill f ∨ tk.stopping = .scrub f) : matHead s core = none := by
  rw [matHead, h]
  rcases hs with hs | hs <;> simp only [matTask, ht, hs]

theorem matHead_of_task (h : queueOf s core = c :: r) {tk : Task} (ht : taskOf s c.task = some tk)
    (hs : ∀ r, tk.stopping ≠ .kill r ∧ tk.stopping ≠ .scrub r) : matHead s core = some (c, tk) := by
  rw [matHead, h]
  simp only [matTask, ht]
  cases hst : tk.stopping with
  | kill f => exact absurd hst (hs f).1
  | scrub f => exact absurd hst (hs f).2
  | _ => rfl

/-- The head command is the queue's first. -/
theorem matHead_first (h : queueOf s core = c :: r) {k : MCmd} {tk : Task} (hk : matHead s core = some (k, tk)) : k = c := by
  rw [matHead, h] at hk
  dsimp only at hk
  split at hk
  · cases hk
  · split at hk
    · cases hk
    · cases hk
    · exact (congrArg Prod.fst (Option.some.inj hk)).symm

/-- The first command may change, no other and not its serial. -/
def HeadMoves (core : Nat) (c : MCmd) (r : List MCmd) (t : State) : Prop := ∃ c', queueOf t core = c' :: r ∧ c'.serial = c.serial

theorem headMoves_keeps {s t : State} (h : queueOf s core = c :: r) (hk : KeepsCommands s t) : HeadMoves core c r t :=
  ⟨c, (hk.queueOf core).trans h, rfl⟩

theorem headMoves_modHead {s t : State} (h : queueOf s core = c :: r) (hk : KeepsCommands s t) {f : MCmd → MCmd}
    (hf : (f c).serial = c.serial) : HeadMoves core c r (modHead t core f) :=
  ⟨f c, queueOf_modHead ((hk.queueOf core).trans h) f, hf⟩

/-! ### Faults of a command (R297, R383, R410) -/

theorem matFault_queue (s : State) (core : Nat) (c : MCmd) (e : Err) (a : Nat) : (matFault s core c e a).matQueue = s.matQueue := by
  unfold matFault
  split
  · unfold waitPeer
    split <;> rfl
  · split <;> rfl

theorem headMoves_fault {s t : State} (h : queueOf s core = c :: r) (hk : KeepsCommands s t) (k : MCmd) (e : Err) (a : Nat) :
    HeadMoves core c r (matFault t core k e a) :=
  ⟨c, (congrArg (fun m => (aget m core).getD []) (matFault_queue t core k e a)).trans ((hk.queueOf core).trans h), rfl⟩

/-- A fault that neither waits nor is parked asks for the kill of the command's task. -/
theorem matFault_kills {e : Err} (hagain : e ≠ eAgain) (hpark : parks e none = false) (s : State) (core : Nat) (c : MCmd) (a : Nat) :
    matFault s core c e a = requestKill s c.task ⟨e.1, e.2, core, c.sidx, 0xFF, pcCode c.pc, a, s.time, e.1 != 0x05⟩ := by
  rw [matFault, if_neg hagain, hpark]
  rfl

theorem asked_keeps {s t u : State} (hk : KeepsCommands s t) {task : Nat} {f : FaultRec} (h : asked t u task f) : asked s u task f :=
  fun k hs => h k ((hk.taskOf task).trans hs)

theorem matFault_asks {s t : State} (hk : KeepsCommands s t) {e : Err} (hagain : e ≠ eAgain) (hpark : parks e none = false) (core : Nat)
    (c : MCmd) (a : Nat) :
    asked s (matFault t core c e a) c.task ⟨e.1, e.2, core, c.sidx, 0xFF, pcCode c.pc, a, s.time, e.1 != 0x05⟩ := by
  rw [matFault_kills hagain hpark, hk.time]
  exact asked_keeps hk (requestKill_asks t c.task _)

end

/-! ### What an evaluation keeps -/

section
variable (g : Gmv)

theorem keeps_gmvPutOut {s t : State} {o : Nat} {row : List Nat} (h : gmvPutOut s g o row = .ok t) : KeepsCommands s t := by
  unfold gmvPutOut at h
  cases hps : okOr (fun i => matPlace s g.core g.cmd g.dst (recBase g.dst + 256 * o + 64 * i) 64 true) (List.range 4) with
  | error e => rw [hps] at h; cases h
  | ok ps =>
    rw [hps] at h
    cases h
    exact (keeps_putBlocks ..).trans (keeps_logMat ..)

theorem keeps_gmvRules (n : Nat) : ∀ (i p : Nat) (depth : List Nat) (s : State), KeepsCommands s (gmvRules g n i p depth s).1 := by
  induction n with
  | zero => exact fun i p depth s => .refl s
  | succ n ih =>
    intro i p depth s
    have hend (out : Bool) (orow next d deep : Nat) (row : List Nat) (f : Nat) :
        KeepsCommands s (ruleEnd s g n i depth out orow next d deep row f).1 := by
      have hrow := keeps_rowState s g i row f
      unfold ruleEnd
      split
      · exact .refl s
      · split
        · exact .refl s
        · split
          · exact .refl s
          · split
            · unfold afterOutput
              cases hput : gmvPutOut (rowState s g i row f) g orow row with
              | error e => exact .refl s
              | ok t => exact (hrow.trans (keeps_gmvPutOut g hput)).trans (ih ..)
            · exact hrow.trans (ih ..)
    cases hword : gmvWord s g p with
    | error e =>
      rw [gmvRules_word_error hword]
      exact .refl s
    | ok h =>
      rw [gmvRules_word hword]
      split
      · exact .refl s
      · unfold ruleSymbols
        split
        · exact .refl s
        · exact hend ..

theorem keeps_gmvRun (s : State) : KeepsCommands s (gmvRun s g).1 := by
  unfold gmvRun
  split
  · exact .refl s
  · split
    · exact .refl s
    · dsimp only
      split
      · exact .refl s
      · split
        · exact .refl s
        · split
          · exact .refl s
          · exact keeps_gmvRules ..

theorem keeps_gmvLog (s0 s : State) (stop done : Nat) : KeepsCommands s (gmvLog s0 g stop done s) :=
  (keeps_logMat ..).trans (keeps_logMat ..)

end

end Sys2Proof.Machine
end

section

namespace Sys2Proof.Machine

/-! ### The head command alone moves (R279, R298) -/

section
variable {s : State} {core : Nat} {c : MCmd} {r : List MCmd}

theorem keeps_orAccFlg (s : State) (core tile f : Nat) : KeepsCommands s (orAccFlg s core tile f) := ⟨rfl, rfl, rfl⟩
theorem keeps_clrAccFlg (s : State) (core tile : Nat) : KeepsCommands s (clrAccFlg s core tile) := ⟨rfl, rfl, rfl⟩
theorem keeps_scrubTile (s : State) (core tile : Nat) : KeepsCommands s (scrubTile s core tile) := ⟨rfl, rfl, rfl⟩

/-- The step of an engine with the head command. -/
theorem headMoves_of_head {f : State → State} (h : queueOf s core = c :: r) (hnone : matHead s core = none → f s = s)
    (hsome : ∀ tk, matHead s core = some (c, tk) → HeadMoves core c r (f s)) : HeadMoves core c r (f s) := by
  cases hhead : matHead s core with
  | none =>
    rw [hnone hhead]
    exact headMoves_keeps h (.refl s)
  | some k =>
    obtain ⟨k, tk⟩ := k
    rw [matHead_first h hhead] at hhead
    exact hsome tk hhead

theorem matFetch_none (h : matHead s core = none) : matFetch s core = s := by rw [matFetch, h]
theorem matMma_none (h : matHead s core = none) : matMma s core = s := by rw [matMma, h]
theorem matZero_none (h : matHead s core = none) : matZero s core = s := by rw [matZero, h]
theorem matDrain_none (h : matHead s core = none) : matDrain s core = s := by rw [matDrain, h]
theorem matLd_none (h : matHead s core = none) : matLd s core = s := by rw [matLd, h]
theorem matSt_none (h : matHead s core = none) : matSt s core = s := by rw [matSt, h]
theorem gmvEval_none (h : matHead s core = none) : gmvEval s core = s := by rw [gmvEval, h]

theorem matFetch_moves (h : queueOf s core = c :: r) : HeadMoves core c r (matFetch s core) := by
  refine headMoves_of_head (f := (matFetch · core)) h matFetch_none fun tk hhead => ?_
  rw [matFetch, hhead]
  dsimp only
  split
  · split
    · exact headMoves_keeps h (.refl s)
    · split
      · exact headMoves_fault h (.refl s) ..
      · refine headMoves_modHead h ?_ ?_
        · exact (keeps_logMat ..).trans ⟨rfl, rfl, rfl⟩
        · rfl
  · exact headMoves_keeps h (.refl s)

theorem matMma_moves (h : queueOf s core = c :: r) : HeadMoves core c r (matMma s core) := by
  refine headMoves_of_head (f := (matMma · core)) h matMma_none fun tk hhead => ?_
  rw [matMma, hhead]
  dsimp only
  split
  · split
    · exact headMoves_modHead h ((((keeps_putTile ..).trans (keeps_orAccFlg ..)).trans (keeps_logMat ..)).trans (keeps_logMat ..)) rfl
    · exact headMoves_keeps h (.refl s)
  · exact headMoves_keeps h (.refl s)

theorem keeps_ifZero (s : State) (core tile : Nat) (only : Bool) : KeepsCommands s (if only then s else zeroTile s core tile) := by
  split
  · exact .refl s
  · exact ⟨rfl, rfl, rfl⟩

theorem matZero_moves (h : queueOf s core = c :: r) : HeadMoves core c r (matZero s core) := by
  refine headMoves_of_head (f := (matZero · core)) h matZero_none fun tk hhead => ?_
  rw [matZero, hhead]
  dsimp only
  split
  · split
    · exact headMoves_keeps h (.refl s)
    · exact headMoves_modHead h (((keeps_ifZero ..).trans (keeps_clrAccFlg ..)).trans (keeps_logMat ..)) rfl
  · exact headMoves_keeps h (.refl s)

/-- The tile of a drain behind it: its flags, and with CLEAR its elements (R292). -/
def drained (s : State) (core : Nat) (c : MCmd) (tile : Nat) (clr : Bool) (f : Nat) : State :=
  let s := orAccFlg (if clr then scrubTile s core tile else s) core tile f
  let s := logMat s core c false [.acc core tile] s
  if clr then logMat s core c true [.acc core tile] s else s

theorem keeps_drained (s : State) (core : Nat) (c : MCmd) (tile : Nat) (clr : Bool) (f : Nat) : KeepsCommands s (drained s core c tile clr f) := by
  unfold drained
  cases clr with
  | true => exact (((keeps_scrubTile ..).trans (keeps_orAccFlg ..)).trans (keeps_logMat ..)).trans (keeps_logMat ..)
  | false => exact (keeps_orAccFlg ..).trans (keeps_logMat ..)

theorem matDrain_moves (h : queueOf s core = c :: r) : HeadMoves core c r (matDrain s core) := by
  refine headMoves_of_head (f := (matDrain · core)) h matDrain_none fun tk hhead => ?_
  rw [matDrain, hhead]
  dsimp only
  split
  next code rm add clr dst a hkind =>
    split
    · exact headMoves_keeps h (.refl s)
    · split
      · exact headMoves_fault h (.refl s) ..
      next ps hps =>
        have hkeep := keeps_drained s core c (physTile tk a) clr ((drainImage code rm (tileWords s core (physTile tk a))).foldl (fun f b => f ||| b.2.2) 0)
        split
        · exact headMoves_modHead h hkeep rfl
        · exact headMoves_modHead h (hkeep.trans ((keeps_putBlocks ..).trans (keeps_logMat ..))) rfl
  · exact headMoves_keeps h (.refl s)

theorem matLd_moves (h : queueOf s core = c :: r) : HeadMoves core c r (matLd s core) := by
  refine headMoves_of_head (f := (matLd · core)) h matLd_none fun tk hhead => ?_
  rw [matLd, hhead]
  dsimp only
  split
  · split
    · exact headMoves_keeps h (.refl s)
    · split
      · exact headMoves_fault h (.refl s) ..
      · split
        · exact headMoves_fault h (.refl s) ..
        · exact headMoves_modHead h ((((keeps_putTile ..).trans (keeps_clrAccFlg ..)).trans (keeps_logMat ..)).trans (keeps_logMat ..)) rfl
  · exact headMoves_keeps h (.refl s)

theorem matSt_moves (h : queueOf s core = c :: r) : HeadMoves core c r (matSt s core) := by
  refine headMoves_of_head (f := (matSt · core)) h matSt_none fun tk hhead => ?_
  rw [matSt, hhead]
  dsimp only
  split
  · split
    · exact headMoves_keeps h (.refl s)
    · split
      · exact headMoves_fault h (.refl s) ..
      · exact headMoves_modHead h (((keeps_putBlocks ..).trans (keeps_logMat ..)).trans (keeps_logMat ..)) rfl
  · exact headMoves_keeps h (.refl s)

/-- The evaluation that a GMV command asks for (R309, R311). -/
def gmvOf (core : Nat) (tk : Task) (c : MCmd) (dst src inp : Rec) (w : W64) : Gmv :=
  ⟨core, tk.tile0, c, dst, src, inp, gmvNb w.toNat, gmvCap w.toNat, gmvBase w.toNat, 0, 0, 0, 0⟩

/-- What an evaluation leaves of the machine, from its result. -/
def gmvDone (s : State) (core : Nat) (c : MCmd) (g : Gmv) (res : State × Option GFail × Nat × Nat) : State :=
  match res with
  | (s', none, stop, done) => modHead (gmvLog s g stop done s') core fun c => { c with executed := true }
  | (s', some e, stop, done) =>
    if e.1 = eAgain then matFault s core c e.1 e.2
    else if parks e.1 none then matFault (gmvLog s g stop 0 s) core c e.1 e.2
    else matFault (gmvLog s g stop done s') core c e.1 e.2

theorem gmvDone_moves (h : queueOf s core = c :: r) (g : Gmv) : HeadMoves core c r (gmvDone s core c g (gmvRun s g)) := by
  have hkeep := keeps_gmvRun g s
  generalize gmvRun s g = res at hkeep
  obtain ⟨t, e, stop, done⟩ := res
  cases e with
  | none => exact headMoves_modHead h (hkeep.trans (keeps_gmvLog g s t stop done)) rfl
  | some e =>
    unfold gmvDone
    dsimp only
    split
    · exact headMoves_fault h (.refl s) ..
    · split
      · exact headMoves_fault h (keeps_gmvLog ..) ..
      · exact headMoves_fault h (hkeep.trans (keeps_gmvLog ..)) ..

theorem gmvEval_head {tk : Task} (hhead : matHead s core = some (c, tk)) {dst src inp : Rec} {w : W64} (hkind : c.kind = .gmv dst src inp w) :
    gmvEval s core = if c.executed || matParked s core then s
      else gmvDone s core c (gmvOf core tk c dst src inp w) (gmvRun s (gmvOf core tk c dst src inp w)) := by
  rw [gmvEval, hhead]
  simp only [hkind]
  rfl

theorem gmvEval_moves (h : queueOf s core = c :: r) : HeadMoves core c r (gmvEval s core) := by
  refine headMoves_of_head (f := (gmvEval · core)) h gmvEval_none fun tk hhead => ?_
  cases hkind : c.kind with
  | gmv dst src inp w =>
    rw [gmvEval_head hhead hkind]
    split
    · exact headMoves_keeps h (.refl s)
    · exact gmvDone_moves h _
  | _ =>
    have hidle : gmvEval s core = s := by
      rw [gmvEval, hhead]
      simp only [hkind]
    rw [hidle]
    exact headMoves_keeps h (.refl s)

/-- An event that only the head command of a task that goes on can move. -/
theorem head_event {i : Instr} {f : State → State} (hleads : Leads i s (f s)) (hnone : matHead s core = none → f s = s)
    (hmoves : ∀ c r, queueOf s core = c :: r → HeadMoves core c r (f s)) :
    (queueOf s core = [] → Leads i s s) ∧ ∀ c r, queueOf s core = c :: r →
      (taskOf s c.task = none → Leads i s s) ∧
      (∀ tk f, taskOf s c.task = some tk → tk.stopping = .kill f ∨ tk.stopping = .scrub f → Leads i s s) ∧
      ∃ t c', Leads i s t ∧ queueOf t core = c' :: r ∧ c'.serial = c.serial := by
  have hidle (hh : matHead s core = none) : Leads i s s := by
    have hl := hleads
    rwa [hnone hh] at hl
  refine ⟨fun h => hidle (matHead_of_empty h), fun c r h => ⟨fun ht => hidle (matHead_of_no_task h ht),
    fun tk f ht hs => hidle (matHead_of_ending h ht hs), ?_⟩⟩
  obtain ⟨c', hq, hserial⟩ := hmoves c r h
  exact ⟨_, c', hleads, hq, hserial⟩

end

end Sys2Proof.Machine
end

section

namespace Sys2Proof.Machine

/-- An event's answer, from its effect. -/
theorem leads_of_eq {i : Instr} {s t u : State} (he : t = u) (h : Leads i s t) : Leads i s u := he ▸ h

/-! ### Commands enter and leave the queue (R279, R280, R288) -/

section
variable (s : State) (core : Nat)

theorem inboxOf_setInbox (l : List MCmd) : inboxOf (setInbox s core l) core = l := by
  unfold inboxOf setInbox
  cases l with
  | nil => simp
  | cons c l => simp

theorem matAccept_law (c : MCmd) (r : List MCmd) (hin : inboxOf s core = c :: r) (hroom : (queueOf s core).length < 8) :
    ∃ t, Leads (.matrixQueueAccept core) s t ∧ t = { s with squads := t.squads, matQueue := t.matQueue, matInbox := t.matInbox } ∧
      queueOf t core = queueOf s core ++ [c] ∧ inboxOf t core = r ∧ SquadsBut s t c.squad (accepted c.serial) := by
  have hstep : matAccept s core =
      modSquad (setInbox (setQueue s core (queueOf s core ++ [c])) core r) c.squad (accepted c.serial) := by
    rw [matAccept, hin]
    exact if_pos hroom
  refine ⟨_, leads_of_eq hstep rfl, rfl, queueOf_setQueue s core _, inboxOf_setInbox _ core r, fun j => ?_⟩
  rw [squadOf_modSquad]
  by_cases hj : c.squad = j
  · rw [if_pos hj, if_pos hj.symm]
    rfl
  · rw [if_neg hj, if_neg (Ne.symm hj)]
    rfl

theorem stagedFire_law (n : Nat) (g : Staged) (hn : n < 8) (hg : aget s.staged (core * 8 + n) = some g) (htrig : g.trig = 0)
    (hroom : (queueOf s core).length < 8) :
    ∃ t, Leads (.stagedCommandFire core n) s t ∧
      t = { s with staged := adel s.staged (core * 8 + n), matQueue := t.matQueue, hist := t.hist, dcache := t.dcache,
                   active := t.active } ∧
      queueOf t core = queueOf s core ++ [g.cmd] := by
  have hstep : stagedFire s core n = setQueue { logEv s (.acquire (matWho s core g.cmd) 4 .die [.staged g.cmd.serial]) with
      staged := adel s.staged (core * 8 + n) } core (queueOf s core ++ [g.cmd]) := by
    rw [stagedFire, hg]
    exact if_pos ⟨htrig, hn, hroom⟩
  exact ⟨_, leads_of_eq hstep rfl, rfl, queueOf_setQueue _ core _⟩

theorem matComplete_law (c : MCmd) (r : List MCmd) (hq : queueOf s core = c :: r) (hdone : c.executed = true) (hhomes : c.homes = []) :
    ∃ t, Leads (.matrixCommandComplete core) s t ∧ queueOf t core = r ∧
      t = { s with matQueue := t.matQueue, engWaits := t.engWaits, hist := t.hist, dcache := t.dcache, active := t.active } := by
  have hstep : matComplete s core =
      logEv (peerDone (setQueue s core r) c.serial) (.release (matWho s core c) 4 .die (.matrix c.squad)) := by
    rw [matComplete, hq]
    exact if_pos (by rw [hdone, hhomes]; rfl)
  exact ⟨_, leads_of_eq hstep rfl, queueOf_setQueue s core r, rfl⟩

/-! ### Slots that wait for their readers (R283, R284) -/

theorem slotFree_law (slot : Nat) (w : SlotWait)
    (hw : (s.slotWaits.find? fun w => w.core == core && w.slot == slot && w.ext.isNone && slotReady s w) = some w) :
    ∃ t, Leads (.slotFreeEffect core slot) s t ∧ t = { s with tasks := t.tasks, slotWaits := s.slotWaits.filter (· ≠ w) } ∧
      ∀ j, taskOf t j = if j = w.task then (taskOf s j).map fun k => { k with claimed := k.claimed.filter (· ≠ w.name) } else taskOf s j := by
  have hstep : slotFreeEffect s core slot =
      modTask (takeSlotWait s w) w.task fun t => { t with claimed := t.claimed.filter (· ≠ w.name) } := by
    rw [slotFreeEffect, hw]
  refine ⟨_, leads_of_eq hstep rfl, rfl, fun j => ?_⟩
  by_cases hj : j = w.task
  · rw [if_pos hj, hj, taskOf_modTask_same]
    rfl
  · rw [if_neg hj, taskOf_modTask_ne _ _ hj]
    rfl

theorem slotExt_law (slot : Nat) (w : SlotWait) (e : Nat × Nat)
    (hw : (s.slotWaits.find? fun w => w.core == core && w.slot == slot && w.ext.isSome && slotReady s w) = some w) (he : w.ext = some e) :
    ∃ t, Leads (.slotExtentEffect core slot) s t ∧ t = { s with ext := t.ext, slotWaits := s.slotWaits.filter (· ≠ w) } ∧
      extOf t core slot = e := by
  have hstep : slotExtEffect s core slot = setExt (takeSlotWait s w) core slot e := by
    rw [slotExtEffect, hw]
    dsimp only
    rw [he]
    rfl
  refine ⟨_, leads_of_eq hstep rfl, rfl, ?_⟩
  rw [extOf, setExt, tget_tset, if_pos rfl]

end

/-- Only the record of events and what follows from it differ. -/
def Recorded (s t : State) : Prop := ∃ H D A, t = { s with hist := H, dcache := D, active := A }

theorem recorded_logMat (s0 : State) (core : Nat) (c : MCmd) (wr : Bool) (ls : List HLoc) (s : State) :
    Recorded s (logMat s0 core c wr ls s) := ⟨_, _, _, logMat_frame s0 core c wr ls s⟩

theorem recorded_logEv (s : State) (e : HEv) : Recorded s (logEv s e) := ⟨_, _, _, rfl⟩

theorem Recorded.trans {s t u : State} (h : Recorded s t) (k : Recorded t u) : Recorded s u := by
  obtain ⟨H, D, A, rfl⟩ := h
  obtain ⟨H', D', A', rfl⟩ := k
  exact ⟨H', D', A', rfl⟩

/-! ### Operands and product (R284-R287) -/

section
variable {s : State} {core : Nat} {c : MCmd} {r : List MCmd} {tk : Task}

theorem extPending_iff (o : Operand) : extPending s c o = true ↔
    ∃ w ∈ s.slotWaits, w.core = o.core ∧ w.slot = o.slot ∧ w.ext ≠ none ∧ c.serial ∉ w.readers := by
  simp [extPending, Option.isSome_iff_ne_none, and_assoc]

theorem physSlot_eq (name : Nat) : physSlot tk name = tk.slots.getD name 0 := (List.getD_eq_getElem?_getD ..).symm

theorem flatten_map_range {α : Type} (f : Nat → Nat → α) (m : Nat) :
    ((List.range m).map fun i => (List.range 64).map (f i)).flatten = (List.range (64 * m)).map fun n => f (n / 64) (n % 64) := by
  induction m with
  | zero => rfl
  | succ m ih =>
    rw [List.range_succ (n := m), List.map_append, List.flatten_append, ih, Nat.mul_succ, List.range_add, List.map_append, List.map_map]
    congr 1
    simp only [List.map_cons, List.map_nil, List.flatten_cons, List.flatten_nil, List.append_nil]
    refine List.map_congr_left fun j hj => ?_
    have hj := List.mem_range.1 hj
    rw [Function.comp_apply, show (64 * m + j) / 64 = m by omega, show (64 * m + j) % 64 = j by omega]

/-- One element of the product (R286). -/
def tileElem (s : State) (core tile : Nat) (z : Bool) (a b : Operand) (i j : Nat) : Nat × Nat :=
  let old := if z then 0 else rdAcc s core (64 * tile + i) j
  let k := min (opExt s a).2 (opExt s b).2
  if i < (opExt s a).1 ∧ j < (opExt s b).1 then addGroups 8 (opRow s a k i) (opRow s b k j) (old, 0) else (old, 0)

/-- The element as the model's product forms it. -/
def modelElem (s : State) (core tile : Nat) (z : Bool) (a b : Operand) (i j : Nat) : Nat × Nat :=
  let k := min (opExt s a).2 (opExt s b).2
  let old := if z then 0 else rdAcc s core (64 * tile + i) j
  if i < (opExt s a).1 ∧ j < (opExt s b).1 then
    addGroups 8 (if i < (opExt s a).1 then opRow s a k i else []) ((((List.range (opExt s b).1).map (opRow s b k))[j]?).getD []) (old, 0)
  else (old, 0)

theorem mmaTile_eq (s : State) (core tile : Nat) (z : Bool) (a b : Operand) :
    let es := (List.range 4096).map fun n => tileElem s core tile z a b (n / 64) (n % 64)
    mmaTile s core tile z a b = es.map (·.1) ++ [es.foldl (fun f e => f ||| e.2) 0] := by
  intro es
  have hrows := flatten_map_range (tileElem s core tile z a b) 64
  have hes : es = _ := hrows.symm
  rw [hes]
  have hmodel : mmaTile s core tile z a b = ((List.range 64).map fun i => (List.range 64).map (modelElem s core tile z a b i)).flatten.map (·.1) ++
      [((List.range 64).map fun i => (List.range 64).map (modelElem s core tile z a b i)).flatten.foldl (fun f e => f ||| e.2) 0] := rfl
  have helem : modelElem s core tile z a b = tileElem s core tile z a b := by
    funext i j
    unfold modelElem tileElem
    by_cases h : i < (opExt s a).1 ∧ j < (opExt s b).1
    · rw [if_pos h, if_pos h, if_pos h.1, List.getElem?_map, List.getElem?_range h.2]
      rfl
    · rw [if_neg h, if_neg h]
  rw [hmodel, helem]

/-- An operand's fetch neither waits for a device nor is parked. -/
def plainErr (e : Err) : Prop := e ≠ eAgain ∧ parks e none = false

theorem blockErr_plain {x y : Nat} {e : Err} (h : blockErr x y = some e) : plainErr e :=
  firstErr_forall (P := plainErr) (by simp [plainErr, eAgain, parks]) h

theorem opErr_plain {o : Operand} {e : Err} (h : opErr s o = some e) : plainErr e := by
  unfold opErr at h
  cases hfirst : blockErr (opFirst s o) (opFirst s o) with
  | some e' =>
    rw [hfirst] at h
    cases h
    exact blockErr_plain hfirst
  | none =>
    rw [hfirst] at h
    obtain ⟨b, -, hb⟩ := List.exists_of_findSome?_eq_some h
    exact blockErr_plain hb

theorem fetchErr_plain {a b : Nat} {e : Err} (h : fetchErr s core tk a b = some e) : plainErr e := by
  unfold fetchErr at h
  dsimp only at h
  split at h
  · cases h
    exact ⟨by decide, rfl⟩
  · cases ha : opErr s (operandOf tk core a) with
    | some e' =>
      rw [ha] at h
      cases h
      exact opErr_plain ha
    | none =>
      rw [ha] at h
      cases hb : opErr s (operandOf tk core b) with
      | some e' =>
        rw [hb] at h
        cases h
        exact opErr_plain hb
      | none =>
        rw [hb] at h
        dsimp only [Option.orElse] at h
        split at h
        · cases h
          exact ⟨by decide, rfl⟩
        · cases h

/-- A command with its operands fetched. -/
def withImage (ws : List Nat) (c : MCmd) : MCmd := { c with fetched := true, image := ws.map (BitVec.ofNat 32) }

section
variable {z : Bool} {d a b : Nat} (hhead : matHead s core = some (c, tk)) (hkind : c.kind = .mma z d a b)
include hhead hkind

theorem matFetch_waits (hwait : extPending s c (operandOf tk core a) = true ∨ extPending s c (operandOf tk core b) = true) :
    matFetch s core = s := by
  rw [matFetch, hhead]
  simp only [hkind]
  refine if_pos ?_
  rcases hwait with h | h <;> simp [h]

variable (hnew : c.fetched = false) (ha : extPending s c (operandOf tk core a) = false)
  (hb : extPending s c (operandOf tk core b) = false)
include hnew ha hb

theorem matFetch_fault {e : Err} (he : fetchErr s core tk a b = some e) : matFetch s core = matFault s core c e 0 := by
  rw [matFetch, hhead]
  simp only [hkind]
  rw [if_neg (by simp [hnew, ha, hb]), he]

/-- The head product has fetched its operands (R285). -/
theorem matFetch_fetches (he : fetchErr s core tk a b = none) :
    ∃ t, Recorded s t ∧ matFetch s core = modHead t core
      (withImage (mmaTile s core (physTile tk d) z (operandOf tk core a) (operandOf tk core b))) := by
  let u := logMat s core c false [.slot core (operandOf tk core a).slot, .slot core (operandOf tk core b).slot] s
  refine ⟨_, (recorded_logMat ..).trans (recorded_logEv u (.release (matWho u core c) 4 .die (.fetched c.serial))), ?_⟩
  rw [matFetch, hhead]
  simp only [hkind]
  rw [if_neg (by simp [hnew, ha, hb]), he]
  rfl

end

/-- The fetched image holds the elements of the product, and the flags behind them. -/
theorem mmaTile_get (tile : Nat) (z : Bool) (a b : Operand) {i j : Nat} (hi : i < 64) (hj : j < 64) :
    (((mmaTile s core tile z a b).map (BitVec.ofNat 32)).getD (64 * i + j) 0).toNat % 2 ^ 32 = (tileElem s core tile z a b i j).1 % 2 ^ 32 := by
  have hn : 64 * i + j < 4096 := by omega
  have hget : (mmaTile s core tile z a b)[64 * i + j]? = some (tileElem s core tile z a b i j).1 := by
    rw [mmaTile_eq, List.getElem?_append_left (by simpa using hn), List.getElem?_map, List.getElem?_map, List.getElem?_range hn]
    show some (tileElem s core tile z a b ((64 * i + j) / 64) ((64 * i + j) % 64)).1 = _
    rw [show (64 * i + j) / 64 = i by omega, show (64 * i + j) % 64 = j by omega]
  rw [List.getD_eq_getElem?_getD, List.getElem?_map, hget]
  exact Nat.mod_mod ..

end

end Sys2Proof.Machine
end

section

namespace Sys2Proof.Machine

/-! ### A command that has done its work -/

/-- Only queues, and the record of events, differ. -/
def Bare (s t : State) : Prop := ∃ Q H D A, t = { s with matQueue := Q, hist := H, dcache := D, active := A }

section
variable {s t : State}

theorem Bare.acc (h : Bare s t) : t.acc = s.acc := by
  obtain ⟨Q, H, D, A, rfl⟩ := h
  rfl

theorem Bare.accFlg (h : Bare s t) : t.accFlg = s.accFlg := by
  obtain ⟨Q, H, D, A, rfl⟩ := h
  rfl

theorem Bare.stores (h : Bare s t) : SameStores s t := by
  obtain ⟨Q, H, D, A, rfl⟩ := h
  exact ⟨⟨rfl, rfl, rfl⟩, ⟨rfl, rfl, rfl⟩⟩

theorem Bare.rdAcc (h : Bare s t) (core k b : Nat) : rdAcc t core k b = rdAcc s core k b := rdAcc_of_acc h.acc core k b
theorem Bare.rdAccFlg (h : Bare s t) (core n : Nat) : rdAccFlg t core n = rdAccFlg s core n := rdAccFlg_of_accFlg h.accFlg core n

theorem Bare.frame (h : Bare s t) :
    t = { s with matQueue := t.matQueue, hist := t.hist, dcache := t.dcache, active := t.active } := by
  obtain ⟨Q, H, D, A, rfl⟩ := h
  rfl

/-- With elements and flags of the accumulator changed before. -/
theorem Bare.frame_acc {B : Tbl W32} {F : Tbl (BitVec 5)} (h : Bare { s with acc := B, accFlg := F } t) :
    t = { s with matQueue := t.matQueue, acc := t.acc, accFlg := t.accFlg, hist := t.hist, dcache := t.dcache,
                 active := t.active } := by
  obtain ⟨Q, H, D, A, rfl⟩ := h
  rfl

end

section
variable {s : State} {core : Nat} {c : MCmd} {r : List MCmd} {tk : Task}

theorem Recorded.keeps {s t : State} (h : Recorded s t) : KeepsCommands s t := by
  obtain ⟨H, D, A, rfl⟩ := h
  exact ⟨rfl, rfl, rfl⟩

/-- The head command changed in a state that keeps the commands. -/
theorem modHead_law {v u : State} (hrec : Recorded v u) (hq : queueOf s core = c :: r) (hk : KeepsCommands s v) (f : MCmd → MCmd) :
    Bare v (modHead u core f) ∧ queueOf (modHead u core f) core = f c :: r := by
  refine ⟨?_, queueOf_modHead (((hk.trans hrec.keeps).queueOf core).trans hq) f⟩
  obtain ⟨H, D, A, rfl⟩ := hrec
  obtain ⟨Q, hQ⟩ := modHead_frame { v with hist := H, dcache := D, active := A } core f
  exact ⟨Q, H, D, A, hQ⟩

/-- A command with its results written. -/
def doneCmd (c : MCmd) : MCmd := { c with executed := true }

/-! ### Products and cleared tiles (R287, R290) -/

theorem tileElem_fst (tile : Nat) (z : Bool) (a b : Operand) (i j : Nat) : (tileElem s core tile z a b i j).1 =
    if i < (opExt s a).1 ∧ j < (opExt s b).1 then
      (addGroups 8 (opRow s a (min (opExt s a).2 (opExt s b).2) i) (opRow s b (min (opExt s a).2 (opExt s b).2) j)
        (if z then 0 else rdAcc s core (64 * tile + i) j, 0)).1
    else if z then 0 else rdAcc s core (64 * tile + i) j := by
  unfold tileElem
  exact apply_ite Prod.fst ..

theorem matMma_step {z : Bool} {d a b : Nat} (hhead : matHead s core = some (c, tk)) (hkind : c.kind = .mma z d a b)
    (hfetched : c.fetched = true) (hexec : c.executed = false) :
    let v := orAccFlg (putTile s core (physTile tk d) ((c.image.map (·.toNat)).take 4096)) core (physTile tk d) (nthN (c.image.map (·.toNat)) 4096)
    ∃ u, Recorded v u ∧ matMma s core = modHead u core doneCmd := by
  intro v
  refine ⟨_, (recorded_logMat v core c false [.acc core (physTile tk d)] v).trans
    (recorded_logMat v core c true [.acc core (physTile tk d)] _), ?_⟩
  rw [matMma, hhead]
  simp only [hkind]
  rw [if_pos (by simp [hfetched, hexec])]
  rfl

theorem mma_law {z : Bool} {d a b : Nat} (hq : queueOf s core = c :: r) (hhead : matHead s core = some (c, tk))
    (hkind : c.kind = .mma z d a b) (hfetched : c.fetched = true) (hexec : c.executed = false) (hlen : 4097 ≤ c.image.length) :
    ∃ t, Leads (.mmaExecute core) s t ∧
      t = { s with matQueue := t.matQueue, acc := t.acc, accFlg := t.accFlg, hist := t.hist, dcache := t.dcache, active := t.active } ∧
      queueOf t core = doneCmd c :: r ∧
      (∀ i j, i < 64 → j < 64 → rdAcc t core (64 * physTile tk d + i) j = (c.image.getD (64 * i + j) 0).toNat) ∧
      (∀ n, rdAccFlg t core n =
        if n = physTile tk d then rdAccFlg s core n ||| (c.image.getD 4096 0).setWidth 5 else rdAccFlg s core n) := by
  obtain ⟨u, hrec, hstep⟩ := matMma_step hhead hkind hfetched hexec
  have hget (n : Nat) : (c.image.map (·.toNat)).getD n 0 = (c.image.getD n 0).toNat := by
    rw [List.getD_eq_getElem?_getD, List.getD_eq_getElem?_getD, List.getElem?_map]
    cases c.image[n]? <;> rfl
  obtain ⟨A, hA⟩ := putTile_acc s core (physTile tk d) ((c.image.map (·.toNat)).take 4096)
  have hput (i j : Nat) (hi : i < 64) (hj : j < 64) :
      rdAcc (putTile s core (physTile tk d) ((c.image.map (·.toNat)).take 4096)) core (64 * physTile tk d + i) j =
        (c.image.getD (64 * i + j) 0).toNat := by
    rw [rdAcc_putTile s core _ (by simp; omega) hi hj, List.getD_eq_getElem?_getD, List.getElem?_take_of_lt (by omega),
      ← List.getD_eq_getElem?_getD, hget]
    exact Nat.mod_eq_of_lt (BitVec.isLt _)
  have hflg (n : Nat) : nthN (c.image.map (·.toNat)) n = (c.image.getD n 0).toNat := by
    rw [← hget, List.getD_eq_getElem?_getD, nthN]
  rw [hA] at hrec hput
  obtain ⟨hbare, hqueue⟩ := modHead_law hrec hq ⟨rfl, rfl, rfl⟩ doneCmd
  refine ⟨_, leads_of_eq hstep rfl, hbare.frame_acc, hqueue, fun i j hi hj => (hbare.rdAcc core _ j).trans (hput i j hi hj), fun n => ?_⟩
  rw [hbare.rdAccFlg, rdAccFlg_orAccFlg, hflg]
  rfl

theorem matZero_step {only : Bool} {d : Nat} (hhead : matHead s core = some (c, tk)) (hkind : c.kind = .zero only d)
    (hexec : c.executed = false) :
    let v := clrAccFlg (if only then s else zeroTile s core (physTile tk d)) core (physTile tk d)
    ∃ u, Recorded v u ∧ matZero s core = modHead u core doneCmd := by
  intro v
  refine ⟨_, recorded_logMat (if only then s else zeroTile s core (physTile tk d)) core c true [.acc core (physTile tk d)] v, ?_⟩
  rw [matZero, hhead]
  simp only [hkind]
  rw [if_neg (by simp [hexec])]
  rfl

theorem zero_law {only : Bool} {d : Nat} (hq : queueOf s core = c :: r) (hhead : matHead s core = some (c, tk))
    (hkind : c.kind = .zero only d) (hexec : c.executed = false) :
    ∃ t, Leads (.accZeroExecute core) s t ∧
      t = { s with matQueue := t.matQueue, acc := t.acc, accFlg := t.accFlg, hist := t.hist, dcache := t.dcache, active := t.active } ∧
      queueOf t core = doneCmd c :: r ∧ rdAccFlg t core (physTile tk d) = 0 ∧
      (∀ n, n ≠ physTile tk d → rdAccFlg t core n = rdAccFlg s core n) ∧
      (only = true → t.acc = s.acc) ∧
      (only = false → ∀ i j, i < 64 → j < 64 → rdAcc t core (64 * physTile tk d + i) j = 0) := by
  obtain ⟨u, hrec, hstep⟩ := matZero_step hhead hkind hexec
  have hkeep := (keeps_ifZero s core (physTile tk d) only).trans (keeps_clrAccFlg _ core (physTile tk d))
  obtain ⟨hbare, hqueue⟩ := modHead_law hrec hq hkeep doneCmd
  refine ⟨_, leads_of_eq hstep rfl, ?_, hqueue, ?_, fun n hn => ?_, fun ho => ?_, fun ho i j hi hj => ?_⟩
  · cases only with
    | true => exact hbare.frame_acc
    | false => exact hbare.frame_acc
  · rw [hbare.rdAccFlg, rdAccFlg_clrAccFlg, if_pos rfl]
  · rw [hbare.rdAccFlg, rdAccFlg_clrAccFlg, if_neg hn]
    cases only with
    | true => rfl
    | false => rfl
  · rw [hbare.acc, ho]
    rfl
  · rw [hbare.rdAcc, ho]
    exact rdAcc_zeroTile s core (physTile tk d) hi hj

/-! ### Operand fetch (R285) -/

theorem fetch_law {z : Bool} {d a b : Nat} (hq : queueOf s core = c :: r) (hhead : matHead s core = some (c, tk))
    (hkind : c.kind = .mma z d a b) (hnew : c.fetched = false) (ha : extPending s c (operandOf tk core a) = false)
    (hb : extPending s c (operandOf tk core b) = false) (he : fetchErr s core tk a b = none) :
    ∃ t img, Leads (.mmaOperandFetch core) s t ∧
      t = { s with matQueue := t.matQueue, hist := t.hist, dcache := t.dcache, active := t.active } ∧
      queueOf t core = { c with fetched := true, image := img } :: r ∧
      ∀ i j, i < 64 → j < 64 → (img.getD (64 * i + j) 0).toNat % 2 ^ 32 =
        (tileElem s core (physTile tk d) z (operandOf tk core a) (operandOf tk core b) i j).1 % 2 ^ 32 := by
  obtain ⟨u, hrec, hstep⟩ := matFetch_fetches hhead hkind hnew ha hb he
  obtain ⟨hbare, hqueue⟩ := modHead_law hrec hq (.refl s)
    (withImage (mmaTile s core (physTile tk d) z (operandOf tk core a) (operandOf tk core b)))
  exact ⟨_, _, leads_of_eq hstep rfl, hbare.frame, hqueue, fun i j hi hj => mmaTile_get _ z _ _ hi hj⟩

end

end Sys2Proof.Machine
end

section

namespace Sys2Proof.Machine

/-! ### Drains (R292) -/

theorem SameStores.trans {s t u : State} (h : SameStores s t) (k : SameStores t u) : SameStores s u := by
  obtain ⟨⟨hm, hs, hp⟩, ht, hst, hpt⟩ := h
  obtain ⟨⟨km, ks, kp⟩, kt, kst, kpt⟩ := k
  exact ⟨⟨km.trans hm, ks.trans hs, kp.trans hp⟩, kt.trans ht, kst.trans hst, kpt.trans hpt⟩

theorem Recorded.stores {s t : State} (h : Recorded s t) : SameStores s t := by
  obtain ⟨H, D, A, rfl⟩ := h
  exact ⟨⟨rfl, rfl, rfl⟩, ⟨rfl, rfl, rfl⟩⟩

theorem recorded_refl (s : State) : Recorded s s := ⟨_, _, _, rfl⟩

theorem Recorded.accs {s t : State} (h : Recorded s t) : t.acc = s.acc ∧ t.accFlg = s.accFlg := by
  obtain ⟨H, D, A, rfl⟩ := h
  exact ⟨rfl, rfl⟩

section
variable {s : State} {core : Nat} {c : MCmd} {r : List MCmd} {tk : Task}

/-- Elements and flags of the tile of a drain (R292). -/
def drainedTile (s : State) (core tile : Nat) (clr : Bool) (f : Nat) : State := orAccFlg (if clr then scrubTile s core tile else s) core tile f

theorem drained_recorded (s : State) (core : Nat) (c : MCmd) (tile : Nat) (clr : Bool) (f : Nat) :
    Recorded (drainedTile s core tile clr f) (drained s core c tile clr f) := by
  cases clr with
  | true => exact (recorded_logMat ..).trans (recorded_logMat ..)
  | false => exact recorded_logMat ..

theorem drained_stores (s : State) (core : Nat) (c : MCmd) (tile : Nat) (clr : Bool) (f : Nat) : SameStores s (drained s core c tile clr f) := by
  refine SameStores.trans ?_ (drained_recorded s core c tile clr f).stores
  cases clr with
  | true => exact ⟨⟨rfl, rfl, rfl⟩, ⟨rfl, rfl, rfl⟩⟩
  | false => exact ⟨⟨rfl, rfl, rfl⟩, ⟨rfl, rfl, rfl⟩⟩

/-- What a drain leaves of its tile. -/
theorem drained_tile (s : State) (core : Nat) (c : MCmd) (tile : Nat) (clr : Bool) (f : Nat) :
    let t := drained s core c tile clr f
    rdAccFlg t core tile = (if clr then 0 else rdAccFlg s core tile) ||| BitVec.ofNat 5 f ∧ (clr = false → t.acc = s.acc) ∧
      (clr = true → ∀ i j, i < 64 → j < 64 → rdAcc t core (64 * tile + i) j = 0) := by
  intro t
  obtain ⟨hacc, hflg⟩ := (drained_recorded s core c tile clr f).accs
  refine ⟨?_, fun hclr => ?_, fun hclr i j hi hj => ?_⟩
  · rw [rdAccFlg_of_accFlg hflg, drainedTile, rdAccFlg_orAccFlg, if_pos rfl]
    cases clr with
    | true =>
      rw [if_pos rfl, if_pos rfl, scrubTile, rdAccFlg_clrAccFlg, if_pos rfl]
    | false => rfl
  · rw [hacc, hclr]
    rfl
  · rw [rdAcc_of_acc hacc, hclr]
    exact rdAcc_zeroTile s core tile hi hj

section
variable {code : Nat} {rm : Rm} {add clr : Bool} {dst : Rec} {a : Nat} {ps : List (Space × Nat)}
  (hhead : matHead s core = some (c, tk)) (hkind : c.kind = .drain code rm add clr dst a) (hpark : matParked s core = false)
  (hexec : c.executed = false) (hps : regionBlocks s core c dst true = .ok ps)
include hhead hkind hpark hexec hps

/-- An add-on-store keeps the copy for its homes (R293). -/
def withHomes (ws : List Nat) (hs : List Nat) (c : MCmd) : MCmd := { c with executed := true, image := ws.map (BitVec.ofNat 32), homes := hs }

theorem matDrain_step : matDrain s core =
    let img := drainImage code rm (tileWords s core (physTile tk a))
    let u := drained s core c (physTile tk a) clr (img.foldl (fun f b => f ||| b.2.2) 0)
    if add then modHead u core (withHomes (tileWords s core (physTile tk a)) (dedup (ps.map homeOf)))
    else modHead (logMat u core c true (blockLocs ps) (putBlocks u ps (img.map fun b => (b.1, b.2.1)))) core doneCmd := by
  rw [matDrain, hhead]
  simp only [hkind]
  rw [if_neg (by simp [hexec, hpark]), hps]
  rfl

end

theorem drain_law {code : Nat} {rm : Rm} {clr : Bool} {dst : Rec} {a : Nat} {ps : List (Space × Nat)} (hq : queueOf s core = c :: r)
    (hhead : matHead s core = some (c, tk)) (hkind : c.kind = .drain code rm false clr dst a) (hpark : matParked s core = false)
    (hexec : c.executed = false) (hps : regionBlocks s core c dst true = .ok ps) :
    let img := drainImage code rm (tileWords s core (physTile tk a))
    ∃ t, Leads (.drainExecute core) s t ∧ queueOf t core = doneCmd c :: r ∧
      (∀ sp b, rdByte t sp b = rdByte (putBlocks s ps (img.map fun b => (b.1, b.2.1))) sp b) ∧
      SameTags (putBlocks s ps (img.map fun b => (b.1, b.2.1))) t ∧
      rdAccFlg t core (physTile tk a) = (if clr then 0 else rdAccFlg s core (physTile tk a)) |||
        BitVec.ofNat 5 (img.foldl (fun f b => f ||| b.2.2) 0) ∧
      (clr = false → t.acc = s.acc) ∧ (clr = true → ∀ i j, i < 64 → j < 64 → rdAcc t core (64 * physTile tk a + i) j = 0) := by
  intro img
  have hstep := matDrain_step hhead hkind hpark hexec hps
  let bs := img.map fun b => (b.1, b.2.1)
  let f := img.foldl (fun f b => f ||| b.2.2) 0
  let u := drained s core c (physTile tk a) clr f
  have hkeep := (keeps_drained s core c (physTile tk a) clr f).trans (keeps_putBlocks ps bs u)
  have hstores := (drained_stores s core c (physTile tk a) clr f).putBlocks ps bs
  obtain ⟨hflg, hacc, hzero⟩ := drained_tile s core c (physTile tk a) clr f
  obtain ⟨hpacc, hpflg⟩ := putBlocks_acc u ps bs
  obtain ⟨hbare, hqueue⟩ := modHead_law (recorded_logMat u core c true (blockLocs ps) _) hq hkeep doneCmd
  have hall := hstores.trans hbare.stores
  refine ⟨_, leads_of_eq hstep rfl, hqueue, fun sp b => hall.rdByte sp b, hall.2, ?_, fun hclr => ?_, fun hclr i j hi hj => ?_⟩
  · exact (rdAccFlg_of_accFlg (hbare.accFlg.trans hpflg) core _).trans hflg
  · exact (hbare.acc.trans hpacc).trans (hacc hclr)
  · exact (rdAcc_of_acc (hbare.acc.trans hpacc) core _ j).trans (hzero hclr i j hi hj)

/-- A list without repetitions that holds what `l` holds. -/
theorem mem_dedup (l : List Nat) (n : Nat) : n ∈ dedup l ↔ n ∈ l := by
  have hfold (m : List Nat) : n ∈ l.foldl (fun acc a => if acc.contains a then acc else acc ++ [a]) m ↔ n ∈ m ∨ n ∈ l := by
    induction l generalizing m with
    | nil => simp
    | cons a l ih =>
      rw [List.foldl_cons, ih, List.mem_cons]
      by_cases ha : a ∈ m
      · rw [if_pos (by simpa using ha)]
        constructor
        · tauto
        · rintro (h | rfl | h) <;> tauto
      · rw [if_neg (by simpa using ha), List.mem_append, List.mem_singleton, or_assoc]
  rw [dedup, hfold]
  simp

theorem drain_add_law {code : Nat} {rm : Rm} {clr : Bool} {dst : Rec} {a : Nat} {ps : List (Space × Nat)} (hq : queueOf s core = c :: r)
    (hhead : matHead s core = some (c, tk)) (hkind : c.kind = .drain code rm true clr dst a) (hpark : matParked s core = false)
    (hexec : c.executed = false) (hps : regionBlocks s core c dst true = .ok ps) :
    ∃ t hs, Leads (.drainExecute core) s t ∧ SameBytes s t ∧ SameTags s t ∧
      queueOf t core = withHomes (tileWords s core (physTile tk a)) hs c :: r ∧ ∀ n, n ∈ hs ↔ ∃ p ∈ ps, homeOf p = n := by
  have hstep := matDrain_step hhead hkind hpark hexec hps
  let f := (drainImage code rm (tileWords s core (physTile tk a))).foldl (fun f b => f ||| b.2.2) 0
  obtain ⟨hbare, hqueue⟩ := modHead_law (recorded_refl (drained s core c (physTile tk a) clr f)) hq (keeps_drained s core c (physTile tk a) clr f)
    (withHomes (tileWords s core (physTile tk a)) (dedup (ps.map homeOf)))
  obtain ⟨hbytes, htags⟩ := (drained_stores s core c (physTile tk a) clr f).trans hbare.stores
  refine ⟨_, _, leads_of_eq hstep rfl, hbytes, htags, hqueue, fun n => ?_⟩
  rw [mem_dedup, List.mem_map]

/-! ### Transfers (R291) -/

/-- Words of blocks, one block after another. -/
theorem getElem?_flatMap_blocks {α : Type} {f : α → List Nat} {w : Nat} (hf : ∀ a, (f a).length = w) (l : List α) (k : Nat) {m : Nat} (hm : m < w) :
    (l.flatMap f)[w * k + m]? = (l[k]?).bind fun a => (f a)[m]? := by
  induction l generalizing k with
  | nil => simp
  | cons a l ih =>
    rw [List.flatMap_cons]
    cases k with
    | zero =>
      rw [Nat.mul_zero, Nat.zero_add, List.getElem?_append_left (by rw [hf]; exact hm)]
      rfl
    | succ k =>
      rw [List.getElem?_append_right (by rw [hf, Nat.mul_succ]; omega), hf, Nat.mul_succ, show w * k + w + m - w = w * k + m by omega, ih]
      rfl

/-- The words of a block as the engine reads them. -/
def blockWords (s : State) (core : Nat) (c : MCmd) (p : Space × Nat) : List Nat :=
  (List.range 16).map fun i => leVal (((matLook s core c p 64).drop (4 * i)).take 4)

theorem poisoned_tag (x : W16) : (x.toNat % 256 == 0xF8) = true ↔ x &&& 0xFF = 0xF8 := by
  have hand : (x &&& 0xFF).toNat = x.toNat % 256 := by
    rw [BitVec.toNat_and]
    exact Nat.and_two_pow_sub_one_eq_mod x.toNat 8
  rw [beq_iff_eq, ← hand, ← BitVec.toNat_inj]
  rfl

section
variable {d : Nat} {src dst : Rec} {a : Nat} {ps : List (Space × Nat)} (hhead : matHead s core = some (c, tk))
  (hpark : matParked s core = false) (hexec : c.executed = false)
include hhead hpark hexec

theorem matLd_step (hkind : c.kind = .accLd d src) (hps : regionBlocks s core c src false = .ok ps)
    (hclean : ∀ p ∈ ps, rdTag s p.1 (p.2 / 64) &&& 0xFF ≠ 0xF8) :
    let v := clrAccFlg (putTile s core (physTile tk d) (ps.flatMap (blockWords s core c))) core (physTile tk d)
    ∃ u, Recorded v u ∧ matLd s core = modHead u core doneCmd := by
  intro v
  have hfind : (ps.zipIdx.find? fun p => (rdTag s p.1.1 (p.1.2 / 64)).toNat % 256 == 0xF8) = none :=
    List.find?_eq_none.2 fun p hp hpoison => hclean p.1 (List.fst_mem_of_mem_zipIdx hp) ((poisoned_tag _).1 hpoison)
  let w := logMat s core c false (blockLocs ps) v
  refine ⟨_, (recorded_logMat s core c false (blockLocs ps) v).trans (recorded_logMat s core c true [.acc core (physTile tk d)] w), ?_⟩
  rw [matLd, hhead]
  simp only [hkind]
  rw [if_neg (by simp [hexec, hpark]), hps]
  dsimp only
  rw [hfind]
  rfl

theorem matSt_step (hkind : c.kind = .accSt dst a) (hps : regionBlocks s core c dst true = .ok ps) :
    let v := putBlocks s ps (imageBlocks (tileWords s core (physTile tk a)))
    ∃ u, Recorded v u ∧ matSt s core = modHead u core doneCmd := by
  intro v
  let w := logMat s core c false [.acc core (physTile tk a)] v
  refine ⟨_, (recorded_logMat s core c false [.acc core (physTile tk a)] v).trans (recorded_logMat s core c true (blockLocs ps) w), ?_⟩
  rw [matSt, hhead]
  simp only [hkind]
  rw [if_neg (by simp [hexec, hpark]), hps]
  rfl

end

end

end Sys2Proof.Machine
end

section

namespace Sys2Proof.Machine

section
variable {s : State} {core : Nat} {c : MCmd} {r : List MCmd} {tk : Task}

theorem accLd_law {d : Nat} {src : Rec} {ps : List (Space × Nat)} (hq : queueOf s core = c :: r) (hhead : matHead s core = some (c, tk))
    (hkind : c.kind = .accLd d src) (hpark : matParked s core = false) (hexec : c.executed = false)
    (hps : regionBlocks s core c src false = .ok ps) (hlen : ps.length = 256) (hclean : ∀ p ∈ ps, rdTag s p.1 (p.2 / 64) &&& 0xFF ≠ 0xF8) :
    ∃ t, Leads (.accLdExecute core) s t ∧ SameBytes s t ∧ SameTags s t ∧ queueOf t core = doneCmd c :: r ∧
      rdAccFlg t core (physTile tk d) = 0 ∧
      ∃ bs : Nat → List Byte, (∀ k p, ps[k]? = some p → MayRead s (matWho s core c) .M p.1 p.2 64 (bs k)) ∧
        ∀ i j, i < 64 → j < 64 →
          rdAcc t core (64 * physTile tk d + i) j = leVal (((bs ((64 * i + j) / 16)).drop (4 * (j % 16))).take 4) := by
  obtain ⟨u, hrec, hstep⟩ := matLd_step hhead hpark hexec hkind hps hclean
  let ws := ps.flatMap (blockWords s core c)
  let bs (k : Nat) : List Byte := ((ps[k]?).map fun p => matLook s core c p 64).getD []
  have hwords : 4096 ≤ ws.length := by
    have hsixteen : ws.length = (ps.map fun _ => 16).sum := by
      rw [List.length_flatMap]
      simp [blockWords]
    rw [hsixteen, List.map_const', List.sum_replicate, hlen]
    decide
  have hword {i j : Nat} (hi : i < 64) (hj : j < 64) :
      ws.getD (64 * i + j) 0 = leVal (((bs ((64 * i + j) / 16)).drop (4 * (j % 16))).take 4) := by
    have hk : (64 * i + j) / 16 < ps.length := by omega
    have hblock := getElem?_flatMap_blocks (f := blockWords s core c) (w := 16) (by simp [blockWords]) ps ((64 * i + j) / 16)
      (m := j % 16) (Nat.mod_lt _ (by decide))
    rw [show 16 * ((64 * i + j) / 16) + j % 16 = 64 * i + j by omega, List.getElem?_eq_getElem hk] at hblock
    rw [List.getD_eq_getElem?_getD, hblock, Option.bind_some, blockWords, List.getElem?_map, List.getElem?_range (Nat.mod_lt _ (by decide))]
    dsimp only [bs]
    rw [List.getElem?_eq_getElem hk]
    rfl
  have hput {i j : Nat} (hi : i < 64) (hj : j < 64) := rdAcc_putTile s core (physTile tk d) hwords hi hj
  obtain ⟨A, hA⟩ := putTile_acc s core (physTile tk d) ws
  rw [hA] at hput
  rw [show ps.flatMap (blockWords s core c) = ws from rfl, hA] at hrec
  obtain ⟨hbare, hqueue⟩ := modHead_law hrec hq ⟨rfl, rfl, rfl⟩ doneCmd
  refine ⟨_, leads_of_eq hstep rfl, hbare.stores.1, hbare.stores.2, hqueue, ?_, bs, fun k p hp => ?_, fun i j hi hj => ?_⟩
  · rw [hbare.rdAccFlg, rdAccFlg_clrAccFlg, if_pos rfl]
  · have hbs : bs k = matLook s core c p 64 := by
      dsimp only [bs]
      rw [hp]
      rfl
    rw [hbs]
    exact matLook_reads s core c p 64
  · rw [hbare.rdAcc]
    refine (hput hi hj).trans ?_
    rw [hword hi hj]
    exact Nat.mod_eq_of_lt (leVal_take_lt 4 _)

theorem accSt_law {dst : Rec} {a : Nat} {ps : List (Space × Nat)} (hq : queueOf s core = c :: r) (hhead : matHead s core = some (c, tk))
    (hkind : c.kind = .accSt dst a) (hpark : matParked s core = false) (hexec : c.executed = false)
    (hps : regionBlocks s core c dst true = .ok ps) :
    ∃ t, Leads (.accStExecute core) s t ∧ queueOf t core = doneCmd c :: r ∧ t.acc = s.acc ∧ t.accFlg = s.accFlg ∧
      (∀ sp b, rdByte t sp b = rdByte (putBlocks s ps (imageBlocks (tileWords s core (physTile tk a)))) sp b) ∧
      SameTags (putBlocks s ps (imageBlocks (tileWords s core (physTile tk a)))) t := by
  obtain ⟨u, hrec, hstep⟩ := matSt_step hhead hpark hexec hkind hps
  obtain ⟨hbare, hqueue⟩ := modHead_law hrec hq (keeps_putBlocks ..) doneCmd
  obtain ⟨hacc, hflg⟩ := putBlocks_acc s ps (imageBlocks (tileWords s core (physTile tk a)))
  exact ⟨_, leads_of_eq hstep rfl, hqueue, hbare.acc.trans hacc, hbare.accFlg.trans hflg, fun sp b => hbare.stores.rdByte sp b, hbare.stores.2⟩

/-! ### Evaluations (R311) -/

theorem gmvLog_recorded (s0 s : State) (g : Gmv) (stop done : Nat) : Recorded s (gmvLog s0 g stop done s) :=
  (recorded_logMat ..).trans (recorded_logMat ..)

section
variable {dst src inp : Rec} {w : W64} (hhead : matHead s core = some (c, tk)) (hkind : c.kind = .gmv dst src inp w)
  (hpark : matParked s core = false) (hexec : c.executed = false)
include hhead hkind hpark hexec

theorem gmvEval_runs : gmvEval s core = gmvDone s core c (gmvOf core tk c dst src inp w) (gmvRun s (gmvOf core tk c dst src inp w)) := by
  rw [gmvEval_head hhead hkind, if_neg (by simp [hexec, hpark])]

theorem gmv_law (hq : queueOf s core = c :: r) (hok : (gmvRun s (gmvOf core tk c dst src inp w)).2.1 = none) :
    let u := (gmvRun s (gmvOf core tk c dst src inp w)).1
    ∃ t, Leads (.gmvEvaluate core) s t ∧ SameBytes u t ∧ t.acc = u.acc ∧ t.accFlg = u.accFlg := by
  have hstep := gmvEval_runs hhead hkind hpark hexec
  have hkeep := keeps_gmvRun (gmvOf core tk c dst src inp w) s
  generalize gmvRun s (gmvOf core tk c dst src inp w) = res at hstep hkeep hok
  obtain ⟨u, e, stop, done⟩ := res
  dsimp only at hok hkeep ⊢
  subst hok
  obtain ⟨hbare, -⟩ := modHead_law (gmvLog_recorded s u (gmvOf core tk c dst src inp w) stop done) hq hkeep doneCmd
  exact ⟨_, leads_of_eq hstep rfl, hbare.stores.1, hbare.acc, hbare.accFlg⟩

theorem gmv_fault_law {e : GFail} (herr : (gmvRun s (gmvOf core tk c dst src inp w)).2.1 = some e) (hagain : e.1 ≠ eAgain)
    (hparks : parks e.1 none = false) : ∃ t, Leads (.gmvEvaluate core) s t ∧
      asked s t c.task ⟨e.1.1, e.1.2, core, c.sidx, 0xFF, pcCode c.pc, e.2, s.time, e.1.1 != 0x05⟩ := by
  have hstep := gmvEval_runs hhead hkind hpark hexec
  have hkeep := keeps_gmvRun (gmvOf core tk c dst src inp w) s
  generalize gmvRun s (gmvOf core tk c dst src inp w) = res at hstep hkeep herr
  obtain ⟨u, e', stop, done⟩ := res
  dsimp only at herr hkeep
  subst herr
  rw [gmvDone, if_neg hagain, hparks] at hstep
  exact ⟨_, leads_of_eq hstep rfl,
    matFault_asks (hkeep.trans (gmvLog_recorded s u (gmvOf core tk c dst src inp w) stop done).keeps) hagain hparks core c e.2⟩

end

end

end Sys2Proof.Machine
end

section

namespace Sys2Proof.Machine

/-! ### Add-on-stores (R293) -/

theorem SameStores.rdN {s t : State} (h : SameStores s t) (sp : Space) (a n : Nat) : rdN t sp a n = rdN s sp a n := by
  rw [Machine.rdN, Machine.rdN, rdBytes_eq_map, rdBytes_eq_map]
  simp only [h.rdByte]

/-- Steps that read and write stores alone do the same in states with the same stores. -/
theorem SameStores.foldl {α : Type} {f : State → α → State} (hf : ∀ s t a, SameStores s t → SameStores (f s a) (f t a)) (l : List α) {s t : State}
    (h : SameStores s t) : SameStores (l.foldl f s) (l.foldl f t) := by
  induction l generalizing s t with
  | nil => exact h
  | cons a l ih => exact ih (hf s t a h)

theorem keeps_foldl {α : Type} {f : State → α → State} (hf : ∀ s a, KeepsCommands s (f s a)) (l : List α) (s : State) :
    KeepsCommands s (l.foldl f s) := by
  induction l generalizing s with
  | nil => exact .refl s
  | cons a l ih => exact (hf s a).trans (ih (f s a))

/-- One word of a home's part: the old value and the image's, added (R293). -/
def addOneWord (image : List W32) (p : (Space × Nat) × Nat) (s : State) (i : Nat) : State :=
  wrN s p.1.1 (p.1.2 + 4 * i) 4 (addF fp32 .rne (rdN s p.1.1 (p.1.2 + 4 * i) 4) (image.getD (16 * p.2 + i) 0).toNat).1
/-- One block of a home's part. -/
def addOneBlock (image : List W32) (s : State) (p : (Space × Nat) × Nat) : State := (List.range 16).foldl (addOneWord image p) s

theorem addOneBlock_stores (image : List W32) (s t : State) (p : (Space × Nat) × Nat) (h : SameStores s t) :
    SameStores (addOneBlock image s p) (addOneBlock image t p) :=
  h.foldl (fun s t i h => by
    unfold addOneWord
    rw [h.rdN]
    exact h.wrBytes ..) _

theorem keeps_addOneBlock (image : List W32) (s : State) (p : (Space × Nat) × Nat) : KeepsCommands s (addOneBlock image s p) :=
  keeps_foldl (fun s i => by
    unfold addOneWord
    rw [wrN_frame]
    exact ⟨rfl, rfl, rfl⟩) _ s

/-- The command with a home behind it. -/
def homeDone (home : Nat) (c : MCmd) : MCmd := { c with homes := c.homes.filter (· ≠ home) }

/-- The blocks of a home, with their numbers. -/
def partOf (ps : List (Space × Nat)) (home : Nat) : List ((Space × Nat) × Nat) := ps.zipIdx.filter fun p => homeOf p.1 == home

theorem recorded_logEvs (es : List HEv) (s : State) : Recorded s (logEvs s es) := ⟨_, _, _, logEvs_frame es s⟩

theorem mixed_iff (s : State) (ps : List (Space × Nat)) (home : Nat) : ((partOf ps home).any fun p => decide ((rdTag s p.1.1 (p.1.2 / 64)).toNat ≠ fp32Desc)) = true ↔
    ¬ ∀ p ∈ partOf ps home, rdTag s p.1.1 (p.1.2 / 64) = 0x7F08 := by
  have htag (x : W16) : x.toNat ≠ fp32Desc ↔ x ≠ 0x7F08 := by
    rw [ne_eq, ne_eq, ← BitVec.toNat_inj]
    rfl
  simp [htag]

theorem rdTag_modHead (s : State) (core : Nat) (f : MCmd → MCmd) (sp : Space) (b : Nat) : rdTag (modHead s core f) sp b = rdTag s sp b := by
  obtain ⟨Q, hQ⟩ := modHead_frame s core f
  rw [hQ]
  cases sp <;> rfl

section
variable {s : State} {core home : Nat} {c : MCmd} {r : List MCmd} {code : Nat} {rm : Rm} {clr : Bool} {dst : Rec} {a : Nat}
  {ps : List (Space × Nat)} (hq : queueOf s core = c :: r) (hkind : c.kind = .drain code rm true clr dst a) (hhome : home ∈ c.homes)
  (hps : regionBlocks s core c dst true = .ok ps)
include hq hkind hhome hps

theorem addOn_step (hsame : ∀ p ∈ partOf ps home, rdTag s p.1.1 (p.1.2 / 64) = 0x7F08) :
    Recorded ((partOf ps home).foldl (addOneBlock c.image) (modHead s core (homeDone home))) (matAddHome s core home) := by
  let u := modHead s core (homeDone home)
  let ls := blockLocs ((partOf ps home).map (·.1))
  have htags : ((partOf ps home).any fun p => decide ((rdTag u p.1.1 (p.1.2 / 64)).toNat ≠ fp32Desc)) = false := by
    simp only [u, rdTag_modHead]
    exact Bool.eq_false_iff.2 fun h => (mixed_iff s ps home).1 h hsame
  have hstep : matAddHome s core home = logMat u core c true ls (logEvs ((partOf ps home).foldl (addOneBlock c.image) u)
      (ls.map fun l => .access (accRd (matWho u core c) .M l))) := by
    rw [matAddHome, hq]
    simp only [hkind]
    rw [if_neg (by simpa using hhome), hps]
    exact if_neg (Bool.eq_false_iff.1 htags)
  rw [hstep]
  exact (recorded_logEvs ..).trans (recorded_logMat ..)

theorem addOn_mixed_step (hmixed : ¬ ∀ p ∈ partOf ps home, rdTag s p.1.1 (p.1.2 / 64) = 0x7F08) :
    matAddHome s core home = engineFault (modHead s core (homeDone home)) c.task none
      (engineRec (modHead s core (homeDone home)) core c.sidx c.pc (0x09, 0x07) 0 true) := by
  have htags : ((partOf ps home).any fun p => decide ((rdTag (modHead s core (homeDone home)) p.1.1 (p.1.2 / 64)).toNat ≠ fp32Desc)) = true := by
    simp only [rdTag_modHead]
    exact (mixed_iff s ps home).2 hmixed
  rw [matAddHome, hq]
  simp only [hkind]
  rw [if_neg (by simpa using hhome), hps]
  exact if_pos htags

theorem addOn_law (hsame : ∀ p ∈ partOf ps home, rdTag s p.1.1 (p.1.2 / 64) = 0x7F08) :
    ∃ t, Leads (.addOnStore core home) s t ∧ queueOf t core = homeDone home c :: r ∧
      ∀ sp b, rdByte t sp b = rdByte ((partOf ps home).foldl (addOneBlock c.image) s) sp b := by
  have hrec := addOn_step hq hkind hhome hps hsame
  have hkeep := (keeps_foldl (keeps_addOneBlock c.image) (partOf ps home) (modHead s core (homeDone home))).trans hrec.keeps
  have hstores : SameStores s (modHead s core (homeDone home)) := by
    obtain ⟨Q, hQ⟩ := modHead_frame s core (homeDone home)
    rw [hQ]
    exact ⟨⟨rfl, rfl, rfl⟩, ⟨rfl, rfl, rfl⟩⟩
  have hbytes := (hstores.foldl (addOneBlock_stores c.image) (partOf ps home)).trans hrec.stores
  exact ⟨_, rfl, (hkeep.queueOf core).trans (queueOf_modHead hq _), fun sp b => hbytes.rdByte sp b⟩

theorem addOn_mixed_law (hmixed : ¬ ∀ p ∈ partOf ps home, rdTag s p.1.1 (p.1.2 / 64) = 0x7F08) :
    ∃ t, Leads (.addOnStore core home) s t ∧ SameBytes s t ∧ queueOf t core = homeDone home c :: r ∧
      asked s t c.task ⟨9, 7, core, c.sidx, 0xFF, pcCode c.pc, 0, s.time, true⟩ := by
  have hstep := addOn_mixed_step hq hkind hhome hps hmixed
  obtain ⟨Q, hQ⟩ := modHead_frame s core (homeDone home)
  have hqueue := queueOf_modHead hq (homeDone home)
  rw [hQ] at hstep hqueue
  exact ⟨_, leads_of_eq hstep rfl, ⟨rfl, rfl, rfl⟩, hqueue, requestKill_asks { s with matQueue := Q } c.task _⟩

end

end Sys2Proof.Machine
end

section

namespace Sys2Proof.Machine

/-! ### The events of the matrix engines -/

/-- An operand whose slot has new extents waiting behind commands ahead of this one (R284). -/
theorem extPending_false {s : State} {c : MCmd} {core n : Nat}
    (h : ¬ ∃ w ∈ s.slotWaits, w.core = core ∧ w.slot = n ∧ w.ext ≠ none ∧ c.serial ∉ w.readers) : extPending s c ⟨core, n⟩ = false :=
  Bool.eq_false_iff.2 fun hp => h ((extPending_iff (s := s) (c := c) ⟨core, n⟩).1 hp)

theorem headEvents (s : State) (core : Nat) :
    ∀ i ∈ [Instr.mmaOperandFetch core, .mmaExecute core, .accZeroExecute core, .drainExecute core, .accLdExecute core,
        .accStExecute core, .gmvEvaluate core],
      (queueOf s core = [] → Leads i s s) ∧
      (∀ c r, queueOf s core = c :: r →
        (taskOf s c.task = none → Leads i s s) ∧
        (∀ tk f, taskOf s c.task = some tk → tk.stopping = .kill f ∨ tk.stopping = .scrub f → Leads i s s) ∧
        ∃ t c', Leads i s t ∧ queueOf t core = c' :: r ∧ c'.serial = c.serial) := by
  intro i hi
  simp only [List.mem_cons, List.not_mem_nil, or_false] at hi
  rcases hi with rfl | rfl | rfl | rfl | rfl | rfl | rfl
  · exact head_event (f := (matFetch · core)) rfl matFetch_none fun c r => matFetch_moves
  · exact head_event (f := (matMma · core)) rfl matMma_none fun c r => matMma_moves
  · exact head_event (f := (matZero · core)) rfl matZero_none fun c r => matZero_moves
  · exact head_event (f := (matDrain · core)) rfl matDrain_none fun c r => matDrain_moves
  · exact head_event (f := (matLd · core)) rfl matLd_none fun c r => matLd_moves
  · exact head_event (f := (matSt · core)) rfl matSt_none fun c r => matSt_moves
  · exact head_event (f := (gmvEval · core)) rfl gmvEval_none fun c r => gmvEval_moves

theorem matrixSteps : MatrixStepsRule := by
  intro s core
  refine ⟨headEvents s core, matAccept_law s core, stagedFire_law s core, matComplete_law s core, fun c tk r hq htask hgoes => ?_,
    fun c r home code rm clr dst a ps hq hkind hhome hps => ⟨addOn_law hq hkind hhome hps, addOn_mixed_law hq hkind hhome hps⟩,
    slotFree_law s core, slotExt_law s core⟩
  have hhead := matHead_of_task hq htask hgoes
  intro tile words head
  have hwords (a : Nat) : tileWords s core (physTile tk a) = words a := rfl
  refine ⟨fun z d a b hkind hnew => ?_, fun z d a b hkind hfetched hexec hlen => mma_law hq hhead hkind hfetched hexec hlen,
    fun only d hkind hexec => zero_law hq hhead hkind hexec, fun hpark hexec => ⟨fun code rm clr dst a ps hkind hps => ?_,
      fun code rm clr dst a ps hkind hps => ?_, fun d src ps hkind hps hlen hclean => ?_, fun dst a ps hkind hps => ?_,
      fun dst src inp w hkind => ?_⟩⟩
  · intro oa ob later
    have hoa : operandOf tk core a = oa := congrArg (Operand.mk core) (physSlot_eq a)
    have hob : operandOf tk core b = ob := congrArg (Operand.mk core) (physSlot_eq b)
    refine ⟨fun hlater => ?_, fun ha hb he => ?_, fun ha hb e he => ?_⟩
    · have hidle := matFetch_waits hhead hkind (hlater.imp (fun h => (extPending_iff (c := c) _).2 (by rw [hoa]; exact h))
        (fun h => (extPending_iff (c := c) _).2 (by rw [hob]; exact h)))
      exact leads_of_eq hidle rfl
    · obtain ⟨t, img, hleads, hframe, hqueue, himage⟩ := fetch_law hq hhead hkind hnew (by rw [hoa]; exact extPending_false ha)
        (by rw [hob]; exact extPending_false hb) he
      refine ⟨t, img, hleads, hframe, hqueue, fun i j hi hj => ?_⟩
      rw [himage i j hi hj, tileElem_fst, hoa, hob]
      rfl
    · have hstep := matFetch_fault hhead hkind hnew (by rw [hoa]; exact extPending_false ha) (by rw [hob]; exact extPending_false hb) he
      obtain ⟨hagain, hparks⟩ := fetchErr_plain he
      refine ⟨_, leads_of_eq hstep rfl, matFault_asks (.refl s) hagain hparks core c 0, ?_⟩
      rw [matFault_kills hagain hparks]
      rfl
  · have hlaw := drain_law hq hhead hkind hpark hexec hps
    rw [hwords] at hlaw
    exact hlaw
  · obtain ⟨t, hs, hleads, hbytes, htags, hqueue, hmem⟩ := drain_add_law hq hhead hkind hpark hexec hps
    exact ⟨t, hs, hleads, hbytes, htags, hqueue, hmem⟩
  · exact accLd_law hq hhead hkind hpark hexec hps hlen hclean
  · have hlaw := accSt_law hq hhead hkind hpark hexec hps
    rw [hwords] at hlaw
    exact hlaw
  · intro g
    have hg : gmvOf core tk c dst src inp w = g := by
      simp [gmvOf, gmvNb, gmvCap, gmvBase, bits, g]
    rw [← hg]
    exact ⟨gmv_law hhead hkind hpark hexec hq, fun e he => gmv_fault_law hhead hkind hpark hexec he⟩

/-- Settles O52: the values of elements, the product, the grammar's evaluation, and each event of the engines from the state before it. -/
theorem matrixEngineEvents : Obligations.MatrixEngineEvents := ⟨elementValues, productRule, grammarRule, matrixSteps⟩

end Sys2Proof.Machine
end
